-- ==== Sys2Proof/Word.lean ====
section
/-! DEFINITION. The word and byte types of the machine, and nothing else (R5, R53). -/

namespace Sys2Proof

/-- A 64-bit scalar register, address, or instruction word (R53, R63). -/
abbrev Word := BitVec 64

/-- One byte of memory, scratchpad or table store (R5). -/
abbrev Byte := BitVec 8

/-- A vector register: 256 bytes, lane 0 in the low bits (R20). -/
abbrev VReg := BitVec 2048

/-- A lane mask: one bit for each of up to 256 lanes (R116). -/
abbrev Mask := BitVec 256

end Sys2Proof
end

