-- ==== Sys2Proof/Syntax.lean ====
section
/-! DEFINITION. The abstract syntax: one constructor of `Instr` for each row of the opcode table.
Instruction words come first, in the table's order; the steps that the device's own engines and the
agents outside it take (rows RING_FETCH to CONTEXT_CREATE) come after them. -/

namespace Sys2Proof

/-- The five streams, numbered by R2. -/
inductive StreamId where
  | c | l | v | m | s
  deriving DecidableEq, Repr

/-- The stream's number (R2). -/
def StreamId.num : StreamId → Nat
  | .c => 0 | .l => 1 | .v => 2 | .m => 3 | .s => 4

/-- The stream of a number (R2). -/
def StreamId.ofNum : Nat → Option StreamId
  | 0 => some .c | 1 => some .l | 2 => some .v | 3 => some .m | 4 => some .s | _ => none

/-- The WAIT byte (R55). -/
inductive Wait where
  /-- one token from every stream of the mask -/
  | tokens (mask : BitVec 4)
  /-- every older word retired, then the tokens of the mask -/
  | drain (mask : BitVec 4)
  /-- TICK = STAMP + 4·d -/
  | timed (d : BitVec 6)
  /-- TICK = STAMP + 4·d, and a token of other stream `x` -/
  | timedToken (x : BitVec 2) (d : BitVec 4)
  deriving DecidableEq, Repr

/-- The SIG byte (R58): REPLY 0 is none, j = 1–4 names other stream j − 1. -/
structure Sig where
  reply  : BitVec 3
  tokens : BitVec 4
  deriving DecidableEq, Repr

/-- The GUARD field (R61): `neg` is the sense bit, `p` the predicate. -/
structure Guard where
  neg : Bool
  p   : BitVec 3
  deriving DecidableEq, Repr

/-- The header of a word outside the V map. -/
structure Hdr where
  wait  : Wait
  sig   : Sig
  guard : Guard
  deriving DecidableEq, Repr

/-- The header of a V-map word (R65): it has a lane mask and MORE in place of a guard. -/
structure VHdr where
  wait : Wait
  sig  : Sig
  mask : BitVec 3
  more : Bool
  deriving DecidableEq, Repr

/-- A scalar source (R63). -/
inductive Src where
  | k (i : BitVec 4)
  | h (i : BitVec 4)
  deriving DecidableEq, Repr

/-- A scalar destination (R63). -/
inductive Dest where
  | k (i : BitVec 4)
  | push
  | discard
  deriving DecidableEq, Repr

/-- The F destination of WQPOP, which never pushes (R205). -/
inductive KeyDest where
  | k (i : BitVec 4)
  | discard
  deriving DecidableEq, Repr

/-- The comparison codes of CMP and CMPI (R94). -/
inductive Cond where
  | eq | ne | lt | ge | ltu | geu | gt | le | gtu | leu | tst | ntst
  deriving DecidableEq, Repr

/-- The lane conditions of VCMP (R126). -/
inductive VCond where
  | eq | ne | lt | le | gt | ge | un | ord
  deriving DecidableEq, Repr

/-- The signedness of MULH (R101). -/
inductive MulhMode where
  | uu | ss | su
  deriving DecidableEq, Repr

/-- The operation of ATOM (R214). -/
inductive AtomOp where
  | add | swp | min | max | and | or | xor
  deriving DecidableEq, Repr

/-- The scopes of an ordering (R113, R271). -/
inductive Scope where
  | stream | job | team | partition | system
  deriving DecidableEq, Repr

/-- The orderings of a read-modify-write (R214). -/
inductive RmwOrd where
  | rlx | acq | rel | ar
  deriving DecidableEq, Repr

/-- The orderings of FENCE (R213). -/
inductive FenceOrd where
  | acq | rel | ar
  deriving DecidableEq, Repr

/-- Ordering and offset of LD and ST (R113): `.ordered` is acquire on a load, release on a store. -/
inductive MemOrd where
  | rlx (off : BitVec 21)
  | ordered (scope : Scope) (off : BitVec 18)
  deriving DecidableEq, Repr

/-- The vector element formats by TYPE code (R20). -/
inductive ElemTy where
  | s8 | n8 | s16 | n16 | s32 | n32 | s64 | n64 | f8 | bf16 | f16 | f32 | f64 | e8s
  deriving DecidableEq, Repr

/-- The counts QLVL reads (R209). -/
inductive LevelKind where
  | qIn | qOut | tIn | tOut
  deriving DecidableEq, Repr

/-- The operation of CFLUSH (R198). -/
inductive FlushOp where
  | writeBack | invalidate | dropReplicas
  deriving DecidableEq, Repr

/-- The clamp field of VMOD (R67). -/
inductive Clamp where
  | none | unit | sym | sat
  deriving DecidableEq, Repr

/-- The five rounding modes (R36). -/
inductive RMode where
  | rne | rtz | rdn | rup | rmm
  deriving DecidableEq, Repr

/-- The two binary formats ATOMF adds in (R214). -/
inductive AtomFmt where
  | f32 | bf16
  deriving DecidableEq, Repr

/-- The kind of an access for translation and its fault record (R376). -/
inductive AccessKind where
  | read | write | fetch
  deriving DecidableEq, Repr

/-- An agent of the control space (R394, R395): a port by number, or the Crumb instance of a partition (R423). -/
inductive Agent where
  | port0 | port1
  | crumb (part : Nat)
  deriving DecidableEq, Repr

/-- One row of the opcode table (spec/opcode_table.json). Operand names follow the chapter that gives the
row its encoding. Jobs, commands and launches of the engine steps are named by their numbers in State. (DESIGN CHOICE, log 13.) -/
inductive Instr where
  -- common scalar map (R74)
  | nop (h : Hdr)
  | movi (h : Hdr) (d : Dest) (imm : BitVec 31)
  | movk (h : Hdr) (d : Dest) (a : Src) (hw : BitVec 2) (imm : BitVec 16)
  | mov (h : Hdr) (d : Dest) (a : Src)
  | add (h : Hdr) (d : Dest) (a b : Src)
  | sub (h : Hdr) (d : Dest) (a b : Src)
  | addi (h : Hdr) (d : Dest) (a : Src) (imm : BitVec 26)
  | and (h : Hdr) (d : Dest) (a b : Src)
  | or (h : Hdr) (d : Dest) (a b : Src)
  | xor (h : Hdr) (d : Dest) (a b : Src)
  | andn (h : Hdr) (d : Dest) (a b : Src)
  | shl (h : Hdr) (d : Dest) (a b : Src)
  | shr (h : Hdr) (d : Dest) (a b : Src)
  | sar (h : Hdr) (d : Dest) (a b : Src)
  | min (h : Hdr) (d : Dest) (a b : Src) (sgn : Bool)
  | max (h : Hdr) (d : Dest) (a b : Src) (sgn : Bool)
  | cmp (h : Hdr) (pd : BitVec 3) (a b : Src) (cc : Cond)
  | cmpi (h : Hdr) (pd : BitVec 3) (a : Src) (imm : BitVec 21) (cc : Cond)
  | sel (h : Hdr) (d : Dest) (pc : BitVec 3) (a b : Src)
  | pset (h : Hdr) (pd pa pb : BitVec 3) (tt : BitVec 4)
  | br (h : Hdr) (off : BitVec 36)
  | jmp (h : Hdr) (a : Src)
  | call (h : Hdr) (off : BitVec 36)
  | ret (h : Hdr)
  | retReg (h : Hdr) (a : Src)
  | loop (h : Hdr) (kc : BitVec 4) (off : BitVec 31)
  | lds (h : Hdr) (d : Dest) (a : Src) (size : BitVec 2) (sgn : Bool) (off : BitVec 21)
  | sts (h : Hdr) (src a : Src) (size : BitVec 2) (off : BitVec 21)
  | qpush (h : Hdr) (x : BitVec 2) (a : Src)
  | qpop (h : Hdr) (d : Dest) (x : BitVec 2)
  | qlvl (h : Hdr) (d : Dest) (kind : LevelKind) (x : BitVec 2)
  | stamp (h : Hdr) (d : Dest)
  | stampSet (h : Hdr) (d : Dest) (a : Src)
  | join (h : Hdr)
  | csrr (h : Hdr) (d : Dest) (csr : BitVec 12) (sel : BitVec 3)
  | csrw (h : Hdr) (d : Dest) (csr : BitVec 12) (sel : BitVec 3) (a : Src)
  | trap (h : Hdr) (code : BitVec 16)
  | idq (h : Hdr) (d : Dest) (sel : BitVec 8)
  -- C-only map (R75)
  | mul (h : Hdr) (d : Dest) (a b : Src)
  | mulh (h : Hdr) (d : Dest) (a b : Src) (mode : MulhMode)
  | div (h : Hdr) (d : Dest) (a b : Src) (sgn : Bool)
  | rem (h : Hdr) (d : Dest) (a b : Src) (sgn : Bool)
  | clz (h : Hdr) (d : Dest) (a : Src)
  | ctz (h : Hdr) (d : Dest) (a : Src)
  | popc (h : Hdr) (d : Dest) (a : Src)
  | bfx (h : Hdr) (d : Dest) (a : Src) (pos len : BitVec 6) (sx : Bool)
  | bfi (h : Hdr) (d : Dest) (a b : Src) (pos len : BitVec 6)
  | fshl (h : Hdr) (d : Dest) (a b n : Src)
  | fshr (h : Hdr) (d : Dest) (a b n : Src)
  | ld (h : Hdr) (d : Dest) (a : Src) (size : BitVec 2) (sgn : Bool) (ord : MemOrd)
  | st (h : Hdr) (src a : Src) (size : BitVec 2) (ord : MemOrd)
  | atom (h : Hdr) (d : Dest) (a b : Src) (op : AtomOp) (sgn : Bool) (ord : RmwOrd) (scope : Scope) (sz : Bool)
  | acas (h : Hdr) (d : Dest) (a b f : Src) (ord : RmwOrd) (scope : Scope) (sz : Bool)
  | atomf (h : Hdr) (d : Dest) (a b : Src) (ft : AtomFmt) (ord : RmwOrd) (scope : Scope)
  | fence (h : Hdr) (ord : FenceOrd) (scope : Scope)
  | dbar (h : Hdr) (d : Dest)
  | launch (h : Hdr) (d : Dest) (a b : Src)
  | wqpush (h : Hdr) (d : Dest) (q k p : Src)
  | wqpop (h : Hdr) (d : Dest) (kd : KeyDest) (q : Src)
  | ploop (h : Hdr) (d : Dest) (a : Src)
  | pnext (h : Hdr)
  | pgend (h : Hdr)
  | pexit (h : Hdr)
  | pacc (h : Hdr) (kc : BitVec 4) (a : Src)
  | pstat (h : Hdr) (d : Dest) (sel : BitVec 8)
  | apopen (h : Hdr) (slot : BitVec 2) (a : Src)
  | apnd (h : Hdr) (d : Dest) (slot : BitVec 2) (a b : Src)
  | apcommit (h : Hdr) (d : Dest) (slot : BitVec 2) (b : Src)
  | aptrunc (h : Hdr) (d : Dest) (slot : BitVec 2)
  | apfork (h : Hdr) (d : Dest) (slot : BitVec 2) (a : Src)
  | apstat (h : Hdr) (d : Dest) (slot : BitVec 2) (sel : BitVec 8)
  | discMark (h : Hdr) (a b : Src) (ts : Bool)
  | discKeep (h : Hdr) (a b : Src) (ts : Bool)
  | discLost (h : Hdr) (d : Dest) (b : Src)
  | discAck (h : Hdr)
  | ckpt (h : Hdr) (d : Dest) (a : Src)
  | tretRetry (h : Hdr)
  | tretNext (h : Hdr)
  | tretAbort (h : Hdr)
  | yield (h : Hdr) (d : Dest)
  -- V map, arithmetic class (R76)
  | vadd (h : VHdr) (vd va vb : BitVec 7) (ty : ElemTy)
  | vsub (h : VHdr) (vd va vb : BitVec 7) (ty : ElemTy)
  | vmul (h : VHdr) (vd va vb : BitVec 7) (ty : ElemTy)
  | vfma (h : VHdr) (vd va vb vc : BitVec 7) (ty : ElemTy)
  | vfms (h : VHdr) (vd va vb vc : BitVec 7) (ty : ElemTy)
  | vfnma (h : VHdr) (vd va vb vc : BitVec 7) (ty : ElemTy)
  | vdiv (h : VHdr) (vd va vb : BitVec 7) (ty : ElemTy)
  | vsqrt (h : VHdr) (vd va : BitVec 7) (ty : ElemTy)
  | vmin (h : VHdr) (vd va vb : BitVec 7) (ty : ElemTy)
  | vmax (h : VHdr) (vd va vb : BitVec 7) (ty : ElemTy)
  | vminn (h : VHdr) (vd va vb : BitVec 7) (ty : ElemTy)
  | vmaxn (h : VHdr) (vd va vb : BitVec 7) (ty : ElemTy)
  | vcmp (h : VHdr) (md : BitVec 3) (va vb : BitVec 7) (ty : ElemTy) (cc : VCond)
  | vclass (h : VHdr) (vd va : BitVec 7) (ty : ElemTy)
  | vrcpe (h : VHdr) (vd va : BitVec 7) (ty : ElemTy)
  | vrsqe (h : VHdr) (vd va : BitVec 7) (ty : ElemTy)
  | vrcps (h : VHdr) (vd va vb : BitVec 7) (ty : ElemTy)
  | vrsqs (h : VHdr) (vd va vb : BitVec 7) (ty : ElemTy)
  | vexp2 (h : VHdr) (vd va : BitVec 7) (ty : ElemTy)
  | vlog2 (h : VHdr) (vd va : BitVec 7) (ty : ElemTy)
  | vsin (h : VHdr) (vd va : BitVec 7) (ty : ElemTy)
  | vcos (h : VHdr) (vd va : BitVec 7) (ty : ElemTy)
  | vcvt (h : VHdr) (vd va : BitVec 7) (dst src : ElemTy) (part : BitVec 3)
  | vqblk (h : VHdr) (vd va : BitVec 7) (ty src : ElemTy) (b : BitVec 3)
  | vqblkGiven (h : VHdr) (vd va vs : BitVec 7) (ty src : ElemTy) (b : BitVec 3)
  | vdqblk (h : VHdr) (vd va vs : BitVec 7) (ty src : ElemTy) (b : BitVec 3)
  | viadd (h : VHdr) (vd va vb : BitVec 7) (ty : ElemTy)
  | visub (h : VHdr) (vd va vb : BitVec 7) (ty : ElemTy)
  | vimul (h : VHdr) (vd va vb : BitVec 7) (ty : ElemTy)
  | vimulh (h : VHdr) (vd va vb : BitVec 7) (ty : ElemTy)
  | vimad (h : VHdr) (vd va vb vc : BitVec 7) (ty : ElemTy)
  | vand (h : VHdr) (vd va vb : BitVec 7) (ty : ElemTy)
  | vor (h : VHdr) (vd va vb : BitVec 7) (ty : ElemTy)
  | vxor (h : VHdr) (vd va vb : BitVec 7) (ty : ElemTy)
  | vandn (h : VHdr) (vd va vb : BitVec 7) (ty : ElemTy)
  | vshl (h : VHdr) (vd va vb : BitVec 7) (ty : ElemTy)
  | vshr (h : VHdr) (vd va vb : BitVec 7) (ty : ElemTy)
  | vsar (h : VHdr) (vd va vb : BitVec 7) (ty : ElemTy)
  | vrot (h : VHdr) (vd va vb : BitVec 7) (ty : ElemTy)
  | vfshl (h : VHdr) (vd va vb vc : BitVec 7) (ty : ElemTy)
  | vfshr (h : VHdr) (vd va vb vc : BitVec 7) (ty : ElemTy)
  | vclz (h : VHdr) (vd va : BitVec 7) (ty : ElemTy)
  | vpopc (h : VHdr) (vd va : BitVec 7) (ty : ElemTy)
  -- V map, data class and the words of "Vector data, reduction and sampling" (R137)
  | vld (h : VHdr) (vd : BitVec 7) (ka : Src) (off : BitVec 14) (ty : ElemTy) (bm : Bool)
  | vst (h : VHdr) (vs : BitVec 7) (ka : Src) (off : BitVec 14) (ty : ElemTy) (bm : Bool)
  | vlds (h : VHdr) (vd : BitVec 7) (ka kb : Src) (ty : ElemTy)
  | vgats (h : VHdr) (vd : BitVec 7) (ka : Src) (vb : BitVec 7) (ty : ElemTy)
  | vscats (h : VHdr) (vs : BitVec 7) (ka : Src) (vb : BitVec 7) (ty : ElemTy)
  | vperm (h : VHdr) (vd va vb : BitVec 7) (ty : ElemTy)
  | vshuf (h : VHdr) (vd va vb vc : BitVec 7) (ty : ElemTy)
  | vbcast (h : VHdr) (vd : BitVec 7) (ka : Src) (ty : ElemTy)
  | vslideDn (h : VHdr) (vd va vb : BitVec 7) (kc : Src) (ty : ElemTy)
  | vslideUp (h : VHdr) (vd va vb : BitVec 7) (kc : Src) (ty : ElemTy)
  | vsel (h : VHdr) (vd va vb : BitVec 7) (mc : BitVec 3) (ty : ElemTy)
  | vext (h : VHdr) (va : BitVec 7) (kb : Src) (ty : ElemTy)
  | vins (h : VHdr) (vd : BitVec 7) (ka kb : Src) (ty : ElemTy)
  | vredsum (h : VHdr) (vd va : BitVec 7) (ty : ElemTy)
  | vredmax (h : VHdr) (vd va : BitVec 7) (ty : ElemTy)
  | vredmin (h : VHdr) (vd va : BitVec 7) (ty : ElemTy)
  | vredarg (h : VHdr) (vd va : BitVec 7) (ty : ElemTy) (least : Bool)
  | vscan (h : VHdr) (vd va : BitVec 7) (ty : ElemTy) (exc : Bool)
  | viota (h : VHdr) (vd : BitVec 7) (ty : ElemTy) (idx : Bool)
  | vmpop (h : VHdr) (ma : BitVec 3) (ty : ElemTy)
  | vmlog (h : VHdr) (md ma mb : BitVec 3) (tt : BitVec 4)
  | vtab (h : VHdr) (va : BitVec 7) (tl : BitVec 2) (kg : Src) (uns : Bool)
  | vsnap (h : VHdr) (vd va : BitVec 7)
  | vprefeq (h : VHdr) (va vb : BitVec 7) (ty : ElemTy)
  | vshort (h : VHdr) (vd va : BitVec 7) (kb : Src) (ty : ElemTy)
  | vmass (h : VHdr) (md : BitVec 3) (va : BitVec 7) (kb kc : Src)
  | vnoise (h : VHdr) (vd : BitVec 7) (ka kb kc : Src)
  | vbtest (h : VHdr) (md : BitVec 3) (va vb : BitVec 7) (ty : ElemTy)
  | vbset (h : VHdr) (vd va vb : BitVec 7) (ty : ElemTy)
  | vmod (wait : Wait) (sig : Sig) (neg abs : BitVec 3) (clamp : Clamp) (scale : BitVec 4) (rnd : Option RMode)
  -- M map (R77)
  | tdecl (h : Hdr) (t : BitVec 2) (f32 disc : Bool)
  | cbload (h : Hdr) (cb : BitVec 3) (kc ka : Src)
  | tlset (h : Hdr) (tl : BitVec 2) (kc : Src)
  | lmm (h : Hdr) (t tl : BitVec 2) (kc ka : Src) (nb : BitVec 12)
  | lmmFeed (h : Hdr) (t tl cf : BitVec 2) (kc : Src) (nb : BitVec 12)
  | cfeed (h : Hdr) (cf : BitVec 2) (ka : Src)
  | cunfeed (h : Hdr) (cf : BitVec 2)
  | lspill (h : Hdr) (t : BitVec 2) (ka : Src)
  | lfill (h : Hdr) (t : BitVec 2) (ka : Src)
  | lzero (h : Hdr) (t : BitVec 2)
  | lwake (h : Hdr) (mask : BitVec 4)
  | lstat (h : Hdr) (sel : BitVec 12)
  | tload (h : Hdr) (tl : BitVec 2) (kc ka : Src)
  | tsave (h : Hdr) (tl : BitVec 2) (kc ka : Src)
  -- copy and Sluice map (R78)
  | shape (h : Hdr) (sh : BitVec 3) (ks : Src)
  | cpy (h : Hdr) (d : Dest) (sh : BitVec 3) (km ks kn : Src)
  | cpyo (h : Hdr) (d : Dest) (sh : BitVec 3) (km ks kn : Src)
  | cpyoAppend (h : Hdr) (d : Dest) (sh : BitVec 3) (km ks kn : Src)
  | cpyc (h : Hdr) (d : Dest) (sh : BitVec 3) (km ks kc : Src)
  | pref (h : Hdr) (d : Dest) (sh : BitVec 3) (km kn : Src) (l1 : Bool)
  | cwait (h : Hdr) (kn : Src)
  | cwaitAll (h : Hdr)
  | cflush (h : Hdr) (d : Dest) (sh : BitVec 3) (km kn : Src) (op : FlushOp)
  | cstat (h : Hdr) (d : Dest) (sel : BitVec 5)
  | gath (h : Hdr) (d : Dest) (sh : BitVec 3) (km ks kn : Src)
  | gathp (h : Hdr) (d : Dest) (sh : BitVec 3) (km ks kn : Src)
  | scat (h : Hdr) (d : Dest) (sh : BitVec 3) (km ks kn : Src)
  -- steps of the device's engines: `j` is a job's number in State, `cmd` a command's number in its job
  | powerOn (fail : BitVec 8) (bad : List Nat)
  | ringFetch (j : Nat) (x : StreamId)
  | timedTargetMiss (j : Nat) (x : StreamId)
  | queueDeadlock (j : Nat)
  | budgetExpiry (j : Nat)
  | commandComplete (j cmd : Nat)
  | commandAsyncFault (j cmd : Nat)
  | sluiceBatch (j cmd : Nat)
  | lmeCommandStart (j : Nat)
  | lmmKStepDone (j : Nat)
  | lmeCommandComplete (j : Nat)
  | lmeAsyncFault (j : Nat)
  | subarrayGate (core : Nat) (sub : BitVec 2)
  | subarrayWakeDone (core : Nat) (sub : BitVec 2)
  | feedFetch (j : Nat) (cf : BitVec 2)
  | tableWalk (j : Nat) (va : Word) (kind : AccessKind)
  | resume (who : Agent) (part core : Nat)
  | abort (who : Agent) (part core : Nat)
  | invalidate (who : Agent) (part : Nat) (ctx : BitVec 16) (va len : Word)
  | invalidationDone (part : Nat)
  | frameCopy (src dst : Nat)
  | inletConsume (part : Nat) (inlet : BitVec 2)
  | launchReady (part : Nat) (seq : Word)
  | teamDispatch (part : Nat) (seq : Word) (cores : List Nat) (jstart : Nat)
  | jobStart (j : Nat)
  | completionRecordWrite (part : Nat) (seq : Word)
  | quantumExpiry (part : Nat) (seq : Word) (team : Nat)
  | swapWindowExpiry (j : Nat)
  | swapOutSave (j : Nat)
  | teamRestore (part : Nat) (seq : Word) (team : Nat) (cores : List Nat)
  | urgentPlace (part : Nat) (seq : Word) (cores : List Nat) (jstart : Nat)
  | victimResume (core : Nat)
  | bankPreload (part : Nat) (seq : Word) (core lin : Nat)
  | l1FusionChange (stop : Nat) (fuse : Bool)
  | proofIterationStart (j slot : Nat)
  | proofCommit (j : Nat)
  | proofLoopEnd (j : Nat)
  | hostMemRead (port : Bool) (addr : Nat) (bytes : Nat)
  | hostMemWrite (port : Bool) (addr : Nat) (data : List Byte)
  | backInvalidateSnoop (port : Bool) (line : Nat)
  | peerRequest (port : Bool) (addr : Nat) (bytes : Nat) (data : Option (List Byte))
  | semaphoreRead (who : Agent) (n : BitVec 4)
  | semaphoreWrite (who : Agent) (n : BitVec 4) (value : Word)
  | leaseExpiry (n : BitVec 4)
  | partcfgWrite (who : Agent) (part : Nat) (value : Word)
  | inletReset (who : Agent) (part : Nat) (mask : BitVec 4)
  | pqcfgClear (who : Agent) (part : Nat) (queue : BitVec 4) (value : Word)
  | registerWrite (who : Agent) (offset : Nat) (value : Word)
  | partitionReset (who : Agent) (part : Nat)
  | partitionResetDone (part : Nat)
  | fwUpdateImage (who : Agent) (stop : Nat)
  | fwAttest (who : Agent)
  | fwChangeLayout (who : Agent)
  | fwReadRecord (who : Agent)
  | fwExport (who : Agent) (stop : Nat)
  | fwImport (who : Agent) (stop : Nat) (frames : List Nat)
  | fwCommandComplete (ready : Bool)
  | patrolScrub (line : Nat)
  | frameRetire (frame : Nat)
  | spareCoreSubstitute (core : Nat)
  | flitCrcRetry (link : Nat)
  | ringLinkRetrain (link : Nat) (ok : Bool)
  | thermalWarningEnter
  | thermalWarningExit
  | thermalEmergencyEnter
  | thermalEmergencyExit
  | thermalTrip
  | issueGateUpdate (gates : List (Nat × Nat))
  | telemetryRefresh (part : Nat) (partPower temp modPower : Word)
  | cxlLinkReset (port : Bool)
  | tickAdvance
  | powerRemoved
  | cxlCompletion (port : Bool) (addr : Nat) (data : Option (List Byte))
  | hostCoherenceSnoop (port : Bool) (line : Nat)
  | faultService (part : Nat) (resume : Bool) (frame : Nat)
  | contextCreate (part : Nat) (ctx : BitVec 16) (root : Nat) (key : BitVec 4)
  deriving DecidableEq, Repr

end Sys2Proof
end

