-- ==== Sys2Proof/WellFormed.lean ====
section
/-! DEFINITION. The static legality of an instruction: what R54 to R79 and the instructions' own chapters refuse
from the word alone. A word whose fields fail it raises ILLEGAL. -/

namespace Sys2Proof

/-- Element width in bytes (R20). -/
def ElemTy.bytes : ElemTy → Nat
  | .s8 | .n8 | .f8 | .e8s => 1
  | .s16 | .n16 | .bf16 | .f16 => 2
  | .s32 | .n32 | .f32 => 4
  | .s64 | .n64 | .f64 => 8

/-- Lane width in bits of a TYPE. -/
def ElemTy.bits (t : ElemTy) : Nat := 8 * t.bytes

/-- The TYPE codes 0x0–0x7 (R20). -/
def ElemTy.isInt : ElemTy → Bool
  | .s8 | .n8 | .s16 | .n16 | .s32 | .n32 | .s64 | .n64 => true
  | _ => false

/-- The arithmetic float formats: f16, bf16, f32 and f64 (R123). -/
def ElemTy.isFloat : ElemTy → Bool
  | .bf16 | .f16 | .f32 | .f64 => true
  | _ => false

/-- Signed integer formats (R22). -/
def ElemTy.isSigned : ElemTy → Bool
  | .s8 | .s16 | .s32 | .s64 => true
  | _ => false

/-- Lanes of a vector register (R20). -/
def ElemTy.lanes (t : ElemTy) : Nat := 256 / t.bytes

/-- WAIT = 0x00 (R55). -/
def Wait.zero : Wait := .tokens 0

/-- SIG = 0x00 (R58). -/
def Sig.zero : Sig := ⟨0, 0⟩

/-- GUARD = 0b0111, an unguarded word (R61). -/
def Guard.always : Guard := ⟨false, 7⟩

/-- REPLY 5–7 is reserved (R58). -/
def Sig.ok (g : Sig) : Bool := g.reply.toNat ≤ 4

/-- GUARD = 0b1111 is reserved (R61). -/
def Guard.ok (g : Guard) : Bool := !(g.neg && g.p == 7)

/-- A header outside V: legal fields, and REPLY only where the word yields a value (R59). -/
def Hdr.ok (h : Hdr) (yields : Bool) : Bool := h.sig.ok && h.guard.ok && (yields || h.sig.reply == 0)

/-- The rendezvous words carry GUARD = 0b0111 (R206). -/
def Hdr.unguarded (h : Hdr) : Bool := h.guard == Guard.always

/-- A V header: legal fields (R58). Its REPLY is judged for the whole bundle (R59). -/
def VHdr.ok (h : VHdr) : Bool := h.sig.ok

/-- A V header of a word that requires MASK = m7 (R137). -/
def VHdr.okM7 (h : VHdr) : Bool := h.sig.ok && h.mask == 7

/-- The larger width over the smaller: parts of a conversion (R130). -/
def cvtRatio (d s : ElemTy) : Nat := max d.bytes s.bytes / min d.bytes s.bytes

/-- The format pairs VCVT accepts (R131). -/
def cvtPairOk (d s : ElemTy) : Bool :=
  if s.isInt then d.isInt || d.isFloat
  else if s.isFloat then d.isInt || d.isFloat || d == .f8 || d == .e8s
  else if s == .f8 then d.isFloat || d == .f8
  else d.isFloat || d == .e8s

/-- The sources VQBLK accepts (R132). -/
def qblkSrcOk : ElemTy → Bool
  | .bf16 | .f16 | .f32 => true
  | _ => false

/-- The CSR numbers of the table (R229); which streams hold one is judged at issue. -/
def csrKnown (n : Nat) : Bool :=
  n ≤ 7 || (0x10 ≤ n && n ≤ 0x15) || (0x40 ≤ n && n ≤ 0x4F) || (0x100 ≤ n && n ≤ 0x10F)

/-- The read-only CSR numbers (R229). -/
def csrReadOnly (n : Nat) : Bool := n == 5 || n == 6 || n == 7 || (0x40 ≤ n && n ≤ 0x4F)

/-- The selectors IDQ accepts (R225). -/
def idqSelOk (sel : Nat) : Bool := sel ≤ 6 || sel == 8 || sel == 9 || (0x10 ≤ sel && sel ≤ 0x17)

/-- The selectors LSTAT accepts (R180). -/
def lstatSelOk (sel : Nat) : Bool :=
  sel ≤ 1 || (0x10 ≤ sel && sel ≤ 0x13) || (0x18 ≤ sel && sel ≤ 0x1B) || (0x20 ≤ sel && sel ≤ 0x23) ||
    (0x28 ≤ sel && sel ≤ 0x2B) || (0x30 ≤ sel && sel ≤ 0x37)

/-- Static legality of one word (R54, R59, R61, R68, R206 and each word's own field limits); the engine steps
are no words and pass. `inV` leaves REPLY on a word that yields no value to the judgement of its bundle (R59). (DEDUCED, log 20.) -/
def Instr.legalIn (inV : Bool) : Instr → Bool
  | .nop h => h.ok inV
  | .movi h _ _ => h.ok true
  | .movk h _ _ _ _ => h.ok true
  | .mov h _ _ => h.ok true
  | .add h _ _ _ | .sub h _ _ _ | .and h _ _ _ | .or h _ _ _ | .xor h _ _ _ | .andn h _ _ _ => h.ok true
  | .shl h _ _ _ | .shr h _ _ _ | .sar h _ _ _ => h.ok true
  | .addi h _ _ _ => h.ok true
  | .min h _ _ _ _ | .max h _ _ _ _ => h.ok true
  | .cmp h _ _ _ _ => h.ok true
  | .cmpi h _ _ _ _ => h.ok true
  | .sel h _ _ _ _ => h.ok true
  | .pset h _ _ _ _ => h.ok true
  | .br h _ => h.ok inV
  | .jmp h _ => h.ok inV
  | .call h _ => h.ok inV
  | .ret h => h.ok inV
  | .retReg h _ => h.ok inV
  | .loop h _ _ => h.ok inV
  | .lds h _ _ size sgn _ => h.ok true && !(sgn && size == 3)
  | .sts h _ _ _ _ => h.ok inV
  | .qpush h _ _ => h.ok false
  | .qpop h _ _ => h.ok true
  | .qlvl h _ _ _ => h.ok true
  | .stamp h _ => h.ok true
  | .stampSet h _ _ => h.ok true
  | .join h => h.ok inV && h.unguarded && h.sig == Sig.zero
  | .csrr h _ c n => h.ok true && n != 5 && n != 6 && csrKnown c.toNat
  | .csrw h _ c n _ => h.ok true && n != 5 && n != 6 && csrKnown c.toNat && !csrReadOnly c.toNat
  | .trap h _ => h.ok false
  | .idq h _ n => h.ok true && idqSelOk n.toNat
  | .mul h _ _ _ => h.ok true
  | .mulh h _ _ _ _ => h.ok true
  | .div h _ _ _ _ | .rem h _ _ _ _ => h.ok true
  | .clz h _ _ | .ctz h _ _ | .popc h _ _ => h.ok true
  | .bfx h _ _ pos len _ => h.ok true && pos.toNat + (len.toNat + 1) ≤ 64
  | .bfi h _ _ _ pos len => h.ok true && pos.toNat + (len.toNat + 1) ≤ 64
  | .fshl h _ _ _ _ | .fshr h _ _ _ _ => h.ok true
  | .ld h _ _ size sgn _ => h.ok true && !(sgn && size == 3)
  | .st h _ _ _ _ => h.ok inV
  | .atom h _ _ _ op sgn _ _ _ => h.ok true && (!sgn || op == .min || op == .max)
  | .acas h _ _ _ _ _ _ _ => h.ok true
  | .atomf h _ _ _ _ _ _ => h.ok true
  | .fence h _ _ => h.ok inV
  | .dbar h _ => h.ok true && h.unguarded
  | .launch h _ _ _ => h.ok true
  | .wqpush h _ _ _ _ => h.ok true
  | .wqpop h _ _ _ => h.ok true
  | .ploop h _ _ => h.ok true
  | .pnext h | .pgend h | .pexit h => h.ok inV && h.unguarded
  | .pacc h _ _ => h.ok inV
  | .pstat h _ n => h.ok true && n.toNat ≤ 3
  | .apopen h _ _ => h.ok inV
  | .apnd h _ _ _ _ => h.ok true
  | .apcommit h _ _ _ => h.ok true
  | .aptrunc h _ _ => h.ok true
  | .apfork h _ _ _ => h.ok true
  | .apstat h _ _ n => h.ok true && n.toNat ≤ 2
  | .discMark h _ _ _ | .discKeep h _ _ _ => h.ok inV
  | .discLost h _ _ => h.ok true
  | .discAck h => h.ok inV
  | .ckpt h _ _ => h.ok true
  | .tretRetry h | .tretNext h | .tretAbort h => h.ok inV && h.unguarded && h.sig == Sig.zero
  | .yield h _ => h.ok true
  | .vadd h _ _ _ t | .vsub h _ _ _ t | .vmul h _ _ _ t | .vdiv h _ _ _ t => h.ok && t.isFloat
  | .vrcps h _ _ _ t | .vrsqs h _ _ _ t => h.ok && t.isFloat
  | .vfma h _ _ _ _ t | .vfms h _ _ _ _ t | .vfnma h _ _ _ _ t => h.ok && t.isFloat
  | .vsqrt h _ _ t | .vclass h _ _ t | .vrcpe h _ _ t | .vrsqe h _ _ t => h.ok && t.isFloat
  | .vmin h _ _ _ t | .vmax h _ _ _ t | .vminn h _ _ _ t | .vmaxn h _ _ _ t => h.ok && (t.isInt || t.isFloat)
  | .vcmp h _ _ _ t cc => h.ok && (t.isFloat || (t.isInt && cc != .un && cc != .ord))
  | .vexp2 h _ _ t | .vlog2 h _ _ t | .vsin h _ _ t | .vcos h _ _ t => h.ok && (t == .f32 || t == .bf16)
  | .vcvt h _ _ d s part => h.ok && cvtPairOk d s && part.toNat < cvtRatio d s
  | .vqblk h _ _ t s b =>
      h.okM7 && (t == .s8 || t == .n8) && qblkSrcOk s && b.toNat ≤ 5 && 2 ^ (b.toNat + 3) ≤ s.lanes
  | .vqblkGiven h _ _ _ t s b => h.okM7 && (t == .s8 || t == .n8) && qblkSrcOk s && b.toNat ≤ 5
  | .vdqblk h _ _ _ t s b => h.ok && qblkSrcOk t && (s == .s8 || s == .n8 || s == .f8) && b.toNat ≤ 5
  | .viadd h _ _ _ t | .visub h _ _ _ t | .vimul h _ _ _ t | .vimulh h _ _ _ t => h.ok && t.isInt
  | .vimad h _ _ _ _ t => h.ok && t.isInt
  | .vand h _ _ _ t | .vor h _ _ _ t | .vxor h _ _ _ t | .vandn h _ _ _ t => h.ok && t.isInt
  | .vshl h _ _ _ t | .vshr h _ _ _ t | .vsar h _ _ _ t | .vrot h _ _ _ t => h.ok && t.isInt
  | .vfshl h _ _ _ _ t | .vfshr h _ _ _ _ t => h.ok && t.isInt
  | .vclz h _ _ t | .vpopc h _ _ t => h.ok && t.isInt
  | .vld h _ _ _ _ _ | .vst h _ _ _ _ _ => h.ok
  | .vlds h _ _ _ _ => h.ok
  | .vgats h _ _ _ t | .vscats h _ _ _ t => h.ok && (t.bytes == 4 || t.bytes == 8)
  | .vperm h _ _ _ _ => h.ok
  | .vshuf h _ _ _ _ t => h.ok && t.bytes != 1
  | .vbcast h _ _ _ => h.ok
  | .vslideDn h _ _ _ _ _ | .vslideUp h _ _ _ _ _ => h.ok
  | .vsel h _ _ _ _ _ => h.ok
  | .vext h _ _ _ | .vins h _ _ _ _ => h.okM7
  | .vredsum h _ _ t | .vredmax h _ _ t | .vredmin h _ _ t => h.ok && (t.isInt || t.isFloat)
  | .vredarg h _ _ t _ | .vscan h _ _ t _ => h.ok && (t.isInt || t.isFloat)
  | .viota h _ t _ => h.ok && t.isInt
  | .vmpop h _ t => h.ok && t != .e8s
  | .vmlog h _ _ _ _ => h.okM7
  | .vtab h _ _ _ _ => h.okM7
  | .vsnap h _ _ => h.okM7
  | .vprefeq h _ _ t => h.ok && t.isInt
  | .vshort h vd _ _ t => h.ok && vd.toNat % 2 == 0 && (t == .f32 || t == .bf16)
  | .vmass h _ _ _ _ => h.ok
  | .vnoise h _ _ _ _ => h.ok
  | .vbtest h _ _ _ t | .vbset h _ _ _ t => h.ok && t.isInt
  | .vmod _ g _ _ _ _ _ => g.ok
  | .tdecl h _ _ _ => h.ok inV
  | .cbload h _ _ _ => h.ok inV
  | .tlset h _ _ => h.ok inV
  | .lmm h _ _ _ _ nb | .lmmFeed h _ _ _ _ nb => h.ok true && nb != 0
  | .cfeed h _ _ | .cunfeed h _ => h.ok inV
  | .lspill h _ _ | .lfill h _ _ | .lzero h _ => h.ok true
  | .lwake h mask => h.ok inV && mask != 0
  | .lstat h n => h.ok true && lstatSelOk n.toNat
  | .tload h _ _ _ | .tsave h _ _ _ => h.ok true
  | .shape h _ _ => h.ok inV
  | .cpy h _ _ _ _ _ | .cpyo h _ _ _ _ _ | .cpyoAppend h _ _ _ _ _ | .cpyc h _ _ _ _ _ => h.ok true
  | .pref h _ _ _ _ _ => h.ok true
  | .cwait h _ | .cwaitAll h => h.ok inV
  | .cflush h _ _ _ _ _ => h.ok true
  | .cstat h _ n => h.ok true && n.toNat ≤ 3
  | .gath h _ _ _ _ _ | .gathp h _ _ _ _ _ | .scat h _ _ _ _ _ => h.ok true
  | .ringFetch _ _ | .timedTargetMiss _ _ | .queueDeadlock _ | .budgetExpiry _ => true
  | .commandComplete _ _ | .commandAsyncFault _ _ | .sluiceBatch _ _ => true
  | .lmeCommandStart _ | .lmmKStepDone _ | .lmeCommandComplete _ | .lmeAsyncFault _ => true
  | .subarrayGate _ _ | .subarrayWakeDone _ _ | .feedFetch _ _ => true
  | .tableWalk _ _ _ | .resume _ _ _ | .abort _ _ _ | .invalidate _ _ _ _ _ | .invalidationDone _ => true
  | .frameCopy _ _ | .inletConsume _ _ | .launchReady _ _ | .teamDispatch _ _ _ _ | .jobStart _ => true
  | .completionRecordWrite _ _ | .quantumExpiry _ _ _ | .swapWindowExpiry _ | .swapOutSave _ => true
  | .teamRestore _ _ _ _ | .urgentPlace _ _ _ _ | .victimResume _ | .bankPreload _ _ _ _ => true
  | .l1FusionChange _ _ | .proofIterationStart _ _ | .proofCommit _ | .proofLoopEnd _ => true
  | .hostMemRead _ _ _ | .hostMemWrite _ _ _ | .backInvalidateSnoop _ _ | .peerRequest _ _ _ _ => true
  | .semaphoreRead _ _ | .semaphoreWrite _ _ _ | .leaseExpiry _ | .partcfgWrite _ _ _ => true
  | .inletReset _ _ _ | .pqcfgClear _ _ _ _ | .registerWrite _ _ _ => true
  | .partitionReset _ _ | .partitionResetDone _ => true
  | .fwUpdateImage _ _ | .fwAttest _ | .fwChangeLayout _ | .fwReadRecord _ | .fwExport _ _ | .fwImport _ _ _ => true
  | .fwCommandComplete _ | .patrolScrub _ | .frameRetire _ | .spareCoreSubstitute _ => true
  | .flitCrcRetry _ | .ringLinkRetrain _ _ => true
  | .thermalWarningEnter | .thermalWarningExit | .thermalEmergencyEnter | .thermalEmergencyExit => true
  | .thermalTrip | .issueGateUpdate _ | .telemetryRefresh _ _ _ _ | .powerOn _ _ | .cxlLinkReset _ => true
  | .tickAdvance | .powerRemoved | .cxlCompletion _ _ _ | .hostCoherenceSnoop _ _ => true
  | .faultService _ _ _ | .contextCreate _ _ _ _ => true

/-- Static legality of a word that stands alone. -/
def Instr.wellFormed (i : Instr) : Bool := i.legalIn false

end Sys2Proof
end

