-- ==== Sys2Proof/Machine/Float.lean ====
section
/-! DEFINITION. Floating-point values as exact dyadic numbers, the formats of R23, the binary8 family and e8s, and the
one rounding of R36 to R40. -/

namespace Sys2Proof.Machine

/-! ### Exceptions (R41) -/

def flagNv : BitVec 5 := 0x10
def flagDz : BitVec 5 := 0x08
def flagOf : BitVec 5 := 0x04
def flagUf : BitVec 5 := 0x02
def flagNx : BitVec 5 := 0x01

/-! ### Values -/

/-- A floating-point value: NaN (signalling or quiet), an infinity, or the exact ±m·2^e; m = 0 is a signed zero. -/
inductive FVal where
  | nan (signalling : Bool)
  | inf (neg : Bool)
  | fin (neg : Bool) (m : Nat) (e : Int)
  deriving DecidableEq, Repr

/-- An IEEE binary format: exponent and trailing significand bits (R23). -/
structure Fmt where
  ebits : Nat
  tbits : Nat
  deriving DecidableEq, Repr

def fmtF16 : Fmt := ⟨5, 10⟩
def fmtBf16 : Fmt := ⟨8, 7⟩
def fmtF32 : Fmt := ⟨8, 23⟩
def fmtF64 : Fmt := ⟨11, 52⟩

/-- The format of a float TYPE; f32 for a TYPE that is none. -/
def fmtOf : ElemTy → Fmt
  | .f16 => fmtF16 | .bf16 => fmtBf16 | .f64 => fmtF64 | _ => fmtF32

/-- Exponent bias (R23). -/
def Fmt.bias (f : Fmt) : Nat := 2 ^ (f.ebits - 1) - 1

/-- Width in bits. -/
def Fmt.width (f : Fmt) : Nat := 1 + f.ebits + f.tbits

/-- The value of a bit pattern (R23, R24). -/
def decodeFloat (f : Fmt) (x : Nat) : FVal :=
  let ee := x / 2 ^ f.tbits % 2 ^ f.ebits
  let t := x % 2 ^ f.tbits
  let neg := decide (x / 2 ^ (f.ebits + f.tbits) % 2 = 1)
  if ee = 2 ^ f.ebits - 1 then
    if t = 0 then .inf neg else .nan (decide (t / 2 ^ (f.tbits - 1) % 2 = 0))
  else if ee = 0 then .fin neg t (1 - (f.bias : Int) - f.tbits)
  else .fin neg (2 ^ f.tbits + t) ((ee : Int) - f.bias - f.tbits)

/-- The sign bit's weight. -/
def Fmt.signBit (f : Fmt) (neg : Bool) : Nat := if neg then 2 ^ (f.ebits + f.tbits) else 0

/-- The canonical NaN (R23, R24). -/
def Fmt.nanBits (f : Fmt) : Nat := (2 ^ f.ebits - 1) * 2 ^ f.tbits + 2 ^ (f.tbits - 1)

/-- An infinity. -/
def Fmt.infBits (f : Fmt) (neg : Bool) : Nat := f.signBit neg + (2 ^ f.ebits - 1) * 2 ^ f.tbits

/-- The largest finite value. -/
def Fmt.maxBits (f : Fmt) (neg : Bool) : Nat := f.signBit neg + ((2 ^ f.ebits - 1) * 2 ^ f.tbits - 1)

/-- One, of a sign. -/
def Fmt.oneBits (f : Fmt) (neg : Bool) : Nat := f.signBit neg + f.bias * 2 ^ f.tbits

/-! ### Rounding -/

/-- Whether a discarded part `rem` of `2^sh` rounds the magnitude up (R36). -/
def roundUp (mode : RMode) (neg : Bool) (fl rem half : Nat) : Bool :=
  match mode with
  | .rne => decide (half < rem) || (rem == half && fl % 2 == 1)
  | .rtz => false
  | .rdn => neg && rem != 0
  | .rup => !neg && rem != 0
  | .rmm => decide (half ≤ rem)

/-- Rounds m·2^e to an integer multiple of 2^q: the multiple, and whether the result differs. -/
def roundQuantum (mode : RMode) (neg : Bool) (m : Nat) (e q : Int) : Nat × Bool :=
  if q ≤ e then (m * 2 ^ (e - q).toNat, false)
  else
    let sh := (q - e).toNat
    let fl := m / 2 ^ sh
    let rem := m % 2 ^ sh
    (if roundUp mode neg fl rem (2 ^ (sh - 1)) then fl + 1 else fl, rem != 0)

/-- What overflow delivers (R38). -/
def overflowBits (f : Fmt) (mode : RMode) (neg : Bool) : Nat :=
  match mode with
  | .rne | .rmm => f.infBits neg
  | .rtz => f.maxBits neg
  | .rdn => if neg then f.infBits true else f.maxBits false
  | .rup => if neg then f.maxBits true else f.infBits false

/-- Whether an exact nonzero value is tiny in a format: rounded to its precision with an unbounded exponent range, below
the smallest normal (R39). -/
def tinyIn (f : Fmt) (mode : RMode) (neg : Bool) (m : Nat) (e : Int) : Bool :=
  let qfree : Int := (Nat.log2 m : Int) + e - f.tbits
  let (rf, _) := roundQuantum mode neg m e qfree
  decide (qfree + f.tbits < 1 - (f.bias : Int)) &&
    !(decide (rf = 2 ^ (f.tbits + 1)) && decide (qfree + 1 + f.tbits = 1 - (f.bias : Int)))

/-- Rounds an exact nonzero value to a format: the bits and the exceptions (R38, R39). -/
def roundFin (f : Fmt) (mode : RMode) (neg : Bool) (m : Nat) (e : Int) : Nat × BitVec 5 :=
  let lg : Int := (Nat.log2 m : Int) + e
  let qmin : Int := 1 - (f.bias : Int) - f.tbits
  let q := max (lg - f.tbits) qmin
  let (r, inexact) := roundQuantum mode neg m e q
  let (r1, q1) := if 2 ^ (f.tbits + 1) ≤ r then (r / 2, q + 1) else (r, q)
  if (f.bias : Int) < q1 + f.tbits then (overflowBits f mode neg, flagOf ||| flagNx)
  else
    let bits := f.signBit neg +
      (if r1 < 2 ^ f.tbits then r1 else ((q1 + f.tbits + f.bias).toNat * 2 ^ f.tbits + (r1 - 2 ^ f.tbits)))
    let fl := (if inexact then flagNx else 0) ||| (if tinyIn f mode neg m e && inexact then flagUf else 0)
    (bits, fl)

/-- Rounds a value to a format. A NaN is delivered canonical; its invalid exception is the operation's affair. -/
def roundVal (f : Fmt) (mode : RMode) (v : FVal) : Nat × BitVec 5 :=
  match v with
  | .nan _ => (f.nanBits, 0)
  | .inf neg => (f.infBits neg, 0)
  | .fin neg m e => if m = 0 then (f.signBit neg, 0) else roundFin f mode neg m e

/-! ### Exact operations -/

/-- Invalid where an operand is a signalling NaN (R24, R41). -/
def snanFlag : FVal → BitVec 5
  | .nan true => flagNv
  | _ => 0

/-- Whether a value is NaN. -/
def FVal.isNan : FVal → Bool
  | .nan _ => true
  | _ => false

/-- Inverts the sign; a NaN stays a NaN of its kind (R67). -/
def FVal.negate : FVal → FVal
  | .nan b => .nan b
  | .inf n => .inf (!n)
  | .fin n m e => .fin (!n) m e

/-- Clears the sign (R67). -/
def FVal.absolute : FVal → FVal
  | .nan b => .nan b
  | .inf _ => .inf false
  | .fin _ m e => .fin false m e

/-- The signed integer of ±m·2^e in units of 2^q, for q ≤ e. -/
def scaledInt (neg : Bool) (m : Nat) (e q : Int) : Int :=
  let n : Nat := m * 2 ^ (e - q).toNat
  if neg then -(n : Int) else n

/-- The sum, with the zero signs of R40. -/
def exactAdd (mode : RMode) (a b : FVal) : FVal × BitVec 5 :=
  let inv := snanFlag a ||| snanFlag b
  match a, b with
  | .nan _, _ => (.nan false, inv)
  | _, .nan _ => (.nan false, inv)
  | .inf x, .inf y => if x = y then (.inf x, 0) else (.nan false, flagNv)
  | .inf x, .fin _ _ _ => (.inf x, 0)
  | .fin _ _ _, .inf y => (.inf y, 0)
  | .fin nx mx ex, .fin ny my ey =>
    if mx = 0 ∧ my = 0 then (.fin (if nx = ny then nx else mode == .rdn) 0 0, 0)
    else if mx = 0 then (.fin ny my ey, 0)
    else if my = 0 then (.fin nx mx ex, 0)
    else
      let q := min ex ey
      let z := scaledInt nx mx ex q + scaledInt ny my ey q
      if z = 0 then (.fin (mode == .rdn) 0 0, 0) else (.fin (decide (z < 0)) z.natAbs q, 0)

/-- The product (R41). -/
def exactMul (a b : FVal) : FVal × BitVec 5 :=
  let inv := snanFlag a ||| snanFlag b
  match a, b with
  | .nan _, _ => (.nan false, inv)
  | _, .nan _ => (.nan false, inv)
  | .inf x, .inf y => (.inf (x != y), 0)
  | .inf x, .fin y m _ => if m = 0 then (.nan false, flagNv) else (.inf (x != y), 0)
  | .fin x m _, .inf y => if m = 0 then (.nan false, flagNv) else (.inf (x != y), 0)
  | .fin x m e, .fin y k g => (.fin (x != y) (m * k) (e + g), 0)

/-- a·b + c, exact; 0·∞ is invalid even with a quiet NaN addend (R41). -/
def exactFma (mode : RMode) (a b c : FVal) : FVal × BitVec 5 :=
  let inv := snanFlag a ||| snanFlag b ||| snanFlag c
  let (p, fp) := exactMul a b
  let (r, fr) := exactAdd mode p c
  match p with
  | .nan _ => (.nan false, inv ||| fp)
  | _ => (r, inv ||| fr)

/-- Integer square root, bit by bit from bit `k − 1` down. -/
def isqrtFrom (n : Nat) : Nat → Nat → Nat
  | 0, r => r
  | k + 1, r => let t := r + 2 ^ k; isqrtFrom n k (if t * t ≤ n then t else r)

/-- The largest integer whose square is at most `n`. -/
def isqrt (n : Nat) : Nat := isqrtFrom n (Nat.log2 n / 2 + 1) 0

/-- A magnitude known to lie between `m` and `m + 1` (exactly `m` where `exact`), in units of 2^e, as a dyadic that
rounds the same way to any coarser grid. -/
def stickyFin (neg : Bool) (m : Nat) (e : Int) (exact : Bool) : FVal :=
  if exact then .fin neg m e else .fin neg (4 * m + 1) (e - 2)

/-- The quotient (R41). -/
def exactDiv (a b : FVal) : FVal × BitVec 5 :=
  let inv := snanFlag a ||| snanFlag b
  match a, b with
  | .nan _, _ => (.nan false, inv)
  | _, .nan _ => (.nan false, inv)
  | .inf _, .inf _ => (.nan false, flagNv)
  | .inf x, .fin y _ _ => (.inf (x != y), 0)
  | .fin x _ _, .inf y => (.fin (x != y) 0 0, 0)
  | .fin x m e, .fin y k g =>
    if k = 0 then (if m = 0 then (.nan false, flagNv) else (.inf (x != y), flagDz))
    else if m = 0 then (.fin (x != y) 0 0, 0)
    else
      let sh := 72 + Nat.log2 k
      (stickyFin (x != y) (m * 2 ^ sh / k) (e - g - sh) (m * 2 ^ sh % k == 0), 0)

/-- The square root (R41). -/
def exactSqrt (a : FVal) : FVal × BitVec 5 :=
  match a with
  | .nan b => (.nan false, if b then flagNv else 0)
  | .inf true => (.nan false, flagNv)
  | .inf false => (.inf false, 0)
  | .fin neg m e =>
    if m = 0 then (.fin neg 0 0, 0)
    else if neg then (.nan false, flagNv)
    else
      let (m1, e1) := if e % 2 = 0 then (m, e) else (2 * m, e - 1)
      let n := m1 * 2 ^ 144
      let r := isqrt n
      (stickyFin false r (e1 / 2 - 72) (r * r == n), 0)

/-! ### Comparison -/

/-- Compares two finite or infinite values; none if either is NaN. Zeros compare equal. -/
def compareVal (a b : FVal) : Option Ordering :=
  match a, b with
  | .nan _, _ => none
  | _, .nan _ => none
  | .inf x, .inf y => some (if x = y then .eq else if x then .lt else .gt)
  | .inf x, .fin _ _ _ => some (if x then .lt else .gt)
  | .fin _ _ _, .inf y => some (if y then .gt else .lt)
  | .fin nx mx ex, .fin ny my ey =>
    let q := min ex ey
    some (compare (scaledInt nx mx ex q) (scaledInt ny my ey q))

/-- Whether a value's sign is negative. -/
def FVal.isNeg : FVal → Bool
  | .nan _ => false
  | .inf n => n
  | .fin n _ _ => n

/-- `a` below `b` with −0 below +0 (R45); false if either is NaN. -/
def totalLess (a b : FVal) : Bool :=
  match compareVal a b with
  | some .lt => true
  | some .eq => a.isNeg && !b.isNeg
  | _ => false

/-- VMIN and VMAX (`max`), VMINN and VMAXN (`num`) on floats (R45). -/
def minMaxVal (max num : Bool) (a b : FVal) : FVal × BitVec 5 :=
  let inv := snanFlag a ||| snanFlag b
  if a.isNan && b.isNan then (.nan false, inv)
  else if a.isNan then (if num then b else .nan false, inv)
  else if b.isNan then (if num then a else .nan false, inv)
  else (if max then (if totalLess a b then b else a) else (if totalLess b a then b else a), inv)

/-! ### Integers and floats -/

/-- Rounds a value to an integer under a mode; none for NaN and infinities. -/
def roundToInt (mode : RMode) (v : FVal) : Option (Int × Bool) :=
  match v with
  | .nan _ => none
  | .inf _ => none
  | .fin neg m e =>
    let (r, ix) := roundQuantum mode neg m e 0
    some (if neg then -(r : Int) else r, ix)

/-- The exact value of an integer. -/
def valOfInt (i : Int) : FVal := .fin (decide (i < 0)) i.natAbs 0

/-! ### binary8 (R26 to R31) -/

/-- A binary8 variant (R26). -/
structure F8 where
  sat : Bool
  i   : Bool
  u   : Bool
  p   : Nat
  deriving DecidableEq, Repr

/-- The variant of FPCTL.F8FMT, bits [19:14] (R26). -/
def f8Of (fpctl : Word) : F8 :=
  ⟨fpctl.getLsbD 19, fpctl.getLsbD 18, fpctl.getLsbD 17, (fpctl.extractLsb' 14 3).toNat⟩

/-- Bias of a variant (R27). -/
def F8.bias (d : F8) : Nat := if d.u then 2 ^ (8 - d.p) else 2 ^ (7 - d.p)

/-- The magnitude code of a value: E and T fields together (R27). -/
def F8.magVal (d : F8) (neg : Bool) (mag : Nat) : FVal :=
  let t := d.p - 1
  let ee := mag / 2 ^ t
  let tt := mag % 2 ^ t
  if ee = 0 then .fin neg tt (1 - (d.bias : Int) - t) else .fin neg (2 ^ t + tt) ((ee : Int) - d.bias - t)

/-- decode_f8 (R27). -/
def decodeF8 (d : F8) (code : Nat) : FVal :=
  if d.u then
    if code = 0xFF then .nan false
    else if d.i && code == 0xFE then .inf false
    else d.magVal false code
  else
    if code = 0x80 then .nan false
    else if d.i && code == 0x7F then .inf false
    else if d.i && code == 0xFF then .inf true
    else d.magVal (decide (128 ≤ code)) (code % 128)

/-- The largest finite magnitude code (R28). -/
def F8.maxMag (d : F8) : Nat := if d.u then (if d.i then 0xFD else 0xFE) else (if d.i then 0x7E else 0x7F)

/-- The NaN code (R27). -/
def F8.nanCode (d : F8) : Nat := if d.u then 0xFF else 0x80

/-- A signed magnitude code. -/
def F8.code (d : F8) (neg : Bool) (mag : Nat) : Nat := if neg && !d.u && mag != 0 then 0x80 + mag else mag

/-- An infinity where the variant has it, else NaN (R29). -/
def F8.infCode (d : F8) (neg : Bool) : Nat :=
  if d.i then (if d.u then 0xFE else if neg then 0xFF else 0x7F) else d.nanCode

/-- Rounds a magnitude to the variant's grid, unbounded above: the running code (2^t·E + T, unbounded) and inexact.
Ties under RNE go to the even code (R29). -/
def F8.roundMag (d : F8) (mode : RMode) (neg : Bool) (m : Nat) (e : Int) : Nat × Bool :=
  let t := d.p - 1
  let lg : Int := (Nat.log2 m : Int) + e
  let emin : Int := 1 - (d.bias : Int)
  -- quantum of the binade that holds the value, not below the subnormal grid
  let q := max (lg - t) (emin - t)
  let base : Nat := if lg < emin then 0 else (lg - emin + 1).toNat
  -- code of the grid point at or below the value
  let sh := (q - e).toNat
  let (fl, rem, half) := if q ≤ e then (m * 2 ^ (e - q).toNat, 0, 1) else (m / 2 ^ sh, m % 2 ^ sh, 2 ^ (sh - 1))
  let lo := if base = 0 then fl else base * 2 ^ t + (fl - 2 ^ t)
  let up := match mode with
    | .rne => decide (half < rem) || (rem == half && rem != 0 && lo % 2 == 1)
    | .rtz => false
    | .rdn => neg && rem != 0
    | .rup => !neg && rem != 0
    | .rmm => rem != 0 && decide (half ≤ rem)
  (if up then lo + 1 else lo, rem != 0)

/-- Conversion into binary8 (R29, R30). `sat` joins F8FMT.SAT with the VMOD clamp. (DESIGN CHOICE, log 96.) -/
def encodeF8 (d : F8) (sat : Bool) (mode : RMode) (v : FVal) : Nat × BitVec 5 :=
  match v with
  | .nan s => (d.nanCode, if s then flagNv else 0)
  | .inf neg =>
    if d.u && neg then (if sat then (0, flagNx) else (0xFF, flagNv))
    else if d.i then (d.infCode neg, 0)
    else if sat then (d.code neg d.maxMag, flagNx) else (d.nanCode, flagNv)
  | .fin neg m e =>
    if m = 0 then (0, 0)
    else
      let (mag, ix) := d.roundMag mode neg m e
      if mag = 0 then (0, flagNx ||| flagUf)
      else if d.u && neg then (if sat then (0, flagNx) else (0xFF, flagNv))
      else if mag ≤ d.maxMag then
        -- tiny after rounding with an unbounded exponent range: below the smallest normal 2^(1 − bias)
        let lgfree := { d with p := d.p }
        let lg : Int := (Nat.log2 m : Int) + e
        let (rf, _) := roundQuantum mode neg m e (lg - (lgfree.p - 1 : Nat))
        let emin : Int := 1 - (d.bias : Int)
        let tiny := decide (lg < emin) && !(decide (rf = 2 ^ d.p) && decide (lg + 1 = emin))
        (d.code neg mag, (if ix then flagNx else 0) ||| (if tiny && ix then flagUf else 0))
      else
        let fl := flagOf ||| flagNx
        let toMax := d.code neg d.maxMag
        if sat then (toMax, fl)
        else
          match mode with
          | .rne | .rmm => (d.infCode neg, fl)
          | .rtz => (toMax, fl)
          | .rdn => (if neg then d.infCode true else toMax, fl)
          | .rup => (if neg then toMax else d.infCode false, fl)

/-! ### e8s (R32, R33) -/

/-- The value of a block scale (R32). -/
def decodeE8s (code : Nat) : FVal := if code = 0xFF then .nan false else .fin false 1 ((code : Int) - 127)

/-- Conversion into a block scale (R33). -/
def encodeE8s (v : FVal) : Nat × BitVec 5 :=
  match v with
  | .nan _ => (0xFF, flagNv)
  | .inf true => (0xFF, flagNv)
  | .inf false => (0xFE, flagOf ||| flagNx)
  | .fin neg m e =>
    if m = 0 then (0x00, flagUf ||| flagNx)
    else if neg then (0xFF, flagNv)
    else
      let lg : Int := (Nat.log2 m : Int) + e
      let s := max 0 (min 254 (lg + 127))
      let pow := decide (m = 2 ^ Nat.log2 m)
      let fl := (if !pow || s != lg + 127 then flagNx else 0) ||| (if 127 < lg then flagOf else 0) |||
        (if lg < -127 then flagUf else 0)
      (s.toNat, fl)

end Sys2Proof.Machine
end

