-- ==== Sys2Proof/Decode.lean ====
section
/-! DEFINITION. The decoder (R53 to R79 and each chapter's encodings), total on 64-bit words, and after it the
encoder, written from the same tables. -/

namespace Sys2Proof

/-! ### Fields of a word -/

/-- The `len` bits of `w` from bit `lo` up. -/
def fld (w : Word) (lo len : Nat) : BitVec len := w.extractLsb' lo len

/-- A Bool from a one-bit field. -/
def bitB (b : BitVec 1) : Bool := b == 1

/-- A one-bit field from a Bool. -/
def bBit (b : Bool) : BitVec 1 := if b then 1 else 0

/-- Source codes (R63). -/
def Src.ofCode (c : BitVec 5) : Src := if c.extractLsb' 4 1 == 0 then .k (c.extractLsb' 0 4) else .h (c.extractLsb' 0 4)

/-- Source codes (R63). -/
def Src.code : Src → BitVec 5
  | .k i => 0#1 ++ i
  | .h i => 1#1 ++ i

/-- Destination codes: 0x11–0x1E are reserved (R63). -/
def Dest.ofCode (c : BitVec 5) : Option Dest :=
  if c.extractLsb' 4 1 == 0 then some (.k (c.extractLsb' 0 4))
  else if c == 0x10 then some .push
  else if c == 0x1F then some .discard
  else none

/-- Destination codes (R63). -/
def Dest.code : Dest → BitVec 5
  | .k i => 0#1 ++ i
  | .push => 0x10
  | .discard => 0x1F

/-- WQPOP's F destination: k0–k15 or 0x1F (R205). -/
def KeyDest.ofCode (c : BitVec 5) : Option KeyDest :=
  if c.extractLsb' 4 1 == 0 then some (.k (c.extractLsb' 0 4))
  else if c == 0x1F then some .discard
  else none

/-- WQPOP's F destination (R205). -/
def KeyDest.code : KeyDest → BitVec 5
  | .k i => 0#1 ++ i
  | .discard => 0x1F

/-- A predicate number in a 5-bit field: the upper bits must be zero (R63). -/
def predOf (c : BitVec 5) : Option (BitVec 3) :=
  if c.extractLsb' 3 2 == 0 then some (c.extractLsb' 0 3) else none

/-- A kept register in a 5-bit field that must name k0–k15 (LOOP, PACC; R63, R205). -/
def keptOf (c : BitVec 5) : Option (BitVec 4) :=
  if c.extractLsb' 4 1 == 0 then some (c.extractLsb' 0 4) else none

/-- The WAIT byte (R55). -/
def Wait.ofByte (b : BitVec 8) : Option Wait :=
  if b.extractLsb' 6 2 == 0 then (if b.extractLsb' 4 2 == 0 then some (.tokens (b.extractLsb' 0 4)) else none)
  else if b.extractLsb' 6 2 == 1 then (if b.extractLsb' 4 2 == 0 then some (.drain (b.extractLsb' 0 4)) else none)
  else if b.extractLsb' 6 2 == 2 then some (.timed (b.extractLsb' 0 6))
  else some (.timedToken (b.extractLsb' 4 2) (b.extractLsb' 0 4))

/-- The WAIT byte (R55). -/
def Wait.byte : Wait → BitVec 8
  | .tokens m => 0#2 ++ 0#2 ++ m
  | .drain m => 1#2 ++ 0#2 ++ m
  | .timed d => 2#2 ++ d
  | .timedToken x d => 3#2 ++ x ++ d

/-- The SIG byte: bit 7 is reserved (R58); reserved REPLY values fail `Sig.ok`. -/
def Sig.ofByte (b : BitVec 8) : Option Sig :=
  if b.extractLsb' 7 1 == 0 then some ⟨b.extractLsb' 4 3, b.extractLsb' 0 4⟩ else none

/-- The SIG byte (R58). -/
def Sig.byte (g : Sig) : BitVec 8 := 0#1 ++ g.reply ++ g.tokens

/-- The GUARD field (R61). -/
def Guard.ofCode (c : BitVec 4) : Guard := ⟨bitB (c.extractLsb' 3 1), c.extractLsb' 0 3⟩

/-- The GUARD field (R61). -/
def Guard.code (g : Guard) : BitVec 4 := bBit g.neg ++ g.p

/-- The header of a word outside the V map (R53, R61). -/
def Hdr.ofWord (w : Word) : Option Hdr :=
  match Wait.ofByte (fld w 56 8), Sig.ofByte (fld w 48 8) with
  | some wt, some sg => some ⟨wt, sg, Guard.ofCode (fld w 36 4)⟩
  | _, _ => none

/-- The header of a V-map word (R65). -/
def VHdr.ofWord (w : Word) : Option VHdr :=
  match Wait.ofByte (fld w 56 8), Sig.ofByte (fld w 48 8) with
  | some wt, some sg => some ⟨wt, sg, fld w 37 3, bitB (fld w 36 1)⟩
  | _, _ => none

/-- TYPE codes; 0xE and 0xF are reserved (R20). -/
def ElemTy.ofCode (c : BitVec 4) : Option ElemTy :=
  match c.toNat with
  | 0 => some .s8 | 1 => some .n8 | 2 => some .s16 | 3 => some .n16 | 4 => some .s32 | 5 => some .n32
  | 6 => some .s64 | 7 => some .n64 | 8 => some .f8 | 9 => some .bf16 | 10 => some .f16 | 11 => some .f32
  | 12 => some .f64 | 13 => some .e8s | _ => none

/-- TYPE codes (R20). -/
def ElemTy.code : ElemTy → BitVec 4
  | .s8 => 0 | .n8 => 1 | .s16 => 2 | .n16 => 3 | .s32 => 4 | .n32 => 5 | .s64 => 6 | .n64 => 7 | .f8 => 8
  | .bf16 => 9 | .f16 => 10 | .f32 => 11 | .f64 => 12 | .e8s => 13

/-- Comparison codes; 0x0C–0x1F are ILLEGAL (R94). -/
def Cond.ofCode (c : BitVec 5) : Option Cond :=
  match c.toNat with
  | 0 => some .eq | 1 => some .ne | 2 => some .lt | 3 => some .ge | 4 => some .ltu | 5 => some .geu | 6 => some .gt
  | 7 => some .le | 8 => some .gtu | 9 => some .leu | 10 => some .tst | 11 => some .ntst | _ => none

/-- Comparison codes (R94). -/
def Cond.code : Cond → BitVec 5
  | .eq => 0 | .ne => 1 | .lt => 2 | .ge => 3 | .ltu => 4 | .geu => 5 | .gt => 6 | .le => 7 | .gtu => 8 | .leu => 9
  | .tst => 10 | .ntst => 11

/-- VCMP's FN; 0x8–0xF are ILLEGAL (R126). -/
def VCond.ofCode (c : BitVec 4) : Option VCond :=
  match c.toNat with
  | 0 => some .eq | 1 => some .ne | 2 => some .lt | 3 => some .le | 4 => some .gt | 5 => some .ge | 6 => some .un
  | 7 => some .ord | _ => none

/-- VCMP's FN (R126). -/
def VCond.code : VCond → BitVec 4
  | .eq => 0 | .ne => 1 | .lt => 2 | .le => 3 | .gt => 4 | .ge => 5 | .un => 6 | .ord => 7

/-- MULH's F (R101). -/
def MulhMode.ofCode (c : BitVec 5) : Option MulhMode :=
  match c.toNat with | 0 => some .uu | 1 => some .ss | 2 => some .su | _ => none

/-- MULH's F (R101). -/
def MulhMode.code : MulhMode → BitVec 5
  | .uu => 0 | .ss => 1 | .su => 2

/-- ATOM's OP; 7 is ILLEGAL (R214). -/
def AtomOp.ofCode (c : BitVec 3) : Option AtomOp :=
  match c.toNat with
  | 0 => some .add | 1 => some .swp | 2 => some .min | 3 => some .max | 4 => some .and | 5 => some .or
  | 6 => some .xor | _ => none

/-- ATOM's OP (R214). -/
def AtomOp.code : AtomOp → BitVec 3
  | .add => 0 | .swp => 1 | .min => 2 | .max => 3 | .and => 4 | .or => 5 | .xor => 6

/-- Scope codes; 5–7 are ILLEGAL (R113). -/
def Scope.ofCode (c : BitVec 3) : Option Scope :=
  match c.toNat with
  | 0 => some .stream | 1 => some .job | 2 => some .team | 3 => some .partition | 4 => some .system | _ => none

/-- Scope codes (R113). -/
def Scope.code : Scope → BitVec 3
  | .stream => 0 | .job => 1 | .team => 2 | .partition => 3 | .system => 4

/-- ORD of a read-modify-write (R214). -/
def RmwOrd.ofCode (c : BitVec 2) : RmwOrd :=
  match c.toNat with | 0 => .rlx | 1 => .acq | 2 => .rel | _ => .ar

/-- ORD of a read-modify-write (R214). -/
def RmwOrd.code : RmwOrd → BitVec 2
  | .rlx => 0 | .acq => 1 | .rel => 2 | .ar => 3

/-- ORD of FENCE; 0b00 is ILLEGAL (R213). -/
def FenceOrd.ofCode (c : BitVec 2) : Option FenceOrd :=
  match c.toNat with | 1 => some .acq | 2 => some .rel | 3 => some .ar | _ => none

/-- ORD of FENCE (R213). -/
def FenceOrd.code : FenceOrd → BitVec 2
  | .acq => 1 | .rel => 2 | .ar => 3

/-- KIND of QLVL (R209). -/
def LevelKind.ofCode (c : BitVec 2) : LevelKind :=
  match c.toNat with | 0 => .qIn | 1 => .qOut | 2 => .tIn | _ => .tOut

/-- KIND of QLVL (R209). -/
def LevelKind.code : LevelKind → BitVec 2
  | .qIn => 0 | .qOut => 1 | .tIn => 2 | .tOut => 3

/-- OP of CFLUSH; 3 is ILLEGAL (R198). -/
def FlushOp.ofCode (c : BitVec 5) : Option FlushOp :=
  match c.toNat with | 0 => some .writeBack | 1 => some .invalidate | 2 => some .dropReplicas | _ => none

/-- OP of CFLUSH (R198). -/
def FlushOp.code : FlushOp → BitVec 5
  | .writeBack => 0 | .invalidate => 1 | .dropReplicas => 2

/-- VMOD's CLAMP (R67). -/
def Clamp.ofCode (c : BitVec 2) : Clamp :=
  match c.toNat with | 0 => .none | 1 => .unit | 2 => .sym | _ => .sat

/-- VMOD's CLAMP (R67). -/
def Clamp.code : Clamp → BitVec 2
  | .none => 0 | .unit => 1 | .sym => 2 | .sat => 3

/-- VMOD's RND: the outer option is the reserved values, the inner one "the mode in FPCTL.RM" (R36). -/
def rndOf (c : BitVec 3) : Option (Option RMode) :=
  match c.toNat with
  | 0 => some none | 1 => some (some .rne) | 2 => some (some .rtz) | 3 => some (some .rdn) | 4 => some (some .rup)
  | 5 => some (some .rmm) | _ => none

/-- VMOD's RND (R36). -/
def rndCode : Option RMode → BitVec 3
  | none => 0 | some .rne => 1 | some .rtz => 2 | some .rdn => 3 | some .rup => 4 | some .rmm => 5

/-- FPCTL.RM; 0b101–0b111 are reserved (R36). -/
def RMode.ofCode (c : BitVec 3) : Option RMode :=
  match c.toNat with
  | 0 => some .rne | 1 => some .rtz | 2 => some .rdn | 3 => some .rup | 4 => some .rmm | _ => none

/-- LD's ordering, scope and offset (R113): .rel is ILLEGAL. -/
def ldOrdOf (ord : BitVec 2) (i : BitVec 21) : Option MemOrd :=
  if ord == 0 then some (.rlx i)
  else if ord == 1 then (Scope.ofCode (i.extractLsb' 18 3)).map fun s => .ordered s (i.extractLsb' 0 18)
  else none

/-- ST's ordering, scope and offset (R113): .acq is ILLEGAL. -/
def stOrdOf (ord : BitVec 2) (i : BitVec 21) : Option MemOrd :=
  if ord == 0 then some (.rlx i)
  else if ord == 2 then (Scope.ofCode (i.extractLsb' 18 3)).map fun s => .ordered s (i.extractLsb' 0 18)
  else none

/-- The I field of LD and ST (R113). -/
def MemOrd.imm : MemOrd → BitVec 21
  | .rlx i => i
  | .ordered s i => s.code ++ i

/-- The ORD field of LD (R64, R113). -/
def MemOrd.ldCode : MemOrd → BitVec 2
  | .rlx _ => 0
  | .ordered _ _ => 1

/-- The ORD field of ST (R64, R113). -/
def MemOrd.stCode : MemOrd → BitVec 2
  | .rlx _ => 0
  | .ordered _ _ => 2

/-! ### Field names of the formats (R62, R65, R72, R73) -/

def fOpc (w : Word) : BitVec 8 := fld w 40 8
def fD (w : Word) : BitVec 5 := fld w 31 5
def fA (w : Word) : BitVec 5 := fld w 26 5
def fB (w : Word) : BitVec 5 := fld w 21 5
def fF (w : Word) : BitVec 5 := fld w 16 5
def fLow (w : Word) : BitVec 16 := fld w 0 16
def fI26 (w : Word) : BitVec 26 := fld w 0 26
def fI31 (w : Word) : BitVec 31 := fld w 0 31
def fI36 (w : Word) : BitVec 36 := fld w 0 36
/-- F of the SM format (R62, R64). -/
def fSM (w : Word) : BitVec 5 := fld w 21 5
def fI21 (w : Word) : BitVec 21 := fld w 0 21
def fVD (w : Word) : BitVec 7 := fld w 29 7
def fVA (w : Word) : BitVec 7 := fld w 22 7
def fVB (w : Word) : BitVec 7 := fld w 15 7
def fVC (w : Word) : BitVec 7 := fld w 8 7
def fTY (w : Word) : BitVec 4 := fld w 4 4
def fFN (w : Word) : BitVec 4 := fld w 0 4
def fIDX (w : Word) : BitVec 3 := fld w 33 3
def fTL (w : Word) : BitVec 2 := fld w 31 2
def fSRC (w : Word) : BitVec 3 := fld w 28 3
def fKC (w : Word) : BitVec 5 := fld w 23 5
def fKA (w : Word) : BitVec 5 := fld w 18 5
def fMZ (w : Word) : BitVec 6 := fld w 12 6
def fNB (w : Word) : BitVec 12 := fld w 0 12
def fSH (w : Word) : BitVec 3 := fld w 33 3
def fKM (w : Word) : BitVec 5 := fld w 28 5
def fKS (w : Word) : BitVec 5 := fld w 23 5
def fKN (w : Word) : BitVec 5 := fld w 18 5
def fXFN (w : Word) : BitVec 5 := fld w 13 5
def fXD (w : Word) : BitVec 5 := fld w 8 5
def fXZ (w : Word) : BitVec 8 := fld w 0 8

/-- `some x` where `b`, else none. -/
def req {α : Type} (b : Bool) (x : Option α) : Option α := if b then x else none

/-! ### Shapes shared by several words -/

/-- S3 with D, A and B; F and [15:0] zero. -/
def decDAB (w : Word) (mk : Dest → Src → Src → Instr) : Option Instr :=
  req (fF w == 0 && fLow w == 0) ((Dest.ofCode (fD w)).map fun d => mk d (Src.ofCode (fA w)) (Src.ofCode (fB w)))

/-- S3 with D, A and B, and F[16] a signedness bit. -/
def decDABs (w : Word) (mk : Dest → Src → Src → Bool → Instr) : Option Instr :=
  req ((fF w == 0 || fF w == 1) && fLow w == 0)
    ((Dest.ofCode (fD w)).map fun d => mk d (Src.ofCode (fA w)) (Src.ofCode (fB w)) (fF w == 1))

/-- S3 with D, A, B and a third source in F. -/
def decDABF (w : Word) (mk : Dest → Src → Src → Src → Instr) : Option Instr :=
  req (fLow w == 0)
    ((Dest.ofCode (fD w)).map fun d => mk d (Src.ofCode (fA w)) (Src.ofCode (fB w)) (Src.ofCode (fF w)))

/-- S3 with D and A; the rest zero. -/
def decDA (w : Word) (mk : Dest → Src → Instr) : Option Instr :=
  req (fB w == 0 && fF w == 0 && fLow w == 0) ((Dest.ofCode (fD w)).map fun d => mk d (Src.ofCode (fA w)))

/-- S3 with D alone. -/
def decD (w : Word) (mk : Dest → Instr) : Option Instr :=
  req (fA w == 0 && fB w == 0 && fF w == 0 && fLow w == 0) ((Dest.ofCode (fD w)).map mk)

/-- S3 with every field of [35:0] zero. -/
def decZ (w : Word) (mk : Instr) : Option Instr := req (fI36 w == 0) (some mk)

/-- V words: VD, VA, VB; VC and FN zero. -/
def decV2 (w : Word) (mk : BitVec 7 → BitVec 7 → BitVec 7 → ElemTy → Instr) : Option Instr :=
  req (fVC w == 0 && fFN w == 0) ((ElemTy.ofCode (fTY w)).map fun t => mk (fVD w) (fVA w) (fVB w) t)

/-- V words: VD, VA, VB, VC; FN zero. -/
def decV3 (w : Word) (mk : BitVec 7 → BitVec 7 → BitVec 7 → BitVec 7 → ElemTy → Instr) : Option Instr :=
  req (fFN w == 0) ((ElemTy.ofCode (fTY w)).map fun t => mk (fVD w) (fVA w) (fVB w) (fVC w) t)

/-- V words: VD and VA; VB, VC and FN zero. -/
def decV1 (w : Word) (mk : BitVec 7 → BitVec 7 → ElemTy → Instr) : Option Instr :=
  req (fVB w == 0 && fVC w == 0 && fFN w == 0) ((ElemTy.ofCode (fTY w)).map fun t => mk (fVD w) (fVA w) t)

/-- A scalar source in a 7-bit field: bits [6:5] zero (R66). -/
def vsrc (c : BitVec 7) : Option Src :=
  if c.extractLsb' 5 2 == 0 then some (Src.ofCode (c.extractLsb' 0 5)) else none

/-- A mask register in a 7-bit field: bits [6:3] zero (R66). -/
def vmask (c : BitVec 7) : Option (BitVec 3) :=
  if c.extractLsb' 3 4 == 0 then some (c.extractLsb' 0 3) else none

/-- A tile or feed in IDX: 4–7 are reserved (R72). -/
def idx2 (c : BitVec 3) : Option (BitVec 2) :=
  if c.extractLsb' 2 1 == 0 then some (c.extractLsb' 0 2) else none

/-- Copy words with D, KM, KS and KN; FN zero (R184). -/
def decCopy (w : Word) (mk : Dest → BitVec 3 → Src → Src → Src → Instr) : Option Instr :=
  req (fXFN w == 0 && fXZ w == 0)
    ((Dest.ofCode (fXD w)).map fun d =>
      mk d (fSH w) (Src.ofCode (fKM w)) (Src.ofCode (fKS w)) (Src.ofCode (fKN w)))

/-! ### The maps -/

/-- The common scalar map, valid in every stream (R74, and the field tables of R94 to R111 and R205). -/
def decodeCommon (h : Hdr) (w : Word) : Option Instr :=
  match (fOpc w).toNat with
  | 0x00 => decZ w (.nop h)
  | 0x01 => (Dest.ofCode (fD w)).map fun d => .movi h d (fI31 w)
  | 0x02 => req (fld w 18 8 == 0)
      ((Dest.ofCode (fD w)).map fun d => .movk h d (Src.ofCode (fA w)) (fld w 16 2) (fLow w))
  | 0x03 => decDA w (.mov h)
  | 0x04 => decDAB w (.add h)
  | 0x05 => decDAB w (.sub h)
  | 0x06 => (Dest.ofCode (fD w)).map fun d => .addi h d (Src.ofCode (fA w)) (fI26 w)
  | 0x07 => decDAB w (.and h)
  | 0x08 => decDAB w (.or h)
  | 0x09 => decDAB w (.xor h)
  | 0x0A => decDAB w (.andn h)
  | 0x0B => decDAB w (.shl h)
  | 0x0C => decDAB w (.shr h)
  | 0x0D => decDAB w (.sar h)
  | 0x0E => decDABs w (.min h)
  | 0x0F => decDABs w (.max h)
  | 0x10 => req (fLow w == 0)
      (match predOf (fD w), Cond.ofCode (fF w) with
        | some pd, some cc => some (.cmp h pd (Src.ofCode (fA w)) (Src.ofCode (fB w)) cc)
        | _, _ => none)
  | 0x11 =>
      (match predOf (fD w), Cond.ofCode (fSM w) with
        | some pd, some cc => some (.cmpi h pd (Src.ofCode (fA w)) (fI21 w) cc)
        | _, _ => none)
  | 0x12 => req (fLow w == 0)
      (match Dest.ofCode (fD w), predOf (fF w) with
        | some d, some pc => some (.sel h d pc (Src.ofCode (fA w)) (Src.ofCode (fB w)))
        | _, _ => none)
  | 0x13 => req (fLow w == 0 && fld w 20 1 == 0)
      (match predOf (fD w), predOf (fA w), predOf (fB w) with
        | some pd, some pa, some pb => some (.pset h pd pa pb (fld w 16 4))
        | _, _, _ => none)
  | 0x14 => some (.br h (fI36 w))
  | 0x15 => req (fD w == 0 && fB w == 0 && fF w == 0 && fLow w == 0) (some (.jmp h (Src.ofCode (fA w))))
  | 0x16 => some (.call h (fI36 w))
  | 0x17 =>
      if fD w == 0 && fB w == 0 && fLow w == 0 then
        if fF w == 0 then req (fA w == 0) (some (.ret h))
        else if fF w == 1 then some (.retReg h (Src.ofCode (fA w)))
        else none
      else none
  | 0x18 => (keptOf (fD w)).map fun kc => .loop h kc (fI31 w)
  | 0x19 => req (fld w 21 2 == 0)
      ((Dest.ofCode (fD w)).map fun d =>
        .lds h d (Src.ofCode (fA w)) (fld w 24 2) (bitB (fld w 23 1)) (fI21 w))
  | 0x1A => req (fld w 21 3 == 0)
      (some (.sts h (Src.ofCode (fD w)) (Src.ofCode (fA w)) (fld w 24 2) (fI21 w)))
  | 0x1B => req (fD w == 0 && fB w == 0 && fld w 18 3 == 0 && fLow w == 0)
      (some (.qpush h (fld w 16 2) (Src.ofCode (fA w))))
  | 0x1C => req (fA w == 0 && fB w == 0 && fld w 18 3 == 0 && fLow w == 0)
      ((Dest.ofCode (fD w)).map fun d => .qpop h d (fld w 16 2))
  | 0x1D => req (fA w == 0 && fB w == 0 && fld w 20 1 == 0 && fLow w == 0)
      ((Dest.ofCode (fD w)).map fun d => .qlvl h d (LevelKind.ofCode (fld w 18 2)) (fld w 16 2))
  | 0x1E =>
      if fB w == 0 && fLow w == 0 then
        if fF w == 0 then req (fA w == 0) ((Dest.ofCode (fD w)).map fun d => .stamp h d)
        else if fF w == 1 then (Dest.ofCode (fD w)).map fun d => .stampSet h d (Src.ofCode (fA w))
        else none
      else none
  | 0x1F => decZ w (.join h)
  | 0x20 => req (fA w == 0 && fld w 15 11 == 0)
      ((Dest.ofCode (fD w)).map fun d => .csrr h d (fld w 0 12) (fld w 12 3))
  | 0x21 => req (fld w 15 11 == 0)
      ((Dest.ofCode (fD w)).map fun d => .csrw h d (fld w 0 12) (fld w 12 3) (Src.ofCode (fA w)))
  | 0x22 => req (fD w == 0 && fA w == 0 && fB w == 0 && fF w == 0) (some (.trap h (fLow w)))
  | 0x23 => req (fA w == 0 && fB w == 0 && fF w == 0 && fld w 8 8 == 0)
      ((Dest.ofCode (fD w)).map fun d => .idq h d (fld w 0 8))
  | _ => none

/-- The append slot of F[17:16], the rest of F zero (R205). -/
def slotOf (w : Word) : Option (BitVec 2) := req (fld w 18 3 == 0) (some (fld w 16 2))

/-- The C-only map (R75, R101 to R113, R205). -/
def decodeCOnly (h : Hdr) (w : Word) : Option Instr :=
  match (fOpc w).toNat with
  | 0x40 => decDAB w (.mul h)
  | 0x41 => req (fLow w == 0)
      (match Dest.ofCode (fD w), MulhMode.ofCode (fF w) with
        | some d, some m => some (.mulh h d (Src.ofCode (fA w)) (Src.ofCode (fB w)) m)
        | _, _ => none)
  | 0x42 => decDABs w (.div h)
  | 0x43 => decDABs w (.rem h)
  | 0x44 => decDA w (.clz h)
  | 0x45 => decDA w (.ctz h)
  | 0x46 => decDA w (.popc h)
  | 0x47 => req (fB w == 0 && fF w == 0 && fld w 0 3 == 0)
      ((Dest.ofCode (fD w)).map fun d =>
        .bfx h d (Src.ofCode (fA w)) (fld w 10 6) (fld w 4 6) (bitB (fld w 3 1)))
  | 0x48 => req (fF w == 0 && fld w 0 4 == 0)
      ((Dest.ofCode (fD w)).map fun d =>
        .bfi h d (Src.ofCode (fA w)) (Src.ofCode (fB w)) (fld w 10 6) (fld w 4 6))
  | 0x49 => decDABF w (.fshl h)
  | 0x4A => decDABF w (.fshr h)
  | 0x50 =>
      (match Dest.ofCode (fD w), ldOrdOf (fld w 21 2) (fI21 w) with
        | some d, some o => some (.ld h d (Src.ofCode (fA w)) (fld w 24 2) (bitB (fld w 23 1)) o)
        | _, _ => none)
  | 0x51 => req (fld w 23 1 == 0)
      ((stOrdOf (fld w 21 2) (fI21 w)).map fun o =>
        .st h (Src.ofCode (fD w)) (Src.ofCode (fA w)) (fld w 24 2) o)
  | 0x52 => req (fld w 20 1 == 0 && fld w 0 10 == 0)
      (match Dest.ofCode (fD w), AtomOp.ofCode (fld w 16 3), Scope.ofCode (fld w 11 3) with
        | some d, some op, some s =>
          some (.atom h d (Src.ofCode (fA w)) (Src.ofCode (fB w)) op (bitB (fld w 19 1))
            (RmwOrd.ofCode (fld w 14 2)) s (bitB (fld w 10 1)))
        | _, _, _ => none)
  | 0x53 => req (fld w 0 10 == 0)
      (match Dest.ofCode (fD w), Scope.ofCode (fld w 11 3) with
        | some d, some s =>
          some (.acas h d (Src.ofCode (fA w)) (Src.ofCode (fB w)) (Src.ofCode (fF w))
            (RmwOrd.ofCode (fld w 14 2)) s (bitB (fld w 10 1)))
        | _, _ => none)
  | 0x54 => req (fld w 17 4 == 0 && fld w 0 11 == 0)
      (match Dest.ofCode (fD w), Scope.ofCode (fld w 11 3) with
        | some d, some s =>
          some (.atomf h d (Src.ofCode (fA w)) (Src.ofCode (fB w))
            (if fld w 16 1 == 1 then .bf16 else .f32) (RmwOrd.ofCode (fld w 14 2)) s)
        | _, _ => none)
  | 0x55 => req (fD w == 0 && fA w == 0 && fB w == 0 && fF w == 0 && fld w 0 11 == 0)
      (match FenceOrd.ofCode (fld w 14 2), Scope.ofCode (fld w 11 3) with
        | some o, some s => some (.fence h o s)
        | _, _ => none)
  | 0x56 => decD w (.dbar h)
  | 0x57 => decDAB w (.launch h)
  | 0x58 => decDABF w (.wqpush h)
  | 0x59 => req (fB w == 0 && fLow w == 0)
      (match Dest.ofCode (fD w), KeyDest.ofCode (fF w) with
        | some d, some kd => some (.wqpop h d kd (Src.ofCode (fA w)))
        | _, _ => none)
  | 0x60 => decDA w (.ploop h)
  | 0x61 => decZ w (.pnext h)
  | 0x62 => decZ w (.pgend h)
  | 0x63 => decZ w (.pexit h)
  | 0x64 => req (fB w == 0 && fF w == 0 && fLow w == 0)
      ((keptOf (fD w)).map fun kc => .pacc h kc (Src.ofCode (fA w)))
  | 0x65 => req (fA w == 0 && fB w == 0 && fF w == 0 && fld w 8 8 == 0)
      ((Dest.ofCode (fD w)).map fun d => .pstat h d (fld w 0 8))
  | 0x68 => req (fD w == 0 && fB w == 0 && fLow w == 0)
      ((slotOf w).map fun s => .apopen h s (Src.ofCode (fA w)))
  | 0x69 => req (fLow w == 0)
      (match Dest.ofCode (fD w), slotOf w with
        | some d, some s => some (.apnd h d s (Src.ofCode (fA w)) (Src.ofCode (fB w)))
        | _, _ => none)
  | 0x6A => req (fA w == 0 && fLow w == 0)
      (match Dest.ofCode (fD w), slotOf w with
        | some d, some s => some (.apcommit h d s (Src.ofCode (fB w)))
        | _, _ => none)
  | 0x6B => req (fA w == 0 && fB w == 0 && fLow w == 0)
      (match Dest.ofCode (fD w), slotOf w with
        | some d, some s => some (.aptrunc h d s)
        | _, _ => none)
  | 0x6C => req (fB w == 0 && fLow w == 0)
      (match Dest.ofCode (fD w), slotOf w with
        | some d, some s => some (.apfork h d s (Src.ofCode (fA w)))
        | _, _ => none)
  | 0x6D => req (fA w == 0 && fB w == 0 && fld w 8 8 == 0)
      (match Dest.ofCode (fD w), slotOf w with
        | some d, some s => some (.apstat h d s (fld w 0 8))
        | _, _ => none)
  | 0x70 => req (fLow w == 0 && fld w 19 2 == 0)
      (match (fld w 16 2).toNat with
        | 0 => req (fD w == 0)
            (some (.discMark h (Src.ofCode (fA w)) (Src.ofCode (fB w)) (bitB (fld w 18 1))))
        | 1 => req (fD w == 0)
            (some (.discKeep h (Src.ofCode (fA w)) (Src.ofCode (fB w)) (bitB (fld w 18 1))))
        | 2 => req (fA w == 0 && fld w 18 1 == 0)
            ((Dest.ofCode (fD w)).map fun d => .discLost h d (Src.ofCode (fB w)))
        | _ => req (fD w == 0 && fA w == 0 && fB w == 0 && fld w 18 1 == 0) (some (.discAck h)))
  | 0x71 => decDA w (.ckpt h)
  | 0x72 => req (fD w == 0 && fA w == 0 && fB w == 0 && fld w 18 3 == 0 && fLow w == 0)
      (match (fld w 16 2).toNat with
        | 0 => some (.tretRetry h)
        | 1 => some (.tretNext h)
        | 2 => some (.tretAbort h)
        | _ => none)
  | 0x73 => decD w (.yield h)
  | _ => none

/-- The V map (R65, R76; operand fields of R123 to R137). -/
def decodeV (h : VHdr) (w : Word) : Option Instr :=
  match (fOpc w).toNat with
  | 0x80 => decV2 w (.vadd h)
  | 0x81 => decV2 w (.vsub h)
  | 0x82 => decV2 w (.vmul h)
  | 0x83 => decV3 w (.vfma h)
  | 0x84 => decV3 w (.vfms h)
  | 0x85 => decV3 w (.vfnma h)
  | 0x86 => decV2 w (.vdiv h)
  | 0x87 => decV1 w (.vsqrt h)
  | 0x88 => decV2 w (.vmin h)
  | 0x89 => decV2 w (.vmax h)
  | 0x8A => decV2 w (.vminn h)
  | 0x8B => decV2 w (.vmaxn h)
  | 0x8C => req (fVC w == 0)
      (match vmask (fVD w), ElemTy.ofCode (fTY w), VCond.ofCode (fFN w) with
        | some md, some t, some cc => some (.vcmp h md (fVA w) (fVB w) t cc)
        | _, _, _ => none)
  | 0x8D => decV1 w (.vclass h)
  | 0x90 => decV1 w (.vrcpe h)
  | 0x91 => decV1 w (.vrsqe h)
  | 0x92 => decV2 w (.vrcps h)
  | 0x93 => decV2 w (.vrsqs h)
  | 0x94 => decV1 w (.vexp2 h)
  | 0x95 => decV1 w (.vlog2 h)
  | 0x96 => decV1 w (.vsin h)
  | 0x97 => decV1 w (.vcos h)
  | 0x98 => req (fVB w == 0 && fld w 12 3 == 0 && fld w 3 1 == 0)
      (match ElemTy.ofCode (fTY w), ElemTy.ofCode (fld w 8 4) with
        | some d, some s => some (.vcvt h (fVD w) (fVA w) d s (fld w 0 3))
        | _, _ => none)
  | 0x99 => req (fld w 12 3 == 0)
      (match ElemTy.ofCode (fTY w), ElemTy.ofCode (fld w 8 4) with
        | some d, some s =>
          if fld w 3 1 == 0 then req (fVB w == 0) (some (.vqblk h (fVD w) (fVA w) d s (fld w 0 3)))
          else some (.vqblkGiven h (fVD w) (fVA w) (fVB w) d s (fld w 0 3))
        | _, _ => none)
  | 0x9A => req (fld w 12 3 == 0 && fld w 3 1 == 0)
      (match ElemTy.ofCode (fTY w), ElemTy.ofCode (fld w 8 4) with
        | some d, some s => some (.vdqblk h (fVD w) (fVA w) (fVB w) d s (fld w 0 3))
        | _, _ => none)
  | 0xA0 => decV2 w (.viadd h)
  | 0xA1 => decV2 w (.visub h)
  | 0xA2 => decV2 w (.vimul h)
  | 0xA3 => decV2 w (.vimulh h)
  | 0xA4 => decV3 w (.vimad h)
  | 0xA5 => decV2 w (.vand h)
  | 0xA6 => decV2 w (.vor h)
  | 0xA7 => decV2 w (.vxor h)
  | 0xA8 => decV2 w (.vandn h)
  | 0xA9 => decV2 w (.vshl h)
  | 0xAA => decV2 w (.vshr h)
  | 0xAB => decV2 w (.vsar h)
  | 0xAC => decV2 w (.vrot h)
  | 0xAD => decV3 w (.vfshl h)
  | 0xAE => decV3 w (.vfshr h)
  | 0xAF => decV1 w (.vclz h)
  | 0xB0 => decV1 w (.vpopc h)
  | 0xC0 => req (fld w 1 3 == 0)
      (match vsrc (fVA w), ElemTy.ofCode (fTY w) with
        | some ka, some t => some (.vld h (fVD w) ka (fld w 8 14) t (bitB (fld w 0 1)))
        | _, _ => none)
  | 0xC1 => req (fld w 1 3 == 0)
      (match vsrc (fVA w), ElemTy.ofCode (fTY w) with
        | some ka, some t => some (.vst h (fVD w) ka (fld w 8 14) t (bitB (fld w 0 1)))
        | _, _ => none)
  | 0xC2 => req (fVC w == 0 && fFN w == 0)
      (match vsrc (fVA w), vsrc (fVB w), ElemTy.ofCode (fTY w) with
        | some ka, some kb, some t => some (.vlds h (fVD w) ka kb t)
        | _, _, _ => none)
  | 0xC3 => req (fVC w == 0 && fFN w == 0)
      (match vsrc (fVA w), ElemTy.ofCode (fTY w) with
        | some ka, some t => some (.vgats h (fVD w) ka (fVB w) t)
        | _, _ => none)
  | 0xC4 => req (fVC w == 0 && fFN w == 0)
      (match vsrc (fVA w), ElemTy.ofCode (fTY w) with
        | some ka, some t => some (.vscats h (fVD w) ka (fVB w) t)
        | _, _ => none)
  | 0xC5 => decV2 w (.vperm h)
  | 0xC6 => decV3 w (.vshuf h)
  | 0xC7 => req (fVB w == 0 && fVC w == 0 && fFN w == 0)
      (match vsrc (fVA w), ElemTy.ofCode (fTY w) with
        | some ka, some t => some (.vbcast h (fVD w) ka t)
        | _, _ => none)
  | 0xC8 =>
      (match vsrc (fVC w), ElemTy.ofCode (fTY w) with
        | some kc, some t =>
          if fFN w == 0 then some (.vslideDn h (fVD w) (fVA w) (fVB w) kc t)
          else if fFN w == 1 then some (.vslideUp h (fVD w) (fVA w) (fVB w) kc t)
          else none
        | _, _ => none)
  | 0xC9 => req (fFN w == 0)
      (match vmask (fVC w), ElemTy.ofCode (fTY w) with
        | some mc, some t => some (.vsel h (fVD w) (fVA w) (fVB w) mc t)
        | _, _ => none)
  | 0xCA => req (fVD w == 0 && fVC w == 0 && fFN w == 0)
      (match vsrc (fVB w), ElemTy.ofCode (fTY w) with
        | some kb, some t => some (.vext h (fVA w) kb t)
        | _, _ => none)
  | 0xCB => req (fVC w == 0 && fFN w == 0)
      (match vsrc (fVA w), vsrc (fVB w), ElemTy.ofCode (fTY w) with
        | some ka, some kb, some t => some (.vins h (fVD w) ka kb t)
        | _, _, _ => none)
  | 0xD0 => decV1 w (.vredsum h)
  | 0xD1 => decV1 w (.vredmax h)
  | 0xD2 => decV1 w (.vredmin h)
  | 0xD3 => req (fVB w == 0 && fVC w == 0 && fld w 1 3 == 0)
      ((ElemTy.ofCode (fTY w)).map fun t => .vredarg h (fVD w) (fVA w) t (bitB (fld w 0 1)))
  | 0xD4 => req (fVB w == 0 && fVC w == 0 && fld w 1 3 == 0)
      ((ElemTy.ofCode (fTY w)).map fun t => .vscan h (fVD w) (fVA w) t (bitB (fld w 0 1)))
  | 0xD5 => req (fVA w == 0 && fVB w == 0 && fVC w == 0 && fld w 1 3 == 0)
      ((ElemTy.ofCode (fTY w)).map fun t => .viota h (fVD w) t (bitB (fld w 0 1)))
  | 0xD6 => req (fVD w == 0 && fVB w == 0 && fVC w == 0 && fFN w == 0)
      (match vmask (fVA w), ElemTy.ofCode (fTY w) with
        | some ma, some t => some (.vmpop h ma t)
        | _, _ => none)
  | 0xD7 => req (fVC w == 0 && fTY w == 0)
      (match vmask (fVD w), vmask (fVA w), vmask (fVB w) with
        | some md, some ma, some mb => some (.vmlog h md ma mb (fFN w))
        | _, _, _ => none)
  | 0xD8 => req (fVD w == 0 && fld w 17 5 == 0 && fFN w == 0 && (fTY w == 0 || fTY w == 1))
      ((vsrc (fVC w)).map fun kg => .vtab h (fVA w) (fld w 15 2) kg (fTY w == 1))
  | 0xD9 => req (fVB w == 0 && fVC w == 0 && fTY w == 0 && fFN w == 0) (some (.vsnap h (fVD w) (fVA w)))
  | 0xE0 => req (fVD w == 0 && fVC w == 0 && fFN w == 0)
      ((ElemTy.ofCode (fTY w)).map fun t => .vprefeq h (fVA w) (fVB w) t)
  | 0xE1 => req (fVC w == 0 && fFN w == 0)
      (match vsrc (fVB w), ElemTy.ofCode (fTY w) with
        | some kb, some t => some (.vshort h (fVD w) (fVA w) kb t)
        | _, _ => none)
  | 0xE2 => req (fTY w == 0xB && fFN w == 0)
      (match vmask (fVD w), vsrc (fVB w), vsrc (fVC w) with
        | some md, some kb, some kc => some (.vmass h md (fVA w) kb kc)
        | _, _, _ => none)
  | 0xE3 => req (fTY w == 0xB && fFN w == 0)
      (match vsrc (fVA w), vsrc (fVB w), vsrc (fVC w) with
        | some ka, some kb, some kc => some (.vnoise h (fVD w) ka kb kc)
        | _, _, _ => none)
  | 0xE4 => req (fVC w == 0 && fFN w == 0)
      (match vmask (fVD w), ElemTy.ofCode (fTY w) with
        | some md, some t => some (.vbtest h md (fVA w) (fVB w) t)
        | _, _ => none)
  | 0xE5 => decV2 w (.vbset h)
  | 0xF0 => req (h.mask == 0 && h.more && fld w 0 21 == 0)
      ((rndOf (fld w 21 3)).map fun r =>
        .vmod h.wait h.sig (fld w 33 3) (fld w 30 3) (Clamp.ofCode (fld w 28 2)) (fld w 24 4) r)
  | _ => none

/-- The M map (R72, R77, R161). -/
def decodeM (h : Hdr) (w : Word) : Option Instr :=
  if fMZ w != 0 then none else
  match (fOpc w).toNat with
  | 0x80 => req (fTL w == 0 && fSRC w == 0 && fKC w == 0 && fKA w == 0 && fld w 9 3 == 0 && fld w 4 4 == 0)
      ((idx2 (fIDX w)).bind fun t =>
        if fld w 0 4 == 0 then some (.tdecl h t false (bitB (fld w 8 1)))
        else if fld w 0 4 == 0xB then some (.tdecl h t true (bitB (fld w 8 1)))
        else none)
  | 0x81 => req (fTL w == 0 && fSRC w == 0 && fNB w == 0)
      (some (.cbload h (fIDX w) (Src.ofCode (fKC w)) (Src.ofCode (fKA w))))
  | 0x82 => req (fIDX w == 0 && fSRC w == 0 && fKA w == 0 && fNB w == 0)
      (some (.tlset h (fTL w) (Src.ofCode (fKC w))))
  | 0x83 => (idx2 (fIDX w)).bind fun t =>
      if fSRC w == 0 then some (.lmm h t (fTL w) (Src.ofCode (fKC w)) (Src.ofCode (fKA w)) (fNB w))
      else if fld w 30 1 == 1 then
        req (fKA w == 0) (some (.lmmFeed h t (fTL w) (fld w 28 2) (Src.ofCode (fKC w)) (fNB w)))
      else none
  | 0x84 => req (fTL w == 0 && fSRC w == 0 && fKC w == 0 && fNB w == 0)
      ((idx2 (fIDX w)).map fun f => .cfeed h f (Src.ofCode (fKA w)))
  | 0x85 => req (fTL w == 0 && fSRC w == 0 && fKC w == 0 && fKA w == 0 && fNB w == 0)
      ((idx2 (fIDX w)).map fun f => .cunfeed h f)
  | 0x86 => req (fTL w == 0 && fSRC w == 0 && fKC w == 0 && fNB w == 0)
      ((idx2 (fIDX w)).map fun t => .lspill h t (Src.ofCode (fKA w)))
  | 0x87 => req (fTL w == 0 && fSRC w == 0 && fKC w == 0 && fNB w == 0)
      ((idx2 (fIDX w)).map fun t => .lfill h t (Src.ofCode (fKA w)))
  | 0x88 => req (fTL w == 0 && fSRC w == 0 && fKC w == 0 && fKA w == 0 && fNB w == 0)
      ((idx2 (fIDX w)).map fun t => .lzero h t)
  | 0x89 => req (fIDX w == 0 && fTL w == 0 && fSRC w == 0 && fKC w == 0 && fKA w == 0 && fld w 4 8 == 0)
      (some (.lwake h (fld w 0 4)))
  | 0x8A => req (fIDX w == 0 && fTL w == 0 && fSRC w == 0 && fKC w == 0 && fKA w == 0)
      (some (.lstat h (fNB w)))
  | 0x8B => req (fIDX w == 0 && fSRC w == 0 && fNB w == 0)
      (some (.tload h (fTL w) (Src.ofCode (fKC w)) (Src.ofCode (fKA w))))
  | 0x8C => req (fIDX w == 0 && fSRC w == 0 && fNB w == 0)
      (some (.tsave h (fTL w) (Src.ofCode (fKC w)) (Src.ofCode (fKA w))))
  | _ => none

/-- The copy and Sluice map (R73, R78, R184). -/
def decodeX (h : Hdr) (w : Word) : Option Instr :=
  match (fOpc w).toNat with
  | 0x80 => req (fKM w == 0 && fKN w == 0 && fXFN w == 0 && fXD w == 0 && fXZ w == 0)
      (some (.shape h (fSH w) (Src.ofCode (fKS w))))
  | 0x81 => decCopy w (.cpy h)
  | 0x82 =>
      if fXFN w == 0 then decCopy w (.cpyo h)
      else req (fXFN w == 1 && fXZ w == 0)
        ((Dest.ofCode (fXD w)).map fun d =>
          .cpyoAppend h d (fSH w) (Src.ofCode (fKM w)) (Src.ofCode (fKS w)) (Src.ofCode (fKN w)))
  | 0x83 => decCopy w (.cpyc h)
  | 0x84 => req (fKS w == 0 && fld w 14 4 == 0 && fXZ w == 0)
      ((Dest.ofCode (fXD w)).map fun d =>
        .pref h d (fSH w) (Src.ofCode (fKM w)) (Src.ofCode (fKN w)) (bitB (fld w 13 1)))
  | 0x85 => req (fSH w == 0 && fKM w == 0 && fKS w == 0 && fXD w == 0 && fXZ w == 0)
      (if fXFN w == 0 then some (.cwait h (Src.ofCode (fKN w)))
       else req (fXFN w == 1 && fKN w == 0) (some (.cwaitAll h)))
  | 0x86 => req (fKS w == 0 && fXZ w == 0)
      (match Dest.ofCode (fXD w), FlushOp.ofCode (fXFN w) with
        | some d, some op => some (.cflush h d (fSH w) (Src.ofCode (fKM w)) (Src.ofCode (fKN w)) op)
        | _, _ => none)
  | 0x87 => req (fSH w == 0 && fKM w == 0 && fKS w == 0 && fKN w == 0 && fXZ w == 0)
      ((Dest.ofCode (fXD w)).map fun d => .cstat h d (fXFN w))
  | 0x88 => decCopy w (.gath h)
  | 0x89 => decCopy w (.gathp h)
  | 0x8A => decCopy w (.scat h)
  | _ => none

/-- A stream's decoding of a word by the ranges of R54; none is ILLEGAL. -/
def decodeRaw (x : StreamId) (w : Word) : Option Instr :=
  if (fOpc w).toNat < 0x40 then (Hdr.ofWord w).bind fun h => decodeCommon h w
  else if (fOpc w).toNat < 0x80 then
    (if x = .c then (Hdr.ofWord w).bind fun h => decodeCOnly h w else none)
  else match x with
    | .c => none
    | .l | .s => (Hdr.ofWord w).bind fun h => decodeX h w
    | .v => (VHdr.ofWord w).bind fun h => decodeV h w
    | .m => (Hdr.ofWord w).bind fun h => decodeM h w

/-- The decoder: the instruction a stream reads from a word, or none where the word raises ILLEGAL by R54 to R79. -/
def decode (x : StreamId) (w : Word) : Option Instr :=
  (decodeRaw x w).filter (Instr.legalIn (x == .v))

/-! ### The encoder -/

/-- The first 28 bits of a word outside V: WAIT, SIG, OPC and GUARD (R53, R61). -/
def Hdr.head (h : Hdr) (opc : BitVec 8) : BitVec 28 := h.wait.byte ++ h.sig.byte ++ opc ++ h.guard.code

/-- Format S3 (R62). -/
def encS3 (h : Hdr) (opc : BitVec 8) (d a b f : BitVec 5) (low : BitVec 16) : Word :=
  h.head opc ++ d ++ a ++ b ++ f ++ low

/-- Format SI (R62). -/
def encSI (h : Hdr) (opc : BitVec 8) (d a : BitVec 5) (i : BitVec 26) : Word := h.head opc ++ d ++ a ++ i

/-- Formats SL and SB with a counter (R62). -/
def encSL (h : Hdr) (opc : BitVec 8) (d : BitVec 5) (i : BitVec 31) : Word := h.head opc ++ d ++ i

/-- Format SB (R62). -/
def encSB (h : Hdr) (opc : BitVec 8) (i : BitVec 36) : Word := h.head opc ++ i

/-- Format SM (R62, R64). -/
def encSM (h : Hdr) (opc : BitVec 8) (d a f : BitVec 5) (i : BitVec 21) : Word := h.head opc ++ d ++ a ++ f ++ i

/-- The vector format (R65). -/
def encV (h : VHdr) (opc : BitVec 8) (vd va vb vc : BitVec 7) (ty fn : BitVec 4) : Word :=
  h.wait.byte ++ h.sig.byte ++ opc ++ h.mask ++ bBit h.more ++ vd ++ va ++ vb ++ vc ++ ty ++ fn

/-- The M format (R72). -/
def encM (h : Hdr) (opc : BitVec 8) (idx : BitVec 3) (tl : BitVec 2) (src : BitVec 3) (kc ka : BitVec 5)
    (nb : BitVec 12) : Word :=
  h.head opc ++ idx ++ tl ++ src ++ kc ++ ka ++ 0#6 ++ nb

/-- The copy format (R73). -/
def encX (h : Hdr) (opc : BitVec 8) (sh : BitVec 3) (km ks kn fn d : BitVec 5) : Word :=
  h.head opc ++ sh ++ km ++ ks ++ kn ++ fn ++ d ++ 0#8

/-- A scalar source in a 7-bit field (R66). -/
def vk (s : Src) : BitVec 7 := 0#2 ++ s.code

/-- A mask register in a 7-bit field (R66). -/
def vm (m : BitVec 3) : BitVec 7 := 0#4 ++ m

/-- A predicate in a 5-bit field (R63). -/
def p5 (p : BitVec 3) : BitVec 5 := 0#2 ++ p

/-- S3 with D, A, B. -/
def encDAB (h : Hdr) (opc : BitVec 8) (d : Dest) (a b : Src) : Word := encS3 h opc d.code a.code b.code 0 0

/-- S3 with D, A, B and a signedness bit in F. -/
def encDABs (h : Hdr) (opc : BitVec 8) (d : Dest) (a b : Src) (s : Bool) : Word :=
  encS3 h opc d.code a.code b.code (0#4 ++ bBit s) 0

/-- S3 with D and A. -/
def encDA (h : Hdr) (opc : BitVec 8) (d : Dest) (a : Src) : Word := encS3 h opc d.code a.code 0 0 0

/-- The word of an instruction; none for a step that is no word. -/
def encode : Instr → Option Word
  | .nop h => some (encSB h 0x00 0)
  | .movi h d i => some (encSL h 0x01 d.code i)
  | .movk h d a hw i => some (encSI h 0x02 d.code a.code (0#8 ++ hw ++ i))
  | .mov h d a => some (encDA h 0x03 d a)
  | .add h d a b => some (encDAB h 0x04 d a b)
  | .sub h d a b => some (encDAB h 0x05 d a b)
  | .addi h d a i => some (encSI h 0x06 d.code a.code i)
  | .and h d a b => some (encDAB h 0x07 d a b)
  | .or h d a b => some (encDAB h 0x08 d a b)
  | .xor h d a b => some (encDAB h 0x09 d a b)
  | .andn h d a b => some (encDAB h 0x0A d a b)
  | .shl h d a b => some (encDAB h 0x0B d a b)
  | .shr h d a b => some (encDAB h 0x0C d a b)
  | .sar h d a b => some (encDAB h 0x0D d a b)
  | .min h d a b s => some (encDABs h 0x0E d a b s)
  | .max h d a b s => some (encDABs h 0x0F d a b s)
  | .cmp h pd a b cc => some (encS3 h 0x10 (p5 pd) a.code b.code cc.code 0)
  | .cmpi h pd a i cc => some (encSM h 0x11 (p5 pd) a.code cc.code i)
  | .sel h d pc a b => some (encS3 h 0x12 d.code a.code b.code (p5 pc) 0)
  | .pset h pd pa pb tt => some (encS3 h 0x13 (p5 pd) (p5 pa) (p5 pb) (0#1 ++ tt) 0)
  | .br h i => some (encSB h 0x14 i)
  | .jmp h a => some (encS3 h 0x15 0 a.code 0 0 0)
  | .call h i => some (encSB h 0x16 i)
  | .ret h => some (encSB h 0x17 0)
  | .retReg h a => some (encS3 h 0x17 0 a.code 0 1 0)
  | .loop h kc i => some (encSL h 0x18 (0#1 ++ kc) i)
  | .lds h d a sz s i => some (encSM h 0x19 d.code a.code (sz ++ bBit s ++ 0#2) i)
  | .sts h x a sz i => some (encSM h 0x1A x.code a.code (sz ++ 0#3) i)
  | .qpush h x a => some (encS3 h 0x1B 0 a.code 0 (0#3 ++ x) 0)
  | .qpop h d x => some (encS3 h 0x1C d.code 0 0 (0#3 ++ x) 0)
  | .qlvl h d k x => some (encS3 h 0x1D d.code 0 0 (0#1 ++ k.code ++ x) 0)
  | .stamp h d => some (encS3 h 0x1E d.code 0 0 0 0)
  | .stampSet h d a => some (encS3 h 0x1E d.code a.code 0 1 0)
  | .join h => some (encSB h 0x1F 0)
  | .csrr h d c x => some (encSI h 0x20 d.code 0 (0#11 ++ x ++ c))
  | .csrw h d c x a => some (encSI h 0x21 d.code a.code (0#11 ++ x ++ c))
  | .trap h c => some (encS3 h 0x22 0 0 0 0 c)
  | .idq h d x => some (encS3 h 0x23 d.code 0 0 0 (0#8 ++ x))
  | .mul h d a b => some (encDAB h 0x40 d a b)
  | .mulh h d a b m => some (encS3 h 0x41 d.code a.code b.code m.code 0)
  | .div h d a b s => some (encDABs h 0x42 d a b s)
  | .rem h d a b s => some (encDABs h 0x43 d a b s)
  | .clz h d a => some (encDA h 0x44 d a)
  | .ctz h d a => some (encDA h 0x45 d a)
  | .popc h d a => some (encDA h 0x46 d a)
  | .bfx h d a p l s => some (encS3 h 0x47 d.code a.code 0 0 (p ++ l ++ bBit s ++ 0#3))
  | .bfi h d a b p l => some (encS3 h 0x48 d.code a.code b.code 0 (p ++ l ++ 0#4))
  | .fshl h d a b n => some (encS3 h 0x49 d.code a.code b.code n.code 0)
  | .fshr h d a b n => some (encS3 h 0x4A d.code a.code b.code n.code 0)
  | .ld h d a sz s o => some (encSM h 0x50 d.code a.code (sz ++ bBit s ++ o.ldCode) o.imm)
  | .st h x a sz o => some (encSM h 0x51 x.code a.code (sz ++ 0#1 ++ o.stCode) o.imm)
  | .atom h d a b op s o sc z =>
      some (encS3 h 0x52 d.code a.code b.code (0#1 ++ bBit s ++ op.code) (o.code ++ sc.code ++ bBit z ++ 0#10))
  | .acas h d a b f o sc z =>
      some (encS3 h 0x53 d.code a.code b.code f.code (o.code ++ sc.code ++ bBit z ++ 0#10))
  | .atomf h d a b ft o sc =>
      some (encS3 h 0x54 d.code a.code b.code (0#4 ++ bBit (ft == .bf16)) (o.code ++ sc.code ++ 0#11))
  | .fence h o sc => some (encS3 h 0x55 0 0 0 0 (o.code ++ sc.code ++ 0#11))
  | .dbar h d => some (encS3 h 0x56 d.code 0 0 0 0)
  | .launch h d a b => some (encDAB h 0x57 d a b)
  | .wqpush h d q k p => some (encS3 h 0x58 d.code q.code k.code p.code 0)
  | .wqpop h d kd q => some (encS3 h 0x59 d.code q.code 0 kd.code 0)
  | .ploop h d a => some (encDA h 0x60 d a)
  | .pnext h => some (encSB h 0x61 0)
  | .pgend h => some (encSB h 0x62 0)
  | .pexit h => some (encSB h 0x63 0)
  | .pacc h kc a => some (encS3 h 0x64 (0#1 ++ kc) a.code 0 0 0)
  | .pstat h d x => some (encS3 h 0x65 d.code 0 0 0 (0#8 ++ x))
  | .apopen h s a => some (encS3 h 0x68 0 a.code 0 (0#3 ++ s) 0)
  | .apnd h d s a b => some (encS3 h 0x69 d.code a.code b.code (0#3 ++ s) 0)
  | .apcommit h d s b => some (encS3 h 0x6A d.code 0 b.code (0#3 ++ s) 0)
  | .aptrunc h d s => some (encS3 h 0x6B d.code 0 0 (0#3 ++ s) 0)
  | .apfork h d s a => some (encS3 h 0x6C d.code a.code 0 (0#3 ++ s) 0)
  | .apstat h d s x => some (encS3 h 0x6D d.code 0 0 (0#3 ++ s) (0#8 ++ x))
  | .discMark h a b t => some (encS3 h 0x70 0 a.code b.code (0#2 ++ bBit t ++ 0#2) 0)
  | .discKeep h a b t => some (encS3 h 0x70 0 a.code b.code (0#2 ++ bBit t ++ 1#2) 0)
  | .discLost h d b => some (encS3 h 0x70 d.code 0 b.code 2 0)
  | .discAck h => some (encS3 h 0x70 0 0 0 3 0)
  | .ckpt h d a => some (encDA h 0x71 d a)
  | .tretRetry h => some (encS3 h 0x72 0 0 0 0 0)
  | .tretNext h => some (encS3 h 0x72 0 0 0 1 0)
  | .tretAbort h => some (encS3 h 0x72 0 0 0 2 0)
  | .yield h d => some (encS3 h 0x73 d.code 0 0 0 0)
  | .vadd h d a b t => some (encV h 0x80 d a b 0 t.code 0)
  | .vsub h d a b t => some (encV h 0x81 d a b 0 t.code 0)
  | .vmul h d a b t => some (encV h 0x82 d a b 0 t.code 0)
  | .vfma h d a b c t => some (encV h 0x83 d a b c t.code 0)
  | .vfms h d a b c t => some (encV h 0x84 d a b c t.code 0)
  | .vfnma h d a b c t => some (encV h 0x85 d a b c t.code 0)
  | .vdiv h d a b t => some (encV h 0x86 d a b 0 t.code 0)
  | .vsqrt h d a t => some (encV h 0x87 d a 0 0 t.code 0)
  | .vmin h d a b t => some (encV h 0x88 d a b 0 t.code 0)
  | .vmax h d a b t => some (encV h 0x89 d a b 0 t.code 0)
  | .vminn h d a b t => some (encV h 0x8A d a b 0 t.code 0)
  | .vmaxn h d a b t => some (encV h 0x8B d a b 0 t.code 0)
  | .vcmp h md a b t cc => some (encV h 0x8C (vm md) a b 0 t.code cc.code)
  | .vclass h d a t => some (encV h 0x8D d a 0 0 t.code 0)
  | .vrcpe h d a t => some (encV h 0x90 d a 0 0 t.code 0)
  | .vrsqe h d a t => some (encV h 0x91 d a 0 0 t.code 0)
  | .vrcps h d a b t => some (encV h 0x92 d a b 0 t.code 0)
  | .vrsqs h d a b t => some (encV h 0x93 d a b 0 t.code 0)
  | .vexp2 h d a t => some (encV h 0x94 d a 0 0 t.code 0)
  | .vlog2 h d a t => some (encV h 0x95 d a 0 0 t.code 0)
  | .vsin h d a t => some (encV h 0x96 d a 0 0 t.code 0)
  | .vcos h d a t => some (encV h 0x97 d a 0 0 t.code 0)
  | .vcvt h d a dt st p => some (encV h 0x98 d a 0 (0#3 ++ st.code) dt.code (0#1 ++ p))
  | .vqblk h d a t st b => some (encV h 0x99 d a 0 (0#3 ++ st.code) t.code (0#1 ++ b))
  | .vqblkGiven h d a s t st b => some (encV h 0x99 d a s (0#3 ++ st.code) t.code (1#1 ++ b))
  | .vdqblk h d a s t st b => some (encV h 0x9A d a s (0#3 ++ st.code) t.code (0#1 ++ b))
  | .viadd h d a b t => some (encV h 0xA0 d a b 0 t.code 0)
  | .visub h d a b t => some (encV h 0xA1 d a b 0 t.code 0)
  | .vimul h d a b t => some (encV h 0xA2 d a b 0 t.code 0)
  | .vimulh h d a b t => some (encV h 0xA3 d a b 0 t.code 0)
  | .vimad h d a b c t => some (encV h 0xA4 d a b c t.code 0)
  | .vand h d a b t => some (encV h 0xA5 d a b 0 t.code 0)
  | .vor h d a b t => some (encV h 0xA6 d a b 0 t.code 0)
  | .vxor h d a b t => some (encV h 0xA7 d a b 0 t.code 0)
  | .vandn h d a b t => some (encV h 0xA8 d a b 0 t.code 0)
  | .vshl h d a b t => some (encV h 0xA9 d a b 0 t.code 0)
  | .vshr h d a b t => some (encV h 0xAA d a b 0 t.code 0)
  | .vsar h d a b t => some (encV h 0xAB d a b 0 t.code 0)
  | .vrot h d a b t => some (encV h 0xAC d a b 0 t.code 0)
  | .vfshl h d a b c t => some (encV h 0xAD d a b c t.code 0)
  | .vfshr h d a b c t => some (encV h 0xAE d a b c t.code 0)
  | .vclz h d a t => some (encV h 0xAF d a 0 0 t.code 0)
  | .vpopc h d a t => some (encV h 0xB0 d a 0 0 t.code 0)
  | .vld h d k o t bm =>
      some (encV h 0xC0 d (vk k) (o.extractLsb' 7 7) (o.extractLsb' 0 7) t.code (0#3 ++ bBit bm))
  | .vst h d k o t bm =>
      some (encV h 0xC1 d (vk k) (o.extractLsb' 7 7) (o.extractLsb' 0 7) t.code (0#3 ++ bBit bm))
  | .vlds h d ka kb t => some (encV h 0xC2 d (vk ka) (vk kb) 0 t.code 0)
  | .vgats h d ka b t => some (encV h 0xC3 d (vk ka) b 0 t.code 0)
  | .vscats h d ka b t => some (encV h 0xC4 d (vk ka) b 0 t.code 0)
  | .vperm h d a b t => some (encV h 0xC5 d a b 0 t.code 0)
  | .vshuf h d a b c t => some (encV h 0xC6 d a b c t.code 0)
  | .vbcast h d ka t => some (encV h 0xC7 d (vk ka) 0 0 t.code 0)
  | .vslideDn h d a b kc t => some (encV h 0xC8 d a b (vk kc) t.code 0)
  | .vslideUp h d a b kc t => some (encV h 0xC8 d a b (vk kc) t.code 1)
  | .vsel h d a b mc t => some (encV h 0xC9 d a b (vm mc) t.code 0)
  | .vext h a kb t => some (encV h 0xCA 0 a (vk kb) 0 t.code 0)
  | .vins h d ka kb t => some (encV h 0xCB d (vk ka) (vk kb) 0 t.code 0)
  | .vredsum h d a t => some (encV h 0xD0 d a 0 0 t.code 0)
  | .vredmax h d a t => some (encV h 0xD1 d a 0 0 t.code 0)
  | .vredmin h d a t => some (encV h 0xD2 d a 0 0 t.code 0)
  | .vredarg h d a t l => some (encV h 0xD3 d a 0 0 t.code (0#3 ++ bBit l))
  | .vscan h d a t e => some (encV h 0xD4 d a 0 0 t.code (0#3 ++ bBit e))
  | .viota h d t x => some (encV h 0xD5 d 0 0 0 t.code (0#3 ++ bBit x))
  | .vmpop h ma t => some (encV h 0xD6 0 (vm ma) 0 0 t.code 0)
  | .vmlog h md ma mb tt => some (encV h 0xD7 (vm md) (vm ma) (vm mb) 0 0 tt)
  | .vtab h a tl kg u => some (encV h 0xD8 0 a (0#5 ++ tl) (vk kg) (0#3 ++ bBit u) 0)
  | .vsnap h d a => some (encV h 0xD9 d a 0 0 0 0)
  | .vprefeq h a b t => some (encV h 0xE0 0 a b 0 t.code 0)
  | .vshort h d a kb t => some (encV h 0xE1 d a (vk kb) 0 t.code 0)
  | .vmass h md a kb kc => some (encV h 0xE2 (vm md) a (vk kb) (vk kc) 0xB 0)
  | .vnoise h d ka kb kc => some (encV h 0xE3 d (vk ka) (vk kb) (vk kc) 0xB 0)
  | .vbtest h md a b t => some (encV h 0xE4 (vm md) a b 0 t.code 0)
  | .vbset h d a b t => some (encV h 0xE5 d a b 0 t.code 0)
  | .vmod wt g n a c s r =>
      some (wt.byte ++ g.byte ++ 0xF0#8 ++ 0#3 ++ 1#1 ++ n ++ a ++ c.code ++ s ++ rndCode r ++ 0#21)
  | .tdecl h t f d => some (encM h 0x80 (0#1 ++ t) 0 0 0 0 (0#3 ++ bBit d ++ 0#4 ++ (if f then 0xB#4 else 0#4)))
  | .cbload h cb kc ka => some (encM h 0x81 cb 0 0 kc.code ka.code 0)
  | .tlset h tl kc => some (encM h 0x82 0 tl 0 kc.code 0 0)
  | .lmm h t tl kc ka nb => some (encM h 0x83 (0#1 ++ t) tl 0 kc.code ka.code nb)
  | .lmmFeed h t tl cf kc nb => some (encM h 0x83 (0#1 ++ t) tl (1#1 ++ cf) kc.code 0 nb)
  | .cfeed h cf ka => some (encM h 0x84 (0#1 ++ cf) 0 0 0 ka.code 0)
  | .cunfeed h cf => some (encM h 0x85 (0#1 ++ cf) 0 0 0 0 0)
  | .lspill h t ka => some (encM h 0x86 (0#1 ++ t) 0 0 0 ka.code 0)
  | .lfill h t ka => some (encM h 0x87 (0#1 ++ t) 0 0 0 ka.code 0)
  | .lzero h t => some (encM h 0x88 (0#1 ++ t) 0 0 0 0 0)
  | .lwake h m => some (encM h 0x89 0 0 0 0 0 (0#8 ++ m))
  | .lstat h x => some (encM h 0x8A 0 0 0 0 0 x)
  | .tload h tl kc ka => some (encM h 0x8B 0 tl 0 kc.code ka.code 0)
  | .tsave h tl kc ka => some (encM h 0x8C 0 tl 0 kc.code ka.code 0)
  | .shape h sh ks => some (encX h 0x80 sh 0 ks.code 0 0 0)
  | .cpy h d sh km ks kn => some (encX h 0x81 sh km.code ks.code kn.code 0 d.code)
  | .cpyo h d sh km ks kn => some (encX h 0x82 sh km.code ks.code kn.code 0 d.code)
  | .cpyoAppend h d sh km ks kn => some (encX h 0x82 sh km.code ks.code kn.code 1 d.code)
  | .cpyc h d sh km ks kc => some (encX h 0x83 sh km.code ks.code kc.code 0 d.code)
  | .pref h d sh km kn l1 => some (encX h 0x84 sh km.code 0 kn.code (0#4 ++ bBit l1) d.code)
  | .cwait h kn => some (encX h 0x85 0 0 0 kn.code 0 0)
  | .cwaitAll h => some (encX h 0x85 0 0 0 0 1 0)
  | .cflush h d sh km kn op => some (encX h 0x86 sh km.code 0 kn.code op.code d.code)
  | .cstat h d x => some (encX h 0x87 0 0 0 0 x d.code)
  | .gath h d sh km ks kn => some (encX h 0x88 sh km.code ks.code kn.code 0 d.code)
  | .gathp h d sh km ks kn => some (encX h 0x89 sh km.code ks.code kn.code 0 d.code)
  | .scat h d sh km ks kn => some (encX h 0x8A sh km.code ks.code kn.code 0 d.code)
  | _ => none

/-- The streams that execute an instruction's word (R54, R74 to R78); a step of an engine is no word and belongs to none. -/
def Instr.stream (x : StreamId) : Instr → Bool
  | .nop _ | .movi _ _ _ | .movk _ _ _ _ _ | .mov _ _ _ | .add _ _ _ _ | .sub _ _ _ _ | .addi _ _ _ _
  | .and _ _ _ _ | .or _ _ _ _ | .xor _ _ _ _ | .andn _ _ _ _ | .shl _ _ _ _ | .shr _ _ _ _ | .sar _ _ _ _
  | .min _ _ _ _ _ | .max _ _ _ _ _ | .cmp _ _ _ _ _ | .cmpi _ _ _ _ _ | .sel _ _ _ _ _ | .pset _ _ _ _ _
  | .br _ _ | .jmp _ _ | .call _ _ | .ret _ | .retReg _ _ | .loop _ _ _ | .lds _ _ _ _ _ _ | .sts _ _ _ _ _
  | .qpush _ _ _ | .qpop _ _ _ | .qlvl _ _ _ _ | .stamp _ _ | .stampSet _ _ _ | .join _ | .csrr _ _ _ _
  | .csrw _ _ _ _ _ | .trap _ _ | .idq _ _ _ => true
  | .mul _ _ _ _ | .mulh _ _ _ _ _ | .div _ _ _ _ _ | .rem _ _ _ _ _ | .clz _ _ _ | .ctz _ _ _ | .popc _ _ _
  | .bfx _ _ _ _ _ _ | .bfi _ _ _ _ _ _ | .fshl _ _ _ _ _ | .fshr _ _ _ _ _ | .ld _ _ _ _ _ _ | .st _ _ _ _ _
  | .atom _ _ _ _ _ _ _ _ _ | .acas _ _ _ _ _ _ _ _ | .atomf _ _ _ _ _ _ _ | .fence _ _ _ | .dbar _ _
  | .launch _ _ _ _ | .wqpush _ _ _ _ _ | .wqpop _ _ _ _ | .ploop _ _ _ | .pnext _ | .pgend _ | .pexit _
  | .pacc _ _ _ | .pstat _ _ _ | .apopen _ _ _ | .apnd _ _ _ _ _ | .apcommit _ _ _ _ | .aptrunc _ _ _
  | .apfork _ _ _ _ | .apstat _ _ _ _ | .discMark _ _ _ _ | .discKeep _ _ _ _ | .discLost _ _ _ | .discAck _
  | .ckpt _ _ _ | .tretRetry _ | .tretNext _ | .tretAbort _ | .yield _ _ => x == .c
  | .vadd _ _ _ _ _ | .vsub _ _ _ _ _ | .vmul _ _ _ _ _ | .vfma _ _ _ _ _ _ | .vfms _ _ _ _ _ _
  | .vfnma _ _ _ _ _ _ | .vdiv _ _ _ _ _ | .vsqrt _ _ _ _ | .vmin _ _ _ _ _ | .vmax _ _ _ _ _ | .vminn _ _ _ _ _
  | .vmaxn _ _ _ _ _ | .vcmp _ _ _ _ _ _ | .vclass _ _ _ _ | .vrcpe _ _ _ _ | .vrsqe _ _ _ _ | .vrcps _ _ _ _ _
  | .vrsqs _ _ _ _ _ | .vexp2 _ _ _ _ | .vlog2 _ _ _ _ | .vsin _ _ _ _ | .vcos _ _ _ _ | .vcvt _ _ _ _ _ _
  | .vqblk _ _ _ _ _ _ | .vqblkGiven _ _ _ _ _ _ _ | .vdqblk _ _ _ _ _ _ _ | .viadd _ _ _ _ _ | .visub _ _ _ _ _
  | .vimul _ _ _ _ _ | .vimulh _ _ _ _ _ | .vimad _ _ _ _ _ _ | .vand _ _ _ _ _ | .vor _ _ _ _ _
  | .vxor _ _ _ _ _ | .vandn _ _ _ _ _ | .vshl _ _ _ _ _ | .vshr _ _ _ _ _ | .vsar _ _ _ _ _ | .vrot _ _ _ _ _
  | .vfshl _ _ _ _ _ _ | .vfshr _ _ _ _ _ _ | .vclz _ _ _ _ | .vpopc _ _ _ _ | .vld _ _ _ _ _ _
  | .vst _ _ _ _ _ _ | .vlds _ _ _ _ _ | .vgats _ _ _ _ _ | .vscats _ _ _ _ _ | .vperm _ _ _ _ _
  | .vshuf _ _ _ _ _ _ | .vbcast _ _ _ _ | .vslideDn _ _ _ _ _ _ | .vslideUp _ _ _ _ _ _ | .vsel _ _ _ _ _ _
  | .vext _ _ _ _ | .vins _ _ _ _ _ | .vredsum _ _ _ _ | .vredmax _ _ _ _ | .vredmin _ _ _ _
  | .vredarg _ _ _ _ _ | .vscan _ _ _ _ _ | .viota _ _ _ _ | .vmpop _ _ _ | .vmlog _ _ _ _ _ | .vtab _ _ _ _ _
  | .vsnap _ _ _ | .vprefeq _ _ _ _ | .vshort _ _ _ _ _ | .vmass _ _ _ _ _ | .vnoise _ _ _ _ _
  | .vbtest _ _ _ _ _ | .vbset _ _ _ _ _ | .vmod _ _ _ _ _ _ _ => x == .v
  | .tdecl _ _ _ _ | .cbload _ _ _ _ | .tlset _ _ _ | .lmm _ _ _ _ _ _ | .lmmFeed _ _ _ _ _ _ | .cfeed _ _ _
  | .cunfeed _ _ | .lspill _ _ _ | .lfill _ _ _ | .lzero _ _ | .lwake _ _ | .lstat _ _ | .tload _ _ _ _
  | .tsave _ _ _ _ => x == .m
  | .shape _ _ _ | .cpy _ _ _ _ _ _ | .cpyo _ _ _ _ _ _ | .cpyoAppend _ _ _ _ _ _ | .cpyc _ _ _ _ _ _
  | .pref _ _ _ _ _ _ | .cwait _ _ | .cwaitAll _ | .cflush _ _ _ _ _ _ | .cstat _ _ _ | .gath _ _ _ _ _ _
  | .gathp _ _ _ _ _ _ | .scat _ _ _ _ _ _ => x == .l || x == .s
  | .powerOn _ _ | .ringFetch _ _ | .timedTargetMiss _ _ | .queueDeadlock _ | .budgetExpiry _
  | .commandComplete _ _ | .commandAsyncFault _ _ | .sluiceBatch _ _ | .lmeCommandStart _ | .lmmKStepDone _
  | .lmeCommandComplete _ | .lmeAsyncFault _ | .subarrayGate _ _ | .subarrayWakeDone _ _ | .feedFetch _ _
  | .tableWalk _ _ _ | .resume _ _ _ | .abort _ _ _ | .invalidate _ _ _ _ _ | .invalidationDone _
  | .frameCopy _ _ | .inletConsume _ _ | .launchReady _ _ | .teamDispatch _ _ _ _ | .jobStart _
  | .completionRecordWrite _ _ | .quantumExpiry _ _ _ | .swapWindowExpiry _ | .swapOutSave _
  | .teamRestore _ _ _ _ | .urgentPlace _ _ _ _ | .victimResume _ | .bankPreload _ _ _ _ | .l1FusionChange _ _
  | .proofIterationStart _ _ | .proofCommit _ | .proofLoopEnd _ | .hostMemRead _ _ _ | .hostMemWrite _ _ _
  | .backInvalidateSnoop _ _ | .peerRequest _ _ _ _ | .semaphoreRead _ _ | .semaphoreWrite _ _ _
  | .leaseExpiry _ | .partcfgWrite _ _ _ | .inletReset _ _ _ | .pqcfgClear _ _ _ _ | .registerWrite _ _ _
  | .partitionReset _ _ | .partitionResetDone _ | .fwUpdateImage _ _ | .fwAttest _ | .fwChangeLayout _
  | .fwReadRecord _ | .fwExport _ _ | .fwImport _ _ _ | .fwCommandComplete _ | .patrolScrub _ | .frameRetire _
  | .spareCoreSubstitute _ | .flitCrcRetry _ | .ringLinkRetrain _ _ | .thermalWarningEnter | .thermalWarningExit
  | .thermalEmergencyEnter | .thermalEmergencyExit | .thermalTrip | .issueGateUpdate _
  | .telemetryRefresh _ _ _ _ | .cxlLinkReset _ | .tickAdvance | .powerRemoved | .cxlCompletion _ _ _
  | .hostCoherenceSnoop _ _ | .faultService _ _ _ | .contextCreate _ _ _ _ => false

/-- The streams in the order in which a word is offered where no stream is given: C first, then V, M, L, S. -/
def streamOrder : List StreamId := [.c, .v, .m, .l, .s]

/-- The first stream of `streamOrder` whose map holds the word. -/
def streamFor (w : Word) : Option StreamId := streamOrder.find? fun x => (decode x w).isSome

/-- What the decoder gives for a word numbered as the opcode table numbers it: the word's own 64 bits, read by the
first stream that accepts it (the table names no stream). (DESIGN CHOICE, log 3.) -/
def decodeTableWord (nbits w : Nat) : Option Instr :=
  if nbits ≤ 64 then
    (streamFor (BitVec.ofNat 64 w)).bind fun x => decode x (BitVec.ofNat 64 w)
  else none

end Sys2Proof
end

