-- ==== Sys2Proof/Config.lean ====
section
/-! DEFINITION. What this part fixes, and the values the spec leaves open (each an opaque constant). -/

namespace Sys2Proof.Config

/-- Active cores of the module (R10). -/
def cores : Nat := 96

/-- Stops of the module (R10). -/
def stops : Nat := 12

/-- Sub-array wake latency in cycles, CAP_LME_WAKE (R259, R433). -/
def lmeWake : Nat := 96

/-- Copy and Sluice commands a core may have in flight (R14). -/
def inflight : Nat := 128

/-- Bytes of a core's scratchpad (R245). -/
def spBytes : Nat := 0x30_0000

/-- Bytes of a core's table store (R253). -/
def tsBytes : Nat := 0x10_0000

/-- Bytes of device memory installed (R433). -/
def memBytes : Nat := 0xC0_0000_0000

/-- Bytes of one LPDDR6 package (R10). -/
def packageBytes : Nat := 0x10_0000_0000

/-- Bytes of the spare frames held back at the top of each package (R15, R419). -/
def spareBytes : Nat := 0x400_0000

/-- Records of the error log (R415). -/
def errLogSize : Nat := 4096

/-- Records of a partition's fault queue (R376). -/
def faultQueueSize : Nat := 256

/-- Entries of a core's TLB (R374). -/
def tlbEntries : Nat := 256

/-- Entries of a stop's TLB, of its cache of non-leaf entries, and of a Sluice engine's TLB (R374, R307). -/
def stopTlbEntries : Nat := 4096
@[inherit_doc stopTlbEntries]
def nonLeafEntries : Nat := 256
@[inherit_doc stopTlbEntries]
def sluiceTlbEntries : Nat := 1024

/-- Lines of a core's L1: 320 KiB (R11, R262). -/
def l1Lines : Nat := 5120

/-- Cycles of 24 hours (R9, R416). -/
def dayCycles : Nat := 198_720_000_000_000

/-- Frames of 64 KiB in a package, and its spare frames (R10, R419). -/
def packageFrames : Nat := 0x10_0000
@[inherit_doc packageFrames]
def spareFrames : Nat := 1024

/-- Cycles a swap may be held pending (R224). -/
def swapWindow : Nat := 23000

/-- Cycles allowed for clearing cores at admission (R346). -/
def tClear : Nat := 600000

/-- A free value: which of two values a racing or unspecified bit of the `n`-th choice takes (R230 stale
scratchpad bytes). (DESIGN CHOICE, log 9.) -/
opaque staleByte : Nat → Nat → Bool

/-- A free value: the scratchpad bytes of a private area at an iteration's start (R291). -/
opaque privByte : Nat → Nat → BitVec 8

/-- A free value: which of the eligible items a pop returns (R356); the `n`-th choice. -/
opaque pondPick : Nat → Nat

/-- Free values: the L2 ways the Crumb carves for a partition's Pond, and the quantum it sets (R351, R355); the model takes each
within the limits the spec gives. -/
opaque crumbPondways : Nat
@[inherit_doc crumbPondways]
opaque crumbQuantum : Nat

/-- A free value: which of the uncorrectable places a job can reach an error record names (R416), by the `n`-th choice. -/
opaque uePick : Nat → Nat

/-- A free value: which of two values comes first where the spec orders neither: of a word's two writes to one register (R216), of
two NaNs of one index in a shortlist (R154). A function of the two, so that equal runs agree (R379). -/
opaque tieBreak : Nat → Nat → Bool

/-- A free value: what a malformed or unreadable telemetry or reserved host read returns. -/
opaque freeWord : Nat → BitVec 64

/-- Free values: the results of the algorithms the spec names but does not restate. `ed25519Ok` and `mldsaOk`
say whether a signature over the header bytes verifies under a public key (R426). (DESIGN CHOICE, log 10.) -/
opaque ed25519Ok : List (BitVec 8) → List (BitVec 8) → List (BitVec 8) → Bool

@[inherit_doc ed25519Ok]
opaque mldsaOk : List (BitVec 8) → List (BitVec 8) → List (BitVec 8) → Bool

/-- Free values: key generation and signing of the two algorithms, from the 32 bytes a key pair derives from (R428, R429); the lengths
are those R425 and R429 give. -/
opaque edPublic : List (BitVec 8) → Vector (BitVec 8) 32
@[inherit_doc edPublic]
opaque mldsaPublic : List (BitVec 8) → Vector (BitVec 8) 1952
@[inherit_doc edPublic]
opaque edSign : List (BitVec 8) → List (BitVec 8) → Vector (BitVec 8) 64
@[inherit_doc edPublic]
opaque mldsaSign : List (BitVec 8) → List (BitVec 8) → Vector (BitVec 8) 3309

/-- The fused hashes of the two image-signing keys (R426). -/
opaque fusedKeyHash : Bool → BitVec 256

/-- Free values: the reading of SRAM at the `n`-th power-on, the helper data in flash, and the seed the Crust corrects the reading
into, none if it cannot be reconstructed (R428). -/
opaque sramReading : Nat → List (BitVec 8)
@[inherit_doc sramReading]
opaque helperData : List (BitVec 8)
@[inherit_doc sramReading]
opaque reconstruct : List (BitVec 8) → List (BitVec 8) → Option (BitVec 256)

/-- A free value: the certificates of the identity keys, issued at manufacture and kept in flash (R428). -/
opaque identityCerts : List (BitVec 8)

end Sys2Proof.Config
end

