-- ==== Sys2Proof/Machine/State.lean ====
section
/-! DEFINITION. The state of the module as plain data: streams, jobs, cores, partitions, the module's registers
and stores, and the agenda that says which agent moves next. -/

namespace Sys2Proof.Machine

/-! ### Streams -/

/-- A word issued and not yet retired, in program order (R58, R185). `cmd` is the asynchronous command it waits
for, `ready` the first cycle its result is there in; `value` what REPLY pushes; `dest` what is written at retire. -/
structure RetEntry where
  pc     : Word
  cmd    : Option Nat
  dest   : Dest
  value  : Word
  reply  : BitVec 3
  tokens : BitVec 4
  strict : Bool
  copy   : Bool
  ready  : Nat := 0
  deriving DecidableEq, Repr

/-- What the V stream's interlock keeps (R119, R145): the first cycle each vector register, each mask and the history queue can
be read in, and the first cycle each slot (arithmetic A and B, data) takes another word. -/
structure Interlock where
  v     : Vector Nat 128
  m     : Vector Nat 7
  h     : Nat
  slots : Vector Nat 3
  deriving DecidableEq, Repr

/-- What translating one page part gives: the physical address and the leaf. -/
structure Phys where
  pa   : Nat
  leaf : Word
  deriving DecidableEq, Repr

/-- An access that a word has begun and whose answer it awaits (R57, R373, R377, R391): the cycle it began in, and the parts its
address has been translated to, each with its bytes. -/
structure OutAcc where
  since : Nat
  parts : List (Phys × Nat)
  deriving DecidableEq, Repr

/-- The registers of one stream (R3, R53, R108, R229, R230). `h` holds h0 first, `rstack` its top first, `p`
p0 in bit 0. `notBefore` is the first cycle the stream may issue in; `skip` is the pending effect of TRET.next
(R227); `bar` the address of a DBAR that has arrived and waits (R212); `claim` the Inlet and the slot of it a LAUNCH at issue has
claimed (R336); `out` the access its word at issue awaits an answer to. -/
structure StreamSt where
  pc        : Word
  k         : Vector Word 16
  h         : Vector Word 16
  p         : BitVec 7
  rstack    : List Word
  fpctl     : Word
  fpflg     : Word
  stamp     : Word
  age       : Word
  lgate     : Word
  tcause    : Word
  tpc       : Word
  tlane     : Word
  tinfo     : Word
  thandler  : Word
  tresume   : Word
  atJoin    : Bool
  notBefore : Nat
  skip      : Bool
  bar       : Option Nat
  claim     : Option (BitVec 2 × Nat)
  out       : Option OutAcc
  retireQ   : List RetEntry
  ring      : List (Word × Word)
  retired   : Word
  deriving DecidableEq, Repr

/-! ### Commands -/

/-- The asynchronous commands of L and S (R184). -/
inductive CopyOp where
  | cpy | cpyo | cpyoAppend | cpyc
  | pref (l1 : Bool)
  | cflush (op : FlushOp)
  | gath | gathp | scat
  deriving DecidableEq, Repr

/-- A copy or Sluice command in flight (R185, R191, R305): its issue-time operands and shape, its progress in
segments or batches, its counts, exceptions and collected fault entries. `list` holds the indices of SCAT's
snapshot or the bag offsets of GATHP, `snap` SCAT's source bytes and `read` that its read phase is over (R310), `desc` the
words of a CPYC descriptor (R195) or the append descriptor's address, `off` the region offset a CPYO append reserved
(R194), `held` the destination bytes its last segment has left to the next, and `fore` the source bytes it has read for it (R190).
`spent` marks that its work is done, `done` that it has completed, `stopped` that a fault has stopped it. -/
structure Cmd where
  id      : Nat
  stream  : StreamId
  pc      : Word
  op      : CopyOp
  shape   : BitVec 512
  km      : Word
  ks      : Word
  kn      : Word
  prog    : Nat
  count   : Nat
  flags   : BitVec 5
  faults  : List (Nat × BitVec 8)
  read    : Bool
  list    : List Word
  snap    : List Byte
  seen    : List (Word × Nat × List Byte × BitVec 8)
  desc    : List Word
  off     : Nat
  held    : List (Nat × Byte)
  fore    : List (Nat × Byte)
  spent   : Bool
  done    : Bool
  stopped : Bool
  deriving DecidableEq, Repr

/-- The source of an LMM's records (R72). -/
inductive CodeSrc where
  | scratch (a : Word)
  | feed (f : BitVec 2)
  deriving DecidableEq, Repr

/-- An LME command (R160). -/
inductive LmeOp where
  | lmm (t tl : BitVec 2) (src : CodeSrc) (ctl : Word) (nb : BitVec 12) (start : Nat)
  | spill (t : BitVec 2) (a : Word)
  | fill (t : BitVec 2) (a : Word)
  | zero (t : BitVec 2)
  | tload (tl : BitVec 2) (ctl a : Word)
  | tsave (tl : BitVec 2) (ctl a : Word)
  deriving DecidableEq, Repr

/-- A command of the LME queue: the steps it has completed, whether it has started, and whether a fault has stopped it (R160,
R163, R181). -/
structure LmeCmd where
  id      : Nat
  pc      : Word
  op      : LmeOp
  steps   : Nat
  started : Bool
  stopped : Bool
  flags   : BitVec 5
  deriving DecidableEq, Repr

/-! ### Matrix state of a job (R159) -/

/-- A tile's declaration (R162). -/
structure TileDecl where
  f32  : Bool
  disc : Bool
  deriving DecidableEq, Repr

/-- A codebook (R164): K, the SYM claim and sixteen s8 entries, e0 in the low byte. -/
structure Codebook where
  loaded : Bool
  k      : Nat
  sym    : Bool
  e      : BitVec 128
  deriving DecidableEq, Repr

/-- A table layout (R165) with the validity and signedness (`true` for n8) of its slots (R166): a list of the valid
slots. -/
structure Layout where
  set   : Bool
  word  : Word
  slots : List (Nat × Bool)
  deriving DecidableEq, Repr

/-- A bound code feed (R174, R175): descriptor, bytes consumed by issued LMMs, bytes consumed by the LME, and the
buffered bytes after those (`none` where the byte could not be read, with the cause). -/
structure Feed where
  desc     : BitVec 512
  issued   : Nat
  consumed : Nat
  buf      : List (Byte × BitVec 8)
  deriving DecidableEq, Repr

/-! ### Jobs -/

/-- A job's life (R358). -/
inductive Phase where
  | loading | running | swapped | retired
  | aborted
  deriving DecidableEq, Repr

/-- A trap record (R226, R229). -/
structure TrapRec where
  cause : BitVec 8
  tpc   : Word
  lane  : Word
  info  : Word
  deriving DecidableEq, Repr

/-- What an access was for: the kind a fault record holds (R376). -/
inductive FaultKind where
  | read | write | fetch | ckptCopy
  deriving DecidableEq, Repr

/-- A translation suspension awaiting service (R376): `queued` once its record stands in the fault queue. -/
structure Susp where
  va     : Word
  kind   : FaultKind
  level  : Nat
  core   : Nat
  stream : StreamId
  tpc    : Word
  slot   : Option Nat
  queued : Bool
  deriving DecidableEq, Repr

/-- The handler shadow (R226): the trapping stream, its proof slot if any, C's saved predicates and history, where C was to
go on, and what stood over its next word: `JOIN` reached, a word to be passed over (R227), an access whose answer it awaits, a slot of an Inlet it has claimed. -/
structure Handler where
  stream : StreamId
  slot   : Option Nat
  p      : BitVec 7
  h      : Vector Word 16
  resume : Word
  atJoin : Bool
  skip   : Bool
  out    : Option OutAcc
  claim  : Option (BitVec 2 × Nat)
  deriving DecidableEq, Repr

/-- The placement facts IDQ and the peer paths read (R225, R339). -/
structure Member where
  part     : Nat
  seq      : Word
  team     : Nat
  teamSize : Nat
  index    : Nat
  linear   : Nat
  coreSet  : Nat
  splits   : BitVec 128
  canon    : Nat
  ctx      : BitVec 16
  code     : Word
  tiles    : BitVec 4
  deriving DecidableEq, Repr

/-- Where an iteration of a proofing loop stands (R294). -/
inductive IterState where
  | guessing | waiting | speculative | finished | confirmed
  deriving DecidableEq, Repr

/-- A buffered speculative store, in the order made (R296): an address and bytes, or an append of bytes to a slot
with the pages taken for it and their pool (R303). `rel` marks a `.rel` store and its scope; `at'` is
the physical byte each byte of it goes to. -/
inductive SpecStore where
  | mem (va : Word) (data : List Byte) (rel : Option Scope) (at' : List Nat)
  | scratch (off : Nat) (data : List Byte)
  | append (slot : BitVec 2) (data : List Byte) (pool : Word) (pages : List Nat)
  deriving DecidableEq, Repr

/-- An iteration held by a slot: its number, state, the carries it received and produced, its flags and its
buffered stores (R294, R295). `exit` marks an end at PEXIT. -/
structure Iter where
  n      : Nat
  st     : IterState
  cin    : Vector Word 16
  cout   : Vector Word 16
  flags  : Word
  stores : List SpecStore
  exit   : Bool
  words  : Nat
  deriving DecidableEq, Repr

/-- A slot of a proofing loop (R290): its core, its C registers (slot 0 runs on the leader's C itself), the private bytes of a
helper with their uncorrectable units, the running iteration and the finished uncommitted one. -/
structure Slot where
  core     : Nat
  regs     : StreamSt
  priv     : List Host.Cell
  privBad  : List Nat
  running  : Option Iter
  finished : Option Iter
  held     : Bool
  deriving DecidableEq, Repr

/-- A proofing loop (R289 to R295): its record, C's registers as at PLOOP, PLOOP's destination and retire data, the slots, the
committed count, the leader's FPFLG and the carries last committed, the bytes carved, and the earliest cycle of the next commit. -/
structure Loop where
  record    : BitVec 512
  base      : StreamSt
  dest      : Dest
  sig       : Sig
  slots     : List Slot
  committed : Nat
  flags     : Word
  carries   : Vector Word 16
  carved    : Nat
  ended     : Bool
  commitAt  : Nat
  deriving DecidableEq, Repr

/-- An append slot: the descriptor it is bound to (R221). -/
abbrev AppSlot := Option Word

/-- One job (R230): five streams, the tokens and data queues between them, vectors, matrix state, the
stores (`spBad`, `tsBad`: their uncorrectable units), the commands in flight (`waits`: accepted words of C that wait inside the device) and its place in its launch.
`owed` lists the pages of squashed runs still to be returned, each with its pool (R303); `swapAt` is the cycle a swap decided takes effect in at the latest, `swapBy` the one it is over by; `draining` marks a swap in effect (R224). Tokens and entries carry the cycle they were pushed in
(R232); index 5·from + to. Scratchpad and table store list every nonzero byte. -/
structure Job where
  mem       : Member
  phase     : Phase
  core      : Nat
  urgent    : Bool
  timed     : Bool
  det       : Bool
  jstart    : Nat
  budget    : Nat
  c         : StreamSt
  l         : StreamSt
  vs        : StreamSt
  m         : StreamSt
  s         : StreamSt
  tokens    : Vector (List Nat) 25
  queues    : Vector (List (Nat × Word)) 25
  v         : Vector VReg 128
  board     : Interlock
  masks     : Vector Mask 7
  tiles     : Vector TileDecl 4
  books     : Vector Codebook 8
  layouts   : Vector Layout 4
  feeds     : Vector (Option Feed) 4
  rsvd      : Word
  lme       : List LmeCmd
  shL       : Vector (BitVec 512) 8
  shS       : Vector (BitVec 512) 8
  cmds      : List Cmd
  waits     : List Nat
  nextCmd   : Nat
  overflow  : Word
  append    : Vector AppSlot 4
  sp        : List Host.Cell
  ts        : List Host.Cell
  spBad     : List Nat
  tsBad     : List Nat
  tileBad   : List (Nat × Nat)
  w0        : Nat × Nat
  w1        : Nat × Nat
  tsw       : Nat × Nat
  bank      : Option Bool
  discmap   : BitVec 1024
  lost      : BitVec 1024
  discarded : Bool
  handler   : Option Handler
  pendTrap  : List (StreamId × TrapRec)
  susp      : Option Susp
  victim    : Bool
  swapAt    : Option Nat
  swapBy    : Nat
  draining  : Bool
  pacc      : Vector Word 16
  barGen    : Nat
  barAt     : Nat
  loop      : Option Loop
  proofOk   : Word
  proofSq   : Word
  proofNo   : Word
  owed      : List (Word × Nat)
  fault     : Option (StreamId × TrapRec)
  helpers   : List Nat
  deriving DecidableEq, Repr

/-! ### Cores -/

/-- An LME sub-array (R258): awake, gated, or waking until a cycle; `idle` counts idle cycles. -/
structure SubArray where
  awake  : Bool
  wakeAt : Option Nat
  idle   : Nat
  deriving DecidableEq, Repr

/-- An L1 line (R262): physical line number, its 64 bytes, the bytes written here, its page's ordering kind (true for
UO), and the launch that brought it in. -/
structure L1Line where
  line  : Nat
  data  : BitVec 512
  dirty : BitVec 64
  uo    : Bool
  part  : Nat
  seq   : Word
  deriving DecidableEq, Repr

/-- A TLB entry (R374): context, virtual page base, level of the leaf, and the leaf itself. -/
structure TlbEntry where
  part  : Nat
  ctx   : BitVec 16
  base  : Nat
  level : Nat
  leaf  : Word
  deriving DecidableEq, Repr

/-- An entry of a stop's cache of non-leaf entries (R374): the table entry at `level` for the addresses whose bits from that
level's index up are `top`, and the frame of the next table. -/
structure NonLeaf where
  part  : Nat
  ctx   : BitVec 16
  level : Nat
  top   : Nat
  frame : Nat
  deriving DecidableEq, Repr

/-- What translates at a stop (R374, R307): its TLB, its cache of non-leaf entries, and its Sluice engine's TLB. -/
structure StopTlb where
  tlb    : List TlbEntry
  tables : List NonLeaf
  sluice : List TlbEntry
  deriving DecidableEq, Repr

/-- The next job a bank-mode core holds preloaded (R251, R354): its bank, the scratchpad image written there, none where it is
to be loaded again, and its ring fill, stream by stream. -/
structure Preload where
  part   : Nat
  seq    : Word
  linear : Nat
  bank   : Bool
  image  : Option (List Host.Cell)
  rings  : List (List (Word × Word))
  deriving DecidableEq, Repr

/-- A core (R1, R258, R374, R420, R436): sub-arrays, L1, TLB, the jobs it holds, the context it last ran and what
that context left in its scratchpad (R230), the issue gate D, the cycle the LGATE in force last changed in (R258), failure state
and preload. -/
structure Core where
  subs     : Vector SubArray 4
  l1       : List L1Line
  tlb      : List TlbEntry
  normal   : Option Nat
  urgent   : Option Nat
  helper   : Option Nat
  lastCtx  : Option (Nat × BitVec 16)
  left     : List Host.Cell
  fused    : Bool
  gate     : Nat
  lgateAt  : Nat
  failing  : Bool
  disabled : Bool
  errors   : List Nat
  preload  : Option Preload
  deriving DecidableEq, Repr

/-! ### Launches and partitions -/

/-- The states of a launch (R357). -/
inductive LaunchPhase where
  | waiting | ready | running | draining | complete
  deriving DecidableEq, Repr

/-- A team's place in its launch (R345, R351, R353). -/
inductive TeamPhase where
  | queued | resident | swapped | retired | failed | rerun
  deriving DecidableEq, Repr

/-- A team: its jobs' numbers in State, how many of them have retired in its last run (R343), the cycle of its residence, its
reruns, and the abort that ended its last run (cycle, linear job, stream, record). -/
structure Team where
  index  : Nat
  phase  : TeamPhase
  jobs   : List Nat
  done   : Nat
  since  : Nat
  reruns : Nat
  abort  : Option (Nat × Nat × StreamId × TrapRec)
  badCore : Option Nat
  deriving DecidableEq, Repr

/-- A launch from consumption to completion (R330 to R343). `teams` holds the teams dispatched so far, `queue` the
teams that wait again (reruns first), `nextTeam` the next one never dispatched, of `total`; `seqDue` that its number has yet to
be written to SEQPTR (R335), `admitted` the cycle its cores are clear from (R346). -/
structure Launch where
  seq      : Word
  inlet    : BitVec 2
  record   : BitVec 2048
  phase    : LaunchPhase
  status   : BitVec 8
  cause    : BitVec 8
  job      : BitVec 32
  stream   : BitVec 3
  tpc      : Word
  tinfo    : Word
  args     : Vector Word 8
  teams    : List Team
  queue    : List Nat
  nextTeam : Nat
  total    : Nat
  seqDue   : Bool
  coreSet  : Option Nat
  cores    : List Nat
  admitted : Option Nat
  voided   : Bool
  late     : Bool
  reruns   : Nat
  start    : Nat
  finish   : Nat
  deriving DecidableEq, Repr

/-- A LAUNCH of a job whose record has not been consumed yet (R215, R336). -/
structure Posted where
  inlet : BitVec 2
  n     : Nat
  job   : Nat
  cmd   : Nat
  ctx   : BitVec 16
  deriving DecidableEq, Repr

/-- A Pond item (R216, R356): key, payload, and the number of pops of the queue it has stood through while among
the W smallest. -/
structure PondItem where
  key     : BitVec 32
  payload : Word
  passed  : Nat
  deriving DecidableEq, Repr

/-- A partition (R18, R393, R421): stops, registers, Inlets, launches, Pond and invalidation under way; `inletRst` marks the Inlets
whose reset has been written and waits for a host to let a line of theirs go (R390). -/
structure Part where
  stops     : List Nat
  epoch     : BitVec 16
  count     : Nat
  urgent    : Bool
  partcfg   : Word
  ctxbase   : Word
  faultq    : Word
  faulthead : Word
  faulttail : Word
  faultvec  : Word
  inlets    : Vector Word 4
  nextInlet : Vector (Option Word) 4
  pqcfg     : Vector Word 16
  pond      : Vector (List PondItem) 16
  pondways  : Nat
  invctx    : Word
  invva     : Word
  invlen    : Word
  invdone   : Bool
  pwrreq    : Word
  pwrnow    : Word
  tempmax   : Word
  resetting : Bool
  quantum   : Nat
  launches  : List Launch
  posted    : List Posted
  outstanding : List Launch
  consumeAt : Nat
  contexts  : List (BitVec 16)
  images    : List (BitVec 16 × List (Nat × Nat × Nat × Nat))
  inletRst  : BitVec 4
  deriving DecidableEq, Repr

/-! ### The module -/

/-- A line copy in the L2 slices of a stop, made on path 0x1 (R265). -/
structure Replica where
  stop : Nat
  part : Nat
  seq  : Word
  line : Nat
  data : BitVec 512
  deriving DecidableEq, Repr

/-- A line of host memory the device holds in L2 under the host's coherence (R391): its port, host line number and data, and the
partition in whose L2 slices it stands (R421). -/
structure HostLine where
  port : Bool
  line : Nat
  data : BitVec 512
  part : Nat
  deriving DecidableEq, Repr

/-- A line of device memory a host holds (R390): through which port, its number, and whether the host holds it exclusively. -/
structure HostCopy where
  port : Bool
  line : Nat
  excl : Bool
  deriving DecidableEq, Repr

/-- A request over a CXL port that awaits its completion (R391): who asked, the host address, the bytes to read or
the data to write; the cycle it was made in; `posted` marks a write that nothing waits for. -/
structure CxlReq where
  port  : Bool
  job   : Nat
  stream : StreamId
  addr  : Nat
  bytes : Nat
  data  : Option (List Byte)
  answer : Option (List Byte)
  done  : Bool
  posted : Bool
  born   : Nat
  deriving DecidableEq, Repr

/-- An answer sent to a host, a peer or a reader of a register: data, an error response, poison, or a refusal as an
unsupported request (R389, R392). -/
inductive Reply where
  | data (b : List Byte)
  | error
  | poison
  | unsupported
  | done
  deriving DecidableEq, Repr

/-- A semaphore (R395): its register's two fields and the cycle its lease runs out in, none for a lease of 0. -/
structure Sem where
  expired : BitVec 8
  holder  : BitVec 8
  due     : Option Nat
  deriving DecidableEq, Repr

/-- The mailbox command under way (R431, R432, R440): the command, the partition it names, the agent that wrote it, the status
of a check that failed at its start (0 for none), an accepted image with its KIND and SVN, the frames an import is
given, and the buffer it was started with. -/
structure FwBusy where
  cmd    : BitVec 8
  part   : Option Nat
  who    : Agent
  buf    : Nat
  fail   : BitVec 8
  kind   : Nat
  svn    : BitVec 32
  image  : List Byte
  frames : List Nat
  deriving DecidableEq, Repr

/-- The configuration record (R430): the layout, the spare map, the memory configuration of each package, the remap table with the
frames retired without a spare, and the limits (the body of the last KIND 3 image). -/
structure Record where
  layout  : List (List Nat × Bool)
  spares  : Vector (BitVec 4) 12
  memcfg  : Vector Word 12
  remap   : List (Nat × Nat)
  retired : List Nat
  limits  : List Byte
  deriving DecidableEq, Repr

/-- What flash holds across power cycles (R335, R427, R430): the epoch counter, the three anti-rollback counters, the configuration
record, its last good copy, and whether damage has left the record's signature false; the measurements of the images accepted since
manufacture, by slot: 0 to 12 of R429, 13 the Crust; the Crust's image where it is not the one of manufacture; and the flag of a
thermal trip (R437). -/
structure Flash where
  epoch   : BitVec 16
  svn     : Vector (BitVec 32) 3
  record  : Record
  good    : Record
  damaged : Bool
  images  : List (Nat × BitVec 256)
  crust   : Option (List Byte)
  tripped : Bool
  deriving DecidableEq, Repr

/-- Fields of the configuration record in force. -/
def Flash.layout (f : Flash) : List (List Nat × Bool) := f.record.layout
@[inherit_doc Flash.layout]
def Flash.spares (f : Flash) : Vector (BitVec 4) 12 := f.record.spares
@[inherit_doc Flash.layout]
def Flash.remap (f : Flash) : List (Nat × Nat) := f.record.remap
@[inherit_doc Flash.layout]
def Flash.retired (f : Flash) : List Nat := f.record.retired
@[inherit_doc Flash.layout]
def Flash.limits (f : Flash) : List Byte := f.record.limits

/-- The die's temperature sensors (R437): each stop's, in 1/8 °C; the cycle since which all have been below 100 °C; and the cycle by
which power is gone after one has reached 115 °C. -/
structure Sensors where
  temps     : Vector Nat 12
  coolSince : Option Nat
  tripBy    : Option Nat
  deriving DecidableEq, Repr

/-- A bring-up under way (R434): the failure code it comes to, the cores (spares from 96 on) that fail their tests, and whether the
configuration record has been replaced (R430). -/
structure BringUp where
  fail     : BitVec 8
  bad      : List Nat
  replaced : Bool
  deriving DecidableEq, Repr

/-- A trap met by a word of the bundle under way: its rank (R80), word index and record. -/
structure BundleTrap where
  rank : Nat
  word : Nat
  record : TrapRec
  deriving DecidableEq, Repr

/-- The VMOD prefix in force for the next word of a bundle (R67). -/
structure Vmod where
  neg   : BitVec 3
  abs   : BitVec 3
  clamp : Clamp
  scale : BitVec 4
  rnd   : Option RMode
  deriving DecidableEq, Repr

/-- The word under way: its job, stream and proof slot, its place in its bundle, the job as it stood before the
bundle (whose registers the bundle's words read, R70), and what the bundle has met so far. `stalled` that a word of it cannot issue yet; `value` its scalar result (R59), `next` where a
branch of it goes, `raised` the exceptions its arithmetic raised, `len` the bundle's words, `done` the cycle its results are complete in. -/
structure Cursor where
  job     : Nat
  stream  : StreamId
  slot    : Option Nat
  index   : Nat
  pre     : Job
  stalled : Bool
  late    : Bool
  trap    : Option BundleTrap
  vmod    : Option Vmod
  value   : Word
  raised  : BitVec 5
  next    : Option Word
  len     : Nat
  done    : Nat
  deriving DecidableEq, Repr

/-- A turn of the agenda: which agent moves next. The spec leaves the order of the agents' steps open within its
rules; the agenda states it as data. `issue` offers a stream (or a proof slot) the chance to issue; `event` is a step
of an engine or of an agent outside the device; `segment` lets a copy complete one segment; `upset` is an uncorrectable error arriving in a store, `corrected` one that was corrected; `evict` lets a
TLB, an L1 or the replicas of a stop let a copy go; `claim` is a host that takes a line of device memory exclusively (R390),
`readReg` an agent's read of the control space (R392), `mask` a host that masks a vector or lets it go (R396), `unsupported` a
request that uses a part of CXL the ports do not have (R387), `boot` brings the next phase of bring-up (R434), `sensor` a stop's
temperature in 1/8 °C (R437), `damage` the flash's configuration record out of its signature (R430); `amid` is a turn with another in its midst, before which some
only of its units have been read or written (R112), and `both` two turns in order. -/
inductive Turn where
  | issue (job : Nat) (x : StreamId) (slot : Option Nat)
  | event (i : Instr)
  | segment (job cmd : Nat)
  | upsetMem (line : Nat)
  | upsetScratch (job unit : Nat)
  | upsetPrivate (job slot unit : Nat)
  | upsetTable (job unit : Nat)
  | upsetTile (job row unit : Nat)
  | upsetRing (job : Nat) (x : StreamId) (slot : Option Nat) (addr : Word)
  | upsetRegs (job : Nat) (x : StreamId) (slot : Option Nat)
  | corrected (unit place : Nat)
  | evictTlb (stop : Nat)
  | evictLine (core line : Nat)
  | evictReplica (stop line : Nat)
  | claim (port : Bool) (addr : Nat)
  | readReg (a : Agent) (off : Nat)
  | mask (port : Bool) (vec : BitVec 11) (on : Bool)
  | unsupported (port : Bool) (addr : Nat)
  | boot
  | sensor (stop temp : Nat)
  | damage
  | amid (u : Turn) (units : List Nat) (v : Turn)
  | both (u v : Turn)
  deriving DecidableEq, Repr

/-- The whole module. `mem` lists the device memory's nonzero bytes by physical address after remapping; `memBad`
the uncorrectable lines with the units rewritten since (R413).
`msix` lists the messages sent, `masked` the vectors a host has masked, and `held` those that wait (R396, R435).
`free` counts the free values drawn; `ueAt` is the place, as unit and address of R416, of the uncorrectable data an access last met;
`corrected` lists the corrected errors by unit, place and cycle (R412, R416), `badLines` the lines an uncorrectable error has arrived
in, as long as their frame is in use (R419), `badSpares` the stops whose spare core has failed its test (R434), `seed` and `cert` the
identity seed the Crust holds and its certificate of the attestation keys (R428), `retries` for each ring link the retries in a row and the cycle of the last (R422). (DESIGN CHOICE, log 8.) -/
structure State where
  tick      : Nat
  free      : Nat
  ueAt      : Option (Nat × Nat)
  agenda    : List Turn
  cursor    : Option Cursor
  mem       : List Host.Cell
  memBad    : List (Nat × BitVec 8)
  jobs      : List Job
  cores     : Vector Core 96
  stops     : Vector StopTlb 12
  parts     : List Part
  replicas  : List Replica
  hostLines : List HostLine
  cxl       : List CxlReq
  replies   : List Reply
  msix      : List (Bool × BitVec 11)
  masked    : List (Bool × BitVec 11)
  held      : List (Bool × BitVec 11)
  linkUp    : Bool × Bool
  dbase     : Nat × Nat
  snoop     : List HostCopy
  sems      : Vector Sem 16
  leases    : Vector Word 16
  irqsrc    : Word
  peerBase  : Vector Word 8
  peerLim   : Vector Word 8
  errBase   : Nat
  errHead   : Word
  errTail   : Word
  errLost   : Word
  corrected : List (Nat × Nat × Nat)
  badLines  : List Nat
  retries   : List (Nat × Nat × Nat)
  fwbuf     : Word
  fwstat    : Word
  fwbusy    : Option FwBusy
  bootstat  : Word
  modpwr    : Word
  therm     : Word
  sensors   : Sensors
  powered   : Bool
  bringUp   : Option BringUp
  badSpares : List Nat
  capblock  : List Byte
  seed      : Option (BitVec 256)
  cert      : List Byte
  crust     : BitVec 256
  crumbs    : Vector (BitVec 256) 13
  flash     : Flash
  ringDown  : Bool
  nextSpare : Vector Nat 12
  deriving DecidableEq, Repr

/-- Why a step stops the machine. -/
inductive Fault where
  /-- Raised by the meaning of an instruction word executed while no stream is issuing (`cursor = none`, or naming a
  job that is not there). `step` always sets the cursor first, so no run of the machine raises it: safe. -/
  | noIssuer
  deriving DecidableEq, Repr

/-- Why an instruction has no meaning. -/
inductive Refusal where
  /-- Raised by an arm of `exec` whose instruction is not modelled yet: safe. -/
  | notModelled (mnemonic : String)
  deriving DecidableEq, Repr

/-! ### Reset values -/

/-- A stream's registers before anything is loaded (R229, R230). -/
def StreamSt.reset : StreamSt where
  pc := 0
  k := Vector.replicate 16 0
  h := Vector.replicate 16 0
  p := 0
  rstack := []
  fpctl := 0x000D_0000
  fpflg := 0
  stamp := 0
  age := 256
  lgate := 4096
  tcause := 0
  tpc := 0
  tlane := 0
  tinfo := 0
  thandler := 0
  tresume := 0
  atJoin := false
  notBefore := 0
  skip := false
  bar := none
  claim := none
  out := none
  retireQ := []
  ring := []
  retired := 0

/-- The shape-record reset values of R182: extents 1, ESZ 8 bytes, SCOPE system, IDXT n32, IBOUND all ones. -/
def shapeReset : BitVec 512 :=
  BitVec.ofNat 512
    (2 ^ 224 + 2 ^ 240 + 2 ^ 256 + 2 ^ 272 + 3 * 2 ^ 310 + 4 * 2 ^ 318 + 1 * 2 ^ 324 + 0xFF_FFFF_FFFF * 2 ^ 348)

/-- No placement. -/
def Member.blank : Member :=
  ⟨0, 0, 0, 1, 0, 0, 0, 0, 0, 0, 0, 0xF⟩

/-- Nothing under way in the vector pipelines. -/
def Interlock.clear : Interlock := ⟨Vector.replicate 128 0, Vector.replicate 7 0, 0, Vector.replicate 3 0⟩

/-- A job as its first word finds it (R159, R230), before the launch's own values are put in. -/
def Job.reset : Job where
  mem := Member.blank
  phase := .loading
  core := 0
  urgent := false
  timed := false
  det := false
  jstart := 0
  budget := 0
  c := StreamSt.reset
  l := StreamSt.reset
  vs := StreamSt.reset
  m := StreamSt.reset
  s := StreamSt.reset
  tokens := Vector.replicate 25 []
  queues := Vector.replicate 25 []
  v := Vector.replicate 128 0
  board := Interlock.clear
  masks := Vector.replicate 7 0
  tiles := Vector.replicate 4 ⟨true, false⟩
  books := Vector.replicate 8 ⟨false, 0, false, 0⟩
  layouts := Vector.replicate 4 ⟨false, 0, []⟩
  feeds := Vector.replicate 4 none
  rsvd := 0
  lme := []
  shL := Vector.replicate 8 shapeReset
  shS := Vector.replicate 8 shapeReset
  cmds := []
  waits := []
  nextCmd := 0
  overflow := 0
  append := Vector.replicate 4 none
  sp := []
  ts := []
  spBad := []
  tsBad := []
  tileBad := []
  w0 := (0, 0)
  w1 := (0, 0)
  tsw := (0, 0)
  bank := none
  discmap := 0
  lost := 0
  discarded := false
  handler := none
  pendTrap := []
  susp := none
  victim := false
  swapAt := none
  swapBy := 0
  draining := false
  pacc := Vector.replicate 16 (BitVec.allOnes 64)
  barGen := 0
  barAt := 0
  loop := none
  proofOk := 0
  proofSq := 0
  proofNo := 0
  owed := []
  fault := none
  helpers := []

/-- A core after power-on (R258, R436): sub-arrays awake with no idle cycle counted, nothing cached, no job, every
slot of the issue gate open. (DESIGN CHOICE, log 7.) -/
def Core.reset : Core where
  subs := Vector.replicate 4 ⟨true, none, 0⟩
  l1 := []
  tlb := []
  normal := none
  urgent := none
  helper := none
  lastCtx := none
  left := []
  fused := false
  gate := 16
  lgateAt := 0
  failing := false
  disabled := false
  errors := []
  preload := none

/-- The configuration record of a module as it leaves manufacture: one partition of all twelve stops, no spare in use, nothing
remapped. (DESIGN CHOICE, log 6.) -/
def Record.reset : Record where
  layout := [([0, 1, 2, 3, 4, 5, 6, 7, 8, 9, 10, 11], false)]
  spares := Vector.replicate 12 0xF
  memcfg := Vector.replicate 12 0
  remap := []
  retired := []
  limits := []

/-- The flash of a module as it leaves manufacture (R335): epoch counter 0. (DESIGN CHOICE, log 6.) -/
def Flash.reset : Flash where
  epoch := 0
  svn := Vector.replicate 3 0
  record := Record.reset
  good := Record.reset
  damaged := false
  images := []
  crust := none
  tripped := false

/-- The module right after power is applied: nothing brought up, every register at the value its table gives; the
bring-up of R434 is the first turns. (DESIGN CHOICE, log 5.) -/
def State.reset : State where
  tick := 0
  free := 0
  ueAt := none
  agenda := [.event (.powerOn 0 []), .boot, .boot, .boot]
  cursor := none
  mem := []
  memBad := []
  jobs := []
  cores := Vector.replicate 96 Core.reset
  stops := Vector.replicate 12 ⟨[], [], []⟩
  parts := []
  replicas := []
  hostLines := []
  cxl := []
  replies := []
  msix := []
  masked := []
  held := []
  linkUp := (false, false)
  dbase := (0, 0)
  snoop := []
  sems := Vector.replicate 16 ⟨0, 0, none⟩
  leases := Vector.replicate 16 100000
  irqsrc := 0
  peerBase := Vector.replicate 8 0
  peerLim := Vector.replicate 8 0
  errBase := 0
  errHead := 0
  errTail := 0
  errLost := 0
  corrected := []
  badLines := []
  retries := []
  fwbuf := 0
  fwstat := 0
  fwbusy := none
  bootstat := 0
  modpwr := 0
  therm := 0
  sensors := ⟨Vector.replicate 12 0, none, none⟩
  powered := false
  bringUp := none
  badSpares := []
  capblock := []
  seed := none
  cert := []
  crust := 0
  crumbs := Vector.replicate 13 0
  flash := Flash.reset
  ringDown := false
  nextSpare := Vector.replicate 12 0

end Sys2Proof.Machine
end

