-- ==== Sys2Proof/Machine/Ops.lean ====
section
/-! DEFINITION. The named operations over memory cells, registers, tokens, queues and commands; the shell every
instruction word runs in; taking a trap, aborting a job, and returning from a handler. -/

namespace Sys2Proof.Machine

/-! ### Byte stores: a canonical list of the nonzero bytes -/

/-- The byte at an address; an unlisted address reads zero. (DEDUCED, log 4.) -/
def cellGet : List Host.Cell → Nat → Byte
  | [], _ => 0
  | (b, x) :: t, a => if b = a then x else if b < a then cellGet t a else 0

/-- Writes one byte and keeps the form: addresses strictly rising, no listed zero. -/
def cellPut : List Host.Cell → Nat → Byte → List Host.Cell
  | [], a, x => if x = 0 then [] else [(a, x)]
  | (b, y) :: t, a, x =>
    if a < b then (if x = 0 then (b, y) :: t else (a, x) :: (b, y) :: t)
    else if a = b then (if x = 0 then t else (a, x) :: t)
    else (b, y) :: cellPut t a x

/-- Every address of the list exceeds `lo` (where given) and rises, and no byte is zero. -/
def cellsFrom : Option Nat → List Host.Cell → Bool
  | _, [] => true
  | none, (a, x) :: t => decide (x ≠ 0) && cellsFrom (some a) t
  | some lo, (a, x) :: t => decide (lo < a) && decide (x ≠ 0) && cellsFrom (some a) t

/-- The canonical form of a byte store. -/
def cellsWf (m : List Host.Cell) : Bool := cellsFrom none m

/-- `n` bytes from `a` up. -/
def cellGetN (m : List Host.Cell) (a : Nat) : Nat → List Byte
  | 0 => []
  | n + 1 => cellGet m a :: cellGetN m (a + 1) n

/-- Writes bytes from `a` up. -/
def cellPutN (m : List Host.Cell) (a : Nat) : List Byte → List Host.Cell
  | [] => m
  | x :: t => cellPutN (cellPut m a x) (a + 1) t

/-- Little-endian value of bytes (R5). -/
def leNat : List Byte → Nat
  | [] => 0
  | x :: t => x.toNat + 256 * leNat t

/-- The low `n` bytes of a number, least significant first (R5). -/
def leBytes : Nat → Nat → List Byte
  | 0, _ => []
  | n + 1, v => BitVec.ofNat 8 v :: leBytes n (v / 256)

/-- bits(x, hi, lo) as a number (R8). -/
def bitsOf (x : Nat) (hi lo : Nat) : Nat := x / 2 ^ lo % 2 ^ (hi + 1 - lo)

/-- Sign extension of the low `n` bits to 64 (R8). -/
def sext64 (x : Nat) (n : Nat) : Word :=
  if x / 2 ^ (n - 1) % 2 = 1 ∧ 0 < n then BitVec.ofNat 64 (x % 2 ^ n + (2 ^ 64 - 2 ^ n)) else BitVec.ofNat 64 (x % 2 ^ n)

/-! ### Trap causes (R79, R80) -/

def causeIllegal : BitVec 8 := 0x01
def causeMisaligned : BitVec 8 := 0x02
def causeBound : BitVec 8 := 0x03
def causeTranslation : BitVec 8 := 0x04
def causeProtection : BitVec 8 := 0x05
def causeTileOwned : BitVec 8 := 0x06
def causeTableInvalid : BitVec 8 := 0x07
def causeFpPrecise : BitVec 8 := 0x08
def causeScheduleMiss : BitVec 8 := 0x09
def causeAppendPool : BitVec 8 := 0x0A
def causeSluiceStrict : BitVec 8 := 0x0B
def causeMemUe : BitVec 8 := 0x0C
def causeDetForbidden : BitVec 8 := 0x0D
def causeCodebookAsym : BitVec 8 := 0x0E
def causeTableRange : BitVec 8 := 0x0F
def causeSoftware : BitVec 8 := 0x10
def causeDeadlock : BitVec 8 := 0x11
def causeStackLimit : BitVec 8 := 0x12

/-- The rank of a cause (R80): the lower is raised first. -/
def causeRank (c : BitVec 8) : Nat :=
  match c.toNat with
  | 0x01 => 1 | 0x09 => 2 | 0x12 => 3 | 0x0D => 4 | 0x02 => 5 | 0x03 => 6 | 0x04 => 7 | 0x05 => 8 | 0x06 => 9
  | 0x07 => 10 | 0x0E => 11 | 0x0F => 12 | 0x0A => 13 | 0x0C => 14 | 0x08 => 15 | _ => 16

/-! ### Jobs and streams -/

/-- The streams of a job (R2). -/
def Job.stream (j : Job) : StreamId → StreamSt
  | .c => j.c | .l => j.l | .v => j.vs | .m => j.m | .s => j.s

/-- Replaces a stream. -/
def Job.setStream (j : Job) (x : StreamId) (t : StreamSt) : Job :=
  match x with
  | .c => { j with c := t }
  | .l => { j with l := t }
  | .v => { j with vs := t }
  | .m => { j with m := t }
  | .s => { j with s := t }

/-- The slot `n` of the running proofing loop. -/
def Job.slot? (j : Job) (n : Nat) : Option Slot := j.loop.bind fun lp => lp.slots[n]?

/-- The registers a word runs on: a stream's, or a proof slot's C registers; slot 0's are the leader's C (R290). -/
def Job.regs (j : Job) (x : StreamId) (slot : Option Nat) : StreamSt :=
  match slot with
  | none => j.stream x
  | some 0 => j.c
  | some (n + 1) => ((j.slot? (n + 1)).map (·.regs)).getD j.c

/-- Replaces slot `n` of the loop. -/
def Job.setSlot (j : Job) (n : Nat) (t : Slot) : Job :=
  match j.loop with
  | none => j
  | some lp => { j with loop := some { lp with slots := lp.slots.set n t } }

/-- Replaces the registers a word runs on. -/
def Job.setRegs (j : Job) (x : StreamId) (slot : Option Nat) (t : StreamSt) : Job :=
  match slot with
  | none => j.setStream x t
  | some 0 => { j with c := t }
  | some (n + 1) =>
    match j.slot? (n + 1) with
    | none => j
    | some sl => j.setSlot (n + 1) { sl with regs := t }

/-- The core a word runs on: a helper slot's own (R290). -/
def Job.coreOf (j : Job) (slot : Option Nat) : Nat :=
  match slot with
  | none => j.core
  | some n => ((j.slot? n).map (·.core)).getD j.core

/-- Replaces job `n`. -/
def State.setJob (s : State) (n : Nat) (j : Job) : State := { s with jobs := s.jobs.set n j }

/-- Changes job `n`, if it is there. -/
def State.modJob (s : State) (n : Nat) (f : Job → Job) : State :=
  match s.jobs[n]? with
  | some j => s.setJob n (f j)
  | none => s

/-- Changes the registers of a stream or slot of job `n`. -/
def State.modRegs (s : State) (n : Nat) (x : StreamId) (slot : Option Nat) (f : StreamSt → StreamSt) : State :=
  s.modJob n fun j => j.setRegs x slot (f (j.regs x slot))

/-- TICK as a register holds it (R6, R9). -/
def State.tickWord (s : State) : Word := BitVec.ofNat 64 s.tick

/-- Changes core `c`, if there is one of that number. -/
def State.modCore (s : State) (c : Nat) (f : Core → Core) : State :=
  if h : c < 96 then { s with cores := s.cores.set c (f s.cores[c]) } else s

/-- Core `c`; a number of no core gives a core after power-on. -/
def State.core (s : State) (c : Nat) : Core := if h : c < 96 then s.cores[c] else Core.reset

/-- Changes partition `p`, if it is there. -/
def State.modPart (s : State) (p : Nat) (f : Part → Part) : State :=
  match s.parts[p]? with
  | some q => { s with parts := s.parts.set p (f q) }
  | none => s

/-- Changes the launch of sequence number `q` of partition `p`. -/
def State.modLaunch (s : State) (p : Nat) (q : Word) (f : Launch → Launch) : State :=
  s.modPart p fun t => { t with launches := t.launches.map fun l => if l.seq = q then f l else l }

/-- The launch of sequence number `q` of partition `p`. -/
def State.launch? (s : State) (p : Nat) (q : Word) : Option Launch :=
  (s.parts[p]?).bind fun t => t.launches.find? fun l => l.seq = q

/-! ### Scalar registers (R63, R90, R91) -/

/-- A scalar source's value. -/
def StreamSt.src (t : StreamSt) : Src → Word
  | .k i => t.k.get i.toFin
  | .h i => t.h.get i.toFin

/-- Pushes a result onto the history queue (R91). -/
def StreamSt.push (t : StreamSt) (x : Word) : StreamSt :=
  { t with h := #v[x, t.h[0], t.h[1], t.h[2], t.h[3], t.h[4], t.h[5], t.h[6], t.h[7], t.h[8], t.h[9], t.h[10],
      t.h[11], t.h[12], t.h[13], t.h[14]] }

/-- Writes a kept register. -/
def StreamSt.setK (t : StreamSt) (i : BitVec 4) (x : Word) : StreamSt :=
  { t with k := t.k.set i.toNat x i.isLt }

/-- Writes a destination (R91). -/
def StreamSt.write (t : StreamSt) (d : Dest) (x : Word) : StreamSt :=
  match d with
  | .k i => t.setK i x
  | .push => t.push x
  | .discard => t

/-- A predicate: p7 reads true (R3). -/
def StreamSt.pred (t : StreamSt) (i : BitVec 3) : Bool := if i = 7 then true else t.p.getLsbD i.toNat

/-- Writes a predicate; p7 ignores the write (R63). -/
def StreamSt.setPred (t : StreamSt) (i : BitVec 3) (b : Bool) : StreamSt :=
  if i = 7 then t
  else if b then { t with p := t.p ||| (1#7 <<< i.toNat) } else { t with p := t.p &&& ~~~(1#7 <<< i.toNat) }

/-- Whether a guard lets its word take effect (R61, R95). -/
def StreamSt.guardTrue (t : StreamSt) (g : Guard) : Bool := t.pred g.p != g.neg

/-! ### Tokens and data queues (R207, R232) -/

/-- The other streams of `x` in ascending order (R2). -/
def othersOf : StreamId → List StreamId
  | .c => [.l, .v, .m, .s]
  | .l => [.c, .v, .m, .s]
  | .v => [.c, .l, .m, .s]
  | .m => [.c, .l, .v, .s]
  | .s => [.c, .l, .v, .m]

/-- The i-th other stream of `x` (R2). -/
def otherOf (x : StreamId) (i : BitVec 2) : StreamId :=
  match x, i.toNat with
  | .c, 0 => .l | .c, 1 => .v | .c, 2 => .m | .c, _ => .s
  | .l, 0 => .c | .l, 1 => .v | .l, 2 => .m | .l, _ => .s
  | .v, 0 => .c | .v, 1 => .l | .v, 2 => .m | .v, _ => .s
  | .m, 0 => .c | .m, 1 => .l | .m, 2 => .v | .m, _ => .s
  | .s, 0 => .c | .s, 1 => .l | .s, 2 => .v | .s, _ => .m

/-- Where the pair (from, to) stands in a job's FIFOs and queues. -/
def pairIdx (x y : StreamId) : Fin 25 :=
  ⟨5 * x.num + y.num, by cases x <;> cases y <;> decide⟩

/-- The streams a mask of other streams selects, in order. -/
def maskOthers (x : StreamId) (m : BitVec 4) : List StreamId :=
  [0, 1, 2, 3].filterMap fun i => if m.getLsbD i then some (otherOf x (BitVec.ofNat 2 i)) else none

/-- A token from `y` that `x` can pop in cycle `t`: one pushed in an earlier cycle (R232). (DEDUCED, log 16.) -/
def Job.hasToken (j : Job) (t : Nat) (y x : StreamId) : Bool :=
  match j.tokens.get (pairIdx y x) with
  | [] => false
  | a :: _ => decide (a < t)

/-- Pops the oldest token from `y` to `x`. -/
def Job.popToken (j : Job) (y x : StreamId) : Job :=
  { j with tokens := j.tokens.set (pairIdx y x) (j.tokens.get (pairIdx y x)).tail }

/-- Whether cycle `t` has room for a token from `x` to `y`: fewer than 15 held, and none pushed in this cycle (R232). -/
def Job.tokenRoom (j : Job) (t : Nat) (x y : StreamId) : Bool :=
  decide ((j.tokens.get (pairIdx x y)).length < 15) && decide ((j.tokens.get (pairIdx x y)).getLast? ≠ some t)

/-- Pushes a token from `x` to `y`. -/
def Job.pushToken (t : Nat) (x : StreamId) (j : Job) (y : StreamId) : Job :=
  { j with tokens := j.tokens.set (pairIdx x y) (j.tokens.get (pairIdx x y) ++ [t]) }

/-- The entry from `y` that `x` can pop in cycle `t`: one pushed at least two cycles before (R207). -/
def Job.queueHead (j : Job) (t : Nat) (y x : StreamId) : Option Word :=
  match j.queues.get (pairIdx y x) with
  | [] => none
  | (a, w) :: _ => if a + 2 ≤ t then some w else none

/-- Removes the oldest entry from `y` to `x`. -/
def Job.popQueue (j : Job) (y x : StreamId) : Job :=
  { j with queues := j.queues.set (pairIdx y x) (j.queues.get (pairIdx y x)).tail }

/-- Whether cycle `t` has room for an entry from `x` to `y` (R232). -/
def Job.queueRoom (j : Job) (t : Nat) (x y : StreamId) : Bool :=
  decide ((j.queues.get (pairIdx x y)).length < 16) &&
    decide ((j.queues.get (pairIdx x y)).getLast?.map Prod.fst ≠ some t)

/-- Pushes an entry from `x` to `y`. -/
def Job.pushQueue (j : Job) (t : Nat) (x y : StreamId) (w : Word) : Job :=
  { j with queues := j.queues.set (pairIdx x y) (j.queues.get (pairIdx x y) ++ [(t, w)]) }

/-- Whether every push of a retire has room (R58). -/
def Job.retireRoom (j : Job) (t : Nat) (x : StreamId) (tokens : BitVec 4) (reply : BitVec 3) : Bool :=
  (maskOthers x tokens).all (fun y => j.tokenRoom t x y) &&
    (reply == 0 || j.queueRoom t x (otherOf x (BitVec.ofNat 2 (reply.toNat - 1))))

/-- Makes the pushes of a retire (R58). -/
def Job.retirePush (j : Job) (t : Nat) (x : StreamId) (tokens : BitVec 4) (reply : BitVec 3) (w : Word) : Job :=
  let j1 := (maskOthers x tokens).foldl (Job.pushToken t x) j
  if reply = 0 then j1 else j1.pushQueue t x (otherOf x (BitVec.ofNat 2 (reply.toNat - 1))) w

/-! ### Device memory by physical address -/

/-- The line of a physical address (R412). -/
def lineOf (a : Nat) : Nat := a / 64

/-- Whether any byte of a physical span lies in an uncorrectable line (R413). -/
def State.memPoisoned (s : State) (a n : Nat) : Bool :=
  s.memBad.any fun p => decide (a < 64 * p.1 + 64) && decide (64 * p.1 < a + n)

/-- The units of line `l` that a write of `n` bytes at `a` covers in full. -/
def unitsCovered (l a n : Nat) : BitVec 8 :=
  (List.range 8).foldl (fun m u =>
    if a ≤ 64 * l + 8 * u ∧ 64 * l + 8 * u + 8 ≤ a + n then m ||| (1#8 <<< u) else m) 0

/-- A write's effect on uncorrectable lines: a line is clear once all eight units have been written (R413). -/
def clearBad (bad : List (Nat × BitVec 8)) (a n : Nat) : List (Nat × BitVec 8) :=
  bad.filterMap fun p =>
    let m := p.2 ||| unitsCovered p.1 a n
    if m = 0xFF then none else some (p.1, m)

/-- Whether a host holds a line of a span exclusively: a device access waits until it has let it go (R390). (DEDUCED, log 84.) -/
def State.hostHolds (s : State) (pa n : Nat) : Bool :=
  s.snoop.any fun q => q.excl && decide (64 * q.line < pa + n) && decide (pa < 64 * q.line + 64)

/-- Bytes at their home. The cells below the span are passed over once. -/
def State.readPhys (s : State) (a n : Nat) : List Byte := cellGetN (s.mem.dropWhile fun c => decide (c.1 < a)) a n

/-- Writes bytes at their home; a host's copy of a line written is invalidated first (R390). -/
def State.writePhys (s : State) (a : Nat) (b : List Byte) : State :=
  { s with
    mem := cellPutN s.mem a b, memBad := clearBad s.memBad a b.length
    snoop := s.snoop.filter fun q => !(decide (64 * q.line < a + b.length) && decide (a < 64 * q.line + 64)) }

/-! ### The error log and interrupts (R396, R415, R416) -/

/-- Whether a port's link is up. -/
def State.linkIsUp (s : State) (port : Bool) : Bool := if port then s.linkUp.2 else s.linkUp.1

/-- Whether a message of a vector waits: the host has masked it, or the port's link is down (R396, R435). -/
def State.msixWaits (s : State) (port : Bool) (vec : BitVec 11) : Bool := s.masked.contains (port, vec) || !s.linkIsUp port

/-- Sends an MSI-X message, or holds it pending: a vector has one pending bit (R396, R435). -/
def State.sendMsix (s : State) (port : Bool) (vec : BitVec 11) : State :=
  if s.msixWaits port vec then { s with held := if s.held.contains (port, vec) then s.held else s.held ++ [(port, vec)] }
  else { s with msix := s.msix ++ [(port, vec)] }

/-- Sends every pending message that waits no longer (R396, R435). -/
def State.releaseMsix (s : State) : State :=
  { s with
    msix := s.msix ++ s.held.filter fun q => !s.msixWaits q.1 q.2, held := s.held.filter fun q => s.msixWaits q.1 q.2 }

/-- The fields of an error record (R416). -/
structure ErrRec where
  kind   : Nat
  unit   : Nat
  addr   : Nat
  seq    : Word
  ctx    : BitVec 16
  core   : Nat
  stop   : Nat
  cause  : BitVec 8
  syn    : Nat
  detail : Word
  deriving DecidableEq, Repr

/-- No location, no launch. -/
def ErrRec.blank : ErrRec := ⟨0, 0, 0, 0, 0, 0xFF, 0xFF, 0, 0, 0⟩

/-- The 64 bytes of a record, with the count of its unit's corrected errors (R416). -/
def errBytes (r : ErrRec) (count tick : Nat) : List Byte :=
  leBytes 64 (1 + r.detail.toNat * 2 ^ 128 + r.syn % 2 ^ 32 * 2 ^ 192 + min count (2 ^ 32 - 1) * 2 ^ 224 + r.cause.toNat * 2 ^ 256 + r.kind * 2 ^ 264 +
    r.unit * 2 ^ 272 + r.stop * 2 ^ 280 + r.core * 2 ^ 288 + r.ctx.toNat * 2 ^ 304 + r.seq.toNat * 2 ^ 320 +
    tick % 2 ^ 64 * 2 ^ 384 + r.addr % 2 ^ 64 * 2 ^ 448)

/-- Where a unit's corrected errors are counted: a frame of device memory, or the place a record names (R416). -/
def ErrRec.place (r : ErrRec) : Nat := if r.unit = 8 then r.addr / 2 ^ 16 else if r.core = 0xFF then r.stop else r.core

/-- Corrected errors of a unit at a place in the last 24 hours (R416). -/
def State.correctedAt (s : State) (unit place : Nat) : Nat :=
  (s.corrected.filter fun q => decide (q.1 = unit) && decide (q.2.1 = place) && decide (s.tick < q.2.2 + Config.dayCycles)).length

/-- Writes an error record, or counts it as lost where the log is full (R415). -/
def State.logError (s : State) (r : ErrRec) : State :=
  if s.errTail.toNat - s.errHead.toNat = Config.errLogSize then { s with errLost := s.errLost + 1 }
  else
    let s1 := s.writePhys (s.errBase + 64 * (s.errTail.toNat % Config.errLogSize)) (errBytes r (s.correctedAt r.unit r.place) s.tick)
    let s2 := { s1 with errTail := s1.errTail + 1 }
    let vec := s2.irqsrc.extractLsb' 16 11
    (s2.sendMsix false vec).sendMsix true vec

/-! ### Ends of jobs and teams -/

/-- The stop of a core (R1). -/
def stopOf (core : Nat) : Nat := core / 8

/-- A core now runs a context: what another left in its scratchpad is gone (R230). -/
def Core.runs (k : Core) (ctx : Nat × BitVec 16) : Core :=
  { k with lastCtx := some ctx, left := if k.lastCtx = some ctx then k.left else [] }

/-- Bytes carved from each core's highest window while a loop runs (R252). -/
def carveBytes : Nat := 0x8000

/-- The highest window of a job. -/
def Job.topWindow (j : Job) : Nat × Nat := if j.w1.1 < j.w1.2 then j.w1 else j.w0

/-- A store with the carved bytes of a job's loop zero (R252). -/
def Job.uncarve (j : Job) (m : List Host.Cell) : List Host.Cell :=
  m.filter fun c => decide (c.1 < j.topWindow.2 - carveBytes) || decide (j.topWindow.2 ≤ c.1)

/-- The base of a bank (R250). -/
def bankBase (b : Option Bool) : Nat := match b with | some true => 0x12_C000 | _ => 0

/-- A core lets go of job `n`, keeping what the scratchpad held (R230); the carved bytes of a loop that runs are zeroed on each
core of its group (R252). -/
def State.freeCore (s : State) (n : Nat) (j : Job) : State :=
  let ctx := (j.mem.part, j.mem.ctx)
  let clean (m : List Host.Cell) : List Host.Cell := if j.loop.isSome then j.uncarve m else m
  let s1 := s.modCore j.core fun k0 =>
    let k := k0.runs ctx
    { k with
      normal := if k.normal = some n then none else k.normal
      urgent := if k.urgent = some n then none else k.urgent
      left := (clean j.sp).foldl (fun m c => cellPut m (c.1 + bankBase j.bank) c.2) k.left }
  j.helpers.foldl (fun t h => t.modCore h fun k => { k with helper := none, left := clean k.left }) s1

/-- Reruns the RERUN field allows a team (R417). -/
def rerunsAllowed (record : BitVec 2048) : Nat :=
  match (record.extractLsb' 76 3).toNat with
  | 1 => 1
  | 2 => 3
  | _ => 0

/-- The team of index `t` changed by `f`. -/
def Launch.modTeam (l : Launch) (t : Nat) (f : Team → Team) : Launch :=
  { l with teams := l.teams.map fun q => if q.index = t then f q else q }

/-- An aborted team is queued again at its launch's head if RERUN allows and the cause is MEM_UE, else it has
failed (R353, R417). -/
def teamAfterAbort (l : Launch) (t : Nat) (now linear : Nat) (x : StreamId) (r : TrapRec) (core : Nat) : Launch :=
  let again := match l.teams.find? (fun q : Team => decide (q.index = t)) with
    | some q => decide (r.cause = causeMemUe) && decide (q.reruns < rerunsAllowed l.record)
    | none => false
  let l1 := l.modTeam t fun q =>
    { q with
      phase := if again then .rerun else .failed
      reruns := if again then q.reruns + 1 else q.reruns
      badCore := some core
      abort := some (now, linear, x, r) }
  { l1 with
    queue := (if again then [t] else []) ++ l1.queue.filter (· ≠ t)
    finish := now }

/-- Idle counts of the sub-arrays a mask selects start anew (R258). -/
def restIdle (mask : BitVec 4) (k : Core) : Core :=
  { k with subs := Vector.ofFn fun i : Fin 4 =>
      let q := k.subs.get i
      if mask.getLsbD i.val then { q with idle := 0 } else q }

/-- RMASK of an LMM's control word (R167). -/
def lmRmask (w : Word) : BitVec 4 := w.extractLsb' 36 4

/-- The sub-arrays an LME command needs (R179). -/
def LmeOp.subs : LmeOp → BitVec 4
  | .lmm _ _ _ ctl _ _ => lmRmask ctl
  | .spill _ _ => 0xF
  | .fill _ _ => 0xF
  | .zero _ => 0xF
  | .tload _ _ _ => 0
  | .tsave _ _ _ => 0

/-- One job of an aborted team stops: its streams issue no more, its commands are dropped, its append slots are
unbound (R231). (DESIGN CHOICE, log 112.) -/
def abortOne (j : Job) : Job :=
  { j with phase := .aborted, cmds := [], waits := [], lme := [], pendTrap := [], append := Vector.replicate 4 none, loop := none, susp := none,
           handler := none, victim := false, swapAt := none,
           feeds := Vector.replicate 4 none }

/-- A running launch drains once every team has retired or failed and none waits to run (R357). -/
def Launch.progress (l : Launch) : Launch :=
  if l.phase = .running ∧ l.nextTeam = l.total ∧ l.queue.isEmpty = true ∧
      l.teams.all (fun q => q.phase == .retired || q.phase == .failed) = true then
    { l with phase := .draining }
  else l

/-- The team a job belongs to, in its launch. -/
def State.teamOf (s : State) (j : Job) : Option Team :=
  (s.launch? j.mem.part j.mem.seq).bind fun l => l.teams.find? fun q : Team => decide (q.index = j.mem.team)

/-- The jobs of job `n`'s team, itself at least. -/
def State.teamJobs (s : State) (n : Nat) (j : Job) : List Nat :=
  match s.teamOf j with
  | some q => if q.jobs.contains n then q.jobs else [n]
  | none => [n]

/-- Stops job `i` in the abort that job `n`'s own fault started. -/
def State.abortMember (n : Nat) (x : StreamId) (r : TrapRec) (s : State) (i : Nat) : State :=
  match s.jobs[i]? with
  | none => s
  | some k =>
    if k.phase = Phase.retired ∨ k.phase = Phase.aborted then s
    else
      let k1 := abortOne k
      let rest := match k.lme with
        | q :: _ => if q.started then q.op.subs else 0
        | [] => 0
      ((s.freeCore i k).modCore k.core (restIdle rest)).setJob i (if i = n then { k1 with fault := some (x, r) } else k1)

/-- JOB_ABORT (R231, R353): the job's team is aborted in one step with the job's record, its cores are freed, and its
launch reruns it, away from `core`, which reported the error (R417), or counts it as failed. -/
def State.abortAt (s : State) (n core : Nat) (x : StreamId) (r : TrapRec) : State :=
  match s.jobs[n]? with
  | none => s
  | some j =>
    let s1 := (s.teamJobs n j).foldl (State.abortMember n x r) s
    s1.modLaunch j.mem.part j.mem.seq fun l =>
      (teamAfterAbort l j.mem.team s.tick j.mem.linear x r core).progress

/-- JOB_ABORT of a job by a stream of its own core. -/
def State.abortJob (s : State) (n : Nat) (x : StreamId) (r : TrapRec) : State :=
  s.abortAt n (match s.jobs[n]? with | some j => j.core | none => 0) x r

/-! ### Taking a trap and returning from a handler (R226, R227, R239) -/

/-- PC of a stream whose entry is absent, which stands at `JOIN` without a word: no word's address. (DESIGN CHOICE, log 111.) -/
def noWord : Word := BitVec.allOnes 64

/-- The trap CSRs take the record (R226). A return that retries the word at TPC issues it again, a `JOIN` too (R227); a stream that
has no word stands at `JOIN` all the same (R230). -/
def StreamSt.setTrap (t : StreamSt) (r : TrapRec) : StreamSt :=
  { t with
    tcause := r.cause.setWidth 64, tpc := r.tpc, tlane := r.lane, tinfo := r.info, atJoin := t.atJoin && t.pc == noWord
    bar := none, out := none }

/-- The uncorrectable units of a core's own stores that a job could have consumed, as units and addresses of R416: its scratchpad,
a helper's private area, its tiles and its table store. -/
def Job.ueSources (j : Job) : List (Nat × Nat) :=
  let priv := match j.loop with | some lp => lp.slots.flatMap (·.privBad) | none => []
  (j.spBad ++ priv).map (fun u => (1, 8 * u)) ++ j.tileBad.map (fun _ => (4, 0)) ++ j.tsBad.map (fun u => (5, 8 * u))

/-- An error of a core's own stores: three in 24 hours mark the core as failing (R420). -/
def Core.noteError (k : Core) (now : Nat) : Core :=
  let l := now :: k.errors.filter fun t => decide (now < t + Config.dayCycles)
  { k with errors := l, failing := k.failing || decide (3 ≤ l.length) }

/-- Uncorrectable data has been consumed by a job, on `core`: an error record of KIND 2 (R415, R416), with the place an access
has met, else one of the uncorrectable units of the job's own stores, and the core's own count (R420). The syndrome is a free
value. (DESIGN CHOICE, log 89.) -/
def State.reportUe (s : State) (n core : Nat) : State :=
  match s.jobs[n]? with
  | none => s
  | some j =>
    let all := j.ueSources
    let pick := s.ueAt.getD (all.getD (Config.uePick s.free % all.length) (1, 0))
    let s1 := { s with free := s.free + 1, ueAt := none }.logError { ErrRec.blank with
      kind := 2, unit := pick.1, addr := pick.2, seq := j.mem.seq, ctx := j.mem.ctx, core := core, stop := stopOf core
      cause := causeMemUe, syn := (Config.freeWord s.free).toNat }
    if pick.1 = 3 ∨ pick.1 = 8 ∨ 0xA ≤ pick.1 then s1 else s1.modCore core fun k => k.noteError s.tick

/-- The words before the PC that a ring keeps, and those ahead it may hold: 512 and the rest (R249). -/
def ringNear (pc a : Word) : Bool := decide ((a - (pc - 4096)).toNat < 0x5000)

/-- The ring of a stream whose PC moves elsewhere: what lies further than 512 words behind the PC it leaves is gone (R249). -/
def StreamSt.leave (t : StreamSt) : StreamSt := { t with ring := t.ring.filter fun p => ringNear t.pc p.1 }

/-- TAKE_TRAP (R226): the record goes to the trapping stream's CSRs; with THANDLER zero, or a handler running, the job
is aborted; otherwise C's predicates, history and next word are saved, SSTAT.HANDLER is set, and C goes on at the
trapping stream's THANDLER no earlier than four cycles later (R239). What stood over C's next word is saved with it. A trap of
a proof slot takes that slot's C as the job's C (R297). Consumed uncorrectable data is logged (R415). -/
def State.takeTrap (s : State) (n : Nat) (x : StreamId) (slot : Option Nat) (r : TrapRec) : State :=
  let core := match s.jobs[n]? with | some j => j.coreOf slot | none => 0
  let s0 := if r.cause = causeMemUe then s.reportUe n core else s
  let s1 := s0.modRegs n x slot fun t => t.setTrap r
  match s1.jobs[n]? with
  | none => s1
  | some j =>
    let t := j.regs x slot
    if t.thandler = 0 ∨ j.handler.isSome then s1.abortAt n core x r
    else
      let c := j.regs .c slot
      let resume := if x = .c then r.tpc else c.pc
      let c1 := { StreamSt.leave c with
        tresume := resume, pc := t.thandler, notBefore := max c.notBefore (s.tick + 4)
        atJoin := false, skip := false, out := none, claim := none }
      let j1 := j.setRegs .c slot c1
      let hd : Handler :=
        { stream := x, slot := slot, p := c.p, h := c.h, resume := resume, atJoin := c.atJoin, skip := c.skip && x != .c
          out := c.out, claim := c.claim }
      s1.setJob n { j1 with handler := some hd }

/-- A stream resumes in the cycle after TRET retires (R242). -/
def resumeAfter (now : Nat) (t : StreamSt) : StreamSt := { t with notBefore := max t.notBefore (now + 1) }

/-- Every stream and proof slot of a job resumes after this cycle (R242). -/
def Job.resumeAll (now : Nat) (j : Job) : Job :=
  { j with
    c := resumeAfter now j.c, l := resumeAfter now j.l, vs := resumeAfter now j.vs, m := resumeAfter now j.m
    s := resumeAfter now j.s
    loop := j.loop.map fun lp => { lp with slots := lp.slots.map fun sl => { sl with regs := resumeAfter now sl.regs } } }

/-- C's registers as a handler that ends leaves them, at address `a`: predicates and history come back, and what stood over
the word C was to go on with, if the handler has not moved C elsewhere (R227). -/
def Handler.back (hd : Handler) (c : StreamSt) (a : Word) : StreamSt :=
  { StreamSt.leave c with
    p := hd.p, h := hd.h, pc := a, out := if a == hd.resume then hd.out else none
    claim := if a == hd.resume then hd.claim else none, atJoin := hd.atJoin && a == hd.resume
    skip := hd.skip && a == hd.resume }

/-- TRET (R227): `retry` and `next` restore C's predicates and history, clear SSTAT.HANDLER and resume the trapping
stream at TPC or past its bundle, and C at TRESUME where another stream trapped; a SLUICE_STRICT trap, which only L and S
meet, resumes at the next word not yet issued; `abort`, and any return from an asynchronous record, aborts the job with that record. (DEDUCED, log 27.) -/
def State.trapReturn (s : State) (n : Nat) (next : Bool) (abort : Bool) : State :=
  match s.jobs[n]? with
  | none => s
  | some j =>
    match j.handler with
    | none => s
    | some hd =>
      let t := j.regs hd.stream hd.slot
      let r : TrapRec := ⟨t.tcause.setWidth 8, t.tpc, t.tlane, t.tinfo⟩
      if abort ∨ t.tinfo.getLsbD 15 then s.abortAt n (j.coreOf hd.slot) hd.stream r
      else
        let c := j.regs .c hd.slot
        let j2 :=
          if hd.stream = .c then
            let c1 := hd.back c t.tpc
            j.setRegs .c hd.slot (if next then { c1 with atJoin := false, skip := true } else c1)
          else
            let j3 := j.setRegs .c hd.slot (hd.back c c.tresume)
            j3.setRegs hd.stream hd.slot
              (if t.tcause = 0x0B then t else { t.leave with pc := t.tpc, skip := next })
        s.setJob n { j2.resumeAll s.tick with handler := none }

/-- The code of a fault record's KIND (R376). -/
def FaultKind.num : FaultKind → Nat
  | .read => 0 | .write => 1 | .fetch => 2 | .ckptCopy => 3

/-- The 32 bytes of a fault record (R376). -/
def faultBytes (ctx : BitVec 16) (f : Susp) : List Byte :=
  leBytes 32 (f.va.toNat * 2 ^ 192 + ctx.toNat * 2 ^ 176 + f.core % 128 * 2 ^ 169 + f.stream.num * 2 ^ 166 +
    f.kind.num * 2 ^ 164 + f.level % 4 * 2 ^ 162)

/-- Writes the fault record of a suspended job, where its partition's fault queue has room and no host holds its line exclusively
(R376, R390); the owning port is told
that the queue has become non-empty where it services it (R396). (DEDUCED, log 68.) -/
def State.queueFault (s : State) (n : Nat) : State :=
  match s.jobs[n]? with
  | none => s
  | some j =>
    match j.susp, s.parts[j.mem.part]? with
    | some f, some p =>
      let at' := p.faultq.toNat + 32 * (p.faulttail.toNat % Config.faultQueueSize)
      if f.queued || decide (Config.faultQueueSize ≤ (p.faulttail - p.faulthead).toNat) || s.hostHolds at' 32 then s
      else
        let s1 := (s.writePhys at' (faultBytes j.mem.ctx f)).setJob n { j with susp := some { f with queued := true } }
        let s2 := s1.modPart j.mem.part fun q => { q with faulttail := q.faulttail + 1 }
        if p.faulttail = p.faulthead && p.partcfg.getLsbD 2 then
          s2.sendMsix (p.partcfg.getLsbD 0) (p.faultvec.extractLsb' 0 11)
        else s2
    | _, _ => s

/-- A translation failure in a job not in a timed launch stops every stream and awaits service (R242, R376). -/
def State.suspendJob (s : State) (n : Nat) (f : Susp) : State :=
  (s.modJob n fun j => if j.susp.isSome then j else { j with susp := some f }).queueFault n

/-! ### Retiring in program order (R58, R185) -/

/-- Whether command `id` of a job has completed: it stands in no list of unfinished work. -/
def Job.cmdDone (j : Job) (id : Nat) : Bool :=
  !(j.cmds.any fun c => c.id == id && !c.done) && !(j.lme.any fun c => c.id == id) && !(j.waits.contains id)

/-- Whether an entry's work is complete by cycle `now` (R145, R185). -/
def Job.entryDone (j : Job) (now : Nat) (e : RetEntry) : Bool :=
  decide (e.ready ≤ now) &&
    match e.cmd with
    | none => true
    | some id => j.cmdDone id

/-- Whether the engines that run a job's commands go on: a handler or a suspension does not stop them (R239, R242), a
freeze or a swap in effect does (R359). (DEDUCED, log 66.) -/
def Job.enginesMove (j : Job) : Bool := j.phase == .running && !j.victim && !j.draining

/-- Whether a job is being brought to a boundary: commands that drain whole may still end (R359). -/
def Job.drains (j : Job) : Bool := j.phase == .running && (j.victim || j.draining)

/-- A trap that no word of its stream is at: taken now, or, met in a drain, recorded until the job resumes (R359). -/
def State.asyncTrap (s : State) (n : Nat) (x : StreamId) (r : TrapRec) : State :=
  match s.jobs[n]? with
  | none => s
  | some j => if j.drains then s.setJob n { j with pendTrap := j.pendTrap ++ [(x, r)] } else s.takeTrap n x none r

/-- Retires the oldest word of a stream, if it is complete and its pushes have room. -/
def State.retireOne (s : State) (n : Nat) (x : StreamId) : Option State :=
  match s.jobs[n]? with
  | none => none
  | some j =>
    if j.phase = .aborted ∨ j.phase = .retired then none
    else
    match (j.stream x).retireQ with
    | [] => none
    | e :: rest =>
      if j.entryDone s.tick e && j.retireRoom s.tick x e.tokens e.reply then
        let t := j.stream x
        let t1 := { (t.write e.dest e.value) with
          retireQ := rest, retired := if e.copy then t.retired + 1 else t.retired }
        let j1 := (j.setStream x t1).retirePush s.tick x e.tokens e.reply e.value
        let j2 := { j1 with cmds := match e.cmd with | some id => j1.cmds.filter (fun c => c.id != id) | none => j1.cmds }
        let s1 := s.setJob n j2
        if e.strict && e.value != 0 then
          some (s1.asyncTrap n x ⟨causeSluiceStrict, e.pc, 0, 8⟩)
        else some s1
      else none

/-- Retires as many words of a stream as can. -/
def State.retireAll (n : Nat) (x : StreamId) : Nat → State → State
  | 0, s => s
  | f + 1, s =>
    match s.retireOne n x with
    | none => s
    | some s1 => State.retireAll n x f s1

/-- Retires the oldest words of a proof slot's C that are complete; they carry no SIG (R296). -/
def retireSlotRegs (now : Nat) (j : Job) : List RetEntry → StreamSt → StreamSt
  | [], t => { t with retireQ := [] }
  | e :: rest, t =>
    if j.entryDone now e then retireSlotRegs now j rest (t.write e.dest e.value) else { t with retireQ := e :: rest }

/-- Lets every slot of a running loop retire what it can. -/
def Job.settleSlots (now : Nat) (j : Job) : Job :=
  match j.loop with
  | none => j
  | some lp =>
    { j with loop := some { lp with
        slots := lp.slots.map fun sl => { sl with regs := retireSlotRegs now j sl.regs.retireQ sl.regs } } }

/-- Lets every stream and proof slot of a job retire what it can. -/
def State.settle (s : State) (n : Nat) : State :=
  match s.jobs[n]? with
  | none => s
  | some j =>
    ([StreamId.c, .l, .v, .m, .s].foldl (fun t x => State.retireAll n x ((j.stream x).retireQ.length) t) s).modJob n
      (Job.settleSlots s.tick)

/-- Whether the pushes of a retire meet a full FIFO or queue (R243). -/
def Job.retireFull (j : Job) (x : StreamId) (tokens : BitVec 4) (reply : BitVec 3) : Bool :=
  (maskOthers x tokens).any (fun y => decide (15 ≤ (j.tokens.get (pairIdx x y)).length)) ||
    (reply != 0 && decide (16 ≤ (j.queues.get (pairIdx x (otherOf x (BitVec.ofNat 2 (reply.toNat - 1))))).length))

/-- Whether the oldest word of the stream is complete and held by a push into a full FIFO or queue (R243). -/
def Job.retireBlocked (j : Job) (now : Nat) (x : StreamId) : Bool :=
  match (j.stream x).retireQ with
  | [] => false
  | e :: _ => j.entryDone now e && j.retireFull x e.tokens e.reply

/-- Whether the oldest word of the stream is complete and cannot retire in this cycle (R58, R232). -/
def Job.retireHeld (j : Job) (t : Nat) (x : StreamId) : Bool :=
  match (j.stream x).retireQ with
  | [] => false
  | e :: _ => j.entryDone t e && !(j.retireRoom t x e.tokens e.reply)

/-- The state a step of an agent leaves. -/
def stateOf (s : State) (r : Host.Outcome State Fault Refusal) : State :=
  match r with
  | .next t => t
  | _ => s

/-! ### The shell of an instruction word -/

/-- What a word's own effect comes to: done, with its scalar value and where a branch goes; a trap; a trap of an access whose
walks have left their mark; a word that cannot issue yet; or a word whose effect is complete without retiring now (it waits inside the device, or the job has been
suspended or ended). -/
inductive WRes where
  | ok (s : State) (value : Word) (next : Option Word)
  | trap (cause : BitVec 8) (lane info : Word)
  | fail (s : State) (cause : BitVec 8)
  | stall
  | stop (s : State)

/-- A plain trap. -/
def WRes.raise (cause : BitVec 8) : WRes := .trap cause 0 0

/-- A trap of a word of cause `e`, which for MEM_UE has met uncorrectable data of the core's own stores at `at'` (R416). -/
def State.raiseOwn (s : State) (at' : Option (Nat × Nat)) (e : BitVec 8) : WRes :=
  if e = causeMemUe then .fail { s with ueAt := at' } e else .raise e

/-- A word of one instruction, about to run, of stream `x` (or slot) of job `n`. -/
def Cursor.start (n : Nat) (x : StreamId) (slot : Option Nat) (j : Job) (len : Nat) : Cursor where
  job := n
  stream := x
  slot := slot
  index := 0
  pre := j
  stalled := false
  late := false
  trap := none
  vmod := none
  value := 0
  raised := 0
  next := none
  len := len
  done := 0

/-- The registers a word reads: those before its bundle (R70, R90). -/
def Cursor.regs (c : Cursor) : StreamSt := c.pre.regs c.stream c.slot

/-- A word's address: that of its bundle's first word. -/
def Cursor.pc (c : Cursor) : Word := c.regs.pc

/-- What a WAIT byte comes to at an issue attempt (R55 to R57). -/
inductive WaitRes where
  | ready (j : Job) (exact : Bool)
  | stall
  | miss
  deriving DecidableEq, Repr

/-- Pops one token from each stream of a list. -/
def Job.popTokens (j : Job) (x : StreamId) (ys : List StreamId) : Job := ys.foldl (fun k y => k.popToken y x) j

/-- The timed forms: the target cycle STAMP + 4·d, and what happens before, at and after it (R57). -/
def waitTimed (j : Job) (now : Nat) (x : StreamId) (d : Nat) (need : List StreamId) : WaitRes :=
  let t := j.stream x
  let target := t.stamp.toNat + 4 * d
  if now < target then .stall
  else if j.timed && decide (target < now) then .miss
  else if need.all (fun y => j.hasToken now y x) then
    .ready ((j.popTokens x need).setStream x { t with stamp := BitVec.ofNat 64 target }) j.timed
  else if j.timed then .miss
  else .stall

/-- Applies a WAIT byte in cycle `now` (R55 to R57). -/
def applyWait (w : Wait) (j : Job) (now : Nat) (x : StreamId) : WaitRes :=
  match w with
  | .tokens m =>
    if (maskOthers x m).all (fun y => j.hasToken now y x) then .ready (j.popTokens x (maskOthers x m)) false else .stall
  | .drain m =>
    if (j.stream x).retireQ.isEmpty && (maskOthers x m).all (fun y => j.hasToken now y x) then
      .ready (j.popTokens x (maskOthers x m)) false
    else .stall
  | .timed d => waitTimed j now x d.toNat []
  | .timedToken y d => waitTimed j now x d.toNat [otherOf x y]

/-- The effect of a WAIT byte whose wait is over: its tokens are popped, and of a timed form STAMP is its target (R55 to R57). -/
def Job.waitOver (j : Job) (x : StreamId) (w : Wait) : Job :=
  let timed (k : Job) (d : Nat) : Job :=
    k.setStream x { (j.stream x) with stamp := BitVec.ofNat 64 ((j.stream x).stamp.toNat + 4 * d) }
  match w with
  | .tokens m => j.popTokens x (maskOthers x m)
  | .drain m => j.popTokens x (maskOthers x m)
  | .timed d => timed j d.toNat
  | .timedToken y d => timed (j.popTokens x [otherOf x y]) d.toNat

/-- Whether the word a stream stands at has issued already and waits inside the device: for the answer to its access, or with a
slot of an Inlet it has claimed (R57, R336). -/
def StreamSt.inside (t : StreamSt) : Bool := t.out.isSome || t.claim.isSome

/-- The higher-ranked of two traps of a bundle; the lower word wins a tie (R71, R80). -/
def worseTrap (old : Option BundleTrap) (new : BundleTrap) : Option BundleTrap :=
  match old with
  | none => some new
  | some t => if new.rank < t.rank ∨ (new.rank = t.rank ∧ new.word < t.word) then some new else some t

/-- The word of a cursor has met a trap. -/
def Cursor.met (c : Cursor) (cause : BitVec 8) (lane info : Word) : Cursor :=
  let r : TrapRec := ⟨cause, c.pc, lane, info ||| (BitVec.ofNat 64 c.index <<< 8)⟩
  { c with trap := worseTrap c.trap ⟨causeRank cause, c.index, r⟩ }

/-- A word that cannot issue yet although its checks can be made: in a cycle that is exact it raises what ranks above SCHEDULE_MISS
(R57, R80). -/
def WRes.orStall (c : Cursor) (r : WRes) : WRes :=
  match r with
  | .trap e lane info => if c.late && decide (causeRank e < causeRank causeScheduleMiss) then .trap e lane info else .stall
  | _ => .stall

/-- Puts the result of a word into the cursor. TINFO.WORD takes the word's index (R71). A word of a bundle that has trapped
leaves no effect, nor one after a word that has missed the bundle's cycle (R8, R57, R71). -/
def State.absorb (s : State) (c : Cursor) (r : WRes) : State :=
  match r with
  | .ok s1 v nx =>
    let c1 := { (s1.cursor.getD c) with value := v, next := nx }
    if c.trap.isSome || c.stalled then { s with cursor := some c1 } else { s1 with cursor := some c1 }
  | .trap cause lane info => { s with cursor := some (c.met cause lane info) }
  | .fail s1 cause => { (if c.trap.isSome || c.stalled then s else s1) with cursor := some (c.met cause 0 0) }
  | .stall => { s with cursor := some { c with stalled := true } }
  | .stop s1 => if c.trap.isSome || c.stalled then { s with cursor := some c } else { s1 with cursor := none }

/-- Whether a WAIT asks that every older word of the stream has retired (R55). -/
def waitDrains : Wait → Bool
  | .drain _ => true
  | _ => false

/-- The first word of a bundle applies WAIT: it pops its tokens and moves STAMP, waits, or has missed its cycle. One whose word has
issued already waits no more. A proof slot's word has no token to wait for, but a handler's may drain (R241, R296). -/
def State.enter (s : State) (c : Cursor) (w : Wait) : State :=
  if c.index ≠ 0 ∨ w = .tokens 0 ∨ c.trap.isSome = true then { s with cursor := some c }
  else
    match s.jobs[c.job]? with
    | none => { s with cursor := some c }
    | some j =>
      if c.slot.isSome then
        { s with cursor := some (if waitDrains w && !(j.regs c.stream c.slot).retireQ.isEmpty then { c with stalled := true } else c) }
      else if c.regs.inside then { s.setJob c.job (j.waitOver c.stream w) with cursor := some c }
      else
      match applyWait w j s.tick c.stream with
      | .ready j1 exact => { s.setJob c.job j1 with cursor := some { c with late := exact } }
      | .stall => { s with cursor := some { c with stalled := true } }
      | .miss =>
        { s with cursor := some { c with
            late := true, trap := worseTrap c.trap ⟨causeRank causeScheduleMiss, 0, ⟨causeScheduleMiss, c.pc, 0, 0⟩⟩ } }

/-- Undoes a bundle: the job stands as before it. (DEDUCED, log 17.) -/
def State.rollback (s : State) (c : Cursor) : State := { s.setJob c.job c.pre with cursor := none }

/-- A speculative iteration whose word would trap is held at that word (R297); a guess that would trap gives no guess
(R293). Any other trap is taken. -/
def State.raiseAt (s : State) (c : Cursor) (r : TrapRec) : State :=
  match c.slot with
  | none => s.takeTrap c.job c.stream none r
  | some n =>
    match (s.jobs[c.job]?).bind (fun j => j.slot? n) with
    | none => s
    | some sl =>
      match sl.running with
      | none => s
      | some it =>
        match it.st with
        | .confirmed => s.takeTrap c.job .c (some n) r
        | .guessing =>
          { s with ueAt := none }.modJob c.job fun j =>
            { (j.setSlot n { sl with running := some { it with st := .waiting, stores := [] } }) with
              proofNo := j.proofNo + 1 }
        | _ => { s with ueAt := none }.modJob c.job fun j => j.setSlot n { sl with held := true }

/-- A word retires: its SIG is pushed at once where nothing older is held, or it queues behind (R58). (DEDUCED, log 15.) -/
def retireWord (now : Nat) (x : StreamId) (j : Job) (e : RetEntry) : Job :=
  let t := j.stream x
  if t.retireQ.isEmpty && e.cmd.isNone && decide (e.ready ≤ now) && j.retireRoom now x e.tokens e.reply then
    let j1 := j.setStream x { t with retired := if e.copy then t.retired + 1 else t.retired }
    j1.retirePush now x e.tokens e.reply e.value
  else if e.cmd.isNone && decide (e.ready ≤ now) && e.tokens = 0 && e.reply = 0 && t.retireQ.isEmpty then
    j.setStream x { t with retired := if e.copy then t.retired + 1 else t.retired }
  else j.setStream x { t with retireQ := t.retireQ ++ [e] }

/-- The bundle has issued: PC moves on, SIG applies when its results are complete (R58, R70, R145). A proof slot's word carries no
SIG. -/
def State.finishWord (s : State) (c : Cursor) (sig : Sig) : State :=
  let s1 := s.modRegs c.job c.stream c.slot fun t =>
    { (if c.next.isSome then t.leave else t) with
      pc := c.next.getD (c.pc + 8 * BitVec.ofNat 64 c.len), notBefore := s.tick + 1, out := none,
      fpflg := t.fpflg ||| c.raised.setWidth 64 }
  let s2 := match c.slot with
    | some _ => s1
    | none => s1.modJob c.job fun j =>
        retireWord s.tick c.stream j
          { pc := c.pc, cmd := none, dest := .discard, value := c.value, reply := sig.reply, tokens := sig.tokens,
            strict := false, copy := false, ready := c.done }
  { s2 with cursor := none }

/-- The trap a bundle has met, as its last word has run: where a word of it cannot issue in a cycle that was exact, SCHEDULE_MISS
ranks with the rest (R57, R80). -/
def Cursor.verdict (c : Cursor) : Option BundleTrap :=
  if c.stalled && c.late then worseTrap c.trap ⟨causeRank causeScheduleMiss, 0, ⟨causeScheduleMiss, c.pc, 0, 0⟩⟩ else c.trap

/-- Ends a bundle: a stall undoes it, its trap, if any, to be met in the cycle it can issue in (R239; a SCHEDULE_MISS where its
cycle was exact, R57), a trap undoes it and is raised, otherwise it has issued. -/
def State.close (s : State) (sig : Sig) : State :=
  match s.cursor with
  | none => s
  | some c =>
    if c.stalled && !c.late then s.rollback c
    else
      match c.verdict with
      | some t => (s.rollback c).raiseAt c t.record
      | none => s.finishWord c sig

/-- The next word of the bundle. -/
def State.advance (s : State) : State :=
  match s.cursor with
  | none => s
  | some c => { s with cursor := some { c with index := c.index + 1 } }

/-- Whether a handler runs on the registers a word runs on. -/
def Job.inHandler (j : Job) : Bool := j.handler.isSome

/-- WAIT and SIG values that C's handler may not carry (R241). -/
def handlerHdrBad (j : Job) (x : StreamId) (w : Wait) (sig : Sig) : Bool :=
  j.inHandler && x == .c && (!(w == .tokens 0 || w == .drain 0) || sig != Sig.zero)

/-- Whether a word runs in a proof body or guess routine rather than in a handler (R296, R297). -/
def inBody (c : Cursor) (j : Job) : Bool := c.slot.isSome && j.handler.isNone

/-- Whether a word runs in C's handler (R241). -/
def inHandlerC (c : Cursor) (j : Job) : Bool := j.handler.isSome && c.stream == .c

/-- A nonzero WAIT or SIG in a proof body (R296). -/
def slotHdrBad (c : Cursor) (j : Job) (w : Wait) (sig : Sig) : Bool :=
  inBody c j && (w != .tokens 0 || sig != Sig.zero)

/-- Runs one word of a bundle: WAIT for the first, then `body` on the state WAIT left, then the end of the bundle for
the last (R53 to R60, R69 to R71). (DESIGN CHOICE, log 12.) -/
def runWord (wait : Wait) (sig : Sig) (last : Bool) (body : Cursor → Job → State → WRes) (s : State) :
    Host.Outcome State Fault Refusal :=
  match s.cursor with
  | none => .fault .noIssuer
  | some c =>
    match s.jobs[c.job]? with
    | none => .fault .noIssuer
    | some j0 =>
      let s1 :=
        if handlerHdrBad j0 c.stream wait sig || slotHdrBad c j0 wait sig then s.absorb c (.raise causeIllegal)
        else s.enter c wait
      let s2 :=
        match s1.cursor with
        | none => s1
        | some c1 =>
          if c1.stalled && !c1.late then s1
          else
            match s1.jobs[c1.job]? with
            | none => s1
            | some j => s1.absorb c1 (body c1 j s1)
      .next (if last then s2.close sig else s2.advance)

/-! ### Hazards and the scalar shell -/

/-- A younger word waits on a register a command in flight has yet to write: reading or writing that kept register, or
reading or pushing history (R185). (DEDUCED, log 18.) -/
def destPending (t : StreamSt) (uses : List Src) (d : Option Dest) : Bool :=
  t.retireQ.any fun e =>
    e.cmd.isSome &&
      match e.dest with
      | .k i => uses.any (fun u => u == .k i) || d == some (.k i)
      | .push => uses.any (fun u => match u with | .h _ => true | .k _ => false) || d == some .push
      | .discard => false

/-- The value a guarded-off word yields: its first source operand, or zero (R60, R92). (DEDUCED, log 19.) -/
def guardOffValue (t : StreamSt) (a : Option Src) : Word :=
  match a with
  | some u => t.src u
  | none => 0

/-- What a word whose guard is false reads: the first operand, where it pushes it, or its REPLY does (R60, R92, R206). -/
def offUses (h : Hdr) (first : Option Src) (d : Option Dest) : List Src :=
  if d = some .push ∨ h.sig.reply ≠ 0 then first.toList else []

/-- The destination of a word whose guard is false: its push to the history, if it makes one. -/
def offDest (d : Option Dest) : Option Dest := if d = some .push then d else none

/-- A scalar word (R90 to R93): its operands come from the registers before its bundle, its destination takes the value
`op` gives, and a false guard pushes the first operand where the destination is history. A word that yields no scalar
value leaves the bundle's as it is (R59). A word whose guard is false waits only for what it reads (R206). -/
def scalarBody (h : Hdr) (yields : Bool) (uses : List Src) (first : Option Src) (d : Option Dest)
    (op : Cursor → Job → State → WRes) (c : Cursor) (j : Job) (s : State) : WRes :=
  let t := c.regs
  if t.guardTrue h.guard then
    if destPending (j.regs c.stream c.slot) uses d then .stall
    else
      match op c j s with
      | .ok s1 v nx =>
        .ok (match d with | some dd => s1.modRegs c.job c.stream c.slot (fun r => r.write dd v) | none => s1) v nx
      | r => r
  else if destPending (j.regs c.stream c.slot) (offUses h first d) (offDest d) then .stall
  else
    let v := if yields then guardOffValue t first else c.value
    .ok (if d = some .push then s.modRegs c.job c.stream c.slot (fun r => r.push v) else s) v none

/-- A scalar word with its header. -/
def scalarWord (h : Hdr) (uses : List Src) (first : Option Src) (d : Option Dest) (op : Cursor → Job → State → WRes)
    (s : State) : Host.Outcome State Fault Refusal :=
  runWord h.wait h.sig true (scalarBody h d.isSome uses first d op) s

/-- A word that reads register B and no A operand, with its header: a false guard pushes zero to the history (R92), and its REPLY
carries the value of B, its first register source (R60). -/
def scalarWordB (h : Hdr) (b : Src) (d : Dest) (op : Cursor → Job → State → WRes) (s : State) :
    Host.Outcome State Fault Refusal :=
  runWord h.wait h.sig true (fun c j s =>
    if h.sig.reply ≠ 0 ∧ destPending (j.regs c.stream c.slot) [b] none = true then .stall
    else
      match scalarBody h true [b] none (some d) op c j s with
      | .ok s1 v nx => .ok s1 (if c.regs.guardTrue h.guard then v else c.regs.src b) nx
      | r => r) s

/-- A scalar word whose value is a function of registers alone and which does nothing else (R99 to R105). -/
def pureWord (h : Hdr) (uses : List Src) (first : Option Src) (d : Dest) (f : StreamSt → Word) (s : State) :
    Host.Outcome State Fault Refusal :=
  scalarWord h uses first (some d) (fun c _ s => .ok s (f c.regs) none) s

/-! ### Issuing an asynchronous command -/

/-- A command word has issued: its retire waits for command `id` (R185). (DEDUCED, log 42.) -/
def queueCmd (c : Cursor) (j : Job) (h : Hdr) (d : Dest) (id : Nat) (strict copy : Bool) (now : Nat) : Job :=
  let t := j.stream c.stream
  j.setStream c.stream { t with
    pc := c.pc + 8, notBefore := now + 1
    retireQ := t.retireQ ++ [{ pc := c.pc, cmd := some id, dest := d, value := 0, reply := h.sig.reply,
                               tokens := h.sig.tokens, strict := strict, copy := copy }] }

/-- Gives the retire entry of command `id` its completion count. -/
def setEntryValue (t : StreamSt) (id : Nat) (v : Word) : StreamSt :=
  { t with retireQ := t.retireQ.map fun e => if e.cmd = some id then { e with value := v } else e }

/-! ### Delivery points (R43) -/

/-- The enabled exceptions standing in FPFLG: FPCTL.EN (bits 12:8) against the flags. -/
def enabledFlags (fpctl fpflg : Word) : BitVec 5 := fpctl.extractLsb' 8 5 &&& fpflg.extractLsb' 0 5

end Sys2Proof.Machine
end

