-- ==== Sys2Proof/Machine/Flags.lean ====
section
/-! DEFINITION. The scalar comparison conditions, the sticky exceptions and their delivery, and the rounding mode in
force. -/

namespace Sys2Proof.Machine

/-- test(code, a, b) of CMP and CMPI (R94). -/
def condTest (cc : Cond) (a b : Word) : Bool :=
  match cc with
  | .eq => a == b
  | .ne => a != b
  | .lt => a.slt b
  | .ge => !(a.slt b)
  | .ltu => a.ult b
  | .geu => !(a.ult b)
  | .gt => b.slt a
  | .le => !(b.slt a)
  | .gtu => b.ult a
  | .leu => !(b.ult a)
  | .tst => a &&& b != 0
  | .ntst => a &&& b == 0

/-- The predicate value REPLY pushes (R59). -/
def boolWord (b : Bool) : Word := if b then 1 else 0

/-- Whether an integer comparison condition of VCMP holds, given the order of the operands (R126). -/
def vcondTest (cc : VCond) (o : Option Ordering) : Bool :=
  match cc, o with
  | .un, r => r.isNone
  | .ord, r => r.isSome
  | .ne, none => true
  | _, none => false
  | .eq, some r => r == .eq
  | .ne, some r => r != .eq
  | .lt, some r => r == .lt
  | .le, some r => r != .gt
  | .gt, some r => r == .gt
  | .ge, some r => r != .lt

/-- ORs exceptions into FPFLG (R42). -/
def StreamSt.orFlags (t : StreamSt) (f : BitVec 5) : StreamSt := { t with fpflg := t.fpflg ||| f.setWidth 64 }

/-- The rounding mode of FPCTL.RM (R36); a reserved value cannot be written (R229) and reads as RNE here. -/
def rmOf (fpctl : Word) : RMode :=
  match (fpctl.extractLsb' 0 3).toNat with
  | 1 => .rtz | 2 => .rdn | 3 => .rup | 4 => .rmm | _ => .rne

/-- FPCTL.PRECISE (R44, R229). -/
def preciseOf (fpctl : Word) : Bool := fpctl.getLsbD 13

/-- FPCTL.EN (R43, R44). -/
def enabledOf (fpctl : Word) : BitVec 5 := fpctl.extractLsb' 8 5

/-- TINFO of FP_PRECISE at a delivery point: the enabled set in bits [14:10] and ACCUM (R43, R229). -/
def deliveryInfo (set : BitVec 5) : Word := (set.setWidth 64 <<< 10) ||| 4

/-- What a delivery point meets: the trap, if any enabled flag is set (R43). -/
def deliver (fpctl fpflg : Word) : Option WRes :=
  let set := enabledFlags fpctl fpflg
  if set = 0 then none else some (.trap causeFpPrecise 0xFF (deliveryInfo set))

end Sys2Proof.Machine
end

