-- ==== Sys2Proof/Machine/Operands.lean ====
section
/-! DEFINITION. Where a word's operands lie in a job's own stores: the scratchpad and table-store windows, checked
reads and writes of them, and the store buffer of a speculative iteration. -/

namespace Sys2Proof.Machine

/-! ### Windows (R246, R247, R252, R253) -/

/-- The windows of a job by its class, mode and SPREQ (R246). -/
def spWindows (urgentClass urgentJob bankMode : Bool) (spreq : Nat) : (Nat × Nat) × (Nat × Nat) :=
  if urgentJob then ((0x28_0000, 0x28_0000 + spreq), (0, 0))
  else if bankMode || urgentClass then ((0, spreq), (0, 0))
  else ((0, min spreq 0x26_C000), if 0x26_C000 < spreq then (0x28_0000, 0x28_0000 + (spreq - 0x26_C000)) else (0, 0))

/-- The greatest SPREQ a job may declare (R246). -/
def spLimit (urgentClass urgentJob bankMode : Bool) : Nat :=
  if urgentJob then 432 * 1024
  else if bankMode then 1200 * 1024
  else if urgentClass then 2480 * 1024 else 2992 * 1024

/-- The table-store window of a job by its class and TSREQ (R253). -/
def tsWindow (urgentJob : Bool) (tsreq : Nat) : Nat × Nat :=
  if urgentJob then (0xE_0000, 0xE_0000 + tsreq) else (0, tsreq)

/-- The greatest TSREQ a job may declare (R253). -/
def tsLimit (urgentClass urgentJob : Bool) : Nat :=
  if urgentJob then 128 * 1024 else if urgentClass then 896 * 1024 else 1024 * 1024

/-- The highest window less the bytes a running loop has carved from its top (R252). -/
def Job.windows (j : Job) : (Nat × Nat) × (Nat × Nat) :=
  match j.loop with
  | none => (j.w0, j.w1)
  | some lp =>
    if j.w1.1 < j.w1.2 then (j.w0, (j.w1.1, j.w1.2 - lp.carved)) else ((j.w0.1, j.w0.2 - lp.carved), j.w1)

/-- Whether the span of `n` bytes at `a` lies inside the window `w`. -/
def inWindow (w : Nat × Nat) (a n : Nat) : Bool := decide (w.1 ≤ a) && decide (a + n ≤ w.2)

/-- Whether a span lies inside one window of the job (R247); a span of no byte touches nothing. -/
def Job.spanOk (j : Job) (a n : Nat) : Bool :=
  n == 0 || inWindow j.windows.1 a n || inWindow j.windows.2 a n

/-- Whether a span touches an uncorrectable 8-byte unit (R248). -/
def unitsTouch (bad : List Nat) (a n : Nat) : Bool :=
  bad.any fun u => decide (8 * u < a + n) && decide (a < 8 * u + 8)

/-- The units left uncorrectable after a span is written: those the write does not cover with all 8 bytes (R248, R413). -/
def unitsAfter (bad : List Nat) (a n : Nat) : List Nat := bad.filter fun u => !(decide (a ≤ 8 * u) && decide (8 * u + 8 ≤ a + n))

/-- Writes scratchpad bytes. -/
def Job.spPut (j : Job) (a : Nat) (b : List Byte) : Job :=
  { j with sp := cellPutN j.sp a b, spBad := unitsAfter j.spBad a b.length }

/-- Writes table-store bytes (R255). -/
def Job.tsPut (j : Job) (a : Nat) (b : List Byte) : Job :=
  { j with ts := cellPutN j.ts a b, tsBad := unitsAfter j.tsBad a b.length }

/-! ### Proof slots (R291, R296) -/

/-- The running iteration of the slot a word runs in. -/
def Job.iter? (j : Job) (slot : Option Nat) : Option Iter :=
  slot.bind fun n => (j.slot? n).bind fun sl => sl.running

/-- Whether the word belongs to a speculative iteration or a guess, whose effects stay its own (R293, R296). -/
def Job.speculative (j : Job) (slot : Option Nat) : Bool :=
  match j.iter? slot with
  | some it => it.st == .speculative || it.st == .guessing
  | none => false

/-- A word of a speculative iteration that stalls until the iteration is confirmed (R296). -/
def Job.mustWait (j : Job) (slot : Option Nat) : Bool := j.speculative slot

/-- The private area of a loop's record: first offset and bytes (R289, R291). -/
def privArea (record : BitVec 512) : Nat × Nat :=
  ((record.extractLsb' 256 22).toNat, 4096 * (record.extractLsb' 288 10).toNat)

/-- Whether a span lies in the private area of the loop the word runs in. -/
def Job.inPriv (j : Job) (slot : Option Nat) (a n : Nat) : Bool :=
  match slot, j.loop with
  | some _, some lp =>
    let p := privArea lp.record
    decide (0 < n) && decide (p.1 ≤ a) && decide (a + n ≤ p.1 + p.2)
  | _, _ => false

/-- Store-buffer bytes a list of speculative stores takes: 16 for each distinct aligned 8-byte unit, and
16·(⌈b/8⌉ + 1) for an append (R296, R303). -/
def bufferBytes (l : List SpecStore) : Nat :=
  let units := l.flatMap fun st =>
    match st with
    | .mem _ _ _ l => l.map fun x => (true, x / 8)
    | .scratch off d => (List.range d.length).map fun i => (false, (off + i) / 8)
    | .append _ _ _ _ => []
  let apps := l.map fun st => match st with | .append _ d _ _ => 16 * ((d.length + 7) / 8 + 1) | _ => 0
  16 * units.dedup.length + apps.sum

/-- The store-buffer size a record declares (R289). -/
def bufferSize (record : BitVec 512) : Nat := 64 * (record.extractLsb' 32 9).toNat

/-- Adds a store to the running iteration of a slot; none where its buffer would overflow. -/
def Job.bufferStore (j : Job) (slot : Option Nat) (st : SpecStore) : Option Job :=
  match slot, j.loop with
  | some n, some lp =>
    match lp.slots[n]? with
    | none => none
    | some sl =>
      match sl.running with
      | none => none
      | some it =>
        let l := it.stores ++ [st]
        if bufferBytes l ≤ bufferSize lp.record then
          some (j.setSlot n { sl with running := some { it with stores := l } })
        else none
  | _, _ => none

/-- A scratchpad byte as a slot's word sees it: its own buffered stores first. -/
def overlayScratch (stores : List SpecStore) (off : Nat) (old : Byte) : Byte :=
  stores.foldl (fun b st =>
    match st with
    | .scratch o d => if o ≤ off ∧ off < o + d.length then d.getD (off - o) b else b
    | _ => b) old

/-- A byte at a location, as a slot's word sees it: its own buffered stores to that location first, whatever path or address they
went by (R269, R296). -/
def overlayMem (stores : List SpecStore) (at' : Nat) (old : Byte) : Byte :=
  stores.foldl (fun b st =>
    match st with
    | .mem _ d _ l => ((l.zip d).find? fun p => p.1 == at').elim b Prod.snd
    | _ => b) old

/-! ### Scratchpad access by a word (R111, R247, R291) -/

/-- What a scratchpad access of a word comes to. -/
inductive SpRes (α : Type) where
  | ok (x : α)
  | fault (cause : BitVec 8)
  | full
  deriving DecidableEq, Repr

/-- The store a slot's private offsets reach: a helper's own core's (R291). -/
def Job.privCells (j : Job) (slot : Option Nat) : List Host.Cell :=
  match slot with
  | some (n + 1) => ((j.slot? (n + 1)).map (·.priv)).getD j.sp
  | _ => j.sp

/-- The uncorrectable units of that store. -/
def Job.privBadOf (j : Job) (slot : Option Nat) : List Nat :=
  match slot with
  | some (n + 1) => ((j.slot? (n + 1)).map (·.privBad)).getD j.spBad
  | _ => j.spBad

/-- Writes bytes into a slot's private area. -/
def Job.privPut (j : Job) (slot : Option Nat) (a : Nat) (b : List Byte) : Job :=
  match slot with
  | some (n + 1) =>
    match j.slot? (n + 1) with
    | some sl =>
      j.setSlot (n + 1) { sl with priv := cellPutN sl.priv a b, privBad := unitsAfter sl.privBad a b.length }
    | none => j.spPut a b
  | _ => j.spPut a b

/-- A byte a slot's word reads: private, or the leader's under the iteration's own buffered stores (R291, R296). -/
def Job.slotByte (j : Job) (slot : Option Nat) (a : Nat) : Byte :=
  if j.inPriv slot a 1 then cellGet (j.privCells slot) a
  else overlayScratch (match j.iter? slot with | some it => it.stores | none => []) a (cellGet j.sp a)

/-- Whether a byte a slot's word reads lies in an uncorrectable unit. -/
def Job.slotBad (j : Job) (slot : Option Nat) (a : Nat) : Bool :=
  unitsTouch (if j.inPriv slot a 1 then j.privBadOf slot else j.spBad) a 1

/-- The first uncorrectable unit a span of the scratchpad touches, as unit and address of R416. -/
def Job.spUe (j : Job) (slot : Option Nat) (a n : Nat) : Option (Nat × Nat) :=
  ((List.range n).find? fun i => j.slotBad slot (a + i)).map fun i => (1, (a + i) / 8 * 8)

/-- Reads `n` scratchpad bytes at `a`: BOUND outside the windows, MEM_UE on an uncorrectable unit. -/
def Job.spLoad (j : Job) (slot : Option Nat) (a n : Nat) : SpRes (List Byte) :=
  if !(j.spanOk a n) then .fault causeBound
  else if slot.isSome then
    if (List.range n).any fun i => j.slotBad slot (a + i) then .fault causeMemUe
    else .ok ((List.range n).map fun i => j.slotByte slot (a + i))
  else if unitsTouch j.spBad a n then .fault causeMemUe
  else .ok (cellGetN j.sp a n)

/-- A write of a slot to the leader's scratchpad: buffered while its iteration is speculative (R296). -/
def Job.leaderPut (j : Job) (slot : Option Nat) (a : Nat) (b : List Byte) : Option Job :=
  if b.isEmpty then some j
  else if j.speculative slot then j.bufferStore slot (.scratch a b)
  else some (j.spPut a b)

/-- Writes scratchpad bytes at `a`; what a slot writes in its private area goes there, the rest to the leader's (R291). -/
def Job.spStore (j : Job) (slot : Option Nat) (a : Nat) (b : List Byte) : SpRes Job :=
  if !(j.spanOk a b.length) then .fault causeBound
  else if slot.isNone then .ok (j.spPut a b)
  else
    let inside := (List.range b.length).filter fun i => j.inPriv slot (a + i) 1
    let lo := inside.headD b.length
    let hi := lo + inside.length
    match ((j.privPut slot (a + lo) ((b.drop lo).take inside.length)).leaderPut slot a (b.take lo)).bind fun k =>
        k.leaderPut slot (a + hi) (b.drop hi) with
    | some k => .ok k
    | none => .full

/-- Address of an SM-format access: a + sext(offset), wrapped to 64 bits (R111, R113). -/
def smAddr (a : Word) (off : BitVec 21) : Word := a + off.signExtend 64

/-- Bytes of a SIZE code (R64). -/
def sizeBytes (size : BitVec 2) : Nat := 2 ^ size.toNat

/-- A loaded value, zero- or sign-extended (R111). -/
def extendLoad (sgn : Bool) (b : List Byte) : Word :=
  if sgn then sext64 (leNat b) (8 * b.length) else BitVec.ofNat 64 (leNat b)

/-! ### Tiles and vector registers -/

/-- The tile a vector register is a row of (R256). -/
def tileOf (v : Nat) : Nat := v / 32

/-- Whether a vector write still has to land in a row of tile `n` in cycle `t` (R118). -/
def Interlock.pendingTile (b : Interlock) (t n : Nat) : Bool :=
  (List.range 32).any fun r => decide (t < b.v.getD (32 * n + r) 0)

/-- The tile an LME command owns, if it owns one (R163). -/
def LmeOp.tile : LmeOp → Option Nat
  | .lmm t _ _ _ _ _ => some t.toNat
  | .spill t _ => some t.toNat
  | .fill t _ => some t.toNat
  | .zero t => some t.toNat
  | .tload _ _ _ => none
  | .tsave _ _ _ => none

/-- Whether an LME command owns tile `t` (R163). -/
def Job.tileOwned (j : Job) (t : Nat) : Bool := j.lme.any fun c => c.op.tile == some t

/-- Whether tile `t` is absent for the job: t3 in a normal job of an urgent-class partition, t0 to t2 in an urgent
job (R66, R159). `urgentClass` is read from the partition. -/
def tileAbsent (urgentClass urgentJob : Bool) (t : Nat) : Bool :=
  if urgentJob then t != 3 else urgentClass && t == 3

end Sys2Proof.Machine
end

