-- ==== Sys2Proof/Machine/Memory.lean ====
section
/-! DEFINITION. Address paths, translation, the L1 and the replicas, and the accesses that words, commands and the
Launch Unit make to memory, peer scratchpads and host frames. -/

namespace Sys2Proof.Machine

/-! ### Who makes an access -/

/-- The agent of an access: its job, stream and slot, core, context and launch; `engine`
marks a Sluice element, which the engine of the stop translates (R305). A word takes answers only to requests made since its access
began, and uses the translation its access began with (`since`, `parts`); another agent's access is made whole each time. -/
structure Who where
  job    : Nat
  stream : StreamId
  slot   : Option Nat
  core   : Nat
  part   : Nat
  ctx    : BitVec 16
  seq    : Word
  timed  : Bool
  urgent : Bool
  team   : Nat
  tpc    : Word
  engine : Bool
  since  : Option Nat
  parts  : List (Phys × Nat)
  deriving DecidableEq, Repr

/-- The agent that a stream or slot of a job is. -/
def whoOf (n : Nat) (j : Job) (x : StreamId) (slot : Option Nat) (tpc : Word) : Who where
  job := n
  stream := x
  slot := slot
  core := j.coreOf slot
  part := j.mem.part
  ctx := j.mem.ctx
  seq := j.mem.seq
  timed := j.timed
  urgent := j.urgent
  team := j.mem.team
  tpc := tpc
  engine := false
  since := some 0
  parts := []

/-- The agent that the word under way is, with what its access at issue has begun (R57). -/
def Cursor.who (c : Cursor) (j : Job) : Who :=
  let o := (j.regs c.stream c.slot).out
  { whoOf c.job j c.stream c.slot c.pc with since := o.map (·.since), parts := (o.map (·.parts)).getD [] }

/-- What an access comes to: its result; a fault of a cause of R79; a translation failure with the level of the entry
that failed (R376), each with the state its walks have left; or a wait, for an answer over a CXL port or for a host to let a line
go, with the request made now, if any, and the parts the address has been translated to. -/
inductive MRes (α : Type) where
  | ok (s : State) (x : α)
  | fault (s : State) (cause : BitVec 8)
  | susp (s : State) (va : Word) (kind : FaultKind) (level : Nat)
  | hold (s : State) (ask : Option CxlReq) (parts : List (Phys × Nat))

/-- Continues after a successful access. -/
def MRes.bind {α β : Type} (r : MRes α) (f : State → α → MRes β) : MRes β :=
  match r with
  | .ok s x => f s x
  | .fault s c => .fault s c
  | .susp s va k l => .susp s va k l
  | .hold s q l => .hold s q l

/-- A wait of an access whose parts have been translated: nothing but its walks stands until its answers have come. -/
def MRes.latch {α : Type} (s : State) (l : List (Phys × Nat)) (r : MRes α) : MRes α :=
  match r with
  | .hold _ q _ => .hold s q l
  | x => x

/-! ### Page tables (R370 to R374) -/

/-- Fields of a page table entry (R371). -/
def pteV (e : Word) : Bool := e.getLsbD 0
def pteLeaf (e : Word) : Bool := e.getLsbD 1
def pteOrd (e : Word) : BitVec 2 := e.extractLsb' 2 2
def pteWr (e : Word) : Bool := e.getLsbD 4
def pteX (e : Word) : Bool := e.getLsbD 5
def pteL1c (e : Word) : Bool := e.getLsbD 6
def pteRepl (e : Word) : Bool := e.getLsbD 7
def pteCkpt (e : Word) : Bool := e.getLsbD 8
def pteA (e : Word) : Bool := e.getLsbD 9
def pteD (e : Word) : Bool := e.getLsbD 10
def pteHost (e : Word) : Bool := e.getLsbD 11
def pteKey (e : Word) : BitVec 4 := e.extractLsb' 12 4
def pteFrame (e : Word) : BitVec 36 := e.extractLsb' 16 36

/-- A context's descriptor, 128 bits at CTXBASE + 16·n (R369). -/
def State.ctxDesc (s : State) (part : Nat) (ctx : BitVec 16) : Nat :=
  match s.parts[part]? with
  | none => 0
  | some p => leNat (s.readPhys (p.ctxbase.toNat + 16 * ctx.toNat) 16)

/-- VALID of a context (R369). (DESIGN CHOICE, log 95.) -/
def State.ctxValid (s : State) (part : Nat) (ctx : BitVec 16) : Bool := decide (s.ctxDesc part ctx % 2 = 1)

/-- KEY of a context (R369). -/
def State.ctxKey (s : State) (part : Nat) (ctx : BitVec 16) : BitVec 4 := BitVec.ofNat 4 (bitsOf (s.ctxDesc part ctx) 15 12)

/-- Whether `n` bytes at a physical address cannot be read there: an uncorrectable line, or a frame retired without a spare (R413,
R419). -/
def State.unreadable (s : State) (pa n : Nat) : Bool := s.memPoisoned pa n || s.flash.retired.contains (pa / 2 ^ 16)

/-- An access meets uncorrectable data at a physical address: in an L1 or an L2 that holds the line dirty, else in memory (R416). (DESIGN CHOICE, log 89.) -/
def State.meetsUe (s : State) (pa : Nat) : State :=
  let inL1 := s.cores.toList.any fun k => k.l1.any fun l => decide (l.line = lineOf pa) && l.dirty != 0
  { s with ueAt := some (if inL1 then 2 else 8, pa) }

/-- What a walk finds: a failure at a level, uncorrectable table data, an entry that a host holds exclusively, or a leaf with its
level and where the entry lies. -/
inductive Walk where
  | fail (level : Nat)
  | ue (at' : Nat)
  | wait
  | leaf (level : Nat) (entryAt : Nat) (entry : Word)
  deriving DecidableEq, Repr

/-- The index bits of a level (R370). -/
def walkIndex (va level : Nat) : Nat := va / 2 ^ (46 - 10 * level) % 1024

/-- Whether an entry at a level is malformed (R371, R372). -/
def pteMalformed (e : Word) (level : Nat) : Bool :=
  (level == 0 && pteLeaf e) || (level == 3 && !pteLeaf e) || e.extractLsb' 52 12 != 0 ||
    (!pteLeaf e && e.extractLsb' 2 14 != 0) ||
    (pteLeaf e && level == 1 && e.extractLsb' 16 20 != 0) || (pteLeaf e && level == 2 && e.extractLsb' 16 10 != 0)

/-- The non-leaf entry a stop's cache holds for an address at a level. -/
def State.nonLeaf? (s : State) (stop part : Nat) (ctx : BitVec 16) (level va : Nat) : Option Nat :=
  ((s.stops[stop]?).bind fun t => t.tables.find? fun e =>
    decide (e.part = part) && e.ctx == ctx && decide (e.level = level) && decide (e.top = va / 2 ^ (46 - 10 * level))).map
      (·.frame)

/-- Walks from a table frame at `level` down (R370), through the stop's cache of non-leaf entries (R374); also the non-leaf
entries met. -/
def walkFrom (s : State) (stop part : Nat) (ctx : BitVec 16) (va : Nat) : Nat → Nat → Nat → Walk × List NonLeaf
  | 0, level, _ => (.fail level, [])
  | f + 1, level, frame =>
    match s.nonLeaf? stop part ctx level va with
    | some next => walkFrom s stop part ctx va f (level + 1) next
    | none =>
      let at' := frame * 2 ^ 16 + 8 * walkIndex va level
      if s.unreadable at' 8 then (.ue at', [])
      else if s.hostHolds at' 8 then (.wait, [])
      else
        let e : Word := BitVec.ofNat 64 (leNat (s.readPhys at' 8))
        if !pteV e || pteMalformed e level then (.fail level, [])
        else if pteLeaf e then (.leaf level at' e, [])
        else
          let r := walkFrom s stop part ctx va f (level + 1) (pteFrame e).toNat
          (r.1, ⟨part, ctx, level, va / 2 ^ (46 - 10 * level), (pteFrame e).toNat⟩ :: r.2)

/-- Where a context's descriptor lies (R369). -/
def State.ctxAt (s : State) (part : Nat) (ctx : BitVec 16) : Nat :=
  match s.parts[part]? with
  | none => 0
  | some p => p.ctxbase.toNat + 16 * ctx.toNat

/-- The walk of a virtual address under a context (R369, R370). -/
def State.walk (s : State) (stop part : Nat) (ctx : BitVec 16) (va : Nat) : Walk × List NonLeaf :=
  if s.unreadable (s.ctxAt part ctx) 16 then (.ue (s.ctxAt part ctx), [])
  else if s.hostHolds (s.ctxAt part ctx) 16 then (.wait, [])
  else if s.ctxValid part ctx then walkFrom s stop part ctx va 4 0 (bitsOf (s.ctxDesc part ctx) 51 16) else (.fail 0, [])

/-- log2 of the page size of a leaf at a level (R370). -/
def pageBits (level : Nat) : Nat := match level with | 1 => 36 | 2 => 26 | _ => 16

/-- The entry of a TLB for the page of `va`. -/
def tlbFind (l : List TlbEntry) (part : Nat) (ctx : BitVec 16) (va : Nat) : Option TlbEntry :=
  l.find? fun t => decide (t.part = part) && t.ctx == ctx && decide (t.base = va / 2 ^ pageBits t.level * 2 ^ pageBits t.level)

/-- Adds a leaf to a TLB of `n` entries, dropping the oldest past them (R374). -/
def tlbAdd (n : Nat) (l : List TlbEntry) (e : TlbEntry) : List TlbEntry :=
  (e :: l.filter fun t => !(decide (t.part = e.part) && t.ctx == e.ctx && t.base == e.base)).take n

/-- Changes a stop's translation state, if there is one of that number. -/
def State.modStop (s : State) (n : Nat) (f : StopTlb → StopTlb) : State :=
  if h : n < 12 then { s with stops := s.stops.set n (f s.stops[n]) } else s

/-- The protection checks of R372 on a leaf. -/
def protOk (leaf : Word) (key : BitVec 4) (kind : AccessKind) : Bool :=
  pteOrd leaf != 3 && (pteKey leaf == key || (pteHost leaf && pteKey leaf == 0xF)) &&
    (kind != .write || pteWr leaf) && (kind != .fetch || pteX leaf)

/-- The physical address of `va` under a leaf (R370). -/
def leafPa (leaf : Word) (level va : Nat) : Nat := (pteFrame leaf).toNat * 2 ^ 16 + va % 2 ^ pageBits level

/-- The TLB an agent asks first: its core's, or for a Sluice element the engine's (R307, R374). -/
def State.ownTlb (s : State) (w : Who) : List TlbEntry :=
  if w.engine then ((s.stops[stopOf w.core]?).map (·.sluice)).getD [] else (s.core w.core).tlb

/-- The entry an access uses: of its own TLB, else of the stop's. One that does not grant a write its D is passed over. (DESIGN CHOICE, log 31.) -/
def State.tlbHit (s : State) (w : Who) (va : Nat) (kind : AccessKind) : Option TlbEntry :=
  let good (t : TlbEntry) : Bool := kind != .write || pteD t.leaf || !pteWr t.leaf
  ((tlbFind (s.ownTlb w) w.part w.ctx va).filter good).or
    ((tlbFind (((s.stops[stopOf w.core]?).map (·.tlb)).getD []) w.part w.ctx va).filter good)

/-- An entry comes into the agent's own TLB. -/
def State.tlbLearn (s : State) (w : Who) (e : TlbEntry) : State :=
  if w.engine then s.modStop (stopOf w.core) fun t => { t with sluice := tlbAdd Config.sluiceTlbEntries t.sluice e }
  else s.modCore w.core fun k => { k with tlb := tlbAdd Config.tlbEntries k.tlb e }

/-- What a walk found comes into the stop's TLB and its cache of non-leaf entries. -/
def State.stopLearn (s : State) (stop : Nat) (e : TlbEntry) (path : List NonLeaf) : State :=
  s.modStop stop fun t =>
    { t with tlb := tlbAdd Config.stopTlbEntries t.tlb e, tables := (path ++ t.tables).take Config.nonLeafEntries }

/-- Translates one access that stays in a page (R372 to R375): a TLB hit that grants what is asked is used; otherwise
the tables are walked and A and D set. -/
def State.translate (s : State) (w : Who) (va : Word) (kind : AccessKind) : MRes Phys :=
  let v := va.toNat % 2 ^ 56
  let key := s.ctxKey w.part w.ctx
  let fk : FaultKind := match kind with | .read => .read | .write => .write | .fetch => .fetch
  let desc := s.ctxAt w.part w.ctx
  match s.tlbHit w v kind with
  | some t =>
    if s.unreadable desc 16 then .fault (s.meetsUe desc) causeMemUe
    else if s.hostHolds desc 16 then .hold s none []
    else if protOk t.leaf key kind then .ok (s.tlbLearn w t) ⟨leafPa t.leaf t.level v, t.leaf⟩ else .fault s causeProtection
  | none =>
    let r := s.walk (stopOf w.core) w.part w.ctx v
    match r.1 with
    | .fail level => .susp s va fk level
    | .ue at' => .fault (s.meetsUe at') causeMemUe
    | .wait => .hold s none []
    | .leaf level at' e =>
      if !protOk e key kind then .fault s causeProtection
      else if kind == .write && pteCkpt e && !pteD e then .susp s va .ckptCopy level
      else
        let e1 := e ||| 0x200 ||| (if kind == .write then 0x400 else 0)
        let s1 := if e1 = e then s else s.writePhys at' (leBytes 8 e1.toNat)
        let b := pageBits level
        let t : TlbEntry := ⟨w.part, w.ctx, v / 2 ^ b * 2 ^ b, level, e1⟩
        .ok ((s1.stopLearn (stopOf w.core) t r.2).tlbLearn w t) ⟨leafPa e1 level v, e1⟩

/-! ### Homes, L1 and replicas -/

/-- The stop that is a physical address's home in its partition (R264). -/
def homeStop (stops : List Nat) (pa : Nat) : Nat :=
  let f := pa / 2 ^ 12 % 2 ^ 40
  let x := f ^^^ (f / 2 ^ 11) ^^^ (f / 2 ^ 23)
  stops.getD (x / 2 % stops.length) 0

/-- Whether a physical address lies among the spare frames of its package, or in the error log (R15, R415, R419). -/
def State.heldBack (s : State) (pa : Nat) : Bool :=
  decide (Config.packageBytes - Config.spareBytes ≤ pa % Config.packageBytes) ||
    (decide (s.errBase ≤ pa) && decide (pa < s.errBase + 64 * Config.errLogSize))

/-- The partition an address of device memory belongs to, by number: the one that owns its package (R15, R18). (DESIGN CHOICE, log 70.) -/
def State.ownerOf (s : State) (pa : Nat) : Option Nat :=
  if s.heldBack pa then none
  else s.parts.findIdx? fun p => p.stops.contains (pa / Config.packageBytes)

/-- Whether no partition's home serves a physical address. -/
def State.noHome (s : State) (pa : Nat) : Bool := (s.ownerOf pa).isNone

/-- The home stop of an address, in the partition that owns it (R15, R264). -/
def State.homeOf (s : State) (pa : Nat) : Option Nat :=
  ((s.ownerOf pa).bind fun n => s.parts[n]?).map fun q => homeStop q.stops pa

/-- The core whose L1 serves a line: the requester's own, or in a fused stop the slice of the line (R263). -/
def State.l1Core (s : State) (core pa : Nat) : Nat :=
  if (s.core core).fused then 8 * stopOf core + ((bitsOf pa 8 6) ^^^ (bitsOf pa 14 12)) else core

/-- The L1 line that holds a physical address, if the requester's L1 does. -/
def State.l1Find (s : State) (core pa : Nat) : Option L1Line :=
  (s.core (s.l1Core core pa)).l1.find? fun l => decide (l.line = lineOf pa)

/-- The home copy of a line. -/
def State.homeLine (s : State) (line : Nat) : BitVec 512 := BitVec.ofNat 512 (leNat (s.readPhys (64 * line) 64))

/-- Bytes of a line's data. -/
def lineBytes (d : BitVec 512) (off n : Nat) : List Byte :=
  (List.range n).map fun i => d.extractLsb' (8 * (off + i)) 8

/-- A line's data with bytes replaced from an offset. -/
def linePut (d : BitVec 512) (off : Nat) (b : List Byte) : BitVec 512 :=
  let n := 8 * b.length
  let sh := 8 * off
  (d &&& ~~~(BitVec.ofNat 512 ((2 ^ n - 1) * 2 ^ sh))) ||| BitVec.ofNat 512 (leNat b * 2 ^ sh)

/-- The number an L1 knows a line of host memory by: past every line of device memory. -/
def hostLineNo (port : Bool) (line : Nat) : Nat := 2 ^ 60 + 2 * line + if port then 1 else 0

/-- A line's data with the bytes a mask selects taken from another. -/
def lineMerge (old new : BitVec 512) (mask : BitVec 64) : BitVec 512 :=
  (List.range 64).foldl (fun d i => if mask.getLsbD i then linePut d i (lineBytes new i 1) else d) old

/-- Writes the written bytes of a line back to its home; a line of host memory goes back to the copy held under the host's
coherence (R391). A replica made before them is older than what the core's loads have read, and is dropped (R265). -/
def State.writeBackLine (s : State) (l : L1Line) : State :=
  if l.dirty = 0 then s
  else if 2 ^ 60 ≤ l.line then
    { s with hostLines := s.hostLines.map fun q =>
        if hostLineNo q.port q.line = l.line then { q with data := lineMerge q.data l.data l.dirty } else q }
  else
    let t := (List.range 64).foldl (fun t i =>
      if l.dirty.getLsbD i then t.writePhys (64 * l.line + i) (lineBytes l.data i 1) else t) s
    { t with replicas := t.replicas.filter fun r => r.line ≠ l.line }

/-- Whether a line cannot go home in this step: it has written bytes, and a host holds the line exclusively (R390). -/
def State.lineHeld (s : State) (l : L1Line) : Bool := l.dirty != 0 && decide (l.line < 2 ^ 60) && s.hostHolds (64 * l.line) 64

/-- The byte mask of a span of a line. -/
def lineMask (off n : Nat) : BitVec 64 := BitVec.ofNat 64 ((2 ^ n - 1) * 2 ^ off)

/-- A line comes into an L1; where it is full (R11, R262), the oldest line there that can go goes, written back if dirty. -/
def State.l1Install (s : State) (core : Nat) (l : L1Line) : State :=
  let s1 :=
    if (s.core core).l1.length < Config.l1Lines then s
    else match (s.core core).l1.find? fun v => !s.lineHeld v with
      | some v => (s.writeBackLine v).modCore core fun k => { k with l1 := k.l1.erase v }
      | none => s
  s1.modCore core fun k => { k with l1 := k.l1 ++ [l] }

/-- Brings the line of a physical address into the L1 that serves it. -/
def State.l1Fill (s : State) (w : Who) (pa : Nat) (leaf : Word) : State :=
  if (s.l1Find w.core pa).isSome then s
  else s.l1Install (s.l1Core w.core pa) ⟨lineOf pa, s.homeLine (lineOf pa), 0, pteOrd leaf == 2, w.part, w.seq⟩

/-- Writes into a held line: `dirty` marks the bytes as yet to go home; otherwise the home takes the write with it, and what
stood dirty there is settled. -/
def State.l1Write (s : State) (core pa : Nat) (b : List Byte) (dirty : Bool) : State :=
  let m := lineMask (pa % 64) b.length
  s.modCore (s.l1Core core pa) fun k =>
    { k with l1 := k.l1.map fun l =>
        if l.line = lineOf pa then
          { l with data := linePut l.data (pa % 64) b, dirty := if dirty then l.dirty ||| m else l.dirty &&& ~~~m }
        else l }

/-- Writes the dirty bytes of a held line back; the line stays. -/
def State.l1Clean (s : State) (core pa : Nat) : State :=
  match s.l1Find core pa with
  | none => s
  | some l =>
    (s.writeBackLine l).modCore (s.l1Core core pa) fun k =>
      { k with l1 := k.l1.map fun q => if q.line = lineOf pa then { q with dirty := 0 } else q }

/-- Writes a held line back, if dirty, and lets it go. -/
def State.l1Drop (s : State) (core pa : Nat) : State :=
  match s.l1Find core pa with
  | none => s
  | some l =>
    (s.writeBackLine l).modCore (s.l1Core core pa) fun k => { k with l1 := k.l1.filter fun q => q.line ≠ lineOf pa }

/-- The L1 made fit for an access by a mapping: a held line goes, written back if dirty, where `fresh` asks for the home's value,
where the page is not L1-cacheable, and where it is of another kind than the one the line was filled under, since the UO line of
an RC page has passed no acquire (R262, R272). -/
def State.l1Fit (s : State) (w : Who) (fresh : Bool) (p : Phys) : State :=
  let alien := match s.l1Find w.core p.pa with
    | some l => l.uo && pteOrd p.leaf != 2
    | none => false
  if fresh || !(pteL1c p.leaf && pteOrd p.leaf != 1) || alien then s.l1Drop w.core p.pa else s

/-- The cores whose L1 a release of `core` writes back: its own, or all of a fused stop (R262, R263). -/
def State.l1Group (s : State) (core : Nat) : List Nat :=
  if (s.core core).fused then (List.range 8).map (8 * stopOf core + ·) else [core]

/-- Writes the dirty lines of a core's L1 that `p` selects back to their homes; the lines stay. -/
def State.l1Settle (p : L1Line → Bool) (s : State) (core : Nat) : State :=
  (((s.core core).l1.filter p).foldl State.writeBackLine s).modCore core fun k =>
    { k with l1 := k.l1.map fun l => if p l then { l with dirty := 0 } else l }

/-- A release at team scope or wider: every dirty line of an RC page goes to its home (R262). -/
def State.l1Release (s : State) (core : Nat) : State := (s.l1Group core).foldl (State.l1Settle fun l => !l.uo) s

/-- An acquire at team scope or wider: no line of an RC page is held afterwards (R262); what was dirty there has gone home. -/
def State.l1Acquire (s : State) (core : Nat) : State :=
  (s.l1Group core).foldl (fun t c => t.modCore c fun k => { k with l1 := k.l1.filter (·.uo) }) (s.l1Release core)

/-- Every dirty line of a core's L1 goes home and every line is dropped. -/
def State.l1Flush (s : State) (core : Nat) : State :=
  let s1 := (s.core core).l1.foldl State.writeBackLine s
  s1.modCore core fun k => { k with l1 := [] }

/-- The L1s that serve the cores of a job are written back and emptied, those of a fused stop with them (R263, R288, R364): a job
that starts, or comes to other cores, finds no older line there. -/
def State.l1FlushAll (s : State) (cores : List Nat) : State := ((cores.flatMap s.l1Group).dedup).foldl State.l1Flush s

/-- Whether a release or an acquire of `core` has to wait: a line of its L1 cannot go home (R390). -/
def State.l1Held (s : State) (core : Nat) : Bool := (s.l1Group core).any fun c => (s.core c).l1.any s.lineHeld

/-- Whether the L1s of some cores cannot be emptied in this step (R390). -/
def State.l1HeldAny (s : State) (cores : List Nat) : Bool := cores.any s.l1Held

/-- Whether a scope is team or wider. -/
def scopeWide : Scope → Bool
  | .stream | .job => false
  | .team | .partition | .system => true

/-- The part of an ordering that is a release (L1 and fences act on it). -/
def State.releaseAt (s : State) (core : Nat) (sc : Scope) : State := if scopeWide sc then s.l1Release core else s

/-- The part of an ordering that is an acquire. -/
def State.acquireAt (s : State) (core : Nat) (sc : Scope) : State := if scopeWide sc then s.l1Acquire core else s

/-- A replica of a line for a launch in a stop (R265). -/
def State.replica? (s : State) (stop part : Nat) (seq : Word) (line : Nat) : Option Replica :=
  s.replicas.find? fun r => decide (r.stop = stop) && decide (r.part = part) && r.seq == seq && decide (r.line = line)

/-! ### Host frames (R391) -/

/-- The host port of a partition (R391, R393). -/
def State.hport (s : State) (part : Nat) : Bool :=
  match s.parts[part]? with
  | some p => p.partcfg.getLsbD 3
  | none => false

/-- Whether a host address lies in a peer window of a port (R397). -/
def State.inPeerWindow (s : State) (port : Bool) (addr : Nat) : Bool :=
  (List.range 4).any fun n =>
    let i := (if port then 4 else 0) + n
    let lo := (s.peerBase.toList.getD i 0).toNat
    let hi := (s.peerLim.toList.getD i 0).toNat
    decide (lo < hi) && decide (lo ≤ addr) && decide (addr < hi)

/-- An access meets an address a port cannot serve, or that comes back in error (R391, R416). -/
def State.portUe (s : State) (port : Bool) (addr : Nat) : State := { s with ueAt := some (if port then 0xB else 0xA, addr) }

/-- Whether a request is the one an access has made over a port. -/
def Who.asked (w : Who) (port : Bool) (addr n : Nat) (data : Option (List Byte)) (r : CxlReq) : Bool :=
  decide (r.port = port) && decide (r.job = w.job) && r.stream == w.stream && decide (r.addr = addr) &&
    decide (r.bytes = n) && decide (r.data = data) && !r.posted &&
    match w.since with | some t => decide (t ≤ r.born) | none => false

/-- An access inside a peer window goes out over the port as it is (R391, R397); its answer is taken where it has arrived,
awaited where it has been asked for. -/
def State.peerAccess (s : State) (w : Who) (port : Bool) (addr n : Nat) (data : Option (List Byte)) : MRes (List Byte) :=
  match s.cxl.find? (w.asked port addr n data) with
  | none => .hold s (some ⟨port, w.job, w.stream, addr, n, data, none, false, false, s.tick⟩) []
  | some r =>
    if r.done then
      let s1 := { s with cxl := s.cxl.eraseP (w.asked port addr n data) }
      match data, r.answer with
      | some _, _ => .ok s1 []
      | none, some b => .ok s1 b
      | none, none => .fault (s1.portUe port addr) causeMemUe
    else .hold s none []

/-- The line of host memory an access needs, held with ownership at the home slice, or the request for it (R391). -/
def State.ownHostLine (s : State) (w : Who) (port : Bool) (line : Nat) : MRes HostLine :=
  match s.hostLines.find? fun l => l.port == port && l.line == line with
  | some l => .ok s l
  | none =>
    let ask (r : CxlReq) : Bool := r.port == port && r.addr == 64 * line && r.bytes == 64 && r.data.isNone && !r.posted
    match s.cxl.find? ask with
    | none => .hold s (some ⟨port, w.job, w.stream, 64 * line, 64, none, none, false, false, s.tick⟩) []
    | some r =>
      if r.done then
        let s1 := { s with cxl := s.cxl.eraseP ask }
        match r.answer with
        | none => .fault (s1.portUe port (64 * line)) causeMemUe
        | some b =>
          let l : HostLine := ⟨port, line, BitVec.ofNat 512 (leNat b), w.part⟩
          .ok { s1 with hostLines := s1.hostLines ++ [l] } l
      else .hold s none []

/-- A write to host memory that is discarded is logged (R391). -/
def State.logLostWrite (s : State) (w : Who) (port : Bool) (addr : Nat) : State :=
  s.logError { ErrRec.blank with
    kind := 7, unit := if port then 0xB else 0xA, addr := addr, seq := w.seq, ctx := w.ctx
    core := if w.core < 96 then w.core else 0xFF, stop := if w.core < 96 then stopOf w.core else 0xFF }

/-- An access to a host frame (R391): through a peer window, or on a line held under the host's coherence. With the link down,
or where the host does not grant the line, a read meets MEM_UE and a write is discarded and logged. What has come of a request made
while the link was up is taken first. -/
def State.hostAccess (s : State) (w : Who) (addr n : Nat) (data : Option (List Byte)) : MRes (List Byte) :=
  let port := s.hport w.part
  if s.inPeerWindow port addr && s.cxl.any (fun r => w.asked port addr n data r && r.done) then s.peerAccess w port addr n data
  else if !s.linkIsUp port then
    match data with
    | none => .fault (s.portUe port addr) causeMemUe
    | some _ => .ok (s.logLostWrite w port addr) []
  else if s.inPeerWindow port addr then s.peerAccess w port addr n data
  else
    match s.ownHostLine w port (lineOf addr), data with
    | .ok s1 l, none => .ok s1 (lineBytes l.data (addr % 64) n)
    | .ok s1 l, some b =>
      .ok { s1 with hostLines := s1.hostLines.map fun q => if q = l then { l with data := linePut l.data (addr % 64) b } else q } []
    | .fault s1 _, some _ => .ok (s1.logLostWrite w port addr) []
    | .fault s1 c, none => .fault s1 c
    | .susp t v k lv, _ => .susp t v k lv
    | .hold t q l, _ => .hold t q l

/-! ### Reads and writes of one part that stays in a page and a line -/

/-- A home read: MEM_UE on an uncorrectable line (R413). A frame retired without a spare is uncorrectable (R419). -/
def State.homeRead (s : State) (pa n : Nat) : MRes (List Byte) :=
  if s.unreadable pa n then .fault (s.meetsUe pa) causeMemUe
  else if s.hostHolds pa n then .hold s none []
  else .ok s (s.readPhys pa n)

/-- A home write; a clean copy a host holds is invalidated as part of it (R390). -/
def State.homeWrite (s : State) (pa : Nat) (b : List Byte) : MRes Unit :=
  if s.hostHolds pa b.length then .hold s none [] else .ok (s.writePhys pa b) ()

/-- What reaching one part may come to at once (R115): PROTECTION where no home serves it; for a write, MEM_UE in a frame retired
without a spare. -/
def State.partFault (s : State) (write : Bool) (p : Phys) : Option (BitVec 8) :=
  if pteHost p.leaf then none
  else if s.noHome p.pa then some causeProtection
  else if write && s.flash.retired.contains (p.pa / 2 ^ 16) then some causeMemUe
  else none

/-- Whether a page's lines may stand in an L1 (R262). -/
def cacheable (leaf : Word) : Bool := pteL1c leaf && pteOrd leaf != 1

/-- Whether a host frame's lines may stand in an L1: L1C is ignored inside a peer window (R391). -/
def State.hostCacheable (s : State) (w : Who) (p : Phys) : Bool :=
  cacheable p.leaf && !s.inPeerWindow (s.hport w.part) p.pa

/-- The L1 line that holds a line of host memory, if the requester's L1 does. -/
def State.hostL1 (s : State) (w : Who) (pa : Nat) : Option L1Line :=
  (s.core (s.l1Core w.core pa)).l1.find? fun l => decide (l.line = hostLineNo (s.hport w.part) (lineOf pa))

/-- The L1 made fit for an access of a line of host memory, as `State.l1Fit` has it. -/
def State.hostFit (s : State) (w : Who) (fresh : Bool) (p : Phys) : State :=
  match s.hostL1 w p.pa with
  | none => s
  | some l =>
    if fresh || !s.hostCacheable w p || (l.uo && pteOrd p.leaf != 2) then
      (s.writeBackLine l).modCore (s.l1Core w.core p.pa) fun k => { k with l1 := k.l1.erase l }
    else s

/-- Reads a part of a host frame (R391): by L1C from the L1. -/
def State.hostRead (s : State) (w : Who) (fresh fill : Bool) (p : Phys) (n : Nat) : MRes (List Byte) :=
  let s0 := s.hostFit w fresh p
  match s0.hostL1 w p.pa with
  | some l => .ok s0 (lineBytes l.data (p.pa % 64) n)
  | none =>
    (s0.hostAccess w p.pa n none).bind fun s1 b =>
      match s1.hostLines.find? fun l => l.port == s.hport w.part && l.line == lineOf p.pa with
      | some l =>
        .ok (if fill && !fresh && s1.hostCacheable w p then
          s1.l1Install (s1.l1Core w.core p.pa) ⟨hostLineNo l.port l.line, l.data, 0, pteOrd p.leaf == 2, w.part, w.seq⟩ else s1) b
      | none => .ok s1 b

/-- Writes a part of a host frame (R391). By L1C the write stays in the L1, written there and back as R262 has it, once the line is
held under the host's coherence; `home` marks one that goes to the line held in L2. -/
def State.hostWrite (s : State) (w : Who) (home : Bool) (p : Phys) (b : List Byte) : MRes Unit :=
  if home || !s.hostCacheable w p then ((s.hostFit w true p).hostAccess w p.pa b.length (some b)).bind fun s1 _ => .ok s1 ()
  else if !s.linkIsUp (s.hport w.part) then (s.hostAccess w p.pa b.length (some b)).bind fun s1 _ => .ok s1 ()
  else
    (s.hostRead w false true p b.length).bind fun s1 _ =>
      let no := hostLineNo (s.hport w.part) (lineOf p.pa)
      .ok (s1.modCore (s1.l1Core w.core p.pa) fun k =>
        { k with l1 := k.l1.map fun l =>
            if l.line = no then
              { l with data := linePut l.data (p.pa % 64) b, dirty := l.dirty ||| lineMask (p.pa % 64) b.length }
            else l }) ()

/-- A launch's replica of a line in a stop is dropped: what its path 0x1 loads have read since may be newer (R265). -/
def State.forgetReplica (s : State) (w : Who) (pa : Nat) : State :=
  { s with replicas := s.replicas.filter fun r =>
      !(decide (r.stop = stopOf w.core) && decide (r.part = w.part) && r.seq == w.seq && decide (r.line = lineOf pa)) }

/-- Reads a part from the replica of the requester's stop, or from its home, where `repl` with a new replica (R265). (DESIGN CHOICE, log 113.) -/
def State.replicaRead (s : State) (w : Who) (repl : Bool) (p : Phys) (n : Nat) : MRes (List Byte) :=
  let stop := stopOf w.core
  if !pteRepl p.leaf ∨ (s.homeOf p.pa).getD stop = stop then s.homeRead p.pa n
  else
    match s.replica? stop w.part w.seq (lineOf p.pa) with
    | some r => if s.unreadable p.pa n then .fault (s.meetsUe p.pa) causeMemUe else .ok s (lineBytes r.data (p.pa % 64) n)
    | none =>
      (s.homeRead p.pa n).bind fun s1 b =>
        .ok (if repl then
          { s1 with replicas := s1.replicas ++ [⟨stop, w.part, w.seq, lineOf p.pa, s1.homeLine (lineOf p.pa)⟩] } else s1) b

/-- Reads a part as a word's load does (R260, R262, R265): a line held in L1 serves it, also on paths 0x1 and 0x2; a miss on 0x0 or
0x1 of an L1-cacheable page allocates. `fresh` marks an acquire that reads the home: no line of it stays in L1. An SO page, or
one that is not L1-cacheable, is read at its home. (DESIGN CHOICE, log 32.) -/
def State.readPart (s : State) (w : Who) (path : Nat) (fresh : Bool) (p : Phys) (n : Nat) : MRes (List Byte) :=
  if pteHost p.leaf then s.hostRead w fresh (path != 2) p n
  else if s.noHome p.pa then .fault s causeProtection
  else
    let s0 := s.l1Fit w fresh p
    match s0.l1Find w.core p.pa with
    | some l =>
      if s0.unreadable p.pa n then .fault (s0.meetsUe p.pa) causeMemUe
      else .ok (if path = 1 then s0.forgetReplica w p.pa else s0) (lineBytes l.data (p.pa % 64) n)
    | none =>
      let near := path = 1 ∧ fresh = false ∧ pteOrd p.leaf ≠ 1
      let s1 := if path = 1 ∧ ¬near then s0.forgetReplica w p.pa else s0
      let old := near ∧ (s1.replica? (stopOf w.core) w.part w.seq (lineOf p.pa)).isSome
      (if near then s1.replicaRead w true p n else s1.homeRead p.pa n).bind fun s2 b =>
        .ok (if path ≠ 2 ∧ cacheable p.leaf = true ∧ fresh = false ∧ ¬old then s2.l1Fill w p.pa p.leaf else s2) b

/-- Reads a part as the core's commands, Sluice front and code feeds do (R262, R266, R276, R312): the core's L1 lets the line go,
written back if dirty, and the home is read, or on path 0x1 a replica, made only where `repl` asks for it (R187); a Sluice element is
read at its home. Nothing is allocated in L1. -/
def State.agentPart (s : State) (w : Who) (path : Nat) (repl acq : Bool) (p : Phys) (n : Nat) : MRes (List Byte) :=
  if pteHost p.leaf then s.hostRead w true false p n
  else if s.noHome p.pa then .fault s causeProtection
  else
    let s1 := s.l1Drop w.core p.pa
    if path = 1 ∧ acq = false ∧ pteOrd p.leaf ≠ 1 ∧ (w.engine = false ∨ repl = true) then s1.replicaRead w repl p n
    else s1.homeRead p.pa n

/-- Writes a part through a path (R260, R262): a line held in L1 is updated in place, a miss on path 0x0 of an L1-cacheable page
allocates, and anything else goes home. `direct` marks a command's or a Sluice engine's write and a release: it goes home after what the L1
holds dirty of the line (R283), with a held line brought up to date. -/
def State.writePart (s : State) (w : Who) (path : Nat) (direct : Bool) (p : Phys) (b : List Byte) : MRes Unit :=
  if pteHost p.leaf then s.hostWrite w (direct || path != 0) p b
  else
    match s.partFault true p with
    | some c => .fault (if c = causeMemUe then s.meetsUe p.pa else s) c
    | none =>
      let s0 := s.l1Fit w false p
      if !cacheable p.leaf then s0.homeWrite p.pa b
      else if direct then ((s0.l1Clean w.core p.pa).homeWrite p.pa b).bind fun s1 _ => .ok (s1.l1Write w.core p.pa b false) ()
      else if path = 0 ∨ (s0.l1Find w.core p.pa).isSome = true then
        if s0.hostHolds p.pa b.length then .hold s none []
        else
          let s1 := (s0.l1Fill w p.pa p.leaf).l1Write w.core p.pa b true
          .ok { s1 with memBad := clearBad s1.memBad p.pa b.length } ()
      else s0.homeWrite p.pa b

/-! ### Whole accesses: parts by page and line -/

/-- Cuts `n` bytes at `va` at 64-byte lines, hence at pages too (R115). Fuel bounds the cuts. -/
def cutLines (va n : Nat) : Nat → List (Nat × Nat)
  | 0 => []
  | f + 1 =>
    if n = 0 then []
    else
      let k := min n (64 - va % 64)
      (va, k) :: cutLines (va + k) (n - k) f

/-- The lines of an access. -/
def linesOf (va n : Nat) : List (Nat × Nat) := cutLines va n (n / 64 + 2)

/-- The virtual address of a part on the access's path: bits [55:0] wrap within the path (R186). -/
def onPath (va : Word) (x : Nat) : Word :=
  BitVec.ofNat 64 (va.toNat / 2 ^ 56 * 2 ^ 56 + x % 2 ^ 56)

/-- Translates every part of an access. Of several failing parts, a translation failure ranks first (R115). -/
def State.translateAll (w : Who) (va : Word) (kind : AccessKind) :
    List (Nat × Nat) → State → MRes (List (Phys × Nat))
  | [], s => .ok s []
  | (a, n) :: t, s =>
    match s.translate w (onPath va a) kind with
    | .ok s1 p =>
      (State.translateAll w va kind t s1).bind fun s2 l => .ok s2 ((p, n) :: l)
    | .fault s1 c =>
      match State.translateAll w va kind t s1 with
      | .susp s2 v k l => .susp s2 v k l
      | .fault s2 c2 => .fault s2 (if causeRank c2 < causeRank c then c2 else c)
      | .ok s2 _ => .fault s2 c
      | _ => .fault s1 c
    | .susp s1 v k l => .susp s1 v k l
    | .hold s1 q l => .hold s1 q l

/-- Reads every part. -/
def State.readAll (w : Who) (path : Nat) (acq : Bool) : List (Phys × Nat) → State → MRes (List Byte)
  | [], s => .ok s []
  | (p, n) :: t, s =>
    (s.readPart w path acq p n).bind fun s1 b =>
      (State.readAll w path acq t s1).bind fun s2 c => .ok s2 (b ++ c)

/-- Writes every part. -/
def State.writeAll (w : Who) (path : Nat) (direct : Bool) : List (Phys × Nat) → List Byte → State → MRes Unit
  | [], _, s => .ok s ()
  | (p, n) :: t, b, s =>
    (s.writePart w path direct p (b.take n)).bind fun s1 _ => State.writeAll w path direct t (b.drop n) s1

/-- The parts of an access, translated: those its word has begun it with, where it awaits an answer (R373, R377). -/
def State.partsOf (s : State) (w : Who) (va : Word) (n : Nat) (kind : AccessKind) : MRes (List (Phys × Nat)) :=
  if w.parts.isEmpty then State.translateAll w va kind (linesOf (va.toNat % 2 ^ 56) n) s else .ok s w.parts

/-- Translates every part of an access and makes sure that each can be reached: of several causes the first of R80 (R115). -/
def State.reachAll (s : State) (w : Who) (va : Word) (n : Nat) (write : Bool) : MRes (List (Phys × Nat)) :=
  (s.partsOf w va n (if write then .write else .read)).bind fun s1 l =>
    let bad := l.filterMap fun q => s1.partFault write q.1
    if bad.contains causeProtection then .fault s1 causeProtection
    else match bad with
      | c :: _ => .fault (s1.meetsUe (((l.head?).map (·.1.pa)).getD 0)) c
      | [] => .ok s1 l

/-- Reads `n` bytes of memory at `va` on a translated path. -/
def State.memRead (s : State) (w : Who) (va : Word) (n : Nat) (fresh : Bool) : MRes (List Byte) :=
  (s.reachAll w va n false).bind fun s1 l => (State.readAll w (va.toNat / 2 ^ 56) fresh l s1).latch s1 l

/-- Writes bytes to memory at `va` on a translated path. No part is written unless every part may be (R115). -/
def State.memWrite (s : State) (w : Who) (va : Word) (b : List Byte) (direct : Bool) : MRes Unit :=
  (s.reachAll w va b.length true).bind fun s1 l => (State.writeAll w (va.toNat / 2 ^ 56) direct l b s1).latch s1 l

/-! ### Scratchpad paths (R261, R267) -/

/-- The core and offset an address on paths 0x3 to 0x5 names; none where a bit outside the fields is set or the core
does not exist (R261). -/
def scratchTarget (core : Nat) (va : Word) : Option (Nat × Nat) :=
  let a := va.toNat % 2 ^ 56
  let off := a % 2 ^ 22
  match va.toNat / 2 ^ 56 % 16 with
  | 3 => if a < 2 ^ 22 then some (core, off) else none
  | 4 => if a < 2 ^ 25 then some (8 * stopOf core + a / 2 ^ 22, off) else none
  | 5 => if a < 2 ^ 29 ∧ a / 2 ^ 22 < 96 then some (a / 2 ^ 22, off) else none
  | _ => none

/-- The job whose scratchpad a peer access reaches: one of the requester's own team and class, not swapped out
(R267). -/
def State.peerJob (s : State) (w : Who) (core : Nat) : Option Nat :=
  let k := s.core core
  match if w.urgent then k.urgent else k.normal with
  | none => none
  | some n =>
    match s.jobs[n]? with
    | none => none
    | some j =>
      if j.mem.part = w.part ∧ j.mem.seq = w.seq ∧ j.mem.team = w.team ∧ (j.phase = Phase.running ∨ j.phase = Phase.loading)
      then some n else none

/-- Reads a scratchpad by path. The requester's own is checked against its own windows and raises BOUND; a peer that
refuses raises PROTECTION (R247, R267). -/
def State.scratchRead (s : State) (w : Who) (va : Word) (n : Nat) : MRes (List Byte) :=
  match scratchTarget w.core va with
  | none => .fault s causeProtection
  | some (core, off) =>
    if core = w.core ∨ s.peerJob w core = some w.job then
      match s.jobs[w.job]? with
      | none => .fault s causeProtection
      | some j =>
        match j.spLoad w.slot off n with
        | .ok b => .ok s b
        | .fault c => .fault { s with ueAt := j.spUe w.slot off n } c
        | .full => .hold s none []
    else
      match s.peerJob w core with
      | none => .fault s causeProtection
      | some t =>
        match s.jobs[t]? with
        | none => .fault s causeProtection
        | some j =>
          if !(j.spanOk off n) then .fault s causeProtection
          else if unitsTouch j.spBad off n then .fault { s with ueAt := j.spUe none off n } causeMemUe
          else .ok s (cellGetN j.sp off n)

/-- Writes a scratchpad by path. -/
def State.scratchWrite (s : State) (w : Who) (va : Word) (b : List Byte) : MRes Unit :=
  match scratchTarget w.core va with
  | none => .fault s causeProtection
  | some (core, off) =>
    if core = w.core ∨ s.peerJob w core = some w.job then
      match s.jobs[w.job]? with
      | none => .fault s causeProtection
      | some j =>
        match j.spStore w.slot off b with
        | .ok j1 => .ok (s.setJob w.job j1) ()
        | .fault c => .fault s c
        | .full => .hold s none []
    else
      match s.peerJob w core with
      | none => .fault s causeProtection
      | some t =>
        match s.jobs[t]? with
        | none => .fault s causeProtection
        | some j => if j.spanOk off b.length then .ok (s.setJob t (j.spPut off b)) () else .fault s causeProtection

/-- Whether an address's path is a scratchpad's. -/
def isScratchPath (va : Word) : Bool :=
  decide (3 ≤ va.toNat / 2 ^ 56) && decide (va.toNat / 2 ^ 56 ≤ 5)

/-- Reads `n` bytes through whichever path the address names, paths 0x0 to 0x5. -/
def State.readVia (s : State) (w : Who) (va : Word) (n : Nat) (acq : Bool) : MRes (List Byte) :=
  if isScratchPath va then s.scratchRead w va n else s.memRead w va n acq

/-- Writes bytes through whichever path the address names. -/
def State.writeVia (s : State) (w : Who) (va : Word) (b : List Byte) (direct : Bool) : MRes Unit :=
  if isScratchPath va then s.scratchWrite w va b else s.memWrite w va b direct

/-- Reads every part as an agent of the core. -/
def State.agentAll (w : Who) (path : Nat) (repl acq : Bool) : List (Phys × Nat) → State → MRes (List Byte)
  | [], s => .ok s []
  | (p, n) :: t, s =>
    (s.agentPart w path repl acq p n).bind fun s1 b =>
      (State.agentAll w path repl acq t s1).bind fun s2 c => .ok s2 (b ++ c)

/-- Reads through whichever path the address names as the core's commands, Sluice front and code feeds do. -/
def State.agentRead (s : State) (w : Who) (va : Word) (n : Nat) (repl acq : Bool) : MRes (List Byte) :=
  if isScratchPath va then s.scratchRead w va n
  else (s.reachAll w va n false).bind fun s1 l => (State.agentAll w (va.toNat / 2 ^ 56) repl acq l s1).latch s1 l

/-! ### A word's access: what a fault becomes (R115, R375) -/

/-- What the walks from `s` to `t` have left, where nothing else of the step stands: the TLBs, and A and D of the entries learnt (R373,
R374). -/
def State.keepWalks (s : State) (w : Who) (t : State) : State :=
  let new := (t.ownTlb w).filter fun e => !(s.ownTlb w).contains e
  let s1 := new.foldl (fun u e =>
    match (s.walk (stopOf w.core) e.part e.ctx e.base).1 with
    | .leaf _ at' x => u.writePhys at' (leBytes 8 (x ||| (e.leaf &&& 0x600)).toNat)
    | _ => u) s
  if new.isEmpty then s else { s1.modCore w.core (fun k => { k with tlb := (t.core w.core).tlb }) with stops := t.stops }

/-- Turns an access of a word into the word's result: a translation failure suspends the job and the word is issued
again once serviced, or raises TRANSLATION in a timed job; a speculative iteration is held, a guess gives none
(R293, R297, R375); a word that has to wait for a host has issued (R57) and goes on with the translation it has once the answer is
there (R377). What the access's walks have left stands whatever it comes to (R373); `keep` says that its word does nothing else
before it faults, and goes on with this translation. -/
def ofAccess {α : Type} (keep : Bool) (c : Cursor) (w : Who) (s : State) (r : MRes α) (f : State → α → WRes) : WRes :=
  let left (t : State) : State := if keep then t else s.keepWalks w t
  match r with
  | .ok s1 x => f s1 x
  | .fault s1 cause => .fail { (left s1) with ueAt := s1.ueAt } cause
  | .susp s1 va kind level =>
    if w.timed then .fail (left s1) causeTranslation
    else
      match s.jobs[w.job]? with
      | none => .raise causeTranslation
      | some j =>
        if j.speculative c.slot then .fail (left s1) causeTranslation
        else .stop (((left s1).rollback c).suspendJob w.job
          ⟨va, kind, level, w.core, if c.slot.isSome then .c else c.stream, w.tpc, c.slot, false⟩)
  | .hold s1 q l =>
    let t := ((left s1).rollback c).modRegs c.job c.stream c.slot fun r =>
      { r with out := some ⟨(r.out.map (·.since)).getD s.tick, if keep then l else []⟩ }
    .stop { t with cxl := t.cxl ++ q.toList }

/-- Whether an ordering at a scope has to wait for a host to let a line of the core's L1 go (R390). -/
def State.ordHeld (s : State) (core : Nat) (sc : Scope) : Bool := scopeWide sc && s.l1Held core

/-- A word that has issued and waits, with what its access has begun. -/
def waits (c : Cursor) (w : Who) (s : State) : WRes := ofAccess (α := Unit) true c w s (.hold s none w.parts) fun s1 _ => .stop s1

@[inherit_doc ofAccess]
def ofMem {α : Type} (c : Cursor) (w : Who) (s : State) (r : MRes α) (f : State → α → WRes) : WRes := ofAccess false c w s r f

end Sys2Proof.Machine
end

