-- ==== Sys2Proof/Machine/Csr.lean ====
section
/-! DEFINITION. The stream control and status registers (R229): reading and writing one by number. -/

namespace Sys2Proof.Machine

/-- SSTAT of a stream (R229). -/
def sstatWord (j : Job) (x : StreamId) : Word :=
  BitVec.ofNat 64 (x.num + (if j.discarded then 8 else 0) + (if j.det then 16 else 0) + (if j.timed then 32 else 0) +
    (if j.urgent then 64 else 0) + (if x = .c ∧ j.handler.isSome then 128 else 0))

/-- The value of CSR `n` of stream `x` (or of the slot's C); none where the number is not in the table or not present
in that stream (R229). KEPT registers are present in another stream only. -/
def csrRead (j : Job) (now : Nat) (own : Bool) (x : StreamId) (slot : Option Nat) (n : Nat) : Option Word :=
  let t := j.regs x slot
  match n with
  | 0x000 => some t.fpctl
  | 0x001 => some t.fpflg
  | 0x002 => some t.stamp
  | 0x003 => some t.age
  | 0x004 => if x = .m then some t.lgate else none
  | 0x005 => some (sstatWord j x)
  | 0x006 => some (BitVec.ofNat 64 j.jstart)
  | 0x007 => some (BitVec.ofNat 64 now)
  | 0x010 => some t.tcause
  | 0x011 => some t.tpc
  | 0x012 => some t.tlane
  | 0x013 => some t.tinfo
  | 0x014 => some t.thandler
  | 0x015 => if x = .c then some t.tresume else none
  | _ =>
    if 0x040 ≤ n ∧ n ≤ 0x04F then some (j.discmap.extractLsb' (64 * (n - 0x040)) 64)
    else if h : 0x100 ≤ n ∧ n ≤ 0x10F then (if own then none else some (t.k[n - 0x100]'(by omega)))
    else none

/-- A written value CSR `n` accepts: no reserved bit set, every field in its range (R7, R26, R36, R229). -/
def csrValueOk (n : Nat) (v : Word) : Bool :=
  match n with
  | 0x000 => v &&& 0xFFFF_FFFF_FFF0_00F8 == 0 && decide ((v.extractLsb' 0 3).toNat ≤ 4) && v.extractLsb' 14 3 != 0
  | 0x001 => v &&& 0xFFFF_FFFF_FFFF_FFE0 == 0
  | 0x003 => decide (16 ≤ v.toNat) && decide (v.toNat ≤ 65535)
  | 0x004 => decide (64 ≤ v.toNat) && decide (v.toNat ≤ 1048576)
  | 0x010 => v &&& 0xFFFF_FFFF_FFFF_FF00 == 0
  | 0x012 => v &&& 0xFFFF_FFFF_FFFF_FF00 == 0
  | 0x013 => v &&& 0x0000_0000_FFFF_00F0 == 0
  | _ => true

/-- The registers after CSR `n` is written; none where it is read-only (R229). The caller has checked that it is
present. -/
def csrWrite (t : StreamSt) (n : Nat) (v : Word) : Option StreamSt :=
  match n with
  | 0x000 => some { t with fpctl := v }
  | 0x001 => some { t with fpflg := v }
  | 0x002 => some { t with stamp := v }
  | 0x003 => some { t with age := v }
  | 0x004 => some { t with lgate := v }
  | 0x010 => some { t with tcause := v }
  | 0x011 => some { t with tpc := v }
  | 0x012 => some { t with tlane := v }
  | 0x013 => some { t with tinfo := v }
  | 0x014 => some { t with thandler := v }
  | 0x015 => some { t with tresume := v }
  | _ => if h : 0x100 ≤ n ∧ n ≤ 0x10F then some { t with k := t.k.set (n - 0x100) v (by omega) } else none

/-- The stream a CSR word's SEL names, and whether it is the issuer (R229): another stream only in C's handler. The
second result is the slot whose C a proof slot's handler reaches. (DEDUCED, log 90.) -/
def csrTarget (j : Job) (x : StreamId) (slot : Option Nat) (sel : BitVec 3) : Option (StreamId × Option Nat × Bool) :=
  if sel = 7 then some (x, slot, true)
  else
    match StreamId.ofNum sel.toNat with
    | none => none
    | some y =>
      if y = x then some (x, slot, true)
      else if x = .c ∧ j.handler.isSome then some (y, none, false) else none

/-- The control path's load (R261): the capability block, or a stream CSR of the job as C reads it; a CSR not present reads zero. -/
def State.controlRead (s : State) (j : Job) (slot : Option Nat) (off : Nat) : Option Word :=
  if off < 0x1000 then some (BitVec.ofNat 64 (leNat ((s.capblock.drop off).take 8)))
  else if 0x1_0000 ≤ off ∧ off < 0x1_5000 then
    let x := (StreamId.ofNum ((off - 0x1_0000) / 0x1000)).getD .c
    let n := off % 0x1000 / 8
    some ((csrRead j s.tick (x == .c) x (if x = .c then slot else none) n).getD 0)
  else none

end Sys2Proof.Machine
end

