-- ==== Sys2Proof/Machine/Mem.lean ====
section
/-! DEFINITION. Meanings of the loads, stores and atomics of the scalar streams (R111 to R115, R213 to R214). -/

namespace Sys2Proof.Machine

/-! ### Scratchpad -/

/-- LDS (R111). (DESIGN CHOICE, log 32.) -/
def execLds (h : Hdr) (d : Dest) (a : Src) (size : BitVec 2) (sgn : Bool) (off : BitVec 21) (s : State) :
    Host.Outcome State Fault Refusal :=
  scalarWord h [a] (some a) (some d) (fun c j s =>
    match j.spLoad c.slot (smAddr (c.regs.src a) off).toNat (sizeBytes size) with
    | .ok b => .ok s (extendLoad sgn b) none
    | .fault e => s.raiseOwn (j.spUe c.slot (smAddr (c.regs.src a) off).toNat (sizeBytes size)) e
    | .full => .stall) s

/-- STS (R111). (DESIGN CHOICE, log 32.) -/
def execSts (h : Hdr) (src a : Src) (size : BitVec 2) (off : BitVec 21) (s : State) : Host.Outcome State Fault Refusal :=
  scalarWord h [src, a] (some a) none (fun c j s =>
    match j.spStore c.slot (smAddr (c.regs.src a) off).toNat (leBytes (sizeBytes size) (c.regs.src src).toNat) with
    | .ok j1 => .ok (s.setJob c.job j1) c.value none
    | .fault e => .raise e
    | .full => .stall) s

/-! ### LD and ST -/

/-- The offset of an ordering field (R113). -/
def ordOffset : MemOrd → Word
  | .rlx off => off.signExtend 64
  | .ordered _ off => off.signExtend 64

/-- Whether an access carries .acq or .rel. -/
def ordIs : MemOrd → Bool
  | .rlx _ => false
  | .ordered _ _ => true

/-- The scope of an ordering; stream where it has none. -/
def ordScope : MemOrd → Scope
  | .rlx _ => .stream
  | .ordered sc _ => sc

/-- The path bits of an address (R260). -/
def pathOf (va : Word) : Nat := (va.extractLsb' 56 4).toNat

/-- What an address's own bits forbid a load or store: bits [63:60] set, or a path of 0x7 or more (R113). -/
def badPointer (va : Word) : Bool := va.extractLsb' 60 4 != 0 || decide (7 ≤ pathOf va)

/-- Whether any page of an access is strongly ordered, or (for a write) a host location: such an access of a speculative
iteration waits (R296). -/
def State.pageWaits (s : State) (w : Who) (va : Word) (n : Nat) (kind : AccessKind) : Bool :=
  match s.partsOf w va n kind with
  | .ok _ l => l.any fun p => pteOrd p.1.leaf == 1 || (kind == .write && pteHost p.1.leaf)
  | _ => false

/-- The locations of translated parts, byte by byte: physical addresses, host frames past every device address. -/
def partBytes (l : List (Phys × Nat)) : List Nat :=
  l.flatMap fun q => (List.range q.2).map fun i => (if pteHost q.1.leaf then 2 ^ 60 else 0) + q.1.pa + i

/-- The locations of an access of a word, byte by byte; none where it does not translate. A scratchpad byte is named by its core. -/
def State.locations (s : State) (w : Who) (va : Word) (n : Nat) (kind : AccessKind) : List Nat :=
  if isScratchPath va then
    match scratchTarget w.core va with
    | some (core, off) => (List.range n).map fun i => 2 ^ 61 + core * 2 ^ 24 + off + i
    | none => []
  else
    match s.partsOf w va n kind with
    | .ok _ l => partBytes l
    | _ => []

/-- The bytes a load of a slot's word sees: its own buffered stores over what memory holds (R296). -/
def seeOwn (s : State) (w : Who) (j : Job) (va : Word) (b : List Byte) : List Byte :=
  match j.iter? w.slot with
  | none => b
  | some it => ((s.locations w va b.length .read).zip b).map fun p => overlayMem it.stores p.1 p.2

/-- LD (R113 to R115). -/
def execLd (h : Hdr) (d : Dest) (a : Src) (size : BitVec 2) (sgn : Bool) (ord : MemOrd) (s : State) :
    Host.Outcome State Fault Refusal :=
  scalarWord h [a] (some a) (some d) (fun c j s =>
    let va := c.regs.src a + ordOffset ord
    let n := sizeBytes size
    let acq := ordIs ord
    let w := c.who j
    if (acq ∧ va.toNat % n ≠ 0) ∨ (pathOf va = 6 ∧ va.extractLsb' 60 4 = 0 ∧ (n ≠ 8 ∨ va.toNat % 8 ≠ 0)) then
      .raise causeMisaligned
    else if badPointer va then .raise causeProtection
    else if pathOf va = 6 then
      match s.controlRead j c.slot (va.toNat % 2 ^ 56) with
      | some v => if acq && s.ordHeld w.core (ordScope ord) then waits c w s else .ok (if acq then s.acquireAt w.core (ordScope ord) else s) v none
      | none => .raise causeProtection
    else if acq && s.ordHeld w.core (ordScope ord) then waits c w s
    else if j.speculative c.slot && !isScratchPath va && s.pageWaits w va n .read then .stall
    else
      ofAccess true c w s (s.readVia w va n (acq && (scopeWide (ordScope ord) || pathOf va == 1))) fun s1 b =>
        .ok (if acq then s1.acquireAt w.core (ordScope ord) else s1) (extendLoad sgn (seeOwn s1 w j va b)) none) s

/-- A store to path 0x1: PROTECTION, but that a translation failure comes first (R80, R115). -/
def State.storeReadOnly (s : State) (c : Cursor) (w : Who) (va : Word) (n : Nat) : WRes :=
  match s.partsOf w va n .read with
  | .susp s1 v _ l => ofAccess (α := Unit) true c w s (.susp s1 v .write l) fun _ _ => .raise causeProtection
  | .hold s1 q l => ofAccess (α := Unit) true c w s (.hold s1 q l) fun _ _ => .raise causeProtection
  | _ => .raise causeProtection

/-- ST (R113 to R115). A `.rel` store at team scope or wider first writes the core's dirty lines back and goes home
itself (R262, R275); a speculative iteration's store is buffered (R296). -/
def execSt (h : Hdr) (src a : Src) (size : BitVec 2) (ord : MemOrd) (s : State) : Host.Outcome State Fault Refusal :=
  scalarWord h [src, a] (some a) none (fun c j s =>
    let va := c.regs.src a + ordOffset ord
    let n := sizeBytes size
    let rel := ordIs ord
    let w := c.who j
    let data := leBytes n (c.regs.src src).toNat
    let buffer : WRes :=
      match j.bufferStore c.slot (.mem va data (if rel then some (ordScope ord) else none) (s.locations w va n .write)) with
      | some j1 => .ok (s.setJob c.job j1) c.value none
      | none => .stall
    if rel ∧ va.toNat % n ≠ 0 then .raise causeMisaligned
    else if badPointer va ∨ pathOf va = 6 then .raise causeProtection
    else if pathOf va = 1 then s.storeReadOnly c w va n
    else if j.speculative c.slot then
      if isScratchPath va then
        match scratchTarget w.core va with
        | none => .raise causeProtection
        | some (core, off) =>
          if core = w.core ∨ s.peerJob w core = some w.job then
            match j.spStore c.slot off data with
            | .ok j1 => .ok (s.setJob c.job j1) c.value none
            | .fault e => .raise e
            | .full => .stall
          else if ((s.peerJob w core).bind fun t => s.jobs[t]?).any fun t => t.spanOk off n then buffer
          else .raise causeProtection
      else if s.pageWaits w va n .write then .stall
      else ofAccess true c w s (s.reachAll w va n true) fun _ _ => buffer
    else if rel && s.ordHeld w.core (ordScope ord) then waits c w s
    else
      let wide := rel && scopeWide (ordScope ord)
      let s0 := if wide then s.l1Release w.core else s
      ofAccess true c w s (s0.writeVia w va data wide) fun s1 _ => .ok s1 c.value none) s

/-! ### Atomics (R214) -/

/-- The read part acquires. -/
def rmwAcq : RmwOrd → Bool
  | .acq | .ar => true
  | .rlx | .rel => false

/-- The write part releases. -/
def rmwRel : RmwOrd → Bool
  | .rel | .ar => true
  | .rlx | .acq => false

/-- The location of an atomic: a memory part already translated, or a scratchpad. -/
inductive RmwAt where
  | mem (p : Phys)
  | scratch (va : Word)
  deriving DecidableEq, Repr

/-- The checks of R214 on an atomic's address, in the order of R80. -/
def rmwAddrCheck (va : Word) (n : Nat) : Option (BitVec 8) :=
  if va.toNat % n ≠ 0 then some causeMisaligned
  else if va.extractLsb' 60 4 ≠ 0 ∨ pathOf va = 1 ∨ pathOf va = 6 ∨ 7 ≤ pathOf va then some causeProtection
  else none

/-- Finds the location of an atomic: the page must allow writes and be neither unordered nor a peer's (R214, R391). -/
def State.rmwFind (s : State) (w : Who) (va : Word) : MRes RmwAt :=
  if isScratchPath va then .ok s (.scratch va)
  else
    (match w.parts with | q :: _ => MRes.ok s q.1 | [] => s.translate w va .write).bind fun s1 p =>
      if pteOrd p.leaf = 2 then .fault s1 causeProtection
      else if pteHost p.leaf && s1.inPeerWindow (s1.hport w.part) p.pa then .fault s1 causeProtection
      else .ok s1 (.mem p)

/-- Reads, computes and writes in one step at the location's home: `f` gives the new bytes, or none where nothing is
written (a failed ACAS), and the exceptions. -/
def State.rmw (s : State) (w : Who) (va : Word) (n : Nat) (f : Nat → Option Nat × BitVec 5) :
    MRes (Nat × BitVec 5) :=
  (s.rmwFind w va).bind fun s1 loc =>
    match loc with
    | .scratch a =>
      (s1.scratchRead w a n).bind fun s2 b =>
        let r := f (leNat b)
        match r.1 with
        | none => .ok s2 (leNat b, r.2)
        | some v => (s2.scratchWrite w a (leBytes n v)).bind fun s3 _ => .ok s3 (leNat b, r.2)
    | .mem p =>
      if pteHost p.leaf then
        (((s1.hostFit w true p).hostAccess w p.pa n none).bind fun s2 b =>
          let r := f (leNat b)
          match r.1 with
          | none => .ok s2 (leNat b, r.2)
          | some v => (s2.hostWrite w true p (leBytes n v)).bind fun s3 _ => .ok s3 (leNat b, r.2)).latch s1 [(p, n)]
      else if s1.noHome p.pa then .fault s1 causeProtection
      else
        let s2 := s1.l1Drop w.core p.pa
        ((s2.homeRead p.pa n).bind fun s3 b =>
          let r := f (leNat b)
          match r.1 with
          | none => .ok s3 (leNat b, r.2)
          | some v => (s3.homeWrite p.pa (leBytes n v)).bind fun s4 _ => .ok s4 (leNat b, r.2)).latch s1 [(p, n)]

/-- An atomic word (R214): its checks, its ordering, its indivisible step, and the old value it yields. -/
def rmwWord (h : Hdr) (uses : List Src) (d : Dest) (a : Src) (ord : RmwOrd) (sc : Scope) (n : Nat) (sgn float : Bool)
    (f : StreamSt → Nat → Option Nat × BitVec 5) (s : State) : Host.Outcome State Fault Refusal :=
  scalarWord h uses (some a) (some d) (fun c j s =>
    let va := c.regs.src a
    let w := c.who j
    if float && j.det then .raise causeDetForbidden
    else
      match rmwAddrCheck va n with
      | some e => .raise e
      | none =>
        if j.mustWait c.slot then .stall
        else if (rmwRel ord || rmwAcq ord) && s.ordHeld w.core sc then waits c w s
        else
          let s0 := if rmwRel ord then s.releaseAt w.core sc else s
          ofAccess true c w s (s0.rmw w va n (f c.regs)) fun s1 r =>
            let s2 := if rmwAcq ord then s1.acquireAt w.core sc else s1
            let s3 := if float then s2.modRegs c.job c.stream c.slot (fun t => t.orFlags r.2) else s2
            .ok s3 (if sgn then sext64 r.1 (8 * n) else BitVec.ofNat 64 r.1) none) s

/-- new := op(old, b) of ATOM on n bytes (R214). -/
def atomNew (op : AtomOp) (sgn : Bool) (n old b : Nat) : Nat :=
  let m := 2 ^ (8 * n)
  let o := old % m
  let v := b % m
  let less := if sgn then (sext64 o (8 * n)).slt (sext64 v (8 * n)) else decide (o < v)
  match op with
  | .add => (o + v) % m
  | .swp => v
  | .min => if less then o else v
  | .max => if less then v else o
  | .and => o &&& v
  | .or => o ||| v
  | .xor => o ^^^ v

/-- Bytes of the SZ bit (R214). -/
def szBytes (sz : Bool) : Nat := if sz then 8 else 4

/-- ATOM (R214). -/
def execAtom (h : Hdr) (d : Dest) (a b : Src) (op : AtomOp) (sgn : Bool) (ord : RmwOrd) (sc : Scope) (sz : Bool)
    (s : State) : Host.Outcome State Fault Refusal :=
  rmwWord h [a, b] d a ord sc (szBytes sz) sgn false
    (fun t old => (some (atomNew op sgn (szBytes sz) old (t.src b).toNat), 0)) s

/-- ACAS (R214): writes only where the old value equals the expected one. -/
def execAcas (h : Hdr) (d : Dest) (a b f : Src) (ord : RmwOrd) (sc : Scope) (sz : Bool) (s : State) :
    Host.Outcome State Fault Refusal :=
  rmwWord h [a, b, f] d a ord sc (szBytes sz) false false
    (fun t old =>
      let m := 2 ^ (8 * szBytes sz)
      (if old = (t.src b).toNat % m then some ((t.src f).toNat % m) else none, 0)) s

/-- The format ATOMF adds in (R214). -/
def atomFmt : AtomFmt → Fmt
  | .f32 => fmtF32
  | .bf16 => fmtBf16

/-- ATOMF (R214): rounds RNE whatever FPCTL holds (R37). -/
def execAtomf (h : Hdr) (d : Dest) (a b : Src) (ft : AtomFmt) (ord : RmwOrd) (sc : Scope) (s : State) :
    Host.Outcome State Fault Refusal :=
  let f := atomFmt ft
  rmwWord h [a, b] d a ord sc (f.width / 8) false true
    (fun t old =>
      let (v, fl) := exactAdd .rne (decodeFloat f old) (decodeFloat f ((t.src b).toNat % 2 ^ f.width))
      let (bits, fr) := roundVal f .rne v
      (some bits, fl ||| fr)) s

end Sys2Proof.Machine
end

