-- ==== Sys2Proof/Machine/Append.lean ====
section
/-! DEFINITION. Append regions: descriptors, page pools, and the meanings of the append words (R221, R300 to R303). -/

namespace Sys2Proof.Machine

/-! ### Accesses at the home (R221) -/

/-- An address a descriptor, list or pool may lie at: bits [63:60] zero, path 0x0 or 0x2. (DEDUCED, log 46.) -/
def apAddrOk (va : Word) : Bool := va.extractLsb' 60 4 == 0 && (pathOf va == 0 || pathOf va == 2)

/-- Reads bytes at their home. -/
def State.apRead (s : State) (w : Who) (va : Word) (n : Nat) : MRes (List Byte) :=
  if !apAddrOk va then .fault s causeProtection
  else (s.reachAll w va n false).bind fun s1 l => State.readAll w 2 true l s1

/-- Writes bytes at their home. -/
def State.apWrite (s : State) (w : Who) (va : Word) (b : List Byte) : MRes Unit :=
  if !apAddrOk va then .fault s causeProtection
  else (s.reachAll w va b.length true).bind fun s1 l => State.writeAll w 2 true l b s1

/-- An address plus a byte count. -/
def addVa (va : Word) (n : Nat) : Word := va + BitVec.ofNat 64 n

/-- Reads an unsigned number of `n` bytes. -/
def State.apNum (s : State) (w : Who) (va : Word) (n : Nat) : MRes Nat := (s.apRead w va n).bind fun s1 b => .ok s1 (leNat b)

/-- Writes an unsigned number of `n` bytes. -/
def State.apPut (s : State) (w : Who) (va : Word) (n v : Nat) : MRes Unit := s.apWrite w va (leBytes n v)

/-! ### Descriptors (R300, R301) -/

/-- An append descriptor (R300). -/
structure ApDesc where
  pool  : Word
  plist : Word
  pmax  : Nat
  npg   : Nat
  clen  : Nat
  tlen  : Nat
  rsvd  : Nat
  deriving DecidableEq, Repr

/-- Reads the fields of a descriptor's 64 bytes. -/
def apDescOf (x : Nat) : ApDesc where
  pool := BitVec.ofNat 64 x
  plist := BitVec.ofNat 64 (bitsOf x 127 64)
  pmax := bitsOf x 159 128
  npg := bitsOf x 191 160
  clen := bitsOf x 255 192
  tlen := bitsOf x 319 256
  rsvd := bitsOf x 511 320

/-- The 64 bytes of a descriptor. -/
def apDescBytes (d : ApDesc) : List Byte :=
  leBytes 64 (d.pool.toNat + d.plist.toNat * 2 ^ 64 + d.pmax * 2 ^ 128 + d.npg * 2 ^ 160 + d.clen % 2 ^ 64 * 2 ^ 192 +
    d.tlen % 2 ^ 64 * 2 ^ 256 + d.rsvd * 2 ^ 320)

/-- A page pool's descriptor (R301). -/
structure ApPool where
  head   : Nat
  base   : Word
  fcnt   : Nat
  npages : Nat
  rcnt   : Word
  rsvd   : Nat
  deriving DecidableEq, Repr

/-- Reads the fields of a pool's 64 bytes. -/
def apPoolOf (x : Nat) : ApPool where
  head := x % 2 ^ 64
  base := BitVec.ofNat 64 (bitsOf x 127 64)
  fcnt := bitsOf x 159 128
  npages := bitsOf x 191 160
  rcnt := BitVec.ofNat 64 (bitsOf x 255 192)
  rsvd := bitsOf x 511 256

/-- Bytes of a page of a region (R300). -/
def apPage : Nat := 65536

/-- Pages that `n` bytes take. -/
def apPages (n : Nat) : Nat := (n + apPage - 1) / apPage

/-- A malformed pool descriptor: a reserved bit set, or a field out of its range. -/
def apPoolBad (p : ApPool) : Bool :=
  p.rsvd != 0 || p.rcnt.toNat % 4 != 0 || p.npages == 0 || p.base.toNat % apPage != 0

/-- A malformed append descriptor (R300), but for its pool. -/
def apDescBad (d : ApDesc) : Bool :=
  d.rsvd != 0 || d.pool.toNat % 64 != 0 || d.plist.toNat % 8 != 0 || d.npg != apPages (d.clen + d.tlen) ||
    decide (d.pmax < d.npg)

def State.apDesc (s : State) (w : Who) (va : Word) : MRes ApDesc := (s.apNum w va 64).bind fun s1 x => .ok s1 (apDescOf x)
def State.apPool (s : State) (w : Who) (va : Word) : MRes ApPool := (s.apNum w va 64).bind fun s1 x => .ok s1 (apPoolOf x)

/-! ### Pages (R301) -/

/-- Takes a page of the pool: HEAD moves to the next free page with its tag advanced, FCNT falls by one, modulo 2^32, and the
page's count becomes 1. None where the pool is empty. -/
def State.apTake (s : State) (w : Who) (pool : Word) : MRes (Option Nat) :=
  (s.apPool w pool).bind fun s1 p =>
    let first := p.head % 2 ^ 32
    if first = 0 then .ok s1 none
    else
      let k := first - 1
      (s1.apNum w (addVa p.base (apPage * k)) 8).bind fun s2 next =>
        (s2.apPut w pool 8 ((p.head / 2 ^ 32 + 1) % 2 ^ 32 * 2 ^ 32 + next % 2 ^ 32)).bind fun s3 _ =>
          (s3.apPut w (addVa pool 16) 4 (p.fcnt + (2 ^ 32 - 1))).bind fun s4 _ =>
            (s4.apPut w (addVa p.rcnt (4 * k)) 4 1).bind fun s5 _ => .ok s5 (some k)

/-- Lowers a page's count, and returns the page to the pool where it falls to 0. -/
def State.apDrop (s : State) (w : Who) (pool : Word) (k : Nat) : MRes Unit :=
  (s.apPool w pool).bind fun s1 p =>
    (s1.apNum w (addVa p.rcnt (4 * k)) 4).bind fun s2 n =>
      (s2.apPut w (addVa p.rcnt (4 * k)) 4 (n + (2 ^ 32 - 1))).bind fun s3 _ =>
        if n ≠ 1 then .ok s3 ()
        else
          (s3.apPut w (addVa p.base (apPage * k)) 8 (p.head % 2 ^ 32)).bind fun s4 _ =>
            (s4.apPut w pool 8 ((p.head / 2 ^ 32 + 1) % 2 ^ 32 * 2 ^ 32 + (k + 1))).bind fun s5 _ =>
              s5.apPut w (addVa pool 16) 4 (p.fcnt + 1)

/-- The pool page of a region's page `i`. -/
def State.apPageNo (s : State) (w : Who) (plist : Word) (i : Nat) : MRes Nat := s.apNum w (addVa plist (4 * i)) 4

/-- Writes a region's bytes from offset `o` up, page by page. Fuel bounds the pages. -/
def State.apStore (w : Who) (plist base : Word) : Nat → Nat → List Byte → State → MRes Unit
  | 0, _, _, s => .ok s ()
  | f + 1, o, b, s =>
    if b.isEmpty then .ok s ()
    else
      let n := min b.length (apPage - o % apPage)
      (s.apPageNo w plist (o / apPage)).bind fun s1 k =>
        (s1.apWrite w (addVa base (apPage * k + o % apPage)) (b.take n)).bind fun s2 _ =>
          State.apStore w plist base f (o + n) (b.drop n) s2

/-- Adds pages to the region until it has `need`, taking those of `held` first. The result is what is left of `held`, or
the ARG of APPEND_POOL: 0 for an empty pool, 1 for a full list (R302). (DEDUCED, log 47.) -/
def State.apGrow (w : Who) (desc : Word) (need : Nat) : Nat → List Nat → State → MRes (List Nat ⊕ Nat)
  | 0, held, s => .ok s (.inl held)
  | f + 1, held, s =>
    (s.apDesc w desc).bind fun s1 d =>
      if need ≤ d.npg then .ok s1 (.inl held)
      else
        let got : MRes (Option Nat × List Nat) :=
          match held with
          | k :: t => .ok s1 (some k, t)
          | [] => (s1.apTake w d.pool).bind fun s2 k => .ok s2 (k, [])
        got.bind fun s2 g =>
          match g.1 with
          | none => .ok s2 (.inr 0)
          | some k =>
            if d.pmax ≤ d.npg then .ok s2 (.inr 1)
            else
              (s2.apPut w (addVa d.plist (4 * d.npg)) 4 k).bind fun s3 _ =>
                (s3.apWrite w desc (apDescBytes { d with npg := d.npg + 1 })).bind fun s4 _ =>
                  State.apGrow w desc need f g.2 s4

/-- Reserves `b.length` bytes at the tail and writes them (R302): the offset of the first, or the ARG of APPEND_POOL.
Pages of `held` that were not needed come back. -/
def State.apAppend (s : State) (w : Who) (desc : Word) (b : List Byte) (held : List Nat) :
    MRes ((Nat × List Nat) ⊕ Nat) :=
  (s.apDesc w desc).bind fun s1 d =>
    let o := d.clen + d.tlen
    let need := apPages (o + b.length)
    (State.apGrow w desc need (need - d.npg + 1) held s1).bind fun s2 g =>
      match g with
      | .inr a => .ok s2 (.inr a)
      | .inl rest =>
        (s2.apDesc w desc).bind fun s3 d1 =>
          (s3.apPool w d1.pool).bind fun s4 p =>
            (State.apStore w d1.plist p.base (b.length / apPage + 2) o b s4).bind fun s5 _ =>
              (s5.apWrite w desc (apDescBytes { d1 with tlen := d1.tlen + b.length })).bind fun s6 _ =>
                .ok s6 (.inl (o, rest))

/-- Reserves `n` bytes at the tail without writing them, as a CPYO append does at issue (R194). -/
def State.apReserve (s : State) (w : Who) (desc : Word) (n : Nat) : MRes (Nat ⊕ Nat) :=
  (s.apDesc w desc).bind fun s1 d =>
    let o := d.clen + d.tlen
    let need := apPages (o + n)
    (State.apGrow w desc need (need - d.npg + 1) [] s1).bind fun s2 g =>
      match g with
      | .inr a => .ok s2 (.inr a)
      | .inl _ =>
        (s2.apDesc w desc).bind fun s3 d1 =>
          (s3.apWrite w desc (apDescBytes { d1 with tlen := d1.tlen + n })).bind fun s4 _ => .ok s4 (.inl o)

/-- Copies a region's bytes into a page, 64 bytes at a time. -/
def State.apCopy (w : Who) (src dst : Word) : Nat → Nat → State → MRes Unit
  | 0, _, s => .ok s ()
  | f + 1, n, s =>
    let k := min n 64
    (if k = 0 then .ok s [] else s.apRead w src k).bind fun s1 b =>
      (s1.apWrite w dst (b ++ List.replicate (64 - k) 0)).bind fun s2 _ =>
        State.apCopy w (addVa src 64) (addVa dst 64) f (n - k) s2

/-- Raises the counts of pages `i` to `n − 1` of a list, and writes them into another list. -/
def State.apShare (w : Who) (plist child rcnt : Word) : Nat → Nat → State → MRes Unit
  | 0, _, s => .ok s ()
  | f + 1, i, s =>
    (s.apPageNo w plist i).bind fun s1 k =>
      (s1.apNum w (addVa rcnt (4 * k)) 4).bind fun s2 n =>
        (s2.apPut w (addVa rcnt (4 * k)) 4 (n + 1)).bind fun s3 _ =>
          (s3.apPut w (addVa child (4 * i)) 4 k).bind fun s4 _ => State.apShare w plist child rcnt f (i + 1) s4

/-- Lowers the counts of the pages of a list from `i` up. -/
def State.apDropFrom (w : Who) (plist pool : Word) : Nat → Nat → State → MRes Unit
  | 0, _, s => .ok s ()
  | f + 1, i, s =>
    (s.apPageNo w plist i).bind fun s1 k =>
      (s1.apDrop w pool k).bind fun s2 _ => State.apDropFrom w plist pool f (i + 1) s2

/-! ### The words (R221) -/

/-- APPEND_POOL with its ARG (R229). -/
def appendTrap (arg : Nat) : WRes := .trap causeAppendPool 0 (BitVec.ofNat 64 arg <<< 32)

/-- What a word does on the descriptor a slot is bound to: ILLEGAL where it is bound to none; a speculative iteration waits. -/
def onSlot (slot : BitVec 2) (waits : Bool) (op : Cursor → Job → Who → Word → State → WRes) (c : Cursor) (j : Job) (s : State) :
    WRes :=
  if waits && j.mustWait c.slot then .stall
  else
    match j.append.get slot.toFin with
    | none => .raise causeIllegal
    | some desc => op c j (c.who j) desc s

/-- A word on the descriptor a slot is bound to. -/
def appendWord (h : Hdr) (uses : List Src) (first : Option Src) (d : Option Dest) (slot : BitVec 2) (waits : Bool)
    (op : Cursor → Job → Who → Word → State → WRes) (s : State) : Host.Outcome State Fault Refusal :=
  scalarWord h uses first d (onSlot slot waits op) s

/-- APOPEN (R221). -/
def execApopen (h : Hdr) (slot : BitVec 2) (a : Src) (s : State) : Host.Outcome State Fault Refusal :=
  scalarWord h [a] (some a) none (fun c j s =>
    let va := c.regs.src a
    let w := c.who j
    if va.toNat % 64 ≠ 0 then .raise causeMisaligned
    else if j.mustWait c.slot then .stall
    else
      ofMem c w s (s.apDesc w va) fun s1 d =>
        if apDescBad d then .raise causeIllegal
        else
          ofMem c w s (s1.apPool w d.pool) fun s2 p =>
            if apPoolBad p then .raise causeIllegal
            else
              .ok (s2.modJob c.job fun k => { k with append := k.append.set slot.toNat (some va) slot.isLt }) c.value none) s

/-- The pages that buffered appends hold, each with its pool (R303). -/
def heldPages (l : List SpecStore) : List (Word × Nat) :=
  l.flatMap fun st => match st with | .append _ _ pool p => p.map fun k => (pool, k) | _ => []

/-- Whether buffered appends on a slot hold a page. -/
def runHolds (l : List SpecStore) (slot : BitVec 2) : Bool :=
  l.any fun st => match st with | .append sl _ _ p => sl == slot && !p.isEmpty | _ => false

/-- The bytes of an iteration's append run on a slot. -/
def runBytes (l : List SpecStore) (slot : BitVec 2) : List Byte :=
  l.flatMap fun st => match st with | .append sl b _ _ => if sl = slot then b else [] | _ => []

/-- Returns pages to their pools. -/
def State.returnPages (w : Who) : List (Word × Nat) → State → MRes Unit
  | [], s => .ok s ()
  | (pool, k) :: t, s => (s.apDrop w pool k).bind fun s1 _ => State.returnPages w t s1

/-- Buffered stores whose appends hold no page. -/
def dropHeld (l : List SpecStore) : List SpecStore :=
  l.map fun st => match st with | .append sl b pool _ => .append sl b pool [] | x => x

/-- The buffered stores of every iteration a slot holds. -/
def Slot.buffered (sl : Slot) : List SpecStore :=
  ((sl.running.map (·.stores)).getD []) ++ ((sl.finished.map (·.stores)).getD [])

/-- Every page that the speculative runs of a job's loop hold goes back to its pool: a pool that such pages alone leave empty is
not empty in the serial loop (R299). The runs take theirs anew when they are placed. (DEDUCED, log 48.) -/
def State.reclaim (s : State) (w : Who) : MRes Unit :=
  match (s.jobs[w.job]?).bind (·.loop) with
  | none => .ok s ()
  | some lp =>
    (State.returnPages w (lp.slots.flatMap fun sl => heldPages sl.buffered) s).bind fun s1 _ =>
      .ok (s1.modJob w.job fun j => { j with
        loop := j.loop.map fun l => { l with slots := l.slots.map fun sl => { sl with
          running := sl.running.map fun it => { it with stores := dropHeld it.stores }
          finished := sl.finished.map fun it => { it with stores := dropHeld it.stores } } } }) ()

/-- A step that takes pages: where it finds the pool empty, it is made again with the speculative runs' pages returned (R299). -/
def State.takingPages {α : Type} (s : State) (w : Who) (f : State → MRes (α ⊕ Nat)) : MRes (α ⊕ Nat) :=
  match f s with
  | .ok s1 (.inr 0) =>
    match s.reclaim w with
    | .ok s2 _ => if (s2.jobs[w.job]?) = s.jobs[w.job]? then .ok s1 (.inr 0) else f s2
    | .fault _ _ => .ok s1 (.inr 0)
    | .susp s2 va k l => .susp s2 va k l
    | .hold s2 q l => .hold s2 q l
  | r => r

/-- An APND of a speculative iteration (R303): its bytes join the iteration's run, where the run with them could be placed now; a
page is taken with the run's first bytes, enough for a run of a store buffer's size wherever the tail then stands. (DEDUCED, log 48.) -/
def apndSpec (c : Cursor) (j : Job) (w : Who) (desc : Word) (slot : BitVec 2) (b : List Byte) (s : State) : WRes :=
  let stores := match j.iter? c.slot with | some it => it.stores | none => []
  ofMem c w s (s.apAppend w desc (runBytes stores slot ++ b) ((heldPages stores).map Prod.snd)) fun _ r =>
    match r with
    | .inr 0 => .stall
    | .inr arg => appendTrap arg
    | .inl _ =>
      let put (s1 : State) (pool : Word) (p : List Nat) : WRes :=
        match (s1.jobs[c.job]?).bind fun j1 => j1.bufferStore c.slot (.append slot b pool p) with
        | some j1 => .ok (s1.setJob c.job j1) 0 none
        | none => .stall
      if runHolds stores slot then put s 0 []
      else
        ofMem c w s (s.apDesc w desc) fun s1 d =>
          ofMem c w s (s1.apTake w d.pool) fun s2 k =>
            match k with
            | none => .stall
            | some p => put s2 d.pool [p]

/-- APND (R221, R302, R303). Its source's uncorrectable bytes are the last of its causes (R80). -/
def execApnd (h : Hdr) (d : Dest) (slot : BitVec 2) (a b : Src) (s : State) : Host.Outcome State Fault Refusal :=
  appendWord h [a, b] (some a) (some d) slot (d != .discard) (fun c j w desc s =>
    let off := (c.regs.src a).toNat
    let n := (c.regs.src b).toNat
    if n = 0 ∨ 64 < n ∨ j.spanOk off n = false then .raise causeBound
    else
      let bytes := match j.spLoad c.slot off n with
        | .ok x => some x
        | _ => none
      if j.speculative c.slot then
        match bytes with
        | some x => apndSpec c j w desc slot x s
        | none => s.raiseOwn (j.spUe c.slot off n) causeMemUe
      else
        ofMem c w s (s.takingPages w fun t => t.apAppend w desc (bytes.getD (List.replicate n 0)) []) fun s1 r =>
          match r with
          | .inr arg => appendTrap arg
          | .inl o => if bytes.isNone then s.raiseOwn (j.spUe c.slot off n) causeMemUe else .ok s1 (BitVec.ofNat 64 o.1) none) s

/-- APCOMMIT (R221, R302): a release at system scope. -/
def execApcommit (h : Hdr) (d : Dest) (slot : BitVec 2) (b : Src) (s : State) : Host.Outcome State Fault Refusal :=
  scalarWordB h b d (onSlot slot true fun c _ w desc s =>
    let n := (c.regs.src b).toNat
    if s.l1Held w.core then waits c w s
    else ofMem c w s ((s.l1Release w.core).apDesc w desc) fun s1 x =>
      if x.tlen < n then .raise causeBound
      else
        ofMem c w s (s1.apWrite w desc (apDescBytes { x with clen := x.clen + n, tlen := x.tlen - n })) fun s2 _ =>
          .ok s2 (BitVec.ofNat 64 (x.clen + n)) none) s

/-- APTRUNC (R221, R302). -/
def execAptrunc (h : Hdr) (d : Dest) (slot : BitVec 2) (s : State) : Host.Outcome State Fault Refusal :=
  appendWord h [] none (some d) slot true (fun c _ w desc s =>
    ofMem c w s (s.apDesc w desc) fun s1 x =>
      let keep := apPages x.clen
      ofMem c w s (State.apDropFrom w x.plist x.pool (x.npg - keep) keep s1) fun s2 _ =>
        ofMem c w s (s2.apWrite w desc (apDescBytes { x with tlen := 0, npg := keep })) fun s3 _ =>
          .ok s3 (BitVec.ofNat 64 x.tlen) none) s

/-- The child of a fork (R302): the full pages shared, the last partial page copied. -/
def State.apFork (s : State) (w : Who) (desc child : Word) : MRes (Nat ⊕ Nat) :=
  (s.apDesc w desc).bind fun s1 x =>
    (s1.apDesc w child).bind fun s2 y =>
      (s2.apPool w x.pool).bind fun s3 p =>
        let full := x.clen / apPage
        let part := x.clen % apPage
        let done (t : State) : MRes (Nat ⊕ Nat) :=
          (t.apWrite w child (apDescBytes
            { pool := x.pool, plist := y.plist, pmax := y.pmax, npg := apPages x.clen, clen := x.clen, tlen := 0,
              rsvd := 0 })).bind fun t1 _ => .ok t1 (.inl x.clen)
        if y.pmax < apPages x.clen then .ok s3 (.inr 1)
        else
          (State.apShare w x.plist y.plist p.rcnt full 0 s3).bind fun s4 _ =>
            if part = 0 then done s4
            else
              (s4.apTake w x.pool).bind fun s5 k =>
                match k with
                | none => .ok s5 (.inr 0)
                | some k =>
                  (s5.apPageNo w x.plist full).bind fun s6 old =>
                    (State.apCopy w (addVa p.base (apPage * old)) (addVa p.base (apPage * k)) (apPage / 64) part s6).bind
                      fun s7 _ => (s7.apPut w (addVa y.plist (4 * full)) 4 k).bind fun s8 _ => done s8

/-- APFORK (R221, R302). -/
def execApfork (h : Hdr) (d : Dest) (slot : BitVec 2) (a : Src) (s : State) : Host.Outcome State Fault Refusal :=
  appendWord h [a] (some a) (some d) slot true (fun c _ w desc s =>
    let child := c.regs.src a
    if child.toNat % 64 ≠ 0 then .raise causeMisaligned
    else
      ofMem c w s (s.takingPages w fun t => t.apFork w desc child) fun s1 r =>
        match r with
        | .inr arg => appendTrap arg
        | .inl n => .ok s1 (BitVec.ofNat 64 n) none) s

/-- APSTAT (R221). -/
def execApstat (h : Hdr) (d : Dest) (slot : BitVec 2) (sel : BitVec 8) (s : State) : Host.Outcome State Fault Refusal :=
  appendWord h [] none (some d) slot true (fun c _ w desc s =>
    if 3 ≤ sel.toNat then .raise causeIllegal
    else
      ofMem c w s (s.apDesc w desc) fun s1 x =>
        if sel = 0 then .ok s1 (BitVec.ofNat 64 x.clen) none
        else if sel = 1 then .ok s1 (BitVec.ofNat 64 x.tlen) none
        else ofMem c w s (s1.apPool w x.pool) fun s2 p => .ok s2 (BitVec.ofNat 64 p.fcnt) none) s

end Sys2Proof.Machine
end

