-- ==== Sys2Proof/Machine/Control.lean ====
section
/-! DEFINITION. Meanings of the control transfers (R106 to R110). Every offset counts words from the branch word. -/

namespace Sys2Proof.Machine

/-- The address of the word under way inside its bundle. -/
def Cursor.wordPc (c : Cursor) : Word := c.pc + 8 * BitVec.ofNat 64 c.index

/-- A branch target: PC + 8·sext(offset) (R106). -/
def branchTo (c : Cursor) (off : Word) : Word := c.wordPc + 8 * off

/-- Whether a register target is not a multiple of 8 (R53, R107). -/
def badTarget (a : Word) : Bool := a.extractLsb' 0 3 != 0

/-- BR (R106). -/
def execBr (h : Hdr) (off : BitVec 36) (s : State) : Host.Outcome State Fault Refusal :=
  scalarWord h [] none none (fun c _ s => .ok s c.value (some (branchTo c (off.signExtend 64)))) s

/-- JMP (R107). -/
def execJmp (h : Hdr) (a : Src) (s : State) : Host.Outcome State Fault Refusal :=
  scalarWord h [a] (some a) none (fun c _ s =>
    let t := c.regs.src a
    if badTarget t then .raise causeMisaligned else .ok s c.value (some t)) s

/-- CALL (R108). -/
def execCall (h : Hdr) (off : BitVec 36) (s : State) : Host.Outcome State Fault Refusal :=
  scalarWord h [] none none (fun c _ s =>
    if 32 ≤ c.regs.rstack.length then .raise causeStackLimit
    else .ok (s.modRegs c.job c.stream c.slot fun r => { r with rstack := (c.wordPc + 8) :: c.regs.rstack }) c.value
      (some (branchTo c (off.signExtend 64)))) s

/-- RET (R109). An empty stack raises STACK_LIMIT with TINFO.UNDER. -/
def execRet (h : Hdr) (s : State) : Host.Outcome State Fault Refusal :=
  scalarWord h [] none none (fun c _ s =>
    match c.regs.rstack with
    | [] => .trap causeStackLimit 0 1
    | a :: rest => .ok (s.modRegs c.job c.stream c.slot fun r => { r with rstack := rest }) c.value (some a)) s

/-- RET ka (R109): STACK_LIMIT ranks before MISALIGNED (R80). -/
def execRetReg (h : Hdr) (a : Src) (s : State) : Host.Outcome State Fault Refusal :=
  scalarWord h [a] (some a) none (fun c _ s =>
    match c.regs.rstack with
    | [] => .trap causeStackLimit 0 1
    | _ :: rest =>
      let t := c.regs.src a
      if badTarget t then .raise causeMisaligned
      else .ok (s.modRegs c.job c.stream c.slot fun r => { r with rstack := rest }) c.value (some t)) s

/-- LOOP (R110). -/
def execLoop (h : Hdr) (kc : BitVec 4) (off : BitVec 31) (s : State) : Host.Outcome State Fault Refusal :=
  scalarWord h [.k kc] none none (fun c _ s =>
    let n := c.regs.src (.k kc)
    if n = 0 then .ok s c.value none
    else
      .ok (s.modRegs c.job c.stream c.slot fun r => r.setK kc (n - 1)) c.value
        (if n - 1 = 0 then none else some (branchTo c (off.signExtend 64)))) s

end Sys2Proof.Machine
end

