-- ==== Sys2Proof/Machine/Life.lean ====
section
/-! DEFINITION. The end of a job at `JOIN`, and the arrivals at a team's barrier. -/

namespace Sys2Proof.Machine

/-- Whether the issue gate leaves a core this cycle: the first D of every 16 (R436). (DEDUCED, log 67.) -/
def State.gateOpen (s : State) (core : Nat) : Bool := decide (s.tick % 16 < (s.core core).gate)

/-- FUSE of the launch a job belongs to (R331). -/
def State.fusing (s : State) (j : Job) : Bool :=
  match s.launch? j.mem.part j.mem.seq with
  | some l => l.record.getLsbD 72
  | none => false

/-- The jobs a core holds: its normal and its urgent one, and the one it helps. -/
def State.jobsOn (s : State) (core : Nat) : List Job :=
  let k := s.core core
  (k.normal.toList ++ k.urgent.toList ++ k.helper.toList).filterMap fun n => s.jobs[n]?

/-- Whether a stop's L1s are to be fused: all eight of its active cores hold jobs of fusing launches of one context
(R263). -/
def State.fusionWanted (s : State) (stop : Nat) : Bool :=
  let held := (List.range 8).map fun i => s.jobsOn (8 * stop + i)
  held.all (fun l => !l.isEmpty && l.all fun j => s.fusing j) &&
    match held.flatten with
    | [] => false
    | j :: t => t.all fun k => k.mem.part == j.mem.part && k.mem.ctx == j.mem.ctx

/-- Whether the L1s of a core's stop stand in the arrangement its jobs ask for: until then none of them issues (R263). -/
def State.fusionSettled (s : State) (core : Nat) : Bool := s.fusionWanted (stopOf core) == (s.core core).fused

/-- Every stream of the job stands at `JOIN` (R211). -/
def Job.allAtJoin (j : Job) : Bool := j.c.atJoin && j.l.atJoin && j.vs.atJoin && j.m.atJoin && j.s.atJoin

/-- What a retire leaves of a job (R211, R231): tokens and entries are discarded, append slots and feeds unbound. -/
def retireOf (j : Job) : Job :=
  { j with phase := .retired, tokens := Vector.replicate 25 [], queues := Vector.replicate 25 [],
           append := Vector.replicate 4 none, feeds := Vector.replicate 4 none, loop := none, cmds := [], lme := [],
           waits := [], swapAt := none }

/-- One more job of a team has retired (R343); a team whose every job has retired has retired, and its launch may then drain
(R357). -/
def State.teamProgress (s : State) (j : Job) : State :=
  s.modLaunch j.mem.part j.mem.seq fun l =>
    ({ l.modTeam j.mem.team (fun q =>
        if q.jobs.all (fun n => match s.jobs[n]? with | some k => decide (k.phase = Phase.retired) | none => true) then
          { q with phase := .retired, done := q.done + 1 } else { q with done := q.done + 1 }) with
      finish := s.tick }).progress

/-- A team all of whose jobs are swapped out or retired, and none runs, joins the tail of its launch's waiting teams (R351). -/
def State.teamSwapped (s : State) (j : Job) : State :=
  s.modLaunch j.mem.part j.mem.seq fun l =>
    match l.teams.find? fun q => q.index == j.mem.team with
    | none => l
    | some q =>
      if q.phase == .resident && q.jobs.all fun n =>
          match s.jobs[n]? with
          | some k => k.phase == .swapped || k.phase == .retired
          | none => true
      then { l.modTeam q.index (fun z => { z with phase := .swapped }) with queue := l.queue ++ [q.index] }
      else l

/-- The job retires in one step (R211); its retirement is a release at team scope (R212) and frees its core. Where the others of its
team stand swapped out, the team does (R351). -/
def State.retireJob (s : State) (n : Nat) : State :=
  match s.jobs[n]? with
  | none => s
  | some j =>
    let s1 := s.l1Release j.core
    let s2 := (s1.freeCore n j).setJob n (retireOf j)
    (s2.teamProgress j).teamSwapped j

/-- Retires a running job all of whose streams stand at `JOIN`, once its release can be made (R390). -/
def State.tryRetire (s : State) (n : Nat) : State :=
  match s.jobs[n]? with
  | none => s
  | some j =>
    if j.allAtJoin && j.phase == .running && j.handler.isNone && j.loop.isNone && j.owed.isEmpty && decide (j.jstart ≤ s.tick) &&
        !s.l1Held j.core then
      s.retireJob n
    else s

/-- Whether every job of the team has arrived at generation `g`, or has retired (R212). -/
def State.allArrived (s : State) (n : Nat) (j : Job) (g : Nat) : Bool :=
  (s.teamJobs n j).all fun i =>
    match s.jobs[i]? with
    | some k => decide (k.phase = Phase.retired) || decide (g ≤ k.barAt)
    | none => true

/-! ### Asynchronous traps (R181, R188, R359) -/

/-- TINFO of an asynchronous trap: ASYNC, and the completed units in ARG (R181, R229). -/
def asyncInfo (units : Nat) : Word := BitVec.ofNat 64 (min units (2 ^ 32 - 1) * 2 ^ 32) ||| 0x8000

end Sys2Proof.Machine
end

