-- ==== Sys2Proof/Machine/Elementary.lean ====
section
/-! DEFINITION. The transcendental functions of R52 and the noise of R156, by fixed point with 400 fraction bits: far
more than any rounding of a binary32 or bfloat16 result needs, so that a result that is not exact rounds as the true
value does. Also the 12-bit estimates of R50 and the refinement steps of R51. -/

namespace Sys2Proof.Machine

/-- Fraction bits of the fixed point. -/
def fxBits : Nat := 400

/-- 1.0. -/
def fxOne : Nat := 2 ^ fxBits

/-- Σ ± p·t2^i/(2i + 1) over `fuel` terms from i up: the series of atan (`alt`) and atanh. -/
def oddSeries (alt : Bool) (t2 : Nat) : Nat → Nat → Nat → Int
  | 0, _, _ => 0
  | f + 1, i, p =>
    (if alt && i % 2 == 1 then -((p / (2 * i + 1) : Nat) : Int) else ((p / (2 * i + 1) : Nat) : Int)) +
      oddSeries alt t2 f (i + 1) (p * t2 / fxOne)

/-- ln y of a fixed-point y in [1, 2). -/
def lnFix (y : Nat) : Nat :=
  let t := (y - fxOne) * fxOne / (y + fxOne)
  2 * (oddSeries false (t * t / fxOne) 140 0 t).toNat

/-- ln 2. -/
def ln2Fix : Nat := 2 * (oddSeries false (fxOne / 9) 140 0 (fxOne / 3)).toNat

/-- π = 16·atan(1/5) − 4·atan(1/239). -/
def piFix : Nat :=
  (16 * oddSeries true (fxOne / 25) 100 0 (fxOne / 5) - 4 * oddSeries true (fxOne / 57121) 40 0 (fxOne / 239)).toNat

/-- Σ p·z^k/(n·(n + 1)…) over `fuel` terms: the rest of e^z after the terms below n. -/
def expSeries (z : Nat) : Nat → Nat → Nat → Nat
  | 0, _, _ => 0
  | f + 1, n, p => p + expSeries z f (n + 1) (p * z / fxOne / n)

/-- 2^f of a fixed-point f in [0, 1). (DEDUCED, log 60.) -/
def exp2Fix (f : Nat) : Nat := expSeries (f * ln2Fix / fxOne) 110 1 fxOne

/-- Alternating Σ of p·z2^k/(n·(n + 1)…): the series of sine (n = 2) and cosine (n = 1). -/
def trigSeries (z2 : Nat) : Nat → Nat → Bool → Nat → Int
  | 0, _, _, _ => 0
  | f + 1, n, neg, p =>
    (if neg then -(p : Int) else (p : Int)) + trigSeries z2 f (n + 2) (!neg) (p * z2 / fxOne / (n * (n + 1)))

/-- sin z and cos z of a fixed-point z in [0, π/2]. -/
def sinFix (z : Nat) : Nat := (trigSeries (z * z / fxOne) 70 2 false z).toNat
@[inherit_doc sinFix]
def cosFix (z : Nat) : Nat := (trigSeries (z * z / fxOne) 70 1 false fxOne).toNat

/-- m·2^e as a fixed-point magnitude, exact for e ≥ −400. -/
def toFix (m : Nat) (e : Int) : Nat := if 0 ≤ e + fxBits then m * 2 ^ (e + fxBits).toNat else m / 2 ^ (-(e + fxBits)).toNat

/-- A fixed-point value that is not exact. -/
def fxVal (neg : Bool) (x : Nat) : FVal := stickyFin neg x (-(fxBits : Int)) false

/-- The signed integer part and the fraction of ±m·2^e: floor and remainder in units of 2^−400. -/
def floorFrac (neg : Bool) (m : Nat) (e : Int) : Int × Nat :=
  let x := toFix m e
  let z : Int := if neg then -(x : Int) else x
  (z / fxOne, (z % fxOne).toNat)

/-- VEXP2 (R52). -/
def exp2Val (a : FVal) : FVal × BitVec 5 :=
  match a with
  | .nan s => (.nan false, if s then flagNv else 0)
  | .inf false => (.inf false, 0)
  | .inf true => (.fin false 0 0, 0)
  | .fin neg m e =>
    if m = 0 then (.fin false 1 0, 0)
    else if 12 < (Nat.log2 m : Int) + e then
      (if neg then stickyFin false 1 (-5000) false else stickyFin false 1 5000 false, 0)
    else
      let (n, f) := floorFrac neg m e
      if f = 0 then (.fin false 1 n, 0) else (stickyFin false (exp2Fix f) (n - fxBits) false, 0)

/-- VLOG2 (R52). -/
def log2Val (a : FVal) : FVal × BitVec 5 :=
  match a with
  | .nan s => (.nan false, if s then flagNv else 0)
  | .inf false => (.inf false, 0)
  | .inf true => (.nan false, flagNv)
  | .fin neg m e =>
    if m = 0 then (.inf true, flagDz)
    else if neg then (.nan false, flagNv)
    else
      let k := Nat.log2 m
      let y := m * 2 ^ fxBits / 2 ^ k
      let n : Int := (k : Int) + e
      if y = fxOne then (valOfInt n, 0)
      else
        let z : Int := n * fxOne + (lnFix y * fxOne / ln2Fix : Nat)
        (fxVal (decide (z < 0)) z.natAbs, 0)

/-- sin(2πx) and cos(2πx) by quarter turns (R52): the quarter and the fraction of a quarter. -/
def quarters (neg : Bool) (m : Nat) (e : Int) : Nat × Nat :=
  let (_, f) := floorFrac neg m e
  (4 * f / fxOne, 4 * f % fxOne)

/-- The value of sine at quarter `q` and fraction `f`: exact zeros and ones at whole quarters. None stands for zero. -/
def quarterSine (q f : Nat) : Option FVal :=
  let z := f * piFix / fxOne / 2
  if f = 0 then
    match q % 4 with
    | 1 => some (.fin false 1 0)
    | 3 => some (.fin true 1 0)
    | _ => none
  else some (fxVal (decide (2 ≤ q % 4)) (if q % 2 = 0 then sinFix z else cosFix z))

/-- The fixed point that a fraction below 2^−400 turn would be lost in: a finite x of so small a magnitude has
sin(2πx) just below 2π·x. -/
def sinTiny (neg : Bool) (m : Nat) (e : Int) : FVal := stickyFin neg (m * (2 * piFix)) (e - fxBits) false

/-- VSIN (R52). -/
def sinVal (a : FVal) : FVal × BitVec 5 :=
  match a with
  | .nan s => (.nan false, if s then flagNv else 0)
  | .inf _ => (.nan false, flagNv)
  | .fin neg m e =>
    if m = 0 then (.fin neg 0 0, 0)
    else if (Nat.log2 m : Int) + e < -100 then (sinTiny neg m e, 0)
    else
      let (q, f) := quarters false m e
      match quarterSine q f with
      | some v => (if neg then v.negate else v, 0)
      | none => (.fin neg 0 0, 0)

/-- VCOS (R52). -/
def cosVal (a : FVal) : FVal × BitVec 5 :=
  match a with
  | .nan s => (.nan false, if s then flagNv else 0)
  | .inf _ => (.nan false, flagNv)
  | .fin _ m e =>
    if m = 0 then (.fin false 1 0, 0)
    else if (Nat.log2 m : Int) + e < -100 then (stickyFin false (fxOne - 1) (-(fxBits : Int)) false, 0)
    else
      let (q, f) := quarters false m e
      match quarterSine (q + 1) f with
      | some v => (v, 0)
      | none => (.fin false 0 0, 0)

/-- The natural logarithm of a fixed-point x > 0, as a signed fixed-point number. -/
def lnSigned (x : Nat) : Int :=
  let k := Nat.log2 x
  (((k : Int) - fxBits) * ln2Fix) + lnFix (x * 2 ^ fxBits / 2 ^ k)

/-- −ln(−ln u) for u = (h + 0.5)·2^−24 (R156). -/
def gumbelVal (h : Nat) : FVal :=
  let u := (2 * h + 1) * 2 ^ (fxBits - 25)
  let l := (-(lnSigned u)).toNat
  let g := -(lnSigned l)
  fxVal (decide (g < 0)) g.natAbs

/-! ### Estimates and refinement (R50, R51) -/

/-- A value multiplied by 2^s, exactly (R67). -/
def FVal.scale (v : FVal) (s : Int) : FVal :=
  match v with
  | .fin n m e => .fin n m (e + s)
  | x => x

/-- 12 significant bits, RNE with an unbounded exponent range: the value and whether it differs. -/
def round12 (v : FVal) : FVal × Bool :=
  match v with
  | .fin neg m e =>
    if m = 0 then (v, false)
    else
      let q := (Nat.log2 m : Int) + e - 11
      let (r, ix) := roundQuantum .rne neg m e q
      (.fin neg r q, ix)
  | x => (x, false)

/-- 1/√(m·2^e). -/
def rsqrtFin (m : Nat) (e : Int) : FVal :=
  let (m1, e1) := if e % 2 = 0 then (m, e) else (2 * m, e - 1)
  let k := 80 + Nat.log2 m1
  let r := isqrt (2 ^ (2 * k) / m1)
  stickyFin false r (-(e1 / 2) - k) (r * r * m1 == 2 ^ (2 * k))

/-- An estimate: a special result with its exceptions, or the exact value to be rounded to 12 bits (R50). -/
def estimateOf (rsq : Bool) (a : FVal) : (FVal × BitVec 5) ⊕ FVal :=
  match a with
  | .nan s => .inl (.nan false, if s then flagNv else 0)
  | .inf neg => if rsq && neg then .inl (.nan false, flagNv) else .inl (.fin neg 0 0, 0)
  | .fin neg m e =>
    if m = 0 then .inl (.inf neg, flagDz)
    else if rsq then (if neg then .inl (.nan false, flagNv) else .inr (rsqrtFin m e))
    else .inr (exactDiv (.fin false 1 0) (.fin neg m e)).1

/-- Rounds an estimate to a format (R50): the 12-bit value times 2^s, rounded; inexact and underflow by comparison with the
exact value. (DEDUCED, log 53.) -/
def roundEstimate (f : Fmt) (mode : RMode) (s : Int) (exact : FVal) : Nat × BitVec 5 :=
  let (v, ix) := round12 exact
  match v with
  | .fin neg m e =>
    let (bits, fl) := roundFin f mode neg m (e + s)
    let off := ix || fl &&& flagNx != 0
    (bits, (fl &&& flagOf) ||| (if off then flagNx else 0) ||| (if off && tinyIn f mode neg m (e + s) then flagUf else 0))
  | x => roundVal f mode x

/-- VRCPS: 2 − a·y (R51). -/
def rcpsVal (mode : RMode) (a y : FVal) : FVal × BitVec 5 :=
  match a, y with
  | .fin _ 0 _, .inf _ => (.fin false 2 0, 0)
  | .inf _, .fin _ 0 _ => (.fin false 2 0, 0)
  | _, _ => exactFma mode a.negate y (.fin false 2 0)

/-- VRSQS: (3 − a·y·y)/2 (R51). -/
def rsqsVal (mode : RMode) (a y : FVal) : FVal × BitVec 5 :=
  match a, y with
  | .fin _ 0 _, .inf _ => (.fin false 3 (-1), 0)
  | .inf _, .fin _ 0 _ => (.fin false 3 (-1), 0)
  | _, _ =>
    let (p, f1) := exactMul a y
    let (p2, f2) := exactMul p y
    let (r, f3) := exactAdd mode (.fin false 3 0) p2.negate
    (r.scale (-1), f1 ||| f2 ||| f3)

end Sys2Proof.Machine
end

