-- ==== Sys2Proof/Machine/Lanes.lean ====
section
/-! DEFINITION. Lanes of vector registers, masks, the checks every V-map word makes, the shell it runs in, and how its
exceptions are raised. -/

namespace Sys2Proof.Machine

/-! ### Lanes (R20, R116) -/

/-- Lane `i` of `w` bits. -/
def lane (r : VReg) (w i : Nat) : Nat := r.toNat / 2 ^ (w * i) % 2 ^ w

/-- All lanes of `w` bits, lowest first. -/
def lanesOf (r : VReg) (w : Nat) : List Nat := (List.range (2048 / w)).map (lane r w)

/-- The number whose lanes of `w` bits are those of a list. -/
def packNat (w : Nat) : List Nat → Nat
  | [] => 0
  | x :: t => x % 2 ^ w + 2 ^ w * packNat w t

/-- The register whose lanes are those of a list. -/
def packLanes (w : Nat) (l : List Nat) : VReg := BitVec.ofNat 2048 (packNat w l)

/-- The register with lane `i` replaced where `f i` gives a value. -/
def mapLanes (r : VReg) (w : Nat) (f : Nat → Option Nat) : VReg :=
  packLanes w ((List.range (2048 / w)).map fun i => (f i).getD (lane r w i))

/-- A mask as a word reads it: m7 is all lanes (R116). -/
def Job.mask (j : Job) (m : BitVec 3) : Mask := if h : m.toNat < 7 then j.masks[m.toNat] else BitVec.allOnes 256

/-- Writes a mask; m7 ignores the write (R126, R139). -/
def Job.setMask (j : Job) (m : BitVec 3) (x : Mask) : Job :=
  if h : m.toNat < 7 then { j with masks := j.masks.set m.toNat x } else j

/-- Writes bit `i` of a mask for each active lane of L, keeps the inactive, and clears bits L and up (R126). -/
def maskPut (old : Mask) (act : Nat → Bool) (lanes : Nat) (f : Nat → Bool) : Mask :=
  BitVec.ofNat 256 (packNat 1 ((List.range lanes).map fun i => if act i then (f i).toNat else (old.getLsbD i).toNat))

/-- Writes bit `i` of a mask for each active lane of L, and keeps every other bit (R157). -/
def maskSet (old : Mask) (act : Nat → Bool) (lanes : Nat) (f : Nat → Bool) : Mask :=
  maskPut old act 256 fun i => if i < lanes then f i else old.getLsbD i

/-- A register as a word reads it. -/
def Job.vreg (j : Job) (v : BitVec 7) : VReg := j.v[v.toNat]

/-! ### Integer lanes (R22) -/

/-- A lane's value by signedness. -/
def intOf (sgn : Bool) (w x : Nat) : Int := if sgn && decide (2 ^ (w - 1) ≤ x) then (x : Int) - 2 ^ w else x

/-- Wraps to a width (R22). -/
def wrapInt (w : Nat) (x : Int) : Nat := (x % (2 ^ w : Int)).toNat

/-- The bounds of an integer format. -/
def intLo (sgn : Bool) (w : Nat) : Int := if sgn then -(2 ^ (w - 1) : Int) else 0
@[inherit_doc intLo]
def intHi (sgn : Bool) (w : Nat) : Int := if sgn then 2 ^ (w - 1) - 1 else 2 ^ w - 1

/-- Limits to the range of a format (R22). -/
def satInt (sgn : Bool) (w : Nat) (x : Int) : Int := max (intLo sgn w) (min (intHi sgn w) x)

/-! ### What every V word checks -/

/-- A register with the bytes of it a word consumes or writes. -/
abbrev Touch := BitVec 7 × (Nat → Bool)

/-- Whole registers. -/
def allOf (v : BitVec 7) : Touch := (v, fun _ => true)

/-- The bytes of the active lanes. -/
def activeBytes (act : Nat → Bool) (wb : Nat) (b : Nat) : Bool := act (b / wb)

/-- Whether a register is absent for the job (R66). -/
def State.absent (s : State) (j : Job) (v : BitVec 7) : Bool :=
  let cls := match s.parts[j.mem.part]? with | some p => p.urgent | none => false
  tileAbsent cls j.urgent (tileOf v.toNat)

/-- Whether a word consumes an uncorrectable 8-byte unit of a row (R256). (DEDUCED, log 59.) -/
def Job.rowsBad (j : Job) (srcs : List Touch) : Bool :=
  j.tileBad.any fun p => srcs.any fun t => decide (t.1.toNat = p.1) && (List.range 8).any fun i => t.2 (8 * p.2 + i)

/-- Writes a register; units written in full are sound again (R248, R256). -/
def Job.vecPut (j : Job) (t : Touch) (x : VReg) : Job :=
  { j with
    v := j.v.set t.1.toNat x
    tileBad := j.tileBad.filter fun p => !(decide (p.1 = t.1.toNat) && (List.range 8).all fun i => t.2 (8 * p.2 + i)) }

/-- A cause if a condition holds. -/
def causeIf (b : Bool) (c : BitVec 8) : List (BitVec 8) := if b then [c] else []

/-- The cause that ranks first (R80). -/
def firstCause : List (BitVec 8) → Option (BitVec 8)
  | [] => none
  | c :: t =>
    match firstCause t with
    | none => some c
    | some d => some (if causeRank c ≤ causeRank d then c else d)

/-- The causes common to V words: a register absent (R66), a destination in an owned tile (R118), an uncorrectable unit
consumed (R256). -/
def State.vecCauses (s : State) (j : Job) (srcs : List Touch) (dsts : List (BitVec 7)) : List (BitVec 8) :=
  (if (srcs.map Prod.fst ++ dsts).any (s.absent j) then [causeIllegal] else []) ++
    (if dsts.any (fun v => j.tileOwned (tileOf v.toNat)) then [causeTileOwned] else []) ++
    (if j.rowsBad srcs then [causeMemUe] else [])

/-- Clears the VMOD in force, once the word it prefixes has run. -/
def WRes.dropVmod (c : Cursor) : WRes → WRes
  | .ok s v nx => .ok { s with cursor := some { (s.cursor.getD c) with vmod := none } } v nx
  | r => r

/-- A V-map word: its causes by rank, then its effect. `reads` is the uncorrectable unit its loads meet (R416). -/
def vecWordAt (reads : Cursor → Job → Option (Nat × Nat)) (h : VHdr) (srcs : Cursor → List Touch) (dsts : List (BitVec 7))
    (more : Cursor → Job → State → List (BitVec 8)) (op : Cursor → Job → State → WRes) (s : State) :
    Host.Outcome State Fault Refusal :=
  runWord h.wait h.sig (!h.more) (fun c j s =>
    match firstCause (s.vecCauses j (srcs c) dsts ++ more c j s) with
    | some e => s.raiseOwn (if j.rowsBad (srcs c) then some (4, 0) else reads c j) e
    | none => (op c j s).dropVmod c) s

/-- A V-map word that loads nothing from the scratchpad. -/
def vecWord (h : VHdr) (srcs : Cursor → List Touch) (dsts : List (BitVec 7)) (more : Cursor → Job → State → List (BitVec 8))
    (op : Cursor → Job → State → WRes) (s : State) : Host.Outcome State Fault Refusal :=
  vecWordAt (fun _ _ => none) h srcs dsts more op s

/-! ### Exceptions (R42, R44, R122) -/

/-- The exceptions of lanes joined. -/
def joinFlags (l : List (Nat × BitVec 5)) : BitVec 5 := l.foldl (fun a p => a ||| p.2) 0

/-- The lowest lane that raised an enabled exception. -/
def firstFault (en : BitVec 5) (l : List (Nat × BitVec 5)) : Option (Nat × BitVec 5) :=
  (l.filter fun p => p.2 &&& en != 0).foldl (fun a p =>
    match a with
    | none => some p
    | some q => some (if p.1 < q.1 then p else q)) none

/-- Raises the exceptions of a floating-point vector word: FP_PRECISE in precise mode, where one is enabled, else they are
collected for FPFLG; then the word's effect on the job and the value it yields. -/
def raiseLanes (c : Cursor) (s : State) (l : List (Nat × BitVec 5)) (value : Word) (f : Job → Job) : WRes :=
  let fpctl := c.regs.fpctl
  let trapped := if preciseOf fpctl then firstFault (enabledOf fpctl) l else none
  match trapped with
  | some (i, fl) => .trap causeFpPrecise (BitVec.ofNat 64 i) (fl.setWidth 64 <<< 10)
  | none =>
    let s1 := s.modJob c.job f
    .ok { s1 with cursor := some { (s1.cursor.getD c) with raised := (s1.cursor.getD c).raised ||| joinFlags l } } value none

/-! ### VMOD (R67, R120) -/

/-- The rounding mode in force: the prefix's, else FPCTL.RM (R36). -/
def modeOf (c : Cursor) : RMode := ((c.vmod.bind (·.rnd))).getD (rmOf c.regs.fpctl)

/-- ABS then NEG on operand `k` of a, b, c (R67). -/
def vmodOperand (vm : Option Vmod) (k : Nat) (x : FVal) : FVal :=
  match vm with
  | none => x
  | some v =>
    let x1 := if v.abs.getLsbD (2 - k) then x.absolute else x
    if v.neg.getLsbD (2 - k) then x1.negate else x1

/-- SCALE, −8 to 7. -/
def vmodScale (vm : Option Vmod) : Int := match vm with | none => 0 | some v => v.scale.toInt

/-- CLAMP. -/
def vmodClamp (vm : Option Vmod) : Clamp := match vm with | none => .none | some v => v.clamp

/-- The clamp of a floating-point result (R46). -/
def clampBits (f : Fmt) (cl : Clamp) (fl : BitVec 5) (x : Nat) : Nat :=
  let v := decodeFloat f x
  let one := FVal.fin false 1 0
  match cl with
  | .none => x
  | .sat => if fl &&& flagOf != 0 then f.maxBits v.isNeg else x
  | .unit =>
    if v.isNan then x
    else if totalLess v (.fin false 0 0) then 0
    else if totalLess one v then f.oneBits false else x
  | .sym =>
    if v.isNan then x
    else if totalLess v (.fin true 1 0) then f.oneBits true
    else if totalLess one v then f.oneBits false else x

/-- Scales, rounds once and clamps an exact result (R46, R67); `fl` are the exceptions of the operation itself. (DEDUCED, log 55.) -/
def finishFloat (f : Fmt) (mode : RMode) (vm : Option Vmod) (v : FVal) (fl : BitVec 5) : Nat × BitVec 5 :=
  let (bits, fr) := roundVal f mode (v.scale (vmodScale vm))
  (clampBits f (vmodClamp vm) fr bits, fl ||| fr)

/-- Limits an exact value, as `clamp=unit` and `clamp=sym` do before a conversion to f8 (R131). -/
def clampVal (cl : Clamp) (v : FVal) : FVal :=
  let one := FVal.fin false 1 0
  match cl with
  | .unit =>
    if v.isNan then v else if totalLess v (.fin false 0 0) then .fin false 0 0 else if totalLess one v then one else v
  | .sym =>
    if v.isNan then v else if totalLess v (.fin true 1 0) then .fin true 1 0 else if totalLess one v then one else v
  | _ => v

end Sys2Proof.Machine
end

