-- ==== Sys2Proof/Machine/Tables.lean ====
section
/-! DEFINITION. Codebooks, table layouts and table-store entries (R164 to R166, R254), shared by `VTAB` and the LME. -/

namespace Sys2Proof.Machine

/-! ### Layout words (R165) -/

def layCb (w : Word) : BitVec 3 := w.extractLsb' 0 3
def layG (w : Word) : Nat := (w.extractLsb' 4 4).toNat
def layHalf (w : Word) : Bool := w.getLsbD 8
def layW (w : Word) : Nat := (w.extractLsb' 12 4).toNat
def laySw (w : Word) : Bool := w.getLsbD 16
def layBase (w : Word) : Nat := (w.extractLsb' 20 20).toNat
def layS (w : Word) : Nat := (w.extractLsb' 40 13).toNat

/-- Entry width in bytes. -/
def layWb (w : Word) : Nat := if laySw w then 4 else 2

/-- The shape of a layout under its codebook's K: N, off and E (R165). -/
def layN (k : Nat) (w : Word) : Nat := k ^ layG w
@[inherit_doc layN]
def layOff (k : Nat) (w : Word) : Nat := if layHalf w then layN k w / 2 else 0
@[inherit_doc layN]
def layE (k : Nat) (w : Word) : Nat := layN k w - layOff k w

/-- Bytes of a slot (R165). -/
def laySlotBytes (k : Nat) (w : Word) : Nat := 32 * layE k w * layWb w

/-- Entry `j` of a codebook (R164). -/
def Codebook.entry (b : Codebook) (j : Nat) : Int := intOf true 8 (b.e.toNat / 2 ^ (8 * j) % 256)

/-- The codebook a layout names. -/
def Job.bookOf (j : Job) (w : Word) : Codebook := j.books.get (layCb w).toFin

/-- A layout of a job. -/
def Job.layout (j : Job) (l : BitVec 2) : Layout := j.layouts.get l.toFin

/-- Replaces a layout. -/
def Job.setLayout (j : Job) (l : BitVec 2) (x : Layout) : Job := { j with layouts := j.layouts.set l.toNat x l.isLt }

/-- Where entry `e` of row `row` of slot `grp` lies in the table store (R254). -/
def entryAt (k : Nat) (w : Word) (grp row e : Nat) : Nat := layBase w + layWb w * (layE k w * (32 * grp + row) + e)

/-- The signedness of a valid slot; none if invalid (R166). -/
def Layout.slot (l : Layout) (g : Nat) : Option Bool := (l.slots.find? fun p => p.1 == g).map Prod.snd

/-- Marks a slot valid with a signedness (R166): `true` for n8. The slots stay in ascending order. -/
def slotPut (g : Nat) (uns : Bool) : List (Nat × Bool) → List (Nat × Bool)
  | [] => [(g, uns)]
  | (a, u) :: t => if g < a then (g, uns) :: (a, u) :: t else if g = a then (g, uns) :: t else (a, u) :: slotPut g uns t

/-- The value an entry of a table has (R150): the sum of G activations times the digits of its code. -/
def tableEntry (b : Codebook) (g c : Nat) (act : Nat → Int) : Int :=
  ((List.range g).map fun j => act j * b.entry (c / b.k ^ j % b.k)).sum

end Sys2Proof.Machine
end

