-- ==== Sys2Proof/Machine/Scalar.lean ====
section
/-! DEFINITION. Meanings of the scalar computations: the common map's moves, arithmetic, predicates, and the C-only
words 0x40 to 0x4A (R94 to R105). -/

namespace Sys2Proof.Machine

/-! ### Values -/

/-- Shift left by R49: an amount of 64 or more gives zero. -/
def shlVal (a b : Word) : Word := a <<< (b.toNat % 256)

/-- Logical shift right by R49. -/
def shrVal (a b : Word) : Word := a >>> (b.toNat % 256)

/-- Arithmetic shift right by R49. -/
def sarVal (a b : Word) : Word := a.sshiftRight (b.toNat % 256)

/-- The lesser or greater of two words (R99). -/
def minMaxWord (max sgn : Bool) (a b : Word) : Word :=
  let less := if sgn then b.slt a else b.ult a
  if less then (if max then a else b) else (if max then b else a)

/-- The high half of a product (R101). -/
def mulhVal (m : MulhMode) (a b : Word) : Word :=
  match m with
  | .uu => BitVec.ofNat 64 (a.toNat * b.toNat / 2 ^ 64)
  | .ss => BitVec.ofInt 64 (a.toInt * b.toInt / 2 ^ 64)
  | .su => BitVec.ofInt 64 (a.toInt * (b.toNat : Int) / 2 ^ 64)

/-- Quotient by R48. -/
def divVal (sgn : Bool) (a b : Word) : Word :=
  if b = 0 then BitVec.allOnes 64
  else if sgn then BitVec.ofInt 64 (a.toInt.tdiv b.toInt) else BitVec.ofNat 64 (a.toNat / b.toNat)

/-- Remainder by R48. -/
def remVal (sgn : Bool) (a b : Word) : Word :=
  if b = 0 then a
  else if sgn then BitVec.ofInt 64 (a.toInt.tmod b.toInt) else BitVec.ofNat 64 (a.toNat % b.toNat)

/-- The bits of `a` from bit `i − 1` down to the first one, counted as zeros. -/
def leadZeros (a : Nat) : Nat → Nat
  | 0 => 0
  | i + 1 => if a.testBit i then 0 else 1 + leadZeros a i

/-- Zeros below the lowest one bit, among `f` bits from bit `i` up. -/
def trailZeros (a : Nat) (i : Nat) : Nat → Nat
  | 0 => 0
  | f + 1 => if a.testBit i then 0 else 1 + trailZeros a (i + 1) f

/-- One bits among the low `n`. -/
def popBits (a : Nat) : Nat → Nat
  | 0 => 0
  | i + 1 => (if a.testBit i then 1 else 0) + popBits a i

/-- A field of a word (R104). -/
def bfxVal (a : Word) (pos len : BitVec 6) (sx : Bool) : Word :=
  let n := len.toNat + 1
  let raw := a.toNat / 2 ^ pos.toNat % 2 ^ n
  if sx then sext64 raw n else BitVec.ofNat 64 raw

/-- A word with a field replaced (R104). -/
def bfiVal (a b : Word) (pos len : BitVec 6) : Word :=
  let n := len.toNat + 1
  let mask : Word := BitVec.ofNat 64 ((2 ^ n - 1) * 2 ^ pos.toNat)
  (a &&& ~~~mask) ||| ((b <<< pos.toNat) &&& mask)

/-- Funnel shift left (R49, R105). -/
def fshlVal (a b n : Word) : Word :=
  BitVec.ofNat 64 ((a.toNat * 2 ^ 64 + b.toNat) * 2 ^ (n.toNat % 256) % 2 ^ 128 / 2 ^ 64)

/-- Funnel shift right (R49, R105). -/
def fshrVal (a b n : Word) : Word :=
  BitVec.ofNat 64 ((a.toNat * 2 ^ 64 + b.toNat) / 2 ^ (n.toNat % 256))

/-- MOVK's result (R98). -/
def movkVal (a : Word) (hw : BitVec 2) (imm : BitVec 16) : Word :=
  let sh := 16 * hw.toNat
  (a &&& ~~~((0xFFFF : Word) <<< sh)) ||| (imm.setWidth 64 <<< sh)

/-! ### Meanings -/

/-- NOP (R98). -/
def execNop (h : Hdr) (s : State) : Host.Outcome State Fault Refusal :=
  scalarWord h [] none none (fun c _ s => .ok s c.value none) s

/-- MOVI (R98). -/
def execMovi (h : Hdr) (d : Dest) (imm : BitVec 31) (s : State) : Host.Outcome State Fault Refusal :=
  pureWord h [] none d (fun _ => imm.signExtend 64) s

/-- MOVK (R98). -/
def execMovk (h : Hdr) (d : Dest) (a : Src) (hw : BitVec 2) (imm : BitVec 16) (s : State) :
    Host.Outcome State Fault Refusal :=
  pureWord h [a] (some a) d (fun t => movkVal (t.src a) hw imm) s

/-- MOV (R98). -/
def execMov (h : Hdr) (d : Dest) (a : Src) (s : State) : Host.Outcome State Fault Refusal :=
  pureWord h [a] (some a) d (fun t => t.src a) s

/-- ADD (R99). -/
def execAdd (h : Hdr) (d : Dest) (a b : Src) (s : State) : Host.Outcome State Fault Refusal :=
  pureWord h [a, b] (some a) d (fun t => t.src a + t.src b) s

/-- SUB (R99). -/
def execSub (h : Hdr) (d : Dest) (a b : Src) (s : State) : Host.Outcome State Fault Refusal :=
  pureWord h [a, b] (some a) d (fun t => t.src a - t.src b) s

/-- ADDI (R100). -/
def execAddi (h : Hdr) (d : Dest) (a : Src) (imm : BitVec 26) (s : State) : Host.Outcome State Fault Refusal :=
  pureWord h [a] (some a) d (fun t => t.src a + imm.signExtend 64) s

/-- AND (R99). -/
def execAnd (h : Hdr) (d : Dest) (a b : Src) (s : State) : Host.Outcome State Fault Refusal :=
  pureWord h [a, b] (some a) d (fun t => t.src a &&& t.src b) s

/-- OR (R99). -/
def execOr (h : Hdr) (d : Dest) (a b : Src) (s : State) : Host.Outcome State Fault Refusal :=
  pureWord h [a, b] (some a) d (fun t => t.src a ||| t.src b) s

/-- XOR (R99). -/
def execXor (h : Hdr) (d : Dest) (a b : Src) (s : State) : Host.Outcome State Fault Refusal :=
  pureWord h [a, b] (some a) d (fun t => t.src a ^^^ t.src b) s

/-- ANDN (R99). -/
def execAndn (h : Hdr) (d : Dest) (a b : Src) (s : State) : Host.Outcome State Fault Refusal :=
  pureWord h [a, b] (some a) d (fun t => t.src a &&& ~~~(t.src b)) s

/-- SHL (R99). -/
def execShl (h : Hdr) (d : Dest) (a b : Src) (s : State) : Host.Outcome State Fault Refusal :=
  pureWord h [a, b] (some a) d (fun t => shlVal (t.src a) (t.src b)) s

/-- SHR (R99). -/
def execShr (h : Hdr) (d : Dest) (a b : Src) (s : State) : Host.Outcome State Fault Refusal :=
  pureWord h [a, b] (some a) d (fun t => shrVal (t.src a) (t.src b)) s

/-- SAR (R99). -/
def execSar (h : Hdr) (d : Dest) (a b : Src) (s : State) : Host.Outcome State Fault Refusal :=
  pureWord h [a, b] (some a) d (fun t => sarVal (t.src a) (t.src b)) s

/-- MIN (R99). -/
def execMin (h : Hdr) (d : Dest) (a b : Src) (sgn : Bool) (s : State) : Host.Outcome State Fault Refusal :=
  pureWord h [a, b] (some a) d (fun t => minMaxWord false sgn (t.src a) (t.src b)) s

/-- MAX (R99). -/
def execMax (h : Hdr) (d : Dest) (a b : Src) (sgn : Bool) (s : State) : Host.Outcome State Fault Refusal :=
  pureWord h [a, b] (some a) d (fun t => minMaxWord true sgn (t.src a) (t.src b)) s

/-- A word that writes a predicate and yields it as 1 or 0 (R59, R94, R96). -/
def predWord (h : Hdr) (uses : List Src) (first : Option Src) (pd : BitVec 3) (f : StreamSt → Bool) (s : State) :
    Host.Outcome State Fault Refusal :=
  runWord h.wait h.sig true (scalarBody h true uses first none fun c _ s =>
    .ok (s.modRegs c.job c.stream c.slot fun r => r.setPred pd (f c.regs)) (boolWord (f c.regs)) none) s

/-- CMP (R94). -/
def execCmp (h : Hdr) (pd : BitVec 3) (a b : Src) (cc : Cond) (s : State) : Host.Outcome State Fault Refusal :=
  predWord h [a, b] (some a) pd (fun t => condTest cc (t.src a) (t.src b)) s

/-- CMPI (R94). -/
def execCmpi (h : Hdr) (pd : BitVec 3) (a : Src) (imm : BitVec 21) (cc : Cond) (s : State) :
    Host.Outcome State Fault Refusal :=
  predWord h [a] (some a) pd (fun t => condTest cc (t.src a) (imm.signExtend 64)) s

/-- PSET (R96). -/
def execPset (h : Hdr) (pd pa pb : BitVec 3) (tt : BitVec 4) (s : State) : Host.Outcome State Fault Refusal :=
  predWord h [] none pd (fun t => tt.getLsbD (2 * (t.pred pa).toNat + (t.pred pb).toNat)) s

/-- SEL (R97). -/
def execSel (h : Hdr) (d : Dest) (pc : BitVec 3) (a b : Src) (s : State) : Host.Outcome State Fault Refusal :=
  pureWord h [a, b] (some a) d (fun t => if t.pred pc then t.src a else t.src b) s

/-- MUL (R101). -/
def execMul (h : Hdr) (d : Dest) (a b : Src) (s : State) : Host.Outcome State Fault Refusal :=
  pureWord h [a, b] (some a) d (fun t => t.src a * t.src b) s

/-- MULH (R101). -/
def execMulh (h : Hdr) (d : Dest) (a b : Src) (m : MulhMode) (s : State) : Host.Outcome State Fault Refusal :=
  pureWord h [a, b] (some a) d (fun t => mulhVal m (t.src a) (t.src b)) s

/-- DIV (R102). -/
def execDiv (h : Hdr) (d : Dest) (a b : Src) (sgn : Bool) (s : State) : Host.Outcome State Fault Refusal :=
  pureWord h [a, b] (some a) d (fun t => divVal sgn (t.src a) (t.src b)) s

/-- REM (R102). -/
def execRem (h : Hdr) (d : Dest) (a b : Src) (sgn : Bool) (s : State) : Host.Outcome State Fault Refusal :=
  pureWord h [a, b] (some a) d (fun t => remVal sgn (t.src a) (t.src b)) s

/-- CLZ (R103). -/
def execClz (h : Hdr) (d : Dest) (a : Src) (s : State) : Host.Outcome State Fault Refusal :=
  pureWord h [a] (some a) d (fun t => BitVec.ofNat 64 (leadZeros (t.src a).toNat 64)) s

/-- CTZ (R103). -/
def execCtz (h : Hdr) (d : Dest) (a : Src) (s : State) : Host.Outcome State Fault Refusal :=
  pureWord h [a] (some a) d (fun t => BitVec.ofNat 64 (trailZeros (t.src a).toNat 0 64)) s

/-- POPC (R103). -/
def execPopc (h : Hdr) (d : Dest) (a : Src) (s : State) : Host.Outcome State Fault Refusal :=
  pureWord h [a] (some a) d (fun t => BitVec.ofNat 64 (popBits (t.src a).toNat 64)) s

/-- BFX (R104). -/
def execBfx (h : Hdr) (d : Dest) (a : Src) (pos len : BitVec 6) (sx : Bool) (s : State) :
    Host.Outcome State Fault Refusal :=
  pureWord h [a] (some a) d (fun t => bfxVal (t.src a) pos len sx) s

/-- BFI (R104). -/
def execBfi (h : Hdr) (d : Dest) (a b : Src) (pos len : BitVec 6) (s : State) : Host.Outcome State Fault Refusal :=
  pureWord h [a, b] (some a) d (fun t => bfiVal (t.src a) (t.src b) pos len) s

/-- FSHL (R105). -/
def execFshl (h : Hdr) (d : Dest) (a b n : Src) (s : State) : Host.Outcome State Fault Refusal :=
  pureWord h [a, b, n] (some a) d (fun t => fshlVal (t.src a) (t.src b) (t.src n)) s

/-- FSHR (R105). -/
def execFshr (h : Hdr) (d : Dest) (a b n : Src) (s : State) : Host.Outcome State Fault Refusal :=
  pureWord h [a, b, n] (some a) d (fun t => fshrVal (t.src a) (t.src b) (t.src n)) s

end Sys2Proof.Machine
end

