-- ==== Sys2Proof/Machine/VectorArith.lean ====
section
/-! DEFINITION. Meanings of the arithmetic class of the V map (R116 to R136). -/

namespace Sys2Proof.Machine

/-! ### Shapes of arithmetic words -/

/-- Lane `i` is active (R116). -/
def laneActive (c : Cursor) (h : VHdr) (i : Nat) : Bool := (c.pre.mask h.mask).getLsbD i

/-- The lanes of a result over the old register. -/
def putLanes (old : VReg) (w : Nat) (res : List (Option Nat)) : VReg :=
  packLanes w (List.zipWith (fun i r => r.getD (lane old w i)) (List.range (2048 / w)) res)

/-- Exceptions by lane. -/
def laneFlags (res : List (Option (Nat × BitVec 5))) : List (Nat × BitVec 5) :=
  (List.zip (List.range res.length) res).filterMap fun p => p.2.map fun x => (p.1, x.2)

/-- A word that computes each active lane of VD from the same lanes of its sources (R116, R123). `f` takes the cursor and
the lane number. -/
def laneWord (h : VHdr) (vd : BitVec 7) (srcs : List (BitVec 7)) (ty : ElemTy) (f : Cursor → Nat → Nat × BitVec 5)
    (s : State) : Host.Outcome State Fault Refusal :=
  vecWord h (fun c => srcs.map fun v => (v, activeBytes (laneActive c h) ty.bytes)) [vd] (fun _ _ _ => []) (fun c _ s =>
    let res := (List.range ty.lanes).map fun i => if laneActive c h i then some (f c i) else none
    raiseLanes c s (laneFlags res) c.value fun k =>
      k.vecPut (vd, activeBytes (laneActive c h) ty.bytes) (putLanes (k.vreg vd) ty.bits (res.map fun r => r.map Prod.fst))) s

/-- Lane `i` of a source as its TYPE's bits. -/
def srcLane (c : Cursor) (v : BitVec 7) (ty : ElemTy) (i : Nat) : Nat := lane (c.pre.vreg v) ty.bits i

/-- Operand `k` of a floating-point word, after ABS and NEG (R67). -/
def fltLane (c : Cursor) (v : BitVec 7) (ty : ElemTy) (k i : Nat) : FVal :=
  vmodOperand c.vmod k (decodeFloat (fmtOf ty) (srcLane c v ty i))

/-- One operand. -/
def float1 (h : VHdr) (vd va : BitVec 7) (ty : ElemTy) (op : RMode → FVal → FVal × BitVec 5) (s : State) :
    Host.Outcome State Fault Refusal :=
  laneWord h vd [va] ty (fun c i =>
    let (v, fl) := op (modeOf c) (fltLane c va ty 0 i)
    finishFloat (fmtOf ty) (modeOf c) c.vmod v fl) s

/-- Two operands. -/
def float2 (h : VHdr) (vd va vb : BitVec 7) (ty : ElemTy) (op : RMode → FVal → FVal → FVal × BitVec 5) (s : State) :
    Host.Outcome State Fault Refusal :=
  laneWord h vd [va, vb] ty (fun c i =>
    let (v, fl) := op (modeOf c) (fltLane c va ty 0 i) (fltLane c vb ty 1 i)
    finishFloat (fmtOf ty) (modeOf c) c.vmod v fl) s

/-- Three operands. -/
def float3 (h : VHdr) (vd va vb vc : BitVec 7) (ty : ElemTy) (op : RMode → FVal → FVal → FVal → FVal × BitVec 5)
    (s : State) : Host.Outcome State Fault Refusal :=
  laneWord h vd [va, vb, vc] ty (fun c i =>
    let (v, fl) := op (modeOf c) (fltLane c va ty 0 i) (fltLane c vb ty 1 i) (fltLane c vc ty 2 i)
    finishFloat (fmtOf ty) (modeOf c) c.vmod v fl) s

/-! ### Floating-point arithmetic (R123, R124) -/

/-- VADD (R123). -/
def execVadd (h : VHdr) (vd va vb : BitVec 7) (ty : ElemTy) (s : State) : Host.Outcome State Fault Refusal :=
  float2 h vd va vb ty exactAdd s

/-- VSUB (R123). -/
def execVsub (h : VHdr) (vd va vb : BitVec 7) (ty : ElemTy) (s : State) : Host.Outcome State Fault Refusal :=
  float2 h vd va vb ty (fun m a b => exactAdd m a b.negate) s

/-- VMUL (R123). -/
def execVmul (h : VHdr) (vd va vb : BitVec 7) (ty : ElemTy) (s : State) : Host.Outcome State Fault Refusal :=
  float2 h vd va vb ty (fun _ a b => exactMul a b) s

/-- VFMA: a·b + c (R123). -/
def execVfma (h : VHdr) (vd va vb vc : BitVec 7) (ty : ElemTy) (s : State) : Host.Outcome State Fault Refusal :=
  float3 h vd va vb vc ty exactFma s

/-- VFMS: a·b − c (R123). -/
def execVfms (h : VHdr) (vd va vb vc : BitVec 7) (ty : ElemTy) (s : State) : Host.Outcome State Fault Refusal :=
  float3 h vd va vb vc ty (fun m a b c => exactFma m a b c.negate) s

/-- VFNMA: c − a·b (R123). -/
def execVfnma (h : VHdr) (vd va vb vc : BitVec 7) (ty : ElemTy) (s : State) : Host.Outcome State Fault Refusal :=
  float3 h vd va vb vc ty (fun m a b c => exactFma m a.negate b c) s

/-- VDIV (R124). -/
def execVdiv (h : VHdr) (vd va vb : BitVec 7) (ty : ElemTy) (s : State) : Host.Outcome State Fault Refusal :=
  float2 h vd va vb ty (fun _ a b => exactDiv a b) s

/-- VSQRT (R124). -/
def execVsqrt (h : VHdr) (vd va : BitVec 7) (ty : ElemTy) (s : State) : Host.Outcome State Fault Refusal :=
  float1 h vd va ty (fun _ a => exactSqrt a) s

/-! ### Minimum, maximum, compare, classify (R125 to R127) -/

/-- Minimum or maximum of two lanes (R45, R125). -/
def minMaxWordV (h : VHdr) (vd va vb : BitVec 7) (ty : ElemTy) (max num : Bool) (s : State) :
    Host.Outcome State Fault Refusal :=
  if ty.isInt then
    laneWord h vd [va, vb] ty (fun c i =>
      let a := srcLane c va ty i
      let b := srcLane c vb ty i
      let less := decide (intOf ty.isSigned ty.bits b < intOf ty.isSigned ty.bits a)
      (if less then (if max then a else b) else (if max then b else a), 0)) s
  else float2 h vd va vb ty (fun _ a b => minMaxVal max num a b) s

/-- VMIN (R125). -/
def execVmin (h : VHdr) (vd va vb : BitVec 7) (ty : ElemTy) (s : State) : Host.Outcome State Fault Refusal :=
  minMaxWordV h vd va vb ty false false s

/-- VMAX (R125). -/
def execVmax (h : VHdr) (vd va vb : BitVec 7) (ty : ElemTy) (s : State) : Host.Outcome State Fault Refusal :=
  minMaxWordV h vd va vb ty true false s

/-- VMINN (R125). -/
def execVminn (h : VHdr) (vd va vb : BitVec 7) (ty : ElemTy) (s : State) : Host.Outcome State Fault Refusal :=
  minMaxWordV h vd va vb ty false true s

/-- VMAXN (R125). -/
def execVmaxn (h : VHdr) (vd va vb : BitVec 7) (ty : ElemTy) (s : State) : Host.Outcome State Fault Refusal :=
  minMaxWordV h vd va vb ty true true s

/-- Invalid of a comparison: any NaN for lt to ge, a signalling one otherwise (R126). -/
def cmpFlags (cc : VCond) (a b : FVal) : BitVec 5 :=
  match cc with
  | .lt | .le | .gt | .ge => if a.isNan || b.isNan then flagNv else 0
  | .eq | .ne | .un | .ord => snanFlag a ||| snanFlag b

/-- One lane of VCMP. -/
def cmpLane (c : Cursor) (va vb : BitVec 7) (ty : ElemTy) (cc : VCond) (i : Nat) : Bool × BitVec 5 :=
  if ty.isInt then
    let a := intOf ty.isSigned ty.bits (srcLane c va ty i)
    let b := intOf ty.isSigned ty.bits (srcLane c vb ty i)
    (vcondTest cc (some (compare a b)), 0)
  else
    let a := fltLane c va ty 0 i
    let b := fltLane c vb ty 1 i
    (vcondTest cc (compareVal a b), cmpFlags cc a b)

/-- VCMP (R126). -/
def execVcmp (h : VHdr) (md : BitVec 3) (va vb : BitVec 7) (ty : ElemTy) (cc : VCond) (s : State) :
    Host.Outcome State Fault Refusal :=
  vecWord h (fun c => [va, vb].map fun v => (v, activeBytes (laneActive c h) ty.bytes)) [] (fun _ _ _ => []) (fun c _ s =>
    let res := (List.range ty.lanes).map fun i => if laneActive c h i then some (cmpLane c va vb ty cc i) else none
    raiseLanes c s (laneFlags (res.map fun r => r.map fun x => (x.1.toNat, x.2))) c.value fun k =>
      k.setMask md (maskPut (k.mask md) (laneActive c h) ty.lanes fun i =>
        ((res.getD i none).map Prod.fst).getD false)) s

/-- The class bit of a value (R127). -/
def classBit (f : Fmt) (x : Nat) : Nat :=
  match decodeFloat f x with
  | .inf true => 0
  | .inf false => 7
  | .nan true => 8
  | .nan false => 9
  | .fin neg m _ =>
    if m = 0 then (if neg then 3 else 4)
    else if m < 2 ^ f.tbits then (if neg then 2 else 5) else (if neg then 1 else 6)

/-- VCLASS (R127). -/
def execVclass (h : VHdr) (vd va : BitVec 7) (ty : ElemTy) (s : State) : Host.Outcome State Fault Refusal :=
  laneWord h vd [va] ty (fun c i => (2 ^ classBit (fmtOf ty) (srcLane c va ty i), 0)) s

/-! ### Estimates, refinement, transcendentals (R128, R129) -/

/-- One lane of an estimate (R50, R128). -/
def estLane (rsq : Bool) (c : Cursor) (va : BitVec 7) (ty : ElemTy) (i : Nat) : Nat × BitVec 5 :=
  match estimateOf rsq (fltLane c va ty 0 i) with
  | .inl (v, fl) => finishFloat (fmtOf ty) (modeOf c) c.vmod v fl
  | .inr exact =>
    let (bits, fl) := roundEstimate (fmtOf ty) (modeOf c) (vmodScale c.vmod) exact
    (clampBits (fmtOf ty) (vmodClamp c.vmod) fl bits, fl)

/-- VRCPE (R50, R128). -/
def execVrcpe (h : VHdr) (vd va : BitVec 7) (ty : ElemTy) (s : State) : Host.Outcome State Fault Refusal :=
  laneWord h vd [va] ty (fun c i => estLane false c va ty i) s

/-- VRSQE (R50, R128). -/
def execVrsqe (h : VHdr) (vd va : BitVec 7) (ty : ElemTy) (s : State) : Host.Outcome State Fault Refusal :=
  laneWord h vd [va] ty (fun c i => estLane true c va ty i) s

/-- VRCPS (R51, R128). -/
def execVrcps (h : VHdr) (vd va vb : BitVec 7) (ty : ElemTy) (s : State) : Host.Outcome State Fault Refusal :=
  float2 h vd va vb ty rcpsVal s

/-- VRSQS (R51, R128). -/
def execVrsqs (h : VHdr) (vd va vb : BitVec 7) (ty : ElemTy) (s : State) : Host.Outcome State Fault Refusal :=
  float2 h vd va vb ty rsqsVal s

/-- A transcendental: always RNE (R37, R129). -/
def transWord (h : VHdr) (vd va : BitVec 7) (ty : ElemTy) (op : FVal → FVal × BitVec 5) (s : State) :
    Host.Outcome State Fault Refusal :=
  laneWord h vd [va] ty (fun c i =>
    let (v, fl) := op (fltLane c va ty 0 i)
    finishFloat (fmtOf ty) .rne c.vmod v fl) s

/-- VEXP2 (R52, R129). -/
def execVexp2 (h : VHdr) (vd va : BitVec 7) (ty : ElemTy) (s : State) : Host.Outcome State Fault Refusal :=
  transWord h vd va ty exp2Val s

/-- VLOG2 (R52, R129). -/
def execVlog2 (h : VHdr) (vd va : BitVec 7) (ty : ElemTy) (s : State) : Host.Outcome State Fault Refusal :=
  transWord h vd va ty log2Val s

/-- VSIN (R52, R129). -/
def execVsin (h : VHdr) (vd va : BitVec 7) (ty : ElemTy) (s : State) : Host.Outcome State Fault Refusal :=
  transWord h vd va ty sinVal s

/-- VCOS (R52, R129). -/
def execVcos (h : VHdr) (vd va : BitVec 7) (ty : ElemTy) (s : State) : Host.Outcome State Fault Refusal :=
  transWord h vd va ty cosVal s

/-! ### Conversion (R130, R131) -/

/-- The value of a source lane that is not an integer. (DEDUCED, log 56.) -/
def cvtSource (fpctl : Word) (ty : ElemTy) (x : Nat) : FVal :=
  match ty with
  | .f8 => decodeF8 (f8Of fpctl) x
  | .e8s => decodeE8s x
  | t => decodeFloat (fmtOf t) x

/-- A float rounded to an integer format (R41, R131). -/
def floatToInt (mode : RMode) (sgn : Bool) (w : Nat) (v : FVal) : Nat × BitVec 5 :=
  match v with
  | .nan _ => (0, flagNv)
  | .inf neg => (wrapInt w (if neg then intLo sgn w else intHi sgn w), flagNv)
  | .fin _ _ _ =>
    match roundToInt mode v with
    | none => (0, flagNv)
    | some (i, ix) =>
      if i < intLo sgn w ∨ intHi sgn w < i then (wrapInt w (satInt sgn w i), flagNv)
      else (wrapInt w i, if ix then flagNx else 0)

/-- An integer source of a conversion under VMOD: ABS then NEG of its value (R131). -/
def vmodInt (vm : Option Vmod) (v : Int) : Int :=
  match vm with
  | none => v
  | some m =>
    let u := if m.abs.getLsbD 2 then (v.natAbs : Int) else v
    if m.neg.getLsbD 2 then -u else u

/-- convert(x) of R131 for one lane. -/
def cvtLane (c : Cursor) (d src : ElemTy) (x : Nat) : Nat × BitVec 5 :=
  let fpctl := c.regs.fpctl
  let mode := modeOf c
  let cl := vmodClamp c.vmod
  if src.isInt then
    let v := intOf src.isSigned src.bits x
    if d.isInt then (wrapInt d.bits (if cl = .sat then satInt d.isSigned d.bits v else v), 0)
    else finishFloat (fmtOf d) mode c.vmod (valOfInt (vmodInt c.vmod v)) 0
  else
    let v := cvtSource fpctl src x
    match d, src with
    | .f8, .f8 => (x, 0)
    | .e8s, .e8s => (x, 0)
    | .f8, _ =>
      let v1 := clampVal cl ((vmodOperand c.vmod 0 v).scale (vmodScale c.vmod))
      encodeF8 (f8Of fpctl) ((f8Of fpctl).sat || cl = .sat) mode v1
    | .e8s, _ => encodeE8s ((vmodOperand c.vmod 0 v).scale (vmodScale c.vmod))
    | _, _ =>
      if d.isInt then floatToInt mode d.isSigned d.bits v
      else finishFloat (fmtOf d) mode c.vmod (vmodOperand c.vmod 0 v) (snanFlag v)

/-- VCVT (R130). -/
def execVcvt (h : VHdr) (vd va : BitVec 7) (d src : ElemTy) (part : BitVec 3) (s : State) :
    Host.Outcome State Fault Refusal :=
  let n := 256 / max d.bytes src.bytes
  let sl (i : Nat) : Nat := if src.bytes < d.bytes then part.toNat * n + i else i
  let dl (i : Nat) : Nat := if d.bytes < src.bytes then part.toNat * n + i else i
  let live (c : Cursor) (i : Nat) : Bool := decide (i < n) && laneActive c h i
  let wrote (c : Cursor) (b : Nat) : Bool :=
    let l := b / d.bytes
    if d.bytes < src.bytes then decide (part.toNat * n ≤ l) && live c (l - part.toNat * n) else live c l
  vecWord h (fun c => [(va, fun b =>
      let l := b / src.bytes
      if src.bytes < d.bytes then decide (part.toNat * n ≤ l) && live c (l - part.toNat * n) else live c l)]) [vd]
    (fun _ _ _ => []) (fun c _ s =>
      let res := (List.range n).filterMap fun i =>
        if laneActive c h i then some (dl i, cvtLane c d src (lane (c.pre.vreg va) src.bits (sl i))) else none
      raiseLanes c s (res.map fun r => (r.1, r.2.2)) c.value fun k =>
        k.vecPut (vd, wrote c) (mapLanes (k.vreg vd) d.bits fun l => (res.find? fun r => r.1 == l).map fun r => r.2.1)) s

/-! ### Block quantisation (R132 to R134) -/

/-- floor(log2 |v|) of a finite nonzero value. -/
def ilog (v : FVal) : Int := match v with | .fin _ m e => (Nat.log2 m : Int) + e | _ => 0

/-- Whether a value is NaN or infinite. -/
def notFinite (v : FVal) : Bool := match v with | .fin _ _ _ => false | _ => true

/-- The scale of a block (R133). -/
def blockScale (sgn : Bool) (vals : List FVal) : Nat :=
  if vals.any notFinite then 0xFF
  else
    let nz := vals.filter fun v => match v with | .fin _ m _ => m != 0 | _ => false
    match nz with
    | [] => 0x7F
    | v :: t => (max 0 (t.foldl (fun a x => max a (ilog x)) (ilog v) - (if sgn then 6 else 7) + 127)).toNat

/-- One lane of VQBLK under scale `sc`: the byte and its exceptions; `own` where the word computed the scale itself. -/
def quantLane (mode : RMode) (sgn own : Bool) (sc : Nat) (v : FVal) : Nat × BitVec 5 :=
  if sc = 0xFF then (0, if own && notFinite v then flagNv else 0)
  else if notFinite v then (0, flagNv)
  else
    match roundToInt mode (v.scale (127 - (sc : Int))) with
    | none => (0, flagNv)
    | some (i, ix) =>
      let q := satInt sgn 8 i
      (wrapInt 8 q, if ix || q != i then flagNx else 0)

/-- VQBLK in either form. -/
def qblkWord (h : VHdr) (vd va : BitVec 7) (vs : Option (BitVec 7)) (ty src : ElemTy) (b : BitVec 3) (s : State) :
    Host.Outcome State Fault Refusal :=
  let ls := src.lanes
  let bl := 2 ^ (b.toNat + 3)
  let nb := max 1 (ls / bl)
  let sgn := ty.isSigned
  vecWord h (fun _ => allOf va :: (match vs with | some v => [(v, fun x => decide (x < nb))] | none => [])) [vd]
    (fun _ _ _ => []) (fun c _ s =>
      let mode := rmOf c.regs.fpctl
      let vals := (lanesOf (c.pre.vreg va) src.bits).map (decodeFloat (fmtOf src))
      let blockOf (k : Nat) : List FVal := (vals.drop (k * bl)).take bl
      let scales := (List.range nb).map fun k =>
        match vs with
        | none => blockScale sgn (blockOf k)
        | some v => lane (c.pre.vreg v) 8 (if bl ≤ ls then k else 0)
      let res := (List.zip (List.range ls) vals).map fun p =>
        quantLane mode sgn vs.isNone (scales.getD (p.1 / bl) 0) p.2
      let fl := (List.zip (List.range ls) res).map fun p => (p.1, p.2.2)
      let tail := match vs with | none => scales | some _ => []
      let n := ls + tail.length
      let bytes := res.map Prod.fst ++ tail
      raiseLanes c s fl c.value fun k =>
        k.vecPut (vd, fun x => decide (x < n)) (mapLanes (k.vreg vd) 8 fun i => bytes[i]?)) s

/-- VQBLK computing its scales (R132, R133). -/
def execVqblk (h : VHdr) (vd va : BitVec 7) (ty src : ElemTy) (b : BitVec 3) (s : State) :
    Host.Outcome State Fault Refusal :=
  qblkWord h vd va none ty src b s

/-- VQBLK with given scales (R132, R133). -/
def execVqblkGiven (h : VHdr) (vd va vs : BitVec 7) (ty src : ElemTy) (b : BitVec 3) (s : State) :
    Host.Outcome State Fault Refusal :=
  qblkWord h vd va (some vs) ty src b s

/-- The value of a byte of VDQBLK's source (R134). -/
def dqSource (fpctl : Word) (src : ElemTy) (x : Nat) : FVal :=
  if src.isInt then valOfInt (intOf src.isSigned 8 x) else decodeF8 (f8Of fpctl) x

/-- VDQBLK (R134). -/
def execVdqblk (h : VHdr) (vd va vs : BitVec 7) (ty src : ElemTy) (b : BitVec 3) (s : State) :
    Host.Outcome State Fault Refusal :=
  let ld := ty.lanes
  let bl := 2 ^ (b.toNat + 3)
  let blk (i : Nat) : Nat := if bl ≤ ld then i / bl else 0
  vecWord h (fun c =>
      [(va, fun x => decide (x < ld) && laneActive c h x),
       (vs, fun x => (List.range ld).any fun i => laneActive c h i && blk i == x)]) [vd] (fun _ _ _ => []) (fun c _ s =>
    let res := (List.range ld).map fun i =>
      if laneActive c h i then
        let sc := lane (c.pre.vreg vs) 8 (blk i)
        let v := dqSource c.regs.fpctl src (lane (c.pre.vreg va) 8 i)
        some (if sc = 0xFF || v.isNan then ((fmtOf ty).nanBits, 0)
          else finishFloat (fmtOf ty) (modeOf c) c.vmod (v.scale ((sc : Int) - 127)) 0)
      else none
    raiseLanes c s (laneFlags res) c.value fun k =>
      k.vecPut (vd, activeBytes (laneActive c h) ty.bytes) (putLanes (k.vreg vd) ty.bits (res.map fun r => r.map Prod.fst))) s

/-! ### Integer arithmetic (R135) -/

/-- An integer word: exact, then wrapped, or saturated under `clamp=sat`. -/
def intWord (h : VHdr) (vd : BitVec 7) (srcs : List (BitVec 7)) (ty : ElemTy) (f : List Int → Int) (s : State) :
    Host.Outcome State Fault Refusal :=
  laneWord h vd srcs ty (fun c i =>
    let x := f (srcs.map fun v => intOf ty.isSigned ty.bits (srcLane c v ty i))
    (wrapInt ty.bits (if vmodClamp c.vmod = .sat then satInt ty.isSigned ty.bits x else x), 0)) s

/-- VIADD (R135). -/
def execViadd (h : VHdr) (vd va vb : BitVec 7) (ty : ElemTy) (s : State) : Host.Outcome State Fault Refusal :=
  intWord h vd [va, vb] ty (fun l => l.getD 0 0 + l.getD 1 0) s

/-- VISUB (R135). -/
def execVisub (h : VHdr) (vd va vb : BitVec 7) (ty : ElemTy) (s : State) : Host.Outcome State Fault Refusal :=
  intWord h vd [va, vb] ty (fun l => l.getD 0 0 - l.getD 1 0) s

/-- VIMUL (R135). -/
def execVimul (h : VHdr) (vd va vb : BitVec 7) (ty : ElemTy) (s : State) : Host.Outcome State Fault Refusal :=
  intWord h vd [va, vb] ty (fun l => l.getD 0 0 * l.getD 1 0) s

/-- VIMULH (R135): the high half, never saturated. -/
def execVimulh (h : VHdr) (vd va vb : BitVec 7) (ty : ElemTy) (s : State) : Host.Outcome State Fault Refusal :=
  laneWord h vd [va, vb] ty (fun c i =>
    let a := intOf ty.isSigned ty.bits (srcLane c va ty i)
    let b := intOf ty.isSigned ty.bits (srcLane c vb ty i)
    (wrapInt ty.bits (a * b / 2 ^ ty.bits), 0)) s

/-- VIMAD (R135). -/
def execVimad (h : VHdr) (vd va vb vc : BitVec 7) (ty : ElemTy) (s : State) : Host.Outcome State Fault Refusal :=
  intWord h vd [va, vb, vc] ty (fun l => l.getD 0 0 * l.getD 1 0 + l.getD 2 0) s

/-! ### Logic, shifts, counts (R136) -/

/-- A word on the bits of two lanes. -/
def bits2 (h : VHdr) (vd va vb : BitVec 7) (ty : ElemTy) (f : Nat → Nat → Nat → Nat) (s : State) :
    Host.Outcome State Fault Refusal :=
  laneWord h vd [va, vb] ty (fun c i => (f ty.bits (srcLane c va ty i) (srcLane c vb ty i) % 2 ^ ty.bits, 0)) s

/-- VAND (R136). -/
def execVand (h : VHdr) (vd va vb : BitVec 7) (ty : ElemTy) (s : State) : Host.Outcome State Fault Refusal :=
  bits2 h vd va vb ty (fun _ a b => a &&& b) s

/-- VOR (R136). -/
def execVor (h : VHdr) (vd va vb : BitVec 7) (ty : ElemTy) (s : State) : Host.Outcome State Fault Refusal :=
  bits2 h vd va vb ty (fun _ a b => a ||| b) s

/-- VXOR (R136). -/
def execVxor (h : VHdr) (vd va vb : BitVec 7) (ty : ElemTy) (s : State) : Host.Outcome State Fault Refusal :=
  bits2 h vd va vb ty (fun _ a b => a ^^^ b) s

/-- VANDN (R136). -/
def execVandn (h : VHdr) (vd va vb : BitVec 7) (ty : ElemTy) (s : State) : Host.Outcome State Fault Refusal :=
  bits2 h vd va vb ty (fun w a b => a &&& (2 ^ w - 1 - b)) s

/-- Shifts of a lane by the low 8 bits of another (R49). -/
def laneShl (w a b : Nat) : Nat := if b % 256 < w then a * 2 ^ (b % 256) else 0
@[inherit_doc laneShl]
def laneShr (a b : Nat) : Nat := a / 2 ^ (b % 256)
@[inherit_doc laneShl]
def laneSar (w a b : Nat) : Nat := wrapInt w (intOf true w a / 2 ^ (b % 256))
@[inherit_doc laneShl]
def laneRot (w a b : Nat) : Nat := let n := b % 256 % w; a * 2 ^ n + a / 2 ^ (w - n)

/-- VSHL (R49, R136). -/
def execVshl (h : VHdr) (vd va vb : BitVec 7) (ty : ElemTy) (s : State) : Host.Outcome State Fault Refusal :=
  bits2 h vd va vb ty laneShl s

/-- VSHR (R49, R136). -/
def execVshr (h : VHdr) (vd va vb : BitVec 7) (ty : ElemTy) (s : State) : Host.Outcome State Fault Refusal :=
  bits2 h vd va vb ty (fun _ a b => laneShr a b) s

/-- VSAR (R49, R136). -/
def execVsar (h : VHdr) (vd va vb : BitVec 7) (ty : ElemTy) (s : State) : Host.Outcome State Fault Refusal :=
  bits2 h vd va vb ty laneSar s

/-- VROT (R49, R136). -/
def execVrot (h : VHdr) (vd va vb : BitVec 7) (ty : ElemTy) (s : State) : Host.Outcome State Fault Refusal :=
  bits2 h vd va vb ty laneRot s

/-- A funnel shift of two lanes by the low 8 bits of a third (R49). -/
def funnelWord (h : VHdr) (vd va vb vc : BitVec 7) (ty : ElemTy) (f : Nat → Nat → Nat → Nat) (s : State) :
    Host.Outcome State Fault Refusal :=
  laneWord h vd [va, vb, vc] ty (fun c i =>
    let w := ty.bits
    (f w (srcLane c va ty i * 2 ^ w + srcLane c vb ty i) (srcLane c vc ty i % 256), 0)) s

/-- VFSHL (R49, R136). -/
def execVfshl (h : VHdr) (vd va vb vc : BitVec 7) (ty : ElemTy) (s : State) : Host.Outcome State Fault Refusal :=
  funnelWord h vd va vb vc ty (fun w x n => x * 2 ^ n % 2 ^ (2 * w) / 2 ^ w) s

/-- VFSHR (R49, R136). -/
def execVfshr (h : VHdr) (vd va vb vc : BitVec 7) (ty : ElemTy) (s : State) : Host.Outcome State Fault Refusal :=
  funnelWord h vd va vb vc ty (fun w x n => x / 2 ^ n % 2 ^ w) s

/-- VCLZ (R136). -/
def execVclz (h : VHdr) (vd va : BitVec 7) (ty : ElemTy) (s : State) : Host.Outcome State Fault Refusal :=
  laneWord h vd [va] ty (fun c i => (leadZeros (srcLane c va ty i) ty.bits, 0)) s

/-- VPOPC (R136). -/
def execVpopc (h : VHdr) (vd va : BitVec 7) (ty : ElemTy) (s : State) : Host.Outcome State Fault Refusal :=
  laneWord h vd [va] ty (fun c i => (popBits (srcLane c va ty i) ty.bits, 0)) s

/-- VMOD (R67): the modifiers take effect on the word that follows. -/
def execVmod (wait : Wait) (sig : Sig) (neg abs : BitVec 3) (clamp : Clamp) (scale : BitVec 4) (rnd : Option RMode)
    (s : State) : Host.Outcome State Fault Refusal :=
  runWord wait sig false (fun c _ s =>
    .ok { s with cursor := some { (s.cursor.getD c) with vmod := some ⟨neg, abs, clamp, scale, rnd⟩ } } c.value none) s

end Sys2Proof.Machine
end

