-- ==== Sys2Proof/Machine/VectorData.lean ====
section
/-! DEFINITION. Meanings of the data class of the V map, reductions, mask words, table building, snapshots and sampling
(R137 to R158). -/

namespace Sys2Proof.Machine

/-! ### Scratchpad access (R140 to R142) -/

/-- The enabled accesses of a word, (offset, bytes) in order. -/
abbrev Accesses := List (Nat × Nat)

/-- BOUND where the span from the lowest to the highest enabled byte leaves the windows; MEM_UE where a load meets an
uncorrectable unit. -/
def spanCauses (j : Job) (load : Bool) (l : Accesses) : List (BitVec 8) :=
  match l with
  | [] => []
  | (a, n) :: t =>
    let lo := t.foldl (fun m p => min m p.1) a
    let hi := t.foldl (fun m p => max m (p.1 + p.2)) (a + n)
    (if j.spanOk lo (hi - lo) then [] else [causeBound]) ++
      (if load && l.any (fun p => unitsTouch j.spBad p.1 p.2) then [causeMemUe] else [])

/-- A lane loaded from the scratchpad. -/
def loadLane (j : Job) (a n : Nat) : Nat := leNat (cellGetN j.sp a n)

/-- Stores lanes in order. -/
def storeLanes (j : Job) (l : List (Nat × List Byte)) : Job := l.foldl (fun k p => k.spPut p.1 p.2) j

/-- The address of VLD and VST: src(VA) + sext(i14) (R141). -/
def vecBase (c : Cursor) (ka : Src) (off : BitVec 14) : Nat := (c.regs.src ka + off.signExtend 64).toNat

/-- The units (lanes, or bytes with BM) of a contiguous access: their width in bytes and count. -/
def unitWidth (ty : ElemTy) (bm : Bool) : Nat := if bm then 1 else ty.bytes

/-- The active units. -/
def activeUnits (c : Cursor) (h : VHdr) (w : Nat) : List Nat := (List.range (256 / w)).filter (laneActive c h)

/-- A word that loads lanes of `w` bytes from computed addresses. -/
def loadWord (h : VHdr) (vd : BitVec 7) (srcs : Cursor → List Touch) (w : Nat) (addr : Cursor → Nat → Nat) (s : State) :
    Host.Outcome State Fault Refusal :=
  vecWordAt (fun c j => (activeUnits c h w).findSome? fun i => j.spUe none (addr c i) w) h srcs [vd]
    (fun c j _ => spanCauses j true ((activeUnits c h w).map fun i => (addr c i, w))) (fun c j s =>
    .ok (s.modJob c.job fun k =>
      k.vecPut (vd, activeBytes (laneActive c h) w) (mapLanes (k.vreg vd) (8 * w) fun i =>
        if laneActive c h i then some (loadLane j (addr c i) w) else none)) c.value none) s

/-- A word that stores lanes of `w` bytes to computed addresses, in ascending lane order. (DESIGN CHOICE, log 32.) (DESIGN CHOICE, log 97.) -/
def storeWord (h : VHdr) (vs : BitVec 7) (srcs : Cursor → List Touch) (w : Nat) (addr : Cursor → Nat → Nat) (s : State) :
    Host.Outcome State Fault Refusal :=
  vecWord h (fun c => (vs, activeBytes (laneActive c h) w) :: srcs c) []
    (fun c j _ => spanCauses j false ((activeUnits c h w).map fun i => (addr c i, w))) (fun c _ s =>
      .ok (s.modJob c.job fun k =>
        storeLanes k ((activeUnits c h w).map fun i => (addr c i, leBytes w (lane (c.pre.vreg vs) (8 * w) i)))) c.value none) s

/-- VLD (R141). -/
def execVld (h : VHdr) (vd : BitVec 7) (ka : Src) (off : BitVec 14) (ty : ElemTy) (bm : Bool) (s : State) :
    Host.Outcome State Fault Refusal :=
  loadWord h vd (fun _ => []) (unitWidth ty bm) (fun c i => vecBase c ka off + i * unitWidth ty bm) s

/-- VST (R141). -/
def execVst (h : VHdr) (vs : BitVec 7) (ka : Src) (off : BitVec 14) (ty : ElemTy) (bm : Bool) (s : State) :
    Host.Outcome State Fault Refusal :=
  storeWord h vs (fun _ => []) (unitWidth ty bm) (fun c i => vecBase c ka off + i * unitWidth ty bm) s

/-- VLDS (R141): the stride is signed and the address wraps. -/
def execVlds (h : VHdr) (vd : BitVec 7) (ka kb : Src) (ty : ElemTy) (s : State) : Host.Outcome State Fault Refusal :=
  loadWord h vd (fun _ => []) ty.bytes
    (fun c i => (c.regs.src ka + BitVec.ofNat 64 i * c.regs.src kb).toNat) s

/-- The address of a lane of VGATS and VSCATS (R142). -/
def gatherAddr (ka : Src) (vb : BitVec 7) (ty : ElemTy) (c : Cursor) (i : Nat) : Nat :=
  (c.regs.src ka + BitVec.ofNat 64 (lane (c.pre.vreg vb) ty.bits i)).toNat

/-- VGATS (R142). -/
def execVgats (h : VHdr) (vd : BitVec 7) (ka : Src) (vb : BitVec 7) (ty : ElemTy) (s : State) :
    Host.Outcome State Fault Refusal :=
  loadWord h vd (fun c => [(vb, activeBytes (laneActive c h) ty.bytes)]) ty.bytes (gatherAddr ka vb ty) s

/-- VSCATS (R142). -/
def execVscats (h : VHdr) (vs : BitVec 7) (ka : Src) (vb : BitVec 7) (ty : ElemTy) (s : State) :
    Host.Outcome State Fault Refusal :=
  storeWord h vs (fun c => [(vb, activeBytes (laneActive c h) ty.bytes)]) ty.bytes (gatherAddr ka vb ty) s

/-! ### Lane movement (R143, R144) -/

/-- A word that moves lanes: `f` gives lane `i` of VD from the registers before the bundle. -/
def moveWord (h : VHdr) (vd : BitVec 7) (srcs : List (BitVec 7)) (ty : ElemTy) (f : Cursor → Nat → Nat) (s : State) :
    Host.Outcome State Fault Refusal :=
  vecWord h (fun _ => srcs.map allOf) [vd] (fun _ _ _ => []) (fun c _ s =>
    .ok (s.modJob c.job fun k =>
      k.vecPut (vd, activeBytes (laneActive c h) ty.bytes) (mapLanes (k.vreg vd) ty.bits fun i =>
        if laneActive c h i then some (f c i) else none)) c.value none) s

/-- VPERM (R143). -/
def execVperm (h : VHdr) (vd va vb : BitVec 7) (ty : ElemTy) (s : State) : Host.Outcome State Fault Refusal :=
  moveWord h vd [va, vb] ty (fun c i => srcLane c va ty (srcLane c vb ty i % ty.lanes)) s

/-- VSHUF (R143). -/
def execVshuf (h : VHdr) (vd va vb vc : BitVec 7) (ty : ElemTy) (s : State) : Host.Outcome State Fault Refusal :=
  moveWord h vd [va, vb, vc] ty (fun c i =>
    let x := srcLane c vc ty i % (2 * ty.lanes)
    if x < ty.lanes then srcLane c va ty x else srcLane c vb ty (x - ty.lanes)) s

/-- VBCAST (R143). -/
def execVbcast (h : VHdr) (vd : BitVec 7) (ka : Src) (ty : ElemTy) (s : State) : Host.Outcome State Fault Refusal :=
  moveWord h vd [] ty (fun c _ => (c.regs.src ka).toNat % 2 ^ ty.bits) s

/-- VSLIDE.dn (R143). -/
def execVslideDn (h : VHdr) (vd va vb : BitVec 7) (kc : Src) (ty : ElemTy) (s : State) :
    Host.Outcome State Fault Refusal :=
  moveWord h vd [va, vb] ty (fun c i =>
    let x := i + (c.regs.src kc).toNat
    if x < ty.lanes then srcLane c va ty x
    else if x < 2 * ty.lanes then srcLane c vb ty (x - ty.lanes) else 0) s

/-- VSLIDE.up (R143). -/
def execVslideUp (h : VHdr) (vd va vb : BitVec 7) (kc : Src) (ty : ElemTy) (s : State) :
    Host.Outcome State Fault Refusal :=
  moveWord h vd [va, vb] ty (fun c i =>
    let n := (c.regs.src kc).toNat
    if n ≤ i then srcLane c va ty (i - n)
    else if n ≤ i + ty.lanes then srcLane c vb ty (ty.lanes + i - n) else 0) s

/-- VSEL (R143). -/
def execVsel (h : VHdr) (vd va vb : BitVec 7) (mc : BitVec 3) (ty : ElemTy) (s : State) :
    Host.Outcome State Fault Refusal :=
  moveWord h vd [va, vb] ty (fun c i => if (c.pre.mask mc).getLsbD i then srcLane c va ty i else srcLane c vb ty i) s

/-- A V word that yields a scalar result pushes it onto V's history (R138). -/
def pushResult (c : Cursor) (s : State) (x : Word) : WRes :=
  .ok (s.modRegs c.job c.stream c.slot fun t => t.push x) x none

/-- VEXT (R144). -/
def execVext (h : VHdr) (va : BitVec 7) (kb : Src) (ty : ElemTy) (s : State) : Host.Outcome State Fault Refusal :=
  vecWord h (fun c => [(va, fun b => b / ty.bytes == (c.regs.src kb).toNat)]) [] (fun _ _ _ => []) (fun c _ s =>
    let n := (c.regs.src kb).toNat
    let x := if n < ty.lanes then srcLane c va ty n else 0
    pushResult c s (if ty.isSigned then sext64 x ty.bits else BitVec.ofNat 64 x)) s

/-- VINS (R144). -/
def execVins (h : VHdr) (vd : BitVec 7) (ka kb : Src) (ty : ElemTy) (s : State) : Host.Outcome State Fault Refusal :=
  vecWord h (fun _ => []) [vd] (fun _ _ _ => []) (fun c _ s =>
    let n := (c.regs.src kb).toNat
    if ty.lanes ≤ n then .ok s c.value none
    else
      .ok (s.modJob c.job fun k =>
        k.vecPut (vd, fun b => b / ty.bytes == n) (mapLanes (k.vreg vd) ty.bits fun i =>
          if i = n then some ((c.regs.src ka).toNat % 2 ^ ty.bits) else none)) c.value none) s

/-! ### Reductions (R47, R146 to R148) -/

/-- A lane as a reduction consumes it: of a NaN the canonical one, with NV for a signalling one (R24). (DEDUCED, log 54.) -/
def quietBits (f : Fmt) (a : Nat) : Nat × BitVec 5 :=
  let v := decodeFloat f a
  if v.isNan then (f.nanBits, snanFlag v) else (a, 0)

/-- One level of the pairwise tree: absent inputs pass the other through (R47). -/
def treeLevel (add : Nat → Nat → Nat × BitVec 5) : List (Option Nat) → List (Option Nat) × BitVec 5
  | [] => ([], 0)
  | [x] => ([x], 0)
  | x :: y :: t =>
    let (rest, fl) := treeLevel add t
    match x, y with
    | some a, some b => let (v, fv) := add a b; (some v :: rest, fl ||| fv)
    | some a, none => (some a :: rest, fl)
    | none, r => (r :: rest, fl)

/-- The whole tree, `f` levels. -/
def treeSum (add : Nat → Nat → Nat × BitVec 5) : Nat → List (Option Nat) → Option Nat × BitVec 5
  | 0, l => (l.getD 0 none, 0)
  | f + 1, l =>
    let (l1, fl) := treeLevel add l
    let (r, fr) := treeSum add f l1
    (r, fl ||| fr)

/-- A rounded floating-point addition on bits. -/
def addBits (f : Fmt) (mode : RMode) (a b : Nat) : Nat × BitVec 5 :=
  let (v, fl) := exactAdd mode (decodeFloat f a) (decodeFloat f b)
  let (x, fr) := roundVal f mode v
  (x, fl ||| fr)

/-- The active lanes of a source, absent where inactive. -/
def activeList (c : Cursor) (h : VHdr) (va : BitVec 7) (ty : ElemTy) : List (Option Nat) :=
  (List.range ty.lanes).map fun i => if laneActive c h i then some (srcLane c va ty i) else none

/-- The sum of the active lanes (R47, R146); a single NaN comes out canonical (R24). (DEDUCED, log 54.) -/
def sumLanes (c : Cursor) (h : VHdr) (va : BitVec 7) (ty : ElemTy) : Nat × BitVec 5 :=
  if ty.isInt then
    (wrapInt ty.bits (((activeList c h va ty).filterMap id).map (intOf ty.isSigned ty.bits)).sum, 0)
  else
    let l := (activeList c h va ty).map fun o => o.map (quietBits (fmtOf ty))
    let (r, fl) := treeSum (addBits (fmtOf ty) (rmOf c.regs.fpctl)) 8 (l.map fun o => o.map Prod.fst)
    (r.getD 0, l.foldl (fun a o => a ||| (o.map Prod.snd).getD 0) fl)

/-- Whether lane value `x` ranks above `y` in a reduction: greater for max, less for min. -/
def ranksAbove (ty : ElemTy) (least : Bool) (x y : Nat) : Bool :=
  if ty.isInt then
    let a := intOf ty.isSigned ty.bits x
    let b := intOf ty.isSigned ty.bits y
    if least then decide (a < b) else decide (b < a)
  else
    let a := decodeFloat (fmtOf ty) x
    let b := decodeFloat (fmtOf ty) y
    if least then totalLess a b else totalLess b a

/-- The value a reduction without an active lane gives (R146). -/
def emptyReduction (ty : ElemTy) (least : Bool) : Nat :=
  if ty.isInt then wrapInt ty.bits (if least then intHi ty.isSigned ty.bits else intLo ty.isSigned ty.bits)
  else (fmtOf ty).infBits (!least)

/-- The greatest or least active lane: value, lane and exceptions (R146, R147). -/
def bestLane (c : Cursor) (h : VHdr) (va : BitVec 7) (ty : ElemTy) (least : Bool) : Nat × Option Nat × BitVec 5 :=
  let l := (List.zip (List.range ty.lanes) (activeList c h va ty)).filterMap fun p => p.2.map fun x => (p.1, x)
  let nan (x : Nat) : Bool := !ty.isInt && (decodeFloat (fmtOf ty) x).isNan
  let fl : BitVec 5 := if ty.isInt then 0 else l.foldl (fun a p => a ||| snanFlag (decodeFloat (fmtOf ty) p.2)) 0
  match l.find? fun p => nan p.2 with
  | some p => ((fmtOf ty).nanBits, some p.1, fl)
  | none =>
    match l with
    | [] => (emptyReduction ty least, none, 0)
    | p :: t =>
      let b := t.foldl (fun q r => if ranksAbove ty least r.2 q.2 then r else q) p
      (b.2, some b.1, fl)

/-- Writes lane 0 of VD. -/
def putLane0 (k : Job) (vd : BitVec 7) (ty : ElemTy) (x : Nat) : Job :=
  k.vecPut (vd, fun b => decide (b < ty.bytes)) (mapLanes (k.vreg vd) ty.bits fun i => if i = 0 then some x else none)

/-- VREDSUM (R146). -/
def execVredsum (h : VHdr) (vd va : BitVec 7) (ty : ElemTy) (s : State) : Host.Outcome State Fault Refusal :=
  vecWord h (fun c => [(va, activeBytes (laneActive c h) ty.bytes)]) [vd] (fun _ _ _ => []) (fun c _ s =>
    let r := sumLanes c h va ty
    raiseLanes c s [(0, r.2)] c.value fun k => putLane0 k vd ty r.1) s

/-- A reduction to the greatest or least lane. -/
def redWord (h : VHdr) (vd va : BitVec 7) (ty : ElemTy) (least : Bool) (s : State) : Host.Outcome State Fault Refusal :=
  vecWord h (fun c => [(va, activeBytes (laneActive c h) ty.bytes)]) [vd] (fun _ _ _ => []) (fun c _ s =>
    let r := bestLane c h va ty least
    raiseLanes c s [(0, r.2.2)] c.value fun k => putLane0 k vd ty r.1) s

/-- VREDMAX (R146). -/
def execVredmax (h : VHdr) (vd va : BitVec 7) (ty : ElemTy) (s : State) : Host.Outcome State Fault Refusal :=
  redWord h vd va ty false s

/-- VREDMIN (R146). -/
def execVredmin (h : VHdr) (vd va : BitVec 7) (ty : ElemTy) (s : State) : Host.Outcome State Fault Refusal :=
  redWord h vd va ty true s

/-- VREDARG (R147). -/
def execVredarg (h : VHdr) (vd va : BitVec 7) (ty : ElemTy) (least : Bool) (s : State) :
    Host.Outcome State Fault Refusal :=
  vecWord h (fun c => [(va, activeBytes (laneActive c h) ty.bytes)]) [vd] (fun _ _ _ => []) (fun c _ s =>
    let r := bestLane c h va ty least
    let idx : Word := match r.2.1 with | some i => BitVec.ofNat 64 i | none => BitVec.allOnes 64
    raiseLanes c s [(0, r.2.2)] idx fun k =>
      let k1 := putLane0 k vd ty r.1
      k1.setRegs c.stream c.slot ((k1.regs c.stream c.slot).push idx)) s

/-- One step of a scan from lane `i` up over the lanes left: the running value, what each lane receives, and the exceptions
by the lane that entered the addition (R148, R158). `first` is what becomes of the first active lane (R24). -/
def scanLanes (add : Nat → Nat → Nat × BitVec 5) (first : Nat → Nat × BitVec 5) (exc : Bool) :
    Nat → Option Nat → List (Option Nat) → List (Option Nat) × List (Nat × BitVec 5)
  | _, _, [] => ([], [])
  | i, s, none :: t =>
    let (r, fl) := scanLanes add first exc (i + 1) s t
    (none :: r, fl)
  | i, s, some x :: t =>
    let (s1, f1) := match s with | none => first x | some v => add v x
    let (r, fl) := scanLanes add first exc (i + 1) (some s1) t
    (some (if exc then s.getD 0 else s1) :: r, (i, f1) :: fl)

/-- VSCAN (R148). -/
def execVscan (h : VHdr) (vd va : BitVec 7) (ty : ElemTy) (exc : Bool) (s : State) : Host.Outcome State Fault Refusal :=
  vecWord h (fun c => [(va, activeBytes (laneActive c h) ty.bytes)]) [vd] (fun _ _ _ => []) (fun c _ s =>
    let add : Nat → Nat → Nat × BitVec 5 :=
      if ty.isInt then fun a b => ((a + b) % 2 ^ ty.bits, 0) else addBits (fmtOf ty) (rmOf c.regs.fpctl)
    let first (a : Nat) : Nat × BitVec 5 := if ty.isInt then (a, 0) else quietBits (fmtOf ty) a
    let r := scanLanes add first exc 0 none (activeList c h va ty)
    raiseLanes c s r.2 c.value fun k =>
      k.vecPut (vd, activeBytes (laneActive c h) ty.bytes) (putLanes (k.vreg vd) ty.bits r.1)) s

/-! ### Mask utilities (R149) -/

/-- VIOTA (R149). -/
def execViota (h : VHdr) (vd : BitVec 7) (ty : ElemTy) (idx : Bool) (s : State) : Host.Outcome State Fault Refusal :=
  moveWord h vd [] ty (fun c i =>
    (if idx then i else ((List.range i).filter (laneActive c h)).length) % 2 ^ ty.bits) s

/-- VMPOP (R149). -/
def execVmpop (h : VHdr) (ma : BitVec 3) (ty : ElemTy) (s : State) : Host.Outcome State Fault Refusal :=
  vecWord h (fun _ => []) [] (fun _ _ _ => []) (fun c _ s =>
    pushResult c s (BitVec.ofNat 64
      ((List.range ty.lanes).filter fun i => (c.pre.mask ma).getLsbD i && laneActive c h i).length)) s

/-- VMLOG (R149). -/
def execVmlog (h : VHdr) (md ma mb : BitVec 3) (tt : BitVec 4) (s : State) : Host.Outcome State Fault Refusal :=
  vecWord h (fun _ => []) [] (fun _ _ _ => []) (fun c _ s =>
    .ok (s.modJob c.job fun k =>
      k.setMask md (maskPut 0 (fun _ => true) 256 fun i =>
        tt.getLsbD (2 * ((c.pre.mask ma).getLsbD i).toNat + ((c.pre.mask mb).getLsbD i).toNat))) c.value none) s

/-! ### Table building (R150) -/

/-- The activations of a row for VTAB. -/
def tabAct (r : VReg) (uns : Bool) (row j : Nat) : Int := intOf (!uns) 8 (lane r 8 (8 * row + j))

/-- All entries of a slot, row by row. -/
def tabEntries (b : Codebook) (w : Word) (uns : Bool) (r : VReg) : List Int :=
  (List.range 32).flatMap fun row =>
    (List.range (layE b.k w)).map fun e => tableEntry b (layG w) (layOff b.k w + e) (tabAct r uns row)

/-- Whether an entry fits its slot (R34). -/
def entryFits (w : Word) (x : Int) : Bool :=
  decide (intLo true (8 * layWb w) ≤ x) && decide (x ≤ intHi true (8 * layWb w))

/-- Causes of VTAB on its layout and group. -/
def tabCauses (c : Cursor) (j : Job) (va : BitVec 7) (tl : BitVec 2) (kg : Src) (uns : Bool) : List (BitVec 8) :=
  let l := j.layout tl
  if !l.set then [causeTableInvalid]
  else if layS l.word ≤ (c.regs.src kg).toNat then [causeBound]
  else if (tabEntries (j.bookOf l.word) l.word uns (c.pre.vreg va)).all (entryFits l.word) then [] else [causeTableRange]

/-- VTAB (R150). (DESIGN CHOICE, log 41.) -/
def execVtab (h : VHdr) (va : BitVec 7) (tl : BitVec 2) (kg : Src) (uns : Bool) (s : State) :
    Host.Outcome State Fault Refusal :=
  vecWord h (fun c => [(va, fun x => decide (x % 8 < layG (c.pre.layout tl).word))]) []
    (fun c j _ => tabCauses c j va tl kg uns) (fun c j s =>
      let l := j.layout tl
      let b := j.bookOf l.word
      let grp := (c.regs.src kg).toNat
      let bytes := (tabEntries b l.word uns (c.pre.vreg va)).flatMap fun x =>
        leBytes (layWb l.word) (wrapInt (8 * layWb l.word) x)
      .ok (s.modJob c.job fun k =>
        (k.tsPut (entryAt b.k l.word grp 0 0) bytes).setLayout tl { l with slots := slotPut grp uns l.slots }) c.value none) s

/-! ### Snapshots (R152) -/

/-- The K steps of the oldest LME command on a tile; none where the tile is not owned (R163). (DEDUCED, log 58.) -/
def Job.ownerSteps (j : Job) (t : Nat) : Option Nat := (j.lme.find? fun c => c.op.tile == some t).map fun c =>
  match c.op with
  | .lmm _ _ _ _ _ _ => c.steps
  | _ => 0

/-- VSNAP (R152): the row as of the owner's last completed unit, and its step count. -/
def execVsnap (h : VHdr) (vd va : BitVec 7) (s : State) : Host.Outcome State Fault Refusal :=
  vecWord h (fun _ => [allOf va]) [vd] (fun _ _ _ => []) (fun c j s =>
    let n : Word := match j.ownerSteps (tileOf va.toNat) with | some k => BitVec.ofNat 64 k | none => BitVec.allOnes 64
    pushResult c (s.modJob c.job fun k => k.vecPut (allOf vd) (c.pre.vreg va)) n) s

/-! ### Sampling (R153 to R157) -/

/-- Leading lanes that are active and equal. -/
def prefixCount (act : Nat → Bool) (eq : Nat → Bool) : Nat → Nat → Nat
  | 0, _ => 0
  | f + 1, i => if act i && eq i then 1 + prefixCount act eq f (i + 1) else 0

/-- VPREFEQ (R153). -/
def execVprefeq (h : VHdr) (va vb : BitVec 7) (ty : ElemTy) (s : State) : Host.Outcome State Fault Refusal :=
  vecWord h (fun c => [va, vb].map fun v => (v, activeBytes (laneActive c h) ty.bytes)) [] (fun _ _ _ => []) (fun c _ s =>
    pushResult c s (BitVec.ofNat 64
      (prefixCount (laneActive c h) (fun i => srcLane c va ty i == srcLane c vb ty i) ty.lanes 0))) s

/-- A rank for binary32 bits: every NaN below −∞, −0 below +0 (R154). -/
def shortKey (x : Nat) : Nat :=
  if (decodeFloat fmtF32 x).isNan then 0
  else if 2 ^ 31 ≤ x then 2 ^ 31 - (x - 2 ^ 31) else 2 ^ 31 + 1 + x

/-- Whether pair `p` ranks above `q`; a free value of the two values decides between pairs the rule ranks equal. -/
def shortAbove (p q : Nat × Nat) : Bool :=
  decide (shortKey q.1 < shortKey p.1) ||
    (shortKey p.1 == shortKey q.1 && (decide (p.2 < q.2) || (p.2 == q.2 && p.1 != q.1 && Config.tieBreak p.1 q.1)))

/-- Inserts a pair into a list sorted from highest to lowest. -/
def shortInsert (p : Nat × Nat) : List (Nat × Nat) → List (Nat × Nat)
  | [] => [p]
  | q :: t => if shortAbove p q then p :: q :: t else q :: shortInsert p t

/-- The candidates of VSHORT as binary32 bits with their indices. -/
def shortCands (c : Cursor) (h : VHdr) (va : BitVec 7) (ty : ElemTy) (base : Word) : List (Nat × Nat) :=
  (List.range ty.lanes).filterMap fun i =>
    if laneActive c h i then
      some (if ty = .bf16 then srcLane c va ty i * 2 ^ 16 else srcLane c va ty i, (base.toNat + i) % 2 ^ 32)
    else none

/-- VSHORT (R154): the pairs move as bits, a NaN's too. (DEDUCED, log 92.) -/
def execVshort (h : VHdr) (vd va : BitVec 7) (kb : Src) (ty : ElemTy) (s : State) : Host.Outcome State Fault Refusal :=
  let v2 := vd + 1
  vecWord h (fun c => [allOf vd, allOf v2, (va, activeBytes (laneActive c h) ty.bytes)]) [vd, v2] (fun _ _ _ => [])
    (fun c _ s =>
      let old := List.zip (lanesOf (c.pre.vreg vd) 32) (lanesOf (c.pre.vreg v2) 32)
      let all := (old ++ shortCands c h va ty (c.regs.src kb)).foldl (fun l p => shortInsert p l) []
      let best := all.take 64
      .ok (s.modJob c.job fun k =>
        (k.vecPut (allOf vd) (packLanes 32 (best.map Prod.fst))).vecPut (allOf v2) (packLanes 32 (best.map Prod.snd)))
        c.value none) s

/-- VMASS (R155). -/
def execVmass (h : VHdr) (md : BitVec 3) (va : BitVec 7) (kb kc : Src) (s : State) : Host.Outcome State Fault Refusal :=
  vecWord h (fun c => [(va, activeBytes (laneActive c h) 4)]) [] (fun _ _ _ => []) (fun c _ s =>
    let r := sumLanes c h va .f32
    let sum := decodeFloat fmtF32 r.1
    let thr := decodeFloat fmtF32 ((c.regs.src kb).toNat % 2 ^ 32)
    let flag := sum.isNan || compareVal sum thr == some .lt
    let bit := (c.regs.src kc).toNat % 256
    raiseLanes c s [(0, r.2)] c.value fun k =>
      if flag then k.setMask md (k.mask md ||| (1#256 <<< bit)) else k) s

/-- The 64-bit mix of R156. -/
def noiseHash (seed pos idx : Word) : Word :=
  let x0 := seed + pos * 0x8F3C27E15A9D04B7 + idx * 0x61D4E0A93C57B28F
  let x1 := (x0 ^^^ (x0 >>> 31)) * 0xA7E219C5D03B6F4D
  let x2 := (x1 ^^^ (x1 >>> 29)) * 0x5C8BF32617E9A0D5
  let x3 := (x2 ^^^ (x2 >>> 32)) * 0xE49D0B73C2A6581B
  x3 ^^^ (x3 >>> 30)

/-- VNOISE (R156): always RNE. -/
def execVnoise (h : VHdr) (vd : BitVec 7) (ka kb kc : Src) (s : State) : Host.Outcome State Fault Refusal :=
  laneWord h vd [] .f32 (fun c i =>
    let x := noiseHash (c.regs.src ka) (c.regs.src kb) (c.regs.src kc + BitVec.ofNat 64 i)
    roundVal fmtF32 .rne (gumbelVal (x.extractLsb' 40 24).toNat)) s

/-- The bitmap position lane `i` names (R157). -/
def bitIndex (c : Cursor) (vb : BitVec 7) (ty : ElemTy) (i : Nat) : Nat := srcLane c vb ty i % 2048

/-- VBTEST (R157). (DEDUCED, log 57.) -/
def execVbtest (h : VHdr) (md : BitVec 3) (va vb : BitVec 7) (ty : ElemTy) (s : State) :
    Host.Outcome State Fault Refusal :=
  vecWord h (fun c => [allOf va, (vb, activeBytes (laneActive c h) ty.bytes)]) [] (fun _ _ _ => []) (fun c _ s =>
    .ok (s.modJob c.job fun k =>
      k.setMask md (maskSet (k.mask md) (laneActive c h) ty.lanes fun i =>
        (c.pre.vreg va).getLsbD (bitIndex c vb ty i))) c.value none) s

/-- VBSET (R157). -/
def execVbset (h : VHdr) (vd va vb : BitVec 7) (ty : ElemTy) (s : State) : Host.Outcome State Fault Refusal :=
  vecWord h (fun c => [allOf va, (vb, activeBytes (laneActive c h) ty.bytes)]) [vd] (fun _ _ _ => []) (fun c _ s =>
    .ok (s.modJob c.job fun k =>
      k.vecPut (allOf vd) ((activeUnits c h ty.bytes).foldl (fun r i => r ||| (1#2048 <<< bitIndex c vb ty i))
        (c.pre.vreg va))) c.value none) s

end Sys2Proof.Machine
end

