-- ==== Sys2Proof/Machine/Copy.lean ====
section
/-! DEFINITION. Shape records and the copy commands (R182 to R199): their words, their segments, completion and
faults. -/

namespace Sys2Proof.Machine

/-! ### Shape fields (R182) -/

def shFill (r : BitVec 512) : Nat := (r.extractLsb' 0 64).toNat
/-- Signed byte stride of a dimension. -/
def shStride (r : BitVec 512) (i : Nat) : Int := (r.extractLsb' (64 + 40 * i) 40).toInt
/-- Extent of a dimension. -/
def shExt (r : BitVec 512) (i : Nat) : Nat := (r.extractLsb' (224 + 16 * i) 16).toNat
def shPitch (r : BitVec 512) : Nat := (r.extractLsb' 288 22).toNat
def shEsz (r : BitVec 512) : Nat := 2 ^ (r.extractLsb' 310 2).toNat
def shPath (r : BitVec 512) : Nat := (r.extractLsb' 312 4).toNat
def shAcq (r : BitVec 512) : Bool := r.getLsbD 316
def shRel (r : BitVec 512) : Bool := r.getLsbD 317
/-- SCOPE. -/
def shScope (r : BitVec 512) : Scope :=
  match (r.extractLsb' 318 3).toNat with
  | 0 => .stream | 1 => .job | 2 => .team | 3 => .partition | _ => .system
def shRepl (r : BitVec 512) : Bool := r.getLsbD 321
def shStrict (r : BitVec 512) : Bool := r.getLsbD 322
def shDedup (r : BitVec 512) : Bool := r.getLsbD 323
def shIdxt (r : BitVec 512) : Nat := (r.extractLsb' 324 2).toNat
def shPool (r : BitVec 512) : Nat := (r.extractLsb' 326 2).toNat
def shComb (r : BitVec 512) : Nat := (r.extractLsb' 328 2).toNat
def shEtype (r : BitVec 512) : Nat := (r.extractLsb' 330 2).toNat
def shRowsz (r : BitVec 512) : Nat := (r.extractLsb' 332 16).toNat
def shIbound (r : BitVec 512) : Nat := (r.extractLsb' 348 40).toNat
def shFvec (r : BitVec 512) : Nat := (r.extractLsb' 388 22).toNat
def shFvcap (r : BitVec 512) : Nat := (r.extractLsb' 410 16).toNat
def shBags (r : BitVec 512) : Nat := (r.extractLsb' 426 22).toNat
def shNbag (r : BitVec 512) : Nat := (r.extractLsb' 448 16).toNat

/-- A malformed record (R183). -/
def shapeBad (r : BitVec 512) : Bool :=
  r.extractLsb' 464 48 != 0 || (List.range 4).any (fun i => shExt r i == 0) || decide (5 ≤ (r.extractLsb' 318 3).toNat) ||
    shIdxt r == 3 || decide (7 ≤ shPath r) || (shPitch r != 0 && decide (shPitch r < shExt r 0 * shEsz r)) ||
    shRowsz r % 8 != 0 || shFvec r % 8 != 0 || shBags r % 4 != 0

/-- The shape register of a stream (L's and S's sets are separate). -/
def Job.shapeReg (j : Job) (x : StreamId) (i : BitVec 3) : BitVec 512 :=
  if x = .s then j.shS.get i.toFin else j.shL.get i.toFin

/-- Replaces a shape register. -/
def Job.setShape (j : Job) (x : StreamId) (i : BitVec 3) (r : BitVec 512) : Job :=
  if x = .s then { j with shS := j.shS.set i.toNat r i.isLt } else { j with shL := j.shL.set i.toNat r i.isLt }

/-- SHAPE (R183). -/
def execShape (h : Hdr) (sh : BitVec 3) (ks : Src) (s : State) : Host.Outcome State Fault Refusal :=
  scalarWord h [ks] (some ks) none (fun c j s =>
    let a := (c.regs.src ks).toNat
    if a % 64 ≠ 0 then .raise causeMisaligned
    else
      match j.spLoad c.slot a 64 with
      | .fault e => s.raiseOwn (j.spUe c.slot a 64) e
      | .full => .stall
      | .ok b =>
        let r : BitVec 512 := BitVec.ofNat 512 (leNat b)
        if shapeBad r then .raise causeIllegal
        else .ok (s.modJob c.job fun k => k.setShape c.stream sh r) c.value none) s

/-! ### Commands: fields and geometry (R186, R193) -/

/-- Commands a core has in flight, of every job it holds (R14). (DEDUCED, log 40.) -/
def State.coreInflight (s : State) (k : Nat) : Nat :=
  (((s.core k).urgent.toList ++ (s.core k).normal.toList).map fun n =>
    match s.jobs[n]? with | some j => j.cmds.length | none => 0).sum

/-- A command of a job by its number. -/
def Job.cmd? (j : Job) (id : Nat) : Option Cmd := j.cmds.find? fun c => c.id == id

/-- Replaces a command. -/
def Job.setCmd (j : Job) (c : Cmd) : Job := { j with cmds := j.cmds.map fun d => if d.id == c.id then c else d }

/-- Replaces a command of job `n`. -/
def State.setCmd (s : State) (n : Nat) (c : Cmd) : State := s.modJob n fun j => j.setCmd c

/-- PATH's effective base: offset bits of the address on the shape's path (R186). -/
def effBase (r : BitVec 512) (a : Word) : Word := BitVec.ofNat 64 (shPath r * 2 ^ 56 + a.toNat % 2 ^ 56)

/-- The base displaced, wrapped within the path (R186). -/
def displace (base : Word) (d : Int) : Word := onPath base (base.toNat + (d % (2 ^ 56 : Int)).toNat)

/-- P of R193: the scratchpad pitch of dimension 1. -/
def shP (r : BitVec 512) : Nat := if shPitch r ≠ 0 then shPitch r else shExt r 0 * shEsz r

/-- Elements of a copy of outer count `n`. -/
def copyElems (r : BitVec 512) (n : Nat) : Nat := shExt r 0 * shExt r 1 * shExt r 2 * n

/-- Where element `e` lies on each side, relative to the bases (R193). -/
def elemAt (r : BitVec 512) (e : Nat) : Int × Nat :=
  let i0 := e % shExt r 0
  let i1 := e / shExt r 0 % shExt r 1
  let i2 := e / (shExt r 0 * shExt r 1) % shExt r 2
  let i3 := e / (shExt r 0 * shExt r 1 * shExt r 2)
  ((i0 : Int) * shStride r 0 + i1 * shStride r 1 + i2 * shStride r 2 + i3 * shStride r 3,
   i0 * shEsz r + shP r * (i1 + shExt r 1 * (i2 + shExt r 2 * i3)))

/-- Bytes of the scratchpad span, trimmed to the last element (R193). -/
def copySpan (r : BitVec 512) (n : Nat) : Nat :=
  if n = 0 then 0 else shP r * (shExt r 1 * shExt r 2 * n - 1) + shExt r 0 * shEsz r

/-- The least and greatest displacement of the memory side. -/
def dispRange (r : BitVec 512) (n : Nat) : Int × Int :=
  [(shExt r 0, shStride r 0), (shExt r 1, shStride r 1), (shExt r 2, shStride r 2), (n, shStride r 3)].foldl
    (fun a p =>
      let d := ((p.1 : Int) - 1) * p.2
      (a.1 + min 0 d, a.2 + max 0 d)) (0, 0)

/-- Which paths a command may use: `deny1` forbids 0x1; scratchpad paths raise `spad` where they are not open (R186). -/
structure PathRule where
  deny1 : Bool
  spad  : Option (BitVec 8)
  deriving DecidableEq, Repr

/-- The causes an address and a path raise at issue (R186). (DEDUCED, log 34.) -/
def pathCauses (p : PathRule) (r : BitVec 512) (a : Word) : List (BitVec 8) :=
  let k := shPath r
  causeIf (a.extractLsb' 60 4 != 0 || k == 6 || (pathOf a != 0 && pathOf a != k) || (p.deny1 && k == 1)) causeProtection ++
    (match p.spad with
     | some e => if k = 3 ∨ k = 4 ∨ k = 5 then [e] else []
     | none => [])

/-- BOUND of a memory side on path 0x3: its whole span against the job's own windows (R186). -/
def ownSpanBad (j : Job) (r : BitVec 512) (a : Word) (lo hi : Int) (n : Nat) : Bool :=
  shPath r == 3 && decide (0 < n) &&
    (decide ((a.toNat % 2 ^ 56 : Nat) + lo < (0 : Int)) ||
      !j.spanOk ((a.toNat % 2 ^ 56 : Nat) + lo).toNat (hi - lo).toNat)

/-! ### Issue (R185) -/

/-- A command about to join its stream's list. -/
def Cmd.fresh (c : Cursor) (id : Nat) (op : CopyOp) (r : BitVec 512) (km ks kn : Word) : Cmd where
  id := id
  stream := c.stream
  pc := c.pc
  op := op
  shape := r
  km := km
  ks := ks
  kn := kn
  prog := 0
  count := 0
  flags := 0
  faults := []
  read := false
  list := []
  snap := []
  seen := []
  desc := []
  off := 0
  held := []
  fore := []
  spent := false
  done := false
  stopped := false

/-- What a command's issue comes to. -/
inductive CmdRes where
  | go (s : State) (cmd : Cmd)
  | res (r : WRes)

/-- A command word (R185): it waits for its operands and for a place among the core's commands, makes its checks, and
starts; guarded off, it retires with its first source. -/
def cmdWord (h : Hdr) (d : Dest) (uses : List Src) (first : Src) (start : Cursor → Job → State → CmdRes) (strict : Job → Cursor → Bool)
    (s : State) : Host.Outcome State Fault Refusal :=
  runWord h.wait h.sig true (fun c j s =>
    let t := c.regs
    if t.guardTrue h.guard then
      if destPending (j.stream c.stream) uses (some d) then .stall
      else
        let full := decide (Config.inflight ≤ s.coreInflight j.core) || decide (Config.inflight ≤ j.cmds.length)
        match start c j s with
        | .res r => if full then r.orStall c else r
        | .go s1 cmd =>
          if full then .stall
          else .stop { (s1.modJob c.job fun k =>
              let k1 := queueCmd c k h d cmd.id (strict j c) true s.tick
              { k1 with nextCmd := k1.nextCmd + 1, cmds := k1.cmds ++ [cmd] }) with cursor := none }
    else if destPending (j.stream c.stream) (offUses h (some first) (some d)) (offDest (some d)) then .stall
    else
      let v := t.src first
      let u := j.stream c.stream
      let u1 := { (if d = .push then u.push v else u) with pc := c.pc + 8, notBefore := s.tick + 1 }
      let e : RetEntry :=
        { pc := c.pc, cmd := none, dest := .discard, value := v, reply := h.sig.reply, tokens := h.sig.tokens,
          strict := false, copy := true }
      .stop { (s.setJob c.job (retireWord s.tick c.stream (j.setStream c.stream u1) e)) with cursor := none }) s

/-- Never strict. -/
def notStrict (_ : Job) (_ : Cursor) : Bool := false

/-- Causes of the shape's ACQ and REL: the tested addresses not aligned to the access size (R189). (DEDUCED, log 33.) -/
def orderCauses (r : BitVec 512) (first last : Option Nat) : List (BitVec 8) :=
  let bad (on : Bool) (x : Option Nat) : Bool := on && match x with | some a => a % shEsz r != 0 | none => false
  if bad (shAcq r) first || bad (shRel r) last then [causeMisaligned] else []

/-- The issue of CPY and CPYO without append (R186, R189, R193). -/
def copyStart (out : Bool) (sh : BitVec 3) (km ks kn : Src) (c : Cursor) (j : Job) (s : State) : CmdRes :=
  let r := j.shapeReg c.stream sh
  let a := c.regs.src km
  let sp := (c.regs.src ks).toNat
  let n := (c.regs.src kn).toNat
  let m := effBase r a
  let total := copyElems r n
  let last := elemAt r (total - 1)
  let firstMem := if n = 0 then none else some (m.toNat)
  let lastMem := if n = 0 then none else some (displace m last.1).toNat
  let firstSp := if n = 0 then none else some sp
  let lastSp := if n = 0 then none else some (sp + last.2)
  let range := dispRange r n
  match firstCause (pathCauses ⟨out, none⟩ r a ++
      (if out then orderCauses r firstSp lastMem else orderCauses r firstMem lastSp) ++
      (if shExt r 3 < n then [causeBound]
       else if !j.spanOk sp (copySpan r n) || ownSpanBad j r a range.1 (range.2 + shEsz r) n then [causeBound] else [])) with
  | some e => .res (.raise e)
  | none =>
    .go s { Cmd.fresh c j.nextCmd (if out then .cpyo else .cpy) r (c.regs.src km) (c.regs.src ks) (c.regs.src kn) with
      spent := n == 0, count := n }

/-- CPY (R193). -/
def execCpy (h : Hdr) (d : Dest) (sh : BitVec 3) (km ks kn : Src) (s : State) : Host.Outcome State Fault Refusal :=
  cmdWord h d [km, ks, kn] km (copyStart false sh km ks kn) notStrict s

/-- CPYO (R193). -/
def execCpyo (h : Hdr) (d : Dest) (sh : BitVec 3) (km ks kn : Src) (s : State) : Host.Outcome State Fault Refusal :=
  cmdWord h d [km, ks, kn] km (copyStart true sh km ks kn) notStrict s

/-- CPYO with APP = 1 (R194): it reserves its bytes at the slot's tail as it issues. -/
def execCpyoAppend (h : Hdr) (d : Dest) (sh : BitVec 3) (km ks kn : Src) (s : State) :
    Host.Outcome State Fault Refusal :=
  cmdWord h d [km, ks, kn] km (fun c j s =>
    let r := j.shapeReg c.stream sh
    let a := c.regs.src km
    let sp := (c.regs.src ks).toNat
    let n := (c.regs.src kn).toNat
    let bytes := copyElems r n * shEsz r
    match j.append.get (a.extractLsb' 0 2).toFin with
    | none => .res (.raise causeIllegal)
    | some desc =>
      if a.extractLsb' 2 62 ≠ 0 then .res (.raise causeIllegal)
      else if shExt r 3 < n ∨ !j.spanOk sp (copySpan r n) then .res (.raise causeBound)
      else
        let w := c.who j
        match s.takingPages w fun t => t.apReserve w desc bytes with
        | .ok s1 (.inl off) =>
          .go s1 { Cmd.fresh c j.nextCmd .cpyoAppend r (c.regs.src km) (c.regs.src ks) (c.regs.src kn) with
            spent := n == 0, count := bytes, off := off, desc := [desc] }
        | r => .res (ofMem c w s r fun s1 x =>
            match x with
            | .inr arg => appendTrap arg
            | .inl _ => .ok s1 c.value none)) notStrict s

/-! ### CPYC (R195, R196) -/

/-- The header as a number, of the words latched at issue. -/
def cvHead (d : List Word) : Nat := leNat ((d.take 8).flatMap fun w => leBytes 8 w.toNat)
/-- The micro-operations. -/
def cvOps (d : List Word) : List Word := d.drop 8

def cvN (x : Nat) : Nat := bitsOf x 15 0
def cvH (x : Nat) : Nat := bitsOf x 31 16
def cvW (x : Nat) : Nat := bitsOf x 47 32
def cvCg (x : Nat) : Nat := bitsOf x 63 48
def cvNg (x : Nat) : Nat := bitsOf x 79 64
def cvSy (x : Nat) : Nat := bitsOf x 87 80
def cvSx (x : Nat) : Nat := bitsOf x 95 88
def cvDy (x : Nat) : Nat := bitsOf x 103 96
def cvDx (x : Nat) : Nat := bitsOf x 111 104
def cvPt (x : Nat) : Nat := bitsOf x 127 112
def cvPl (x : Nat) : Nat := bitsOf x 143 128
/-- A byte stride of 40 bits, signed as every stride is. (DEDUCED, log 36.) -/
def cvStride (x lo : Nat) : Int := (BitVec.ofNat 40 (x / 2 ^ lo)).toInt
def cvNops (x : Nat) : Nat := bitsOf x 268 264

def opCount (w : Word) : Nat := (w.extractLsb' 0 16).toNat
def opFirst (w : Word) : Int := (w.extractLsb' 16 16).toInt
def opStep (w : Word) : Int := (w.extractLsb' 32 16).toInt
def opCoord (w : Word) : Nat := (w.extractLsb' 48 3).toNat

/-- ILLEGAL conditions of a header (R196). (DEDUCED, log 99.) -/
def cvHeadBad (x : Nat) : Bool :=
  x / 2 ^ 269 != 0 || cvNops x == 0 || decide (16 < cvNops x) || cvN x == 0 || cvH x == 0 || cvW x == 0 || cvCg x == 0 ||
    cvNg x == 0 || cvSy x == 0 || cvSx x == 0 || cvDy x == 0 || cvDx x == 0

/-- ILLEGAL conditions of a micro-operation (R196). -/
def cvOpBad (w : Word) : Bool := w.extractLsb' 51 13 != 0 || opCount w == 0 || decide (6 ≤ opCoord w)

/-- Pixels of the nest. -/
def cvPixels (d : List Word) : Nat := (cvOps d).foldl (fun a w => a * opCount w) 1

/-- The least and greatest value of a coordinate over the nest. -/
def cvRange (d : List Word) (co : Nat) : Int × Int :=
  ((cvOps d).filter fun w => opCoord w == co).foldl (fun a w =>
    let e := ((opCount w : Int) - 1) * opStep w
    (a.1 + opFirst w + min 0 e, a.2 + opFirst w + max 0 e)) (0, 0)

/-- The operations with their counters at pixel `p`: the last operation runs fastest (R196). -/
def cvCounters : List Word → Nat → List (Word × Nat) × Nat
  | [], p => ([], p)
  | w :: t, p =>
    let (l, q) := cvCounters t p
    ((w, q % opCount w) :: l, q / opCount w)

/-- A coordinate at pixel `p`. -/
def cvCoord (d : List Word) (p co : Nat) : Int :=
  ((cvCounters (cvOps d) p).1.filter fun q => opCoord q.1 == co).foldl (fun a q => a + opFirst q.1 + q.2 * opStep q.1) 0

/-- What a pixel is: past the batch, padding, or image bytes at a displacement (R196). -/
inductive Pixel where
  | past
  | pad
  | image (d : Int)
  deriving DecidableEq, Repr

/-- Pixel `p` of the nest. -/
def cvPixel (d : List Word) (esz p : Nat) : Pixel :=
  let x := cvHead d
  let n := cvCoord d p 0
  if n < 0 ∨ (cvN x : Int) ≤ n then .past
  else
    let iy := cvCoord d p 1 * cvSy x + cvCoord d p 3 * cvDy x - cvPt x
    let ix := cvCoord d p 2 * cvSx x + cvCoord d p 4 * cvDx x - cvPl x
    if 0 ≤ iy ∧ iy < cvH x ∧ 0 ≤ ix ∧ ix < cvW x then
      .image (n * cvStride x 224 + iy * cvStride x 184 + ix * cvStride x 144 + cvCoord d p 5 * (cvCg x * esz))
    else .pad

/-- The range of a product of a coordinate's range and a stride. -/
def scaleRange (a : Int × Int) (k : Int) : Int × Int := (min (a.1 * k) (a.2 * k), max (a.1 * k) (a.2 * k))

/-- A range cut to [0, n). -/
def clipRange (a : Int × Int) (n : Nat) : Int × Int := (max 0 a.1, min (n - 1) a.2)

/-- The memory-side span of CPYC's image pixels, as displacements; none where no pixel lies in the image. (DEDUCED, log 35.) -/
def cvSpan (d : List Word) (esz : Nat) : Option (Int × Int) :=
  let x := cvHead d
  let add (a b : Int × Int) : Int × Int := (a.1 + b.1, a.2 + b.2)
  let n := clipRange (cvRange d 0) (cvN x)
  let y0 := add (scaleRange (cvRange d 1) (cvSy x)) (scaleRange (cvRange d 3) (cvDy x))
  let x0 := add (scaleRange (cvRange d 2) (cvSx x)) (scaleRange (cvRange d 4) (cvDx x))
  let iy := clipRange (y0.1 - cvPt x, y0.2 - cvPt x) (cvH x)
  let ix := clipRange (x0.1 - cvPl x, x0.2 - cvPl x) (cvW x)
  let g := cvRange d 5
  if n.2 < n.1 ∨ iy.2 < iy.1 ∨ ix.2 < ix.1 then none
  else
    let r := add (add (scaleRange n (cvStride x 224)) (scaleRange iy (cvStride x 184)))
      (add (scaleRange ix (cvStride x 144)) (scaleRange g (cvCg x * esz)))
    some (r.1, r.2 + cvCg x * esz)

/-- CPYC (R195, R196): the descriptor is read and checked at issue. (DEDUCED, log 37.) -/
def execCpyc (h : Hdr) (d : Dest) (sh : BitVec 3) (km ks kc : Src) (s : State) : Host.Outcome State Fault Refusal :=
  cmdWord h d [km, ks, kc] km (fun c j s =>
    let r := j.shapeReg c.stream sh
    let a := c.regs.src km
    let sp := (c.regs.src ks).toNat
    let da := (c.regs.src kc).toNat
    let esz := shEsz r
    let head := leNat (cellGetN j.sp da 64)
    let len := 64 + 8 * cvNops head
    let desc := (List.range (len / 8)).map fun i => (BitVec.ofNat 64 (leNat (cellGetN j.sp (da + 8 * i) 8)) : Word)
    let px := cvPixels desc
    let g := cvRange desc 5
    let n := cvRange desc 0
    let readable := j.spanOk da 64 && j.spanOk da len && da % 64 == 0
    match firstCause (pathCauses ⟨false, none⟩ r a ++
        (if da % 64 ≠ 0 then [causeMisaligned] else []) ++
        (if !j.spanOk da 64 then [causeBound] else []) ++
        (if readable && unitsTouch j.spBad da len then [causeMemUe] else []) ++
        (if readable then
          (if cvHeadBad head || (cvOps desc).any cvOpBad then [causeIllegal] else []) ++
            orderCauses r (match cvPixel desc esz 0 with
              | .image x => some (displace (effBase r a) x).toNat
              | _ => none) (some sp) ++
            (if decide (g.1 < 0) || decide ((cvNg head : Int) ≤ g.2) || !j.spanOk sp (px * cvCg head * esz) ||
                (shStrict r && (decide (n.1 < 0) || decide ((cvN head : Int) ≤ n.2))) ||
                (match cvSpan desc esz with | some q => ownSpanBad j r a q.1 q.2 1 | none => false) then [causeBound] else [])
         else if j.spanOk da 64 && !j.spanOk da len then [causeBound] else [])) with
    | some e => .res (s.raiseOwn (j.spUe none da len) e)
    | none =>
      .go s { Cmd.fresh c j.nextCmd .cpyc r (c.regs.src km) (c.regs.src ks) (c.regs.src kc) with
        desc := desc, count := px }) notStrict s

/-! ### PREF, CFLUSH, CWAIT, CSTAT (R192, R197 to R199) -/

/-- The issue of PREF and CFLUSH. -/
def walkStart (op : CopyOp) (sh : BitVec 3) (km kn : Src) (c : Cursor) (j : Job) (s : State) : CmdRes :=
  let r := j.shapeReg c.stream sh
  let a := c.regs.src km
  let n := (c.regs.src kn).toNat
  match firstCause (pathCauses ⟨false, some causeIllegal⟩ r a ++ (if shAcq r || shRel r then [causeIllegal] else []) ++
      (if shExt r 3 < n then [causeBound] else [])) with
  | some e => .res (.raise e)
  | none => .go s { Cmd.fresh c j.nextCmd op r (c.regs.src km) 0 (c.regs.src kn) with spent := true }

/-- PREF (R197). -/
def execPref (h : Hdr) (d : Dest) (sh : BitVec 3) (km kn : Src) (l1 : Bool) (s : State) :
    Host.Outcome State Fault Refusal :=
  cmdWord h d [km, kn] km (walkStart (.pref l1) sh km kn) notStrict s

/-- CFLUSH (R198). -/
def execCflush (h : Hdr) (d : Dest) (sh : BitVec 3) (km kn : Src) (op : FlushOp) (s : State) :
    Host.Outcome State Fault Refusal :=
  cmdWord h d [km, kn] km (walkStart (.cflush op) sh km kn) notStrict s

/-- Commands of a stream in flight. -/
def Job.streamCmds (j : Job) (x : StreamId) : Nat := (j.cmds.filter fun c => c.stream == x).length

/-- CWAIT kn (R192): waits at issue until at most n commands of the stream remain in flight. -/
def execCwait (h : Hdr) (kn : Src) (s : State) : Host.Outcome State Fault Refusal :=
  scalarWord h [kn] (some kn) none (fun c j s =>
    if (c.regs.src kn).toNat < j.streamCmds c.stream then .stall else .ok s c.value none) s

/-- CWAIT all (R192). -/
def execCwaitAll (h : Hdr) (s : State) : Host.Outcome State Fault Refusal :=
  scalarWord h [] none none (fun c j s => if j.streamCmds c.stream = 0 then .ok s c.value none else .stall) s

/-- CSTAT (R199). -/
def execCstat (h : Hdr) (d : Dest) (sel : BitVec 5) (s : State) : Host.Outcome State Fault Refusal :=
  scalarWord h [] none (some d) (fun c j s =>
    match sel.toNat with
    | 0 => .ok s (BitVec.ofNat 64 (j.streamCmds c.stream)) none
    | 1 => .ok s (BitVec.ofNat 64 (s.coreInflight j.core)) none
    | 2 => .ok s (j.stream c.stream).retired none
    | 3 => .ok (s.modJob c.job fun k => { k with overflow := 0 }) j.overflow none
    | _ => .raise causeIllegal) s

/-! ### Segments (R188, R190, R191) -/

/-- A fault of a target that is not the issuing job's own raises PROTECTION, never BOUND (R186, R267). -/
def asRefusal {α : Type} (va : Word) : MRes α → MRes α
  | .fault s e => .fault s (if e = causeBound && isScratchPath va then causeProtection else e)
  | r => r

/-- A command's read of its memory side. -/
def State.cmdRead (s : State) (w : Who) (r : BitVec 512) (va : Word) (n : Nat) (acq : Bool) : MRes (List Byte) :=
  asRefusal va (s.agentRead w va n (shRepl r) acq)

/-- A command's write of its memory side. -/
def State.cmdWrite (s : State) (w : Who) (va : Word) (b : List Byte) : MRes Unit := asRefusal va (s.writeVia w va b true)

/-- A command's read of its own scratchpad; an uncorrectable unit is consumed (R248). -/
def State.ownRead (s : State) (n a k : Nat) : MRes (List Byte) :=
  match s.jobs[n]? with
  | none => .fault s causeProtection
  | some j => if unitsTouch j.spBad a k then .fault { s with ueAt := j.spUe none a k } causeMemUe else .ok s (cellGetN j.sp a k)

/-- A command's write of its own scratchpad. -/
def State.ownWrite (s : State) (n a : Nat) (b : List Byte) : State := s.modJob n fun j => j.spPut a b

/-- Elements of a copy's byte stream. -/
def Cmd.elements (c : Cmd) : Nat :=
  match c.op with
  | .cpyc => cvPixels c.desc * cvCg (cvHead c.desc)
  | _ => copyElems c.shape c.kn.toNat

/-- Where element `e` is written, as a byte address of the side it goes to. -/
def Cmd.destOf (c : Cmd) (e : Nat) : Nat :=
  match c.op with
  | .cpyo => (displace (effBase c.shape c.km) (elemAt c.shape e).1).toNat
  | .cpyoAppend => c.off + e * shEsz c.shape
  | .cpyc => c.ks.toNat + e * shEsz c.shape
  | _ => c.ks.toNat + (elemAt c.shape e).2

/-- Where element `e` is read, as a byte address of the side it comes from; none for padding (R193, R196). -/
def Cmd.srcOf (c : Cmd) (e : Nat) : Option Nat :=
  match c.op with
  | .cpy => some (displace (effBase c.shape c.km) (elemAt c.shape e).1).toNat
  | .cpyc =>
    match cvPixel c.desc (shEsz c.shape) (e / cvCg (cvHead c.desc)) with
    | .image d => some (displace (effBase c.shape c.km) (d + e % cvCg (cvHead c.desc) * shEsz c.shape)).toNat
    | _ => none
  | _ => some (c.ks.toNat + (elemAt c.shape e).2)

/-- The element segment `k` begins with: byte 4,096·k of the command's byte stream (R191). -/
def Cmd.cut (c : Cmd) (k : Nat) : Nat := min c.elements (k * (4096 / shEsz c.shape))

/-- The elements of segment `k` (R191). -/
def Cmd.segment (c : Cmd) (k : Nat) : List Nat := (List.range (c.cut (k + 1) - c.cut k)).map (c.cut k + ·)

/-- Whether segment `k` is the last. -/
def Cmd.lastSegment (c : Cmd) (k : Nat) : Bool := decide (c.elements ≤ c.cut (k + 1))

/-- Whether an element of CPYC stands at or past the pixel that ends it (R196). -/
def Cmd.pastAt (c : Cmd) (e : Nat) : Bool :=
  c.op == .cpyc && cvPixel c.desc (shEsz c.shape) (e / cvCg (cvHead c.desc)) == .past

/-- Whether segment `k` holds the last element that is written: the last of the stream, or for CPYC the one before a pixel past the
batch (R189, R196). -/
def Cmd.writesLast (c : Cmd) (k : Nat) : Bool :=
  !c.pastAt (c.cut k) && (c.lastSegment k || (c.segment k ++ [c.cut (k + 1)]).any c.pastAt)

/-- The acquire of element 0 and the release of the last element, in the L1's part (R189, R262). -/
def State.cmdOrder (s : State) (w : Who) (r : BitVec 512) (first last : Bool) : State :=
  let s1 := if shAcq r && first then s.acquireAt w.core (shScope r) else s
  if shRel r && last then s1.releaseAt w.core (shScope r) else s1

/-- An element's bytes: padding, or the source's, of which those read with an earlier segment are not read again (R190, R193, R196). -/
def State.elemBytes (s : State) (w : Who) (c : Cmd) (e : Nat) : MRes (List Byte) :=
  let n := shEsz c.shape
  match c.srcOf e with
  | none => .ok s (leBytes n (shFill c.shape))
  | some a =>
    let old := (List.range n).map fun i => (c.fore.find? fun q => q.1 == a + i).map Prod.snd
    if old.all Option.isSome then .ok s (old.map fun o => o.getD 0)
    else
      (match c.op with
      | .cpy | .cpyc => s.cmdRead w c.shape (BitVec.ofNat 64 a) n (shAcq c.shape && e == 0)
      | _ => s.ownRead w.job a n).bind fun s1 b => .ok s1 (List.zipWith (fun (o : Option Byte) x => o.getD x) old b)

/-- The bytes of elements, each with the address it goes to, in element order. -/
def State.elemsBytes (w : Who) (c : Cmd) : List Nat → State → MRes (List (Nat × Byte))
  | [], s => .ok s []
  | e :: t, s =>
    (s.elemBytes w c e).bind fun s1 b =>
      (State.elemsBytes w c t s1).bind fun s2 l => .ok s2 (((List.range b.length).map (c.destOf e + ·)).zip b ++ l)

/-- Places a byte among bytes of rising addresses, unless its address has one. -/
def placeByte (p : Nat × Byte) : List (Nat × Byte) → List (Nat × Byte)
  | [] => [p]
  | q :: t => if p.1 < q.1 then p :: q :: t else if p.1 = q.1 then q :: t else q :: placeByte p t

/-- What bytes written in order leave, by rising address: the later one wins (R190). -/
def finalBytes (l : List (Nat × Byte)) : List (Nat × Byte) := l.foldr placeByte []

/-- Bytes of rising addresses as runs. -/
def byteRuns : List (Nat × Byte) → List (Nat × List Byte)
  | [] => []
  | (a, x) :: t =>
    match byteRuns t with
    | (b, l) :: r => if b = a + 1 then (a, x :: l) :: r else (a, [x]) :: (b, l) :: r
    | [] => [(a, [x])]

/-- Writes a run of a copy's bytes to the side they go to (R193, R194, R196). -/
def State.putRun (s : State) (w : Who) (c : Cmd) (a : Nat) (b : List Byte) : MRes Unit :=
  match c.op with
  | .cpyo => s.cmdWrite w (BitVec.ofNat 64 a) b
  | .cpyoAppend =>
    (s.apDesc w (c.desc.headD 0)).bind fun s1 d =>
      (s1.apPool w d.pool).bind fun s2 p => State.apStore w d.plist p.base 3 a b s2
  | _ => .ok (s.ownWrite w.job a b) ()

/-- Writes runs in order. -/
def State.putRuns (w : Who) (c : Cmd) : List (Nat × List Byte) → State → MRes Unit
  | [], s => .ok s ()
  | (a, b) :: t, s => (s.putRun w c a b).bind fun s1 _ => State.putRuns w c t s1

/-- Whether bytes a segment leaves to the next could be written now: a fault they meet is this segment's (R191). -/
def State.runsReach (w : Who) (c : Cmd) : List (Nat × List Byte) → State → MRes Unit
  | [], s => .ok s ()
  | (a, b) :: t, s =>
    (if c.op = .cpyo && !isScratchPath (BitVec.ofNat 64 a) then
      (s.reachAll w (BitVec.ofNat 64 a) b.length true).bind fun s1 _ => .ok s1 ()
    else (s.putRun w c a b).bind fun _ _ => .ok s ()).bind fun s1 _ => State.runsReach w c t s1

/-- The elements a segment's neighbour shares its first units with: those of the first 8 bytes of segment `k`. -/
def Cmd.firstElems (c : Cmd) (k : Nat) : List Nat := (c.segment k).take (8 / shEsz c.shape)

/-- The 8-byte units that the segment after `k` begins by writing. -/
def Cmd.sharedUnits (c : Cmd) (k : Nat) : List Nat :=
  (c.firstElems (k + 1)).flatMap fun e => [c.destOf e / 8, (c.destOf e + shEsz c.shape - 1) / 8]

/-- The source bytes of the segment after `k` that lie in a unit which the last elements of segment `k` read. -/
def Cmd.foreAddrs (c : Cmd) (k : Nat) : List Nat :=
  let n := shEsz c.shape
  let units := ((c.segment k).reverse.take (8 / n)).flatMap fun e =>
    match c.srcOf e with | some a => [a / 8, (a + n - 1) / 8] | none => []
  (c.firstElems (k + 1)).flatMap fun e =>
    match c.srcOf e with
    | some a => ((List.range n).map (a + ·)).filter fun x => units.contains (x / 8)
    | none => []

/-- Reads source bytes one by one. -/
def State.foreBytes (w : Who) (c : Cmd) : List Nat → State → MRes (List (Nat × Byte))
  | [], s => .ok s []
  | a :: t, s =>
    (match c.op with
    | .cpy | .cpyc => s.cmdRead w c.shape (BitVec.ofNat 64 a) 1 false
    | _ => s.ownRead w.job a 1).bind fun s1 b =>
      (State.foreBytes w c t s1).bind fun s2 l => .ok s2 ((a, b.headD 0) :: l)

/-- One segment of a copy (R191): its elements' bytes are read, and those of them whose units the next segment goes on with are
written with it, so that no aligned 8-byte unit is read or written in two steps (R190). (DESIGN CHOICE, log 41.) (DEDUCED, log 100.) -/
def State.runSegment (s : State) (w : Who) (c : Cmd) : MRes Cmd :=
  let k := c.prog
  let l := (c.segment k).takeWhile fun e => !c.pastAt e
  let stops := decide (l.length < (c.segment k).length)
  let last := c.lastSegment k || stops
  let s0 := s.cmdOrder w c.shape (k == 0 && c.op != .cpyoAppend) (c.writesLast k)
  (State.elemsBytes w c l s0).bind fun s1 b =>
    let q := (finalBytes (c.held ++ b)).partition fun p => !last && (c.sharedUnits k).contains (p.1 / 8)
    (State.foreBytes w c (if last then [] else c.foreAddrs k) s1).bind fun s2 fore =>
      (State.putRuns w c (byteRuns q.2) s2).bind fun s3 _ =>
        (State.runsReach w c (byteRuns q.1) s3).bind fun s4 _ =>
          .ok s4 { c with
            prog := k + 1, spent := last, held := q.1, fore := fore
            count := if stops then (c.cut k + l.length) / cvCg (cvHead c.desc) else c.count }

/-- A copy that goes on no further, or only after a drain, writes what its last segment has left (R191); a later segment reads its
source anew. -/
def State.flushCmd (s : State) (w : Who) (c : Cmd) : State :=
  match State.putRuns w c (byteRuns c.held) s with
  | .ok s1 _ => s1.setCmd w.job { c with held := [], fore := [] }
  | _ => s

/-! ### PREF and CFLUSH as they complete (R197, R198) -/

/-- The distinct lines of the walk, as virtual addresses in order of first touch. -/
def Cmd.lines (c : Cmd) : List Word :=
  (((List.range (copyElems c.shape c.kn.toNat)).flatMap fun e =>
    let va := displace (effBase c.shape c.km) (elemAt c.shape e).1
    (linesOf (va.toNat % 2 ^ 56) (shEsz c.shape)).map fun p => onPath va (p.1 / 64 * 64)).reverse.dedup).reverse

/-- Whether a line of device memory can be acted on: a home serves it, and its data is sound (R188, R419). -/
def State.lineSound (s : State) (pa : Nat) : Bool :=
  !s.noHome pa && !s.memPoisoned (pa / 64 * 64) 64 && !s.flash.retired.contains (pa / 2 ^ 16)

/-- PREF of a line of host memory (R197, R391): it comes to its home slice, and with FN[0] into L1; a line of a peer window is never
held, and one the host does not grant, or beyond a link that is down, is skipped. -/
def State.prefHost (s : State) (w : Who) (l1 : Bool) (p : Phys) : Option State :=
  if s.inPeerWindow (s.hport w.part) p.pa || !s.linkIsUp (s.hport w.part) then none
  else match s.hostRead w false l1 p 1 with
    | .ok s1 _ => some s1
    | _ => none

/-- Acts on one line; none where it is skipped: its page fails translation or access rights, or its data is uncorrectable
(R188). (DESIGN CHOICE, log 38.) -/
def State.walkLine (s : State) (w : Who) (c : Cmd) (va : Word) : Option State :=
  match s.translate w va .read with
  | .ok s1 p =>
    match pteHost p.leaf, c.op with
    | true, .pref l1 => s1.prefHost w (l1 && shPath c.shape != 2) p
    | true, .cflush .invalidate => some (s1.hostFit w true p)
    | true, .cflush .writeBack =>
      some (match s1.hostL1 w p.pa with
        | some l =>
          (s1.writeBackLine l).modCore (s1.l1Core w.core p.pa) fun k =>
            { k with l1 := k.l1.map fun q => if q.line = l.line then { q with dirty := 0 } else q }
        | none => s1)
    | true, _ => some s1
    | false, op =>
      if !s1.lineSound p.pa then none
      else
        match op with
        | .pref l1 =>
          let stop := stopOf w.core
          let home := (s1.homeOf p.pa).getD stop
          let s2 :=
            if shPath c.shape = 1 && shRepl c.shape && pteRepl p.leaf && home != stop &&
                (s1.replica? stop w.part w.seq (lineOf p.pa)).isNone then
              { s1 with replicas := s1.replicas ++ [⟨stop, w.part, w.seq, lineOf p.pa, s1.homeLine (lineOf p.pa)⟩] }
            else s1
          some (if l1 && cacheable p.leaf && shPath c.shape != 2 then s2.l1Fill w p.pa p.leaf else s2)
        | .cflush .writeBack => some (s1.l1Clean w.core p.pa)
        | .cflush .invalidate => some (s1.l1Drop w.core p.pa)
        | .cflush .dropReplicas =>
          let s2 := s1.l1Drop w.core p.pa
          some { s2 with replicas := s2.replicas.filter fun r =>
            !(decide (r.stop = stopOf w.core) && decide (r.line = lineOf p.pa)) }
        | _ => some s1
  | _ => none

/-- The requests for lines of host memory that PREF still has to make (R391); `none` for a line it has to wait for, of those or of a
host that holds it exclusively (R390), as CFLUSH does where such a line is to be written back. -/
def State.prefAsks (s : State) (w : Who) (c : Cmd) : List (Option CxlReq) :=
  c.lines.filterMap fun va =>
    match s.translate w va .read with
    | .ok s1 p =>
      let port := s1.hport w.part
      match c.op, pteHost p.leaf with
      | .pref _, true =>
        if s1.linkIsUp port && !s1.inPeerWindow port p.pa then
          match s1.ownHostLine w port (lineOf p.pa) with
          | .hold _ q _ => some q
          | _ => none
        else none
      | .pref _, false => if s1.hostHolds (p.pa / 64 * 64) 64 then some none else none
      | .cflush _, false =>
        match s1.l1Find w.core p.pa with
        | some l => if s1.lineHeld l then some none else none
        | none => none
      | _, _ => none
    | .hold _ _ _ => some none
    | _ => none

/-- The whole walk and the lines it counts. (DESIGN CHOICE, log 38.) -/
def State.walkAll (s : State) (w : Who) (c : Cmd) : State × Nat :=
  c.lines.foldl (fun a va =>
    match a.1.walkLine w c va with
    | some t => (t, a.2 + 1)
    | none => a) (s, 0)

end Sys2Proof.Machine
end

