-- ==== Sys2Proof/Machine/Bundle.lean ====
section
/-! DEFINITION. What the words of a V bundle are for R67 to R70 and R120: their classes, what they write, whether they yield
a value, what a VMOD may set before them, and the breaches of a whole bundle. -/

namespace Sys2Proof.Machine

/-- The class of a word in a bundle (R76). -/
inductive WordClass where
  | scalar | arith | table | data | modifier
  deriving DecidableEq, Repr

/-- The class of a word of V by its opcode (R76). -/
def wordClass (w : Word) : WordClass :=
  let o := (fOpc w).toNat
  if o < 0x80 then .scalar
  else if o = 0xF0 then .modifier
  else if o = 0xD8 then .table
  else if o ≤ 0xB0 ∨ (0xD0 ≤ o ∧ o ≤ 0xD7) ∨ (0xE0 ≤ o ∧ o ≤ 0xE5) then .arith
  else .data

/-- Scalar opcodes with a destination D, and with a predicate destination (R94 to R111, R205). -/
def hasDest (o : Nat) : Bool := (1 ≤ o && o ≤ 0x0F) || [0x12, 0x19, 0x1C, 0x1D, 0x1E, 0x20, 0x21, 0x23].contains o
@[inherit_doc hasDest]
def hasPred (o : Nat) : Bool := [0x10, 0x11, 0x13].contains o

/-- Vector opcodes that push a scalar result (R138): VEXT, VREDARG, VMPOP, VSNAP, VPREFEQ. -/
def pushesResult (o : Nat) : Bool := [0xCA, 0xD3, 0xD6, 0xD9, 0xE0].contains o

/-- Vector opcodes that write a mask: VCMP, VMLOG, VMASS, VBTEST; and those that write no vector register. -/
def writesMask (o : Nat) : Bool := [0x8C, 0xD7, 0xE2, 0xE4].contains o
@[inherit_doc writesMask]
def writesNoVector (o : Nat) : Bool := writesMask o || [0xC1, 0xC4, 0xCA, 0xD6, 0xD8, 0xE0, 0xF0].contains o

/-- Whether a word yields a scalar result (R59, R138). -/
def yieldsValue (w : Word) : Bool :=
  let o := (fOpc w).toNat
  hasDest o || hasPred o || pushesResult o

/-- A register a word of a bundle writes (R70). -/
inductive Written where
  | v (n : Nat)
  | m (n : Nat)
  | k (n : Nat)
  | p (n : Nat)
  | history
  deriving DecidableEq, Repr

/-- The registers a word of a bundle writes (R70); p7 and m7 take no write. -/
def writesOf (w : Word) : List Written :=
  let o := (fOpc w).toNat
  if o < 0x80 then
    let d := (fD w).toNat
    if hasDest o then (if d < 16 then [.k d] else if d = 16 then [.history] else [])
    else if hasPred o then (if d = 7 then [] else [.p d])
    else if o = 0x18 then [.k d]
    else []
  else
    let d := (fVD w).toNat
    (if pushesResult o then [.history] else []) ++
      (if writesMask o then (if d = 7 then [] else [.m d])
       else if writesNoVector o then []
       else if o = 0xE1 then [.v d, .v (d + 1)]
       else [.v d])

/-- The fields a VMOD may set before a word (R120): the NEG and ABS bits of the operands it may change, the clamps, whether
SCALE may be set, and the overrides. -/
structure VmodRule where
  ops    : BitVec 3
  clamps : List Clamp
  scale  : Bool
  rounds : List (Option RMode)
  deriving DecidableEq, Repr

/-- Every clamp; every override; those of R37. -/
def anyClamp : List Clamp := [.none, .unit, .sym, .sat]
@[inherit_doc anyClamp]
def anyRound : List (Option RMode) := [none, some .rne, some .rtz, some .rdn, some .rup, some .rmm]
@[inherit_doc anyClamp]
def rneOnly : List (Option RMode) := [none, some .rne]

/-- Nothing may be set. -/
def VmodRule.nothing : VmodRule := ⟨0, [.none], false, [none]⟩

/-- The rule for VCVT by its formats (R120). -/
def cvtRule (d s : ElemTy) : VmodRule :=
  if d.isFloat then ⟨0b100, anyClamp, true, anyRound⟩
  else if d = .f8 ∧ s.isFloat then ⟨0b100, anyClamp, true, anyRound⟩
  else if d = .e8s ∧ s.isFloat then ⟨0b100, [.none], true, [none]⟩
  else if d.isInt ∧ s.isInt then ⟨0, [.none, .sat], false, [none]⟩
  else .nothing

/-- The table of R120, by opcode and TYPE. -/
def vmodRule (w : Word) (i : Instr) : VmodRule :=
  let float := match ElemTy.ofCode (fTY w) with | some t => t.isFloat | none => false
  match (fOpc w).toNat with
  | 0x80 | 0x81 | 0x82 | 0x86 | 0x92 | 0x93 => ⟨0b110, anyClamp, true, anyRound⟩
  | 0x83 | 0x84 | 0x85 => ⟨0b111, anyClamp, true, anyRound⟩
  | 0x87 => ⟨0b100, anyClamp, true, anyRound⟩
  | 0x90 | 0x91 | 0x94 | 0x95 | 0x96 | 0x97 => ⟨0b100, anyClamp, true, rneOnly⟩
  | 0x88 | 0x89 | 0x8A | 0x8B => if float then ⟨0b110, anyClamp, false, [none]⟩ else .nothing
  | 0x8C => if float then ⟨0b110, [.none], false, [none]⟩ else .nothing
  | 0x98 => match i with | .vcvt _ _ _ d s _ => cvtRule d s | _ => .nothing
  | 0x9A => ⟨0, anyClamp, true, anyRound⟩
  | 0xA0 | 0xA1 | 0xA2 | 0xA4 => ⟨0, [.none, .sat], false, [none]⟩
  | _ => .nothing

/-- Whether a VMOD is legal before a word (R68, R120). -/
def vmodOk (neg abs : BitVec 3) (clamp : Clamp) (scale : BitVec 4) (rnd : Option RMode) (w : Word) (i : Instr) : Bool :=
  let r := vmodRule w i
  wordClass w == .arith && (neg ||| abs) &&& ~~~r.ops == 0 && r.clamps.contains clamp && (r.scale || scale == 0) &&
    r.rounds.contains rnd

/-- Whether a fetched word of V is followed by another of its bundle: scalar words never are (R69). -/
def moreBit (w : Word) : Bool := decide (0x80 ≤ (w.extractLsb' 40 8).toNat) && w.getLsbD 36

/-- A word of a bundle: as fetched, and as decoded; none where the word is illegal by itself. -/
abbrev BundleWord := Word × Option Instr

/-- Whether a word of a bundle is illegal, or breaches R68 or R69, given the words before it and those after. -/
def wordBreach (before : List BundleWord) (i : BundleWord) (after : List BundleWord) : Bool :=
  let count (k : WordClass) : Nat := (before.filter fun w => wordClass w.1 == k).length
  i.2.isNone || (!before.isEmpty && i.1.extractLsb' 56 8 != 0) || (!after.isEmpty && i.1.extractLsb' 48 8 != 0) ||
    (decide (3 ≤ before.length) && moreBit i.1) ||
    (match wordClass i.1 with
     | .arith => decide (2 ≤ count .arith) || decide (1 ≤ count .table)
     | .table => decide (1 ≤ count .arith + count .table)
     | .data => decide (1 ≤ count .data)
     | .scalar => false
     | .modifier =>
       match i.2, after with
       | some (.vmod _ _ neg abs cl sc rnd), (w, some k) :: _ => !vmodOk neg abs cl sc rnd w k
       | some (.vmod ..), (w, none) :: _ => wordClass w != .arith
       | _, _ => true)

/-- Whether two words of a bundle, or one word twice, write one register (R70). -/
def writesTwice (before : List BundleWord) (i : BundleWord) : Bool :=
  (writesOf i.1).any (fun r => before.any fun w => (writesOf w.1).contains r) || decide (¬(writesOf i.1).Nodup)

/-- Whether a bundle yields the value its REPLY pushes (R59, R138): that of its scalar word, if it ends in one, else of a vector
word. -/
def bundleYields (last : Word) (ws : List BundleWord) : Bool :=
  if wordClass last = .scalar then yieldsValue last else ws.any fun w => yieldsValue w.1

/-- The index of the first word of a bundle that raises ILLEGAL (R68 to R71); or of the last, where its REPLY is set and
the bundle yields no value (R59). (DEDUCED, log 21.) -/
def bundleBreach : List BundleWord → List BundleWord → Option Nat
  | before, [] =>
    match before.getLast? with
    | some i => if i.1.extractLsb' 52 3 != 0 && !bundleYields i.1 before then some (before.length - 1) else none
    | none => none
  | before, i :: t => if wordBreach before i t || writesTwice before i then some before.length else bundleBreach (before ++ [i]) t

end Sys2Proof.Machine
end

