-- ==== Sys2Proof/Machine/Fetch.lean ====
section
/-! DEFINITION. Instruction fetch and the instruction rings (R249, R260, R372). -/

namespace Sys2Proof.Machine

/-- Words a ring holds (R249). -/
def ringWords : Nat := 2048

/-- The word a ring holds for an address. (DEDUCED, log 23.) -/
def StreamSt.held (t : StreamSt) (a : Word) : Option Word := (t.ring.find? fun p => p.1 == a).map Prod.snd

/-- Puts a word into a ring; words far behind the PC go, and the oldest where it is full. -/
def StreamSt.ringPut (t : StreamSt) (a w : Word) : StreamSt :=
  { t with ring := ((a, w) :: t.ring.filter fun p => p.1 != a && ringNear t.pc p.1).take ringWords }

/-- How far ahead of the PC a ring may hold words: what the words kept before the PC leave (R249). -/
def StreamSt.ringAhead (t : StreamSt) : Nat :=
  ringWords - (t.ring.filter fun p => decide ((t.pc - p.1 - 8).toNat < 4096)).length

/-- Reads a code word at its home (R249, R260, R372): path 0x0 only, a page with Fetch allowed. -/
def State.fetchAt (s : State) (w : Who) (a : Word) : MRes Word :=
  if a.extractLsb' 0 3 ≠ 0 then .fault s causeMisaligned
  else if a.extractLsb' 56 8 ≠ 0 then .fault s causeProtection
  else
    (s.translate w a .fetch).bind fun s1 p =>
      (if pteHost p.leaf then s1.hostAccess w p.pa 8 none
       else if s1.noHome p.pa then .fault s1 causeProtection
       else s1.homeRead p.pa 8).bind fun s2 b => .ok s2 (BitVec.ofNat 64 (leNat b))

/-- The words of the bundle at an address as a ring holds them, or the first address it does not hold (R69, R249). -/
def bundleAt (t : StreamSt) (x : StreamId) : Nat → Word → List Word ⊕ Word
  | 0, _ => .inl []
  | f + 1, a =>
    match t.held a with
    | none => .inr a
    | some w =>
      if x = .v ∧ moreBit w then
        match bundleAt t x f (a + 8) with
        | .inl l => .inl (w :: l)
        | .inr b => .inr b
      else .inl [w]

/-- The first of `n` words from an address that a ring does not hold. -/
def firstMissing (t : StreamSt) : Nat → Word → Option Word
  | 0, _ => none
  | n + 1, a => match t.held a with | none => some a | some _ => firstMissing t n (a + 8)

/-- One word ahead of the PC of a stream or slot enters its ring (R249). A word that cannot be read is met where it is needed. -/
def State.ringFill (n : Nat) (x : StreamId) (s : State) (slot : Option Nat) : State :=
  match s.jobs[n]? with
  | none => s
  | some j =>
    let t := j.regs x slot
    if !(j.phase == .loading || j.phase == .running) || t.atJoin then s
    else
      match firstMissing t t.ringAhead t.pc with
      | none => s
      | some a =>
        match s.fetchAt (whoOf n j x slot a) a with
        | .ok s1 w => s1.modRegs n x slot fun t => t.ringPut a w
        | .hold _ q _ => { s with cxl := s.cxl ++ q.toList }
        | _ => s

/-- The C streams besides the leader's that a stream's fetcher stands for: those of a running loop's helpers (R249, R290). -/
def Job.helperSlots (j : Job) (x : StreamId) : List (Option Nat) :=
  match x, j.loop with
  | .c, some lp => (List.range (lp.slots.length - 1)).map fun k => some (k + 1)
  | _, _ => []

/-- RING_FETCH (R249): one word ahead of the PC enters the ring of a stream, and of every helper's C with the leader's. -/
def execRingFetch (n : Nat) (x : StreamId) (s : State) : Host.Outcome State Fault Refusal :=
  .next ((none :: (match s.jobs[n]? with | some j => j.helperSlots x | none => [])).foldl (State.ringFill n x) s)

/-- Fetches a word a stream or slot needs now (R375): a translation failure suspends the job, or raises TRANSLATION in a
timed job and in an iteration that is not confirmed; any other failure raises its cause with TPC the fetched address. (DESIGN CHOICE, log 22.) -/
def State.fetchNeeded (s : State) (n : Nat) (j : Job) (x : StreamId) (slot : Option Nat) (a : Word) : State :=
  let c := Cursor.start n x slot j 1
  match s.fetchAt (whoOf n j x slot a) a with
  | .ok s1 w => s1.modRegs n x slot fun t => t.ringPut a w
  | .fault s1 e => s1.raiseAt c ⟨e, a, 0, 0⟩
  | .susp _ va kind level =>
    if j.timed || j.speculative slot then s.raiseAt c ⟨causeTranslation, a, 0, 0⟩
    else s.suspendJob n ⟨va, kind, level, j.coreOf slot, if slot.isSome then .c else x, a, slot, false⟩
  | .hold _ q _ => { s with cxl := s.cxl ++ q.toList }

end Sys2Proof.Machine
end

