-- ==== Sys2Proof/Machine/Agents.lean ====
section
/-! DEFINITION. The agents outside the cores: the two host ports and the Crumb; what each may write, and the record of a
refusal (R389, R394, R423). -/

namespace Sys2Proof.Machine

/-- The port an agent is; none for the Crumb. -/
def agentPort : Agent → Option Bool
  | .port0 => some false
  | .port1 => some true
  | .crumb _ => none

/-- The number of an agent in a semaphore (R395). -/
def agentNum : Agent → BitVec 8
  | .port0 => 1
  | .port1 => 2
  | .crumb _ => 3

/-- The owning port of a partition (R393). -/
def Part.owner (p : Part) : Bool := p.partcfg.getLsbD 0

/-- FSVC: the owning port services the fault queue (R393). -/
def Part.fsvc (p : Part) : Bool := p.partcfg.getLsbD 2

/-- Whether an agent's writes reach the block of partition `n`: every port's, and those of the partition's own Crumb instance (R423). -/
def agentReaches (a : Agent) (n : Nat) : Bool :=
  match a with
  | .crumb k => decide (k = n)
  | _ => true

/-- Whether an agent may write the registers of partition `n`: the owning port or its Crumb (R394, R423). -/
def Part.writable (p : Part) (n : Nat) (a : Agent) : Bool :=
  match agentPort a with
  | none => agentReaches a n
  | some b => p.owner == b

/-- Whether an agent services the faults of partition `n`: its Crumb, or the owning port where FSVC is 1 (R376, R394). -/
def Part.services (p : Part) (n : Nat) (a : Agent) : Bool :=
  match agentPort a with
  | none => agentReaches a n
  | some b => p.owner == b && p.fsvc

/-- The error-record UNIT of an agent: a port's, or the Launch Unit's for the Crumb (R416, R423). -/
def agentUnit : Agent → Nat
  | .port0 => 0xA
  | .port1 => 0xB
  | .crumb _ => 0xC

/-- Whether the update of a partition's Crumb instance is under way, from its start to its end (R432). -/
def State.crumbDown (s : State) (part : Nat) : Bool :=
  match s.fwbusy with
  | some f => f.cmd == 1 && f.fail == 0 && f.part == some part
  | none => false

/-- Whether an agent reaches the control space: its port's link is up, or, for a Crumb instance, the module has power and the instance
is not being replaced (R432). -/
def State.hears (s : State) (a : Agent) : Bool :=
  match a with
  | .port0 => s.linkIsUp false
  | .port1 => s.linkIsUp true
  | .crumb n => s.powered && !s.crumbDown n

/-- A write or access an agent may not make is discarded and logged (R389, R394, R423). -/
def State.refuse (s : State) (a : Agent) (addr : Nat) : State :=
  s.logError { ErrRec.blank with kind := 7, unit := agentUnit a, addr := addr }

/-- The agent a port is. -/
def portAgent (port : Bool) : Agent := if port then .port1 else .port0

/-- The lowest stop of a partition. -/
def Part.low (p : Part) : Nat := p.stops.foldl min 12

/-- Where a partition's block stands in the control space. -/
def Part.block (p : Part) : Nat := 0x10_0000 * (1 + p.low)

/-- The cores of a partition, in ascending order, disabled ones left out (R10, R420). -/
def State.partCores (s : State) (p : Part) : List Nat :=
  (List.range 96).filter fun c => p.stops.contains (stopOf c) && !(s.core c).disabled

/-- Whether a semaphore is held by an agent (R395). -/
def State.holdsSem (s : State) (n : Fin 16) (a : Agent) : Bool := (s.sems.get n).holder == agentNum a

/-- Whether a word of a job has issued and awaits the answer to its access. -/
def Job.awaits (j : Job) : Bool :=
  [StreamId.c, .l, .v, .m, .s].any (fun x => (j.stream x).out.isSome) ||
    (match j.handler with | some hd => hd.out.isSome | none => false) ||
    (match j.loop with | some lp => lp.slots.any fun sl => sl.regs.out.isSome | none => false)

/-- Whether an access of a context, translated already, has yet to be performed (R377). -/
def State.inFlight (s : State) (part : Nat) (ctx : BitVec 16) : Bool :=
  (s.jobs.any fun j => decide (j.mem.part = part) && j.mem.ctx == ctx && j.phase == .running && j.awaits) ||
    s.cxl.any fun q => !q.done && match s.jobs[q.job]? with
      | some j => decide (j.mem.part = part) && j.mem.ctx == ctx
      | none => false

/-- Whether a frame is held in a checkpoint image of a partition (R378). -/
def Part.holdsFrame (p : Part) (frame n : Nat) : Bool :=
  p.images.any fun i => i.2.any fun l => decide (l.2.2.2 < frame + n) && decide (frame < l.2.2.2 + 2 ^ (pageBits l.2.1 - 16))

/-- Bytes a context reserves for each core: its job save area and its Sluice snapshot area (R15, R310, R364). -/
def areaBytes : Nat := 0x80_0000

/-- Bytes of a partition's memory available to pages of its contexts (R15, R393): PARTMEM. (DEDUCED, log 71.) -/
def State.partMem (s : State) (part : Nat) : Nat :=
  match s.parts[part]? with
  | none => 0
  | some p =>
    let log := if p.stops.contains (s.errBase / Config.packageBytes) then 64 * Config.errLogSize else 0
    p.stops.length * (Config.packageBytes - Config.spareBytes) - log -
      (p.contexts.filter fun c => s.ctxValid part c).length * (areaBytes * 8 * p.stops.length)

end Sys2Proof.Machine
end

