-- ==== Sys2Proof/Machine/LaunchOps.lean ====
section
/-! DEFINITION. Meanings of the C words that reach the partition: LAUNCH (R215, R336), the Pond (R216, R355, R356) and
CKPT (R223, R378). -/

namespace Sys2Proof.Machine

/-! ### Inlets (R336) -/

/-- Fields of an Inlet header at a device physical address. -/
def State.inletTail (s : State) (base : Nat) : Nat := leNat (s.readPhys base 8)
@[inherit_doc State.inletTail]
def State.inletHead (s : State) (base : Nat) : Nat := leNat (s.readPhys (base + 8) 8)
@[inherit_doc State.inletTail]
def State.inletSize (s : State) (base : Nat) : Nat := leNat (s.readPhys (base + 16) 4)

/-- The address of slot `n` of an Inlet. -/
def inletSlot (base size n : Nat) : Nat := base + 256 * (1 + n % size)

/-- The base of Inlet `i` of a partition. -/
def State.inletBase (s : State) (part : Nat) (i : BitVec 2) : Nat :=
  match s.parts[part]? with
  | some p => (p.inlets.get i.toFin).toNat
  | none => 0

/-- Claims the next slot of an Inlet (R336). -/
def State.inletClaim (s : State) (base : Nat) : State := s.writePhys base (leBytes 8 (s.inletTail base + 1))

/-- Whether the Inlet has no room yet for the slot claimed as `n` (R336). -/
def State.inletFull (s : State) (base n : Nat) : Bool := decide (s.inletSize base ≤ n - s.inletHead base)

/-- Publishes a record in slot `n` of an Inlet, dword 0 last (R336). -/
def State.inletPut (s : State) (base n : Nat) (rec' : List Byte) : State :=
  s.writePhys (inletSlot base (s.inletSize base) n) rec'

/-- LAUNCH (R215): its checks in the order of R80, the record read through path 0x0, the post; it retires once the record has been
consumed and numbered. It claims its slot of the Inlet as a producer does, and stalls at issue with it while the Inlet is full
or a host holds a line it needs (R336, R390). ILLEGAL in a handler (R241). (DEDUCED, log 44.) -/
def execLaunch (h : Hdr) (d : Dest) (a b : Src) (s : State) : Host.Outcome State Fault Refusal :=
  scalarWord h [a, b] (some a) (some d) (fun c j s =>
    let va := c.regs.src a
    let q := c.regs.src b
    let w := c.who j
    if inHandlerC c j then .raise causeIllegal
    else if va.toNat % 64 ≠ 0 then .raise causeMisaligned
    else if 4 ≤ q.toNat then .raise causeBound
    else if va.extractLsb' 56 8 ≠ 0 then .raise causeProtection
    else if j.mustWait c.slot then .stall
    else
      let i : BitVec 2 := q.setWidth 2
      let base := s.inletBase j.mem.part i
      ofAccess true c w s (s.memRead w va 256 false) fun s1 rec' =>
        let mine := ((j.regs .c c.slot).claim.filter fun q => q.1 == i).map Prod.snd
        let n := mine.getD (s1.inletTail base)
        if s1.unreadable base 64 then .fail (s.meetsUe base) causeMemUe
        else if s1.hostHolds base 64 then waits c w s
        else
        let s2 := if mine.isSome then s1 else s1.inletClaim base
        if s2.inletFull base n || s2.hostHolds (inletSlot base (s2.inletSize base) n) 256 || s2.l1Held w.core then
          if mine.isSome then .stall
          else .stop (((s.rollback c).inletClaim base).modRegs c.job .c c.slot fun t => { t with claim := some (i, n) })
        else
          let id := j.nextCmd
          let s3 := (((s2.l1Release w.core).inletPut base n rec').modPart j.mem.part fun p =>
            { p with posted := p.posted ++ [⟨i, n, c.job, id, j.mem.ctx⟩] }).modRegs c.job .c c.slot fun t =>
              { t with claim := none, out := none }
          match c.slot with
          | none =>
            .stop { (s3.modJob c.job fun k =>
              let k1 := { k with nextCmd := id + 1, waits := k.waits ++ [id] }
              queueCmd c k1 h d id false false s.tick) with cursor := none }
          | some n =>
            .stop { (s3.modJob c.job fun k =>
              let k1 := { k with nextCmd := id + 1, waits := k.waits ++ [id] }
              let t := k1.regs .c (some n)
              k1.setRegs .c (some n) { t with
                pc := c.pc + 8, notBefore := s.tick + 1
                retireQ := t.retireQ ++ [{ pc := c.pc, cmd := some id, dest := d, value := 0, reply := 0, tokens := 0,
                                           strict := false, copy := false }] }) with cursor := none }) s

/-! ### The Pond (R216, R355, R356) -/

/-- Items a partition's carved ways hold: 65,536 for each way at each stop (R355). -/
def Part.pondRoom (p : Part) : Nat := p.pondways * 65536 * p.stops.length

/-- Whether a queue is full for WQPUSH (R355). -/
def Part.pondFull (p : Part) (q : Fin 16) : Bool :=
  decide (65536 ≤ (p.pond.get q).length) || decide (p.pondRoom ≤ (p.pond.toList.map List.length).sum)

/-- Inserts by key, behind the items of the same key: the order pops prefer. -/
def pondInsert (x : PondItem) : List PondItem → List PondItem
  | [] => [x]
  | y :: t => if x.key < y.key then x :: y :: t else y :: pondInsert x t

/-- Where an item may be taken in a queue kept in key order: among the first W, and with no item of its key before it. -/
def pondAllowed (w : Nat) (l : List PondItem) (i : Nat) : Bool :=
  match l[i]? with
  | none => false
  | some x => decide (i < w) && (l.take i).all fun y => y.key != x.key

/-- Whether each of the first W items can still be returned within its last pop once one has been taken: of those that
remain, no more than `d` have `d` pops or fewer left. Where W or fewer items are present any may go (R356). -/
def pondFeasible (w : Nat) (l : List PondItem) (i : Nat) : Bool :=
  let rest := ((l.take w).eraseIdx i).map fun x => w - (x.passed + 1)
  decide (l.length ≤ w) || (List.range (w + 1)).all fun d => decide ((rest.filter fun r => r ≤ d).length ≤ d)

/-- The items a pop may return (R356). Where pops that could take any item have left more items at their last pop than it can return,
one of those. -/
def pondChoices (w : Nat) (l : List PondItem) : List Nat :=
  let any' := (List.range (min w l.length)).filter (pondAllowed w l)
  let good := any'.filter (pondFeasible w l)
  if good.isEmpty then any'.filter fun i => match l[i]? with | some x => decide (w ≤ x.passed + 1) | none => false else good

/-- The item a pop returns: the only choice, or one of them by a free value. -/
def pondTake (w n : Nat) (l : List PondItem) : Nat :=
  let ch := pondChoices w l
  ch.getD (Config.pondPick n % ch.length) 0

/-- The queue after item `i` has been popped: the items that stayed among the W smallest have passed one more, W the queue's own
whoever popped. (DEDUCED, log 93.) -/
def pondAfter (w i : Nat) (l : List PondItem) : List PondItem :=
  (((List.range l.length).zip l).map fun p => if p.1 < w then { p.2 with passed := p.2.passed + 1 } else { p.2 with passed := 0 }).eraseIdx i

/-- W of a queue's register; EN. -/
def pqW (cfg : Word) : Nat := (cfg.extractLsb' 0 6).toNat + 1
@[inherit_doc pqW]
def pqEn (cfg : Word) : Bool := cfg.getLsbD 7

/-- WQPUSH (R216): 0 where inserted, 1 where the queue is full or not enabled. -/
def execWqpush (h : Hdr) (d : Dest) (q k p : Src) (s : State) : Host.Outcome State Fault Refusal :=
  scalarWord h [q, k, p] (some q) (some d) (fun c j s =>
    let n := c.regs.src q
    if hq : n.toNat < 16 then
      if j.mustWait c.slot then .stall
      else
        match s.parts[j.mem.part]? with
        | none => .ok s 1 none
        | some pt =>
          let i : Fin 16 := ⟨n.toNat, hq⟩
          if !pqEn (pt.pqcfg.get i) || pt.pondFull i then .ok s 1 none
          else if s.l1Held (j.coreOf c.slot) then waits c (c.who j) s
          else
            let item : PondItem := ⟨(c.regs.src k).setWidth 32, c.regs.src p, 0⟩
            .ok ((s.l1Release (j.coreOf c.slot)).modPart j.mem.part fun t =>
              { t with pond := t.pond.set i (pondInsert item (t.pond.get i)) }) 0 none
    else .raise causeBound) s

/-- What a pop of queue `i` returns to a job: payload, key and the state after (R216, R356). A deterministic launch pops
with W = 1. (DEDUCED, log 43.) -/
def State.pondPop (s : State) (j : Job) (core : Nat) (i : Fin 16) : State × Word × Word :=
  match s.parts[j.mem.part]? with
  | none => (s, 0, BitVec.allOnes 64)
  | some pt =>
    let l := pt.pond.get i
    let w := if j.det then 1 else pqW (pt.pqcfg.get i)
    if !pqEn (pt.pqcfg.get i) || l.isEmpty then (s, 0, BitVec.allOnes 64)
    else
      let x := pondTake w s.free l
      match l[x]? with
      | none => (s, 0, BitVec.allOnes 64)
      | some item =>
        let s1 := { (s.modPart j.mem.part fun t => { t with pond := t.pond.set i (pondAfter (pqW (pt.pqcfg.get i)) x l) }) with free := s.free + 1 }
        (s1.l1Acquire core, item.payload, item.key.setWidth 64)

/-- WQPOP (R216). Where payload and key go to one register, the spec orders neither write: a free value decides. -/
def execWqpop (h : Hdr) (d : Dest) (kd : KeyDest) (q : Src) (s : State) : Host.Outcome State Fault Refusal :=
  let kuse : List Src := match kd with | .k i => [.k i] | .discard => []
  runWord h.wait h.sig true (fun c j s =>
    let n := c.regs.src q
    let t := c.regs
    if !(t.guardTrue h.guard) then scalarBody h true [q] (some q) (some d) (fun _ _ s => .ok s 0 none) c j s
    else if destPending (j.regs c.stream c.slot) (q :: kuse) (some d) then .stall
    else if hq : n.toNat < 16 then
      if j.mustWait c.slot then .stall
      else if s.l1Held (j.coreOf c.slot) then waits c (c.who j) s
      else
        let (s1, payload, key) := s.pondPop j (j.coreOf c.slot) ⟨n.toNat, hq⟩
        .ok (s1.modRegs c.job c.stream c.slot fun r =>
          match kd, d with
          | .discard, _ => r.write d payload
          | .k i, .k m =>
            if i = m ∧ Config.tieBreak payload.toNat key.toNat = true then (r.setK m payload).setK i key
            else (r.setK i key).write d payload
          | .k i, _ => (r.setK i key).write d payload) payload none
    else .raise causeBound) s

/-! ### CKPT (R223, R378) -/

/-- Every leaf below a table frame: virtual address, level, where its entry lies, the entry. -/
def leavesFrom (s : State) : Nat → Nat → Nat → Nat → List (Nat × Nat × Nat × Word)
  | 0, _, _, _ => []
  | f + 1, level, frame, base =>
    (List.range 1024).flatMap fun i =>
      let at' := frame * 2 ^ 16 + 8 * i
      let e : Word := BitVec.ofNat 64 (leNat (s.readPhys at' 8))
      let va := base + i * 2 ^ (46 - 10 * level)
      if !pteV e || pteMalformed e level then []
      else if pteLeaf e then [(va, level, at', e)]
      else leavesFrom s f (level + 1) (pteFrame e).toNat va

/-- The checkpoint leaves of a context. -/
def State.ckptLeaves (s : State) (part : Nat) (ctx : BitVec 16) : List (Nat × Nat × Nat × Word) :=
  if s.ctxValid part ctx then
    (leavesFrom s 4 0 (bitsOf (s.ctxDesc part ctx) 51 16) 0).filter fun l => pteCkpt l.2.2.2
  else []

/-- Drops every translation of a context in a range of virtual addresses, or all of them where the range is empty, from
every core, stop and Sluice engine (R377). -/
def State.tlbDrop (s : State) (part : Nat) (ctx : BitVec 16) (va len : Nat) : State :=
  let hit (p : Nat) (c : BitVec 16) (base bits : Nat) : Bool :=
    decide (p = part) && c == ctx && (len == 0 || (decide (base < va + len) && decide (va < base + 2 ^ bits)))
  let keep (t : TlbEntry) : Bool := !hit t.part t.ctx t.base (pageBits t.level)
  { s with
    cores := s.cores.map fun k => { k with tlb := k.tlb.filter keep }
    stops := s.stops.map fun t =>
      { tlb := t.tlb.filter keep, sluice := t.sluice.filter keep
        tables := t.tables.filter fun e => !hit e.part e.ctx (e.top * 2 ^ (46 - 10 * e.level)) (46 - 10 * e.level) } }

/-- The checkpoint of a context (R378): the dirty lines of its pages go home, D is cleared in every checkpoint leaf, the
translations are dropped, the step is recorded, and the frames are held as the image. -/
def State.checkpoint (s : State) (part : Nat) (ctx : BitVec 16) (step : Word) : State :=
  let s0 := (List.range 96).foldl (fun t c =>
    ((t.core c).l1.foldl State.writeBackLine t).modCore c fun k =>
      { k with l1 := k.l1.map fun l => { l with dirty := 0 } }) s
  let leaves := s0.ckptLeaves part ctx
  let s1 := leaves.foldl (fun t l => t.writePhys l.2.2.1 (leBytes 8 (l.2.2.2 &&& ~~~0x400).toNat)) s0
  let s2 := s1.tlbDrop part ctx 0 0
  let s3 := match s2.parts[part]? with
    | some p => s2.writePhys (p.ctxbase.toNat + 16 * ctx.toNat + 8) (leBytes 8 step.toNat)
    | none => s2
  s3.modPart part fun p =>
    { p with images := (ctx, leaves.map fun l =>
        (l.1, l.2.1, (l.2.2.2.extractLsb' 0 16).toNat, (pteFrame l.2.2.2).toNat)) :: p.images.filter fun q => q.1 ≠ ctx }

/-- Whether a checkpoint of a context has to wait: for its Crumb (R432), for an access already translated (R377), for a host to let a
line of a table or an L1 go (R390). -/
def State.ckptWaits (s : State) (part : Nat) (ctx : BitVec 16) : Bool :=
  s.crumbDown part || s.inFlight part ctx || s.hostHolds (s.ctxAt part ctx) 16 || s.l1HeldAny (List.range 96) ||
    (s.ckptLeaves part ctx).any fun l => s.hostHolds l.2.2.1 8

/-- CKPT (R223): waits for every older word of C to retire and for the partition's Crumb. (DEDUCED, log 45.) -/
def execCkpt (h : Hdr) (d : Dest) (a : Src) (s : State) : Host.Outcome State Fault Refusal :=
  scalarWord h [a] (some a) (some d) (fun c j s =>
    if j.mustWait c.slot || !(j.regs .c c.slot).retireQ.isEmpty || s.ckptWaits j.mem.part j.mem.ctx then .stall
    else
      .ok (s.checkpoint j.mem.part j.mem.ctx (c.regs.src a))
        (BitVec.ofNat 64 (s.ctxDesc j.mem.part j.mem.ctx / 2 ^ 64)) none) s

end Sys2Proof.Machine
end

