-- ==== Sys2Proof/Machine/Matrix.lean ====
section
/-! DEFINITION. The lookup matrix engine (R159 to R181): meanings of the M-map words, and the steps of the engine, its
sub-arrays and its code feeds. -/

namespace Sys2Proof.Machine

/-! ### Control words (R168, R178) -/

def lmSlot0 (w : Word) : Nat := (w.extractLsb' 40 13).toNat
def lmNn (w : Word) : Nat := (w.extractLsb' 29 6).toNat
def lmMc (w : Word) : Nat := 4 * 2 ^ (w.extractLsb' 27 2).toNat
def lmSparse (w : Word) : Bool := w.getLsbD 26
def lmBc (w : Word) : Nat := (w.extractLsb' 23 3).toNat
def lmAsgn (w : Word) : Bool := w.getLsbD 22
def lmAsc (w : Word) : Nat := (w.extractLsb' 0 22).toNat

/-- ILLEGAL conditions of an LMM control word alone (R168, R169). -/
def lmCtlBad (w : Word) : Bool :=
  w &&& 0xFFE0_0008_0000_0000 != 0 || decide (6 ≤ lmBc w) || lmRmask w == 0 || decide (lmMc w < lmNn w) ||
    (!lmSparse w && w.extractLsb' 27 8 != 0)

/-- B of R168. -/
def lmB (w : Word) : Nat := 2 ^ (lmBc w + 3)

/-- Groups of a block: ⌈B/G⌉ (R167). -/
def lmGpb (ctl lay : Word) : Nat := (lmB ctl + layG lay - 1) / layG lay

/-- Runs of a sparse record (R167). -/
def lmRuns (ctl lay : Word) : Nat := (lmGpb ctl lay + lmMc ctl - 1) / lmMc ctl

/-- Bytes of a block record (R167). -/
def lmLen (ctl lay : Word) : Nat :=
  if lmSparse ctl then 64 + 8 * lmMc ctl * lmRuns ctl lay + 8 * layW lay * lmNn ctl * lmRuns ctl lay
  else 64 + 8 * layW lay * lmGpb ctl lay

def tcFirst (w : Word) : Nat := (w.extractLsb' 0 13).toNat
def tcCount (w : Word) : Nat := (w.extractLsb' 16 13).toNat
def tcSgn (w : Word) : Bool := w.getLsbD 32

/-! ### Code feeds (R174) -/

def fdBase (d : BitVec 512) : Word := d.extractLsb' 0 64
def fdRun (d : BitVec 512) : Nat := (d.extractLsb' 64 32).toNat
/-- Extent of a dimension. -/
def fdExt (d : BitVec 512) (i : Nat) : Nat := (d.extractLsb' (128 + 16 * i) 16).toNat
/-- Stride of a dimension. -/
def fdStride (d : BitVec 512) (i : Nat) : Word := d.extractLsb' (192 + 64 * i) 64

/-- Bytes of the feed's stream. -/
def fdLen (d : BitVec 512) : Nat := fdRun d * fdExt d 0 * fdExt d 1 * fdExt d 2 * fdExt d 3

/-- A malformed descriptor, path bits apart. -/
def fdBad (d : BitVec 512) : Bool :=
  d.extractLsb' 448 64 != 0 || d.extractLsb' 96 32 != 0 || (List.range 4).any (fun i => fdExt d i == 0) ||
    fdRun d == 0 || fdRun d % 8 != 0 || (fdBase d).extractLsb' 0 3 != 0 ||
    (List.range 4).any (fun i => (fdStride d i).extractLsb' 0 3 != 0) || (fdBase d).extractLsb' 60 4 != 0

/-- The virtual address of a byte of the stream. -/
def fdAddr (d : BitVec 512) (p : Nat) : Word :=
  let r := p / fdRun d
  let i0 := r % fdExt d 0
  let i1 := r / fdExt d 0 % fdExt d 1
  let i2 := r / (fdExt d 0 * fdExt d 1) % fdExt d 2
  let i3 := r / (fdExt d 0 * fdExt d 1 * fdExt d 2)
  let x := fdBase d + BitVec.ofNat 64 i3 * fdStride d 3 + BitVec.ofNat 64 i2 * fdStride d 2 +
    BitVec.ofNat 64 i1 * fdStride d 1 + BitVec.ofNat 64 i0 * fdStride d 0 + BitVec.ofNat 64 (p % fdRun d)
  onPath (fdBase d) x.toNat

/-- A feed of a job. -/
def Job.feed (j : Job) (f : BitVec 2) : Option Feed := j.feeds.get f.toFin

/-- Replaces a feed. -/
def Job.setFeed (j : Job) (f : BitVec 2) (x : Option Feed) : Job := { j with feeds := j.feeds.set f.toNat x f.isLt }

/-! ### What LME commands use (R160, R179) -/

/-- The layout a command uses. -/
def LmeOp.layout : LmeOp → Option (BitVec 2)
  | .lmm _ tl _ _ _ _ => some tl
  | .tload tl _ _ => some tl
  | .tsave tl _ _ => some tl
  | .spill _ _ => none
  | .fill _ _ => none
  | .zero _ => none

/-- The feed a command uses. -/
def LmeOp.feed : LmeOp → Option (BitVec 2)
  | .lmm _ _ (.feed f) _ _ _ => some f
  | _ => none

/-- Whether an unfinished command uses layout `tl`. -/
def Job.layoutBusy (j : Job) (tl : BitVec 2) : Bool := j.lme.any fun c => c.op.layout == some tl

/-- Whether an unfinished command uses feed `f`. -/
def Job.feedBusy (j : Job) (f : BitVec 2) : Bool := j.lme.any fun c => c.op.feed == some f

/-- The layouts that name codebook `cb`. -/
def Job.layoutsOf (j : Job) (cb : BitVec 3) : List (BitVec 2) :=
  [0#2, 1#2, 2#2, 3#2].filter fun tl => (j.layout tl).set && layCb (j.layout tl).word == cb

/-- Whether tile `t` is absent for the job (R66, R159). -/
def State.noTile (s : State) (j : Job) (t : BitVec 2) : Bool :=
  tileAbsent (match s.parts[j.mem.part]? with | some p => p.urgent | none => false) j.urgent t.toNat

/-! ### Synchronous words -/

/-- TDECL (R162). -/
def execTdecl (h : Hdr) (t : BitVec 2) (f32 disc : Bool) (s : State) : Host.Outcome State Fault Refusal :=
  scalarWord h [] none none (fun c j s =>
    if s.noTile j t then .raise causeIllegal
    else if j.tileOwned t.toNat then .stall
    else .ok (s.modJob c.job fun k => { k with tiles := k.tiles.set t.toNat ⟨f32, disc⟩ t.isLt }) c.value none) s

/-- The entries past K are zero (R164). -/
def keepEntries (k : Nat) (e : BitVec 128) : BitVec 128 := BitVec.ofNat 128 (e.toNat % 2 ^ (8 * k))

/-- Whether the SYM claim fails (R164). -/
def asym (b : Codebook) : Bool := (List.range b.k).any fun j => b.entry (b.k - 1 - j) != -(b.entry j)

/-- The result `r` of a word, unless it has to wait for an older command: what ranks above SCHEDULE_MISS is raised all the same in a
cycle that is exact (R57, R80, R160). -/
def unlessBusy (busy : Bool) (c : Cursor) (r : WRes) : WRes := if busy then r.orStall c else r

/-- CBLOAD (R164). -/
def execCbload (h : Hdr) (cb : BitVec 3) (kc ka : Src) (s : State) : Host.Outcome State Fault Refusal :=
  scalarWord h [kc, ka] (some kc) none (fun c j s =>
    let ctl := c.regs.src kc
    let a := (c.regs.src ka).toNat
    let k := (ctl.extractLsb' 0 5).toNat
    let b : Codebook := ⟨true, k, ctl.getLsbD 8, keepEntries k (BitVec.ofNat 128 (leNat (cellGetN j.sp a 16)))⟩
    unlessBusy ((j.layoutsOf cb).any j.layoutBusy) c
      (match firstCause (causeIf (ctl &&& 0xFFFF_FFFF_FFFF_FEE0 != 0 || decide (k < 2) || decide (16 < k)) causeIllegal ++
          causeIf (!j.spanOk a 16) causeBound ++ causeIf (unitsTouch j.spBad a 16) causeMemUe ++
          causeIf (b.sym && asym b) causeCodebookAsym) with
      | some e => s.raiseOwn (j.spUe none a 16) e
      | none =>
        .ok (s.modJob c.job fun q =>
          (j.layoutsOf cb).foldl (fun q tl => q.setLayout tl { q.layout tl with set := false, slots := [] })
            { q with books := q.books.set cb.toNat b cb.isLt }) c.value none)) s

/-- The conditions of TLSET (R165). -/
def tlsetCauses (j : Job) (w : Word) : List (BitVec 8) :=
  let b := j.bookOf w
  causeIf (w &&& 0xFFE0_0000_000E_0E08 != 0 || layS w == 0 || layG w == 0 || decide (8 < layG w) || decide (layW w < 4) ||
      decide (8 < layW w) || layBase w % 64 != 0) causeIllegal ++
    (if b.loaded then
      causeIf (decide (256 < layN b.k w) || decide (2 ^ layW w < layN b.k w) || (layHalf w && !b.sym)) causeIllegal ++
        causeIf (!inWindow j.tsw (layBase w) (layS w * laySlotBytes b.k w)) causeBound
    else [causeTableInvalid])

/-- TLSET (R165). -/
def execTlset (h : Hdr) (tl : BitVec 2) (kc : Src) (s : State) : Host.Outcome State Fault Refusal :=
  scalarWord h [kc] (some kc) none (fun c j s =>
    let w := c.regs.src kc
    unlessBusy (j.layoutBusy tl) c
      (match firstCause (tlsetCauses j w) with
      | some e => .raise e
      | none => .ok (s.modJob c.job fun k => k.setLayout tl ⟨true, w, []⟩) c.value none)) s

/-- CFEED (R174). (DEDUCED, log 63.) -/
def execCfeed (h : Hdr) (cf : BitVec 2) (ka : Src) (s : State) : Host.Outcome State Fault Refusal :=
  scalarWord h [ka] (some ka) none (fun c j s =>
    let a := (c.regs.src ka).toNat
    unlessBusy (j.feedBusy cf) c
      (if a % 64 ≠ 0 then .raise causeMisaligned
      else
        match j.spLoad c.slot a 64 with
        | .fault e => s.raiseOwn (j.spUe c.slot a 64) e
        | .full => .stall
        | .ok b =>
          let d : BitVec 512 := BitVec.ofNat 512 (leNat b)
          if fdBad d then .raise causeIllegal
          else if 1 < pathOf (fdBase d) then .raise causeProtection
          else .ok (s.modJob c.job fun k => k.setFeed cf (some ⟨d, 0, 0, []⟩)) c.value none)) s

/-- CUNFEED (R176). -/
def execCunfeed (h : Hdr) (cf : BitVec 2) (s : State) : Host.Outcome State Fault Refusal :=
  scalarWord h [] none none (fun c j s =>
    if j.feedBusy cf then .stall else .ok (s.modJob c.job fun k => k.setFeed cf none) c.value none) s

/-- Starts waking the gated sub-arrays of a mask (R179). -/
def wakeSubs (now : Nat) (mask : BitVec 4) (k : Core) : Core :=
  { k with subs := Vector.ofFn fun i : Fin 4 =>
      let q := k.subs.get i
      if mask.getLsbD i.val && !q.awake && q.wakeAt.isNone then { q with wakeAt := some (now + Config.lmeWake) } else q }

/-- LWAKE (R179). -/
def execLwake (h : Hdr) (mask : BitVec 4) (s : State) : Host.Outcome State Fault Refusal :=
  scalarWord h [] none none (fun c j s =>
    if j.timed then .ok s c.value none else .ok (s.modCore j.core (wakeSubs s.tick mask)) c.value none) s

/-- Bit `i` of a status, where it holds. -/
def bitIf (b : Bool) (i : Nat) : Nat := if b then 2 ^ i else 0

/-- The status LSTAT pushes (R180); none for a selector outside the table, or of a tile the job does not have (R66, R159). (DESIGN CHOICE, log 98.) -/
def lstatValue (s : State) (j : Job) (sel : Nat) : Option Nat :=
  if sel = 0x000 then
    let k := s.core j.core
    some (((List.finRange 4).map fun i => bitIf (k.subs.get i).awake i.val + bitIf (k.subs.get i).wakeAt.isSome (4 + i.val)).sum +
      bitIf (j.lme.any (·.started)) 8 + bitIf (j.lme.any fun c => !c.started) 9)
  else if sel = 0x001 then some j.rsvd.toNat
  else if 0x010 ≤ sel ∧ sel ≤ 0x013 then
    some (match j.feed (BitVec.ofNat 2 (sel - 0x010)) with | some f => f.issued | none => 2 ^ 64 - 1)
  else if 0x018 ≤ sel ∧ sel ≤ 0x01B then
    some (match j.feed (BitVec.ofNat 2 (sel - 0x018)) with | some f => f.buf.length | none => 0)
  else if 0x020 ≤ sel ∧ sel ≤ 0x023 then
    let l := j.layout (BitVec.ofNat 2 (sel - 0x020))
    some (if l.set then l.word.toNat % 2 ^ 55 + layE (j.bookOf l.word).k l.word * 2 ^ 55 else 0)
  else if 0x028 ≤ sel ∧ sel ≤ 0x02B then
    let t := sel - 0x028
    let d := j.tiles.get (BitVec.ofNat 2 t).toFin
    let owner := j.lme.find? fun c => c.op.tile == some t
    if s.noTile j (BitVec.ofNat 2 t) then none
    else some ((if d.f32 then 0xB else 0) + bitIf d.disc 4 + bitIf owner.isSome 5 +
      64 * (match owner with
        | some c => (match c.op with | .lmm _ _ _ _ _ _ => c.steps | _ => 0)
        | none => 0))
  else if 0x030 ≤ sel ∧ sel ≤ 0x037 then
    let b := j.books.get (BitVec.ofNat 3 (sel - 0x030)).toFin
    some (if b.loaded then b.k + bitIf b.sym 8 + 512 else 0)
  else none

/-- LSTAT (R180). -/
def execLstat (h : Hdr) (sel : BitVec 12) (s : State) : Host.Outcome State Fault Refusal :=
  scalarWord h [] none (some .push) (fun c j s =>
    match lstatValue s j sel.toNat with
    | none => .raise causeIllegal
    | some v => .ok (if sel = 1 then s.modJob c.job fun k => { k with rsvd := 0 } else s) (BitVec.ofNat 64 v) none) s

/-! ### Commands: issue (R160, R169, R177, R178) -/

/-- Whether an LME command waits at issue: behind two others (R160), or for a vector write to its tile to land (R118). -/
def Job.lmeWaits (j : Job) (now : Nat) (o : LmeOp) : Bool :=
  decide (2 ≤ j.lme.length) || match o.tile with | some t => j.board.pendingTile now t | none => false

/-- An LME command word: it waits its turn, makes its checks, and joins the queue (R160). (DEDUCED, log 61.) -/
def lmeWord (h : Hdr) (uses : List Src) (first : Option Src) (check : Cursor → Job → State → List (BitVec 8))
    (op : Cursor → Job → LmeOp) (s : State) : Host.Outcome State Fault Refusal :=
  runWord h.wait h.sig true (scalarBody h true uses first none fun c j s =>
    let o := op c j
    unlessBusy (j.lmeWaits s.tick o) c
      (match firstCause (check c j s) with
      | some e => .raise e
      | none =>
        let j1 := queueCmd c j h .discard j.nextCmd false false s.tick
        let j2 := match o with
          | .lmm _ tl (.feed f) ctl nb _ =>
            j1.setFeed f ((j1.feed f).map fun (q : Feed) => { q with issued := q.issued + nb.toNat * lmLen ctl (j.layout tl).word })
          | _ => j1
        let cmd : LmeCmd := ⟨j.nextCmd, c.pc, o, 0, false, false, 0⟩
        let j3 := { j2 with nextCmd := j.nextCmd + 1, lme := j.lme ++ [cmd] }
        .stop { (s.setJob c.job j3) with cursor := none })) s

/-- Whether every slot of a range is valid, and, where a signedness is asked, recorded with it (R166). -/
def slotsOk (l : Layout) (first n : Nat) (sgn : Option Bool) : Bool :=
  (List.range n).all fun i =>
    match l.slot (first + i), sgn with
    | none, _ => false
    | some _, none => true
    | some u, some v => u == v

/-- The checks of LMM (R169); the record source judges its own span. -/
def lmmCauses (s : State) (j : Job) (t tl : BitVec 2) (ctl : Word) (nb : Nat) (misaligned : Bool)
    (srcBad : Option Nat → Bool) : List (BitVec 8) :=
  let l := j.layout tl
  causeIf (lmCtlBad ctl || s.noTile j t || !(j.tiles.get t.toFin).f32) causeIllegal ++ causeIf misaligned causeMisaligned ++
    causeIf (!j.spanOk (lmAsc ctl) (32 * nb)) causeBound ++
    (if l.set then
      causeIf (srcBad (some (nb * lmLen ctl l.word)) || decide (layS l.word < lmSlot0 ctl + nb * lmGpb ctl l.word)) causeBound ++
        causeIf (!slotsOk l (lmSlot0 ctl) (nb * lmGpb ctl l.word) (some (lmAsgn ctl))) causeTableInvalid
    else causeIf (srcBad none) causeBound ++ [causeTableInvalid])

/-- LMM with records in the scratchpad (R167 to R170). -/
def execLmm (h : Hdr) (t tl : BitVec 2) (kc ka : Src) (nb : BitVec 12) (s : State) : Host.Outcome State Fault Refusal :=
  lmeWord h [kc, ka] (some kc)
    (fun c j s =>
      let a := (c.regs.src ka).toNat
      lmmCauses s j t tl (c.regs.src kc) nb.toNat (a % 8 != 0)
        (fun n => match n with | some k => !j.spanOk a k | none => false))
    (fun c _ => .lmm t tl (.scratch (c.regs.src ka)) (c.regs.src kc) nb 0) s

/-- LMM with records from a feed (R167 to R170, R175). -/
def execLmmFeed (h : Hdr) (t tl cf : BitVec 2) (kc : Src) (nb : BitVec 12) (s : State) :
    Host.Outcome State Fault Refusal :=
  lmeWord h [kc] (some kc)
    (fun c j s =>
      lmmCauses s j t tl (c.regs.src kc) nb.toNat false (fun n =>
        match j.feed cf, n with
        | none, _ => true
        | some _, none => false
        | some f, some k => decide (fdLen f.desc - f.issued < k)))
    (fun c j => .lmm t tl (.feed cf) (c.regs.src kc) nb ((j.feed cf).map (·.issued) |>.getD 0)) s

/-- The checks of a tile command (R162, R177). -/
def tileCauses (s : State) (j : Job) (t : BitVec 2) (a : Option Nat) : List (BitVec 8) :=
  causeIf (s.noTile j t || !(j.tiles.get t.toFin).f32) causeIllegal ++
    (match a with
     | none => []
     | some x => causeIf (x % 64 != 0) causeMisaligned ++ causeIf (!j.spanOk x 8192) causeBound)

/-- LSPILL (R177). -/
def execLspill (h : Hdr) (t : BitVec 2) (ka : Src) (s : State) : Host.Outcome State Fault Refusal :=
  lmeWord h [ka] (some ka) (fun c j s => tileCauses s j t (some (c.regs.src ka).toNat))
    (fun c _ => .spill t (c.regs.src ka)) s

/-- LFILL (R177). -/
def execLfill (h : Hdr) (t : BitVec 2) (ka : Src) (s : State) : Host.Outcome State Fault Refusal :=
  lmeWord h [ka] (some ka) (fun c j s => tileCauses s j t (some (c.regs.src ka).toNat))
    (fun c _ => .fill t (c.regs.src ka)) s

/-- LZERO (R177). -/
def execLzero (h : Hdr) (t : BitVec 2) (s : State) : Host.Outcome State Fault Refusal :=
  lmeWord h [] none (fun _ j s => tileCauses s j t none) (fun _ _ => .zero t) s

/-- The checks of TLOAD and TSAVE (R178). -/
def tableCauses (j : Job) (tl : BitVec 2) (ctl : Word) (a : Nat) (save : Bool) : List (BitVec 8) :=
  let l := j.layout tl
  let n := tcCount ctl
  causeIf (ctl &&& 0xFFFF_FFFE_E000_E000 != 0 || n == 0 || (save && tcSgn ctl)) causeIllegal ++
    causeIf (a % 64 != 0) causeMisaligned ++
    (if l.set then
      causeIf (decide (layS l.word < tcFirst ctl + n) || !j.spanOk a (n * laySlotBytes (j.bookOf l.word).k l.word)) causeBound ++
        causeIf (save && !slotsOk l (tcFirst ctl) n none) causeTableInvalid
    else [causeTableInvalid])

/-- TLOAD (R178). -/
def execTload (h : Hdr) (tl : BitVec 2) (kc ka : Src) (s : State) : Host.Outcome State Fault Refusal :=
  lmeWord h [kc, ka] (some kc) (fun c j _ => tableCauses j tl (c.regs.src kc) (c.regs.src ka).toNat false)
    (fun c _ => .tload tl (c.regs.src kc) (c.regs.src ka)) s

/-- TSAVE (R178). -/
def execTsave (h : Hdr) (tl : BitVec 2) (kc ka : Src) (s : State) : Host.Outcome State Fault Refusal :=
  lmeWord h [kc, ka] (some kc) (fun c j _ => tableCauses j tl (c.regs.src kc) (c.regs.src ka).toNat true)
    (fun c _ => .tsave tl (c.regs.src kc) (c.regs.src ka)) s

/-! ### One K step (R167, R170, R171) -/

/-- What a K step works with: layout word, codebook size, control word, the block's number, its record. -/
structure KStep where
  lay : Word
  k   : Nat
  ctl : Word
  blk : Nat
  bytes : List Byte
  deriving DecidableEq, Repr

/-- The present groups of a column with the code positions they take (R167). -/
def KStep.groups (p : KStep) (col : Nat) : List (Nat × Nat) :=
  let gpb := lmGpb p.ctl p.lay
  if lmSparse p.ctl then
    let m := lmMc p.ctl
    let n := lmNn p.ctl
    (List.range (lmRuns p.ctl p.lay)).flatMap fun r =>
      let bits := leNat ((p.bytes.drop (64 + 8 * m * r)).take (8 * m)) / 2 ^ (m * col)
      let here := (List.range m).filter fun j => decide (m * r + j < gpb) && decide (bits / 2 ^ j % 2 = 1)
      (here.take n).zipIdx.map fun q => (m * r + q.1, n * r + q.2)
  else (List.range gpb).map fun q => (q, q)

/-- Where the code area begins in a record. -/
def KStep.codesAt (p : KStep) : Nat := if lmSparse p.ctl then 64 + 8 * lmMc p.ctl * lmRuns p.ctl p.lay else 64

/-- The code of a column in a code position (R167). -/
def KStep.code (p : KStep) (q col : Nat) : Nat :=
  let w := layW p.lay
  leNat ((p.bytes.drop (p.codesAt + 8 * w * q)).take (8 * w)) / 2 ^ (w * col) % 2 ^ w

/-- Which entry of a slot's row a code looks up, and whether negated; none for a reserved code (R170). -/
def KStep.entryOf (p : KStep) (c : Nat) : Option (Nat × Bool) :=
  let n := layN p.k p.lay
  let off := layOff p.k p.lay
  if n ≤ c then none
  else if !layHalf p.lay then some (c, false)
  else if off ≤ c then some (c - off, false)
  else some (if n % 2 = 1 then off - c else off - 1 - c, true)

/-- The slot of a group of the block. -/
def KStep.slot (p : KStep) (grp : Nat) : Nat := lmSlot0 p.ctl + p.blk * lmGpb p.ctl p.lay + grp

/-- The table-store bytes one lookup reads; none for a reserved code. -/
def KStep.lookupAt (p : KStep) (row grp c : Nat) : Option Nat :=
  (p.entryOf c).map fun e => entryAt p.k p.lay (p.slot grp) row e.1

/-- lookup(slot, row, c) of R170, with the reserved codes it counts. -/
def KStep.lookup (p : KStep) (ts : List Host.Cell) (row grp c : Nat) : Int × Nat :=
  match p.entryOf c with
  | none => (0, 1)
  | some (e, neg) =>
    let wb := layWb p.lay
    let x := intOf true (8 * wb) (leNat (cellGetN ts (entryAt p.k p.lay (p.slot grp) row e) wb))
    (if neg then -x else x, 0)

/-- The integer sum of one element and its reserved codes (R170). -/
def KStep.sum (p : KStep) (ts : List Host.Cell) (row col : Nat) : Int × Nat :=
  (p.groups col).foldl (fun a q =>
    let r := p.lookup ts row q.1 (p.code q.2 col)
    (a.1 + r.1, a.2 + r.2)) (0, 0)

/-- The element after the step, and the exceptions (R170, R171). -/
def stepElement (sa sw : Nat) (sum : Int) (acc : Nat) : Nat × BitVec 5 :=
  let v := decodeFloat fmtF32 acc
  if sa = 0xFF ∨ sw = 0xFF ∨ v.isNan then (fmtF32.nanBits, snanFlag v)
  else
    let (x, fl) := exactAdd .rne v (.fin (decide (sum < 0)) sum.natAbs ((sa : Int) + sw - 254))
    let (b, fr) := roundVal fmtF32 .rne x
    (b, fl ||| fr)

/-- The rows RMASK selects. -/
def activeRows (ctl : Word) : List Nat := (List.range 32).filter fun r => (lmRmask ctl).getLsbD (r / 8)

/-- One row of the step: its new bytes, its reserved codes and exceptions. -/
def KStep.row (p : KStep) (j : Job) (t row : Nat) : VReg × Nat × BitVec 5 :=
  let sa := (cellGet j.sp (lmAsc p.ctl + 32 * p.blk + row)).toNat
  let old := j.v.getD (32 * t + row) 0
  let cols := (List.range 64).map fun col =>
    let q := p.sum j.ts row col
    (stepElement sa (p.bytes.getD col 0).toNat q.1 (lane old 32 col), q.2)
  (packLanes 32 (cols.map fun e => e.1.1), (cols.map fun e => e.2).sum, cols.foldl (fun a e => a ||| e.1.2) 0)

/-- The whole K step on the active rows. -/
def KStep.run (p : KStep) (t : Nat) (j : Job) : Job × Nat × BitVec 5 :=
  (activeRows p.ctl).foldl (fun a row =>
    let r := p.row j t row
    ({ a.1 with v := a.1.v.setIfInBounds (32 * t + row) r.1 }, a.2.1 + r.2.1, a.2.2 ||| r.2.2)) (j, 0, 0)

/-- The first uncorrectable unit of the table store that a span touches (R416). -/
def Job.tsUe (j : Job) (a n : Nat) : Option (Nat × Nat) :=
  (j.tsBad.find? fun u => decide (8 * u < a + n) && decide (a < 8 * u + 8)).map fun u => (5, 8 * u)

/-- The uncorrectable unit a step consumes, if it does: of its record in the scratchpad, an active row's scale or tile row,
or a table entry it looks up (R181, R248, R256, R416). (DEDUCED, log 64.) -/
def KStep.ueAt (p : KStep) (j : Job) (t : Nat) (recAt : Option Nat) : Option (Nat × Nat) :=
  ((recAt.bind fun a => j.spUe none a p.bytes.length).or
    ((activeRows p.ctl).findSome? fun row => j.spUe none (lmAsc p.ctl + 32 * p.blk + row) 1)).or
    (((activeRows p.ctl).findSome? fun row => if j.tileBad.any (fun q => decide (q.1 = 32 * t + row)) then some (4, 0) else none).or
      (if j.tsBad.isEmpty then none
      else (activeRows p.ctl).findSome? fun row => (List.range 64).findSome? fun col => (p.groups col).findSome? fun q =>
        (p.lookupAt row q.1 (p.code q.2 col)).bind fun a => j.tsUe a (layWb p.lay)))

/-! ### The engine's steps -/

/-- The command at the head of the LME queue. -/
def Job.lmeHead (j : Job) : Option LmeCmd := j.lme.head?

/-- The head replaced. -/
def Job.setLmeHead (j : Job) (c : LmeCmd) : Job := { j with lme := c :: j.lme.tail }

/-- Whether the sub-arrays a mask selects are awake (R179). -/
def Core.awake (k : Core) (mask : BitVec 4) : Bool := (List.finRange 4).all fun i => !mask.getLsbD i.val || (k.subs.get i).awake

/-- LME_COMMAND_START: the head starts once the sub-arrays it needs are awake, and starts waking those that are gated
(R160, R179). -/
def execLmeCommandStart (n : Nat) (s : State) : Host.Outcome State Fault Refusal :=
  .next (match s.jobs[n]? with
    | none => s
    | some j =>
      match j.lmeHead with
      | none => s
      | some c =>
        if !j.enginesMove || c.started || c.stopped then s
        else
          if (s.core j.core).awake c.op.subs then
            s.setJob n (j.setLmeHead { c with started := true })
          else s.modCore j.core (wakeSubs s.tick c.op.subs))

/-- What the next K step of a started LMM meets: it must wait for feed bytes; it meets feed bytes that could not be read
(`skip` whole bytes before the first); it consumes uncorrectable data; or it is ready with its data. -/
inductive KNext where
  | none
  | wait
  | feedBad (f : BitVec 2) (skip : Nat) (cause : BitVec 8)
  | ue (at' : Nat × Nat)
  | ready (p : KStep) (t : Nat)
  deriving DecidableEq, Repr

/-- Judges the next K step of the head of the queue. -/
def Job.nextStep (j : Job) : KNext :=
  match j.lmeHead with
  | none => .none
  | some c =>
    match c.op with
    | .lmm t tl src ctl nb _ =>
      let lay := (j.layout tl).word
      let len := lmLen ctl lay
      if !c.started || c.stopped || c.steps == nb.toNat then .none
      else
        match src with
        | .scratch a =>
          let at' := a.toNat + c.steps * len
          let p : KStep := ⟨lay, (j.bookOf lay).k, ctl, c.steps, cellGetN j.sp at' len⟩
          match p.ueAt j t.toNat (some at') with
          | some u => .ue u
          | none => .ready p t.toNat
        | .feed f =>
          match j.feed f with
          | none => .none
          | some q =>
            let part := q.buf.take len
            let good := part.takeWhile fun b => b.2 == 0
            match part.drop good.length with
            | b :: _ => .feedBad f good.length b.2
            | [] =>
              if part.length < len then .wait
              else
                let p : KStep := ⟨lay, (j.bookOf lay).k, ctl, c.steps, part.map Prod.fst⟩
                match p.ueAt j t.toNat none with
                | some u => .ue u
                | none => .ready p t.toNat
    | _ => .none

/-- Where the feed byte lies that a K step could not read, as unit and address of R416. -/
def State.feedPlace (s : State) (n : Nat) (j : Job) (pc : Word) (f : BitVec 2) (skip : Nat) : Option (Nat × Nat) :=
  (j.feed f).bind fun q =>
    match s.translate (whoOf n j .m none pc) (fdAddr q.desc (q.consumed + skip)) .read with
    | .ok s1 p => if pteHost p.leaf then (s1.portUe (s1.hport j.mem.part) p.pa).ueAt else (s1.meetsUe p.pa).ueAt
    | _ => none

/-- LMM_K_STEP_DONE (R163, R170, R175): one K step over all active rows. A command that goes on after a freeze or on another
core first wakes the sub-arrays it needs (R179, R364). Where feed bytes it needs met a translation failure, in a job not in a
timed launch, the job is suspended and the read is made again after service (R176). -/
def execLmmKStepDone (n : Nat) (s : State) : Host.Outcome State Fault Refusal :=
  .next (match s.jobs[n]? with
    | none => s
    | some j =>
      if !j.enginesMove || !s.gateOpen j.core then s
      else
        match j.lmeHead, j.nextStep with
        | some c, .ready p t =>
          if !(s.core j.core).awake c.op.subs then s.modCore j.core (wakeSubs s.tick c.op.subs)
          else
            let (j1, rs, fl) := p.run t j
            let j2 := { (j1.setLmeHead { c with steps := c.steps + 1, flags := c.flags ||| fl }) with
              rsvd := j1.rsvd + BitVec.ofNat 64 rs }
            s.setJob n (match c.op.feed with
              | some f => j2.setFeed f ((j2.feed f).map fun q =>
                  { q with consumed := q.consumed + p.bytes.length, buf := q.buf.drop p.bytes.length })
              | none => j2)
        | some c, .feedBad f skip cause =>
          if cause = causeTranslation ∧ !j.timed ∧ j.susp.isNone then
            match j.feed f with
            | none => s
            | some q =>
              let s1 := s.setJob n (j.setFeed f (some { q with buf := q.buf.take skip }))
              let va := fdAddr q.desc (q.consumed + skip)
              match s1.translate (whoOf n j .m none c.pc) va .read with
              | .susp s2 v k l => (s1.keepWalks (whoOf n j .m none c.pc) s2).suspendJob n ⟨v, k, l, j.core, .m, c.pc, none, false⟩
              | _ => s1
          else s
        | _, _ => s)

/-- Bytes of a tile row. -/
def rowBytes (v : VReg) : List Byte := leBytes 256 v.toNat

/-- The uncorrectable unit a whole command consumes, if it does (R177, R178, R181, R416). -/
def Job.wholeUe (j : Job) : LmeOp → Option (Nat × Nat)
  | .spill t _ => if j.tileBad.any fun p => decide (tileOf p.1 = t.toNat) then some (4, 0) else none
  | .fill _ a => j.spUe none a.toNat 8192
  | .tload tl ctl a => j.spUe none a.toNat (tcCount ctl * laySlotBytes (j.bookOf (j.layout tl).word).k (j.layout tl).word)
  | .tsave tl ctl _ =>
    let w := (j.layout tl).word
    let b := laySlotBytes (j.bookOf w).k w
    j.tsUe (layBase w + tcFirst ctl * b) (tcCount ctl * b)
  | .lmm _ _ _ _ _ _ => none
  | .zero _ => none

/-- A tile's rows replaced, sound again (R248). -/
def Job.putTile (j : Job) (t : Nat) (f : Nat → VReg) : Job :=
  { j with
    v := (List.range 32).foldl (fun v r => v.setIfInBounds (32 * t + r) (f r)) j.v
    tileBad := j.tileBad.filter fun p => tileOf p.1 ≠ t }

/-- The whole effect of a command other than LMM, and its completion count (R160, R177, R178). (DESIGN CHOICE, log 41.) -/
def Job.runWhole (j : Job) (c : LmeCmd) : Job × Nat :=
  match c.op with
  | .lmm _ _ _ _ _ _ => (j, c.steps)
  | .spill t a =>
    (j.spPut a.toNat ((List.range 32).flatMap fun r => rowBytes (j.v.getD (32 * t.toNat + r) 0)), 32)
  | .fill t a => (j.putTile t.toNat fun r => BitVec.ofNat 2048 (leNat (cellGetN j.sp (a.toNat + 256 * r) 256)), 32)
  | .zero t => (j.putTile t.toNat fun _ => 0, 32)
  | .tload tl ctl a =>
    let l := j.layout tl
    let b := laySlotBytes (j.bookOf l.word).k l.word
    let n := tcCount ctl
    let j1 := j.tsPut (layBase l.word + tcFirst ctl * b) (cellGetN j.sp a.toNat (n * b))
    (j1.setLayout tl { l with slots := (List.range n).foldl (fun q i => slotPut (tcFirst ctl + i) (tcSgn ctl) q) l.slots }, n)
  | .tsave tl ctl a =>
    let w := (j.layout tl).word
    let b := laySlotBytes (j.bookOf w).k w
    (j.spPut a.toNat (cellGetN j.ts (layBase w + tcFirst ctl * b) (tcCount ctl * b)), tcCount ctl)

/-- Whether the head's work is over, so that it may complete. -/
def Job.lmeOver (j : Job) (c : LmeCmd) : Bool :=
  c.started && !c.stopped &&
    match c.op with
    | .lmm _ _ _ _ nb _ => j.enginesMove && c.steps == nb.toNat
    | _ => (j.enginesMove || j.drains) && (j.wholeUe c.op).isNone

/-- LME_COMMAND_COMPLETE (R160, R170, R177, R178): the command's effect where it has one unit, its exceptions into M's
FPFLG, its count, and the retires that waited for it. -/
def execLmeCommandComplete (n : Nat) (s : State) : Host.Outcome State Fault Refusal :=
  .next (match s.jobs[n]? with
    | none => s
    | some j =>
      match j.lmeHead with
      | none => s
      | some c =>
        if !j.lmeOver c then s
        else
          let (j1, count) := j.runWhole c
          let j2 := { j1 with lme := j1.lme.tail, m := (setEntryValue j1.m c.id (BitVec.ofNat 64 count)).orFlags c.flags }
          ((s.setJob n j2).modCore j.core (restIdle c.op.subs)).settle n)

/-- LME_ASYNC_FAULT (R181): the command stops at its last completed unit and raises the cause. (DEDUCED, log 62.) -/
def execLmeAsyncFault (n : Nat) (s : State) : Host.Outcome State Fault Refusal :=
  .next (match s.jobs[n]? with
    | none => s
    | some j =>
      match j.lmeHead with
      | none => s
      | some c =>
        let met : Option (BitVec 8 × Option (Nat × Nat)) :=
          if !c.started || c.stopped then none
          else
            match c.op with
            | .lmm _ _ _ _ _ _ =>
              if !j.enginesMove then none
              else
                match j.nextStep with
                | .ue u => some (causeMemUe, some u)
                | .feedBad f skip e =>
                  if e = causeTranslation ∧ !j.timed then none else some (e, s.feedPlace n j c.pc f skip)
                | _ => none
            | o => if j.enginesMove || j.drains then (j.wholeUe o).map fun u => (causeMemUe, some u) else none
        match met with
        | none => s
        | some (cause, at') =>
          let s1 := (s.setJob n (j.setLmeHead { c with stopped := true })).modCore j.core (restIdle c.op.subs)
          { s1 with ueAt := at' }.asyncTrap n .m ⟨cause, c.pc, 0, asyncInfo c.steps⟩)

/-! ### Sub-arrays and feeds -/

/-- The jobs that run on a core now. -/
def State.coreJobs (s : State) (k : Nat) : List Job :=
  ((s.core k).urgent.toList ++ (s.core k).normal.toList).filterMap fun n =>
    (s.jobs[n]?).filter fun j => j.phase == .running && !j.victim

/-- Whether a command that needs sub-array `i` of a core, which is awake, runs (R258). -/
def State.subBusy (s : State) (k i : Nat) : Bool :=
  (s.coreJobs k).any fun j =>
    match j.lmeHead with
    | some c => c.started && !c.stopped && c.op.subs.getLsbD i
    | none => false

/-- Whether a sub-array is gated from cycle `now` on: awake, idle for LGATE cycles of the job then running, where that has not changed
in cycle `now` itself, and no timed job there (R179, R258). -/
def State.gateDue (s : State) (now k i : Nat) (q : SubArray) : Bool :=
  q.awake && !s.subBusy k i && decide ((s.core k).lgateAt < now) &&
    match s.coreJobs k with
    | [] => false
    | js => js.all fun j => !j.timed && decide (j.m.lgate.toNat ≤ q.idle)

/-- Gates a sub-array where that is due by cycle `now`. -/
def State.gateSub (s : State) (now core : Nat) (sub : BitVec 2) : State :=
  s.modCore core fun k =>
    let q := k.subs.get sub.toFin
    if s.gateDue now core sub.toNat q then { k with subs := k.subs.set sub.toNat { q with awake := false } sub.isLt } else k

/-- SUBARRAY_GATE (R258). -/
def execSubarrayGate (core : Nat) (sub : BitVec 2) (s : State) : Host.Outcome State Fault Refusal := .next (s.gateSub s.tick core sub)

/-- SUBARRAY_WAKE_DONE (R179, R258): awake, with a new idle count. -/
def execSubarrayWakeDone (core : Nat) (sub : BitVec 2) (s : State) : Host.Outcome State Fault Refusal :=
  .next (s.modCore core fun k =>
    let q := k.subs.get sub.toFin
    match q.wakeAt with
    | some t => if t ≤ s.tick then { k with subs := k.subs.set sub.toNat ⟨true, none, 0⟩ sub.isLt } else k
    | none => k)

/-- Bytes of a code buffer (R175). -/
def codeBuffer : Nat := 32768

/-- Whether the job is suspended on a feed byte of its running LMM: the feed waits for the service (R176, R376). -/
def Job.feedHeld (j : Job) : Bool :=
  match j.susp, j.lmeHead with
  | some f, some c => f.stream == .m && f.tpc == c.pc
  | _, _ => false

/-- FEED_FETCH (R175, R176): reads the next aligned 8-byte unit of the stream into the code buffer; a unit that cannot be
read is kept with its cause. (DEDUCED, log 65.) -/
def execFeedFetch (n : Nat) (cf : BitVec 2) (s : State) : Host.Outcome State Fault Refusal :=
  .next (match s.jobs[n]? with
    | none => s
    | some j =>
      match j.feed cf with
      | none => s
      | some q =>
        let at' := q.consumed + q.buf.length
        if !j.enginesMove || j.feedHeld || decide (fdLen q.desc ≤ at') || decide (codeBuffer < q.buf.length + 8) then s
        else
          let put (s1 : State) (l : List (Byte × BitVec 8)) : State :=
            s1.modJob n fun k => k.setFeed cf (some { q with buf := q.buf ++ l })
          let w := whoOf n j .m none 0
          match s.agentRead w (fdAddr q.desc at') 8 false false with
          | .ok s1 b => put s1 (b.map fun x => (x, 0))
          | .fault s1 e => put (s.keepWalks w s1) (List.replicate 8 (0, e))
          | .susp s1 _ _ _ => put (s.keepWalks w s1) (List.replicate 8 (0, causeTranslation))
          | .hold s1 r _ => let t := s.keepWalks w s1; { t with cxl := t.cxl ++ r.toList })

end Sys2Proof.Machine
end

