-- ==== Sys2Proof/Machine/Launch.lean ====
section
/-! DEFINITION. Launch records, their checks and their consumption; readiness and admission; the walker; placing a team
and starting its jobs; completion records (R330 to R350). -/

namespace Sys2Proof.Machine

/-! ### The fields of a launch record (R331) -/

/-- Bits [hi:lo] of a launch record. -/
def lrBits (r : BitVec 2048) (hi lo : Nat) : Nat := bitsOf r.toNat hi lo

def lrSeqptr (r : BitVec 2048) : Word := r.extractLsb' 1600 64
def lrUsertag (r : BitVec 2048) : Word := r.extractLsb' 1536 64
def lrPred (r : BitVec 2048) (n : Nat) : Word := r.extractLsb' (1152 + 64 * n) 64
def lrOutlet (r : BitVec 2048) : Word := r.extractLsb' 1088 64
def lrCtx (r : BitVec 2048) : BitVec 16 := r.extractLsb' 1040 16
def lrArglen (r : BitVec 2048) : Nat := lrBits r 1039 1024
def lrArgs (r : BitVec 2048) : Word := r.extractLsb' 960 64
def lrExtent (r : BitVec 2048) (n : Nat) : Nat := (r.extractLsb' (768 + 32 * n) 32).toNat
def lrHnd (r : BitVec 2048) (n : Nat) : Nat := (r.extractLsb' (608 + 32 * n) 32).toNat
def lrEntry (r : BitVec 2048) (n : Nat) : Nat := (r.extractLsb' (448 + 32 * n) 32).toNat
def lrCode (r : BitVec 2048) : Word := r.extractLsb' 384 64
def lrRring (r : BitVec 2048) : Nat := lrBits r 327 312
def lrRmem (r : BitVec 2048) : Nat := lrBits r 311 296
def lrRcores (r : BitVec 2048) : Nat := lrBits r 294 288
def lrRdur (r : BitVec 2048) : Nat := lrBits r 287 256
def lrDeadline (r : BitVec 2048) : Nat := lrBits r 255 192
def lrTiles (r : BitVec 2048) : BitVec 4 := r.extractLsb' 171 4
def lrTsreq (r : BitVec 2048) : Nat := lrBits r 170 150
def lrSpreq (r : BitVec 2048) : Nat := lrBits r 149 128
def lrCanon (r : BitVec 2048) : Nat := lrBits r 118 112
def lrProof (r : BitVec 2048) : Nat := lrBits r 106 104
def lrTeam (r : BitVec 2048) : Nat := lrBits r 102 96
def lrPredok (r : BitVec 2048) : Bool := r.getLsbD 79
def lrRerun (r : BitVec 2048) : Nat := lrBits r 78 76
def lrIrq (r : BitVec 2048) : Bool := r.getLsbD 75
def lrOrder (r : BitVec 2048) : Nat := lrBits r 74 73
def lrBank (r : BitVec 2048) : Bool := r.getLsbD 71
def lrPersist (r : BitVec 2048) : Bool := r.getLsbD 70
def lrDet (r : BitVec 2048) : Bool := r.getLsbD 69
def lrPrio (r : BitVec 2048) : Nat := lrBits r 68 66
def lrClass (r : BitVec 2048) : Nat := lrBits r 65 64

/-- J, the jobs of a launch: the product of its extents (R332). -/
def lrJobs (r : BitVec 2048) : Nat := lrExtent r 0 * lrExtent r 1 * lrExtent r 2 * lrExtent r 3

/-- The cores one team needs (R346). -/
def lrTeamCores (r : BitVec 2048) : Nat := lrTeam r * (1 + lrProof r)

/-- The reserved fields of a record, by their bits (R331). -/
def lrReserved (r : BitVec 2048) : Bool :=
  [(2047, 1664), (1087, 1056), (959, 904), (383, 328), (295, 295), (191, 175), (127, 119), (111, 107), (103, 103),
    (95, 90), (63, 48)].any fun p => lrBits r p.1 p.2 != 0

/-! ### The checks of a consumed record (R332) -/

/-- The sum over a partition's stops of the jobs of 1 + PROOF cores a stop's cores have room for (R332, R339). -/
def groupsIn (stops : List Nat) (k : Nat) (cores : List Nat) : Nat :=
  (stops.map fun t => (cores.filter fun c => stopOf c == t).length / k).sum

/-- Whether the epoch of a number precedes the current one (R335). -/
def precedes (e1 e2 : BitVec 16) : Bool := decide (1 ≤ (e2 - e1).toNat) && decide ((e2 - e1).toNat ≤ 32767)

/-- The epoch of a sequence number. -/
def seqEpoch (q : Word) : BitVec 16 := q.extractLsb' 48 16

/-- Whether a predecessor number fails check 12 (R332). -/
def predBad (p : Part) (own pred : Word) : Bool :=
  pred != 0 &&
    (if seqEpoch pred = p.epoch then decide ((own.extractLsb' 0 48).toNat ≤ (pred.extractLsb' 0 48).toNat)
     else !precedes (seqEpoch pred) p.epoch)

/-- Whether an entry or a handler offset is bad (R332). -/
def entryBad (e : Nat) : Bool := e != 0xFFFF_FFFF && e % 8 != 0

/-- Whether OUTLET fails its part of check 13 (R332). -/
def outletBad (r : BitVec 2048) : Bool := (lrOutlet r).toNat % 256 != 0 || (lrOutlet r).extractLsb' 56 8 != 0

/-- Check `n` of R332 fails. (DESIGN CHOICE, log 110.) -/
def State.checkFails (s : State) (p : Part) (r : BitVec 2048) (own : Word) (poster : Option (BitVec 16)) (n : Nat) :
    Bool :=
  let cores := s.partCores p
  let urgentJob := lrClass r == 2
  match n with
  | 1 => lrBits r 31 0 != 0x4F56_4C52 || lrBits r 47 32 != 1
  | 2 => lrReserved r || lrClass r == 3 || lrOrder r == 3 || decide (3 ≤ lrRerun r)
  | 3 => decide (2 ^ 48 < lrJobs r) || (List.range 4).any fun i => lrExtent r i == 0
  | 4 =>
    lrTeam r == 0 || decide (96 < lrTeam r) || lrJobs r % lrTeam r != 0 || decide (cores.length < lrTeamCores r) ||
      (lrProof r != 0 && decide (groupsIn p.stops (1 + lrProof r) cores < lrTeam r))
  | 5 => lrPersist r && ((List.range 3).any (fun i => lrExtent r (i + 1) != 1) || lrOrder r != 0)
  | 6 =>
    lrSpreq r % 4096 != 0 || lrTsreq r % 4096 != 0 || decide (spLimit p.urgent urgentJob (lrBank r) < lrSpreq r) ||
      decide (tsLimit p.urgent urgentJob < lrTsreq r)
  | 7 => if urgentJob then lrTiles r &&& 0x7 != 0 else p.urgent && (lrTiles r).getLsbD 3
  | 8 =>
    (lrCode r).toNat % 2 ^ 16 != 0 || (lrCode r).extractLsb' 60 4 != 0 ||
      (List.range 5).any (fun i => entryBad (lrEntry r i)) ||
      (List.range 5).all (fun i => lrEntry r i == 0xFFFF_FFFF) || (List.range 5).any fun i => lrHnd r i % 8 != 0
  | 9 => (lrDet r && lrCanon r == 0) || decide (96 < lrCanon r)
  | 10 =>
    if lrClass r = 1 then lrRdur r == 0 || lrRcores r == 0
    else lrDeadline r != 0 || lrRdur r != 0 || lrRcores r != 0 || lrRmem r != 0 || lrRring r != 0
  | 11 => urgentJob && !p.urgent
  | 12 => (List.range 4).any fun i => predBad p own (lrPred r i)
  | 13 =>
    (lrArgs r).toNat % 8 != 0 || (lrArgs r).extractLsb' 56 8 != 0 || (lrSeqptr r).toNat % 8 != 0 ||
      (lrSeqptr r).extractLsb' 56 8 != 0 || outletBad r || lrArglen r % 8 != 0
  | 14 =>
    match poster with
    | some c => c != lrCtx r
    | none => false
  | _ => false

/-- The first check that fails (R332). -/
def State.malformed (s : State) (p : Part) (r : BitVec 2048) (own : Word) (poster : Option (BitVec 16)) : Option Nat :=
  (List.range 14).findSome? fun i => if s.checkFails p r own poster (i + 1) then some (i + 1) else none

/-! ### The Launch Unit as an agent (R342) -/

/-- The Launch Unit's accesses under a context: no TLB and no L1 serve them. -/
def luWho (part : Nat) (ctx : BitVec 16) (seq : Word) : Who where
  job := 2 ^ 32
  stream := .c
  slot := none
  core := 96
  part := part
  ctx := ctx
  seq := seq
  timed := false
  urgent := false
  team := 0
  tpc := 0
  engine := false
  since := some 0
  parts := []

/-- What an access of the Launch Unit comes to: done; failed with a cause, and for MEM_UE with the place (R416); or waiting for a
host. -/
inductive LuRes (α : Type) where
  | ok (s : State) (x : α)
  | fail (cause : BitVec 8) (at' : Option (Nat × Nat))
  | wait (s : State)

/-- An access of the Launch Unit: it is never serviced (R342). Where it has to wait, nothing that the Launch Unit has done since state
`s` stands but the request, so that answers already there are taken up again. -/
def luRes {α : Type} (s : State) (r : MRes α) : LuRes α :=
  match r with
  | .ok s1 x => .ok s1 x
  | .fault s1 c => .fail c s1.ueAt
  | .susp _ _ _ _ => .fail causeTranslation none
  | .hold _ q _ => .wait { s with cxl := s.cxl ++ q.toList }

/-- An access that could not be made for a completion record or a sequence number (R342). -/
def State.logUnwritten (s : State) (seq : Word) (ctx : BitVec 16) (detail : Word) (cause : BitVec 8) : State :=
  s.logError { ErrRec.blank with kind := 0xF, unit := 0xC, seq := seq, ctx := ctx, cause := cause, detail := detail }

/-! ### Consumption (R335, R336, R344) -/

/-- Whether an Outlet's or Inlet's SIZE is a power of two from 16 to 65,536 (R336, R341). -/
def ringSizeOk (n : Nat) : Bool := (List.range 13).any fun i => n == 2 ^ (i + 4)

/-- Whether the slot at an Inlet's HEAD holds a published record that the Launch Unit can read now: no host holds a line of it
exclusively (R336, R390). (DEDUCED, log 72.) -/
def State.inletHolds (s : State) (part : Nat) (i : BitVec 2) : Bool :=
  let base := s.inletBase part i
  let at' := inletSlot base (s.inletSize base) (s.inletHead base)
  base != 0 && ringSizeOk (s.inletSize base) && !s.unreadable base 64 && !s.unreadable at' 256 &&
    !s.hostHolds base 64 && !s.hostHolds at' 256 && leNat (s.readPhys at' 8) != 0

/-- A launch as a record is consumed. -/
def Launch.fresh (seq : Word) (i : BitVec 2) (r : BitVec 2048) : Launch where
  seq := seq
  inlet := i
  record := r
  phase := .waiting
  status := 0
  cause := 0
  job := BitVec.allOnes 32
  stream := 0
  tpc := 0
  tinfo := 0
  args := Vector.replicate 8 0
  teams := []
  queue := []
  nextTeam := 0
  total := lrJobs r / lrTeam r
  seqDue := false
  coreSet := none
  cores := []
  admitted := none
  voided := false
  late := false
  reruns := 0
  start := 0
  finish := 0

/-- A launch that ends before any job of it runs: its record is still to be written. -/
def Launch.close (l : Launch) (status cause : BitVec 8) : Launch :=
  { l with phase := .draining, status := status, cause := cause, job := BitVec.allOnes 32 }

/-- The number a LAUNCH receives reaches its word (R215, R336). -/
def Job.launched (id : Nat) (seq : Word) (j : Job) : Job :=
  { j with
    waits := j.waits.filter (· ≠ id)
    c := setEntryValue j.c id seq
    loop := j.loop.map fun lp => { lp with slots := lp.slots.map fun sl => { sl with regs := setEntryValue sl.regs id seq } } }

/-- Writes the number of an accepted launch to its SEQPTR (R335, R342); a write that must first be answered by a host is made
again later, and the launch waits for it. -/
def State.writeSeq (s : State) (part : Nat) (l : Launch) : State :=
  match luRes s (s.memWrite (luWho part (lrCtx l.record) l.seq) (lrSeqptr l.record) (leBytes 8 l.seq.toNat) true) with
  | .ok t _ => t.modLaunch part l.seq fun q => { q with seqDue := false }
  | .fail _ _ =>
    (s.logUnwritten l.seq (lrCtx l.record) (lrSeqptr l.record) 0).modLaunch part l.seq fun q => { q with seqDue := false }
  | .wait t => t.modLaunch part l.seq fun q => { q with seqDue := true }

/-- INLET_CONSUME (R335, R336, R344, R357): the record at the HEAD of the first Inlet that holds one is numbered and checked;
SEQPTR of an accepted one is written; a LAUNCH that posted it goes on. -/
def execInletConsume (part : Nat) (i : BitVec 2) (s : State) : Host.Outcome State Fault Refusal :=
  .next (match s.parts[part]? with
    | none => s
    | some p =>
      if p.resetting || decide (s.tick < p.consumeAt) || !s.inletHolds part i ||
          (List.range i.toNat).any (fun k => s.inletHolds part (BitVec.ofNat 2 k)) then s
      else
        let base := s.inletBase part i
        let n := s.inletHead base
        let at' := inletSlot base (s.inletSize base) n
        let r : BitVec 2048 := BitVec.ofNat 2048 (leNat (s.readPhys at' 256))
        let count := p.count + 1
        let seq : Word := p.epoch ++ BitVec.ofNat 48 count
        let poster := p.posted.find? fun q => q.inlet == i && q.n == n
        let bad := s.malformed p r seq (poster.map (·.ctx))
        let l := match bad with
          | some k => (Launch.fresh seq i r).close 3 (BitVec.ofNat 8 k)
          | none => Launch.fresh seq i r
        let s1 := (s.writePhys at' (leBytes 8 0)).writePhys (base + 8) (leBytes 8 (n + 1))
        let s2 := s1.modPart part fun q =>
          { q with
            count := q.count + 1, consumeAt := s.tick + 16, launches := q.launches ++ [l]
            posted := q.posted.filter fun z => !(z.inlet == i && z.n == n) }
        let s3 := if bad.isSome || lrSeqptr r == 0 then s2 else s2.writeSeq part l
        match poster with
        | none => s3
        | some q => (s3.modJob q.job (Job.launched q.cmd seq)).settle q.job)

/-! ### Readiness and admission (R337, R344, R346) -/

/-- Whether a predecessor has completed (R337). -/
def Part.predDone (p : Part) (q : Word) : Bool :=
  q == 0 || seqEpoch q != p.epoch || p.launches.any fun l => l.seq == q && l.phase == .complete

/-- Whether a predecessor has completed with a status other than OK (R337): one of a preceding epoch only counts as completed. (DEDUCED, log 73.) -/
def Part.predFailed (p : Part) (q : Word) : Bool :=
  q != 0 && seqEpoch q == p.epoch && p.launches.any fun l => l.seq == q && l.phase == .complete && l.status != 0

/-- The cores admitted timed launches hold (R347). -/
def Part.reserved (p : Part) : List Nat :=
  p.launches.flatMap fun l => if l.admitted.isSome && l.phase != .complete then l.cores else []

/-- Whether a core holds nothing. -/
def Core.empty (k : Core) : Bool := k.normal.isNone && k.urgent.isNone && k.helper.isNone

/-- Cuts a list into pieces of `k`; fuel bounds them. -/
def pieces (k : Nat) : Nat → List Nat → List (List Nat)
  | 0, _ => []
  | f + 1, l => if l.length < k ∨ k = 0 then [] else l.take k :: pieces k f (l.drop k)

/-- The groups of 1 + PROOF cores of one stop that the eligible cores give, free cores first in each stop. -/
def State.coreGroups (s : State) (stops : List Nat) (k : Nat) (cores : List Nat) : List (List Nat) :=
  stops.flatMap fun t =>
    let mine := cores.filter fun c => stopOf c == t
    pieces k 96 ((mine.filter fun c => (s.core c).empty) ++ mine.filter fun c => !(s.core c).empty)

/-- Whether an urgent job holds a core, as its own or as a helper. -/
def State.heldUrgent (s : State) (c : Nat) : Bool :=
  (s.core c).urgent.isSome || match (s.core c).helper.bind fun n => s.jobs[n]? with | some j => j.urgent | none => false

/-- The cores chosen for a reservation of RCORES cores (R346): groups with more free cores before the others; none where there
are too few. -/
def State.reserveCores (s : State) (p : Part) (r : BitVec 2048) : Option (List Nat) :=
  let ok := (s.partCores p).filter fun c => !(p.reserved.contains c) && !s.heldUrgent c && !(s.core c).failing
  let k := 1 + lrProof r
  let g := s.coreGroups p.stops k ok
  let free (l : List Nat) : Nat := (l.filter fun c => (s.core c).empty).length
  let picked := ((List.range (k + 1)).reverse.flatMap fun f => g.filter fun l => free l == f).take (lrRcores r / k)
  if picked.length = lrRcores r / k then some picked.flatten else none

/-- Waves of teams of a timed launch (R346). -/
def lrWaves (r : BitVec 2048) : Nat :=
  let teams := lrJobs r / lrTeam r
  let per := lrRcores r / lrTeamCores r
  (teams + per - 1) / per

/-- Tclear of the cores chosen (R346). -/
def State.clearTime (s : State) (cores : List Nat) : Nat :=
  if cores.all fun c => (s.core c).empty then 0 else Config.tClear

/-- The checks of R346 but for the cores: memory, ring and deadline, for the cores chosen. -/
def State.fits (s : State) (p : Part) (r : BitVec 2048) (cores : List Nat) : Bool :=
  let held := p.launches.filter fun l => l.admitted.isSome && l.phase != .complete
  let clear := s.clearTime cores
  decide (lrRmem r + (held.map fun l => lrRmem l.record).sum ≤ 120 * p.stops.length) &&
    decide (lrRring r + (held.map fun l => lrRring l.record).sum ≤ 3297 * p.stops.length) &&
    decide (s.tick + clear + lrWaves r * (lrRdur r + 4096) ≤ lrDeadline r) && (!lrPersist r || lrWaves r == 1)

/-- The judgement of a timed launch (R346, R437): the cores it holds from now on, or none where it is rejected. -/
def State.admission (s : State) (p : Part) (r : BitVec 2048) : Option (List Nat) :=
  if s.therm.extractLsb' 0 2 == 2 || lrRcores r % lrTeamCores r != 0 then none
  else (s.reserveCores p r).filter fun c => s.fits p r c

/-- A swap of a team is decided (R224, R351): each of its jobs may go at its YIELD, or goes at the end of the window. (DEDUCED, log 79.) -/
def State.decideSwap (s : State) (jobs : List Nat) : State :=
  jobs.foldl (fun t n => t.modJob n fun j =>
    if (j.phase == .running || j.phase == .loading) && j.swapAt.isNone && !j.draining then
      { j with swapAt := some (s.tick + Config.swapWindow), swapBy := s.tick + Config.tClear }
    else j) s

/-- The job a core holds in its normal place, or serves as a helper. -/
def Core.holder (k : Core) : Option Nat := k.normal.or k.helper

/-- Clears the cores of a reservation: the best-effort teams on them are to be swapped out (R346). -/
def State.clearCores (s : State) (cores : List Nat) : State :=
  cores.foldl (fun t c =>
    match (s.core c).holder with
    | none => t
    | some n =>
      match s.jobs[n]? with
      | none => t
      | some j => t.decideSwap (s.teamJobs n j)) s

/-- LAUNCH_READY (R335, R337, R344, R346, R357): a launch whose number has been written and whose predecessors have completed is
ready; one that was to be cancelled is; a timed one is admitted or rejected now. -/
def execLaunchReady (part : Nat) (seq : Word) (s : State) : Host.Outcome State Fault Refusal :=
  .next (match s.parts[part]?, s.launch? part seq with
    | some p, some l =>
      if p.resetting || l.phase != .waiting then s
      else if l.seqDue then s.writeSeq part l
      else if lrPredok l.record && (List.range 4).any (fun i => p.predFailed (lrPred l.record i)) then
        s.modLaunch part seq fun q => q.close 4 0
      else if !((List.range 4).all fun i => p.predDone (lrPred l.record i)) then s
      else if lrClass l.record != 1 then s.modLaunch part seq fun q => { q with phase := .ready }
      else
        match s.admission p l.record with
        | none => s.modLaunch part seq fun q => q.close 2 0
        | some cores =>
          (s.modLaunch part seq fun q =>
            { q with phase := .ready, admitted := some (s.tick + s.clearTime cores), cores := cores }).clearCores cores
    | _, _ => s)

/-! ### The walker (R338) -/

/-- The even bits of a number of 64 bits, gathered. -/
def evenBits (z : Nat) : Nat := ((List.range 32).map fun i => z / 2 ^ (2 * i) % 2 * 2 ^ i).sum

/-- The `m`-th pair (i0, i1) of the blocked Z-order, from block number `z` on. Fuel bounds the blocks. -/
def zWalk (x0 x1 e0 e1 : Nat) : Nat → Nat → Nat → Nat × Nat
  | 0, _, _ => (0, 0)
  | f + 1, z, m =>
    let b0 := evenBits z
    let b1 := evenBits (z / 2)
    if x0 ≤ b0 * e0 ∨ x1 ≤ b1 * e1 then zWalk x0 x1 e0 e1 f (z + 1) m
    else
      let w0 := min x0 (b0 * e0 + e0) - b0 * e0
      let w1 := min x1 (b1 * e1 + e1) - b1 * e1
      if m < w0 * w1 then (b0 * e0 + m % w0, b1 * e1 + m / w0) else zWalk x0 x1 e0 e1 f (z + 1) (m - w0 * w1)

/-- The indices i0 to i3 of linear job number `n` (R338, R340). -/
def lrIndices (r : BitVec 2048) (n : Nat) : List Nat :=
  let x0 := lrExtent r 0
  let x1 := lrExtent r 1
  let x2 := lrExtent r 2
  let m := n % (x0 * x1)
  let up := n / (x0 * x1)
  if lrPersist r then [0, 0, 0, 0]
  else
    let p := match lrOrder r with
      | 0 => (m % x0, m / x0)
      | 1 => (m / x1, m % x1)
      | _ => zWalk x0 x1 (2 ^ lrBits r 899 896) (2 ^ lrBits r 903 900) (2 ^ 64) 0 m
    [p.1, p.2, up % x2, up / x2]

/-! ### Placing a team (R230, R339, R344, R345, R350) -/

/-- Whether a launch has a team that waits to run. -/
def Launch.wants (l : Launch) : Bool :=
  (l.phase == .ready || l.phase == .running) && (decide (l.nextTeam < l.total) || !l.queue.isEmpty)

/-- The team of a launch that runs next: a rerun, then those never dispatched, then those swapped out (R351, R353). (DEDUCED, log 76.) -/
def Launch.nextRun (l : Launch) : Option Nat :=
  let rerun := l.queue.find? fun t => l.teams.any fun q => q.index == t && q.phase == .rerun
  if rerun.isSome then rerun else if l.nextTeam < l.total then some l.nextTeam else l.queue.head?

/-- Whether best-effort launch `a` comes before `b` (R345). -/
def bestBefore (a b : Launch) : Bool :=
  let pa := lrPrio a.record
  let pb := lrPrio b.record
  decide (pb < pa) || (pa == pb && (decide (a.inlet < b.inlet) || (a.inlet == b.inlet && decide (a.seq < b.seq))))

/-- Whether a launch heads its class: no other of it that wants cores comes before (R345). -/
def Part.heads (p : Part) (l : Launch) : Bool :=
  match lrClass l.record with
  | 0 => !(p.launches.any fun q => lrClass q.record == 0 && q.wants && bestBefore q l)
  | 2 => !(p.launches.any fun q => lrClass q.record == 2 && q.wants && decide (q.seq < l.seq))
  | _ => true

/-- Whether a core may take a normal job or a helper of a launch. -/
def State.mayTake (s : State) (p : Part) (l : Launch) (c : Nat) : Bool :=
  let k := s.core c
  (s.partCores p).contains c && !k.failing && k.empty &&
    (if lrClass l.record = 1 then l.cores.contains c else !(p.reserved.contains c))

/-- Whether a list rises strictly. -/
def risesFrom : Nat → List Nat → Bool
  | _, [] => true
  | a, b :: t => decide (a < b) && risesFrom b t

@[inherit_doc risesFrom]
def rises : List Nat → Bool
  | [] => true
  | a :: t => risesFrom a t

/-- Whether a list of cores, job by job with the helpers after each job's own core, places `jobs` jobs (R290, R350): every
core is one the launch may take, none twice, the jobs' cores rise, and each job's helpers lie in its stop in rising order. (DESIGN CHOICE, log 75.) -/
def placementOk (take : Nat → Bool) (proof jobs : Nat) (cores : List Nat) : Bool :=
  let g := pieces (1 + proof) 96 cores
  decide (g.length = jobs) && decide (cores.length = jobs * (1 + proof)) && decide cores.Nodup && cores.all take &&
    rises (g.map fun l => l.headD 0) &&
    g.all fun l => rises (l.drop 1) && l.all fun c => stopOf c == stopOf (l.headD 0)

/-- Whether the LME has come to a boundary of a job that is frozen or swapped: no command is running but an LMM between K
steps, or one that a fault has stopped (R359). -/
def Job.lmeStill (j : Job) : Bool :=
  j.lme.all fun c => !c.started || c.stopped || match c.op with | .lmm _ _ _ _ _ _ => true | _ => false

/-- Whether every victim on the cores of an urgent team, its helpers' among them, has drained its LME (R360). -/
def State.victimsStill (s : State) (jobs : List Nat) : Bool :=
  jobs.all fun n =>
    match s.jobs[n]? with
    | none => true
    | some j =>
      (j.core :: j.helpers).all fun c =>
        ((s.core c).normal.toList ++ (s.core c).helper.toList).all fun v =>
          match s.jobs[v]? with
          | some k => k.urgent || k.lmeStill
          | none => true

/-- Job `n` begins to run on its core: its LGATE is in force there (R258), and the core runs its context (R230). -/
def State.begins (s : State) (n : Nat) : State :=
  match s.jobs[n]? with
  | none => s
  | some j => s.modCore j.core fun k => { k.runs (j.mem.part, j.mem.ctx) with lgateAt := s.tick }

/-- START of a launch is the JSTART of its first job (R343). -/
def Launch.startsAt (t : Nat) (l : Launch) : Launch := if l.start = 0 then { l with start := t } else l

/-- JOB_START (R230, R343, R360): at its JSTART a placed job's streams may issue; an urgent team whose victims' LME drains ended
later starts then, with that cycle as its JSTART. -/
def execJobStart (n : Nat) (s : State) : Host.Outcome State Fault Refusal :=
  .next (match s.jobs[n]? with
    | none => s
    | some j =>
      if j.phase != .loading || decide (s.tick < j.jstart) then s
      else if !j.urgent then
        ((s.setJob n { j with phase := .running }).begins n).modLaunch j.mem.part j.mem.seq (Launch.startsAt j.jstart)
      else
        let team := s.teamJobs n j
        if !s.victimsStill team then s
        else
          let put (t : StreamSt) : StreamSt := { t with stamp := s.tickWord, notBefore := s.tick }
          let s1 := team.foldl (fun u i => (u.modJob i fun k =>
            if k.phase = .loading then
              { k with phase := .running, jstart := s.tick, c := put k.c, l := put k.l, vs := put k.vs, m := put k.m, s := put k.s }
            else k).begins i) s
          s1.modLaunch j.mem.part j.mem.seq (Launch.startsAt s.tick))

/-- Every job whose JSTART has come starts (R230, R358). -/
def State.startDue (s : State) : State :=
  (List.range s.jobs.length).foldl (fun t n => stateOf t (execJobStart n t)) s

/-- The registers of stream `x` at a job's first word (R229, R230). (DESIGN CHOICE, log 111.) -/
def firstRegs (r : BitVec 2048) (args : Vector Word 8) (linear jstart : Nat) (x : StreamId) : StreamSt :=
  let ix := lrIndices r linear
  let k : Vector Word 16 := Vector.ofFn fun i : Fin 16 =>
    if 12 ≤ i.val then BitVec.ofNat 64 (ix.getD (i.val - 12) 0)
    else if i.val = 11 then BitVec.ofNat 64 linear
    else if h : i.val < 8 then (if x = .c then args[i.val] else 0)
    else 0
  let e := lrEntry r x.num
  { StreamSt.reset with
    k := k, stamp := BitVec.ofNat 64 jstart
    pc := if e = 0xFFFF_FFFF then noWord else lrCode r + BitVec.ofNat 64 e
    thandler := if lrHnd r x.num = 0 then 0 else lrCode r + BitVec.ofNat 64 (lrHnd r x.num)
    atJoin := decide (e = 0xFFFF_FFFF), notBefore := jstart }

/-- Whether an offset lies in one of a job's windows. -/
def inWindows (w : (Nat × Nat) × (Nat × Nat)) (a : Nat) : Bool := inWindow w.1 a 1 || inWindow w.2 a 1

/-- What a job's windows of the scratchpad hold at its first word (R230): where the core last ran the same context, each byte an
earlier job left there stands or reads zero, by a free value; else zero. -/
def State.firstScratch (s : State) (core part : Nat) (ctx : BitVec 16) (base : Nat) (w : (Nat × Nat) × (Nat × Nat)) :
    List Host.Cell :=
  let k := s.core core
  if k.lastCtx = some (part, ctx) then
    k.left.filterMap fun c =>
      if base ≤ c.1 ∧ inWindows w (c.1 - base) = true ∧ Config.staleByte s.free c.1 = true then some (c.1 - base, c.2) else none
  else []

/-- The scratchpad image of a preload (R251): zero bytes, since no field of a launch record gives others. (DESIGN CHOICE, log 78.) -/
def preloadImage : List Host.Cell := []

/-- Whether a preload is of a job of a launch. -/
def Preload.isOf (q : Preload) (part : Nat) (seq : Word) (linear : Nat) : Bool :=
  q.part == part && q.seq == seq && q.linear == linear

/-- Whether a job's preload, on whichever core, has been demoted (R354). -/
def State.demoted (s : State) (part : Nat) (seq : Word) (linear : Nat) : Bool :=
  s.cores.toList.any fun k => match k.preload with
    | some q => q.isOf part seq linear && q.image.isNone
    | none => false

/-- One job of a team as it is placed (R230, R339). A preloaded job finds the image written for it, or, demoted, has it loaded
again, on whichever core (R354). -/
def State.newJob (s : State) (p : Part) (part : Nat) (l : Launch) (coreSet team i jstart : Nat) (g : List Nat)
    (rerun : Bool) : Job :=
  let r := l.record
  let linear := lrTeam r * team + i
  let core := g.headD 0
  let urgentJob := lrClass r == 2
  let bankMode := lrBank r && !urgentJob
  let pre := (s.core core).preload
  let mine := match pre with
    | some q => q.isOf part l.seq linear
    | none => false
  let bank : Option Bool := if bankMode then some (match pre with | some q => (mine || rerun) && q.bank | none => false) else none
  let w := spWindows p.urgent urgentJob bankMode (lrSpreq r)
  let ring (x : StreamId) : List (Word × Word) := match pre with | some q => if mine then q.rings.getD x.num [] else [] | none => []
  let first (x : StreamId) : StreamSt := { firstRegs r l.args linear jstart x with ring := ring x }
  { Job.reset with
    mem := ⟨part, l.seq, team, lrTeam r, i, linear, coreSet, r.extractLsb' 1408 128, lrCanon r, lrCtx r, lrCode r,
      lrTiles r⟩
    core := core, urgent := urgentJob, timed := lrClass r == 1, det := lrDet r, jstart := jstart, budget := lrRdur r
    c := first .c, l := first .l, vs := first .v, m := first .m, s := first .s
    sp := match pre.filter fun _ => mine with
      | some q => q.image.getD preloadImage
      | none => if s.demoted part l.seq linear then preloadImage else s.firstScratch core part (lrCtx r) (bankBase bank) w
    w0 := w.1, w1 := w.2, tsw := tsWindow urgentJob (lrTsreq r), bank := bank, helpers := g.drop 1 }

/-- An L1 as an urgent job finds it (R288, R361): no clean line, and of a dirty one, which stays, its unwritten bytes as they stand at
home. -/
def State.l1Refresh (s : State) (core : Nat) : State :=
  s.modCore core fun k =>
    { k with l1 := (k.l1.filter fun l => l.dirty != 0).map fun l =>
        if 2 ^ 60 ≤ l.line then
          match s.hostLines.find? fun q => hostLineNo q.port q.line == l.line with
          | some q => { l with data := lineMerge q.data l.data l.dirty }
          | none => l
        else { l with data := lineMerge (s.homeLine l.line) l.data l.dirty } }

/-- Job number `n` comes to its core and its helpers: no L1 that serves it holds an older line (R288), an urgent one's with the
victim's dirty lines kept (R361), what another context left in a scratchpad is gone (R230), a timed job has every issue slot and its sub-arrays awake (R19, R258, R436), and the preload of another
job is demoted (R354). -/
def State.seatJob (s : State) (n : Nat) (j : Job) : State :=
  let ctx := (j.mem.part, j.mem.ctx)
  let open' (k : Core) : Core := if j.timed && s.therm.extractLsb' 0 2 != 2 then { k with gate := 16 } else k
  let s0 := if j.urgent then (((j.core :: j.helpers).flatMap s.l1Group).dedup).foldl State.l1Refresh s
    else s.l1FlushAll (j.core :: j.helpers)
  let s1 := s0.modCore j.core fun k0 =>
    let k := open' (k0.runs ctx)
    let keep := match k.preload with
      | some q => !(q.isOf j.mem.part j.mem.seq j.mem.linear)
      | none => false
    let k1 := if j.urgent then k else { k with preload := if keep then k.preload.map fun q => { q with image := none } else none }
    let k2 := if j.timed then wakeSubs s.tick 0xF k1 else k1
    if j.urgent then { k2 with urgent := some n } else { k2 with normal := some n }
  j.helpers.foldl (fun t h => t.modCore h fun k => { open' (k.runs ctx) with helper := some n }) s1

/-- Fills a ring from an address on, until a word cannot be read. -/
def State.fillRing (w : Who) : Nat → Word → List (Word × Word) → State → State × List (Word × Word)
  | 0, _, l, s => (s, l)
  | f + 1, a, l, s =>
    match s.fetchAt w a with
    | .ok s1 x => State.fillRing w f (a + 8) ((a, x) :: l) s1
    | _ => (s, l)

/-- Loads the rings of job `n`'s streams that stand empty, before its streams may issue (R230, R366): an absent stream, and one at
`JOIN`, has none to load. -/
def State.loadRings (s : State) (n : Nat) : State :=
  [StreamId.c, .l, .v, .m, .s].foldl (fun t x =>
    match t.jobs[n]? with
    | none => t
    | some j =>
      let g := j.stream x
      if g.atJoin || !g.ring.isEmpty then t
      else
        let r := State.fillRing (whoOf n j x none g.pc) ringWords g.pc [] t
        r.1.modRegs n x none fun y => { y with ring := r.2.reverse }) s

/-- A job has been placed: no core holds a preload of it any more. -/
def State.usePreload (s : State) (j : Job) : State :=
  { s with cores := s.cores.map fun k =>
      { k with preload := k.preload.filter fun q => !(q.isOf j.mem.part j.mem.seq j.mem.linear) } }

/-- Places team `t` of a launch on cores: its jobs are made, its membership is fixed, and the launch runs (R339, R350,
R357). A rerun is counted (R417), and jobs whose JSTART is this cycle start (R358). -/
def State.placeTeam (s : State) (p : Part) (part : Nat) (l : Launch) (t : Nat) (cores : List Nat) (jstart : Nat) : State :=
  let r := l.record
  let coreSet := l.coreSet.getD
    (if lrClass r = 1 then lrRcores r / (1 + lrProof r) else groupsIn p.stops (1 + lrProof r) (s.partCores p))
  let rerun := decide (t ∈ l.queue)
  let g := pieces (1 + lrProof r) 96 cores
  let jobs := ((List.range g.length).zip g).map fun q => s.newJob p part l coreSet t q.1 jstart q.2 rerun
  let first := s.jobs.length
  let ids := (List.range jobs.length).map (first + ·)
  let s1 := { s with jobs := s.jobs ++ jobs, free := s.free + 1 }
  let s2 := ids.foldl State.loadRings ((ids.zip jobs).foldl (fun u q => (u.seatJob q.1 q.2).usePreload q.2) s1)
  let s3 := s2.modLaunch part l.seq fun q =>
    let old := q.teams.find? fun z => z.index == t
    let team : Team := ⟨t, .resident, ids, 0, s.tick, (old.map (·.reruns)).getD 0, none, none⟩
    { q with
      args := l.args, phase := .running, coreSet := some coreSet, reruns := if rerun then min 255 (q.reruns + 1) else q.reruns
      queue := q.queue.filter (· ≠ t), nextTeam := if rerun then q.nextTeam else q.nextTeam + 1
      teams := if old.isSome then q.teams.map fun z => if z.index = t then team else z else q.teams ++ [team] }
  ids.foldl (fun u n => stateOf u (execJobStart n u)) s3

/-- Reads argument slots 0 to 7 once, as the launch starts (R333, R369). (DEDUCED, log 74.) -/
def State.readArgs (s : State) (part : Nat) (l : Launch) : LuRes (Vector Word 8) :=
  let n := min 64 (lrArglen l.record)
  if !s.ctxValid part (lrCtx l.record) then .fail causeTranslation none
  else if n = 0 then .ok s (Vector.replicate 8 0)
  else
    match luRes s (s.memRead (luWho part (lrCtx l.record) l.seq) (lrArgs l.record) n false) with
    | .ok s1 b => .ok s1 (Vector.ofFn fun i : Fin 8 => BitVec.ofNat 64 (leNat ((b.drop (8 * i.val)).take 8)))
    | .fail c u => .fail c u
    | .wait t => .wait t

/-- Requests of the Launch Unit that nothing will take up again: answered ones go, the others are no longer awaited. -/
def State.luForget (s : State) : State :=
  { s with cxl := (s.cxl.filter fun q => !(decide (q.job = 2 ^ 32) && q.done)).map fun q =>
      if q.job = 2 ^ 32 then { q with posted := true } else q }

/-- Starts a launch whose first team is about to be placed: its arguments are read, or it ends with FAULT. -/
def State.startLaunch (s : State) (part : Nat) (l : Launch) (go : State → Launch → State) : State :=
  if l.phase = .running then go s l
  else
    match s.readArgs part l with
    | .ok s1 a => go s1 { l with args := a }
    | .fail c u =>
      let at' := u.getD (8, 0)
      let s1 := if c = causeMemUe then
          s.logError { ErrRec.blank with kind := 2, unit := at'.1, addr := at'.2, seq := l.seq, ctx := lrCtx l.record }
        else s
      s1.luForget.modLaunch part l.seq fun q => q.close 1 c
    | .wait s1 => s1

/-- Whether a rerun may take these cores: not the one that reported the error, where the partition has enough others
(R417). -/
def State.rerunCoresOk (s : State) (p : Part) (l : Launch) (t : Nat) (cores : List Nat) : Bool :=
  match (l.teams.find? fun q => q.index == t).bind (·.badCore) with
  | none => true
  | some b =>
    !(cores.contains b) ||
      decide (((s.partCores p).filter fun c => c != b && s.mayTake p l c).length < lrTeamCores l.record)

/-- The cycle by which the next wave of a timed launch starts (R346, R347): 4,096 after the last retire or abort of the wave before
it, or, for the first, after its cores are clear. -/
def Launch.waveEnd (l : Launch) : Nat := 4096 + if l.teams.isEmpty then l.admitted.getD 0 else l.finish

/-- Whether a timed team's JSTART leaves the sub-arrays of its cores time to wake and is no later than R347 allows. (DESIGN CHOICE, log 77.) -/
def State.timedStart (s : State) (l : Launch) (cores : List Nat) (jstart : Nat) : Bool :=
  (decide (s.tick + Config.lmeWake ≤ jstart) || cores.all fun c => (s.core c).subs.toList.all (·.awake)) &&
    decide (jstart ≤ max l.waveEnd (s.tick + Config.lmeWake))

/-- TEAM_DISPATCH (R339, R344, R345, R347, R350, R353): the next team of the launch at the head of its order is placed on the
cores given, with one JSTART. -/
def execTeamDispatch (part : Nat) (seq : Word) (cores : List Nat) (jstart : Nat) (s : State) :
    Host.Outcome State Fault Refusal :=
  .next (match s.parts[part]?, s.launch? part seq with
    | some p, some l =>
      match l.nextRun with
      | none => s
      | some t =>
        let swapped := l.teams.any fun q => q.index == t && q.phase == .swapped
        let timedOk := lrClass l.record != 1 || s.timedStart l cores jstart
        if p.resetting || !l.wants || swapped || lrClass l.record == 2 || !p.heads l || decide (jstart < s.tick) || !timedOk ||
            !placementOk (s.mayTake p l) (lrProof l.record) (lrTeam l.record) cores || !s.rerunCoresOk p l t cores ||
            s.l1HeldAny cores then s
        else s.startLaunch part l fun s1 l1 => s1.placeTeam p part l1 t cores jstart
    | _, _ => s)

/-- Cores for `jobs` jobs of a launch, with their helpers, out of rising ones: in each stop by groups. -/
def pickCores (l : Launch) (jobs : Nat) (cores : List Nat) : List Nat :=
  ((((List.range 12).flatMap fun t => pieces (1 + lrProof l.record) 96 (cores.filter fun c => stopOf c == t))).take jobs).flatten

/-- The cores that team `t` of a launch is offered (R417, R420): those it may take, the one that reported its error left out where the
others are enough. -/
def State.offered (s : State) (p : Part) (l : Launch) (t : Nat) : List Nat :=
  let all := (s.partCores p).filter fun c => s.mayTake p l c
  match (l.teams.find? fun q => q.index == t).bind (·.badCore) with
  | none => all
  | some b =>
    let rest := all.filter (· ≠ b)
    if rest.length < lrTeamCores l.record then all else rest

/-- Dispatches the next team of a launch on the first cores it is offered. -/
def State.dispatchNext (s : State) (part : Nat) (p : Part) (l : Launch) (jstart : Nat) : State :=
  match l.nextRun with
  | none => s
  | some t => stateOf s (execTeamDispatch part l.seq (pickCores l (lrTeam l.record) (s.offered p l t)) jstart s)

/-- The dispatches that R347 makes due for a timed launch now: its next teams, all of a wave at once, on its first cores that are
free. Fuel bounds the teams. (DESIGN CHOICE, log 77.) -/
def State.dispatchDue (part : Nat) (seq : Word) : Nat → State → State
  | 0, s => s
  | f + 1, s =>
    match s.parts[part]?, s.launch? part seq with
    | some p, some l =>
      if lrClass l.record = 1 ∧ l.wants = true ∧ l.waveEnd ≤ s.tick + Config.lmeWake then
        State.dispatchDue part seq f (s.dispatchNext part p l (max l.waveEnd (s.tick + Config.lmeWake)))
      else s
    | _, _ => s

/-- Every dispatch due now (R347, R348). -/
def State.timedDue (s : State) : State :=
  (List.range s.parts.length).foldl (fun t n =>
    match t.parts[n]? with
    | none => t
    | some p => p.launches.foldl (fun u l => State.dispatchDue n l.seq 96 u) t) s

/-! ### Completion (R341 to R343) -/

/-- The failed team a completion record describes: the one whose final abort came first, then the lower job (R343). -/
def Launch.firstFault (l : Launch) : Option (Nat × Nat × StreamId × TrapRec) :=
  (l.teams.filterMap fun q => if q.phase = .failed then q.abort else none).foldl (fun best a =>
    match best with
    | none => some a
    | some b => if a.1 < b.1 ∨ (a.1 = b.1 ∧ a.2.1 < b.2.1) then some a else some b) none

/-- A launch with the status and fault its record carries (R343). -/
def Launch.judged (l : Launch) : Launch :=
  if l.status ≠ 0 then l
  else
    match l.firstFault with
    | none => l
    | some (_, job, x, r) =>
      { l with status := 1, cause := r.cause, job := BitVec.ofNat 32 job, stream := BitVec.ofNat 3 x.num, tpc := r.tpc, tinfo := r.info }

/-- The 64 bytes of a completion record (R343). -/
def completionBytes (l : Launch) (now : Nat) : List Byte :=
  let jobs := min (2 ^ 32 - 1) (l.teams.map (·.done)).sum
  let late := l.late && lrClass l.record == 1 && decide (lrDeadline l.record < now)
  let flags := (if l.voided then 1 else 0) + (if 0 < l.reruns then 2 else 0) + (if late then 4 else 0)
  leBytes 64 (l.seq.toNat + l.status.toNat * 2 ^ 64 + flags * 2 ^ 72 + l.cause.toNat * 2 ^ 80 + l.stream.toNat * 2 ^ 88 +
    l.job.toNat * 2 ^ 96 + l.tpc.toNat * 2 ^ 128 + l.tinfo.toNat * 2 ^ 192 + (lrUsertag l.record).toNat * 2 ^ 256 +
    l.start % 2 ^ 64 * 2 ^ 320 + l.finish % 2 ^ 64 * 2 ^ 384 + jobs * 2 ^ 448 + min 255 l.reruns * 2 ^ 480)

/-- What draining does (R262, R265): the dirty lines of the partition go home, whoever dirtied them in a line another launch
brought in; the L1 lines the launch brought in are dropped, and so are its replicas. -/
def State.drainLaunch (s : State) (part : Nat) (seq : Word) : State :=
  let mine (l : L1Line) : Bool := decide (l.part = part) && l.seq == seq
  let s1 := (List.range 96).foldl (fun t c =>
    (t.l1Settle (fun l => decide (l.part = part)) c).modCore c fun k => { k with l1 := k.l1.filter fun l => !mine l }) s
  { s1 with replicas := s1.replicas.filter fun r => !(decide (r.part = part) && r.seq == seq) }

/-- Writes a completion record into its Outlet (R341): `none` where the Outlet is full. -/
def State.postRecord (s : State) (part : Nat) (l : Launch) : LuRes (Option (BitVec 11)) :=
  let w := luWho part (lrCtx l.record) l.seq
  let base := lrOutlet l.record
  match luRes s (s.memRead w base 24 true) with
  | .fail c u => .fail c u
  | .wait t => .wait t
  | .ok s1 b =>
    let tail := leNat (b.take 8)
    let head := leNat ((b.drop 8).take 8)
    let size := leNat ((b.drop 16).take 4)
    if !ringSizeOk size then .fail causeIllegal none
    else if size ≤ tail - head then .ok s1 none
    else
      let at' := onPath base (base.toNat + 256 + 64 * (tail % size))
      match luRes s (s1.memWrite w at' (completionBytes l s.tick) true) with
      | .fail c u => .fail c u
      | .wait t => .wait t
      | .ok s2 _ =>
        match luRes s (s2.memWrite w base (leBytes 8 (tail + 1)) true) with
        | .fail c u => .fail c u
        | .wait t => .wait t
        | .ok s3 _ => .ok s3 (some (BitVec.ofNat 11 (leNat ((b.drop 20).take 2))))

/-- Whether a write over a CXL port, of a job of the launch or of a Launch Unit, has not been performed yet (R288, R391, R397). -/
def State.writesOut (s : State) (part : Nat) (seq : Word) : Bool :=
  s.cxl.any fun q => !q.done && q.data.isSome && (decide (q.job = 2 ^ 32) || match s.jobs[q.job]? with
    | some j => decide (j.mem.part = part) && j.mem.seq == seq
    | none => false)

/-- Whether a dirty line of a partition cannot go home now (R390). -/
def State.drainHeld (s : State) (part : Nat) : Bool :=
  s.cores.toList.any fun k => k.l1.any fun l => decide (l.part = part) && s.lineHeld l

/-- COMPLETION_RECORD_WRITE (R288, R341 to R343, R357, R396): a drained launch's record goes to its Outlet, or, where it cannot, to
the error log; the launch is then complete. The number of an accepted launch that has yet to be written goes first (R335). A full
Outlet, and a write of its jobs still on its way, is waited for. -/
def execCompletionRecordWrite (part : Nat) (seq : Word) (s : State) : Host.Outcome State Fault Refusal :=
  .next (match s.parts[part]?, s.launch? part seq with
    | some p, some l0 =>
      if p.resetting || l0.phase != .draining || s.writesOut part seq || s.drainHeld part then s
      else if l0.seqDue then s.writeSeq part l0
      else
        let s0 := s.drainLaunch part seq
        let l := l0.judged
        let done (t : State) : State := t.modLaunch part seq fun _ => { l with phase := .complete }
        if l.status = 3 ∧ outletBad l.record = true then
          done (s0.logError { ErrRec.blank with
            kind := 8, unit := 0xC, seq := seq, ctx := lrCtx l.record, syn := l.cause.toNat, detail := lrOutlet l.record })
        else
          match s0.postRecord part l with
          | .fail c _ => done (s0.luForget.logUnwritten seq (lrCtx l.record) (lrOutlet l.record) c)
          | .wait t => t
          | .ok t none => t.modLaunch part seq fun q => { q with late := true }
          | .ok t (some vec) => done (if lrIrq l.record then t.sendMsix p.owner vec else t)
    | _, _ => s)

end Sys2Proof.Machine
end

