-- ==== Sys2Proof/Machine/Proof.lean ====
section
/-! DEFINITION. Proofing loops (R217 to R220, R289 to R299): the words that start, end and observe them, and the steps
that assign, confirm, commit and squash iterations. -/

namespace Sys2Proof.Machine

/-! ### The proof record (R289) -/

/-- Fields of a proof record. -/
def prCmask (r : BitVec 512) : BitVec 16 := r.extractLsb' 0 16
def prW (r : BitVec 512) : Nat := (r.extractLsb' 16 4).toNat
def prAcc (r : BitVec 512) : Bool := r.getLsbD 20
def prGlim (r : BitVec 512) : Nat := (r.extractLsb' 48 16).toNat
def prGuess (r : BitVec 512) : BitVec 32 := r.extractLsb' 128 32
def prBody (r : BitVec 512) : BitVec 32 := r.extractLsb' 160 32
def prTrip (r : BitVec 512) : Nat := (r.extractLsb' 192 64).toNat

/-- Whether a routine is present (R289). -/
def prHasGuess (r : BitVec 512) : Bool := prGuess r != 0xFFFF_FFFF

/-- The selected registers, in order. -/
def carriedOf (r : BitVec 512) : List (Fin 16) := (List.finRange 16).filter fun i => (prCmask r).getLsbD i.val

/-- A malformed record, given the size of the proof group (R289). (DEDUCED, log 99.) -/
def proofBad (r : BitVec 512) (group : Nat) : Bool :=
  r.extractLsb' 298 214 != 0 || r.extractLsb' 278 10 != 0 || r.extractLsb' 64 64 != 0 || r.extractLsb' 41 7 != 0 ||
    r.extractLsb' 21 11 != 0 || (carriedOf r).isEmpty || decide (8 < (carriedOf r).length) || decide (prW r < 2) ||
    decide (8 < prW r) || decide (group < prW r) || r.extractLsb' 32 9 == 0 || decide (256 < (r.extractLsb' 32 9).toNat) ||
    prGlim r == 0 || decide (768 < (r.extractLsb' 288 10).toNat) || (prBody r).extractLsb' 0 3 != 0 ||
    (prHasGuess r && (prGuess r).extractLsb' 0 3 != 0) || (r.extractLsb' 256 22).extractLsb' 0 12 != 0

/-- The job as it is while `lp` runs. -/
def Job.withLoop (j : Job) (lp : Loop) : Job := { j with loop := some lp }

/-- A loop at its start (R290, R292): every slot idle, FPCTL, AGE and THANDLER from C. -/
def Loop.start (r : BitVec 512) (j : Job) (d : Dest) (sig : Sig) : Loop where
  record := r
  base := j.c
  dest := d
  sig := sig
  slots := (j.core :: j.helpers).take (prW r) |>.map fun core =>
    { core := core, regs := { j.c with ring := [], retireQ := [], out := none, claim := none }, priv := [], privBad := [], running := none, finished := none,
      held := false }
  committed := 0
  flags := j.c.fpflg
  carries := j.c.k
  carved := carveBytes
  ended := false
  commitAt := 0

/-- Writes back and drops the L1 lines of a job's cores, so that the slots of a loop and C see one another's stores where
program order asks for it. (DEDUCED, log 49.) -/
def State.flushGroup (s : State) (j : Job) : State := s.l1FlushAll (j.core :: j.helpers)

/-- PLOOP (R217): its checks in their own order, then the loop starts: C stands as its slot 0 until it ends (R290). -/
def execPloop (h : Hdr) (d : Dest) (a : Src) (s : State) : Host.Outcome State Fault Refusal :=
  scalarWord h [a] (some a) (some d) (fun c j s =>
    let off := (c.regs.src a).toNat
    if inHandlerC c j || c.slot.isSome || j.loop.isSome then .raise causeIllegal
    else if !j.c.retireQ.isEmpty then .stall
    else if s.l1HeldAny (j.core :: j.helpers) then waits c (c.who j) s
    else if off % 64 ≠ 0 then .raise causeMisaligned
    else
      let top := j.topWindow
      let jc := j.withLoop (Loop.start 0 j d h.sig)
      if !(jc.spanOk off 64) || decide (top.2 - top.1 < carveBytes) then .raise causeBound
      else
        match j.spLoad none off 64 with
        | .fault e => s.raiseOwn (j.spUe none off 64) e
        | .full => .stall
        | .ok b =>
          let r : BitVec 512 := BitVec.ofNat 512 (leNat b)
          if proofBad r (1 + j.helpers.length) then .raise causeIllegal
          else if !(jc.spanOk (privArea r).1 (privArea r).2) then .raise causeBound
          else
            .stop { ((s.flushGroup j).modJob c.job fun k =>
              { k with loop := some (Loop.start r k d h.sig), proofOk := 0, proofSq := 0, proofNo := 0,
                       c := { k.c with out := none } }) with cursor := none }) s

/-! ### Starting iterations (R292 to R294) -/

/-- A register file with the carried registers taken from another. -/
def withCarries (r : BitVec 512) (k carries : Vector Word 16) : Vector Word 16 :=
  (carriedOf r).foldl (fun v i => v.set i.val (carries.get i)) k

/-- The registers a body starts with (R292): C's as at PLOOP, STAMP among them, the carries, and the iteration number pushed; the
slot's C goes there as by a branch (R249). (DESIGN CHOICE, log 91.) -/
def bodyRegs (j : Job) (lp : Loop) (t : StreamSt) (n : Nat) (cin : Vector Word 16) (at' : Nat) : StreamSt :=
  ({ t.leave with
    out := none, claim := none, k := withCarries lp.record lp.base.k cin, p := lp.base.p, h := lp.base.h, rstack := [], fpflg := 0, retireQ := [], skip := false
    stamp := lp.base.stamp
    pc := j.mem.code + (prBody lp.record).setWidth 64, notBefore := at' }).push (BitVec.ofNat 64 n)

/-- The registers a guess routine starts with (R293). -/
def guessRegs (j : Job) (lp : Loop) (t : StreamSt) (n : Nat) (at' : Nat) : StreamSt :=
  (({ t.leave with
    out := none, claim := none, k := withCarries lp.record lp.base.k lp.carries, p := lp.base.p, h := lp.base.h, rstack := [], fpflg := 0, retireQ := []
    skip := false, stamp := lp.base.stamp
    pc := j.mem.code + (prGuess lp.record).setWidth 64, notBefore := at' }).push (BitVec.ofNat 64 lp.committed)).push
      (BitVec.ofNat 64 n)

/-- An iteration just taken by its slot. -/
def Iter.fresh (n : Nat) (st : IterState) (cin : Vector Word 16) : Iter :=
  { n := n, st := st, cin := cin, cout := cin, flags := 0, stores := [], exit := false, words := 0 }

/-- Free bytes over [lo, lo + n) of a store, as they may stand at an iteration's start (R291). -/
def freshCells (draw lo n : Nat) (m : List Host.Cell) : List Host.Cell :=
  if n = 0 then m
  else
    m.filter (fun c => decide (c.1 < lo)) ++
      ((List.range n).filterMap fun i =>
        let b := Config.privByte draw (lo + i)
        if b = 0 then none else some (lo + i, b)) ++
      m.filter (fun c => decide (lo + n ≤ c.1))

/-- The private area of a slot holds unspecified bytes at an iteration's start (R291). -/
def State.freshPriv (s : State) (n slot : Nat) : State :=
  { (s.modJob n fun j =>
      match j.loop with
      | none => j
      | some lp =>
        let p := privArea lp.record
        if slot = 0 then { j with sp := freshCells s.free p.1 p.2 j.sp }
        else
          match lp.slots[slot]? with
          | none => j
          | some sl => j.setSlot slot { sl with priv := freshCells s.free p.1 p.2 sl.priv }) with
    free := s.free + 1 }

/-- Whether a job's own steps may go on: it runs, and is not frozen, suspended or swapped (R239, R242, R359). -/
def Job.moves (j : Job) : Bool :=
  j.phase == .running && j.handler.isNone && j.susp.isNone && !j.victim && !j.draining

/-- The iteration a slot takes next (R290, R294): the first of its own numbers that is neither committed nor held. -/
def Loop.nextFor (lp : Loop) (slot : Nat) : Option Nat :=
  let w := lp.slots.length
  match lp.slots[slot]? with
  | none => none
  | some sl =>
    match sl.running, sl.finished with
    | some _, _ => none
    | none, some f => if f.exit then none else some (f.n + w)
    | none, none => some (lp.committed + (slot + w - lp.committed % w) % w)

/-- A slot runs an iteration from here on, its C on the registers given. -/
def Job.startOn (j : Job) (slot : Nat) (it : Iter) (t : StreamSt) : Job :=
  match j.slot? slot with
  | none => j
  | some sl => (j.setSlot slot { sl with running := some it, held := false }).setRegs .c (some slot) t

/-- Confirms iteration `n` of a slot on true carries (R294): its body starts at `at'`. -/
def Job.confirmFresh (j : Job) (lp : Loop) (slot n at' : Nat) : Job :=
  j.startOn slot (Iter.fresh n .confirmed lp.carries) (bodyRegs j lp (j.regs .c (some slot)) n lp.carries at')

/-- The L1 of a slot's core is emptied as its iteration is confirmed: from here on it sees what older iterations have stored (R276,
R282, R299). (DEDUCED, log 49.) -/
def State.flushSlot (s : State) (n slot : Nat) : State :=
  match s.jobs[n]? with
  | none => s
  | some j => s.l1FlushAll [j.coreOf (some slot)]

/-- PROOF_ITERATION_START: a slot takes its next iteration (R294). -/
def execProofIterationStart (n slot : Nat) (s : State) : Host.Outcome State Fault Refusal :=
  .next <|
    match s.jobs[n]? with
    | none => s
    | some j =>
      match j.loop with
      | none => s
      | some lp =>
        match lp.nextFor slot, lp.slots[slot]? with
        | some i, some sl =>
          if !j.moves || lp.ended || (prTrip lp.record != 0 && decide (prTrip lp.record ≤ i)) then s
          else if i = lp.committed then
            if s.l1Held sl.core then s
            else
              ((s.flushSlot n slot).freshPriv n slot).modJob n fun k =>
                { (k.confirmFresh lp slot i (s.tick + 6)) with proofOk := k.proofOk + 1 }
          else if prHasGuess lp.record then
            (s.freshPriv n slot).modJob n fun k =>
              k.startOn slot (Iter.fresh i .guessing lp.carries) (guessRegs k lp (k.regs .c (some slot)) i (s.tick + 6))
          else
            (s.freshPriv n slot).modJob n fun k =>
              let sl1 := (k.slot? slot).getD sl
              k.setSlot slot { sl1 with running := some (Iter.fresh i .waiting lp.carries), held := false }
        | _, _ => s

/-! ### The words of a loop (R218 to R220) -/

/-- PGEND (R218, R293): the carried registers are the guess, and the body starts on it. -/
def execPgend (h : Hdr) (s : State) : Host.Outcome State Fault Refusal :=
  scalarWord h [] none none (fun c j s =>
    match c.slot, j.loop with
    | some n, some lp =>
      match j.slot? n with
      | none => .raise causeIllegal
      | some sl =>
        match sl.running with
        | some it =>
          if it.st == .guessing && j.handler.isNone then
            let cin := (j.regs .c (some n)).k
            .stop { (s.freshPriv c.job n).modJob c.job fun k =>
              k.startOn n (Iter.fresh it.n .speculative cin)
                (bodyRegs k lp (k.regs .c (some n)) it.n cin (s.tick + 1)) with cursor := none }
          else .raise causeIllegal
        | none => .raise causeIllegal
    | _, _ => .raise causeIllegal) s

/-- The end of an iteration at PNEXT or PEXIT (R218, R294): its carries out and flags are recorded. A finished iteration
still held by the slot keeps the word at issue. -/
def endIteration (exit : Bool) (c : Cursor) (j : Job) (s : State) : WRes :=
  match c.slot, j.loop with
  | some n, some lp =>
    match j.slot? n with
    | none => .raise causeIllegal
    | some sl =>
      let t := j.regs .c (some n)
      match sl.running with
      | some it =>
        if j.handler.isSome || it.st == .guessing || it.st == .waiting then .raise causeIllegal
        else if sl.finished.isSome || !t.retireQ.isEmpty || (exit && it.st != .confirmed) then .stall
        else
          let it1 := { it with
            cout := t.k, flags := t.fpflg, exit := exit
            st := if it.st = .confirmed then .confirmed else .finished }
          .stop { (s.modJob c.job fun k =>
            let k1 := k.setSlot n { sl with running := none, finished := some it1 }
            if it.st = .confirmed then
              { k1 with loop := k1.loop.map fun l => { l with commitAt := max lp.commitAt (s.tick + 4) } }
            else k1) with cursor := none }
      | none => .raise causeIllegal
  | _, _ => .raise causeIllegal

/-- PNEXT (R218). (DEDUCED, log 51.) -/
def execPnext (h : Hdr) (s : State) : Host.Outcome State Fault Refusal :=
  scalarWord h [] none none (endIteration false) s

/-- PEXIT (R218): stalls until its iteration is confirmed. -/
def execPexit (h : Hdr) (s : State) : Host.Outcome State Fault Refusal :=
  scalarWord h [] none none (endIteration true) s

/-- PACC (R219). -/
def execPacc (h : Hdr) (kc : BitVec 4) (a : Src) (s : State) : Host.Outcome State Fault Refusal :=
  scalarWord h [a] (some a) none (fun c j s =>
    if j.loop.isSome then .raise causeIllegal
    else .ok (s.modJob c.job fun k => { k with pacc := k.pacc.set kc.toNat (c.regs.src a) kc.isLt }) c.value none) s

/-- The count PSTAT reads (R220). (DEDUCED, log 50.) -/
def pstatValue (c : Cursor) (j : Job) (sel : Nat) : Option Word :=
  match sel with
  | 0 => some j.proofOk
  | 1 => some j.proofSq
  | 2 => some j.proofNo
  | 3 =>
    some (match j.iter? c.slot with
      | some it => if it.st = .guessing then BitVec.allOnes 64 else BitVec.ofNat 64 it.n
      | none => BitVec.allOnes 64)
  | _ => none

/-- PSTAT (R220). -/
def execPstat (h : Hdr) (d : Dest) (sel : BitVec 8) (s : State) : Host.Outcome State Fault Refusal :=
  scalarWord h [] none (some d) (fun c j s =>
    match pstatValue c j sel.toNat with
    | some v => .ok s v none
    | none => .raise causeIllegal) s

/-! ### Releasing stores, committing, squashing (R294, R295) -/

/-- Performs one buffered store of a slot's iteration: an access result with the state after. -/
def State.performStore (s : State) (n slot : Nat) (st : SpecStore) : MRes Unit :=
  match s.jobs[n]? with
  | none => .ok s ()
  | some j =>
    let w := whoOf n j .c none (j.regs .c (some slot)).pc
    let w1 := { w with core := j.coreOf (some slot), slot := none }
    match st with
    | .scratch off d => .ok (s.setJob n (j.spPut off d)) ()
    | .mem va d rel _ =>
      let wide := match rel with | some sc => scopeWide sc | none => false
      if wide && s.l1Held w1.core then .hold s none []
      else (if wide then s.l1Release w1.core else s).writeVia w1 va d wide
    | .append _ _ _ _ => .ok s ()

/-- Performs stores in order. -/
def State.performStores (n slot : Nat) : List SpecStore → State → MRes Unit
  | [], s => .ok s ()
  | st :: t, s => (s.performStore n slot st).bind fun s1 _ => State.performStores n slot t s1

/-- The agent that places or returns a slot's runs. -/
def Job.placer (j : Job) (n slot : Nat) : Who :=
  { whoOf n j .c none (j.regs .c (some slot)).pc with core := j.coreOf (some slot) }

/-- Places an iteration's appends at their regions' tails in the order it made them (R303), each by the descriptor its slot is
bound to, with the pages held from that region's pool. The result says whether all were placed, and which pages are left over. -/
def State.placeRuns (w : Who) (app : Vector AppSlot 4) : List SpecStore → List (Word × Nat) → State → MRes (Option (List (Word × Nat)))
  | [], held, s => .ok s (some held)
  | .append a b _ _ :: t, held, s =>
    match app.get a.toFin with
    | none => State.placeRuns w app t held s
    | some desc =>
      (s.apDesc w desc).bind fun s1 d =>
        let mine := held.filter fun p => p.1 == d.pool
        (s1.apAppend w desc b (mine.map Prod.snd)).bind fun s2 r =>
          match r with
          | .inr _ => .ok s none
          | .inl x =>
            State.placeRuns w app t ((held.filter fun p => p.1 != d.pool) ++ x.2.map fun k => (d.pool, k)) s2
  | _ :: t, held, s => State.placeRuns w app t held s

/-- Places every run of an iteration; what pages it held and did not need go back (R303). -/
def State.placeAll (s : State) (n slot : Nat) (l : List SpecStore) : MRes Bool :=
  match s.jobs[n]? with
  | none => .ok s true
  | some j =>
    let w := j.placer n slot
    (State.placeRuns w j.append l (heldPages l) s).bind fun s1 r =>
      match r with
      | none => .ok s false
      | some rest => (State.returnPages w rest s1).bind fun s2 _ => .ok s2 true

/-- Returns the pages an iteration's runs hold, as a squash does (R303); where an access of it has to wait, the job owes them. -/
def State.dropRuns (s : State) (n slot : Nat) (l : List SpecStore) : State :=
  match s.jobs[n]? with
  | none => s
  | some j =>
    match State.returnPages (j.placer n slot) (heldPages l) s with
    | .ok t _ => t
    | _ => s.setJob n { j with owed := j.owed ++ heldPages l }

/-- Squashes what a slot holds, if it is iteration `i` or younger; the count goes to PSTAT. -/
def State.squashSlot (n i : Nat) (s : State) (slot : Nat) : State :=
  match (s.jobs[n]?).bind fun j => j.slot? slot with
  | none => s
  | some sl =>
    let young (o : Option Iter) : Bool := match o with | some it => decide (i ≤ it.n) | none => false
    let gone (o : Option Iter) : List SpecStore := match o with | some it => if i ≤ it.n then it.stores else [] | none => []
    let s1 := s.dropRuns n slot (gone sl.running ++ gone sl.finished)
    s1.modJob n fun j =>
      { (j.setSlot slot { sl with
          running := if young sl.running then none else sl.running
          finished := if young sl.finished then none else sl.finished
          held := if young sl.running then false else sl.held }) with
        proofSq := j.proofSq + BitVec.ofNat 64 ((young sl.running).toNat + (young sl.finished).toNat) }

/-- Squashes iteration `i` and every younger one. -/
def State.squashFrom (s : State) (n i w : Nat) : State := (List.range w).foldl (State.squashSlot n i) s

/-- Whether the carries out of an iteration are the ones the next received, under the masks where ACC is set. -/
def carriesAccepted (r : BitVec 512) (pacc out inn : Vector Word 16) : Bool :=
  (carriedOf r).all fun i =>
    if prAcc r then (out.get i ^^^ inn.get i) &&& pacc.get i == 0 else out.get i == inn.get i

/-- What an access made for a loop comes to: service of a translation failure, the trap of the slot's C, or a wait. What its walks
have left stands (R373). -/
def State.loopAccess {α : Type} (s : State) (n slot : Nat) (r : MRes α) (f : State → α → State) : State :=
  match s.jobs[n]? with
  | none => s
  | some j =>
    let pc := (j.regs .c (some slot)).pc
    let left (t : State) : State := s.keepWalks (j.placer n slot) t
    match r with
    | .ok s1 x => f s1 x
    | .fault s1 cause => { (left s1) with ueAt := s1.ueAt }.takeTrap n .c (some slot) ⟨cause, pc, 0, 0⟩
    | .susp s1 va kind level =>
      if j.timed then (left s1).takeTrap n .c (some slot) ⟨causeTranslation, pc, 0, 0⟩
      else (left s1).suspendJob n ⟨va, kind, level, j.coreOf (some slot), .c, pc, some slot, false⟩
    | .hold s1 q _ => { (left s1) with cxl := s.cxl ++ q.toList }

/-- The pages a job owes go back to their pools as soon as they can (R303). -/
def State.payPages (s : State) (n : Nat) : State :=
  match s.jobs[n]? with
  | none => s
  | some j =>
    if j.owed.isEmpty || j.phase != .running || j.susp.isSome || j.handler.isSome then s
    else
      s.loopAccess n 0 (State.returnPages (j.placer n 0) j.owed s) fun t _ => t.modJob n fun k => { k with owed := [] }

/-- Performs an accepted iteration's buffered stores and places its runs. Where a run finds no page, the iteration is not
confirmed on its guess: it is squashed and runs again as confirmed, and its own APND then raises APPEND_POOL as in serial
execution (R299). -/
def State.releaseIter (s : State) (n slot : Nat) (l : List SpecStore) : MRes Bool :=
  (State.performStores n slot l s).bind fun s1 _ =>
    (s1.placeAll n slot l).bind fun s2 ok => .ok (if ok then s2 else s) ok

/-- Re-runs iteration `i` on its slot as confirmed, after it and every younger one have been squashed (R294, R295). -/
def State.rerunIter (s : State) (n i w : Nat) : State :=
  let s1 := (s.squashFrom n i w).flushSlot n (i % w)
  (s1.freshPriv n (i % w)).modJob n fun j =>
    match j.loop with
    | none => j
    | some lp => { (j.confirmFresh lp (i % w) i (s.tick + 8)) with proofOk := j.proofOk + 1 }

/-- The compare that follows a commit (R294, R295): the next iteration, if its slot has it, is confirmed on its own
carries, started on the true ones, or squashed and re-run. -/
def State.proveNext (s : State) (n : Nat) : State :=
  match s.jobs[n]? with
  | none => s
  | some j =>
    match j.loop with
    | none => s
    | some lp =>
      let w := lp.slots.length
      let i := lp.committed
      let slot := i % w
      match lp.slots[slot]? with
      | none => s
      | some sl =>
        if s.l1Held sl.core then s
        else
        match sl.finished, sl.running with
        | some f, _ =>
          if f.n ≠ i then s
          else if f.st = .confirmed then s
          else if carriesAccepted lp.record j.pacc lp.carries f.cin then
            s.loopAccess n slot (s.releaseIter n slot f.stores) fun s1 placed =>
              if placed then
                s1.modJob n fun k =>
                  let k1 := k.setSlot slot { ((k.slot? slot).getD sl) with finished := some { f with st := .confirmed, stores := [] } }
                  { k1 with
                    proofOk := k.proofOk + 1, loop := k1.loop.map fun l => { l with commitAt := max l.commitAt (s.tick + 1) } }
              else s.rerunIter n i w
          else s.rerunIter n i w
        | none, some it =>
          if it.n ≠ i then s
          else if it.st = .speculative then
            if carriesAccepted lp.record j.pacc lp.carries it.cin then
              s.loopAccess n slot (s.releaseIter n slot it.stores) fun s1 placed =>
                if placed then
                  (s1.flushSlot n slot).modJob n fun k =>
                    { (k.setSlot slot { ((k.slot? slot).getD sl) with
                        running := some { it with st := .confirmed, stores := [] }, held := false }) with
                      proofOk := k.proofOk + 1 }
                else s.rerunIter n i w
            else s.rerunIter n i w
          else if it.st = .confirmed then s
          else
            ((s.flushSlot n slot).freshPriv n slot).modJob n fun k =>
              { (k.confirmFresh lp slot i (s.tick + 8)) with proofOk := k.proofOk + 1 }
        | none, none => s

/-- The commit of iteration `it` once its stores stand (R295): flags, count and carries; the loop ends at PEXIT or TRIP. -/
def State.commitIter (s : State) (n slot : Nat) (it : Iter) : State :=
  match s.jobs[n]? with
  | none => s
  | some j =>
    match j.loop, j.slot? slot with
    | some lp, some sl =>
      let s0 := s.flushSlot n slot
      let stop := it.exit || (prTrip lp.record != 0 && decide (prTrip lp.record ≤ lp.committed + 1))
      let s1 := s0.modJob n fun k =>
        let k1 := k.setSlot slot { sl with finished := none }
        { k1 with
          loop := k1.loop.map fun l => { l with
            flags := l.flags ||| it.flags, committed := l.committed + 1, carries := withCarries l.record l.carries it.cout, ended := stop,
            commitAt := s.tick + 1 } }
      if stop then s1.squashFrom n (lp.committed + 1) lp.slots.length else s1.proveNext n
    | _, _ => s

/-- PROOF_COMMIT: the oldest uncommitted iteration, confirmed and past its end, commits (R294, R295); one that is not confirmed
yet, since an access of its compare had to wait, is compared again. -/
def execProofCommit (n : Nat) (s : State) : Host.Outcome State Fault Refusal :=
  .next <|
    match s.jobs[n]? with
    | none => s
    | some j =>
      match j.loop with
      | none => s
      | some lp =>
        let slot := lp.committed % lp.slots.length
        if !j.moves || lp.ended then s
        else
          match ((j.slot? slot).bind (·.finished)).filter fun it => decide (it.n = lp.committed) && it.st == .confirmed with
          | none => s.proveNext n
          | some it =>
            if s.tick < lp.commitAt || s.l1Held (j.coreOf (some slot)) then s
            else
              s.loopAccess n slot (s.releaseIter n slot it.stores) fun s1 placed =>
                if placed then s1.commitIter n slot it else s

/-- PROOF_LOOP_END (R252, R292, R295): the carved bytes of every core of the group are zeroed, C takes the committed carries, PLOOP writes its
destination and retires, and C's next word issues no earlier than 128 cycles later. -/
def execProofLoopEnd (n : Nat) (s : State) : Host.Outcome State Fault Refusal :=
  .next <|
    match s.jobs[n]? with
    | none => s
    | some j =>
      match j.loop with
      | none => s
      | some lp =>
        if !lp.ended || !j.moves || s.l1HeldAny (j.core :: j.helpers) then s
        else
          let j1 := { j with
            sp := j.uncarve j.sp, spBad := unitsAfter j.spBad (j.topWindow.2 - carveBytes) carveBytes
            loop := none
            c := ({ j.c.leave with
              pc := lp.base.pc + 8, k := withCarries lp.record lp.base.k lp.carries, p := lp.base.p, h := lp.base.h
              rstack := lp.base.rstack, stamp := lp.base.stamp, fpflg := lp.flags, out := none, claim := none, skip := false
              notBefore := s.tick + 128 }).write lp.dest (BitVec.ofNat 64 lp.committed) }
          let s1 := j.helpers.foldl (fun t h => t.modCore h fun k => { k with left := j.uncarve k.left }) (s.flushGroup j)
          s1.setJob n (retireWord s.tick .c j1
            { pc := lp.base.pc, cmd := none, dest := .discard, value := BitVec.ofNat 64 lp.committed,
              reply := lp.sig.reply, tokens := lp.sig.tokens, strict := false, copy := false })

/-- What a freeze or a swap does to a loop (R298): every unconfirmed iteration is squashed. -/
def State.quiesceLoop (s : State) (n : Nat) : State :=
  match s.jobs[n]? with
  | none => s
  | some j =>
    match j.loop with
    | none => s
    | some lp =>
      let slot := lp.committed % lp.slots.length
      let keep : Bool := match j.slot? slot with
        | some sl =>
          (match sl.finished, sl.running with
           | some f, _ => f.n == lp.committed && f.st == .confirmed
           | none, some it => it.n == lp.committed && it.st == .confirmed
           | none, none => false)
        | none => false
      s.squashFrom n (if keep then lp.committed + 1 else lp.committed) lp.slots.length

end Sys2Proof.Machine
end

