-- ==== Sys2Proof/Machine/Sluice.lean ====
section
/-! DEFINITION. The Sluice commands (R200 to R204, R304 to R313) and the steps by which every command of L and S goes on,
completes or stops on a fault. -/

namespace Sys2Proof.Machine

/-! ### Operands (R184, R200) -/

def slRows (c : Cmd) : Nat := (c.ks.extractLsb' 0 22).toNat
def slVec (c : Cmd) : Nat := (c.ks.extractLsb' 32 22).toNat
/-- Bytes of an index. -/
def slWidth (r : BitVec 512) : Nat := 2 ^ (shIdxt r + 1)

/-- The fill row. -/
def slFill (r : BitVec 512) : List Byte := (List.replicate (shRowsz r / 8) (leBytes 8 (shFill r))).flatten

/-- The bag offsets a GATHP reads at issue (R203). -/
def bagOffsets (j : Job) (r : BitVec 512) : List Word :=
  (List.range (shNbag r + 1)).map fun b => BitVec.ofNat 64 (leNat (cellGetN j.sp (shBags r + 4 * b) 4))

/-- Bag offsets that do not rise to at most `n` (R203). -/
def bagsBad (l : List Word) (n : Nat) : Bool :=
  (l.zip l.tail).any (fun p => decide (p.2.toNat < p.1.toNat)) || decide (n < (l.getLastD 0).toNat)

/-- The issue of a Sluice command (R186, R200, R203). (DEDUCED, log 39.) -/
def sluiceStart (op : CopyOp) (sh : BitVec 3) (km ks kn : Src) (c : Cursor) (j : Job) (s : State) : CmdRes :=
  let r := j.shapeReg c.stream sh
  let a := c.regs.src km
  let p := c.regs.src ks
  let n := (c.regs.src kn).toNat
  let pool := op == .gathp
  let rows := (p.extractLsb' 0 22).toNat
  let vec := (p.extractLsb' 32 22).toNat
  let outRows := if pool then shNbag r else n
  let bagsOk := !pool || j.spanOk (shBags r) (4 * (shNbag r + 1))
  let bags := if pool && bagsOk then bagOffsets j r else []
  let bagUe := pool && bagsOk && unitsTouch j.spBad (shBags r) (4 * (shNbag r + 1))
  match firstCause (causeIf (shRowsz r == 0 || (pool && shPool r == 0) || p &&& 0xFFC0_0000_FFC0_0000 != 0) causeIllegal ++
      pathCauses ⟨op == .scat, some causeProtection⟩ r a ++
      causeIf (a.toNat % 8 != 0 || shStride r 0 % 8 != 0 || rows % 8 != 0 || vec % slWidth r != 0) causeMisaligned ++
      causeIf (decide (2 ^ 24 ≤ n) || !j.spanOk vec (n * slWidth r) || !j.spanOk rows (outRows * shRowsz r) ||
        !j.spanOk (shFvec r) (8 * shFvcap r) || !bagsOk || (pool && bagsOk && bagsBad bags n)) causeBound ++
      causeIf bagUe causeMemUe) with
  | some e => .res (s.raiseOwn (j.spUe none (shBags r) (4 * (shNbag r + 1))) e)
  | none =>
    .go s { Cmd.fresh c j.nextCmd op r a p (c.regs.src kn) with list := bags, spent := outRows == 0 }

/-- STRICT of the shape a Sluice word names (R204). -/
def sluiceStrict (sh : BitVec 3) (j : Job) (c : Cursor) : Bool := shStrict (j.shapeReg c.stream sh)

/-- GATH (R200, R201). -/
def execGath (h : Hdr) (d : Dest) (sh : BitVec 3) (km ks kn : Src) (s : State) : Host.Outcome State Fault Refusal :=
  cmdWord h d [km, ks, kn] km (sluiceStart .gath sh km ks kn) (sluiceStrict sh) s

/-- GATHP (R200, R203). -/
def execGathp (h : Hdr) (d : Dest) (sh : BitVec 3) (km ks kn : Src) (s : State) : Host.Outcome State Fault Refusal :=
  cmdWord h d [km, ks, kn] km (sluiceStart .gathp sh km ks kn) (sluiceStrict sh) s

/-- SCAT (R200, R202). -/
def execScat (h : Hdr) (d : Dest) (sh : BitVec 3) (km ks kn : Src) (s : State) : Host.Outcome State Fault Refusal :=
  cmdWord h d [km, ks, kn] km (sluiceStart .scat sh km ks kn) (sluiceStrict sh) s

/-! ### Lanes of rows (R202, R203) -/

/-- Lane width of an ETYPE. -/
def etWidth (et : Nat) : Nat := match et with | 0 => 32 | 1 => 16 | 2 => 32 | _ => 64

/-- Whether an ETYPE is floating point, and its format. -/
def etFmt (et : Nat) : Option Fmt := match et with | 0 => some fmtF32 | 1 => some fmtBf16 | _ => none

/-- The lanes of a row. -/
def rowLanes (et : Nat) (b : List Byte) : List Nat :=
  let n := etWidth et / 8
  (List.range (b.length / n)).map fun i => leNat ((b.drop (n * i)).take n)

/-- The bytes of lanes. -/
def laneBytes (et : Nat) (l : List Nat) : List Byte := l.flatMap fun x => leBytes (etWidth et / 8) x

/-- One lane added: one RNE rounding, or a wrap. -/
def laneAdd (et a b : Nat) : Nat × BitVec 5 :=
  match etFmt et with
  | some f => addBits f .rne a b
  | none => ((a + b) % 2 ^ etWidth et, 0)

/-- The greater (or lesser) of two lanes: VMAX and VMIN of R45, or a signed comparison. -/
def lanePick (et : Nat) (max : Bool) (a b : Nat) : Nat × BitVec 5 :=
  match etFmt et with
  | some f =>
    let (v, fl) := minMaxVal max false (decodeFloat f a) (decodeFloat f b)
    let (x, fr) := roundVal f .rne v
    (x, fl ||| fr)
  | none =>
    let x := intOf true (etWidth et) a
    let y := intOf true (etWidth et) b
    (if (if max then y < x else x < y) then a else b, 0)

/-- A lane of a sum divided by a count (R203). -/
def laneMean (et n a : Nat) : Nat × BitVec 5 :=
  match etFmt et with
  | some f =>
    let (v, fl) := exactDiv (decodeFloat f a) (valOfInt n)
    let (x, fr) := roundVal f .rne v
    (x, fl ||| fr)
  | none => (wrapInt (etWidth et) (Int.tdiv (intOf true (etWidth et) a) n), 0)

/-- Two rows joined lane by lane. -/
def rowZip (et : Nat) (f : Nat → Nat → Nat × BitVec 5) (a b : List Byte) : List Byte × BitVec 5 :=
  let l := List.zipWith f (rowLanes et a) (rowLanes et b)
  (laneBytes et (l.map Prod.fst), l.foldl (fun x p => x ||| p.2) 0)

/-- A lane as an operation leaves it: of a NaN the canonical one, with NV for a signalling one (R24). -/
def laneQuiet (et a : Nat) : Nat × BitVec 5 :=
  match etFmt et with
  | some f => let v := decodeFloat f a; if v.isNan then (f.nanBits, snanFlag v) else (a, 0)
  | none => (a, 0)

/-- The pool of a bag's rows, in element order (R203). -/
def poolRows (r : BitVec 512) (rows : List (List Byte)) : List Byte × BitVec 5 :=
  let et := shEtype r
  match rows with
  | [] => (slFill r, 0)
  | x :: t =>
    let join := if shPool r = 3 then lanePick et true else laneAdd et
    let x1 := (rowLanes et x).map (laneQuiet et)
    let s := t.foldl (fun a b => let q := rowZip et join a.1 b; (q.1, a.2 ||| q.2))
      (laneBytes et (x1.map Prod.fst), x1.foldl (fun a p => a ||| p.2) (0 : BitVec 5))
    if shPool r = 2 then
      let l := (rowLanes et s.1).map (laneMean et rows.length)
      (laneBytes et (l.map Prod.fst), l.foldl (fun a p => a ||| p.2) s.2)
    else s

/-! ### Batches (R191, R305) -/

/-- The row address of an index (R200). -/
def rowAddr (c : Cmd) (idx : Word) : Word := displace (effBase c.shape c.km) (idx.toNat * shStride c.shape 0)

/-- A row read, or the fill row with the element's fault (R200, R307). -/
def State.fetchRow (s : State) (w : Who) (c : Cmd) (idx : Word) (acq : Bool) : MRes (List Byte × BitVec 8) :=
  if shIbound c.shape ≤ idx.toNat then .ok s (slFill c.shape, causeBound)
  else
    match s.agentRead w (rowAddr c idx) (shRowsz c.shape) (shRepl c.shape && c.op == .gath) acq with
    | .ok s1 b => .ok s1 (b, 0)
    | .fault s1 e => if e = causeMemUe then .fault s1 e else .ok s1 (slFill c.shape, e)
    | .susp s1 _ _ _ => .ok s1 (slFill c.shape, causeTranslation)
    | .hold s1 q l => .hold s1 q l

/-- Counts a faulted element. -/
def Cmd.note (c : Cmd) (i : Nat) (cause : BitVec 8) : Cmd :=
  if cause = 0 then c else { c with faults := c.faults ++ [(i, cause)], count := c.count + 1 }

/-- Reads the indices of elements, as the front does before a batch's rows are placed (R305). -/
def State.readIndices (n : Nat) (c : Cmd) : List Nat → State → MRes (List Word)
  | [], s => .ok s []
  | i :: t, s =>
    (s.ownRead n (slVec c + i * slWidth c.shape) (slWidth c.shape)).bind fun s1 b =>
      (State.readIndices n c t s1).bind fun s2 l => .ok s2 (BitVec.ofNat 64 (leNat b) :: l)

/-- Fetches element `i`, of index `idx` (R200, R201, R308). With DEDUP, an index seen before gives the same fault and the same bytes: GATH copies
the output row of its first element inside the scratchpad. -/
def State.fetchElem (s : State) (w : Who) (c : Cmd) (i : Nat) (idx : Word) : MRes (List Byte × Cmd) :=
  match if shDedup c.shape then c.seen.find? (fun q => q.1 == idx) else none with
  | some q =>
    if c.op = .gath then
      (s.ownRead w.job (slRows c + q.2.1 * shRowsz c.shape) (shRowsz c.shape)).bind fun s1 b => .ok s1 (b, c.note i q.2.2.2)
    else .ok s (q.2.2.1, c.note i q.2.2.2)
  | none =>
    (s.fetchRow w c idx (shAcq c.shape && i == 0)).bind fun s1 r =>
      .ok s1 (r.1, { c.note i r.2 with seen := if shDedup c.shape then c.seen ++ [(idx, i, r.1, r.2)] else c.seen })

/-- Fetches elements in order. -/
def State.fetchElems (w : Who) : List (Nat × Word) → Cmd → State → MRes (List (List Byte) × Cmd)
  | [], c, s => .ok s ([], c)
  | q :: t, c, s =>
    (s.fetchElem w c q.1 q.2).bind fun s1 r =>
      (State.fetchElems w t r.2 s1).bind fun s2 q => .ok s2 (r.1 :: q.1, q.2)

/-- Writes the rows of a GATH batch (R201). -/
def State.gathRows (w : Who) : List (Nat × Word) → Cmd → State → MRes Cmd
  | [], c, s => .ok s c
  | q :: t, c, s =>
    (s.fetchElem w c q.1 q.2).bind fun s1 r =>
      State.gathRows w t r.2 (s1.ownWrite w.job (slRows c + q.1 * shRowsz c.shape) r.1)

/-- The elements of a bag (R203). -/
def Cmd.bag (c : Cmd) (b : Nat) : List Nat :=
  let lo := (c.list.getD b 0).toNat
  (List.range ((c.list.getD (b + 1) 0).toNat - lo)).map (lo + ·)

/-- Writes the pooled rows of a GATHP batch (R203, R309). -/
def State.poolBags (w : Who) : List (Nat × List (Nat × Word)) → Cmd → State → MRes Cmd
  | [], c, s => .ok s c
  | (b, l) :: t, c, s =>
    (State.fetchElems w l c s).bind fun s1 q =>
      let r := poolRows c.shape q.1
      State.poolBags w t { q.2 with flags := q.2.flags ||| r.2 } (s1.ownWrite w.job (slRows c + b * shRowsz c.shape) r.1)

/-- Bags with their elements' indices, of those of a batch in order. -/
def withIndices (c : Cmd) : List Nat → List Word → List (Nat × List (Nat × Word))
  | [], _ => []
  | b :: t, l =>
    let e := c.bag b
    (b, e.zip (l.take e.length)) :: withIndices c t (l.drop e.length)

/-- The snapshot of a SCAT (R202, R310): the index list and every source row. -/
def State.scatRead (s : State) (w : Who) (c : Cmd) : MRes Cmd :=
  let n := c.kn.toNat
  let k := slWidth c.shape
  (s.ownRead w.job (slVec c) (n * k)).bind fun s1 l =>
    (s1.ownRead w.job (slRows c) (n * shRowsz c.shape)).bind fun s2 b =>
      .ok s2 { c with
        read := true, snap := b
        list := (List.range n).map fun i => BitVec.ofNat 64 (leNat ((l.drop (k * i)).take k)) }

/-- The destination row updated at its home (R202, R312): every part is translated for a write, and can be reached, before any is
touched; a line held in L1 is brought up to date. -/
def State.scatRow (s : State) (w : Who) (c : Cmd) (va : Word) (row : List Byte) : MRes (BitVec 5) :=
  (s.reachAll w va row.length true).bind fun s1 l =>
    if shComb c.shape = 0 then
      (State.writeAll w (va.toNat / 2 ^ 56) true l row s1).bind fun s3 _ => .ok s3 0
    else
      (State.agentAll w 2 false false l s1).bind fun s3 old =>
        let et := shEtype c.shape
        let r := rowZip et (match shComb c.shape with
          | 1 => laneAdd et
          | 2 => lanePick et true
          | _ => lanePick et false) old row
        (State.writeAll w 2 true l r.1 s3).bind fun s4 _ => .ok s4 r.2

/-- Applies the elements of a SCAT batch in list order (R202, R310). A write to a page that a checkpoint holds, which no service can
free here (R307, R378), faults its element as a translation failure does. (DESIGN CHOICE, log 101.) -/
def State.scatRows (w : Who) : List Nat → Cmd → State → MRes Cmd
  | [], c, s => .ok s c
  | i :: t, c, s =>
    let idx := c.list.getD i 0
    if shIbound c.shape ≤ idx.toNat then State.scatRows w t (c.note i causeBound) s
    else
      let k := shRowsz c.shape
      match s.scatRow w c (rowAddr c idx) ((c.snap.drop (k * i)).take k) with
      | .ok s1 fl => State.scatRows w t { c with flags := c.flags ||| fl } s1
      | .fault s1 e => if e = causeMemUe then .fault s1 e else State.scatRows w t (c.note i e) s1
      | .susp s1 _ _ _ => State.scatRows w t (c.note i causeTranslation) s1
      | .hold s1 q l => .hold s1 q l

/-- List elements, or bags, of a Sluice command. -/
def Cmd.rows (c : Cmd) : Nat := if c.op = .gathp then shNbag c.shape else c.kn.toNat

/-- One batch of a Sluice command (R191, R305), or the read phase of a SCAT (R310). A batch's indices are read before its rows are
placed (R305), and after the batches before it are done (R312; DESIGN CHOICE, log 102). ACQ of a SCAT acts before its first read and again with
element 0's; REL of a SCAT acts before each batch that writes a row: before its last element that does not fault, and not at all
where all do (R189). (DESIGN CHOICE, log 102.) -/
def State.runBatch (s : State) (w : Who) (c : Cmd) : MRes Cmd :=
  let l := (List.range (min 64 (c.rows - 64 * c.prog))).map (64 * c.prog + ·)
  let last := decide (c.rows ≤ 64 * (c.prog + 1))
  let next (s1 : State) (c1 : Cmd) : MRes Cmd := .ok s1 { c1 with prog := c.prog + 1, spent := last }
  match c.op with
  | .scat =>
    if !c.read then (s.cmdOrder w c.shape true false).scatRead w c
    else
      let s0 := s.cmdOrder w c.shape (c.prog == 0) false
      (State.scatRows w l c s0).bind fun s1 c1 =>
        if shRel c.shape && decide (c1.count < c.count + l.length) then
          (State.scatRows w l c (s0.cmdOrder w c.shape false true)).bind next
        else next s1 c1
  | .gathp =>
    (State.readIndices w.job c (l.flatMap c.bag) (s.cmdOrder w c.shape (c.prog == 0) last)).bind fun s1 x =>
      (State.poolBags w (withIndices c l x) { c with seen := [] } s1).bind next
  | _ =>
    (State.readIndices w.job c l (s.cmdOrder w c.shape (c.prog == 0) last)).bind fun s1 x =>
      (State.gathRows w (l.zip x) c s1).bind next

/-! ### The steps of commands -/

/-- Whether a command is a copy that goes by segments, a Sluice command, or a walk of lines. -/
def CopyOp.isSluice : CopyOp → Bool
  | .gath | .gathp | .scat => true
  | .cpy | .cpyo | .cpyoAppend | .cpyc | .pref _ | .cflush _ => false

@[inherit_doc CopyOp.isSluice]
def CopyOp.isWalk : CopyOp → Bool
  | .pref _ | .cflush _ => true
  | .cpy | .cpyo | .cpyoAppend | .cpyc | .gath | .gathp | .scat => false

/-- The agent a command is. -/
def Cmd.who (n : Nat) (j : Job) (c : Cmd) : Who := { whoOf n j c.stream none c.pc with engine := c.op.isSluice }

/-- The next unit of a command's work. -/
def State.runUnit (s : State) (n : Nat) (j : Job) (c : Cmd) : MRes Cmd :=
  if c.op.isSluice then s.runBatch (c.who n j) c else s.runSegment (c.who n j) c

/-- Whether a command waits: the job is suspended on its access (R242, R376), or, of a Sluice command, an older one of the front has
batches left to serve (R311). -/
def Job.cmdHeld (j : Job) (c : Cmd) : Bool :=
  (match j.susp with
   | some f => f.stream == c.stream && f.tpc == c.pc && f.slot.isNone
   | none => false) ||
    (c.op.isSluice && j.cmds.any fun d =>
      d.op.isSluice && decide (d.id < c.id) && !d.spent && !d.done && !d.stopped)

/-- Whether a command has a unit of work to do. -/
def Cmd.works (c : Cmd) : Bool := !c.spent && !c.done && !c.stopped && !c.op.isWalk

/-- Does the next unit of a command's work, where nothing stops it; a translation failure of a copy in a job not in a timed
launch suspends the job (R188, R375). -/
def State.stepCmd (s : State) (n id : Nat) : State :=
  match s.jobs[n]? with
  | none => s
  | some j =>
    match j.cmd? id with
    | none => s
    | some c =>
      if !j.enginesMove || !c.works || j.cmdHeld c then s
      else
        let w := c.who n j
        match s.runUnit n j c with
        | .ok s1 c1 => s1.setCmd n c1
        | .fault _ _ => s
        | .susp s1 va k l =>
          if j.timed then s else (s.keepWalks w s1).suspendJob n ⟨va, k, l, j.core, c.stream, c.pc, none, false⟩
        | .hold s1 q _ => let t := s.keepWalks w s1; { t with cxl := t.cxl ++ q.toList }

/-- A copy completes one segment. -/
def State.copySegment (s : State) (n id : Nat) : State :=
  match (s.jobs[n]?).bind fun j => j.cmd? id with
  | some c => if c.op.isSluice then s else s.stepCmd n id
  | none => s

/-- SLUICE_BATCH (R305 to R312): one batch of a Sluice command. -/
def execSluiceBatch (n id : Nat) (s : State) : Host.Outcome State Fault Refusal :=
  .next (match (s.jobs[n]?).bind fun j => j.cmd? id with
    | some c => if c.op.isSluice then s.stepCmd n id else s
    | none => s)

/-- The fault vector of the elements counted so far: entries while they fit, the rest into the overflow count (R200,
R313). -/
def Job.putFaults (j : Job) (c : Cmd) : Job :=
  if !c.op.isSluice then j
  else
    let cap := shFvcap c.shape
    let bytes := (c.faults.take cap).flatMap fun f => leBytes 8 (f.1 % 2 ^ 32 + f.2.toNat * 2 ^ 32)
    let j1 := j.spPut (shFvec c.shape) bytes
    { j1 with overflow := j1.overflow + BitVec.ofNat 64 (c.faults.length - cap) }

/-- COMMAND_COMPLETE (R185, R197, R198, R204): once the lines of host memory that PREF needs have been answered for, its walk of lines where that is its work, its fault vector, its exceptions,
its count; then the retires that waited for it. -/
def execCommandComplete (n id : Nat) (s : State) : Host.Outcome State Fault Refusal :=
  .next (match s.jobs[n]? with
    | none => s
    | some j =>
      match j.cmd? id with
      | none => s
      | some c =>
        let asks := s.prefAsks (c.who n j) c
        if !c.spent || c.done || c.stopped || !(j.enginesMove || (j.drains && c.op.isWalk)) then s
        else if !asks.isEmpty then { s with cxl := s.cxl ++ (asks.filterMap fun q => q).dedup }
        else
          let r := if c.op.isWalk then s.walkAll (c.who n j) c else (s, c.count)
          (r.1.modJob n fun k =>
            let k1 := (k.putFaults c).setCmd { c with done := true, count := r.2 }
            k1.setStream c.stream
              ((setEntryValue (k1.stream c.stream) id (BitVec.ofNat 64 r.2)).orFlags c.flags)).settle n)

/-- COMMAND_ASYNC_FAULT (R188, R313): the command stops at the end of its last completed unit, all of whose bytes are written, and
raises the cause. -/
def execCommandAsyncFault (n id : Nat) (s : State) : Host.Outcome State Fault Refusal :=
  .next (match s.jobs[n]? with
    | none => s
    | some j =>
      match j.cmd? id with
      | none => s
      | some c =>
        if !j.enginesMove || !c.works || j.cmdHeld c then s
        else
          let w := c.who n j
          let stop (s1 : State) (cause : BitVec 8) : State :=
            let t := { (s.keepWalks w s1) with ueAt := s1.ueAt }.flushCmd w c
            (t.modJob n fun k => (k.putFaults c).setCmd { c with stopped := true, held := [], fore := [] }).asyncTrap n c.stream
              ⟨cause, c.pc, 0, asyncInfo c.prog⟩
          match s.runUnit n j c with
          | .fault s1 e => stop s1 e
          | .susp s1 _ _ _ => if j.timed then stop s1 causeTranslation else s
          | _ => s)

end Sys2Proof.Machine
end

