-- ==== Sys2Proof/Machine/Schedule.lean ====
section
/-! DEFINITION. Time-slicing, context swaps, urgent pre-emption, bank preloads and L1 fusion (R224, R251, R263, R349 to R354,
R359 to R367). -/

namespace Sys2Proof.Machine

/-! ### Time-slicing (R351, R420) -/

/-- Whether a team has work under way that no swap has yet been decided for. -/
def State.unswapped (s : State) (q : Team) : Bool :=
  q.phase == .resident && q.jobs.all fun n =>
    match s.jobs[n]? with
    | some j => j.swapAt.isNone && !j.draining
    | none => true

/-- Whether a core holds a team that is being swapped out. -/
def State.leaving (s : State) (c : Nat) : Bool :=
  match (s.core c).holder.bind fun n => s.jobs[n]? with
  | some j => j.swapAt.isSome || j.draining
  | none => false

/-- The jobs of the next team of a launch that need cores: of a swapped team those that have not retired (R351, R366). -/
def State.nextJobs (s : State) (l : Launch) : Nat :=
  match l.nextRun.bind fun t => l.teams.find? fun q => q.index == t && q.phase == .swapped with
  | some q => (q.jobs.filter fun n => match s.jobs[n]? with | some j => j.phase == .swapped | none => false).length
  | none => lrTeam l.record

/-- Whether the next team of a launch waits for cores: it does not fit on those that are free or about to be (R351). -/
def State.waitsForCores (s : State) (p : Part) (o : Launch) : Bool :=
  o.wants && decide (groupsIn p.stops (1 + lrProof o.record)
    ((s.partCores p).filter fun c => s.mayTake p o c || (s.leaving c && !(p.reserved.contains c))) < s.nextJobs o)

/-- Whether a team of a best-effort launch has been resident for the quantum while another waits for cores, or a core of it is
failing (R351, R420). -/
def State.sliceDue (s : State) (p : Part) (l : Launch) (q : Team) : Bool :=
  lrClass l.record == 0 && s.unswapped q && decide (q.since + p.quantum ≤ s.tick) &&
    ((p.launches.any fun o => lrClass o.record == 0 && s.waitsForCores p o &&
        (o.seq == l.seq || decide (lrPrio l.record ≤ lrPrio o.record))) ||
      q.jobs.any fun n =>
        match s.jobs[n]? with
        | some j => j.phase == .running && (j.core :: j.helpers).any fun c => (s.core c).failing
        | none => false)

/-- QUANTUM_EXPIRY (R351): the team, the longest resident of those due, is to be swapped out. -/
def execQuantumExpiry (part : Nat) (seq : Word) (team : Nat) (s : State) : Host.Outcome State Fault Refusal :=
  .next (match s.parts[part]?, s.launch? part seq with
    | some p, some l =>
      match l.teams.find? fun q => q.index == team with
      | none => s
      | some q =>
        let older := p.launches.any fun o => o.teams.any fun z => s.sliceDue p o z && decide (z.since < q.since)
        if s.sliceDue p l q && !older then s.decideSwap q.jobs else s
    | _, _ => s)

/-- The swaps that R351 makes due in a partition now. Fuel bounds them. (DEDUCED, log 103.) -/
def State.quantumDue (part : Nat) : Nat → State → State
  | 0, s => s
  | f + 1, s =>
    match s.parts[part]? with
    | none => s
    | some p =>
      match p.launches.flatMap fun l => (l.teams.filter (s.sliceDue p l)).map fun q => (q.since, l.seq, q.index) with
      | [] => s
      | d :: t =>
        let m := t.foldl (fun a b => if b.1 < a.1 then b else a) d
        State.quantumDue part f (stateOf s (execQuantumExpiry part m.2.1 m.2.2 s))

/-- SWAP_WINDOW_EXPIRY (R224): the swap of a job takes effect at the end of its window. -/
def execSwapWindowExpiry (n : Nat) (s : State) : Host.Outcome State Fault Refusal :=
  .next (match s.jobs[n]? with
    | none => s
    | some j =>
      match j.swapAt with
      | some t =>
        if j.phase == .running && decide (t ≤ s.tick) then s.setJob n { j with swapAt := none, draining := true } else s
      | none => s)

/-! ### Swapping out (R359, R364, R365) -/

/-- Whether a stream of a job, or what stands over C's next word, holds a claimed slot of an Inlet (R336). -/
def Job.claims (j : Job) : Bool :=
  [StreamId.c, .l, .v, .m, .s].any (fun x => (j.stream x).claim.isSome) ||
    (match j.handler with | some hd => hd.claim.isSome | none => false) ||
    (match j.loop with | some lp => lp.slots.any fun sl => sl.regs.claim.isSome | none => false)

/-- Whether every row of the drain of job `n` has reached its boundary (R359): copies and batches stop between units, all of whose
bytes are written, the LME between K steps, PREF and CFLUSH have ended, and every word that has issued is complete. -/
def State.drained (s : State) (n : Nat) (j : Job) : Bool :=
  j.lmeStill && (j.cmds.all fun c => c.done || c.stopped || (!c.op.isWalk && c.held.isEmpty)) && j.waits.isEmpty && !j.awaits && !j.claims &&
    !(s.cxl.any fun q => decide (q.job = n) && !q.done && !q.posted)

/-- The copies of a job stand at their boundary: what their last segments have left is written (R191, R359). -/
def State.flushCmds (s : State) (n : Nat) : State :=
  match s.jobs[n]? with
  | none => s
  | some j => j.cmds.foldl (fun t c => if c.held.isEmpty && c.fore.isEmpty then t else t.flushCmd (c.who n j) c) s

/-- Whether region `r` of a map is marked (R222). -/
def marked (m : BitVec 1024) (r : Nat) : Bool := m.getLsbD r

/-- The tiles a swap discards: those declared discardable and those outside TILES, of the tiles the job has (R162, R331,
R364). (DEDUCED, log 80.) -/
def Job.lostTiles (urgentClass : Bool) (j : Job) : List (Fin 4) :=
  (List.finRange 4).filter fun t =>
    (t.val < 3 || !urgentClass) && ((j.tiles.get t).disc || !(j.mem.tiles.getLsbD t.val))

/-- Whether slot `i` of a layout has a byte in a discarded region of the table store (R365). -/
def slotLost (m : BitVec 1024) (k : Nat) (w : Word) (i : Nat) : Bool :=
  let n := laySlotBytes k w
  let lo := layBase w + n * i
  decide (0 < n) && (List.range ((lo + n - 1) / 4096 - lo / 4096 + 1)).any fun d => marked m (768 + lo / 4096 + d)

/-- What a swap leaves of the marked regions and the discarded tiles (R365): they read zero, slots with a byte there are
invalid, the lost map and SSTAT.DISCARDED say so. -/
def Job.discard (urgentClass : Bool) (j : Job) : Job :=
  let m := j.discmap
  let gone := j.lostTiles urgentClass
  let inTile (row : Nat) : Bool := gone.any fun t => t.val == row / 32
  { j with
    sp := j.sp.filter fun c => !marked m (c.1 / 4096)
    ts := j.ts.filter fun c => !marked m (768 + c.1 / 4096)
    spBad := j.spBad.filter fun u => !marked m (u / 512)
    tsBad := j.tsBad.filter fun u => !marked m (768 + u / 512)
    v := Vector.ofFn fun i : Fin 128 => if inTile i.val then 0 else j.v.get i
    tileBad := j.tileBad.filter fun b => !inTile b.1
    layouts := j.layouts.map fun l =>
      { l with slots := l.slots.filter fun q => !slotLost m (j.books.get (layCb l.word).toFin).k l.word q.1 }
    lost := j.lost ||| m
    discarded := j.discarded || m != 0 || !gone.isEmpty }

/-- Feed buffers are emptied, their positions kept (R359). -/
def Job.emptyFeeds (j : Job) : Job := { j with feeds := j.feeds.map fun f => f.map fun q => { q with buf := [] } }

/-- Instruction rings are not kept across a swap (R364). -/
def StreamSt.emptyRing (t : StreamSt) : StreamSt := { t with ring := [] }

/-- A job as its save area holds it (R364). -/
def Job.saved (urgentClass : Bool) (j : Job) : Job :=
  let k := (j.discard urgentClass).emptyFeeds
  { k with
    phase := .swapped, draining := false, victim := false, swapAt := none, helpers := []
    c := k.c.emptyRing, l := k.l.emptyRing, vs := k.vs.emptyRing, m := k.m.emptyRing, s := k.s.emptyRing
    loop := k.loop.map fun lp => { lp with slots := lp.slots.map fun sl => { sl with regs := sl.regs.emptyRing } } }

/-- SWAP_OUT_SAVE (R363, R364): the drain has ended; the L1 goes home, the state is saved and the core is free. -/
def execSwapOutSave (n : Nat) (s : State) : Host.Outcome State Fault Refusal :=
  .next (match s.jobs[n]? with
    | none => s
    | some j =>
      if j.phase != .running || !j.draining then s
      else
        let s0 := s.flushCmds n
        match s0.jobs[n]? with
        | none => s
        | some j0 =>
        if !s0.drained n j0 || s0.l1HeldAny (j.core :: j.helpers) then s0
        else
        let s1 := (s0.quiesceLoop n).l1FlushAll (j.core :: j.helpers)
        match s1.jobs[n]? with
        | none => s
        | some k =>
          let urgentClass := match s.parts[j.mem.part]? with | some p => p.urgent | none => false
          ((s1.freeCore n k).setJob n (k.saved urgentClass)).teamSwapped k)

/-- A swap that has to be over by now (R346, R352): what drains whole ends, and the job is saved. (DEDUCED, log 103.) -/
def State.swapDue (s : State) (n : Nat) : State :=
  match s.jobs[n]? with
  | none => s
  | some j =>
    if j.phase != .running || !j.draining || decide (s.tick + 1 < j.swapBy) then s
    else
      let s1 := stateOf s (execLmeCommandComplete n s)
      let s2 := stateOf s1 (execLmeAsyncFault n s1)
      let s3 := j.cmds.foldl (fun t c => if c.op.isWalk then stateOf t (execCommandComplete n c.id t) else t) s2
      stateOf s3 (execSwapOutSave n s3)

/-! ### Restoring a team (R366) -/

/-- A slot of a loop on the core its number now has (R298). -/
def Loop.reseat (lp : Loop) (cores : List Nat) : Loop :=
  { lp with slots := ((List.range lp.slots.length).zip lp.slots).map fun q => { q.2 with core := cores.getD q.1 q.2.core } }

/-- A swapped job on its new core and helpers, its streams free from the next cycle on (R366). -/
def Job.restored (now : Nat) (g : List Nat) (j : Job) : Job :=
  let k := { j with
    phase := .running, core := g.headD 0, helpers := g.drop 1, loop := j.loop.map fun (lp : Loop) => lp.reseat g }
  k.resumeAll now

/-- The traps met in a drain are taken in the cycle the job resumes, the next one, in the order they were met: a second one finds a
handler, and aborts (R226, R239, R359). -/
def State.takePending (s : State) (n : Nat) : State :=
  match s.jobs[n]? with
  | none => s
  | some j =>
    { (j.pendTrap.foldl (fun t p =>
        match t.jobs[n]? with
        | some k => if k.phase = .running then t.takeTrap n p.1 none p.2 else t
        | none => t) { (s.setJob n { j with pendTrap := [] }) with tick := s.tick + 1 }) with tick := s.tick }

/-- The replicas of a launch that stand in the stops of some cores are dropped: what a job that comes there has read elsewhere may be
newer (R265). -/
def State.dropReplicas (s : State) (part : Nat) (seq : Word) (cores : List Nat) : State :=
  { s with replicas := s.replicas.filter fun r =>
      !(decide (r.part = part) && r.seq == seq && cores.any fun c => stopOf c == r.stop) }

/-- TEAM_RESTORE (R351, R366): a swapped team, next in its launch's order, is restored whole, its rings filled; its jobs resume
together. -/
def execTeamRestore (part : Nat) (seq : Word) (team : Nat) (cores : List Nat) (s : State) :
    Host.Outcome State Fault Refusal :=
  .next (match s.parts[part]?, s.launch? part seq with
    | some p, some l =>
      match l.teams.find? fun q => q.index == team with
      | none => s
      | some q =>
        let back := q.jobs.filter fun n => match s.jobs[n]? with | some j => j.phase == .swapped | none => false
        if p.resetting || q.phase != .swapped || l.nextRun != some team || !p.heads l ||
            !placementOk (s.mayTake p l) (lrProof l.record) back.length cores || s.l1HeldAny cores then s
        else
          let seats := back.zip (pieces (1 + lrProof l.record) 96 cores)
          let s1 := seats.foldl (fun t z =>
            match t.jobs[z.1]? with
            | none => t
            | some j =>
              let k := j.restored s.tick z.2
              ((t.setJob z.1 k).seatJob z.1 k).begins z.1) s
          let s2 := (back.foldl State.loadRings (s1.dropReplicas part seq cores)).modLaunch part seq fun o =>
            { o.modTeam team (fun z => { z with phase := .resident, since := s.tick }) with queue := o.queue.filter (· ≠ team) }
          back.foldl State.takePending s2
    | _, _ => s)

/-- The best-effort dispatches due in a partition now: the launch at the head of the order takes cores as soon as its next team, new,
rerun or swapped, fits (R345, R351, R352). Fuel bounds the teams. (DEDUCED, log 103.) -/
def State.bestDue (part : Nat) : Nat → State → State
  | 0, s => s
  | f + 1, s =>
    match s.parts[part]? with
    | none => s
    | some p =>
      match p.launches.find? fun l => lrClass l.record == 0 && l.wants && p.heads l with
      | none => s
      | some l =>
        match l.nextRun with
        | none => s
        | some t =>
          let s1 := if l.teams.any fun q => q.index == t && q.phase == .swapped then
              stateOf s (execTeamRestore part l.seq t (pickCores l (s.nextJobs l) (s.offered p l t)) s)
            else s.dispatchNext part p l (s.tick + 1)
          if s1.launch? part l.seq = some l then s1 else State.bestDue part f s1

/-! ### Urgent pre-emption (R349, R360 to R363) -/

/-- Whether an urgent job may take a core: it has a free urgent partition, is not reserved, and the job that holds it, if any, itself
or as a helper, is not timed and not being swapped out (R349, R363). (DEDUCED, log 81.) -/
def State.mayPreempt (s : State) (p : Part) (c : Nat) : Bool :=
  (s.partCores p).contains c && !(s.core c).failing && !s.heldUrgent c && !(p.reserved.contains c) &&
    match (s.core c).holder.bind fun n => s.jobs[n]? with
    | none => true
    | some j => !j.timed && !j.draining

/-- Whether the helpers of an urgent placement lie on cores that help no other job. (DEDUCED, log 81.) -/
def State.helpersFree (s : State) (proof : Nat) (cores : List Nat) : Bool :=
  (pieces (1 + proof) 96 cores).all fun g => (g.drop 1).all fun c => (s.core c).helper.isNone

/-- Freezes the job that holds a core (R359, R360). -/
def State.freeze (s : State) (c : Nat) : State :=
  match (s.core c).holder with
  | none => s
  | some n => ((s.flushCmds n).quiesceLoop n).modJob n fun j => { j.emptyFeeds with victim := true }

/-- URGENT_PLACE (R349, R350, R360): every job of an urgent team is placed at once, JSTART at least 64 cycles on; the normal
jobs of its cores are frozen. -/
def execUrgentPlace (part : Nat) (seq : Word) (cores : List Nat) (jstart : Nat) (s : State) :
    Host.Outcome State Fault Refusal :=
  .next (match s.parts[part]?, s.launch? part seq with
    | some p, some l =>
      match l.nextRun with
      | none => s
      | some t =>
        if p.resetting || !l.wants || lrClass l.record != 2 || !p.heads l || decide (jstart < s.tick + 64) ||
            !placementOk (s.mayPreempt p) (lrProof l.record) (lrTeam l.record) cores || !s.helpersFree (lrProof l.record) cores ||
            !s.rerunCoresOk p l t cores then s
        else s.startLaunch part l fun s1 l1 => (cores.foldl State.freeze s1).placeTeam p part l1 t cores jstart
    | _, _ => s)

/-- Whether an urgent job waits for a core: a launch that comes next in its class could be placed, and could take it (R362). (DEDUCED, log 81.) -/
def State.urgentWaits (s : State) (c : Nat) : Bool :=
  s.parts.any fun p => s.mayPreempt p c && p.launches.any fun l =>
    lrClass l.record == 2 && l.wants && p.heads l &&
      decide (lrTeam l.record ≤ groupsIn p.stops (1 + lrProof l.record) ((s.partCores p).filter (s.mayPreempt p)))

/-- VICTIM_RESUME (R359, R362): once no urgent job is on the cores of a frozen job, or waits for one, it goes on. -/
def execVictimResume (core : Nat) (s : State) : Host.Outcome State Fault Refusal :=
  .next (
    match (s.core core).holder with
    | none => s
    | some n =>
      match s.jobs[n]? with
      | none => s
      | some j =>
        if !j.victim || (j.core :: j.helpers).any (fun c => s.heldUrgent c || s.urgentWaits c) then s
        else ((s.setJob n ({ j with victim := false }.resumeAll s.tick)).begins n).takePending n)

/-- Every frozen job whose cores no urgent job holds or waits for goes on in the next cycle (R362). -/
def State.resumeDue (s : State) : State :=
  (List.range 96).foldl (fun t c => stateOf t (execVictimResume c t)) s

/-! ### Preloads in bank mode (R251, R354) -/

/-- The ring fill of a job, stream by stream; an absent stream has none (R230, R251). -/
def State.fillRings (w : Who) (r : BitVec 2048) : List Nat → State → State × List (List (Word × Word))
  | [], s => (s, [])
  | x :: t, s =>
    let a := if lrEntry r x = 0xFFFF_FFFF then (s, []) else State.fillRing w ringWords (lrCode r + BitVec.ofNat 64 (lrEntry r x)) [] s
    let b := State.fillRings w r t a.1
    (b.1, a.2 :: b.2)

/-- BANK_PRELOAD (R251, R354): the job that runs next on a core, its scratchpad image and its ring fill, is written into the core's
idle bank while the current job runs. -/
def execBankPreload (part : Nat) (seq : Word) (core lin : Nat) (s : State) : Host.Outcome State Fault Refusal :=
  .next (match s.parts[part]?, s.launch? part seq with
    | some p, some l =>
      match (s.core core).normal.bind fun n => s.jobs[n]? with
      | none => s
      | some j =>
        match j.bank with
        | none => s
        | some b =>
          if !(p.stops.contains (stopOf core)) || !lrBank l.record || lrClass l.record == 2 || !l.wants ||
              (s.core core).preload.isSome || l.nextRun != some (lin / lrTeam l.record) || !l.queue.isEmpty then s
          else
            let w : Who := { luWho part (lrCtx l.record) seq with core := core }
            let r := State.fillRings w l.record [0, 1, 2, 3, 4] s
            r.1.modCore core fun k => { k with preload := some ⟨part, seq, lin, !b, some preloadImage, r.2.map List.reverse⟩ }
    | _, _ => s)

/-! ### L1 fusion (R263) -/

/-- L1_FUSION_CHANGE (R263): every L1 of the stop writes back and is emptied, and the stop is fused or not as its jobs now
ask. -/
def execL1FusionChange (stop : Nat) (fuse : Bool) (s : State) : Host.Outcome State Fault Refusal :=
  .next (
    if s.fusionWanted stop != fuse || (s.core (8 * stop)).fused == fuse || s.l1HeldAny ((List.range 8).map (8 * stop + ·)) then s
    else (List.range 8).foldl (fun t i =>
      (t.l1Flush (8 * stop + i)).modCore (8 * stop + i) fun k => { k with fused := fuse }) s)

end Sys2Proof.Machine
end

