-- ==== Sys2Proof/Machine/Errors.lean ====
section
/-! DEFINITION. Errors arriving and corrected, the patrol scrub, frames and cores taken out of service, links, and the reset
of a partition (R412 to R422). -/

namespace Sys2Proof.Machine

/-! ### Errors arriving (R412 to R414) -/

/-- A line of device memory becomes uncorrectable as a whole, with nothing of it rewritten since (R413). -/
def State.upsetMem (s : State) (line : Nat) : State :=
  { s with
    memBad := (line, 0) :: s.memBad.filter fun p => p.1 ≠ line
    badLines := line :: s.badLines.filter (· ≠ line) }

/-- An uncorrectable unit among the others (R413). -/
def upset (unit : Nat) (bad : List Nat) : List Nat := unit :: bad.filter (· ≠ unit)

/-- A unit of a job's scratchpad becomes uncorrectable (R248). -/
def State.upsetScratch (s : State) (n unit : Nat) : State :=
  s.modJob n fun j => { j with spBad := upset unit j.spBad }

/-- A unit of a job's table store fails parity (R255). -/
def State.upsetTable (s : State) (n unit : Nat) : State :=
  s.modJob n fun j => { j with tsBad := upset unit j.tsBad }

/-- A unit of a proof slot's private area becomes uncorrectable (R248, R291). -/
def State.upsetPrivate (s : State) (n slot unit : Nat) : State :=
  s.modJob n fun j =>
    match j.slot? slot with
    | none => j
    | some sl => j.setSlot slot { sl with privBad := upset unit sl.privBad }

/-- A unit of a tile row becomes uncorrectable (R256). -/
def State.upsetTile (s : State) (n row unit : Nat) : State :=
  s.modJob n fun j => { j with tileBad := (row, unit) :: j.tileBad.filter (· ≠ (row, unit)) }

/-- A word of an instruction ring, a helper slot's among them, becomes uncorrectable: it is fetched again when it is needed (R412). -/
def State.upsetRing (s : State) (n : Nat) (x : StreamId) (slot : Option Nat) (a : Word) : State :=
  s.modRegs n x slot fun t => { t with ring := t.ring.filter fun p => p.1 ≠ a }

/-- The next word a stream or slot issues: the one at its PC, or, where TRET.next's skip is pending, the one after that bundle
(R227, R414). -/
def StreamSt.nextWord (t : StreamSt) (x : StreamId) : Word :=
  if t.skip then
    match bundleAt t x 4 t.pc with
    | .inl l => t.pc + 8 * BitVec.ofNat 64 l.length
    | .inr _ => t.pc + 8
  else t.pc

/-- The register state of a stream, or of a helper slot's C, becomes uncorrectable: the job is aborted at once, no handler runs, and
the core that has it is failing (R414, R420). -/
def State.upsetRegs (s : State) (n : Nat) (x : StreamId) (slot : Option Nat) : State :=
  match s.jobs[n]? with
  | none => s
  | some j =>
    if j.phase != .running then s
    else
      let core := j.coreOf slot
      let s1 := s.logError { ErrRec.blank with
        kind := 2, unit := 7, seq := j.mem.seq, ctx := j.mem.ctx, core := core, stop := stopOf core, cause := causeMemUe
        syn := (Config.freeWord s.free).toNat }
      ({ s1 with free := s.free + 1 }.modCore core fun k => { k with failing := true }).abortAt n core x
        ⟨causeMemUe, (j.regs x slot).nextWord x, 0, asyncInfo 0⟩

/-- A corrected error, or a retry of a link: it is counted; the sixteenth of one unit in 24 hours is logged (R412, R416). `place` is the
physical address of the line for device memory, whose errors count by frame; a core, for a core's own stores; else a stop. -/
def State.countCorrected (s : State) (unit place : Nat) : State :=
  let where' := if unit = 8 then place / 2 ^ 16 else place
  let s1 := { s with corrected := (unit, where', s.tick) :: s.corrected }
  if s1.correctedAt unit where' = 16 then
    s1.logError { ErrRec.blank with
      kind := 1, unit := unit, addr := if unit = 8 then lineOf place * 64 else 0
      core := if unit ≤ 7 then place else 0xFF
      stop := if unit = 8 then (s.homeOf place).getD 0xFF else if unit ≤ 7 then stopOf place else place }
  else s1

/-! ### Copies let go -/

/-- A stop's translation state, and that of its cores, is evicted (R374). -/
def State.evictTlb (s : State) (stop : Nat) : State :=
  (List.range 8).foldl (fun t i => t.modCore (8 * stop + i) fun k => { k with tlb := [] })
    (s.modStop stop fun _ => ⟨[], [], []⟩)

/-- An L1 lets a line go, writing its dirty bytes home (R262). -/
def State.evictLine (s : State) (core line : Nat) : State :=
  match (s.core core).l1.find? fun l => l.line == line with
  | none => s
  | some l => (s.writeBackLine l).modCore core fun k => { k with l1 := k.l1.filter fun q => q.line ≠ line }

/-- The replicas of a line in a stop are evicted (R265). -/
def State.evictReplica (s : State) (stop line : Nat) : State :=
  { s with replicas := s.replicas.filter fun r => !(decide (r.stop = stop) && decide (r.line = line)) }

/-! ### Scrub, frames and cores (R418 to R420) -/

/-- The Crust writes the configuration record and signs it; the one before it, where its signature held, is the last good copy (R430). (DESIGN CHOICE, log 105.) -/
def Flash.rewrite (f : Flash) (r : Record) : Flash :=
  { f with record := r, good := if f.damaged then f.good else f.record, damaged := false }

/-- Changes the configuration record. -/
def State.setRecord (s : State) (r : Record) : State := { s with flash := s.flash.rewrite r }

/-- PATROL_SCRUB (R418): an uncorrectable line found is logged and left as it is. -/
def execPatrolScrub (line : Nat) (s : State) : Host.Outcome State Fault Refusal :=
  .next (
    if s.memBad.any fun p => p.1 == line then
      { s with free := s.free + 1 }.logError { ErrRec.blank with
        kind := 3, unit := 8, addr := 64 * line, stop := (s.homeOf (64 * line)).getD 0xFF, syn := (Config.freeWord s.free).toNat }
    else s)

/-- Whether the Crumb retires a frame: an uncorrectable error in it, or 16 corrected errors in 24 hours (R419). -/
def State.frameFails (s : State) (frame : Nat) : Bool :=
  (s.badLines.any fun l => decide (l / 1024 = frame)) || decide (16 ≤ s.correctedAt 8 frame)

/-- The stop whose package a frame is retired in: the home of the line that fails in it, or, in no partition, the stop whose package
has its address; none for an address that is no frame in use. (DEDUCED, log 83.) -/
def State.frameStop (s : State) (frame : Nat) : Option Nat :=
  let pa := ((s.badLines.find? fun l => decide (l / 1024 = frame)).map (64 * ·)).getD (frame * 2 ^ 16)
  match s.homeOf pa with
  | some t => some t
  | none =>
    if frame * 2 ^ 16 % Config.packageBytes < Config.packageBytes - Config.spareBytes then some (frame / Config.packageFrames) else none

/-- Whether the Crumb instance that would retire a frame is being replaced (R432). -/
def State.retireHeld (s : State) (frame : Nat) : Bool :=
  match s.ownerOf (frame * 2 ^ 16) with
  | some part => s.crumbDown part
  | none => false

/-- A frame's errors no longer count against its address: another frame stands there, or none (R419). -/
def State.forgetFrame (s : State) (frame : Nat) : State :=
  { s with
    badLines := s.badLines.filter fun l => decide (l / 1024 ≠ frame)
    corrected := s.corrected.filter fun q => !(decide (q.1 = 8) && decide (q.2.1 = frame)) }

/-- FRAME_RETIRE (R419, R430): the frame moves to a spare of its package, at the same address, its uncorrectable lines with it; with
the reserve empty it is retired without one. -/
def execFrameRetire (frame : Nat) (s : State) : Host.Outcome State Fault Refusal :=
  .next (
    if !s.frameFails frame || s.retireHeld frame || s.flash.retired.contains frame then s
    else
      match s.frameStop frame with
      | none => s
      | some pkg =>
        if h : pkg < 12 then
          let used := s.nextSpare[pkg]
          let rec' : ErrRec := { ErrRec.blank with kind := 5, unit := 8, addr := frame * 2 ^ 16, stop := pkg }
          let s0 := s.forgetFrame frame
          if used < Config.spareFrames then
            let spare := (pkg + 1) * Config.packageFrames - Config.spareFrames + used
            ({ s0 with nextSpare := s.nextSpare.set pkg (used + 1) }.setRecord
              { s.flash.record with remap := (frame, spare) :: s.flash.remap.filter fun q => q.1 ≠ frame }).logError
                { rec' with kind := 4, detail := BitVec.ofNat 64 spare }
          else (s0.setRecord { s.flash.record with retired := frame :: s.flash.retired }).logError rec'
        else s)

/-- A waiting launch whose team no longer fits its partition ends with FAULT (R420). -/
def State.dropUnfit (s : State) (part : Nat) : State :=
  match s.parts[part]? with
  | none => s
  | some p =>
    let cores := s.partCores p
    s.modPart part fun q =>
      { q with launches := q.launches.map fun l =>
          if (l.phase == .waiting || l.phase == .ready) &&
              (decide (cores.length < lrTeamCores l.record) ||
                decide (groupsIn p.stops (1 + lrProof l.record) cores < lrTeam l.record)) then l.close 1 0
          else l }

/-- The partition a core belongs to. -/
def State.partOfCore (s : State) (core : Nat) : Option Nat := s.parts.findIdx? fun p => p.stops.contains (stopOf core)

/-- SPARE_CORE_SUBSTITUTE (R10, R420, R430): a failing core that is empty gives its number to its stop's spare, or is disabled
where the spare is in use or has failed its own test (R434). -/
def execSpareCoreSubstitute (core : Nat) (s : State) : Host.Outcome State Fault Refusal :=
  .next (
    let k := s.core core
    if !k.failing || k.disabled || !k.empty then s
    else if h : stopOf core < 12 then
      let s0 := s.l1Flush core
      let rec' : ErrRec := { ErrRec.blank with kind := 9, core := core, stop := stopOf core, detail := BitVec.ofNat 64 core }
      if s.flash.spares[stopOf core] = 0xF ∧ s.badSpares.contains (stopOf core) = false then
        ((s0.setRecord
            { s0.flash.record with spares := s0.flash.spares.set (stopOf core) (BitVec.ofNat 4 (core % 8)) }).modCore core fun q =>
          { Core.reset with gate := q.gate, fused := q.fused }).logError rec'
      else
        let s1 := (s0.modCore core fun q => { q with disabled := true, preload := none }).logError { rec' with kind := 0xA, detail := 0 }
        match s1.partOfCore core with
        | none => s1
        | some part => s1.dropUnfit part
    else s)

/-! ### The reset of a partition (R421) -/

/-- Drops the bytes of a partition's packages: its memory reads zero, and no host keeps a copy of a line of it (R390, R421). -/
def State.zeroPart (s : State) (part : Nat) : State :=
  let mine (a : Nat) : Bool := decide (s.ownerOf a = some part)
  { s with mem := s.mem.filter fun c => !mine c.1, memBad := s.memBad.filter fun p => !mine (64 * p.1)
           snoop := s.snoop.filter fun q => !mine (64 * q.line) }

/-- The jobs of a partition stop and leave their cores (R421). -/
def State.stopJobs (s : State) (part : Nat) : State :=
  (List.range s.jobs.length).foldl (fun t n =>
    match t.jobs[n]? with
    | none => t
    | some j =>
      if j.mem.part ≠ part ∨ j.phase = .retired ∨ j.phase = .aborted then t
      else (if j.phase = .swapped then t else t.freeCore n j).setJob n (abortOne j)) s

/-- A core of a partition that resets (R230, R421). -/
def Core.wiped (k : Core) : Core := { k with l1 := [], tlb := [], lastCtx := none, left := [], preload := none }

/-- A launch that a reset ends (R343): where jobs of it are aborted, now is when its last one ended. One that an earlier reset has
ended stands as it is. -/
def Launch.cutOff (now : Nat) (l : Launch) : Launch :=
  if l.status = 5 then l
  else
    { l with
      status := 5
      finish := if l.teams.any (fun q => q.phase == .resident || q.phase == .swapped) then now else l.finish }

/-- The start of a reset: it is logged; jobs aborted, Inlets, Pond and fault queue emptied, contexts released, L1s, L2 slices and
TLBs invalidated; launches under way are kept for their RESET records (R343, R416, R421). (DEDUCED, log 82.) -/
def State.beginReset (s : State) (part : Nat) : State :=
  match s.parts[part]? with
  | none => s
  | some p =>
    let s1 := s.stopJobs part
    let s2 := (s1.partCores p).foldl (fun t c => t.modCore c Core.wiped) s1
    let s3 := p.stops.foldl (fun t n => t.modStop n fun _ => ⟨[], [], []⟩) s2
    (({ s3 with
        replicas := s3.replicas.filter fun r => r.part ≠ part
        hostLines := s3.hostLines.filter fun l => l.part ≠ part } : State).modPart part fun q =>
      { q with
        resetting := true, posted := [], pond := Vector.replicate 16 [], faulthead := q.faulttail, contexts := [], images := []
        nextInlet := Vector.replicate 4 none, launches := []
        outstanding := q.outstanding ++ (q.launches.filter fun (l : Launch) => l.phase != .complete).map (Launch.cutOff s.tick)
      }).logError { ErrRec.blank with kind := 0xB, stop := p.low, unit := 0xC }

/-- PARTITION_RESET (R394, R421): PARTRST is written by the owning port or the Crumb. -/
def execPartitionReset (a : Agent) (part : Nat) (s : State) : Host.Outcome State Fault Refusal :=
  .next (match if s.hears a then s.parts[part]? else none with
    | none => s
    | some p =>
      if !p.writable part a then s.refuse a (p.block + 0x148)
      else if p.resetting || p.stops.isEmpty then s
      else s.beginReset part)

/-- The next value of the module's epoch counter, and the state with it written to flash (R335). -/
def State.nextEpoch (s : State) : State × BitVec 16 :=
  let e := s.flash.epoch + 1
  ({ s with flash := { s.flash with epoch := e } }, e)

/-- Whether a partition that a new layout has taken apart waits for its old memory to be zeroed, by the resets of those that have its
packages now (R421). (DEDUCED, log 82.) -/
def State.zeroing (s : State) (p : Part) : Bool := p.stops.isEmpty && s.parts.any fun q => q.resetting && !q.stops.isEmpty

/-- PARTITION_RESET_DONE (R335, R421): its memory is zero, it takes a new epoch, serves again, and the launches that were
outstanding end with RESET. A partition that a new layout has taken apart serves no more; its launches end when the memory it had is
zero. Not after a ring link has failed (R422). -/
def execPartitionResetDone (part : Nat) (s : State) : Host.Outcome State Fault Refusal :=
  .next (match s.parts[part]? with
    | none => s
    | some p =>
      if !p.resetting || s.ringDown || s.zeroing p then s
      else
        let r := if p.stops.isEmpty then (s, p.epoch) else (s.zeroPart part).nextEpoch
        r.1.modPart part fun q =>
          { q with
            resetting := false, epoch := r.2, count := 0, consumeAt := 0, outstanding := []
            launches := q.outstanding.map fun l => { l with phase := .draining, cores := [], admitted := none } })

/-! ### Links (R412, R422) -/

/-- The retries in a row of a ring link, and the cycle of the last. -/
def State.retriesOf (s : State) (link : Nat) : Nat × Nat :=
  ((s.retries.find? fun q => q.1 == link).map fun q => q.2).getD (0, 0)

/-- The most retries a flit has in a row: then the link is retrained (R412, R422). -/
def retryLimit : Nat := 8

/-- FLIT_CRC_RETRY (R412, R422): the retry is counted for its link; nothing a program sees changes. It follows the last one in a row
where that is no older than a retry takes, 40 cycles. (DEDUCED, log 104.) -/
def execFlitCrcRetry (link : Nat) (s : State) : Host.Outcome State Fault Refusal :=
  .next (
    let q := s.retriesOf link
    if retryLimit ≤ q.1 then s
    else
      let run := if s.tick ≤ q.2 + 40 then q.1 + 1 else 1
      { s with retries := (link, run, s.tick) :: s.retries.filter fun z => z.1 ≠ link }.countCorrected 9 (link % 12))

/-- RING_LINK_RETRAIN (R422): a link that has failed 8 retries in a row is retrained, which is logged; one that fails at it is
logged, every partition is reset, and the module serves no more until power is cycled. -/
def execRingLinkRetrain (link : Nat) (ok : Bool) (s : State) : Host.Outcome State Fault Refusal :=
  .next (
    if (s.retriesOf link).1 < retryLimit then s
    else
      let s0 := { s with retries := s.retries.filter fun z => z.1 ≠ link }
      if ok then s0.logError { ErrRec.blank with kind := 6, unit := 9, stop := link % 12 }
      else
        let s1 := { s0 with ringDown := true }.logError { ErrRec.blank with kind := 0xC, unit := 9, stop := link % 12 }
        ((List.range s1.parts.length).filter fun n =>
          match s1.parts[n]? with
          | some p => !p.resetting && !p.stops.isEmpty
          | none => false).foldl State.beginReset s1)

end Sys2Proof.Machine
end

