-- ==== Sys2Proof/Machine/Translate.lean ====
section
/-! DEFINITION. Meanings of the steps of translation: walks, the service of suspensions, invalidation, frame copies and
the creation of a context (R364, R369 to R378, R424). -/

namespace Sys2Proof.Machine

/-- TABLE_WALK (R373, R374): a core of a job walks for an address and keeps the leaf, with A set; D is the access's own to set. A
walk that fails leaves nothing: the access that needs it meets the failure. -/
def execTableWalk (n : Nat) (va : Word) (kind : AccessKind) (s : State) : Host.Outcome State Fault Refusal :=
  .next (match s.jobs[n]? with
    | none => s
    | some j =>
      if j.phase != .running || !(decide (va.toNat / 2 ^ 56 ≤ 2)) then s
      else
        match s.translate (whoOf n j .c none 0) va (if kind = .write then .read else kind) with
        | .ok s1 _ => s1
        | _ => s)

/-! ### Service of suspensions (R376) -/

/-- The suspension of a job that a core number in RESUME or ABORT names. -/
def Job.suspAt (j : Job) (part core : Nat) : Option Susp :=
  if j.mem.part = part then j.susp.filter fun f => f.queued && decide (f.core = core) else none

/-- A job whose suspension ends: the access walks again when its word, command or fetch is offered again (R376). -/
def Job.endSusp (part core : Nat) (j : Job) : Job :=
  if (j.suspAt part core).isSome then { j with susp := none } else j

/-- Ends the suspensions a core number names. -/
def State.resumeCore (s : State) (part core : Nat) : State := { s with jobs := s.jobs.map (Job.endSusp part core) }

/-- Aborts the job whose suspension a core number names, with TRANSLATION (R376): of two, the urgent one. -/
def State.abortCore (s : State) (part core : Nat) : State :=
  let named := (List.range s.jobs.length).filter fun n =>
    match s.jobs[n]? with
    | some j => (j.suspAt part core).isSome
    | none => false
  let urgentOf (n : Nat) : Bool := match s.jobs[n]? with | some j => j.urgent | none => false
  match ((named.find? urgentOf).or named.head?) with
  | none => s
  | some n =>
    match (s.jobs[n]?).bind fun j => j.susp with
    | none => s
    | some f => (s.modJob n fun j => { j with susp := none }).abortJob n f.stream ⟨causeTranslation, f.tpc, 0, 0⟩

/-- RESUME (R376, R394). -/
def execResume (a : Agent) (part core : Nat) (s : State) : Host.Outcome State Fault Refusal :=
  .next (match if s.hears a then s.parts[part]? else none with
    | none => s
    | some p =>
      if p.services part a then s.resumeCore part core else s.refuse a (p.block + 0x100))

/-- ABORT (R376, R394). -/
def execAbort (a : Agent) (part core : Nat) (s : State) : Host.Outcome State Fault Refusal :=
  .next (match if s.hears a then s.parts[part]? else none with
    | none => s
    | some p =>
      if p.services part a then s.abortCore part core else s.refuse a (p.block + 0x108))

/-! ### Invalidation (R377) -/

/-- INVALIDATE (R377): INVCTX, INVVA and INVLEN are written and the invalidation is under way. -/
def execInvalidate (a : Agent) (part : Nat) (ctx : BitVec 16) (va len : Word) (s : State) :
    Host.Outcome State Fault Refusal :=
  .next (match if s.hears a then s.parts[part]? else none with
    | none => s
    | some p =>
      if p.writable part a then
        s.modPart part fun q => { q with invctx := ctx.setWidth 64, invva := va, invlen := len, invdone := false }
      else s.refuse a (p.block + 0x120))

/-- INVALIDATION_DONE (R377): once every access made through a translation of the range has been performed, every translation of it
is dropped and INVDONE reads 1. -/
def execInvalidationDone (part : Nat) (s : State) : Host.Outcome State Fault Refusal :=
  .next (match s.parts[part]? with
    | none => s
    | some p =>
      if p.invdone || s.inFlight part (p.invctx.setWidth 16) then s
      else
        (s.tlbDrop part (p.invctx.setWidth 16) (p.invva.toNat % 2 ^ 56) p.invlen.toNat).modPart part fun q =>
          { q with invdone := true })

/-! ### Frame copies (R424) -/

/-- Bytes of `n` addresses from `src` copied to `dst` in a byte store. -/
def cellsCopy (m : List Host.Cell) (src dst n : Nat) : List Host.Cell :=
  let kept := m.filter fun c => decide (c.1 < dst) || decide (dst + n ≤ c.1)
  (m.filter fun c => decide (src ≤ c.1) && decide (c.1 < src + n)).foldl (fun t c => cellPut t (c.1 - src + dst) c.2) kept

/-- What any cache or host holds of `n` bytes at `a` is let go, with what an L1 holds dirty of them written back: their memory is
about to be written from elsewhere (R390, R424). -/
def State.forgetSpan (s : State) (a n : Nat) : State :=
  let hit (line : Nat) : Bool := decide (64 * line < a + n) && decide (a < 64 * line + 64)
  let t := (s.cores.toList.flatMap fun k => k.l1.filter fun l => hit l.line).foldl State.writeBackLine s
  { t with
    cores := t.cores.map fun k => { k with l1 := k.l1.filter fun l => !hit l.line }
    replicas := t.replicas.filter fun r => !hit r.line, snoop := t.snoop.filter fun q => !hit q.line }

/-- Copies `n` bytes, whole frames, through the home slices; an uncorrectable line stays so in the copy (R419, R424), and so
does every line of a frame retired without a spare. -/
def State.copyFrames (s : State) (src dst n : Nat) : State :=
  let t := s.forgetSpan dst n
  let kept := t.memBad.filter fun p => decide (64 * p.1 < dst) || decide (dst + n ≤ 64 * p.1)
  let moved := t.memBad.filterMap fun p =>
    if src ≤ 64 * p.1 ∧ 64 * p.1 < src + n then some ((64 * p.1 - src + dst) / 64, p.2) else none
  let dead := (s.flash.retired.filter fun f => decide (src ≤ f * 2 ^ 16) && decide (f * 2 ^ 16 < src + n)).flatMap fun f =>
    (List.range 1024).map fun i => ((f * 2 ^ 16 - src + dst) / 64 + i, (0 : BitVec 8))
  { t with mem := cellsCopy t.mem src dst n, memBad := kept ++ moved ++ dead }

/-! ### The Crumb's service of its fault queue (R376, R378) -/

/-- Where the entries for an address lie, from a level down over `f` more, following the tables in memory from a frame. -/
def slotsFor (s : State) (va : Nat) : Nat → Nat → Nat → List Nat
  | 0, level, frame => [frame * 2 ^ 16 + 8 * walkIndex va level]
  | f + 1, level, frame =>
    let at' := frame * 2 ^ 16 + 8 * walkIndex va level
    at' :: slotsFor s va f (level + 1) (pteFrame (BitVec.ofNat 64 (leNat (s.readPhys at' 8)))).toNat

/-- Where a context's entries for an address lie, down to a level. -/
def State.entriesTo (s : State) (part : Nat) (ctx : BitVec 16) (va level : Nat) : List Nat :=
  slotsFor s va level 0 (bitsOf (s.ctxDesc part ctx) 51 16)

/-- Where a context's entry for an address at a level lies. -/
def State.entryAt (s : State) (part : Nat) (ctx : BitVec 16) (va level : Nat) : Nat :=
  ((s.entriesTo part ctx va level).getLast?).getD 0

/-- What a partition's Crumb reads to come to an entry: the context's descriptor and the entries of the tables down to it. -/
def State.crumbReads (s : State) (part : Nat) (ctx : BitVec 16) (va level : Nat) : List Nat :=
  s.ctxAt part ctx :: s.entriesTo part ctx va level

/-- A checkpoint copy (R378): the page is copied into a new frame, the leaf names it with D set, and the page's
translations are dropped. -/
def State.copyPage (s : State) (part : Nat) (ctx : BitVec 16) (va level frame : Nat) : State :=
  let at' := s.entryAt part ctx va level
  let e : Word := BitVec.ofNat 64 (leNat (s.readPhys at' 8))
  let n := 2 ^ pageBits level
  let s1 := s.copyFrames ((pteFrame e).toNat * 2 ^ 16) (frame * 2 ^ 16) n
  let e1 : Word := (e &&& ~~~0x000F_FFFF_FFFF_0000#64) ||| (BitVec.ofNat 64 (frame % 2 ^ 36) <<< 16) ||| 0x400
  (s1.writePhys at' (leBytes 8 e1.toNat)).tlbDrop part ctx (va / n * n) n

/-- Whether a record asks for a checkpoint copy that has not been made: of two writers that race on a page, the first one's record
has it made (R378). -/
def State.copyDue (s : State) (part : Nat) (rec' : Nat) : Bool :=
  let at' := s.entryAt part (BitVec.ofNat 16 (bitsOf rec' 191 176)) (bitsOf rec' 255 192 % 2 ^ 56) (bitsOf rec' 163 162)
  bitsOf rec' 165 164 == 3 && !pteD (BitVec.ofNat 64 (leNat (s.readPhys at' 8)))

/-- The records that wait in a partition's fault queue. -/
def State.faultRecords (s : State) (p : Part) : List Nat :=
  (List.range (p.faulttail - p.faulthead).toNat).map fun i =>
    leNat (s.readPhys (p.faultq.toNat + 32 * ((p.faulthead.toNat + i) % Config.faultQueueSize)) 32)

/-- Whether the page that a record's checkpoint copy is due for holds a frame. -/
def State.copiesFrame (s : State) (part : Nat) (rec' frame : Nat) : Bool :=
  let at' := s.entryAt part (BitVec.ofNat 16 (bitsOf rec' 191 176)) (bitsOf rec' 255 192 % 2 ^ 56) (bitsOf rec' 163 162)
  let e : Word := BitVec.ofNat 64 (leNat (s.readPhys at' 8))
  let n := 2 ^ (pageBits (bitsOf rec' 163 162) - 16)
  s.copyDue part rec' && decide ((pteFrame e).toNat ≤ frame) && decide (frame < (pteFrame e).toNat + n)

/-- FRAME_COPY (R423, R424): one 64 KiB frame moves to another, in the course of a checkpoint copy that the Crumb of their partition
is to make (R378): the destination is a frame of the partition that no image holds. A retirement copies its frame itself, at one
address (R419). -/
def execFrameCopy (src dst : Nat) (s : State) : Host.Outcome State Fault Refusal :=
  .next (match s.ownerOf (src * 2 ^ 16), (s.ownerOf (src * 2 ^ 16)).bind fun n => s.parts[n]? with
    | some part, some p =>
      if s.crumbDown part || src = dst || !((s.faultRecords p).any fun r => s.copiesFrame part r src) || p.holdsFrame dst 1 then s
      else if s.ownerOf (dst * 2 ^ 16) ≠ some part then s.refuse (.crumb part) (dst * 2 ^ 16)
      else if s.hostHolds (src * 2 ^ 16) (2 ^ 16) || s.hostHolds (dst * 2 ^ 16) (2 ^ 16) then s
      else s.copyFrames (src * 2 ^ 16) (dst * 2 ^ 16) (2 ^ 16)
    | _, _ => s)

/-- What lies in a partition's memory is all that its Crumb reads and writes, or has a frame copy write: an access elsewhere is
discarded and logged (R423). -/
def State.crumbMay (s : State) (part pa n : Nat) (t : State) : State :=
  if s.ownerOf pa = some part ∧ s.ownerOf (pa + (n - 1)) = some part then t else s.refuse (.crumb part) pa

/-- What the Crumb does to the tables for one record before it resumes the job: a checkpoint copy into `frame`, or the
store of `frame` as the entry whose check failed, zero for no store. Of tenants' memory it touches only the frames of the copy, which
it orders and never sees: what it reads and writes are the context table and the page tables it walks (R423, R424). Where it cannot
read its way to the entry (R413), the tables stay as they are, and the access meets that itself. -/
def State.serviceRecord (s : State) (part : Nat) (rec' : Nat) (frame : Nat) : State :=
  let va := bitsOf rec' 255 192 % 2 ^ 56
  let ctx : BitVec 16 := BitVec.ofNat 16 (bitsOf rec' 191 176)
  let level := bitsOf rec' 163 162
  let reads := s.crumbReads part ctx va level
  let at' := s.entryAt part ctx va level
  match reads.find? fun a => decide (s.ownerOf a ≠ some part) with
  | some a => s.refuse (.crumb part) a
  | none =>
    if reads.any fun a => s.unreadable a 8 then s
    else if bitsOf rec' 165 164 = 3 then
      if s.copyDue part rec' then
        s.crumbMay part (frame * 2 ^ 16) (2 ^ pageBits level) (s.copyPage part ctx va level frame)
      else s
    else if frame = 0 then s
    else s.writePhys at' (leBytes 8 frame)

/-- Whether serving a record has to wait, or names a frame it may not: a line it touches is held by a host (R390), an access already
translated has yet to be performed (R377), or the new frame is held in a checkpoint image (R378). -/
def State.serviceWaits (s : State) (part : Nat) (rec' frame : Nat) : Bool :=
  let ctx : BitVec 16 := BitVec.ofNat 16 (bitsOf rec' 191 176)
  let level := bitsOf rec' 163 162
  let at' := s.entryAt part ctx (bitsOf rec' 255 192 % 2 ^ 56) level
  let n := 2 ^ pageBits level
  let e : Word := BitVec.ofNat 64 (leNat (s.readPhys at' 8))
  s.hostHolds at' 8 ||
    (s.copyDue part rec' && frame != 0 &&
      (s.inFlight part ctx || s.hostHolds ((pteFrame e).toNat * 2 ^ 16) n || s.hostHolds (frame * 2 ^ 16) n ||
        match s.parts[part]? with | some p => p.holdsFrame frame (n / 2 ^ 16) | none => false))

/-- FAULT_SERVICE (R376, R378): the Crumb takes the oldest record of the queue, serves it and resumes the job, or aborts it, as it
does where a checkpoint copy finds no free frame; a record it cannot read is logged and passed over; not while its instance is being replaced (R432), nor where the owning port serves the queue. (DESIGN CHOICE, log 69.) -/
def execFaultService (part : Nat) (resume : Bool) (frame : Nat) (s : State) : Host.Outcome State Fault Refusal :=
  .next (match s.parts[part]? with
    | none => s
    | some p =>
      let recAt := p.faultq.toNat + 32 * (p.faulthead.toNat % Config.faultQueueSize)
      let rec' := leNat (s.readPhys recAt 32)
      if p.fsvc || s.crumbDown part || p.faulthead == p.faulttail then s
      else if s.ownerOf recAt ≠ some part then s.refuse (.crumb part) recAt
      else if s.unreadable recAt 32 then
        (s.modPart part fun q => { q with faulthead := q.faulthead + 1 }).logError { ErrRec.blank with
          kind := 2, unit := 8, addr := recAt, stop := (s.homeOf recAt).getD 0xFF }
      else if s.hostHolds recAt 32 || s.serviceWaits part rec' frame then s
      else
        let core := bitsOf rec' 175 169
        let s1 := s.modPart part fun q => { q with faulthead := q.faulthead + 1 }
        let short := s1.copyDue part rec' && frame == 0
        let s2 := if resume && !short then (s1.serviceRecord part rec' frame).resumeCore part core else s1.abortCore part core
        (List.range s2.jobs.length).foldl State.queueFault s2)

/-- CONTEXT_CREATE (R364, R369): the Crumb writes the descriptor of a context that does not exist and reserves its areas,
where PARTMEM has room for them; a checkpoint image of an earlier context of the identifier ends. A context table outside the
partition's memory is not the Crumb's to write (R423). (DESIGN CHOICE, log 94.) -/
def execContextCreate (part : Nat) (ctx : BitVec 16) (root : Nat) (key : BitVec 4) (s : State) :
    Host.Outcome State Fault Refusal :=
  .next (match s.parts[part]? with
    | none => s
    | some p =>
      if s.ctxValid part ctx || s.crumbDown part || decide (s.partMem part < areaBytes * 8 * p.stops.length) then s
      else if s.ownerOf (p.ctxbase.toNat + 16 * ctx.toNat) ≠ some part then s.refuse (.crumb part) (p.ctxbase.toNat + 16 * ctx.toNat)
      else
        (s.writePhys (p.ctxbase.toNat + 16 * ctx.toNat)
          (leBytes 16 (1 + key.toNat * 2 ^ 12 + root % 2 ^ 36 * 2 ^ 16))).modPart part fun q =>
            { q with contexts := ctx :: q.contexts.filter (fun c => c ≠ ctx), images := q.images.filter fun i => i.1 ≠ ctx })

end Sys2Proof.Machine
end

