-- ==== Sys2Proof/Machine/Ports.lean ====
section
/-! DEFINITION. The host ports and peers: device memory as hosts reach it, host memory as the device reaches it, the control
space, semaphores and their leases (R387 to R397). -/

namespace Sys2Proof.Machine

/-! ### Device memory from a host or a peer (R388 to R390, R397) -/

/-- An answer goes out. -/
def State.reply (s : State) (r : Reply) : State := { s with replies := s.replies ++ [r] }

/-- The base of a port's window (R388). -/
def State.dbaseOf (s : State) (port : Bool) : Nat := if port then s.dbase.2 else s.dbase.1

/-- The device address a host address of a port's 768 GiB window reaches (R388). -/
def State.hostToDevice (s : State) (port : Bool) (addr : Nat) : Option Nat :=
  let b := s.dbaseOf port
  if b ≤ addr ∧ addr < b + Config.memBytes then some (addr - b) else none

/-- READY (R434). -/
def State.ready (s : State) : Bool := s.bootstat.getLsbD 16

/-- Whether a port may reach a device address: it owns the partition, or the partition is shared; the partition is not being
reset and the page is not retired (R389, R419, R434). -/
def State.portReaches (s : State) (port : Bool) (pa : Nat) : Bool :=
  s.ready && !(s.flash.retired.contains (pa / 2 ^ 16)) &&
    match (s.ownerOf pa).bind fun n => s.parts[n]? with
    | none => false
    | some p => (p.owner == port || p.partcfg.getLsbD 1) && !p.resetting

/-- Whether an access of a host or a peer is one the module serves: within a line, and not empty (R387). (DEDUCED, log 84.) -/
def oneLine (addr n : Nat) : Bool := decide (0 < n) && decide (addr % 64 + n ≤ 64)

/-- The slice of a home stop a line lies in (R264). -/
def sliceOf (pa : Nat) : Nat :=
  let f := pa / 2 ^ 12 % 2 ^ 40
  (f ^^^ (f / 2 ^ 11) ^^^ (f / 2 ^ 23)) % 2

/-- Lines a slice's snoop filter tracks for one port (R390). -/
def snoopLines : Nat := 32768

/-- A line is tracked for a port, shared or exclusively; where the filter of its slice is full, the oldest line there is
invalidated first (R390). -/
def State.track (s : State) (port : Bool) (line : Nat) (excl : Bool) : State :=
  let same (q : HostCopy) : Bool :=
    q.port == port && s.homeOf (64 * q.line) == s.homeOf (64 * line) && sliceOf (64 * q.line) == sliceOf (64 * line)
  let rest := s.snoop.filter fun q => !(q.port == port && q.line == line)
  let rest := if snoopLines ≤ (rest.filter same).length then rest.eraseP same else rest
  { s with snoop := rest ++ [⟨port, line, excl⟩] }

/-- Whether a port holds a line, exclusively where `excl` asks for it. -/
def State.portHolds (s : State) (port : Bool) (line : Nat) (excl : Bool) : Bool :=
  s.snoop.any fun q => q.port == port && q.line == line && (q.excl || !excl)

/-- A read of device memory by a port's own access, or a peer's through it (R388, R389). One of a line that the other port holds
exclusively waits until it has let it go (R390). -/
def State.portRead (s : State) (port : Bool) (addr n : Nat) (cached : Bool) : State :=
  if !s.linkIsUp port then s
  else if !oneLine addr n then (s.refuse (portAgent port) addr).reply .unsupported
  else
    match s.hostToDevice port addr with
    | none => (s.refuse (portAgent port) addr).reply .error
    | some pa =>
      if !s.portReaches port pa then (s.refuse (portAgent port) addr).reply .error
      else if s.portHolds (!port) (lineOf pa) true then s
      else if s.memPoisoned pa n then s.reply .poison
      else
        let s1 := s.reply (.data (s.readPhys pa n))
        if cached then s1.track port (lineOf pa) (s.portHolds port (lineOf pa) true) else s1

/-- A host takes a line of device memory exclusively through a port (R390): the other port's copy is invalidated, once it is not
exclusive; the line's data goes out with it. -/
def State.claimLine (s : State) (port : Bool) (addr : Nat) : State :=
  if !s.linkIsUp port then s
  else
    match s.hostToDevice port addr with
    | none => (s.refuse (portAgent port) addr).reply .error
    | some pa =>
      let line := lineOf pa
      if !s.portReaches port pa then (s.refuse (portAgent port) addr).reply .error
      else if s.portHolds (!port) line true then s
      else if s.memPoisoned (64 * line) 64 then s.reply .poison
      else
        let s1 := { s with snoop := s.snoop.filter fun q => q.line ≠ line }.reply (.data (s.readPhys (64 * line) 64))
        s1.track port line true

/-- A request that uses a part of CXL 3.1 the ports do not have: it is answered as unsupported, and logged (R387). -/
def State.unsupportedRequest (s : State) (port : Bool) (addr : Nat) : State :=
  if s.linkIsUp port then (s.refuse (portAgent port) addr).reply .unsupported else s

/-- A write of device memory by a port or a peer (R388, R389); no other host keeps a copy of the line (R390). -/
def State.portWrite (s : State) (port : Bool) (addr : Nat) (data : List Byte) : State :=
  if !s.linkIsUp port then s
  else if !oneLine addr data.length then (s.refuse (portAgent port) addr).reply .unsupported
  else
    match s.hostToDevice port addr with
    | none => s.refuse (portAgent port) addr
    | some pa =>
      if !s.portReaches port pa then s.refuse (portAgent port) addr
      else if s.portHolds (!port) (lineOf pa) true then s
      else (s.writePhys pa data).reply .done

/-- HOST_MEM_READ (R388 to R390). -/
def execHostMemRead (port : Bool) (addr n : Nat) (s : State) : Host.Outcome State Fault Refusal :=
  .next (s.portRead port addr n true)

/-- HOST_MEM_WRITE (R388, R389). -/
def execHostMemWrite (port : Bool) (addr : Nat) (data : List Byte) (s : State) : Host.Outcome State Fault Refusal :=
  .next (s.portWrite port addr data)

/-- BACK_INVALIDATE_SNOOP (R390): the port's copy of a line is invalidated and no longer tracked. -/
def execBackInvalidateSnoop (port : Bool) (line : Nat) (s : State) : Host.Outcome State Fault Refusal :=
  .next { s with snoop := s.snoop.filter fun q => !(q.port == port && q.line == line) }

/-- PEER_REQUEST (R389, R397): treated as an access of the port it arrives at. -/
def execPeerRequest (port : Bool) (addr n : Nat) (data : Option (List Byte)) (s : State) :
    Host.Outcome State Fault Refusal :=
  .next (match data with
    | none => s.portRead port addr n false
    | some b => s.portWrite port addr b)

/-! ### Host memory from the device (R286, R391) -/

/-- CXL_COMPLETION (R286, R391): the oldest request to an address is answered: with its data, with an error, or as performed.
One that nothing awaits any more is dropped. -/
def execCxlCompletion (port : Bool) (addr : Nat) (data : Option (List Byte)) (s : State) :
    Host.Outcome State Fault Refusal :=
  .next (
    let hit (r : CxlReq) : Bool :=
      r.port == port && r.addr == addr && !r.done &&
        (r.data.isSome || match data with | some b => b.length == r.bytes | none => true)
    match s.cxl.find? hit with
    | none => s
    | some r =>
      if r.posted then { s with cxl := s.cxl.eraseP hit }
      else { s with cxl := s.cxl.eraseP hit ++ [{ r with done := true, answer := if r.data.isSome then none else data }] })

/-- Every L1 lets a line of host memory go; what is dirty there goes back to the copy in L2 (R262, R391). -/
def State.l1Recall (s : State) (port : Bool) (line : Nat) : State :=
  let no := hostLineNo port line
  let s1 := (s.cores.toList.flatMap fun k => k.l1.filter fun l => l.line == no).foldl State.writeBackLine s
  { s1 with cores := s1.cores.map fun k => { k with l1 := k.l1.filter fun l => l.line ≠ no } }

/-- HOST_COHERENCE_SNOOP (R391): the host recalls a line of its memory; what the device wrote, in L2 or in an L1, goes back with it. -/
def execHostCoherenceSnoop (port : Bool) (line : Nat) (s : State) : Host.Outcome State Fault Refusal :=
  .next (
    let s1 := s.l1Recall port line
    match s1.hostLines.find? fun l => l.port == port && l.line == line with
    | none => s
    | some l => { s1 with hostLines := s1.hostLines.filter fun q => q != l }.reply (.data (lineBytes l.data 0 64)))

/-- A write that was on its way over a link that has gone down is lost, and logged (R391). -/
def State.logDropped (s : State) (r : CxlReq) : State :=
  let j := s.jobs[r.job]?
  s.logError { ErrRec.blank with
    kind := 7, unit := agentUnit (portAgent r.port), addr := r.addr, seq := (j.map (·.mem.seq)).getD 0, ctx := (j.map (·.mem.ctx)).getD 0
    core := (j.map (·.core)).getD 0xFF, stop := (j.map fun k => stopOf k.core).getD 0xFF }

/-- What becomes of a request as its link goes down (R391): one that has not been answered ends without an answer, and a request for a
line, or a write that nothing waits for, is gone. -/
def State.cutRequest (s : State) (port : Bool) (r : CxlReq) : Option CxlReq :=
  if r.port ≠ port ∨ r.done = true then some r
  else if r.posted ∨ (r.data = none ∧ s.inPeerWindow port r.addr = false) then none
  else some { r with done := true, answer := none }

/-- CXL_LINK_RESET (R391, R412, R435): a port's link goes down and its requests end without an answer, the writes among them discarded
and logged; a link that is down trains again, which is logged, and the messages held for it go out (R396). -/
def execCxlLinkReset (port : Bool) (s : State) : Host.Outcome State Fault Refusal :=
  .next (
    let up := s.linkIsUp port
    let s1 := { s with linkUp := if port then (s.linkUp.1, !up) else (!up, s.linkUp.2) }
    if up then
      { (s1.cxl.filter fun r => r.port == port && !r.done && r.data.isSome).foldl State.logDropped s1 with
        cxl := s1.cxl.filterMap (s1.cutRequest port) }
    else (s1.logError { ErrRec.blank with kind := 6, unit := agentUnit (portAgent port) }).releaseMsix)

/-- A host masks a vector of its port, or lets it go: then the message it held goes out (R396). -/
def State.maskVector (s : State) (port : Bool) (vec : BitVec 11) (on : Bool) : State :=
  let rest := s.masked.filter (· ≠ (port, vec))
  if on then { s with masked := (port, vec) :: rest } else State.releaseMsix { s with masked := rest }

/-! ### Semaphores (R395) -/

/-- Cycles of a lease given in microseconds (R9, R392); none for one that never expires. -/
def leaseDue (now : Nat) (lease : Word) : Option Nat := if lease = 0 then none else some (now + 2300 * lease.toNat)

/-- A semaphore after a read by an agent (R395). -/
def Sem.acquire (q : Sem) (a : Agent) (now : Nat) (lease : Word) : Sem :=
  if q.holder = 0 ∨ q.holder = agentNum a then { q with holder := agentNum a, due := leaseDue now lease } else q

/-- A semaphore's register (R395). -/
def Sem.word (q : Sem) : Word := (q.expired ++ q.holder).setWidth 64

/-- SEMAPHORE_READ (R395): a free semaphore is taken, one's own is renewed; the register as it then stands is returned. -/
def execSemaphoreRead (a : Agent) (n : BitVec 4) (s : State) : Host.Outcome State Fault Refusal :=
  .next (
    if !s.hears a then s else
    let q := (s.sems.get n.toFin).acquire a s.tick (s.leases.get n.toFin)
    { s with sems := s.sems.set n.toNat q n.isLt }.reply (.data (leBytes 8 q.word.toNat)))

/-- A write to a semaphore: zero by the holder frees it, any other is ignored (R395). -/
def Sem.release (q : Sem) (a : Agent) (v : Word) : Sem :=
  if v = 0 ∧ q.holder = agentNum a then { q with holder := 0, due := none } else q

/-- SEMAPHORE_WRITE (R395). -/
def execSemaphoreWrite (a : Agent) (n : BitVec 4) (v : Word) (s : State) : Host.Outcome State Fault Refusal :=
  .next (if s.hears a then { s with sems := s.sems.set n.toNat ((s.sems.get n.toFin).release a v) n.isLt } else s)

/-- The port a holder's number names. -/
def holderPort (h : BitVec 8) : Option Bool :=
  match h.toNat with
  | 1 => some false
  | 2 => some true
  | _ => none

/-- Expires a semaphore whose lease has run out (R395, R396). -/
def State.expireLease (s : State) (n : Fin 16) : State :=
  let q := s.sems.get n
  match q.due with
  | none => s
  | some t =>
    if s.tick < t then s
    else
      let s1 := { s with sems := s.sems.set n ⟨q.expired + 1, 0, none⟩ }
      match holderPort q.holder with
      | some p => s1.sendMsix p (s.irqsrc.extractLsb' 0 11)
      | none => s1

/-- LEASE_EXPIRY (R395). -/
def execLeaseExpiry (n : BitVec 4) (s : State) : Host.Outcome State Fault Refusal := .next (s.expireLease n.toFin)

/-! ### Partition registers with an effect of their own (R355, R393, R394) -/

/-- PARTCFG_WRITE (R393, R394): only by the holder of SEM0; URGENT stays as configured and reserved bits are not held. -/
def execPartcfgWrite (a : Agent) (part : Nat) (v : Word) (s : State) : Host.Outcome State Fault Refusal :=
  .next (match if s.hears a then s.parts[part]? else none with
    | none => s
    | some p =>
      if s.holdsSem 0 a && agentReaches a part then s.modPart part fun q => { q with partcfg := (q.partcfg &&& 0x10) ||| (v &&& 0xF) }
      else s.refuse a p.block)

/-- What the Launch Unit writes of an Inlet as it is reset (R393): its claimed slots are cleared, and HEAD becomes TAIL. A header that
cannot be read is left, and logged (R413). -/
def State.clearInlet (s : State) (base : Nat) : State :=
  let size := s.inletSize base
  let tail := s.inletTail base
  let head := s.inletHead base
  if base = 0 then s
  else if s.unreadable base 32 then
    s.logError { ErrRec.blank with kind := 2, unit := 8, addr := base, stop := (s.homeOf base).getD 0xFF }
  else if ringSizeOk size = false then s
  else
    ((List.range (min size (tail - head))).foldl (fun t k => t.writePhys (inletSlot base size (head + k)) (leBytes 8 0)) s).writePhys
      (base + 8) (leBytes 8 tail)

/-- Whether a host holds a line that an Inlet's reset writes or reads (R390). -/
def State.inletHeld (s : State) (base : Nat) : Bool :=
  let size := s.inletSize base
  let head := s.inletHead base
  base != 0 && (s.hostHolds base 32 ||
    (ringSizeOk size && (List.range (min size (s.inletTail base - head))).any fun k => s.hostHolds (inletSlot base size (head + k)) 8))

/-- Resets one Inlet whose INLETRST bit has been written, once no host holds a line of it exclusively (R390, R393); a base written
meanwhile takes effect. -/
def State.resetInlet (part : Nat) (s : State) (i : Fin 4) : State :=
  match s.parts[part]? with
  | none => s
  | some p =>
    let base := (p.inlets.get i).toNat
    if !p.inletRst.getLsbD i.val || s.inletHeld base then s
    else
      (s.clearInlet base).modPart part fun q =>
        { q with
          posted := q.posted.filter fun z => z.inlet.toFin != i, inletRst := q.inletRst &&& ~~~(1#4 <<< i.val)
          inlets := q.inlets.set i ((q.nextInlet.get i).getD (q.inlets.get i)), nextInlet := q.nextInlet.set i none }

/-- The resets of a partition's Inlets that can be made. -/
def State.resetInlets (s : State) (part : Nat) : State := (List.finRange 4).foldl (State.resetInlet part) s

/-- INLET_RESET (R393, R394): INLETRST is written; bit n resets Inlet n. -/
def execInletReset (a : Agent) (part : Nat) (mask : BitVec 4) (s : State) : Host.Outcome State Fault Refusal :=
  .next (match if s.hears a then s.parts[part]? else none with
    | none => s
    | some p =>
      if p.writable part a then (s.modPart part fun q => { q with inletRst := q.inletRst ||| mask }).resetInlets part
      else s.refuse a (p.block + 0x60))

/-- A write to a PQCFG register (R355): W and EN are taken; CLR empties the queue and reads 0. -/
def Part.setPq (p : Part) (i : Fin 16) (v : Word) : Part :=
  { p with
    pqcfg := p.pqcfg.set i (v &&& 0xBF), pond := if v.getLsbD 8 then p.pond.set i [] else p.pond }

/-- PQCFG_CLEAR (R355, R394): a PQCFG register is written with CLR. -/
def execPqcfgClear (a : Agent) (part : Nat) (n : BitVec 4) (v : Word) (s : State) : Host.Outcome State Fault Refusal :=
  .next (match if s.hears a then s.parts[part]? else none with
    | none => s
    | some p =>
      if p.writable part a then s.modPart part fun q => q.setPq n.toFin (v ||| 0x100) else s.refuse a (p.block + 0x80 + 8 * n.toNat))

/-! ### Registers with no behaviour of their own (R392 to R394, R415, R431, R439) -/

/-- Whether an agent may have a span of memory as a buffer: all of it lies in one partition whose owning port, or the Crumb, it is
(R423, R431). -/
def State.mayUse (s : State) (a : Agent) (pa n : Nat) : Bool :=
  match s.ownerOf pa with
  | none => false
  | some k =>
    (match s.parts[k]? with
      | some p => p.writable k a && !p.resetting
      | none => false) && decide (s.ownerOf (pa + (n - 1)) = some k) &&
      (List.range ((n + 65535) / 65536)).all fun i => decide (s.ownerOf (pa + 65536 * i) = some k)

/-- A write to the module block at an aligned offset; one by an agent that may not make it, or to a register that is not written, is
discarded and logged (R394). (DEDUCED, log 86.) -/
def State.writeModule (s : State) (a : Agent) (off : Nat) (v : Word) : State :=
  if off < 0x80 then stateOf s (execSemaphoreWrite a (BitVec.ofNat 4 (off / 8)) v s)
  else if h : 0x100 ≤ off ∧ off < 0x180 then
    if s.holdsSem ⟨(off - 0x100) / 8, by omega⟩ a then
      { s with leases := s.leases.set ((off - 0x100) / 8) v (by omega) }
    else s.refuse a off
  else if off = 0x200 then { s with irqsrc := v &&& 0x07FF_07FF }
  else if off = 0x218 then (if s.holdsSem 2 a then { s with errHead := v } else s.refuse a off)
  else if off = 0x228 then (if s.holdsSem 2 a && v == 0 then { s with errLost := 0 } else s.refuse a off)
  else if off = 0x240 then
    if s.holdsSem 1 a && v.toNat % 4096 == 0 && s.mayUse a v.toNat 4096 then { s with fwbuf := v } else s.refuse a off
  else if h : 0x300 ≤ off ∧ off < 0x340 then
    match agentPort a with
    | none => s.refuse a off
    | some port =>
      let i : Fin 8 := ⟨(if port then 4 else 0) + (off - 0x300) / 16, by split <;> omega⟩
      let x := v &&& ~~~0xFFFF#64
      if off % 16 = 0 then { s with peerBase := s.peerBase.set i x } else { s with peerLim := s.peerLim.set i x }
  else s.refuse a off

/-- A partition after a write at an offset of its block; none where no register there is written so. -/
def Part.write (p : Part) (a : Agent) (held : Fin 4 → Bool) (off : Nat) (v : Word) : Option Part :=
  if off = 0x008 then some { p with ctxbase := v &&& ~~~0xFFFF#64 }
  else if off = 0x010 then some { p with faultq := v &&& ~~~0x1FFF#64 }
  else if off = 0x018 then some { p with faulthead := v }
  else if h : 0x040 ≤ off ∧ off < 0x060 then
    let i : Fin 4 := ⟨(off - 0x40) / 8, by omega⟩
    let x := v &&& ~~~0xFF#64
    if held i then some { p with nextInlet := p.nextInlet.set i (some x) }
    else some { p with inlets := p.inlets.set i x, nextInlet := p.nextInlet.set i none }
  else if h : 0x080 ≤ off ∧ off < 0x100 then
    some (p.setPq ⟨(off - 0x80) / 8, by omega⟩ v)
  else if off = 0x110 then some { p with invctx := v }
  else if off = 0x118 then some { p with invva := v }
  else if off = 0x140 then some { p with faultvec := v &&& 0x7FF }
  else if off = 0x158 then (if (agentPort a).isSome then some { p with pwrreq := v } else none)
  else none

/-- Whether an Inlet in force holds records (R393): its TAIL and HEAD differ. -/
def State.inletBusy (s : State) (p : Part) (i : Fin 4) : Bool :=
  let base := (p.inlets.get i).toNat
  base != 0 && s.inletTail base != s.inletHead base

/-- The offset at which a write stands for the host's programming of a port's HDM decoder base, past the control space
(R388). (DESIGN CHOICE, log 85.) -/
def hdmOffset : Nat := 0x100_0000

/-- A write to a register of a partition whose write is a step of its own: PARTCFG, INLETRST, RESUME, ABORT, INVLEN and PARTRST (R376,
R377, R393, R394, R421); none for any other. -/
def partStep (a : Agent) (n : Nat) (p : Part) (off : Nat) (v : Word) (s : State) : Option State :=
  match off with
  | 0x000 => some (stateOf s (execPartcfgWrite a n v s))
  | 0x060 => some (stateOf s (execInletReset a n (v.setWidth 4) s))
  | 0x100 => some (stateOf s (execResume a n v.toNat s))
  | 0x108 => some (stateOf s (execAbort a n v.toNat s))
  | 0x120 => some (stateOf s (execInvalidate a n (p.invctx.setWidth 16) p.invva v s))
  | 0x148 =>
    some (if v.getLsbD 0 then stateOf s (execPartitionReset a n s) else if p.writable n a then s else s.refuse a (p.block + off))
  | _ => none

/-- The partition whose registers stand in a block of the control space (R392, R393). -/
def State.blockPart (s : State) (block : Nat) : Option Nat := s.parts.findIdx? fun p => !p.stops.isEmpty && p.block == block

/-- A write to the control space of an agent's block. One to a partition's register that has no effect there is discarded and logged
(R394). -/
def State.writeReg (s : State) (a : Agent) (off : Nat) (v : Word) : State :=
  if off % 8 ≠ 0 then (s.refuse a off).reply .unsupported
  else if off = hdmOffset then
    match agentPort a with
    | none => s
    | some port => { s with dbase := if port then (s.dbase.1, v.toNat) else (v.toNat, s.dbase.2) }
  else if off < 0x10_0000 then s.writeModule a off v
  else
    match s.blockPart (off / 0x10_0000 * 0x10_0000) with
    | none => s.refuse a off
    | some n =>
      match s.parts[n]? with
      | none => s
      | some p =>
        match partStep a n p (off % 0x10_0000) v s with
        | some t => t
        | none =>
          if !p.writable n a then s.refuse a off
          else
            match p.write a (s.inletBusy p) (off % 0x10_0000) v with
            | none => s.refuse a off
            | some q =>
              let s1 := s.modPart n fun _ => q
              (List.range s1.jobs.length).foldl State.queueFault s1

/-- REGISTER_WRITE (R355, R376, R377, R392 to R395, R415, R421): a register is written by an agent that may. FWCMD, whose write carries a
command's operands, is written by the steps of the mailbox (R431). -/
def execRegisterWrite (a : Agent) (off : Nat) (v : Word) (s : State) : Host.Outcome State Fault Refusal :=
  .next (if s.hears a then s.writeReg a off v else s)

/-! ### What registers read (R392, R393, R415, R421, R431, R433, R434, R439) -/

/-- What an agent reads in the module block; none where there is no register. A register that is only written holds nothing: what it
reads as is a free value. (DESIGN CHOICE, log 106.) -/
def State.readModule (s : State) (a : Agent) (off : Nat) : Option Word :=
  if h : off < 0x80 then some (s.sems.get ⟨off / 8, by omega⟩).word
  else if h : 0x100 ≤ off ∧ off < 0x180 then some (s.leases.get ⟨(off - 0x100) / 8, by omega⟩)
  else if h : 0x300 ≤ off ∧ off < 0x340 then
    let i : Fin 8 := ⟨(if agentPort a = some true then 4 else 0) + (off - 0x300) / 16, by split <;> omega⟩
    some (if off % 16 = 0 then s.peerBase.get i else s.peerLim.get i)
  else if 0x1000 ≤ off ∧ off < 0x2000 then some (BitVec.ofNat 64 (leNat ((s.capblock.drop (off - 0x1000)).take 8)))
  else
    match off with
    | 0x200 => some s.irqsrc
    | 0x208 => (agentPort a).map fun p => if p then 2 else 1
    | 0x210 => some (BitVec.ofNat 64 s.errBase)
    | 0x218 => some s.errHead
    | 0x220 => some s.errTail
    | 0x228 => some s.errLost
    | 0x240 => some s.fwbuf
    | 0x248 => some (Config.freeWord s.free)
    | 0x250 => some s.fwstat
    | 0x260 => some s.bootstat
    | 0x268 => some s.modpwr
    | 0x270 => some s.therm
    | _ => none

/-- The least D among a partition's cores (R439): GATE. -/
def State.partGate (s : State) (p : Part) : Nat := (s.partCores p).foldl (fun m c => min m (s.core c).gate) 16

/-- What an agent reads in a partition's block. (DESIGN CHOICE, log 106.) -/
def State.readPart? (s : State) (n : Nat) (p : Part) (off : Nat) : Option Word :=
  if h : 0x040 ≤ off ∧ off < 0x060 then some (p.inlets.get ⟨(off - 0x40) / 8, by omega⟩)
  else if h : 0x080 ≤ off ∧ off < 0x100 then some (p.pqcfg.get ⟨(off - 0x80) / 8, by omega⟩)
  else
    match off with
    | 0x000 => some p.partcfg
    | 0x008 => some p.ctxbase
    | 0x010 => some p.faultq
    | 0x018 => some p.faulthead
    | 0x020 => some p.faulttail
    | 0x060 | 0x100 | 0x108 | 0x148 => some (Config.freeWord s.free)
    | 0x110 => some p.invctx
    | 0x118 => some p.invva
    | 0x120 => some p.invlen
    | 0x128 => some (if p.invdone then 1 else 0)
    | 0x140 => some p.faultvec
    | 0x150 => some (if p.resetting then 1 else 0)
    | 0x158 => some p.pwrreq
    | 0x160 => some p.pwrnow
    | 0x168 => some p.tempmax
    | 0x170 => some (BitVec.ofNat 64 (s.partGate p))
    | 0x178 => some (BitVec.ofNat 64 (s.partMem n))
    | _ => none

/-- What an agent reads at an offset of the control space; none for an unsupported request. A read of a semaphore that takes
it is SEMAPHORE_READ. -/
def State.readReg (s : State) (a : Agent) (off : Nat) : Option Word :=
  if off % 8 ≠ 0 then none
  else if off < 0x10_0000 then s.readModule a off
  else
    (s.blockPart (off / 0x10_0000 * 0x10_0000)).bind fun n =>
      (s.parts[n]?).bind fun p => s.readPart? n p (off % 0x10_0000)

/-- An agent reads the control space (R392, R394, R395): the register's value goes out, a semaphore is taken by its read, and where there is
nothing to read the request is unsupported, and logged (R387). -/
def State.registerRead (s : State) (a : Agent) (off : Nat) : State :=
  if !s.hears a then s
  else if off < 0x80 ∧ off % 8 = 0 then stateOf s (execSemaphoreRead a (BitVec.ofNat 4 (off / 8)) s)
  else
    match s.readReg a off with
    | some v => { s with free := s.free + 1 }.reply (.data (leBytes 8 v.toNat))
    | none => (s.refuse a off).reply .unsupported

end Sys2Proof.Machine
end

