-- ==== Sys2Proof/Machine/Sha3.lean ====
section
/-! DEFINITION. SHA3-256, the hash that images, reports and the capability block use (R334, R404, R425, R428). The spec names
the function and does not restate it. -/

namespace Sys2Proof.Machine

/-- The hash's state: 25 lanes, five to a plane. -/
abbrev Sponge : Type := Vector Word 25

/-- Where column `x` of plane `y` stands, both modulo 5. -/
def lanePlace (x y : Nat) : Fin 25 := Fin.ofNat 25 (x % 5 + 5 * (y % 5))

/-- The parity of a column over the planes. -/
def columnParity (a : Sponge) (x : Nat) : Word := (List.range 5).foldl (fun w y => w ^^^ a.get (lanePlace x y)) 0

/-- Every lane takes up the parities of the columns beside it. -/
def spread (a : Sponge) : Sponge :=
  Vector.ofFn fun i => a.get i ^^^ columnParity a (i.val + 4) ^^^ (columnParity a (i.val + 1)).rotateLeft 1

/-- The lanes but the first change places along one chain, the `t`-th turned by the `t`-th triangular number. -/
def shuffle (a : Sponge) : Sponge :=
  ((List.range 24).foldl (fun (q : Nat × Nat × Sponge) t =>
    let dest := lanePlace q.2.1 (2 * q.1 + 3 * q.2.1)
    (q.2.1, (2 * q.1 + 3 * q.2.1) % 5,
      q.2.2.set dest.val ((a.get (lanePlace q.1 q.2.1)).rotateLeft ((t + 1) * (t + 2) / 2 % 64)) dest.isLt)) (1, 0, a)).2.2

/-- Each lane takes up the next of its plane but one, masked by the next. -/
def combine (a : Sponge) : Sponge :=
  Vector.ofFn fun i =>
    let y := i.val / 5
    a.get i ^^^ (a.get (lanePlace (i.val + 2) y) &&& ~~~(a.get (lanePlace (i.val + 1) y)))

/-- The generator of the round constants, over the polynomial x^8 + x^6 + x^5 + x^4 + 1. -/
def nextBit (r : Nat) : Nat := if r < 128 then 2 * r else (2 * r) ^^^ 0x171

/-- The seven bits of a round's constant, from the generator at `r`, and where it stands then. -/
def roundConst (r : Nat) : Nat × Nat :=
  [0, 1, 3, 7, 15, 31, 63].foldl (fun q p => (q.1 + q.2 % 2 * 2 ^ p, nextBit q.2)) (0, r)

/-- One round; the generator goes with the state. -/
def spongeRound (q : Sponge × Nat) : Sponge × Nat :=
  let a := combine (shuffle (spread q.1))
  let k := roundConst q.2
  (a.set 0 (a[0] ^^^ BitVec.ofNat 64 k.1), k.2)

/-- The 24 rounds. -/
def permute (a : Sponge) : Sponge := ((List.range 24).foldl (fun q _ => spongeRound q) (a, 1)).1

/-- A message with its padding, whole blocks of 136 bytes. -/
def sha3Blocks (m : List Byte) : List Byte :=
  let n := 136 - m.length % 136
  m ++ (List.range n).map fun i => (if i = 0 then 0x06 else 0) ||| (if i + 1 = n then 0x80 else 0)

/-- A block goes into the first 17 lanes. -/
def takeBlock (p : List Byte) (a : Sponge) (k : Nat) : Sponge :=
  permute (Vector.ofFn fun i =>
    if i.val < 17 then a.get i ^^^ BitVec.ofNat 64 (leNat ((p.drop (136 * k + 8 * i.val)).take 8)) else a.get i)

/-- SHA3-256: the first 32 bytes of the state once every block is in. -/
def sha3 (m : List Byte) : List Byte :=
  let p := sha3Blocks m
  (((List.range (p.length / 136)).foldl (takeBlock p) (Vector.replicate 25 0)).toList.take 4).flatMap fun w => leBytes 8 w.toNat

end Sys2Proof.Machine
end

