-- ==== Sys2Proof/Machine/Firmware.lean ====
section
/-! DEFINITION. The firmware mailbox: image updates, attestation, layout changes, the configuration record, export and import
of checkpoint images (R423 to R432, R440 to R442). -/

namespace Sys2Proof.Machine

/-! ### What the spec does not restate: free values -/

/-- A free value: the measurement of an image (R432, R429), from its bytes. -/
opaque measure : List Byte → BitVec 256

/-- A free value: the measurement of the image that a slot has from manufacture (R429, R434). -/
opaque factoryMeasure : Nat → BitVec 256

/-- A free value: the bytes of the configuration record, whose format the spec does not give (R429 to R431). -/
opaque recordBytes : Record → List Byte

/-- Free values: the layout a request buffer names (R431), and whether the limits in force allow it (R430); the formats of
both are not given. -/
opaque layoutOf : List Byte → List (List Nat × Bool)
@[inherit_doc layoutOf]
opaque layoutAllowed : List Byte → List (List Nat × Bool) → Bool

/-! ### FWSTAT codes (R431) -/

def fwDone : BitVec 8 := 2
def fwBadsig : BitVec 8 := 3
def fwRollback : BitVec 8 := 4
def fwMalformed : BitVec 8 := 5
def fwFailed : BitVec 8 := 6
def fwDenied : BitVec 8 := 7

/-- The partition whose lowest stop a command names. -/
def State.partAt (s : State) (stop : Nat) : Option Nat := s.parts.findIdx? fun p => !p.stops.isEmpty && p.low == stop

/-- A command starts (R431): FWCMD is written by the holder of SEM1 while no command runs; else the write is discarded. The buffer is
the one FWBUF names then, `n` bytes of it; one the agent may not use fails the command. It starts once no host holds a line of the
buffer exclusively (R390). -/
def State.startFw (s : State) (a : Agent) (f : FwBusy) (n : Nat) : State :=
  if !s.hears a || !s.holdsSem 1 a || s.fwbusy.isSome || s.hostHolds f.buf n then s
  else
    let g := if s.mayUse a f.buf n then f else { f with fail := fwDenied }
    { s with fwstat := BitVec.ofNat 64 (f.cmd.toNat * 256 + 1), fwbusy := some g }

/-- A command of a number, before any check. -/
def FwBusy.start (cmd : BitVec 8) (part : Option Nat) (a : Agent) (buf : Nat) : FwBusy := ⟨cmd, part, a, buf, 0, 0, 0, [], []⟩

/-! ### Images (R425, R426) -/

/-- Fields of an image header. -/
def imKind (h : Nat) : Nat := bitsOf h 55 48
def imSvn (h : Nat) : Nat := bitsOf h 95 64
def imLen (h : Nat) : Nat := bitsOf h 127 96
def imStops (h : Nat) : Nat := bitsOf h 399 384

/-- Step 1 of R426: MAGIC, VER, KIND, LEN and the reserved bits. -/
def imageFormOk (h : Nat) : Bool :=
  bitsOf h 31 0 == 0x4F56_4657 && bitsOf h 47 32 == 1 && decide (1 ≤ imKind h) && decide (imKind h ≤ 3) &&
    decide (1 ≤ imLen h) && decide (imLen h ≤ 2 ^ 24) && bitsOf h 63 56 == 0 && bitsOf h 2047 400 == 0

/-- Where the signature block of an image starts (R425). -/
def sigAt (len : Nat) : Nat := (256 + len + 7) / 8 * 8

/-- Bytes of an image: header, body, and the signature block at the next multiple of 8 (R425). -/
def imageBytes (len : Nat) : Nat := sigAt len + (32 + 1952 + 64 + 3309)

/-- `n` bytes of a list from an offset. -/
def slice (b : List Byte) (off n : Nat) : List Byte := (b.drop off).take n

/-- The checks of R426 on an image, with the counters: 0 where it is accepted. (DEDUCED, log 87.) -/
def imageCheck (svn : Vector (BitVec 32) 3) (b : List Byte) : BitVec 8 :=
  let h := leNat (b.take 256)
  let at' := sigAt (imLen h)
  let ed := slice b at' 32
  let ml := slice b (at' + 32) 1952
  let head := b.take 256
  if !imageFormOk h then fwMalformed
  else if leNat (sha3 ed) ≠ (Config.fusedKeyHash false).toNat ∨ leNat (sha3 ml) ≠ (Config.fusedKeyHash true).toNat then fwBadsig
  else if !Config.ed25519Ok ed head (slice b (at' + 1984) 64) then fwBadsig
  else if !Config.mldsaOk ml head (slice b (at' + 2048) 3309) then fwBadsig
  else if leNat (sha3 (slice b 256 (imLen h))) ≠ bitsOf h 383 128 then fwBadsig
  else if imSvn h < (svn.toList.getD (imKind h - 1) 0).toNat then fwRollback
  else 0

/-- The mask of a partition's stops, as STOPS has it (R425). -/
def stopMask (stops : List Nat) : Nat := (stops.map fun t => 2 ^ t).sum

/-- What the checks of an image in memory come to (R426): uncorrectable data fails them where the step that needs it would be taken. (DEDUCED, log 87.) -/
def State.imageStatus (s : State) (base : Nat) : BitVec 8 :=
  let h := leNat (s.readPhys base 256)
  if s.memPoisoned base 256 then fwFailed
  else if !imageFormOk h then fwMalformed
  else if s.memPoisoned base (imageBytes (imLen h)) then fwFailed
  else imageCheck s.flash.svn (s.readPhys base (imageBytes (imLen h)))

/-- FW_UPDATE_IMAGE (R426, R431, R432): the image in the buffer is verified, and an accepted one starts in the place of the
instance it is for, which stops. -/
def execFwUpdateImage (a : Agent) (stop : Nat) (s : State) : Host.Outcome State Fault Refusal :=
  .next (
    let base := s.fwbuf.toNat
    let h := leNat (s.readPhys base 256)
    let n := if imageFormOk h then imageBytes (imLen h) else 256
    let part := s.partAt stop
    let mask := match part.bind fun k => s.parts[k]? with | some p => stopMask p.stops | none => 0
    let c := s.imageStatus base
    let fail := if c ≠ 0 then c else if imKind h = 2 ∧ imStops h ≠ 0 ∧ imStops h ≠ mask then fwDenied else 0
    s.startFw a { FwBusy.start 1 (if imKind h = 2 ∧ imStops h ≠ 0 then part else none) a base with
      fail := fail, kind := imKind h, svn := BitVec.ofNat 32 (imSvn h), image := s.readPhys base n } n)

/-- Bytes of an attestation report and its two signatures (R429). -/
def reportBytes : Nat := 1024 + 64 + 3309

/-- FW_ATTEST (R429, R431). -/
def execFwAttest (a : Agent) (s : State) : Host.Outcome State Fault Refusal :=
  .next (s.startFw a (FwBusy.start 2 none a s.fwbuf.toNat) reportBytes)

/-- FW_CHANGE_LAYOUT (R430, R431). -/
def execFwChangeLayout (a : Agent) (s : State) : Host.Outcome State Fault Refusal :=
  .next (s.startFw a (FwBusy.start 3 none a s.fwbuf.toNat) 4096)

/-- FW_READ_RECORD (R431). -/
def execFwReadRecord (a : Agent) (s : State) : Host.Outcome State Fault Refusal :=
  .next (s.startFw a (FwBusy.start 4 none a s.fwbuf.toNat) (recordBytes s.flash.record).length)

/-- FW_EXPORT (R440). -/
def execFwExport (a : Agent) (stop : Nat) (s : State) : Host.Outcome State Fault Refusal :=
  .next (s.startFw a (FwBusy.start 5 (s.partAt stop) a s.fwbuf.toNat) 16)

/-- FW_IMPORT (R440): the frames the partition gives are named here. -/
def execFwImport (a : Agent) (stop : Nat) (frames : List Nat) (s : State) : Host.Outcome State Fault Refusal :=
  .next (s.startFw a { FwBusy.start 6 (s.partAt stop) a s.fwbuf.toNat with frames := frames } 16)

/-! ### Identity and attestation (R428, R429) -/

/-- The 32 bytes a key pair derives from: SHA3-256 of what it is bound to and the label of its algorithm. -/
def keySecret (bound label : List Byte) : List Byte := sha3 (bound ++ label)

/-- "ID-ED" and "ID-ML". -/
def labelEd : List Byte := [0x49, 0x44, 0x2D, 0x45, 0x44]
@[inherit_doc labelEd]
def labelMl : List Byte := [0x49, 0x44, 0x2D, 0x4D, 0x4C]

/-- The public keys, Ed25519 and ML-DSA-65, of what a key pair is bound to. -/
def publicKeys (bound : List Byte) : List Byte × List Byte :=
  ((Config.edPublic (keySecret bound labelEd)).toList, (Config.mldsaPublic (keySecret bound labelMl)).toList)

/-- Both signatures over a message with the keys bound to something. -/
def signBoth (bound msg : List Byte) : List Byte :=
  (Config.edSign (keySecret bound labelEd) msg).toList ++ (Config.mldsaSign (keySecret bound labelMl) msg).toList

/-- What the identity keys are bound to: the seed. -/
def seedBytes (seed : BitVec 256) : List Byte := leBytes 32 seed.toNat

/-- What the attestation keys are bound to: the seed and the Crust's measurement. (DEDUCED, log 107.) -/
def attestBound (seed crust : BitVec 256) : List Byte := seedBytes seed ++ leBytes 32 crust.toNat

/-- The certificate of the attestation keys that the identity keys sign as a Crust starts; none without a seed. (DEDUCED, log 107.) -/
def certOf (seed : Option (BitVec 256)) (crust : BitVec 256) : List Byte :=
  match seed with
  | none => []
  | some k =>
    let keys := publicKeys (attestBound k crust)
    keys.1 ++ keys.2 ++ signBoth (seedBytes k) (keys.1 ++ keys.2)

/-- The 1,024 bytes of an attestation report (R429). -/
def State.report (s : State) (seed : BitVec 256) (nonce : List Byte) : List Byte :=
  let keys := publicKeys (seedBytes seed)
  nonce ++ sha3 keys.1 ++ sha3 keys.2 ++ leBytes 32 s.crust.toNat ++
    (s.crumbs.toList.flatMap fun m => leBytes 32 m.toNat) ++ sha3 (recordBytes s.flash.record) ++
    (s.flash.svn.toList.flatMap fun c => leBytes 4 c.toNat) ++ leBytes 8 s.tick ++ List.replicate 428 0

/-! ### What a command does as it ends -/

/-- The Crust's slot among the images flash records. -/
def crustSlot : Nat := 13

/-- The measurement of the image a program starts from: the last one accepted for its slot, or that of manufacture (R427, R429,
R432). -/
def Flash.measured (f : Flash) (slot : Nat) : BitVec 256 :=
  ((f.images.find? fun q => q.1 == slot).map Prod.snd).getD (factoryMeasure slot)

/-- An accepted image whose program has reported ready: its measurement, its counter, for KIND 1 the Crust the next power-on starts and
its certificate, and for KIND 3 the limits (R426 to R428, R430, R432). -/
def State.adopt (s : State) (f : FwBusy) : State :=
  let m := measure f.image
  let low := match f.part.bind fun n => s.parts[n]? with | some p => 1 + p.low | none => 0
  let slot := if f.kind = 1 then crustSlot else low
  let fl := if f.kind = 3 then
      s.flash.rewrite { s.flash.record with limits := slice f.image 256 (imLen (leNat (f.image.take 256))) }
    else s.flash
  let s1 := { s with flash := { fl with
    images := if f.kind = 3 then s.flash.images else (slot, m) :: s.flash.images.filter fun q => q.1 ≠ slot
    svn := if h : f.kind - 1 < 3 then s.flash.svn.set (f.kind - 1) f.svn else s.flash.svn
    crust := if f.kind = 1 then some f.image else s.flash.crust } }
  match f.kind with
  | 1 => { s1 with crust := m, cert := certOf s.seed m }
  | 2 => if h : low < 13 then { s1 with crumbs := s1.crumbs.set low m } else s1
  | _ => s1

/-- Whether a layout is one of whole stops, each in exactly one partition (R18). -/
def layoutForm (l : List (List Nat × Bool)) : Bool :=
  l.all (fun p => [1, 2, 3, 4, 6, 12].contains p.1.length && rises p.1 && p.1.all fun t => decide (t < 12)) &&
    decide (l.flatMap Prod.fst).Nodup && decide ((l.flatMap Prod.fst).length = 12)

/-- A partition as it is created (R335, R355, R393, R430): its registers at reset, not serving until it has its epoch. -/
def Part.create (stops : List Nat) (urgentClass : Bool) : Part where
  stops := stops
  epoch := 0
  count := 0
  urgent := urgentClass
  partcfg := if urgentClass then 0x10 else 0
  ctxbase := 0
  faultq := 0
  faulthead := 0
  faulttail := 0
  faultvec := 0
  inlets := Vector.replicate 4 0
  nextInlet := Vector.replicate 4 none
  pqcfg := Vector.replicate 16 0
  pond := Vector.replicate 16 []
  pondways := min 8 Config.crumbPondways
  invctx := 0
  invva := 0
  invlen := 0
  invdone := false
  pwrreq := 600000
  pwrnow := 0
  tempmax := 0
  resetting := true
  quantum := max 2300000 Config.crumbQuantum
  launches := []
  posted := []
  outstanding := []
  consumeAt := 0
  contexts := []
  images := []
  inletRst := 0

/-- A partition that a new layout does not keep: it is reset, and has no stop and no Inlet left; its launches end with RESET once its
memory is zero (R421). -/
def State.removePart (s : State) (n : Nat) : State :=
  (s.beginReset n).modPart n fun q => { q with stops := [], inlets := Vector.replicate 4 0 }

/-- The layout changes (R421, R430): the partitions that differ are reset, the others keep running; a slot of R429 is zero where no
partition starts. -/
def State.relayout (s : State) (l : List (List Nat × Bool)) : State :=
  let kept (p : Part) : Bool := l.any fun q => q.1 == p.stops && q.2 == p.urgent
  let s1 := (List.range s.parts.length).foldl (fun t n =>
    match s.parts[n]? with
    | some p => if p.stops.isEmpty || kept p then t else t.removePart n
    | none => t) s
  let new := l.filter fun q => !(s.parts.any fun p => p.stops == q.1 && p.urgent == q.2)
  let parts := s1.parts ++ new.map fun q => Part.create q.1 q.2
  let keeps (slot : Nat) : Bool := s1.parts.any fun p => !p.stops.isEmpty && 1 + p.low == slot
  let starts (slot : Nat) : Bool := parts.any fun p => !p.stops.isEmpty && 1 + p.low == slot
  { s1 with
    parts := parts, flash := s1.flash.rewrite { s1.flash.record with layout := l }
    crumbs := Vector.ofFn fun i : Fin 13 =>
      if i.val = 0 ∨ keeps i.val = true then s1.crumbs.get i
      else if starts i.val then s1.flash.measured i.val else 0 }

/-! ### Checkpoint images (R440 to R442) -/

/-- A page of an image: virtual address, level, the low bits of its leaf, and the frame that holds it. -/
abbrev ImagePage := Nat × Nat × Nat × Nat

/-- SIZE of an entry, and back (R441). -/
def sizeCode (level : Nat) : Nat := 3 - level

/-- A manifest: the header and its entries (R441). -/
def manifest (step : Nat) (pages : List ImagePage) : List Byte :=
  leBytes 64 (0x4F56_4D47 + 2 ^ 32 + step * 2 ^ 128 + pages.length * 2 ^ 192) ++
    pages.flatMap fun p => leBytes 16 (p.1 * 2 ^ 64 + sizeCode p.2.1 * 2 ^ 6 + p.2.2.1 / 4 % 64)

/-- Bytes before the frames of an area of `n` entries (R441). -/
def manifestBytes (n : Nat) : Nat := (64 + 16 * n + 65535) / 65536 * 65536

/-- Where each page of an image stands in an area whose frames start at an address. -/
def imagePlaces : Nat → List ImagePage → List (Nat × ImagePage)
  | _, [] => []
  | a, p :: t => (a, p) :: imagePlaces (a + 2 ^ pageBits p.2.1) t

/-- An export (R440, R441): its status and the state after it. -/
def State.exportImage (s : State) (f : FwBusy) : State × BitVec 8 :=
  match f.part.bind fun n => (s.parts[n]?).map fun p => (n, p) with
  | none => (s, fwDenied)
  | some (n, p) =>
    let ctx : BitVec 16 := BitVec.ofNat 16 (leNat (s.readPhys f.buf 8))
    let area := leNat (s.readPhys (f.buf + 8) 8)
    let pages := ((p.images.find? fun q => q.1 == ctx).map Prod.snd).getD []
    let first := area + manifestBytes pages.length
    let total := manifestBytes pages.length + (pages.map fun q => 2 ^ pageBits q.2.1).sum
    if s.memPoisoned f.buf 16 || s.memPoisoned (s.ctxAt n ctx) 16 then (s, fwFailed)
    else if p.launches.any (fun l => lrCtx l.record == ctx && l.phase != .complete) || area % 65536 != 0 ||
        !s.mayUse f.who area total then (s, fwDenied)
    else
      let s1 := s.writePhys area (manifest (s.ctxDesc n ctx / 2 ^ 64) pages)
      ((imagePlaces first pages).foldl (fun t x => t.copyFrames (x.2.2.2.2 * 2 ^ 16) x.1 (2 ^ pageBits x.2.2.1)) s1, fwDone)

/-- The pages of a manifest; none where it is malformed (R441). -/
def parseManifest (h : Nat) (entries : List Nat) : Option (List ImagePage) :=
  let bad (e : Nat) : Bool :=
    let va := bitsOf e 127 64
    bitsOf e 63 8 != 0 || bitsOf e 7 6 == 3 || va % 2 ^ pageBits (3 - bitsOf e 7 6) != 0 || decide (2 ^ 56 ≤ va)
  if bitsOf h 31 0 ≠ 0x4F56_4D47 ∨ bitsOf h 63 32 ≠ 1 ∨ bitsOf h 127 64 ≠ 0 ∨ bitsOf h 511 224 ≠ 0 ∨ entries.any bad = true then
    none
  else some (entries.map fun e => (bitsOf e 127 64, 3 - bitsOf e 7 6, bitsOf e 5 0 * 4, 0))

/-- Frames, as spans of a first frame and a number. -/
abbrev Frames := List (Nat × Nat)

/-- Whether a span of frames meets none of a list. -/
def framesFree (used : Frames) (base n : Nat) : Bool := used.all fun q => decide (q.1 + q.2 ≤ base) || decide (base + n ≤ q.1)

/-- Frames of a page at a level. -/
def pageFrames (level : Nat) : Nat := 2 ^ (pageBits level - 16)

/-- The frames that a table at a level, and what it leads to, takes: its own, those of the tables below it, and those its leaves map. -/
def tableFrames (s : State) : Nat → Nat → Nat → Frames
  | 0, _, frame => [(frame, 1)]
  | f + 1, level, frame =>
    (frame, 1) :: (List.range 1024).flatMap fun i =>
      let e : Word := BitVec.ofNat 64 (leNat (s.readPhys (frame * 2 ^ 16 + 8 * i) 8))
      if !pteV e || pteMalformed e level then []
      else if pteLeaf e then (if pteHost e then [] else [((pteFrame e).toNat, pageFrames level)])
      else tableFrames s f (level + 1) (pteFrame e).toNat

/-- The frames of a partition that are in use, where an import finds none: those of its contexts' tables and pages, of its checkpoint
images, of its context table and fault queue, and of its Inlets. (DEDUCED, log 108.) -/
def State.usedFrames (s : State) (n : Nat) (p : Part) : Frames :=
  ((p.contexts.filter fun c => s.ctxValid n c).flatMap fun c => tableFrames s 4 0 (bitsOf (s.ctxDesc n c) 51 16)) ++
    (p.images.flatMap fun i => i.2.map fun l => (l.2.2.2, pageFrames l.2.1)) ++
    [(p.ctxbase.toNat / 2 ^ 16, 16), (p.faultq.toNat / 2 ^ 16, 1)] ++
    (p.inlets.toList.filter fun b => b ≠ 0).map fun b =>
      (b.toNat / 2 ^ 16, (b.toNat % 2 ^ 16 + 256 + 256 * s.inletSize b.toNat + 65535) / 2 ^ 16)

/-- A frame of tables as it is taken: nothing in it, and nothing of it held anywhere. -/
def State.clearTable (s : State) (t : Nat) : State :=
  let s1 := s.forgetSpan (t * 2 ^ 16) 8192
  let out (a : Nat) : Bool := decide (a < t * 2 ^ 16) || decide (t * 2 ^ 16 + 8192 ≤ a)
  { s1 with mem := s1.mem.filter fun c => out c.1, memBad := s1.memBad.filter fun p => out (64 * p.1) }

/-- Installs a leaf below a table frame, with new tables from the frames given: none where they do not suffice or the place is
taken. -/
def installLeaf (va target : Nat) (leaf : Word) : Nat → Nat → Nat → List Nat → State → Option (State × List Nat)
  | 0, _, _, _, _ => none
  | f + 1, level, frame, free, s =>
    let at' := frame * 2 ^ 16 + 8 * walkIndex va level
    let e : Word := BitVec.ofNat 64 (leNat (s.readPhys at' 8))
    if level = target then (if pteV e then none else some (s.writePhys at' (leBytes 8 leaf.toNat), free))
    else if pteV e then (if pteLeaf e then none else installLeaf va target leaf f (level + 1) (pteFrame e).toNat free s)
    else
      match free with
      | [] => none
      | t :: rest =>
        installLeaf va target leaf f (level + 1) t rest ((s.clearTable t).writePhys at' (leBytes 8 (1 + t * 2 ^ 16)))

/-- Whether the frames given for an import serve it: each page of it takes the next one and those after it that its size asks for,
aligned and in the partition, and no frame is taken twice. -/
def framesServe (s : State) (part : Nat) : List ImagePage → List Nat → Frames → Bool
  | [], rest, used => rest.all fun t => framesFree used t 1 && decide (s.ownerOf (t * 2 ^ 16) = some part)
  | _ :: _, [], _ => false
  | p :: t, base :: rest, used =>
    let n := pageFrames p.2.1
    decide (base % n = 0) && framesFree used base n && decide (s.ownerOf ((base + n - 1) * 2 ^ 16) = some part) &&
      decide (s.ownerOf (base * 2 ^ 16) = some part) && framesServe s part t rest ((base, n) :: used)

/-- The leaf of an imported page (R442): CKPT set, A and D clear, the target's KEY. -/
def importedLeaf (p : ImagePage) (key : BitVec 4) (base : Nat) : Word :=
  BitVec.ofNat 64 (3 + p.2.2.1 % 2 ^ 8 + 2 ^ 8 + key.toNat * 2 ^ 12 + base * 2 ^ 16)

/-- Copies the pages of an image into frames and maps them (R440, R442). The frames come pages first, then those for tables. -/
def State.installPages (key : BitVec 4) (root : Nat) (tables : List Nat) :
    List ((Nat × ImagePage) × Nat) → List ImagePage → State → Option (State × List ImagePage)
  | [], done, s => some (s, done)
  | ((src, p), base) :: t, done, s =>
    let leaf := importedLeaf p key base
    match installLeaf p.1 p.2.1 leaf 4 0 root tables (s.copyFrames src (base * 2 ^ 16) (2 ^ pageBits p.2.1)) with
    | none => none
    | some (s1, left) => State.installPages key root left t (done ++ [(p.1, p.2.1, leaf.toNat % 2 ^ 16, base)]) s1

/-- An import (R440 to R442): its status and the state after it. Nothing is copied unless every line of the area can be read; the
frames are the root's, then each page's first, then those for the tables below the root. -/
def State.importImage (s : State) (f : FwBusy) : State × BitVec 8 :=
  match f.part.bind fun n => (s.parts[n]?).map fun p => (n, p), f.frames with
  | some (n, p), root :: frames =>
    let ctx : BitVec 16 := BitVec.ofNat 16 (leNat (s.readPhys f.buf 8))
    let area := leNat (s.readPhys (f.buf + 8) 8)
    let h := leNat (s.readPhys area 64)
    let npages := bitsOf h 223 192
    let entries := (List.range npages).map fun i => leNat (s.readPhys (area + 64 + 16 * i) 16)
    if s.memPoisoned f.buf 16 || s.memPoisoned (s.ctxAt n ctx) 16 then (s, fwFailed)
    else if s.ctxValid n ctx || area % 65536 != 0 || !s.mayUse f.who area 64 then (s, fwDenied)
    else if s.memPoisoned area (64 + 16 * npages) then (s, fwFailed)
    else
      match parseManifest h entries with
      | none => (s, fwDenied)
      | some pages =>
        let places := imagePlaces (area + manifestBytes npages) pages
        let size := manifestBytes npages + (pages.map fun q => 2 ^ pageBits q.2.1).sum
        let used := (root, 1) :: (area / 2 ^ 16, (size + 65535) / 2 ^ 16) :: (f.buf / 2 ^ 16, 1) :: s.usedFrames n p
        if s.memPoisoned area size then (s, fwFailed)
        else if !s.mayUse f.who area size || decide (s.partMem n < areaBytes * 8 * p.stops.length) ||
            !framesFree (used.drop 1) root 1 || decide (s.ownerOf (root * 2 ^ 16) ≠ some n) ||
            !framesServe s n pages frames used || !decide (frames.drop pages.length).Nodup then (s, fwDenied)
        else
          match State.installPages (s.ctxKey n ctx) root (frames.drop pages.length) (places.zip frames) [] (s.clearTable root) with
          | none => (s, fwDenied)
          | some (s2, done) =>
            let desc := 1 + (s.ctxKey n ctx).toNat * 2 ^ 12 + root % 2 ^ 36 * 2 ^ 16 + bitsOf h 191 128 * 2 ^ 64
            ((s2.writePhys (s.ctxAt n ctx) (leBytes 16 desc)).modPart n fun q =>
              { q with
                contexts := ctx :: q.contexts.filter fun c => c ≠ ctx
                images := (ctx, done) :: q.images.filter fun z => z.1 ≠ ctx }, fwDone)
  | _, _ => (s, fwDenied)

/-- What a command that passed its start does as it ends, and its status. -/
def State.runFw (s : State) (f : FwBusy) (ok : Bool) : State × BitVec 8 :=
  if f.fail ≠ 0 then (s, f.fail)
  else
    match f.cmd.toNat with
    | 1 => if ok then (s.adopt f, fwDone) else (s, fwFailed)
    | 2 =>
      match s.seed with
      | none => (s, fwFailed)
      | some k =>
        if s.memPoisoned f.buf 32 then (s, fwFailed)
        else
          let r := s.report k (s.readPhys f.buf 32)
          (s.writePhys f.buf (r ++ signBoth (attestBound k s.crust) r), fwDone)
    | 3 =>
      let l := layoutOf (s.readPhys f.buf 4096)
      if s.memPoisoned f.buf 4096 then (s, fwFailed)
      else if layoutForm l && layoutAllowed s.flash.limits l then (s.relayout l, fwDone) else (s, fwDenied)
    | 4 => (s.writePhys f.buf (recordBytes s.flash.record), fwDone)
    | 5 => s.exportImage f
    | _ => s.importImage f

/-- Whether a host holds a line that a command's end writes or copies from (R390): what it writes to its buffer, the area of an
export or import, and the frames copied. -/
def State.fwWaits (s : State) (f : FwBusy) : Bool :=
  let area := leNat (s.readPhys (f.buf + 8) 8)
  let ctx : BitVec 16 := BitVec.ofNat 16 (leNat (s.readPhys f.buf 8))
  match f.cmd.toNat with
  | 2 => s.hostHolds f.buf reportBytes
  | 4 => s.hostHolds f.buf (recordBytes s.flash.record).length
  | 5 =>
    let pages : List ImagePage := match f.part.bind fun n => s.parts[n]? with
      | some p => ((p.images.find? fun z => z.1 == ctx).map Prod.snd).getD []
      | none => []
    s.hostHolds area (manifestBytes pages.length + (pages.map fun (q : ImagePage) => 2 ^ pageBits q.2.1).sum) ||
      pages.any fun (q : ImagePage) => s.hostHolds (q.2.2.2 * 2 ^ 16) (2 ^ pageBits q.2.1)
  | 6 =>
    let h := leNat (s.readPhys area 64)
    let entries := (List.range (bitsOf h 223 192)).map fun i => leNat (s.readPhys (area + 64 + 16 * i) 16)
    s.hostHolds area (64 + 16 * entries.length) ||
      match parseManifest h entries with
      | none => false
      | some pages =>
        s.hostHolds area (manifestBytes pages.length + (pages.map fun q => 2 ^ pageBits q.2.1).sum) ||
          f.frames.any (fun t => s.hostHolds (t * 2 ^ 16) (2 ^ 16)) ||
          (f.frames.tail.zip pages).any fun q => s.hostHolds (q.1 * 2 ^ 16) (2 ^ pageBits q.2.2.1)
  | _ => false

/-- FW_COMMAND_COMPLETE (R431, R432): the command ends and FWSTAT records its result; `ok` tells whether a new program has
reported ready. -/
def execFwCommandComplete (ok : Bool) (s : State) : Host.Outcome State Fault Refusal :=
  .next (match s.fwbusy with
    | none => s
    | some f =>
      if s.fwWaits f then s
      else
      let r := s.runFw f ok
      { r.1 with fwbusy := none, fwstat := BitVec.ofNat 64 (f.cmd.toNat * 256 + r.2.toNat) })

end Sys2Proof.Machine
end

