-- ==== Sys2Proof/Machine/Interlock.lean ====
section
/-! DEFINITION. The interlock of the V stream (R119, R145): when the registers a bundle reads hold the results of older bundles,
and when its slots take another word. -/

namespace Sys2Proof.Machine

/-! ### What a word reads -/

/-- The vector registers a V word reads. -/
def vecReads : Instr → List (BitVec 7)
  | .vadd _ _ a b _ | .vsub _ _ a b _ | .vmul _ _ a b _ | .vdiv _ _ a b _ | .vmin _ _ a b _ | .vmax _ _ a b _
  | .vminn _ _ a b _ | .vmaxn _ _ a b _ | .vcmp _ _ a b _ _ | .vrcps _ _ a b _ | .vrsqs _ _ a b _ | .viadd _ _ a b _
  | .visub _ _ a b _ | .vimul _ _ a b _ | .vimulh _ _ a b _ | .vand _ _ a b _ | .vor _ _ a b _ | .vxor _ _ a b _
  | .vandn _ _ a b _ | .vshl _ _ a b _ | .vshr _ _ a b _ | .vsar _ _ a b _ | .vrot _ _ a b _ | .vperm _ _ a b _
  | .vslideDn _ _ a b _ _ | .vslideUp _ _ a b _ _ | .vsel _ _ a b _ _ | .vprefeq _ a b _ | .vbtest _ _ a b _
  | .vbset _ _ a b _ => [a, b]
  | .vqblkGiven _ _ a b _ _ _ | .vdqblk _ _ a b _ _ _ => [a, b]
  | .vfma _ _ a b c _ | .vfms _ _ a b c _ | .vfnma _ _ a b c _ | .vimad _ _ a b c _ | .vfshl _ _ a b c _
  | .vfshr _ _ a b c _ | .vshuf _ _ a b c _ => [a, b, c]
  | .vsqrt _ _ a _ | .vclass _ _ a _ | .vrcpe _ _ a _ | .vrsqe _ _ a _ | .vexp2 _ _ a _ | .vlog2 _ _ a _ | .vsin _ _ a _
  | .vcos _ _ a _ | .vclz _ _ a _ | .vpopc _ _ a _ | .vredsum _ _ a _ | .vredmax _ _ a _ | .vredmin _ _ a _
  | .vredarg _ _ a _ _ | .vscan _ _ a _ _ | .vext _ a _ _ | .vtab _ a _ _ _ | .vsnap _ _ a
  | .vmass _ _ a _ _ | .vst _ a _ _ _ _ => [a]
  | .vcvt _ _ a _ _ _ | .vqblk _ _ a _ _ _ => [a]
  | .vshort _ d a _ _ => [a, d, d + 1]
  | .vgats _ _ _ b _ => [b]
  | .vscats _ a _ b _ => [a, b]
  | _ => []

/-- The lane masks a V word names as operands; MASK itself apart. -/
def maskReads : Instr → List (BitVec 3)
  | .vsel _ _ _ _ m _ => [m]
  | .vmpop _ m _ => [m]
  | .vmlog _ _ a b _ => [a, b]
  | _ => []

/-- The scalar sources of a V word. -/
def vecScalars : Instr → List Src
  | .vld _ _ a _ _ _ | .vst _ _ a _ _ _ | .vgats _ _ a _ _ | .vscats _ _ a _ _ | .vbcast _ _ a _ | .vslideDn _ _ _ _ a _
  | .vslideUp _ _ _ _ a _ | .vext _ _ a _ | .vtab _ _ _ a _ | .vshort _ _ _ a _ => [a]
  | .vlds _ _ a b _ | .vins _ _ a b _ | .vmass _ _ _ a b => [a, b]
  | .vnoise _ _ a b c => [a, b, c]
  | _ => []

/-- Whether a source is the history queue. -/
def isHistory : Src → Bool
  | .h _ => true
  | .k _ => false

/-- Whether a scalar word of V reads the history queue, by its source fields (R63, R74): a field a form does not use is zero. -/
def scalarHistory (w : Word) : Bool :=
  let o := (fOpc w).toNat
  let a := isHistory (Src.ofCode (fA w))
  if [0x02, 0x06, 0x11, 0x19, 0x21].contains o then a
  else if o = 0x1A then a || decide (16 ≤ (fD w).toNat)
  else if [0x03, 0x04, 0x05, 0x10, 0x12, 0x13, 0x15, 0x17, 0x1B, 0x1E].contains o || (decide (0x07 ≤ o) && decide (o ≤ 0x0F)) then
    a || isHistory (Src.ofCode (fB w)) || (o == 0x12 && isHistory (Src.ofCode (fF w)))
  else false

/-! ### Latencies and issue intervals (R119, R145) -/

/-- The result latency and the issue interval of a V word; `e` is the entries a `VTAB` stores for a row. -/
def vecTiming (e : Nat) (w : Word) : Nat × Nat :=
  let o := (fOpc w).toNat
  let ty := (ElemTy.ofCode (fTY w)).getD .f32
  if [0x86, 0x87].contains o then (if ty = .f64 then (22, 8) else (14, 4))
  else if 0x94 ≤ o ∧ o ≤ 0x97 then (10, 2)
  else if [0x98, 0x99, 0x9A, 0xA2, 0xA3, 0xA4].contains o then (4, 1)
  else if o ≤ 0x93 then (if ty = .f64 then (5, 1) else if ty.isFloat then (4, 1) else (2, 1))
  else if o ≤ 0xB0 then (2, 1)
  else
    match o with
    | 0xC0 | 0xC2 => (6, 1)
    | 0xC1 => (0, 1)
    | 0xC3 => (10, 4)
    | 0xC4 => (0, 4)
    | 0xD0 | 0xD1 | 0xD2 | 0xD3 =>
      match ty with
      | .f32 => (24, 2)
      | .f16 | .bf16 => (28, 2)
      | .f64 => (25, 2)
      | _ => (2, 1)
    | 0xD4 => if ty.isFloat then (ty.lanes + 4, ty.lanes) else (8, 1)
    | 0xD5 | 0xD7 | 0xE4 | 0xE5 => (2, 1)
    | 0xD8 => ((e + 3) / 4 + 4, (e + 3) / 4)
    | 0xE1 => (12, 4)
    | 0xE2 => (26, 2)
    | 0xE3 => (14, 2)
    | _ => (3, 1)

/-- The slots a word takes (R69): an arithmetic word the first or second, `VTAB` both, a data word the third. -/
def slotsOf (arith : Nat) (w : Word) : List (Fin 3) :=
  match wordClass w with
  | .arith => if arith = 0 then [0] else [1]
  | .table => [0, 1]
  | .data => [2]
  | .scalar | .modifier => []

/-- The words of a bundle that take a slot, each with how many arithmetic words stand before it. -/
def slotWords : Nat → List (Word × Instr) → List (Nat × Word × Instr)
  | _, [] => []
  | n, (w, i) :: t => (n, w, i) :: slotWords (if wordClass w = .arith then n + 1 else n) t

/-- Entries for a row of the table a `VTAB` stores (R165). -/
def Job.tabEntries (j : Job) : Instr → Nat
  | .vtab _ _ tl _ _ => let w := (j.layout tl).word; layE (j.bookOf w).k w
  | _ => 0

/-- The cycle of a word of a bundle that issues in cycle `t`, after `n` arithmetic words: in precise mode slot B issues one cycle
after slot A. -/
def slotCycle (precise : Bool) (t n : Nat) (w : Word) : Nat := if precise && n == 1 && wordClass w == .arith then t + 1 else t

/-- Whether every register a word reads, masks included, holds the results of the older bundles in cycle `t`. -/
def Interlock.readable (b : Interlock) (t : Nat) (w : Word) (i : Instr) : Bool :=
  let mask (m : BitVec 3) : Bool := decide (b.m.toList.getD m.toNat 0 ≤ t)
  ((vecReads i).all fun v => decide (b.v.get v.toFin ≤ t)) && ((maskReads i).all mask) &&
    (decide ((fOpc w).toNat < 0x80) || wordClass w == .modifier || mask (w.extractLsb' 37 3)) &&
    (!((vecScalars i).any isHistory || (decide ((fOpc w).toNat < 0x40) && scalarHistory w)) || decide (b.h ≤ t))

/-- Whether the interlock lets a bundle issue in cycle `t` (R119). -/
def Interlock.allows (b : Interlock) (precise : Bool) (t : Nat) (ws : List (Word × Instr)) : Bool :=
  (slotWords 0 ws).all fun q =>
    b.readable t q.2.1 q.2.2 && (slotsOf q.1 q.2.1).all fun k => decide (b.slots.get k ≤ slotCycle precise t q.1 q.2.1)

/-- A register a bundle writes is readable from cycle `r` on. -/
def Interlock.mark (b : Interlock) (r : Nat) : Written → Interlock
  | .v n => { b with v := b.v.setIfInBounds n (max (b.v.getD n 0) r) }
  | .m n => { b with m := b.m.setIfInBounds n (max (b.m.getD n 0) r) }
  | .history => { b with h := max b.h r }
  | .k _ | .p _ => b

/-- The slots a word keeps busy, each with the cycle it takes another word in: its own, by its issue interval; in precise mode slot B
keeps slot A too, since a bundle issues one arithmetic word per cycle (R13, R119). -/
def slotsKept (precise : Bool) (at' interval n : Nat) (w : Word) : List (Fin 3 × Nat) :=
  (slotsOf n w).map (fun k => (k, at' + interval)) ++ if precise && n == 1 && wordClass w == .arith then [(0, at' + 1)] else []

/-- The cycle the last result of a bundle that issues in cycle `t` is there in (R119, R145). -/
def bundleDone (j : Job) (precise : Bool) (t : Nat) (ws : List (Word × Instr)) : Nat :=
  (slotWords 0 ws).foldl (fun m q =>
    if (fOpc q.2.1).toNat < 0x80 then m
    else max m (slotCycle precise t q.1 q.2.1 + (vecTiming (j.tabEntries q.2.2) q.2.1).1)) t

/-- The interlock after a bundle has issued in cycle `t`. -/
def Interlock.note (j : Job) (precise : Bool) (t : Nat) (ws : List (Word × Instr)) (b : Interlock) : Interlock :=
  (slotWords 0 ws).foldl (fun b q =>
    if (fOpc q.2.1).toNat < 0x80 then b
    else
      let at' := slotCycle precise t q.1 q.2.1
      let d := vecTiming (j.tabEntries q.2.2) q.2.1
      let b1 := (writesOf q.2.1).foldl (Interlock.mark · (at' + d.1)) b
      { b1 with slots := (slotsKept precise at' d.2 q.1 q.2.1).foldl (fun l k => l.set k.1.val (max (l.get k.1) k.2)) b1.slots }) b

end Sys2Proof.Machine
end

