-- ==== Sys2Proof/Machine/Issue.lean ====
section
/-! DEFINITION. Offering a stream, or a proof slot, the chance to issue: who may issue, the bundle it holds, its static
checks, and what follows an issue. -/

namespace Sys2Proof.Machine

/-- Whether a handler lets a stream or slot issue: none runs, or it is C of the handler (R239, R297). -/
def handlerAllows (j : Job) (x : StreamId) (slot : Option Nat) : Bool :=
  match j.handler with
  | none => true
  | some hd => x == .c && hd.slot == slot

/-- Whether the loop lets C or a slot issue (R290, R294): C itself waits at PLOOP; a slot runs an iteration that is not
waiting and not held. -/
def loopAllows (j : Job) (x : StreamId) (slot : Option Nat) : Bool :=
  match slot with
  | none => x != .c || j.loop.isNone || j.handler.isSome
  | some n =>
    x == .c &&
      match j.slot? n with
      | none => false
      | some sl =>
        !sl.held &&
          match sl.running with
          | none => false
          | some it => it.st == .guessing || it.st == .speculative || it.st == .confirmed

/-- Whether a stream or slot may issue in this cycle (R230, R239, R242, R263, R359, R436). A held retire holds the words of a
handler's C as little as those of a frozen stream hold C. A word that has issued already and waits inside
the device is held by none of this: it completes (R239, R359). (DESIGN CHOICE, log 14.) -/
def mayIssue (s : State) (j : Job) (x : StreamId) (slot : Option Nat) : Bool :=
  let t := j.regs x slot
  j.phase == .running && decide (t.notBefore ≤ s.tick) && loopAllows j x slot &&
    (t.inside ||
      (j.susp.isNone && !j.victim && !j.draining && decide (j.jstart ≤ s.tick) && !t.atJoin && handlerAllows j x slot &&
        (slot.isSome || j.handler.isSome || !j.retireHeld s.tick x) && s.gateOpen (j.coreOf slot) && s.fusionSettled j.core))

/-- The opcodes a guess routine may issue (R293): scalar computations, branches, loads, CSRR, IDQ, PSTAT, PGEND. (DEDUCED, log 52.) -/
def guessOpcode (o : Nat) : Bool :=
  decide (o ≤ 0x19) || [0x20, 0x23, 0x50, 0x62, 0x65].contains o || (decide (0x40 ≤ o) && decide (o ≤ 0x4A))

/-- Whether a guess routine ends without a guess at a word (R293). -/
def guessEnds (j : Job) (slot : Option Nat) (w : Word) : Bool :=
  match j.iter? slot, j.loop with
  | some it, some lp =>
    it.st == .guessing &&
      (!guessOpcode (fOpc w).toNat || w.extractLsb' 48 16 != 0 || decide ((lp.record.extractLsb' 48 16).toNat ≤ it.words))
  | _, _ => false

/-- What an offer comes to: nothing issues, with what happened instead; or the words of a bundle are to run. -/
inductive IssueRes where
  | idle (s : State)
  | run (s : State) (words : List Instr)

/-- The index of the word for which a fetched word or bundle raises ILLEGAL. -/
def bundleIllegal (x : StreamId) (ws : List Word) : Option Nat :=
  if x = .v then bundleBreach [] (ws.map fun w => (w, decode x w))
  else if ws.all (fun w => (decode x w).isSome) then none else some 0

/-- The words of a bundle, fetched and decoded. -/
def bundlePairs (x : StreamId) (ws : List Word) : List (Word × Instr) := ws.filterMap fun w => (decode x w).map fun i => (w, i)

/-- Whether the interlock of V holds a bundle in this cycle (R119). -/
def State.interlocked (s : State) (j : Job) (x : StreamId) (ws : List Word) : Bool :=
  x == .v && !j.board.allows (preciseOf j.vs.fpctl) s.tick (bundlePairs x ws)

/-- Whether a word's WAIT is of a timed form whose target has come (R57). -/
def Job.targetCome (j : Job) (now : Nat) (x : StreamId) (w : Word) : Bool :=
  match Wait.ofByte (fld w 56 8) with
  | some (.timed d) => decide ((j.stream x).stamp.toNat + 4 * d.toNat ≤ now)
  | some (.timedToken _ d) => decide ((j.stream x).stamp.toNat + 4 * d.toNat ≤ now)
  | _ => false

/-- The cursor on a bundle that has missed its cycle (R57). -/
def Cursor.missed (c : Cursor) : Cursor :=
  { c with late := true, trap := some ⟨causeRank causeScheduleMiss, 0, ⟨causeScheduleMiss, c.pc, 0, 0⟩⟩ }

/-- The cursor on a bundle whose word `k` is illegal by itself: the words below it run only to see whether one of them is illegal by
the state it meets (R71). -/
def Cursor.illegalAt (c : Cursor) (k : Nat) : Cursor :=
  { c with late := true, trap := some ⟨causeRank causeIllegal, k, ⟨causeIllegal, c.pc, 0, BitVec.ofNat 64 k <<< 8⟩⟩ }

/-- Offers a stream or slot of job `n` the chance to issue. A bundle the interlock holds waits; in a timed job, at its target,
it has missed its cycle. -/
def State.tryIssue (s : State) (n : Nat) (x : StreamId) (slot : Option Nat) : IssueRes :=
  match s.jobs[n]? with
  | none => .idle s
  | some j =>
    if !mayIssue s j x slot then .idle s
    else
      let t := j.regs x slot
      match bundleAt t x 4 t.pc with
      | .inr a => .idle (s.fetchNeeded n j x slot a)
      | .inl ws =>
        let c := Cursor.start n x slot j ws.length
        if t.skip then
          .idle (s.modRegs n x slot fun r => { r with pc := r.pc + 8 * BitVec.ofNat 64 ws.length, skip := false })
        else
          match bundleIllegal x ws with
          | some 0 => .idle (s.raiseAt c ⟨causeIllegal, t.pc, 0, 0⟩)
          | some (k + 1) => .run { s with cursor := some (c.illegalAt (k + 1)) } ((ws.take (k + 1)).filterMap (decode x))
          | none =>
            if guessEnds j slot (ws.headD 0) then .idle (s.raiseAt c ⟨causeIllegal, t.pc, 0, 0⟩)
            else if s.interlocked j x ws && !t.inside then
              if j.timed && j.targetCome s.tick x (ws.headD 0) then .run { s with cursor := some c.missed } (ws.filterMap (decode x))
              else .idle s
            else
              .run { s with cursor := some { c with done := if x = .v then bundleDone j (preciseOf j.vs.fpctl) s.tick (bundlePairs x ws) else 0 } }
                (ws.filterMap (decode x))

/-- A word of a guess routine that has issued counts toward GLIM (R293). -/
def countWord (now n : Nat) (j : Job) : Job :=
  match j.slot? n with
  | none => j
  | some sl =>
    match sl.running with
    | none => j
    | some it =>
      if it.st = .guessing ∧ sl.regs.notBefore = now + 1 then
        j.setSlot n { sl with running := some { it with words := it.words + 1 } }
      else j

/-- A V bundle that has issued joins the interlock (R119). -/
def noteBundle (now : Nat) (ws : List (Word × Instr)) (j : Job) : Job :=
  if j.vs.notBefore = now + 1 then { j with board := j.board.note j (preciseOf j.vs.fpctl) now ws } else j

/-- The words at the PC of the stream of job `n` that is about to issue, if it is V. -/
def State.bundleOf (s : State) (n : Nat) (x : StreamId) : List (Word × Instr) :=
  match s.jobs[n]?, x with
  | some j, .v => match bundleAt j.vs .v 4 j.vs.pc with | .inl ws => bundlePairs .v ws | .inr _ => []
  | _, _ => []

/-- What follows an issue: the retires it allows, the job's own retirement, the count of a guess, and the interlock. -/
def State.afterIssue (s : State) (n : Nat) (slot : Option Nat) (ws : List (Word × Instr)) : State :=
  let s1 := match slot with
    | some k => s.modJob n (countWord s.tick k)
    | none => if ws.isEmpty then s else s.modJob n (noteBundle s.tick ws)
  ({ s1 with cursor := none }.settle n).tryRetire n

/-- Whether a word may be illegal by the state it meets, so that its own issue judges it first (R80): a CSR, append, proofing
loop, LME, copy or vector word, or a rendezvous. -/
def judgedAtIssue (w : Word) : Bool :=
  let o := (fOpc w).toNat
  [0x1B, 0x1C, 0x1F, 0x20, 0x21].contains o || decide (0x50 ≤ o)

/-- TIMED_TARGET_MISS (R57): a held timed word of a job of a timed launch whose target has come without what it needs
raises SCHEDULE_MISS. A word that the state could make illegal is judged where it is offered. (DEDUCED, log 24.) -/
def execTimedTargetMiss (n : Nat) (x : StreamId) (s : State) : Host.Outcome State Fault Refusal :=
  .next (match s.jobs[n]? with
    | none => s
    | some j =>
      let t := j.stream x
      if !j.timed || j.phase != .running || j.handler.isSome || j.susp.isSome || j.draining || t.atJoin || t.skip ||
          t.inside || (x == .c && j.loop.isSome) || decide (s.tick < j.jstart) then s
      else
        match bundleAt t x 4 t.pc with
        | .inr _ => s
        | .inl ws =>
          if (bundleIllegal x ws).isSome || ws.any judgedAtIssue then s
          else
            match Wait.ofByte (fld (ws.headD 0) 56 8) with
            | none => s
            | some wt =>
              match applyWait wt j s.tick x with
              | .miss => s.takeTrap n x none ⟨causeScheduleMiss, t.pc, 0, 0⟩
              | _ => s)

end Sys2Proof.Machine
end

