-- ==== Sys2Proof/Machine/Waits.lean ====
section
/-! DEFINITION. The deadlock of a job's streams (R243, R244) and the end of a timed job's budget (R237). -/

namespace Sys2Proof.Machine

/-- Whether one of the streams whose tokens a WAIT pops has sent none. -/
def Job.tokenMissing (j : Job) (x : StreamId) (ys : List StreamId) : Bool :=
  ys.any fun y => (j.tokens.get (pairIdx y x)).isEmpty

/-- Whether a WAIT is held on a token that is not there; of the timed forms, only once the target has passed in a job that
is not timed (R243). -/
def Job.waitsToken (j : Job) (now : Nat) (x : StreamId) (w : Wait) : Bool :=
  match w with
  | .tokens m => j.tokenMissing x (maskOthers x m)
  | .drain m => j.tokenMissing x (maskOthers x m)
  | .timed _ => false
  | .timedToken y d =>
    !j.timed && decide ((j.stream x).stamp.toNat + 4 * d.toNat ≤ now) && j.tokenMissing x [otherOf x y]

/-- Whether a word that passes its WAIT is a QPOP held at issue on an empty queue (R207, R243). -/
def Job.waitsQueue (j : Job) (x : StreamId) (w : Word) : Bool :=
  match decode x w with
  | some (.qpop h _ i) => (j.stream x).guardTrue h.guard && (j.queues.get (pairIdx (otherOf x i) x)).isEmpty
  | _ => false

/-- Whether a stream is in a stream-to-stream wait (R243). -/
def Job.streamWaits (j : Job) (now : Nat) (x : StreamId) : Bool :=
  let t := j.stream x
  if t.atJoin then !j.allAtJoin
  else if j.retireBlocked now x then true
  else if t.inside || t.bar.isSome || t.skip || decide (now < t.notBefore) || (x == .c && j.loop.isSome) then false
  else
    match bundleAt t x 4 t.pc with
    | .inr _ => false
    | .inl ws =>
      !(bundleIllegal x ws).isSome &&
        match Wait.ofByte (fld (ws.headD 0) 56 8) with
        | none => false
        | some wt =>
          j.waitsToken now x wt ||
            ((match applyWait wt j now x with | .ready _ exact => !exact | _ => false) && j.waitsQueue x (ws.getLastD 0))

/-- Whether a command of the job is in flight: accepted and not complete (R244). -/
def Job.commandInFlight (j : Job) : Bool := j.cmds.any (fun c => !c.done) || !j.lme.isEmpty || !j.waits.isEmpty

/-- Whether the streams of a job are deadlocked (R244). -/
def Job.deadlocked (j : Job) (now : Nat) : Bool :=
  j.phase == .running && j.susp.isNone && !j.victim && !j.draining && j.handler.isNone && decide (j.jstart ≤ now) &&
    !j.commandInFlight && [StreamId.c, .l, .v, .m, .s].all fun x =>
      j.streamWaits now x && ((j.stream x).retireQ.isEmpty || j.retireBlocked now x)

/-- The word at which C waits: the one whose retire is held, else its next (R228). -/
def Job.waitPc (j : Job) (now : Nat) : Word :=
  if !j.c.atJoin && j.retireBlocked now .c then ((j.c.retireQ.head?).map (·.pc)).getD j.c.pc else j.c.pc

/-- QUEUE_DEADLOCK (R228, R244): once every stream of a job waits for another, the trap goes to C. -/
def execQueueDeadlock (n : Nat) (s : State) : Host.Outcome State Fault Refusal :=
  .next (match s.jobs[n]? with
    | none => s
    | some j =>
      if j.deadlocked s.tick then s.takeTrap n .c none ⟨causeDeadlock, j.waitPc s.tick, 0, 0⟩ else s)

/-- BUDGET_EXPIRY (R237): a timed job that has not retired by JSTART plus its budget is aborted with SCHEDULE_MISS and
TINFO.BUDGET, the record in C's trap CSRs; no handler runs. -/
def execBudgetExpiry (n : Nat) (s : State) : Host.Outcome State Fault Refusal :=
  .next (match s.jobs[n]? with
    | none => s
    | some j =>
      if j.timed && (j.phase == .running || j.phase == .loading) && decide (j.jstart + j.budget ≤ s.tick) then
        let r : TrapRec := ⟨causeScheduleMiss, (j.regs .c ((j.loop.bind fun lp => lp.slots.findIdx? fun sl =>
          match sl.running with | some it => it.st == .confirmed | none => false))).pc, 0, 2⟩
        (s.modRegs n .c none fun t => t.setTrap r).abortJob n .c r
      else s)

end Sys2Proof.Machine
end

