-- ==== Sys2Proof/Machine/Power.lean ====
section
/-! DEFINITION. Bring-up and removal of power, the thermal states, the issue gates, telemetry, and the passing of a cycle (R9,
R258, R433 to R439). -/

namespace Sys2Proof.Machine

/-! ### The capability block (R433) -/

/-- The registers of the capability block from offset 0, in order. -/
def capWords : List Nat :=
  [0x0001_0001_4F56_4341, 0x0C60, 2300000, 96, 2048, 0x30_0000, 0x10_0000, 2048, 0x40_2004, 0xC0_0000_0000, 128, 256]

/-- The 256 bytes of the ISA descriptor (R404, R433). -/
def isaDescriptor : List Byte := (capWords.flatMap fun w => leBytes 8 w) ++ List.replicate (256 - 8 * capWords.length) 0

/-- The 4 KiB of the block: the descriptor, its hash, zeros. -/
def capBlock : List Byte := isaDescriptor ++ sha3 isaDescriptor ++ List.replicate (4096 - 256 - 32) 0

/-! ### Bring-up (R434) -/

/-- Partitions come up one after another, each with the next epoch (R335, R434). -/
def State.createParts : List (List Nat × Bool) → State → State
  | [], s => s
  | (stops, u) :: t, s =>
    let r := s.nextEpoch
    let low := 1 + (Part.create stops u).low
    State.createParts t
      { r.1 with
        parts := r.1.parts ++ [{ Part.create stops u with resetting := false, epoch := r.2 }]
        crumbs := if h : low < 13 then r.1.crumbs.set low (r.1.flash.measured low) else r.1.crumbs }

/-- A core that fails its scan test is replaced by the stop's spare or disabled; a spare, numbered from 96 by its stop, that fails
leaves the core it stands for without one, or is not there to replace any (R420, R434). (DEDUCED, log 109.) -/
def State.scanFail (s : State) (core : Nat) : State :=
  let fails (c : Nat) : State := stateOf s (execSpareCoreSubstitute c (s.modCore c fun k => { k with failing := true }))
  if core < 96 then fails core
  else if h : core - 96 < 12 then
    let stop := core - 96
    if s.flash.spares[stop] = 0xF then
      { s with badSpares := stop :: s.badSpares }.logError { ErrRec.blank with kind := 0xA, core := 0xFE, stop := stop }
    else fails (8 * stop + s.flash.spares[stop].toNat)
  else s

/-- The record flash holds is checked as power comes (R430): one whose signature fails is replaced by the last good copy. -/
def Flash.checked (f : Flash) : Flash := if f.damaged then { f with record := f.good, damaged := false } else f

/-- Whether the ROM accepts the Crust in flash (R426); the one of manufacture is accepted. (DESIGN CHOICE, log 6.) -/
def Flash.crustOk (f : Flash) : Bool :=
  match f.crust with
  | none => true
  | some b => imageCheck f.svn b == 0

/-- The module as the first phases leave it: everything but flash is new, the identity is read, the record checked, the module Crumb
measured, and the links are up in phase 4 (R428, R430, R434, R435). -/
def State.phaseFour (s : State) (fail : BitVec 8) (bad : List Nat) : State :=
  let f := s.flash.checked
  let seed := Config.reconstruct (Config.sramReading s.free) Config.helperData
  let crust := f.measured crustSlot
  { State.reset with
    agenda := s.agenda, free := s.free + 1, flash := f, powered := true, linkUp := (true, true), bootstat := 4
    bringUp := some ⟨fail, bad, s.flash.damaged⟩, seed := seed, crust := crust, cert := certOf seed crust
    crumbs := (Vector.replicate 13 0).set 0 (f.measured 0)
    errBase := 12 * Config.packageBytes - Config.spareBytes - 64 * Config.errLogSize
    nextSpare := Vector.ofFn fun i : Fin 12 => (f.remap.filter fun p => p.2 / Config.packageFrames == i.val).length }

/-- POWER_ON (R426, R434): bring-up runs through its first phases, to the links; or it stops short of them where the rails, the Crust
or the record fail. BOOTSTAT reads 0 unless the links are up. -/
def execPowerOn (fail : BitVec 8) (bad : List Nat) (s : State) : Host.Outcome State Fault Refusal :=
  .next (
    if s.powered then s
    else if s.flash.crustOk && (fail == 0 || fail == 4) then s.phaseFour fail bad
    else { State.reset with agenda := s.agenda, free := s.free, flash := s.flash, powered := true })

/-- Phase 7: the capability block is written, the partitions of the layout are created, what is to be logged is logged, and READY is
set (R430, R434, R437). No KIND code is given for a record that was replaced. (DESIGN CHOICE, log 105.) -/
def State.phaseSeven (s : State) (replaced : Bool) : State :=
  let s1 := State.createParts s.flash.layout { s with
    capblock := capBlock, bootstat := 0x1_0007, bringUp := none, flash := { s.flash with tripped := false } }
  let s2 := if replaced then
      { s1 with free := s1.free + 1 }.logError { ErrRec.blank with kind := (Config.freeWord s1.free).toNat % 256 }
    else s1
  if s.flash.tripped then s2.logError { ErrRec.blank with kind := 0xD } else s2

/-- The next phase of a bring-up (R434): 5, the packages, or its failure; 6, the scan of the cores, spares first; 7. -/
def State.nextPhase (s : State) : State :=
  match s.bringUp with
  | none => s
  | some b =>
    if s.bootstat = 4 then
      if b.fail = 4 then { s with bootstat := 0x0405, bringUp := none } else { s with bootstat := 5 }
    else if s.bootstat = 5 then
      { (b.bad.filter (96 ≤ ·) ++ b.bad.filter (· < 96)).foldl State.scanFail s with bootstat := 6 }
    else s.phaseSeven b.replaced

/-- The configuration record in flash is damaged: its signature fails (R430). -/
def State.damageRecord (s : State) : State := { s with flash := { s.flash with damaged := true } }

/-- The module without power: all but flash and fuses is lost (R435). -/
def State.dark (s : State) : State := { State.reset with agenda := s.agenda, free := s.free, flash := s.flash }

/-- POWER_REMOVED (R435). -/
def execPowerRemoved (s : State) : Host.Outcome State Fault Refusal := .next s.dark

/-! ### Heat and power (R436 to R439) -/

/-- The thermal state: 0 normal, 1 warning, 2 emergency (R437, R439). -/
def State.heat (s : State) : BitVec 2 := s.therm.extractLsb' 0 2

/-- Sets the thermal state. -/
def State.setHeat (s : State) (h : BitVec 2) : State := { s with therm := (s.therm &&& ~~~3#64) ||| h.setWidth 64 }

/-- The hottest sensor, in 1/8 °C (R437). -/
def State.hottest (s : State) : Nat := s.sensors.temps.toList.foldl max 0

/-- THERMAL_WARNING_ENTER (R437): at 95 °C. -/
def execThermalWarningEnter (s : State) : Host.Outcome State Fault Refusal :=
  .next (if s.powered && s.heat == 0 && decide (8 * 95 ≤ s.hottest) then s.setHeat 1 else s)

/-- THERMAL_WARNING_EXIT (R437): all sensors below 92 °C. -/
def execThermalWarningExit (s : State) : Host.Outcome State Fault Refusal :=
  .next (if s.heat == 1 && decide (s.hottest < 8 * 92) then s.setHeat 0 else s)

/-- A launch during whose promise an emergency begins (R438). -/
def Launch.heated (l : Launch) : Launch :=
  if l.admitted.isSome && (l.phase == .ready || l.phase == .running) then { l with voided := true } else l

/-- THERMAL_EMERGENCY_ENTER (R437, R438): at 105 °C; D = 8 on every core, timed ones included; every admitted timed launch whose last job
has not retired loses its promise; the count of emergencies saturates. -/
def execThermalEmergencyEnter (s : State) : Host.Outcome State Fault Refusal :=
  .next (
    if !s.powered || s.heat == 2 || decide (s.hottest < 8 * 105) then s
    else
      let n := (s.therm.extractLsb' 8 8).toNat
      let s1 := { s with
        therm := BitVec.ofNat 64 (2 + min 255 (n + 1) * 256)
        cores := s.cores.map fun (k : Core) => { k with gate := 8 }
        parts := s.parts.map fun (p : Part) => { p with launches := p.launches.map Launch.heated } }
      s1.logError { ErrRec.blank with kind := 0xE })

/-- THERMAL_TRIP (R435, R437): a sensor has reached 115 °C; a flag in flash is set and power is removed; nothing is written to device
memory. -/
def execThermalTrip (s : State) : Host.Outcome State Fault Refusal :=
  .next (if s.powered && s.sensors.tripBy.isSome then { s with flash := { s.flash with tripped := true } }.dark else s)

/-- Cycles of 10 ms (R9, R437). -/
def coolCycles : Nat := 23_000_000

/-- Whether a core holds a timed job (R436). -/
def State.timedCore (s : State) (c : Nat) : Bool :=
  match (s.core c).holder.bind fun n => s.jobs[n]? with
  | some j => j.timed
  | none => false

/-- Every core that holds a timed job has D = 16 (R19, R347, R436). -/
def State.openTimed (s : State) : State :=
  (List.range 96).foldl (fun t c => if s.timedCore c then t.modCore c fun k => { k with gate := 16 } else t) s

/-- THERMAL_EMERGENCY_EXIT (R19, R436, R437): every sensor has been below 100 °C for 10 ms; cores that hold timed jobs issue in every
cycle again. (DEDUCED, log 88.) -/
def execThermalEmergencyExit (s : State) : Host.Outcome State Fault Refusal :=
  .next (
    let cool := match s.sensors.coolSince with | some t => decide (t + coolCycles ≤ s.tick) | none => false
    if s.heat == 2 && cool then (s.setHeat 1).openTimed else s)

/-- The thermal states the sensors ask for (R437), the lower ones first on the way in. -/
def State.heatDue (s : State) : State :=
  [execThermalWarningEnter, execThermalEmergencyEnter, execThermalEmergencyExit, execThermalWarningExit].foldl
    (fun t f => stateOf t (f t)) s

/-- A sensor reads a temperature (R437): the thermal state follows, and, at 115 °C, the time by which power is gone. -/
def State.sense (s : State) (stop temp : Nat) : State :=
  if h : stop < 12 ∧ s.powered = true then
    let temps := s.sensors.temps.set stop temp h.1
    let cool := temps.toList.all fun x => decide (x < 8 * 100)
    let trip := temps.toList.any fun x => decide (8 * 115 ≤ x)
    { s with sensors :=
        { temps := temps
          coolSince := if cool then s.sensors.coolSince.or (some s.tick) else none
          tripBy := s.sensors.tripBy.or (if trip then some (s.tick + 2300000) else none) } }.heatDue
  else s

/-- Whether a core keeps the D it has, since its partition's Crumb is being replaced (R432). -/
def State.gateHeld (s : State) (c : Nat) : Bool :=
  match s.partOfCore c with
  | some part => s.crumbDown part
  | none => false

/-- ISSUE_GATE_UPDATE (R432, R436, R437): the Crumb sets D, 1 to 16, for the cores named; a core that holds a timed job has 16; in an
emergency every core keeps 8, and the cores of a partition whose Crumb is being replaced keep what they have. -/
def execIssueGateUpdate (gates : List (Nat × Nat)) (s : State) : Host.Outcome State Fault Refusal :=
  .next (
    if s.heat == 2 then s
    else
      (gates.foldl (fun t g =>
        if 1 ≤ g.2 ∧ g.2 ≤ 16 ∧ s.gateHeld g.1 = false then t.modCore g.1 fun k => { k with gate := g.2 } else t) s).openTimed)

/-- The hottest sensor of a partition's stops (R439). -/
def State.partTemp (s : State) (p : Part) : Nat := (p.stops.map fun t => s.sensors.temps.toList.getD t 0).foldl max 0

/-- TELEMETRY_REFRESH (R439): one whole sample, whose temperature is what the sensors of the partition's stops read. -/
def execTelemetryRefresh (part : Nat) (partPower temp modPower : Word) (s : State) : Host.Outcome State Fault Refusal :=
  .next (
    match s.parts[part]? with
    | none => s
    | some p =>
      if s.powered && temp == BitVec.ofNat 64 (s.partTemp p) then
        { s with modpwr := modPower }.modPart part fun p => { p with pwrnow := partPower, tempmax := temp }
      else s)

/-! ### A cycle passes (R9) -/

/-- What falls due on a sub-array at the end of a cycle (R179, R258): a wake that is over, a cycle of idleness, gating. -/
def State.subTick (core i : Nat) (s : State) : State :=
  let sub := BitVec.ofNat 2 i
  let s1 := stateOf s (execSubarrayWakeDone core sub s)
  let s2 := s1.modCore core fun k =>
    let q := k.subs.get sub.toFin
    if q.awake && !s1.subBusy core i then { k with subs := k.subs.set sub.toNat { q with idle := q.idle + 1 } sub.isLt } else k
  s2.gateSub (s2.tick + 1) core sub

/-- What falls due on a job at the end of a cycle: words whose results are complete retire (R58, R145), and the job with them; the
pages of squashed runs return (R303); a fault record that had no room is queued (R376); its budget (R237), the window of a pending
swap (R224) and the time for one (R346), and the trap of a deadlock of its streams (R244). -/
def State.jobTick (s : State) (n : Nat) : State :=
  let s0 := (((s.payPages n).settle n).queueFault n).tryRetire n
  let s1 := stateOf s0 (execBudgetExpiry n s0)
  let s2 := stateOf s1 (execSwapWindowExpiry n s1)
  (stateOf s2 (execQueueDeadlock n s2)).swapDue n

/-- What falls due in a cycle: at its end teams are swapped out whose quantum is over (R351), victims whose cores are free of urgent
jobs are let go (R362), Inlet resets that waited are made (R393), the thermal state follows its time (R437), and timed waves and best-effort teams that fit are dispatched (R345, R347, R352). (DESIGN CHOICE, log 30.) -/
def State.fallDue (s : State) : State :=
  let s1 := (List.range 96).foldl (fun t c => (List.range 4).foldl (fun u i => u.subTick c i) t) s
  let s2 := (List.range s1.jobs.length).foldl State.jobTick s1
  let s3 := (List.range s2.parts.length).foldl (fun t n => State.quantumDue n 96 (t.resetInlets n)) s2
  let s4 := ((List.finRange 16).foldl State.expireLease s3.heatDue).resumeDue.timedDue
  (List.range s4.parts.length).foldl (fun t n => State.bestDue n 96 t) s4

/-- Whether the time within which a trip takes power away is over (R437). -/
def State.tripDue (s : State) : Bool := match s.sensors.tripBy with | some t => decide (t ≤ s.tick) | none => false

/-- TICK_ADVANCE (R9, R230): what falls due in the cycle happens, TICK advances by one, and the jobs whose JSTART has come start;
without power there is no cycle. -/
def execTickAdvance (s : State) : Host.Outcome State Fault Refusal :=
  if s.tripDue then execThermalTrip s
  else .next (if s.powered then State.startDue { s.fallDue with tick := s.tick + 1 } else s)

end Sys2Proof.Machine
end

