-- ==== Sys2Proof/Machine/Sync.lean ====
section
/-! DEFINITION. Meanings of the synchronisation and system words (R205 to R229): queues, STAMP, rendezvous, CSRs,
TRAP, IDQ, FENCE, DISC, TRET and YIELD. -/

namespace Sys2Proof.Machine

/-! ### Data queues (R207, R209) -/

/-- The SIG a QPUSH ends with: its value goes the way of REPLY, toward the stream it names, where its guard is true. (DEDUCED, log 29.) -/
def qpushSig (h : Hdr) (x : BitVec 2) (s : State) : Sig :=
  match s.cursor with
  | some c => if c.regs.guardTrue h.guard then { h.sig with reply := x.setWidth 3 + 1 } else h.sig
  | none => h.sig

/-- QPUSH (R207); ILLEGAL in a handler or a body (R241, R296). Its retire pushes the value (R58). -/
def execQpush (h : Hdr) (x : BitVec 2) (a : Src) (s : State) : Host.Outcome State Fault Refusal :=
  runWord h.wait (qpushSig h x s) true (scalarBody h false [a] (some a) none fun c j s =>
    if inHandlerC c j || inBody c j then .raise causeIllegal else .ok s (c.regs.src a) none) s

/-- QPOP (R207): waits at issue for an entry; ILLEGAL in a handler or a body (R241, R296). -/
def execQpop (h : Hdr) (d : Dest) (x : BitVec 2) (s : State) : Host.Outcome State Fault Refusal :=
  scalarWord h [] none (some d) (fun c j s =>
    if inHandlerC c j || inBody c j then .raise causeIllegal
    else
      match j.queueHead s.tick (otherOf c.stream x) c.stream with
      | none => .stall
      | some w => .ok (s.modJob c.job fun k => k.popQueue (otherOf c.stream x) c.stream) w none) s

/-- The count QLVL reads (R209). -/
def levelOf (j : Job) (x y : StreamId) : LevelKind → Nat
  | .qIn => (j.queues.get (pairIdx y x)).length
  | .qOut => (j.queues.get (pairIdx x y)).length
  | .tIn => (j.tokens.get (pairIdx y x)).length
  | .tOut => (j.tokens.get (pairIdx x y)).length

/-- QLVL (R209). -/
def execQlvl (h : Hdr) (d : Dest) (kind : LevelKind) (x : BitVec 2) (s : State) : Host.Outcome State Fault Refusal :=
  scalarWord h [] none (some d) (fun c j s =>
    .ok s (BitVec.ofNat 64 (levelOf j c.stream (otherOf c.stream x) kind)) none) s

/-! ### STAMP (R210) -/

/-- STAMP kd (R210). -/
def execStamp (h : Hdr) (d : Dest) (s : State) : Host.Outcome State Fault Refusal :=
  scalarWord h [] none (some d) (fun c _ s =>
    .ok (s.modRegs c.job c.stream c.slot fun t => { t with stamp := s.tickWord }) s.tickWord none) s

/-- STAMP.set kd, ka (R210). -/
def execStampSet (h : Hdr) (d : Dest) (a : Src) (s : State) : Host.Outcome State Fault Refusal :=
  scalarWord h [a] (some a) (some d) (fun c _ s =>
    .ok (s.modRegs c.job c.stream c.slot fun t => { t with stamp := c.regs.src a }) s.tickWord none) s

/-! ### Rendezvous (R43, R211 to R213) -/

/-- What a delivery point waits for and tests (R43): every older word of its stream, or of its proof slot's C, retired, then
FPFLG against EN. The flags are the stream's, with those of its own bundle; in a body, the leader's ORed with the iteration's own
(R296). (DEDUCED, log 25.) -/
def deliveryPoint (c : Cursor) (j : Job) : Option WRes :=
  let t := j.regs c.stream c.slot
  if !t.retireQ.isEmpty then some .stall
  else deliver t.fpctl (t.fpflg ||| c.raised.setWidth 64 ||| (match c.slot, j.loop with | some _, some lp => lp.flags | _, _ => 0))

/-- JOIN (R211): the stream stands at it until the five do, and then the job retires. ILLEGAL in C in a handler or while a
loop runs. -/
def execJoin (h : Hdr) (s : State) : Host.Outcome State Fault Refusal :=
  scalarWord h [] none none (fun c j s =>
    if c.stream == .c && (j.handler.isSome || j.loop.isSome) then .raise causeIllegal
    else
      match deliveryPoint c j with
      | some r => r
      | none =>
        .stop ((s.modRegs c.job c.stream c.slot fun t =>
          { t with atJoin := true, fpflg := t.fpflg ||| c.raised.setWidth 64 }).tryRetire c.job)) s

/-- The WAIT a DBAR still has to apply: none once it has recorded its arrival. -/
def dbarWait (h : Hdr) (s : State) : Wait :=
  match s.cursor with
  | some c => if c.regs.bar = some c.pc.toNat then .tokens 0 else h.wait
  | none => h.wait

/-- DBAR (R212): records its job's arrival as a release at team scope, waits for every member of the team, and departs as
an acquire with the generation's number. (DEDUCED, log 26.) -/
def execDbar (h : Hdr) (d : Dest) (s : State) : Host.Outcome State Fault Refusal :=
  runWord (dbarWait h s) h.sig true (scalarBody h true [] none (some d) fun c j s =>
    if inHandlerC c j || inBody c j then .raise causeIllegal
    else
      match deliveryPoint c j with
      | some r => r
      | none =>
        let g := j.barGen + 1
        if s.l1Held j.core then waits c (c.who j) s
        else
        let s1 := if c.regs.bar = some c.pc.toNat then s
          else (s.l1Release j.core).modJob c.job fun k =>
            { k with barAt := g, c := { k.c with bar := some c.pc.toNat, out := none } }
        if s1.allArrived c.job j g then
          .ok ((s1.l1Acquire j.core).modJob c.job fun k => { k with barGen := g, c := { k.c with bar := none } })
            (BitVec.ofNat 64 g) none
        else .stop { s1 with cursor := none }) s

/-- The acquire and release parts of a fence. -/
def fenceAcq : FenceOrd → Bool
  | .acq | .ar => true
  | .rel => false

@[inherit_doc fenceAcq]
def fenceRel : FenceOrd → Bool
  | .rel | .ar => true
  | .acq => false

/-- FENCE (R213): a delivery point, then the L1's part of the ordering (R262). -/
def execFence (h : Hdr) (ord : FenceOrd) (sc : Scope) (s : State) : Host.Outcome State Fault Refusal :=
  scalarWord h [] none none (fun c j s =>
    if j.mustWait c.slot then .stall
    else
      match deliveryPoint c j with
      | some r => r
      | none =>
        let core := j.coreOf c.slot
        if s.ordHeld core sc then waits c (c.who j) s
        else
        let s1 := if fenceRel ord then s.releaseAt core sc else s
        .ok (if fenceAcq ord then s1.acquireAt core sc else s1) c.value none) s

/-! ### CSRs, TRAP, IDQ (R225, R228, R229) -/

/-- CSRR (R229). -/
def execCsrr (h : Hdr) (d : Dest) (csr : BitVec 12) (sel : BitVec 3) (s : State) : Host.Outcome State Fault Refusal :=
  scalarWord h [] none (some d) (fun c j s =>
    match csrTarget j c.stream c.slot sel with
    | none => .raise causeIllegal
    | some (y, slot, own) =>
      match csrRead j s.tick own y slot csr.toNat with
      | none => .raise causeIllegal
      | some v => .ok s v none) s

/-- A write to LGATE: the core compares idle runs with the new value from the next cycle on (R258). -/
def noteLgate (j : Job) (csr : Nat) (s : State) : State :=
  if csr = 0x004 then s.modCore j.core fun k => { k with lgateAt := s.tick } else s

/-- CSRW (R229): D takes the old value. -/
def execCsrw (h : Hdr) (d : Dest) (csr : BitVec 12) (sel : BitVec 3) (a : Src) (s : State) :
    Host.Outcome State Fault Refusal :=
  scalarWord h [a] (some a) (some d) (fun c j s =>
    let v := c.regs.src a
    if inBody c j then .raise causeIllegal
    else
      match csrTarget j c.stream c.slot sel with
      | none => .raise causeIllegal
      | some (y, slot, own) =>
        match csrRead j s.tick own y slot csr.toNat with
        | none => .raise causeIllegal
        | some old =>
          match csrWrite (j.regs y slot) csr.toNat v with
          | none => .raise causeIllegal
          | some t =>
            if csrValueOk csr.toNat v then .ok (noteLgate j csr.toNat (s.modRegs c.job y slot fun _ => t)) old none
            else .raise causeIllegal) s

/-- TRAP (R228): SOFTWARE, with DONE set and the code in ARG. -/
def execTrap (h : Hdr) (code : BitVec 16) (s : State) : Host.Outcome State Fault Refusal :=
  scalarWord h [] none none (fun c j _ =>
    if j.mustWait c.slot then .stall
    else .trap causeSoftware 0 ((code.setWidth 64 <<< 32) ||| 8)) s

/-- CANON of a launch record (R331). -/
def canonOf (m : Member) : Nat := m.canon

/-- The fact IDQ reads (R225), or the trap it raises. (DEDUCED, log 28.) -/
def idqValue (s : State) (j : Job) (sel : Nat) : Word ⊕ BitVec 8 :=
  let m := j.mem
  match sel with
  | 0x00 => .inl (BitVec.ofNat 64 (if j.det then canonOf m else m.coreSet))
  | 0x01 => .inl (BitVec.ofNat 64 m.teamSize)
  | 0x02 => .inl (BitVec.ofNat 64 m.index)
  | 0x03 => .inl (BitVec.ofNat 64 m.team)
  | 0x04 => .inl (BitVec.ofNat 64 m.linear)
  | 0x05 => .inl m.seq
  | 0x06 => .inl (BitVec.ofNat 64 (match s.parts[m.part]? with | some p => p.stops.length | none => 0))
  | 0x08 => if j.det then .inr causeDetForbidden else .inl (BitVec.ofNat 64 j.core)
  | 0x09 => if j.det then .inr causeDetForbidden else .inl (BitVec.ofNat 64 (stopOf j.core))
  | n =>
    if 0x10 ≤ n ∧ n ≤ 0x17 then .inl ((m.splits.extractLsb' (16 * (n - 0x10)) 16).setWidth 64) else .inr causeIllegal

/-- IDQ (R225). -/
def execIdq (h : Hdr) (d : Dest) (sel : BitVec 8) (s : State) : Host.Outcome State Fault Refusal :=
  scalarWord h [] none (some d) (fun _ j s =>
    match idqValue s j sel.toNat with
    | .inl v => .ok s v none
    | .inr e => .raise e) s

/-! ### Context words (R222, R224) -/

/-- The bits of DISCMAP that stand for [a, a + b) in a space (R222). -/
def discBits (ts : Bool) (a b : Nat) : BitVec 1024 :=
  BitVec.ofNat 1024 ((2 ^ (b / 4096) - 1) * 2 ^ (a / 4096 + if ts then 768 else 0))

/-- DISC.mark and DISC.keep (R222). -/
def discWord (h : Hdr) (a b : Src) (ts : Bool) (f : BitVec 1024 → BitVec 1024 → BitVec 1024) (s : State) :
    Host.Outcome State Fault Refusal :=
  scalarWord h [a, b] (some a) none (fun c j s =>
    let x := (c.regs.src a).toNat
    let n := (c.regs.src b).toNat
    if j.mustWait c.slot then .stall
    else if x % 4096 ≠ 0 ∨ n % 4096 ≠ 0 then .raise causeMisaligned
    else if !(if ts then n == 0 || inWindow j.tsw x n else j.spanOk x n) then .raise causeBound
    else if n = 0 then .ok s c.value none
    else .ok (s.modJob c.job fun k => { k with discmap := f k.discmap (discBits ts x n) }) c.value none) s

/-- DISC.mark (R222). -/
def execDiscMark (h : Hdr) (a b : Src) (ts : Bool) (s : State) : Host.Outcome State Fault Refusal :=
  discWord h a b ts (fun m x => m ||| x) s

/-- DISC.keep (R222). -/
def execDiscKeep (h : Hdr) (a b : Src) (ts : Bool) (s : State) : Host.Outcome State Fault Refusal :=
  discWord h a b ts (fun m x => m &&& ~~~x) s

/-- DISC.lost (R222). -/
def execDiscLost (h : Hdr) (d : Dest) (b : Src) (s : State) : Host.Outcome State Fault Refusal :=
  scalarWordB h b d (fun c j s =>
    let n := (c.regs.src b).toNat
    if j.mustWait c.slot then .stall
    else if 16 ≤ n then .raise causeBound else .ok s (j.lost.extractLsb' (64 * n) 64) none) s

/-- DISC.ack (R222). -/
def execDiscAck (h : Hdr) (s : State) : Host.Outcome State Fault Refusal :=
  scalarWord h [] none none (fun c j s =>
    if j.mustWait c.slot then .stall
    else .ok (s.modJob c.job fun k => { k with lost := 0, discarded := false }) c.value none) s

/-- YIELD (R224): a pending swap takes effect here, and the word yields 1. -/
def execYield (h : Hdr) (d : Dest) (s : State) : Host.Outcome State Fault Refusal :=
  scalarWord h [] none (some d) (fun c j s =>
    if j.mustWait c.slot then .stall
    else
      match j.swapAt with
      | some _ => .ok (s.modJob c.job fun k => { k with swapAt := none, draining := true }) 1 none
      | none => .ok s 0 none) s

/-! ### TRET (R227) -/

/-- A return from the handler; ILLEGAL where none runs. It retires, and the streams go on, once what C has issued before it is
complete (R58, R242); a push of an older word that finds no room is not waited for, since none of the streams could make it. (DEDUCED, log 27.) -/
def tretWord (h : Hdr) (next abort : Bool) (s : State) : Host.Outcome State Fault Refusal :=
  scalarWord h [] none none (fun c j s =>
    if j.handler.isNone then .raise causeIllegal
    else if (j.regs c.stream c.slot).retireQ.any fun e => !j.entryDone s.tick e then .stall
    else .stop { (s.trapReturn c.job next abort) with cursor := none }) s

/-- TRET.retry (R227). -/
def execTretRetry (h : Hdr) (s : State) : Host.Outcome State Fault Refusal := tretWord h false false s

/-- TRET.next (R227). -/
def execTretNext (h : Hdr) (s : State) : Host.Outcome State Fault Refusal := tretWord h true false s

/-- TRET.abort (R227). -/
def execTretAbort (h : Hdr) (s : State) : Host.Outcome State Fault Refusal := tretWord h false true s

end Sys2Proof.Machine
end

