-- ==== Sys2Proof/Machine/Dispatch.lean ====
section
/-! DEFINITION. One arm per constructor of `Instr`: the meaning it has. -/

namespace Sys2Proof.Machine

/-- The meaning of an instruction in a state. -/
def exec (i : Instr) (s : State) : Host.Outcome State Fault Refusal :=
  match i with
  | .nop h => Sys2Proof.Machine.execNop h s
  | .movi h d imm => Sys2Proof.Machine.execMovi h d imm s
  | .movk h d a hw imm => Sys2Proof.Machine.execMovk h d a hw imm s
  | .mov h d a => Sys2Proof.Machine.execMov h d a s
  | .add h d a b => Sys2Proof.Machine.execAdd h d a b s
  | .sub h d a b => Sys2Proof.Machine.execSub h d a b s
  | .addi h d a imm => Sys2Proof.Machine.execAddi h d a imm s
  | .and h d a b => Sys2Proof.Machine.execAnd h d a b s
  | .or h d a b => Sys2Proof.Machine.execOr h d a b s
  | .xor h d a b => Sys2Proof.Machine.execXor h d a b s
  | .andn h d a b => Sys2Proof.Machine.execAndn h d a b s
  | .shl h d a b => Sys2Proof.Machine.execShl h d a b s
  | .shr h d a b => Sys2Proof.Machine.execShr h d a b s
  | .sar h d a b => Sys2Proof.Machine.execSar h d a b s
  | .min h d a b sgn => Sys2Proof.Machine.execMin h d a b sgn s
  | .max h d a b sgn => Sys2Proof.Machine.execMax h d a b sgn s
  | .cmp h pd a b cc => Sys2Proof.Machine.execCmp h pd a b cc s
  | .cmpi h pd a imm cc => Sys2Proof.Machine.execCmpi h pd a imm cc s
  | .sel h d pc a b => Sys2Proof.Machine.execSel h d pc a b s
  | .pset h pd pa pb tt => Sys2Proof.Machine.execPset h pd pa pb tt s
  | .br h off => Sys2Proof.Machine.execBr h off s
  | .jmp h a => Sys2Proof.Machine.execJmp h a s
  | .call h off => Sys2Proof.Machine.execCall h off s
  | .ret h => Sys2Proof.Machine.execRet h s
  | .retReg h a => Sys2Proof.Machine.execRetReg h a s
  | .loop h kc off => Sys2Proof.Machine.execLoop h kc off s
  | .lds h d a size sgn off => Sys2Proof.Machine.execLds h d a size sgn off s
  | .sts h src a size off => Sys2Proof.Machine.execSts h src a size off s
  | .qpush h x a => Sys2Proof.Machine.execQpush h x a s
  | .qpop h d x => Sys2Proof.Machine.execQpop h d x s
  | .qlvl h d kind x => Sys2Proof.Machine.execQlvl h d kind x s
  | .stamp h d => Sys2Proof.Machine.execStamp h d s
  | .stampSet h d a => Sys2Proof.Machine.execStampSet h d a s
  | .join h => Sys2Proof.Machine.execJoin h s
  | .csrr h d csr sel => Sys2Proof.Machine.execCsrr h d csr sel s
  | .csrw h d csr sel a => Sys2Proof.Machine.execCsrw h d csr sel a s
  | .trap h code => Sys2Proof.Machine.execTrap h code s
  | .idq h d sel => Sys2Proof.Machine.execIdq h d sel s
  | .mul h d a b => Sys2Proof.Machine.execMul h d a b s
  | .mulh h d a b mode => Sys2Proof.Machine.execMulh h d a b mode s
  | .div h d a b sgn => Sys2Proof.Machine.execDiv h d a b sgn s
  | .rem h d a b sgn => Sys2Proof.Machine.execRem h d a b sgn s
  | .clz h d a => Sys2Proof.Machine.execClz h d a s
  | .ctz h d a => Sys2Proof.Machine.execCtz h d a s
  | .popc h d a => Sys2Proof.Machine.execPopc h d a s
  | .bfx h d a pos len sx => Sys2Proof.Machine.execBfx h d a pos len sx s
  | .bfi h d a b pos len => Sys2Proof.Machine.execBfi h d a b pos len s
  | .fshl h d a b n => Sys2Proof.Machine.execFshl h d a b n s
  | .fshr h d a b n => Sys2Proof.Machine.execFshr h d a b n s
  | .ld h d a size sgn ord => Sys2Proof.Machine.execLd h d a size sgn ord s
  | .st h src a size ord => Sys2Proof.Machine.execSt h src a size ord s
  | .atom h d a b op sgn ord scope sz => Sys2Proof.Machine.execAtom h d a b op sgn ord scope sz s
  | .acas h d a b f ord scope sz => Sys2Proof.Machine.execAcas h d a b f ord scope sz s
  | .atomf h d a b ft ord scope => Sys2Proof.Machine.execAtomf h d a b ft ord scope s
  | .fence h ord scope => Sys2Proof.Machine.execFence h ord scope s
  | .dbar h d => Sys2Proof.Machine.execDbar h d s
  | .launch h d a b => Sys2Proof.Machine.execLaunch h d a b s
  | .wqpush h d q k p => Sys2Proof.Machine.execWqpush h d q k p s
  | .wqpop h d kd q => Sys2Proof.Machine.execWqpop h d kd q s
  | .ploop h d a => Sys2Proof.Machine.execPloop h d a s
  | .pnext h => Sys2Proof.Machine.execPnext h s
  | .pgend h => Sys2Proof.Machine.execPgend h s
  | .pexit h => Sys2Proof.Machine.execPexit h s
  | .pacc h kc a => Sys2Proof.Machine.execPacc h kc a s
  | .pstat h d sel => Sys2Proof.Machine.execPstat h d sel s
  | .apopen h slot a => Sys2Proof.Machine.execApopen h slot a s
  | .apnd h d slot a b => Sys2Proof.Machine.execApnd h d slot a b s
  | .apcommit h d slot b => Sys2Proof.Machine.execApcommit h d slot b s
  | .aptrunc h d slot => Sys2Proof.Machine.execAptrunc h d slot s
  | .apfork h d slot a => Sys2Proof.Machine.execApfork h d slot a s
  | .apstat h d slot sel => Sys2Proof.Machine.execApstat h d slot sel s
  | .discMark h a b ts => Sys2Proof.Machine.execDiscMark h a b ts s
  | .discKeep h a b ts => Sys2Proof.Machine.execDiscKeep h a b ts s
  | .discLost h d b => Sys2Proof.Machine.execDiscLost h d b s
  | .discAck h => Sys2Proof.Machine.execDiscAck h s
  | .ckpt h d a => Sys2Proof.Machine.execCkpt h d a s
  | .tretRetry h => Sys2Proof.Machine.execTretRetry h s
  | .tretNext h => Sys2Proof.Machine.execTretNext h s
  | .tretAbort h => Sys2Proof.Machine.execTretAbort h s
  | .yield h d => Sys2Proof.Machine.execYield h d s
  | .vadd h vd va vb ty => Sys2Proof.Machine.execVadd h vd va vb ty s
  | .vsub h vd va vb ty => Sys2Proof.Machine.execVsub h vd va vb ty s
  | .vmul h vd va vb ty => Sys2Proof.Machine.execVmul h vd va vb ty s
  | .vfma h vd va vb vc ty => Sys2Proof.Machine.execVfma h vd va vb vc ty s
  | .vfms h vd va vb vc ty => Sys2Proof.Machine.execVfms h vd va vb vc ty s
  | .vfnma h vd va vb vc ty => Sys2Proof.Machine.execVfnma h vd va vb vc ty s
  | .vdiv h vd va vb ty => Sys2Proof.Machine.execVdiv h vd va vb ty s
  | .vsqrt h vd va ty => Sys2Proof.Machine.execVsqrt h vd va ty s
  | .vmin h vd va vb ty => Sys2Proof.Machine.execVmin h vd va vb ty s
  | .vmax h vd va vb ty => Sys2Proof.Machine.execVmax h vd va vb ty s
  | .vminn h vd va vb ty => Sys2Proof.Machine.execVminn h vd va vb ty s
  | .vmaxn h vd va vb ty => Sys2Proof.Machine.execVmaxn h vd va vb ty s
  | .vcmp h md va vb ty cc => Sys2Proof.Machine.execVcmp h md va vb ty cc s
  | .vclass h vd va ty => Sys2Proof.Machine.execVclass h vd va ty s
  | .vrcpe h vd va ty => Sys2Proof.Machine.execVrcpe h vd va ty s
  | .vrsqe h vd va ty => Sys2Proof.Machine.execVrsqe h vd va ty s
  | .vrcps h vd va vb ty => Sys2Proof.Machine.execVrcps h vd va vb ty s
  | .vrsqs h vd va vb ty => Sys2Proof.Machine.execVrsqs h vd va vb ty s
  | .vexp2 h vd va ty => Sys2Proof.Machine.execVexp2 h vd va ty s
  | .vlog2 h vd va ty => Sys2Proof.Machine.execVlog2 h vd va ty s
  | .vsin h vd va ty => Sys2Proof.Machine.execVsin h vd va ty s
  | .vcos h vd va ty => Sys2Proof.Machine.execVcos h vd va ty s
  | .vcvt h vd va dst src part => Sys2Proof.Machine.execVcvt h vd va dst src part s
  | .vqblk h vd va ty src b => Sys2Proof.Machine.execVqblk h vd va ty src b s
  | .vqblkGiven h vd va vs ty src b => Sys2Proof.Machine.execVqblkGiven h vd va vs ty src b s
  | .vdqblk h vd va vs ty src b => Sys2Proof.Machine.execVdqblk h vd va vs ty src b s
  | .viadd h vd va vb ty => Sys2Proof.Machine.execViadd h vd va vb ty s
  | .visub h vd va vb ty => Sys2Proof.Machine.execVisub h vd va vb ty s
  | .vimul h vd va vb ty => Sys2Proof.Machine.execVimul h vd va vb ty s
  | .vimulh h vd va vb ty => Sys2Proof.Machine.execVimulh h vd va vb ty s
  | .vimad h vd va vb vc ty => Sys2Proof.Machine.execVimad h vd va vb vc ty s
  | .vand h vd va vb ty => Sys2Proof.Machine.execVand h vd va vb ty s
  | .vor h vd va vb ty => Sys2Proof.Machine.execVor h vd va vb ty s
  | .vxor h vd va vb ty => Sys2Proof.Machine.execVxor h vd va vb ty s
  | .vandn h vd va vb ty => Sys2Proof.Machine.execVandn h vd va vb ty s
  | .vshl h vd va vb ty => Sys2Proof.Machine.execVshl h vd va vb ty s
  | .vshr h vd va vb ty => Sys2Proof.Machine.execVshr h vd va vb ty s
  | .vsar h vd va vb ty => Sys2Proof.Machine.execVsar h vd va vb ty s
  | .vrot h vd va vb ty => Sys2Proof.Machine.execVrot h vd va vb ty s
  | .vfshl h vd va vb vc ty => Sys2Proof.Machine.execVfshl h vd va vb vc ty s
  | .vfshr h vd va vb vc ty => Sys2Proof.Machine.execVfshr h vd va vb vc ty s
  | .vclz h vd va ty => Sys2Proof.Machine.execVclz h vd va ty s
  | .vpopc h vd va ty => Sys2Proof.Machine.execVpopc h vd va ty s
  | .vld h vd ka off ty bm => Sys2Proof.Machine.execVld h vd ka off ty bm s
  | .vst h vs ka off ty bm => Sys2Proof.Machine.execVst h vs ka off ty bm s
  | .vlds h vd ka kb ty => Sys2Proof.Machine.execVlds h vd ka kb ty s
  | .vgats h vd ka vb ty => Sys2Proof.Machine.execVgats h vd ka vb ty s
  | .vscats h vs ka vb ty => Sys2Proof.Machine.execVscats h vs ka vb ty s
  | .vperm h vd va vb ty => Sys2Proof.Machine.execVperm h vd va vb ty s
  | .vshuf h vd va vb vc ty => Sys2Proof.Machine.execVshuf h vd va vb vc ty s
  | .vbcast h vd ka ty => Sys2Proof.Machine.execVbcast h vd ka ty s
  | .vslideDn h vd va vb kc ty => Sys2Proof.Machine.execVslideDn h vd va vb kc ty s
  | .vslideUp h vd va vb kc ty => Sys2Proof.Machine.execVslideUp h vd va vb kc ty s
  | .vsel h vd va vb mc ty => Sys2Proof.Machine.execVsel h vd va vb mc ty s
  | .vext h va kb ty => Sys2Proof.Machine.execVext h va kb ty s
  | .vins h vd ka kb ty => Sys2Proof.Machine.execVins h vd ka kb ty s
  | .vredsum h vd va ty => Sys2Proof.Machine.execVredsum h vd va ty s
  | .vredmax h vd va ty => Sys2Proof.Machine.execVredmax h vd va ty s
  | .vredmin h vd va ty => Sys2Proof.Machine.execVredmin h vd va ty s
  | .vredarg h vd va ty least => Sys2Proof.Machine.execVredarg h vd va ty least s
  | .vscan h vd va ty exc => Sys2Proof.Machine.execVscan h vd va ty exc s
  | .viota h vd ty idx => Sys2Proof.Machine.execViota h vd ty idx s
  | .vmpop h ma ty => Sys2Proof.Machine.execVmpop h ma ty s
  | .vmlog h md ma mb tt => Sys2Proof.Machine.execVmlog h md ma mb tt s
  | .vtab h va tl kg uns => Sys2Proof.Machine.execVtab h va tl kg uns s
  | .vsnap h vd va => Sys2Proof.Machine.execVsnap h vd va s
  | .vprefeq h va vb ty => Sys2Proof.Machine.execVprefeq h va vb ty s
  | .vshort h vd va kb ty => Sys2Proof.Machine.execVshort h vd va kb ty s
  | .vmass h md va kb kc => Sys2Proof.Machine.execVmass h md va kb kc s
  | .vnoise h vd ka kb kc => Sys2Proof.Machine.execVnoise h vd ka kb kc s
  | .vbtest h md va vb ty => Sys2Proof.Machine.execVbtest h md va vb ty s
  | .vbset h vd va vb ty => Sys2Proof.Machine.execVbset h vd va vb ty s
  | .vmod wait sig neg abs clamp scale rnd => Sys2Proof.Machine.execVmod wait sig neg abs clamp scale rnd s
  | .tdecl h t f32 disc => Sys2Proof.Machine.execTdecl h t f32 disc s
  | .cbload h cb kc ka => Sys2Proof.Machine.execCbload h cb kc ka s
  | .tlset h tl kc => Sys2Proof.Machine.execTlset h tl kc s
  | .lmm h t tl kc ka nb => Sys2Proof.Machine.execLmm h t tl kc ka nb s
  | .lmmFeed h t tl cf kc nb => Sys2Proof.Machine.execLmmFeed h t tl cf kc nb s
  | .cfeed h cf ka => Sys2Proof.Machine.execCfeed h cf ka s
  | .cunfeed h cf => Sys2Proof.Machine.execCunfeed h cf s
  | .lspill h t ka => Sys2Proof.Machine.execLspill h t ka s
  | .lfill h t ka => Sys2Proof.Machine.execLfill h t ka s
  | .lzero h t => Sys2Proof.Machine.execLzero h t s
  | .lwake h mask => Sys2Proof.Machine.execLwake h mask s
  | .lstat h sel => Sys2Proof.Machine.execLstat h sel s
  | .tload h tl kc ka => Sys2Proof.Machine.execTload h tl kc ka s
  | .tsave h tl kc ka => Sys2Proof.Machine.execTsave h tl kc ka s
  | .shape h sh ks => Sys2Proof.Machine.execShape h sh ks s
  | .cpy h d sh km ks kn => Sys2Proof.Machine.execCpy h d sh km ks kn s
  | .cpyo h d sh km ks kn => Sys2Proof.Machine.execCpyo h d sh km ks kn s
  | .cpyoAppend h d sh km ks kn => Sys2Proof.Machine.execCpyoAppend h d sh km ks kn s
  | .cpyc h d sh km ks kc => Sys2Proof.Machine.execCpyc h d sh km ks kc s
  | .pref h d sh km kn l1 => Sys2Proof.Machine.execPref h d sh km kn l1 s
  | .cwait h kn => Sys2Proof.Machine.execCwait h kn s
  | .cwaitAll h => Sys2Proof.Machine.execCwaitAll h s
  | .cflush h d sh km kn op => Sys2Proof.Machine.execCflush h d sh km kn op s
  | .cstat h d sel => Sys2Proof.Machine.execCstat h d sel s
  | .gath h d sh km ks kn => Sys2Proof.Machine.execGath h d sh km ks kn s
  | .gathp h d sh km ks kn => Sys2Proof.Machine.execGathp h d sh km ks kn s
  | .scat h d sh km ks kn => Sys2Proof.Machine.execScat h d sh km ks kn s
  | .powerOn fail bad => Sys2Proof.Machine.execPowerOn fail bad s
  | .ringFetch j x => Sys2Proof.Machine.execRingFetch j x s
  | .timedTargetMiss j x => Sys2Proof.Machine.execTimedTargetMiss j x s
  | .queueDeadlock j => Sys2Proof.Machine.execQueueDeadlock j s
  | .budgetExpiry j => Sys2Proof.Machine.execBudgetExpiry j s
  | .commandComplete j cmd => Sys2Proof.Machine.execCommandComplete j cmd s
  | .commandAsyncFault j cmd => Sys2Proof.Machine.execCommandAsyncFault j cmd s
  | .sluiceBatch j cmd => Sys2Proof.Machine.execSluiceBatch j cmd s
  | .lmeCommandStart j => Sys2Proof.Machine.execLmeCommandStart j s
  | .lmmKStepDone j => Sys2Proof.Machine.execLmmKStepDone j s
  | .lmeCommandComplete j => Sys2Proof.Machine.execLmeCommandComplete j s
  | .lmeAsyncFault j => Sys2Proof.Machine.execLmeAsyncFault j s
  | .subarrayGate core sub => Sys2Proof.Machine.execSubarrayGate core sub s
  | .subarrayWakeDone core sub => Sys2Proof.Machine.execSubarrayWakeDone core sub s
  | .feedFetch j cf => Sys2Proof.Machine.execFeedFetch j cf s
  | .tableWalk j va kind => Sys2Proof.Machine.execTableWalk j va kind s
  | .resume who part core => Sys2Proof.Machine.execResume who part core s
  | .abort who part core => Sys2Proof.Machine.execAbort who part core s
  | .invalidate who part ctx va len => Sys2Proof.Machine.execInvalidate who part ctx va len s
  | .invalidationDone part => Sys2Proof.Machine.execInvalidationDone part s
  | .frameCopy src dst => Sys2Proof.Machine.execFrameCopy src dst s
  | .inletConsume part inlet => Sys2Proof.Machine.execInletConsume part inlet s
  | .launchReady part seq => Sys2Proof.Machine.execLaunchReady part seq s
  | .teamDispatch part seq cores jstart => Sys2Proof.Machine.execTeamDispatch part seq cores jstart s
  | .jobStart j => Sys2Proof.Machine.execJobStart j s
  | .completionRecordWrite part seq => Sys2Proof.Machine.execCompletionRecordWrite part seq s
  | .quantumExpiry part seq team => Sys2Proof.Machine.execQuantumExpiry part seq team s
  | .swapWindowExpiry j => Sys2Proof.Machine.execSwapWindowExpiry j s
  | .swapOutSave j => Sys2Proof.Machine.execSwapOutSave j s
  | .teamRestore part seq team cores => Sys2Proof.Machine.execTeamRestore part seq team cores s
  | .urgentPlace part seq cores jstart => Sys2Proof.Machine.execUrgentPlace part seq cores jstart s
  | .victimResume core => Sys2Proof.Machine.execVictimResume core s
  | .bankPreload part seq core lin => Sys2Proof.Machine.execBankPreload part seq core lin s
  | .l1FusionChange stop fuse => Sys2Proof.Machine.execL1FusionChange stop fuse s
  | .proofIterationStart j slot => Sys2Proof.Machine.execProofIterationStart j slot s
  | .proofCommit j => Sys2Proof.Machine.execProofCommit j s
  | .proofLoopEnd j => Sys2Proof.Machine.execProofLoopEnd j s
  | .hostMemRead port addr bytes => Sys2Proof.Machine.execHostMemRead port addr bytes s
  | .hostMemWrite port addr data => Sys2Proof.Machine.execHostMemWrite port addr data s
  | .backInvalidateSnoop port line => Sys2Proof.Machine.execBackInvalidateSnoop port line s
  | .peerRequest port addr bytes data => Sys2Proof.Machine.execPeerRequest port addr bytes data s
  | .semaphoreRead who n => Sys2Proof.Machine.execSemaphoreRead who n s
  | .semaphoreWrite who n value => Sys2Proof.Machine.execSemaphoreWrite who n value s
  | .leaseExpiry n => Sys2Proof.Machine.execLeaseExpiry n s
  | .partcfgWrite who part value => Sys2Proof.Machine.execPartcfgWrite who part value s
  | .inletReset who part mask => Sys2Proof.Machine.execInletReset who part mask s
  | .pqcfgClear who part queue value => Sys2Proof.Machine.execPqcfgClear who part queue value s
  | .registerWrite who offset value => Sys2Proof.Machine.execRegisterWrite who offset value s
  | .partitionReset who part => Sys2Proof.Machine.execPartitionReset who part s
  | .partitionResetDone part => Sys2Proof.Machine.execPartitionResetDone part s
  | .fwUpdateImage who stop => Sys2Proof.Machine.execFwUpdateImage who stop s
  | .fwAttest who => Sys2Proof.Machine.execFwAttest who s
  | .fwChangeLayout who => Sys2Proof.Machine.execFwChangeLayout who s
  | .fwReadRecord who => Sys2Proof.Machine.execFwReadRecord who s
  | .fwExport who stop => Sys2Proof.Machine.execFwExport who stop s
  | .fwImport who stop frames => Sys2Proof.Machine.execFwImport who stop frames s
  | .fwCommandComplete ready => Sys2Proof.Machine.execFwCommandComplete ready s
  | .patrolScrub line => Sys2Proof.Machine.execPatrolScrub line s
  | .frameRetire frame => Sys2Proof.Machine.execFrameRetire frame s
  | .spareCoreSubstitute core => Sys2Proof.Machine.execSpareCoreSubstitute core s
  | .flitCrcRetry link => Sys2Proof.Machine.execFlitCrcRetry link s
  | .ringLinkRetrain link ok => Sys2Proof.Machine.execRingLinkRetrain link ok s
  | .thermalWarningEnter => Sys2Proof.Machine.execThermalWarningEnter s
  | .thermalWarningExit => Sys2Proof.Machine.execThermalWarningExit s
  | .thermalEmergencyEnter => Sys2Proof.Machine.execThermalEmergencyEnter s
  | .thermalEmergencyExit => Sys2Proof.Machine.execThermalEmergencyExit s
  | .thermalTrip => Sys2Proof.Machine.execThermalTrip s
  | .issueGateUpdate gates => Sys2Proof.Machine.execIssueGateUpdate gates s
  | .telemetryRefresh part partPower temp modPower => Sys2Proof.Machine.execTelemetryRefresh part partPower temp modPower s
  | .cxlLinkReset port => Sys2Proof.Machine.execCxlLinkReset port s
  | .tickAdvance => Sys2Proof.Machine.execTickAdvance s
  | .powerRemoved => Sys2Proof.Machine.execPowerRemoved s
  | .cxlCompletion port addr data => Sys2Proof.Machine.execCxlCompletion port addr data s
  | .hostCoherenceSnoop port line => Sys2Proof.Machine.execHostCoherenceSnoop port line s
  | .faultService part resume frame => Sys2Proof.Machine.execFaultService part resume frame s
  | .contextCreate part ctx root key => Sys2Proof.Machine.execContextCreate part ctx root key s

end Sys2Proof.Machine
end

