-- ==== Sys2Proof/Machine/Turns.lean ====
section
/-! DEFINITION. What each turn of the agenda does: an offer to issue, a step of an engine or an outside agent, a segment
of a copy, an error arriving in a store, or a copy let go. -/

namespace Sys2Proof.Machine

/-- Whether an instruction is a step of an engine or an agent, and no word. -/
def isStep (i : Instr) : Bool := (encode i).isNone

/-- Runs the words of a bundle in order, while the bundle lasts. -/
def runWords : List Instr → State → Host.Outcome State Fault Refusal
  | [], s => .next s
  | i :: t, s =>
    match exec i s with
    | .next s1 => if s1.cursor.isSome then runWords t s1 else .next s1
    | .fault r => .fault r
    | .refused r => .refused r

/-- Offers a stream or slot the chance to issue, and runs what it issues. A bundle cut short by a word illegal by itself ends there
(R71). -/
def offer (n : Nat) (x : StreamId) (slot : Option Nat) (s : State) : Host.Outcome State Fault Refusal :=
  match s.tryIssue n x slot with
  | .idle s1 => .next ((s1.settle n).tryRetire n)
  | .run s1 ws =>
    match runWords ws s1 with
    | .next s2 => .next ((s2.close Sig.zero).afterIssue n slot (s.bundleOf n x))
    | .fault r => .fault r
    | .refused r => .refused r

/-- Whether job `n` has met a trap between two states: a handler has started, or the job has been aborted. -/
def trapped (n : Nat) (s t : State) : Bool :=
  match s.jobs[n]?, t.jobs[n]? with
  | some j, some k => (j.handler.isNone && k.handler.isSome) || (j.phase != .aborted && k.phase == .aborted)
  | _, _ => false

/-- The streams of job `n` whose trap in a cycle goes before that of stream `x`, lowest first: C or the proof slots that stand
for it, and the others numbered below `x` (R240). -/
def lowerStreams (s : State) (n : Nat) (x : StreamId) : List (StreamId × Option Nat) :=
  let slots := match (s.jobs[n]?).bind (·.loop) with | some lp => (List.range lp.slots.length).map some | none => []
  if x = .c then [] else
    ((none :: slots).map fun k => (StreamId.c, k)) ++
      ([StreamId.l, .v, .m].filter fun y => decide (y.num < x.num)).map fun y => (y, none)

/-- The state of the first of some offers in which job `n` would trap now. -/
def firstTrap (n : Nat) (s : State) : List (StreamId × Option Nat) → Option State
  | [] => none
  | (y, k) :: t =>
    match offer n y k s with
    | .next u => if trapped n s u then some u else firstTrap n s t
    | _ => firstTrap n s t

/-- Where stream `x`'s offer has led from `s` to the trap in `t`: the trap of a lower-numbered stream that would trap in the same
cycle is taken in its place (R240). -/
def precedence (n : Nat) (x : StreamId) (s t : State) : State :=
  if trapped n s t then (firstTrap n s (lowerStreams s n x)).getD t else t

/-- A turn that offers a stream or slot the chance to issue. -/
def issueTurn (n : Nat) (x : StreamId) (slot : Option Nat) (s : State) : Host.Outcome State Fault Refusal :=
  match offer n x slot s with
  | .next t => .next (precedence n x s t)
  | .fault r => .fault r
  | .refused r => .refused r

/-- A step of an engine or an agent; a stream's SCHEDULE_MISS yields to a lower-numbered stream's trap in its cycle (R240). -/
def eventTurn (i : Instr) (s : State) : Host.Outcome State Fault Refusal :=
  match exec i s with
  | .next t => .next (match i with | .timedTargetMiss n x => precedence n x s t | _ => t)
  | .fault r => .fault r
  | .refused r => .refused r

/-! ### A step whose units land one by one (R112, R140, R151, R177, R190, R323) -/

/-- The unit of a table store a byte lies in, by its first address: an entry of a layout, or an aligned 8-byte unit. -/
def Job.tableUnit (j : Job) (a : Nat) : Nat :=
  match j.layouts.toList.find? fun l => l.set && decide (layBase l.word ≤ a) &&
      decide (a < layBase l.word + layS l.word * laySlotBytes (j.bookOf l.word).k l.word) with
  | some l => layBase l.word + (a - layBase l.word) / layWb l.word * layWb l.word
  | none => a / 8 * 8

/-- A store some of whose units, by `unit` and the list, hold what they do in another, the rest what they held. -/
def mixCells (unit : Nat → Nat) (units : List Nat) (old new : List Host.Cell) : List Host.Cell :=
  (new.filter fun c => units.contains (unit c.1)).foldl (fun m c => cellPut m c.1 c.2)
    (old.filter fun c => !units.contains (unit c.1))

/-- The bytes of a line that lie in listed units. -/
def unitMask (units : List Nat) (line : Nat) : BitVec 64 :=
  (List.range 8).foldl (fun m i => if units.contains (64 * line + 8 * i) then m ||| (0xFF#64 <<< (8 * i)) else m) 0

/-- A held line whose listed units are another's. -/
def mixLine (units : List Nat) (old new : L1Line) : L1Line :=
  let m := unitMask units old.line
  { old with data := lineMerge old.data new.data m, dirty := (old.dirty &&& ~~~m) ||| (new.dirty &&& m) }

/-- The lines of an L1 with the listed units as in another; a line with such a unit that only the other holds is as at home in the
rest. -/
def mixL1 (units : List Nat) (home : Nat → BitVec 512) (old new : List L1Line) : List L1Line :=
  (old.map fun l => match new.find? fun q => decide (q.line = l.line) with | some q => mixLine units l q | none => l) ++
    if old.length < Config.l1Lines then
      (new.filter fun q => old.all (fun l => l.line ≠ q.line) && unitMask units q.line != 0).map fun q =>
        mixLine units { q with data := home q.line, dirty := 0 } q
    else []

/-- A state whose jobs' scratchpads and table stores have the listed units as in another. -/
def State.mixOwn (units : List Nat) (s t : State) : State :=
  { s with jobs := s.jobs.zipWith (fun j k =>
      { j with sp := mixCells (fun a => a / 8 * 8) units j.sp k.sp, ts := mixCells j.tableUnit units j.ts k.ts }) t.jobs ++
    s.jobs.drop t.jobs.length }

/-- A state whose device memory, L1 lines, scratchpads and table stores have the listed units as in another. -/
def State.mixAll (units : List Nat) (s t : State) : State :=
  { State.mixOwn units s t with
    mem := mixCells (fun a => a / 8 * 8) units s.mem t.mem
    cores := Vector.ofFn fun c => { s.cores.get c with l1 := mixL1 units s.homeLine (s.cores.get c).l1 (t.cores.get c).l1 } }

/-- Whether every L1 line of one state that has a listed unit is held in another. -/
def linesKept (units : List Nat) (s t : State) : Bool :=
  (List.finRange 96).all fun c => (s.cores.get c).l1.all fun l =>
    unitMask units l.line == 0 || (t.cores.get c).l1.any fun q => decide (q.line = l.line)

/-- A word that stores, ordered by nothing but its stream. -/
def storesLoose : Instr → Bool
  | .st _ _ _ _ (.rlx _) | .sts _ _ _ _ _ | .vst _ _ _ _ _ _ | .vscats _ _ _ _ _ | .vtab _ _ _ _ _ => true
  | _ => false

/-- A word that reads its job's scratchpad. -/
def loadsLoose : Instr → Bool
  | .lds _ _ _ _ _ _ | .vld _ _ _ _ _ _ | .vlds _ _ _ _ _ | .vgats _ _ _ _ _ => true
  | _ => false

/-- The words a stream or slot stands at. -/
def State.wordsAt (s : State) (n : Nat) (x : StreamId) (slot : Option Nat) : List Instr :=
  match s.jobs[n]? with
  | none => []
  | some j =>
    match bundleAt (j.regs x slot) x 4 (j.regs x slot).pc with
    | .inl ws => ws.filterMap (decode x)
    | .inr _ => []

/-- A command that is ordered by neither ACQ nor REL and combines nothing with what it overwrites. -/
def Cmd.loose (c : Cmd) : Bool := !shAcq c.shape && !shRel c.shape && (c.op != .scat || shComb c.shape == 0)

/-- Whether the units that a turn writes may land one by one: of a store, a segment or batch, or a matrix transfer. -/
def State.writesByUnit (s : State) (u : Turn) : Bool :=
  match u with
  | .issue n x slot => (s.wordsAt n x slot).any storesLoose
  | .segment n id | .event (.sluiceBatch n id) =>
    match (s.jobs[n]?).bind fun j => j.cmd? id with
    | some c => c.loose
    | none => false
  | .event (.lmeCommandComplete _) => true
  | _ => false

/-- Whether the units that a turn reads of its job's stores may be read one by one, and it writes none of them: a load, a K step. -/
def State.readsByUnit (s : State) (u : Turn) : Bool :=
  match u with
  | .issue n x slot => (s.wordsAt n x slot).any loadsLoose && !(s.wordsAt n x slot).any storesLoose
  | .event (.lmmKStepDone _) => true
  | _ => false

/-- Whether the word of a stream or slot has issued between two states of one cycle. -/
def issuedIn (n : Nat) (x : StreamId) (slot : Option Nat) (s t : State) : Bool :=
  match s.jobs[n]?, t.jobs[n]? with
  | some j, some k => decide ((j.regs x slot).notBefore ≤ s.tick) && decide ((k.regs x slot).notBefore = s.tick + 1) && !trapped n s t
  | _, _ => false

/-- Whether a turn has done its step between two states. -/
def Turn.made (u : Turn) (s t : State) : Bool :=
  match u with
  | .issue n x slot => issuedIn n x slot s t
  | _ => decide (s.jobs.length = t.jobs.length) && !decide (s.jobs = t.jobs)

/-- Whether what a turn would run stands in one state as in another: the word, in the same cycle, or the command. -/
def Turn.stands (u : Turn) (s t : State) : Bool :=
  match u with
  | .issue n x slot =>
    decide (s.tick = t.tick) && decide ((s.jobs[n]?).map (fun j => (j.regs x slot).pc) = (t.jobs[n]?).map fun j => (j.regs x slot).pc)
  | .segment n id | .event (.sluiceBatch n id) =>
    decide (((s.jobs[n]?).bind fun j => j.cmd? id) = (t.jobs[n]?).bind fun j => j.cmd? id)
  | .event (.lmeCommandComplete n) | .event (.lmmKStepDone n) =>
    decide (((s.jobs[n]?).bind fun j => j.lmeHead) = (t.jobs[n]?).bind fun j => j.lmeHead)
  | _ => false

/-- A state with the scratchpads and table stores of another. -/
def State.ownOf (s t : State) : State :=
  { s with jobs := s.jobs.zipWith (fun j k => { j with sp := k.sp, ts := k.ts }) t.jobs }

/-- One turn. A turn that names no step of an engine does nothing. `amid u units v` is `u` with `v` in its midst: where `u` reads by
units, the listed ones are read before `v` and the others after; where it writes by units, the listed ones are written before `v` and
the others after (R112). It does nothing where `u` could not be made before `v` and after, as one step. (DESIGN CHOICE, log 11.) -/
def runTurn (t : Turn) (s : State) : Host.Outcome State Fault Refusal :=
  match t with
  | .both u v =>
    match runTurn u s with
    | .next t => runTurn v t
    | r => r
  | .amid u units v =>
    match runTurn u s with
    | .next r =>
      if !u.made s r then .next s
      else if s.readsByUnit u then
        match runTurn v s with
        | .next m =>
          match runTurn u (State.mixOwn units m s) with
          | .next t => .next (if u.stands s m && u.made m t then State.ownOf t m else s)
          | q => q
        | q => q
      else if s.writesByUnit u then
        match runTurn v (State.mixAll units s r) with
        | .next m =>
          match runTurn u m with
          | .next t => .next (if u.stands s m && u.made m t && linesKept units (State.mixAll units s r) m && linesKept units m t then
              State.mixAll units t m else s)
          | q => q
        | q => q
      else .next s
    | q => q
  | .issue n x slot => issueTurn n x slot s
  | .event i => if isStep i then eventTurn i s else .next s
  | .segment n id => .next (s.copySegment n id)
  | .upsetMem line => .next (s.upsetMem line)
  | .upsetScratch n unit => .next (s.upsetScratch n unit)
  | .upsetPrivate n slot unit => .next (s.upsetPrivate n slot unit)
  | .upsetTable n unit => .next (s.upsetTable n unit)
  | .upsetTile n row unit => .next (s.upsetTile n row unit)
  | .upsetRing n x slot a => .next (s.upsetRing n x slot a)
  | .upsetRegs n x slot => .next (s.upsetRegs n x slot)
  | .corrected unit place => .next (s.countCorrected unit place)
  | .evictTlb stop => .next (s.evictTlb stop)
  | .evictLine core line => .next (s.evictLine core line)
  | .evictReplica stop line => .next (s.evictReplica stop line)
  | .claim port addr => .next (s.claimLine port addr)
  | .readReg a off => .next (s.registerRead a off)
  | .mask port vec on => .next (s.maskVector port vec on)
  | .unsupported port addr => .next (s.unsupportedRequest port addr)
  | .boot => .next s.nextPhase
  | .sensor stop temp => .next (s.sense stop temp)
  | .damage => .next s.damageRecord

/-- One step: the first turn of the agenda, or, with the agenda empty, a cycle passes. (DESIGN CHOICE, log 1.) -/
def stepTurn (s : State) : Host.Outcome State Fault Refusal :=
  match s.agenda with
  | [] => exec .tickAdvance s
  | t :: rest => runTurn t { s with agenda := rest }

/-- The job a placed word runs in: free to issue, with nothing of its stream under way. -/
def readyJob (now : Nat) (j : Job) : Job :=
  { j with phase := .running, susp := none, victim := false, draining := false, handler := none, loop := none,
           board := Interlock.clear, jstart := min j.jstart now }

/-- A stream free to issue with `w` at its PC, and zero words after it. -/
def readyStream (now : Nat) (t : StreamSt) (w : Word) : StreamSt :=
  ((((({ t with notBefore := min t.notBefore now, atJoin := false, out := none, claim := none, skip := false, retireQ := [] }.ringPut
    (t.pc + 24) 0).ringPut (t.pc + 16) 0).ringPut (t.pc + 8) 0).ringPut t.pc w))

/-- The word placed where the next step issues it: in the ring of the stream that reads it, at that stream's PC, in job 0,
with that stream's turn next. (DESIGN CHOICE, log 2.) -/
def placeWord (s : State) (w : Word) : State :=
  let x := (streamFor w).getD .c
  let j := readyJob s.tick ((s.jobs[0]?).getD Job.reset)
  let j1 := j.setStream x (readyStream s.tick (j.stream x) w)
  { s with jobs := j1 :: s.jobs.tail, agenda := [.issue 0 x none] }

end Sys2Proof.Machine
end

