-- ==== Sys2Proof/Machine/Step.lean ====
section
/-! DEFINITION. The step of the machine, and a state whose next step runs a given word. -/

namespace Sys2Proof.Machine

/-- One step of the machine: the first turn of the agenda, or a cycle where it is empty. -/
def step (s : State) : Host.Outcome State Fault Refusal := stepTurn s

/-- The state with a word stored where the next step issues from. -/
def State.withFetchWord (s : State) (nbits w : Nat) : State :=
  if nbits ≤ 64 then placeWord s (BitVec.ofNat 64 w) else s

end Sys2Proof.Machine
end

