-- ==== Sys2Proof/Safety.lean ====
section
/-! DEFINITION. What claims are stated in: the canonical form of memory and the invariant of a run; when a word may take
effect; and the states that an issued word, a trap and a step leave. -/

namespace Sys2Proof.Machine

/-! ### The invariant of a run -/

/-- The canonical form of a byte store: addresses strictly rising, no entry equal to what an unlisted address reads as. -/
abbrev Memory.wf (m : List Host.Cell) : Prop := cellsWf m = true

/-- A state whose device memory is in canonical form. -/
def State.Inv (s : State) : Prop := Memory.wf s.mem

/-! ### When a word may take effect -/

/-- WAIT and SIG that the place of a word allows: C's handler carries neither but `drain` (R241), a proof body none (R296). -/
def HeaderAllowed (c : Cursor) (j : Job) (w : Wait) (g : Sig) : Prop :=
  (j.handler.isSome = true → c.stream = .c → (w = .tokens 0 ∨ w = .drain 0) ∧ g = Sig.zero) ∧
    (c.slot.isSome = true → j.handler = none → w = .tokens 0 ∧ g = Sig.zero)

/-- The word of cursor `c`, with header fields `w` and `g`, passes its WAIT: `s1` is the state it then runs on, `j` its job
there (R55 to R57). Only the first word of a bundle waits, on a proof slot's registers only for older words of the slot; a word that
has issued already and waits inside the device has waited (R57); no word before it in the bundle has stalled or trapped. -/
inductive Enters (s : State) (w : Wait) (g : Sig) : Cursor → Job → State → Prop where
  | free (c : Cursor) (j : Job) (cur : s.cursor = some c) (job : s.jobs[c.job]? = some j) (going : c.stalled = false)
      (clean : c.trap = none) (header : HeaderAllowed c j w g) (nowait : c.index ≠ 0 ∨ w = .tokens 0 ∨
        (c.slot.isSome = true ∧ (waitDrains w = true → (j.regs c.stream c.slot).retireQ = []))) :
      Enters s w g c j s
  | waited (c : Cursor) (j0 j : Job) (late : Bool) (cur : s.cursor = some c) (job : s.jobs[c.job]? = some j0)
      (going : c.stalled = false) (clean : c.trap = none) (header : HeaderAllowed c j0 w g) (first : c.index = 0)
      (waits : w ≠ .tokens 0) (stream : c.slot = none) (outside : c.regs.inside = false)
      (ready : applyWait w j0 s.tick c.stream = .ready j late) :
      Enters s w g { c with late := late } j
        { s with jobs := s.jobs.set c.job j, cursor := some { c with late := late } }
  | begun (c : Cursor) (j0 : Job) (cur : s.cursor = some c) (job : s.jobs[c.job]? = some j0)
      (going : c.stalled = false) (clean : c.trap = none) (header : HeaderAllowed c j0 w g) (first : c.index = 0)
      (waits : w ≠ .tokens 0) (stream : c.slot = none) (inside : c.regs.inside = true) :
      Enters s w g c (j0.waitOver c.stream w) { s with jobs := s.jobs.set c.job (j0.waitOver c.stream w) }

/-- A scalar word runs: it passes its WAIT, its guard is true, and no command in flight owes a register it uses (R185). -/
def Runs (s : State) (h : Hdr) (uses : List Src) (d : Option Dest) (c : Cursor) (j : Job) (s1 : State) : Prop :=
  Enters s h.wait h.sig c j s1 ∧ c.regs.guardTrue h.guard = true ∧ destPending (j.regs c.stream c.slot) uses d = false

/-! ### What it leaves -/

/-- The bundle of the word of `c` has issued, leaving its job `j`: the PC goes to `nx`, or past the bundle; the exceptions its
words raised join FPFLG; the stream issues again from the next cycle; a branch leaves in the ring what R249 keeps; SIG is pushed, or
queues behind what is older and until its results are complete (R58, R145); nothing else changes. -/
def issued (s1 : State) (c : Cursor) (g : Sig) (j : Job) (v : Word) (nx : Option Word) : State :=
  let t := j.regs c.stream c.slot
  let k := j.setRegs c.stream c.slot
    { (if nx.isSome then t.leave else t) with
      pc := nx.getD (c.pc + 8 * BitVec.ofNat 64 c.len), notBefore := s1.tick + 1, out := none,
      fpflg := t.fpflg ||| c.raised.setWidth 64 }
  let e : RetEntry := ⟨c.pc, none, .discard, v, g.reply, g.tokens, false, false, c.done⟩
  { s1 with
    jobs := s1.jobs.set c.job (if c.slot.isSome then k else retireWord s1.tick c.stream k e)
    cursor := none }

/-- The word of `c` has issued as command `id`, leaving its job `j` (R160, R185, R215): the stream goes on at its next word from
the next cycle, and the retire that will write `d` and push SIG waits for the command in the stream's order. -/
def inFlight (s1 : State) (c : Cursor) (g : Sig) (j : Job) (d : Dest) (id : Nat) (strict copy : Bool) : State :=
  let t := j.stream c.stream
  let e : RetEntry := ⟨c.pc, some id, d, 0, g.reply, g.tokens, strict, copy, 0⟩
  { s1 with
    jobs := s1.jobs.set c.job
      (j.setStream c.stream { t with pc := c.pc + 8, notBefore := s1.tick + 1, retireQ := t.retireQ ++ [e] })
    cursor := none }

/-- The job with a destination written (R91). -/
def Job.put (j : Job) (c : Cursor) (d : Dest) (v : Word) : Job :=
  j.setRegs c.stream c.slot ((j.regs c.stream c.slot).write d v)

/-- The job with the registers the word runs on changed. -/
def Job.modRegs (j : Job) (c : Cursor) (f : StreamSt → StreamSt) : Job :=
  j.setRegs c.stream c.slot (f (j.regs c.stream c.slot))

/-- A scalar word `o` whose whole effect is that `d` takes a function of the registers: it completes wherever it runs, with
every other register, special register, flag, store and all of memory as they were. -/
def Yields (s : State) (h : Hdr) (uses : List Src) (d : Dest) (o : Host.Outcome State Fault Refusal) (f : StreamSt → Word) : Prop :=
  ∀ c j s1, Runs s h uses (some d) c j s1 → o = .next (issued s1 c h.sig (j.put c d (f c.regs)) (f c.regs) none)

/-- A word of a V bundle is done: after the last one the bundle has issued; before that the next word follows, and the
prefix a VMOD set is spent (R67, R70). -/
def wordDone (s1 : State) (c : Cursor) (h : VHdr) (j : Job) (v : Word) (fl : BitVec 5) : State :=
  if h.more then
    { s1 with
      jobs := s1.jobs.set c.job j
      cursor := some { c with value := v, raised := c.raised ||| fl, vmod := none, next := none, index := c.index + 1 } }
  else issued s1 { c with raised := c.raised ||| fl } h.sig j v none

/-- What a V word needs of the registers it touches: the tiles that hold them are present (R66), those it writes are in no
tile an LME command owns (R118), and it consumes no uncorrectable unit (R256). -/
def VecReady (s1 : State) (j : Job) (srcs : List Touch) (dsts : List (BitVec 7)) : Prop :=
  (∀ v ∈ srcs.map Prod.fst ++ dsts, s1.absent j v = false) ∧ (∀ v ∈ dsts, j.tileOwned (tileOf v.toNat) = false) ∧
    j.rowsBad srcs = false

/-- The exceptions of `n` lanes joined (R42, R122). -/
def raisedBy (n : Nat) (e : Nat → BitVec 5) : BitVec 5 := (List.range n).foldl (fun a i => a ||| e i) 0

/-- In precise mode none of `n` lanes raises an enabled exception (R44). -/
def NoPrecise (c : Cursor) (n : Nat) (e : Nat → BitVec 5) : Prop :=
  preciseOf c.regs.fpctl = true → ∀ i < n, e i &&& enabledOf c.regs.fpctl = 0

/-- A V word `o` is done with `vd` as its whole effect: its lanes of `w` bytes that `wrote` names take `val`, the others keep
their bits; the units of the row written in full are sound again (R248); `v` is the bundle's value so far and `fl` the
exceptions collected; and nothing else changes. -/
def VecDone (s1 : State) (c : Cursor) (h : VHdr) (j : Job) (o : Host.Outcome State Fault Refusal) (vd : BitVec 7) (w : Nat)
    (wrote : Nat → Bool) (val : Nat → Nat) (v : Word) (fl : BitVec 5) : Prop :=
  ∃ x,
    o = .next (wordDone s1 c h
      { j with
        v := j.v.set vd.toNat x
        tileBad := j.tileBad.filter fun p => !(decide (p.1 = vd.toNat) && (List.range 8).all fun i => wrote ((8 * p.2 + i) / w)) }
      v fl) ∧
    ∀ i < 256 / w, lane x (8 * w) i = if wrote i then val i % 2 ^ (8 * w) else lane (j.vreg vd) (8 * w) i

/-- A V word `o` whose whole effect is lane by lane: each active lane of `vd` takes `f`, each inactive lane keeps its bits,
and the exceptions of the active lanes are collected. -/
def LaneYields (s : State) (h : VHdr) (vd : BitVec 7) (srcs : Cursor → List Touch) (ty : ElemTy)
    (o : Host.Outcome State Fault Refusal) (f : Cursor → Nat → Nat × BitVec 5) : Prop :=
  ∀ c j s1,
    let e (i : Nat) : BitVec 5 := if laneActive c h i then (f c i).2 else 0
    Enters s h.wait h.sig c j s1 → VecReady s1 j (srcs c) [vd] → NoPrecise c ty.lanes e →
    VecDone s1 c h j o vd ty.bytes (laneActive c h) (fun i => (f c i).1) c.value (raisedBy ty.lanes e)

/-- What a trap needs to be taken by a handler: a stream that runs no proof body, with THANDLER set and no handler running. -/
def HandlerReady (c : Cursor) : Prop :=
  c.slot = none ∧ c.pre.handler = none ∧ (c.pre.stream c.stream).thandler ≠ 0

/-- A trap of a word, with THANDLER set and no handler running, is taken (R226): the bundle has done nothing; the record stands in
the trap CSRs of the trapping stream; the predicates, history and next word of C, and what stood over that word, are saved;
SSTAT.HANDLER is set; and C goes on at the trapping stream's THANDLER at least four cycles later. In a proof slot, C is the slot's
own (R297). -/
def trapTaken (s1 : State) (c : Cursor) (r : TrapRec) : State :=
  let j := c.pre.setRegs c.stream c.slot (c.regs.setTrap r)
  let k := j.regs .c c.slot
  let back := if c.stream = .c then r.tpc else k.pc
  { s1 with
    jobs := s1.jobs.set c.job
      { j.setRegs .c c.slot
          { k.leave with
            tresume := back, pc := c.regs.thandler, notBefore := max k.notBefore (s1.tick + 4), atJoin := false, skip := false
            out := none, claim := none } with
        handler := some ⟨c.stream, c.slot, k.p, k.h, back, k.atJoin, k.skip && c.stream != .c, k.out, k.claim⟩ }
    cursor := none }

/-- C once a handler `hd` has returned, at address `a`: predicates and history stand as saved, and so does what stood over the word C
was at, where C goes on with that word. -/
def cBack (hd : Handler) (c : StreamSt) (a : Word) : StreamSt :=
  { c.leave with
    p := hd.p, h := hd.h, pc := a, out := if a == hd.resume then hd.out else none
    claim := if a == hd.resume then hd.claim else none, atJoin := hd.atJoin && a == hd.resume, skip := hd.skip && a == hd.resume }

/-- The job once its handler `hd` has returned from a trap of a stream that may be resumed: that stream goes on at its TPC (`next`
set: past the bundle there), or, after SLUICE_STRICT, where it stood (R204), C at TRESUME where another stream trapped; every
stream and proof slot issues again from the next cycle. In a proof slot, C is the slot's own (R297). -/
def returned (now : Nat) (j : Job) (hd : Handler) (next : Bool) : Job :=
  let x := hd.stream
  let t := j.regs x hd.slot
  let r := j.regs .c hd.slot
  let c1 := cBack hd r r.tpc
  let k := if x = .c then j.setRegs .c hd.slot (if next then { c1 with atJoin := false, skip := true } else c1)
    else (j.setRegs .c hd.slot (cBack hd r r.tresume)).setRegs x hd.slot
      (if t.tcause = 0x0B then t else { t.leave with pc := t.tpc, skip := next })
  let go (t : StreamSt) : StreamSt := { t with notBefore := max t.notBefore (now + 1) }
  { k with
    handler := none, c := go k.c, l := go k.l, vs := go k.vs, m := go k.m, s := go k.s
    loop := k.loop.map fun lp => { lp with slots := lp.slots.map fun sl => { sl with regs := go sl.regs } } }

/-- A delivery point's test passes: nothing older is unretired and no enabled flag stands (R43). -/
def Delivered (c : Cursor) (j : Job) : Prop :=
  c.slot = none ∧ (j.stream c.stream).retireQ = [] ∧
    ((j.stream c.stream).fpflg ||| c.raised.setWidth 64).extractLsb' 0 5 &&& (j.stream c.stream).fpctl.extractLsb' 8 5 = 0

end Sys2Proof.Machine
end

