-- ==== Sys2Proof/Certificates/Slice0/Obligations.lean ====
section
/-! DEFINITION. The statements for the provers, from the numbered rules of the spec. -/

section Statements

open Sys2Proof Sys2Proof.Machine

/-! ### Encoding -/

/-- Words written out bit by bit from R62 to R73 and each row's own table are read as the instructions they stand for.
-/
def Obligations.WordsReadAsEncoded : Prop :=
  -- ADD k1, k2, h0: WAIT, SIG, OPC 0x04, GUARD 0b0111, D, A, B, F, [15:0]
  decode .m (0x00#8 ++ 0x00#8 ++ 0x04#8 ++ 0b0111#4 ++ 1#5 ++ 2#5 ++ 0x10#5 ++ 0#5 ++ 0#16) =
    some (.add ⟨.tokens 0, ⟨0, 0⟩, ⟨false, 7⟩⟩ (.k 1) (.k 2) (.h 0)) ∧
  -- LD.d.acq.team h, [k6+0x40], the example of R115
  decode .c 0x000050781B280040#64 =
    some (.ld ⟨.tokens 0, ⟨0, 0⟩, ⟨false, 7⟩⟩ .push (.k 6) 3 false (.ordered .team 0x40)) ∧
  -- VADD.f32 v5, v1, v6 under m1, MORE set: MASK, MORE, VD, VA, VB, VC, TYPE, FN
  decode .v (0x00#8 ++ 0x00#8 ++ 0x80#8 ++ 1#3 ++ 1#1 ++ 5#7 ++ 1#7 ++ 6#7 ++ 0#7 ++ 0xB#4 ++ 0#4) =
    some (.vadd ⟨.tokens 0, ⟨0, 0⟩, 1, true⟩ 5 1 6 .f32) ∧
  -- LMM t1, TL2, records at k4, control in k3, 5 records: IDX, TL, SRC, KC, KA, zero, NB
  decode .m (0x00#8 ++ 0x00#8 ++ 0x83#8 ++ 0b0111#4 ++ 1#3 ++ 2#2 ++ 0#3 ++ 3#5 ++ 4#5 ++ 0#6 ++ 5#12) =
    some (.lmm ⟨.tokens 0, ⟨0, 0⟩, ⟨false, 7⟩⟩ 1 2 (.k 3) (.k 4) 5) ∧
  -- CPY sh2, k1, k2, k3, count discarded: SH, KM, KS, KN, FN, D, [7:0]
  decode .s (0x00#8 ++ 0x00#8 ++ 0x81#8 ++ 0b0111#4 ++ 2#3 ++ 1#5 ++ 2#5 ++ 3#5 ++ 0#5 ++ 0x1F#5 ++ 0#8) =
    some (.cpy ⟨.tokens 0, ⟨0, 0⟩, ⟨false, 7⟩⟩ .discard 2 (.k 1) (.k 2) (.k 3)) ∧
  -- a C-only word, a V word and a copy word are ILLEGAL in a stream whose map lacks them (R54)
  decode .l (0x00#8 ++ 0x00#8 ++ 0x40#8 ++ 0b0111#4 ++ 1#5 ++ 2#5 ++ 3#5 ++ 0#5 ++ 0#16) = none ∧
  decode .c (0x00#8 ++ 0x00#8 ++ 0x80#8 ++ 1#3 ++ 0#1 ++ 5#7 ++ 1#7 ++ 6#7 ++ 0#7 ++ 0xB#4 ++ 0#4) = none

/-- For every instruction word, every stream that executes it and every operand its encoding admits, decoding its word
gives it back (R53 to R78). -/
def Obligations.DecodeOfEncode : Prop :=
  ∀ (x : StreamId) (i : Instr) (w : Word),
    i.stream x = true → i.legalIn (x == .v) = true → encode i = some w → decode x w = some i

/-- A word that decodes is the word of what it decodes to: no bit of it is dropped, and it is legal in that stream (R53
to R78). So two words never read as one instruction. -/
def Obligations.EncodeOfDecode : Prop :=
  ∀ (x : StreamId) (w : Word) (i : Instr),
    decode x w = some i → encode i = some w ∧ i.stream x = true ∧ i.legalIn (x == .v) = true

/-! ### The step -/

/-- At a turn that offers a stream the chance to issue, where the ring holds a word at its PC that decodes to `i` (and,
in V, that ends its bundle and that the interlock lets issue, or that has issued already and waits inside the device), the
step is `exec i` with the cursor on that word, which notes in V when its results will be complete (R145), and then what
follows an issue; where the word has trapped, a trap that a lower-numbered stream would meet in the same cycle
goes before it (R240). The model's choices it rests on: logs 1, 14. -/
def Obligations.StepRunsDecodedInstruction : Prop :=
  ∀ (s : State) (n : Nat) (x : StreamId) (rest : List Turn) (j : Job) (w : Word) (i : Instr),
    s.agenda = .issue n x none :: rest → s.jobs[n]? = some j → mayIssue { s with agenda := rest } j x none = true →
    (j.stream x).skip = false → (j.stream x).held (j.stream x).pc = some w → (x = .v → moreBit w = false) →
    (x = .v → bundleIllegal .v [w] = none) →
    (({ s with agenda := rest } : State).interlocked j x [w] && !(j.stream x).inside) = false → decode x w = some i →
    let u : State := { s with agenda := rest }
    let done := if x = .v then bundleDone j (preciseOf j.vs.fpctl) s.tick [(w, i)] else 0
    step s =
      (match exec i { u with cursor := some { Cursor.start n x none j 1 with done := done } } with
       | .next t => .next (precedence n x u ((t.close Sig.zero).afterIssue n none (u.bundleOf n x)))
       | .fault r => .fault r
       | .refused r => .refused r)

/-- A V bundle of several words: where the ring holds the words of the bundle at the PC, no rule of R67 to R71 refuses
it and the interlock lets it issue (R119), the step runs `exec` of each word in order, while the bundle lasts. A bundle
the interlock holds does not issue; in a timed job, at its target, it has missed its cycle, and its words run only to see
whether one of them traps before that. Of a bundle whose word `k` is illegal by itself the words below `k` run to the same
end (R71). An engine's or an outside agent's turn runs its instruction, a SCHEDULE_MISS yielding to a lower-numbered
stream's trap (R240). A load or a K step may read some of its units before another turn and the rest after it, and a store, a
segment or a matrix transfer write so (R112, R140, R151, R190). With no turn left a cycle passes. The model's choices it rests on: logs 1, 14, 21, 32, 41. -/
def Obligations.StepRunsBundlesAndTurns : Prop :=
  (∀ (s : State) (n : Nat) (rest : List Turn) (j : Job) (ws : List Word),
    s.agenda = .issue n .v none :: rest → s.jobs[n]? = some j → mayIssue { s with agenda := rest } j .v none = true →
    j.vs.skip = false → bundleAt j.vs .v 4 j.vs.pc = .inl ws →
    let u : State := { s with agenda := rest }
    let c := Cursor.start n .v none j ws.length
    let held := u.interlocked j .v ws && !j.vs.inside
    let late := j.timed && j.targetCome s.tick .v (ws.headD 0)
    let runs (l : List Instr) (k : Cursor) : Prop :=
      step s =
        (match runWords l { u with cursor := some k } with
         | .next t => .next (precedence n .v u ((t.close Sig.zero).afterIssue n none (u.bundleOf n .v)))
         | .fault r => .fault r
         | .refused r => .refused r)
    (bundleIllegal .v ws = none →
      (held = false → runs (ws.filterMap (decode .v))
        { c with done := bundleDone j (preciseOf j.vs.fpctl) s.tick (bundlePairs .v ws) }) ∧
      (held = true → late = false → step s = .next (precedence n .v u ((u.settle n).tryRetire n))) ∧
      (held = true → late = true → runs (ws.filterMap (decode .v)) c.missed)) ∧
    (∀ k, bundleIllegal .v ws = some (k + 1) → runs ((ws.take (k + 1)).filterMap (decode .v)) (c.illegalAt (k + 1)))) ∧
  (∀ (s : State) (i : Instr) (rest : List Turn),
    s.agenda = .event i :: rest → encode i = none → (∀ n x, i ≠ .timedTargetMiss n x) → step s = exec i { s with agenda := rest }) ∧
  (∀ (s t : State) (n : Nat) (x : StreamId) (rest : List Turn),
    s.agenda = .event (.timedTargetMiss n x) :: rest → exec (.timedTargetMiss n x) { s with agenda := rest } = .next t →
    step s = .next (precedence n x { s with agenda := rest } t)) ∧
  (∀ (s r : State) (u v : Turn) (rest : List Turn),
    s.agenda = .both u v :: rest → step { s with agenda := u :: rest } = .next r → r.agenda = rest →
    step s = step { r with agenda := v :: rest }) ∧
  (∀ (s r m t : State) (u v : Turn) (units : List Nat) (rest : List Turn),
    let a : State := { s with agenda := rest }
    -- the step of `u`, were it made before `v`
    s.agenda = .amid u units v :: rest → step { s with agenda := u :: rest } = .next r → u.made a r = true → m.agenda = rest →
    -- a reader: the listed units as before `v`, the others as after
    (a.readsByUnit u = true → step { s with agenda := v :: rest } = .next m →
      step { State.mixOwn units m a with agenda := u :: rest } = .next t → u.stands a m = true → u.made m t = true →
      step s = .next (State.ownOf t m)) ∧
    -- a writer: the listed units written before `v`, the others after
    (a.readsByUnit u = false → a.writesByUnit u = true →
      let mid := State.mixAll units a r
      step { mid with agenda := v :: rest } = .next m → step { m with agenda := u :: rest } = .next t →
      u.stands a m = true → u.made m t = true → linesKept units mid m = true → linesKept units m t = true →
      step s = .next (State.mixAll units t m)) ∧
    (a.readsByUnit u = false → a.writesByUnit u = false → step s = .next a)) ∧
  (∀ (s r : State) (u v : Turn) (units : List Nat) (rest : List Turn),
    s.agenda = .amid u units v :: rest → step { s with agenda := u :: rest } = .next r →
    u.made { s with agenda := rest } r = false → step s = .next { s with agenda := rest }) ∧
  (∀ s : State, s.agenda = [] → step s = exec .tickAdvance s)

/-- A word that the stream's map does not hold raises ILLEGAL (R54): offered with THANDLER set and no handler running,
the step takes that trap at the word's address, whatever WAIT the word asks for, and nothing else of the job changes; a
trap that a lower-numbered stream would meet in the same cycle goes before it (R240). The model's choices it rests on:
logs 1, 20. -/
def Obligations.StepIllegalWordTraps : Prop :=
  ∀ (s : State) (n : Nat) (x : StreamId) (rest : List Turn) (j : Job) (w : Word),
    s.agenda = .issue n x none :: rest → s.jobs[n]? = some j → x ≠ .v → mayIssue { s with agenda := rest } j x none = true →
    (j.stream x).skip = false → (j.stream x).held (j.stream x).pc = some w → decode x w = none →
    (j.stream x).thandler ≠ 0 → j.handler = none →
    let u : State := { s with agenda := rest }
    step s = .next (precedence n x u
      ((({ u with jobs := (trapTaken s (Cursor.start n x none j 1) ⟨causeIllegal, (j.stream x).pc, 0, 0⟩).jobs }
        : State).settle n).tryRetire n))

/-! ### Reset and the invariant -/

/-- The state after reset keeps its memory in canonical form. The model's choices it rests on: log 4. -/
def Obligations.ResetMemoryCanonical : Prop := State.reset.Inv

/-- Every step keeps the device memory in canonical form, from every state that has it. The model's choices it rests on:
log 4. -/
def Obligations.StepKeepsMemoryCanonical : Prop := ∀ s t : State, s.Inv → step s = .next t → t.Inv

/-! ### Scalar computations -/

/-- NOP changes nothing but what its header says (R98). Moves, sums and logic of the common map (R98 to R100): the
destination takes the value, and nothing else changes. -/
def Obligations.ArithmeticAndLogicResults : Prop :=
  (∀ s h c j s1, Runs s h [] none c j s1 → exec (.nop h) s = .next (issued s1 c h.sig j c.value none)) ∧
  (∀ (s : State) (h : Hdr) (d : Dest) (a b : Src) (i31 : BitVec 31) (i26 : BitVec 26) (hw : BitVec 2) (i16 : BitVec 16),
    Yields s h [] d (exec (.movi h d i31) s) (fun _ => i31.signExtend 64) ∧
    Yields s h [a] d (exec (.movk h d a hw i16) s) (fun t =>
      BitVec.ofFnLE fun k : Fin 64 =>
        if 16 * hw.toNat ≤ k.val ∧ k.val < 16 * hw.toNat + 16 then i16.getLsbD (k.val - 16 * hw.toNat)
        else (t.src a).getLsbD k.val) ∧
    Yields s h [a] d (exec (.mov h d a) s) (fun t => t.src a) ∧
    Yields s h [a, b] d (exec (.add h d a b) s) (fun t => t.src a + t.src b) ∧
    Yields s h [a, b] d (exec (.sub h d a b) s) (fun t => t.src a - t.src b) ∧
    Yields s h [a] d (exec (.addi h d a i26) s) (fun t => t.src a + i26.signExtend 64) ∧
    Yields s h [a, b] d (exec (.and h d a b) s) (fun t => t.src a &&& t.src b) ∧
    Yields s h [a, b] d (exec (.or h d a b) s) (fun t => t.src a ||| t.src b) ∧
    Yields s h [a, b] d (exec (.xor h d a b) s) (fun t => t.src a ^^^ t.src b) ∧
    Yields s h [a, b] d (exec (.andn h d a b) s) (fun t => t.src a &&& ~~~(t.src b)))

/-- Shifts take bits [7:0] of their amount (R49): from the width up they give zeros, or copies of the sign. -/
def Obligations.ShiftResults : Prop :=
  ∀ (s : State) (h : Hdr) (d : Dest) (a b n : Src),
    Yields s h [a, b] d (exec (.shl h d a b) s) (fun t =>
      if (t.src b).toNat % 256 < 64 then t.src a <<< ((t.src b).toNat % 256) else 0) ∧
    Yields s h [a, b] d (exec (.shr h d a b) s) (fun t =>
      if (t.src b).toNat % 256 < 64 then t.src a >>> ((t.src b).toNat % 256) else 0) ∧
    Yields s h [a, b] d (exec (.sar h d a b) s) (fun t =>
      if (t.src b).toNat % 256 < 64 then (t.src a).sshiftRight ((t.src b).toNat % 256)
      else if (t.src a).msb then BitVec.allOnes 64 else 0) ∧
    Yields s h [a, b, n] d (exec (.fshl h d a b n) s) (fun t =>
      if (t.src n).toNat % 256 < 128 then ((t.src a ++ t.src b) <<< ((t.src n).toNat % 256)).extractLsb' 64 64 else 0) ∧
    Yields s h [a, b, n] d (exec (.fshr h d a b n) s) (fun t =>
      if (t.src n).toNat % 256 < 128 then ((t.src a ++ t.src b) >>> ((t.src n).toNat % 256)).extractLsb' 0 64 else 0) ∧
    -- the funnel shifts as R105 encodes and guards them: S3 with n in F; guarded off with destination h they push a
    (∀ w, encode (.fshl h d a b n) = some w → fOpc w = 0x49 ∧ fF w = n.code ∧ fLow w = 0) ∧
    (∀ w, encode (.fshr h d a b n) = some w → fOpc w = 0x4A ∧ fF w = n.code ∧ fLow w = 0) ∧
    (∀ c j s1, Enters s h.wait h.sig c j s1 → c.regs.guardTrue h.guard = false →
      destPending (j.regs c.stream c.slot) [a] (some .push) = false →
      let off := issued s1 c h.sig (j.put c .push (c.regs.src a)) (c.regs.src a) none
      exec (.fshl h .push a b n) s = .next off ∧ exec (.fshr h .push a b n) s = .next off)

/-- Minimum, maximum and selection (R97, R99). -/
def Obligations.MinMaxSelectResults : Prop :=
  ∀ (s : State) (h : Hdr) (d : Dest) (a b : Src) (pc : BitVec 3),
    Yields s h [a, b] d (exec (.min h d a b false) s) (fun t => BitVec.ofNat 64 (min (t.src a).toNat (t.src b).toNat)) ∧
    Yields s h [a, b] d (exec (.min h d a b true) s) (fun t => BitVec.ofInt 64 (min (t.src a).toInt (t.src b).toInt)) ∧
    Yields s h [a, b] d (exec (.max h d a b false) s) (fun t => BitVec.ofNat 64 (max (t.src a).toNat (t.src b).toNat)) ∧
    Yields s h [a, b] d (exec (.max h d a b true) s) (fun t => BitVec.ofInt 64 (max (t.src a).toInt (t.src b).toInt)) ∧
    Yields s h [a, b] d (exec (.sel h d pc a b) s) (fun t => if pc = 7 ∨ t.p.getLsbD pc.toNat = true then t.src a else t.src b)

/-- The C-only computations (R48, R101 to R104): products, quotients (all ones on a zero divisor, and no trap on any
operand), counts and bit fields. A field of BFX or BFI that reaches past bit 63 is ILLEGAL (R104): its word decodes in
no stream. -/
def Obligations.ProductsQuotientsAndFields : Prop :=
  (∀ (s : State) (h : Hdr) (d : Dest) (a b : Src) (pos len : BitVec 6),
    Yields s h [a, b] d (exec (.mul h d a b) s) (fun t => t.src a * t.src b) ∧
    Yields s h [a, b] d (exec (.mulh h d a b .uu) s) (fun t =>
      ((t.src a).setWidth 128 * (t.src b).setWidth 128).extractLsb' 64 64) ∧
    Yields s h [a, b] d (exec (.mulh h d a b .ss) s) (fun t =>
      ((t.src a).signExtend 128 * (t.src b).signExtend 128).extractLsb' 64 64) ∧
    Yields s h [a, b] d (exec (.mulh h d a b .su) s) (fun t =>
      ((t.src a).signExtend 128 * (t.src b).setWidth 128).extractLsb' 64 64) ∧
    Yields s h [a, b] d (exec (.div h d a b false) s) (fun t =>
      if t.src b = 0 then BitVec.allOnes 64 else (t.src a).udiv (t.src b)) ∧
    Yields s h [a, b] d (exec (.div h d a b true) s) (fun t =>
      if t.src b = 0 then BitVec.allOnes 64 else (t.src a).sdiv (t.src b)) ∧
    Yields s h [a, b] d (exec (.rem h d a b false) s) (fun t => if t.src b = 0 then t.src a else (t.src a).umod (t.src b)) ∧
    Yields s h [a, b] d (exec (.rem h d a b true) s) (fun t => if t.src b = 0 then t.src a else (t.src a).srem (t.src b)) ∧
    Yields s h [a] d (exec (.clz h d a) s) (fun t =>
      BitVec.ofNat 64 ((List.range 64).takeWhile fun k => !(t.src a).getMsbD k).length) ∧
    Yields s h [a] d (exec (.ctz h d a) s) (fun t =>
      BitVec.ofNat 64 ((List.range 64).takeWhile fun k => !(t.src a).getLsbD k).length) ∧
    Yields s h [a] d (exec (.popc h d a) s) (fun t => BitVec.ofNat 64 ((List.range 64).filter (t.src a).getLsbD).length) ∧
    (pos.toNat + (len.toNat + 1) ≤ 64 →
      Yields s h [a] d (exec (.bfx h d a pos len false) s) (fun t =>
        ((t.src a).extractLsb' pos.toNat (len.toNat + 1)).setWidth 64) ∧
      Yields s h [a] d (exec (.bfx h d a pos len true) s) (fun t =>
        ((t.src a).extractLsb' pos.toNat (len.toNat + 1)).signExtend 64) ∧
      Yields s h [a, b] d (exec (.bfi h d a b pos len) s) (fun t =>
        BitVec.ofFnLE fun k : Fin 64 =>
          if pos.toNat ≤ k.val ∧ k.val < pos.toNat + (len.toNat + 1) then (t.src b).getLsbD (k.val - pos.toNat)
          else (t.src a).getLsbD k.val)) ∧
    -- the counts as R103 encodes them: S3 with B, F and [15:0] zero
    (∀ w, encode (.clz h d a) = some w → fOpc w = 0x44 ∧ fI26 w = 0) ∧
    (∀ w, encode (.ctz h d a) = some w → fOpc w = 0x45 ∧ fI26 w = 0) ∧
    (∀ w, encode (.popc h d a) = some w → fOpc w = 0x46 ∧ fI26 w = 0)) ∧
  (∀ (x : StreamId) (h : Hdr) (d : Dest) (a b : Src) (pos len : BitVec 6) (sx : Bool) (w : Word),
    64 < pos.toNat + (len.toNat + 1) →
    (encode (.bfx h d a pos len sx) = some w ∨ encode (.bfi h d a b pos len) = some w) → decode x w = none)

/-- A word that writes a predicate: p7 ignores the write, and the value is 1 or 0. -/
def Obligations.PredicateWords : Prop :=
  ∀ (s : State) (h : Hdr) (pd pa pb : BitVec 3) (a b : Src) (imm : BitVec 21) (cc : Cond) (tt : BitVec 4) (c : Cursor) (j : Job)
      (s1 : State),
    let t := c.regs
    let post (b : Bool) : State := issued s1 c h.sig
      (j.modRegs c fun r => { r with
        p := if pd = 7 then r.p else (BitVec.ofFnLE fun k : Fin 7 => if k.val = pd.toNat then b else r.p.getLsbD k.val) })
      (if b then 1 else 0) none
    let holds (x y : Word) : Bool :=
      match cc with
      | .eq => decide (x = y) | .ne => decide (x ≠ y)
      | .lt => decide (x.toInt < y.toInt) | .ge => decide (y.toInt ≤ x.toInt)
      | .gt => decide (y.toInt < x.toInt) | .le => decide (x.toInt ≤ y.toInt)
      | .ltu => decide (x.toNat < y.toNat) | .geu => decide (y.toNat ≤ x.toNat)
      | .gtu => decide (y.toNat < x.toNat) | .leu => decide (x.toNat ≤ y.toNat)
      | .tst => decide (x &&& y ≠ 0) | .ntst => decide (x &&& y = 0)
    let pred (i : BitVec 3) : Nat := if i = 7 ∨ t.p.getLsbD i.toNat = true then 1 else 0
    (Runs s h [a, b] none c j s1 → exec (.cmp h pd a b cc) s = .next (post (holds (t.src a) (t.src b)))) ∧
    (Runs s h [a] none c j s1 → exec (.cmpi h pd a imm cc) s = .next (post (holds (t.src a) (imm.signExtend 64)))) ∧
    (Runs s h [] none c j s1 → exec (.pset h pd pa pb tt) s = .next (post (tt.getLsbD (2 * pred pa + pred pb))))

/-! ### Branches -/

/-- Branches, calls, returns and the counted loop (R106 to R110): where they go, and what becomes of the return stack
and the counter; nothing else changes. A target of JMP or RET ka is a multiple of 8. A word of a V bundle branches from
its own address. A jump to an address that is no multiple of 8 raises MISALIGNED; CALL with 32 entries, and either RET
with none, raise STACK_LIMIT, with TINFO bit 0 on the underflow; none of them moves the stack or branches (R107 to
R109). -/
def Obligations.BranchWords : Prop :=
  (∀ (s : State) (h : Hdr) (a : Src) (kc : BitVec 4) (i36 : BitVec 36) (i31 : BitVec 31) (c : Cursor) (j : Job) (s1 : State),
    let at' := c.pc + 8 * BitVec.ofNat 64 c.index
    let t := c.regs
    (Runs s h [] none c j s1 →
      exec (.br h i36) s = .next (issued s1 c h.sig j c.value (some (at' + 8 * i36.signExtend 64)))) ∧
    (Runs s h [a] none c j s1 → (t.src a).toNat % 8 = 0 →
      exec (.jmp h a) s = .next (issued s1 c h.sig j c.value (some (t.src a)))) ∧
    (Runs s h [] none c j s1 → t.rstack.length < 32 →
      exec (.call h i36) s = .next (issued s1 c h.sig (j.modRegs c fun r => { r with rstack := (at' + 8) :: t.rstack }) c.value
        (some (at' + 8 * i36.signExtend 64)))) ∧
    (∀ top rest, Runs s h [] none c j s1 → t.rstack = top :: rest →
      exec (.ret h) s = .next (issued s1 c h.sig (j.modRegs c fun r => { r with rstack := rest }) c.value (some top))) ∧
    (∀ top rest, Runs s h [a] none c j s1 → t.rstack = top :: rest → (t.src a).toNat % 8 = 0 →
      exec (.retReg h a) s = .next (issued s1 c h.sig (j.modRegs c fun r => { r with rstack := rest }) c.value (some (t.src a)))) ∧
    (Runs s h [.k kc] none c j s1 →
      exec (.loop h kc i31) s = .next (
        if t.src (.k kc) = 0 then issued s1 c h.sig j c.value none
        else issued s1 c h.sig (j.put c (.k kc) (t.src (.k kc) - 1)) c.value
          (if t.src (.k kc) = 1 then none else some (at' + 8 * i31.signExtend 64))))) ∧
  (∀ (s : State) (h : Hdr) (a : Src) (i36 : BitVec 36) (c : Cursor) (j : Job) (s1 : State),
    HandlerReady c →
    let t := c.regs
    let rec' (cause : BitVec 8) (info : Word) : TrapRec := ⟨cause, c.pc, 0, info ||| (BitVec.ofNat 64 c.index <<< 8)⟩
    (Runs s h [a] none c j s1 → (t.src a).toNat % 8 ≠ 0 →
      exec (.jmp h a) s = .next (trapTaken s1 c (rec' causeMisaligned 0))) ∧
    (Runs s h [] none c j s1 → 32 ≤ t.rstack.length →
      exec (.call h i36) s = .next (trapTaken s1 c (rec' causeStackLimit 0))) ∧
    (Runs s h [] none c j s1 → t.rstack = [] → exec (.ret h) s = .next (trapTaken s1 c (rec' causeStackLimit 1))) ∧
    (Runs s h [a] none c j s1 → t.rstack = [] →
      exec (.retReg h a) s = .next (trapTaken s1 c (rec' causeStackLimit 1))) ∧
    (Runs s h [a] none c j s1 → t.rstack ≠ [] → (t.src a).toNat % 8 ≠ 0 →
      exec (.retReg h a) s = .next (trapTaken s1 c (rec' causeMisaligned 0))))

/-- A word whose guard is false applies its WAIT and SIG and does nothing else, but that a destination of history takes
a push of its A operand, or of zero (R60, R92): shown for each shape of scalar word, for the matrix words, whose REPLY
carries the first source (R160), and for the copy and Sluice words, which count as commands that have retired (R185). Such a
word waits for no register but one it pushes or sends (R206). The model's choices it rests on: logs 19, 42. -/
def Obligations.FalseGuardDoesNothing : Prop :=
  ∀ (s : State) (h : Hdr) (d : Dest) (a b n : Src) (pd : BitVec 3) (kc : BitVec 4) (i31 : BitVec 31) (i36 : BitVec 36)
      (i21 : BitVec 21) (sz : BitVec 2) (cc : Cond) (csr : BitVec 12) (sel : BitVec 3) (x : BitVec 2) (code : BitVec 16)
      (tl : BitVec 2) (nb lsel : BitVec 12) (cb sh : BitVec 3) (f32 disc l1 : Bool) (m4 : BitVec 4) (op : FlushOp) (cs : BitVec 5)
      (ord : MemOrd) (aop : AtomOp) (rord : RmwOrd) (sc : Scope) (c : Cursor) (j : Job) (s1 : State),
    Enters s h.wait h.sig c j s1 → c.regs.guardTrue h.guard = false →
    let off (d : Dest) (v : Word) : State := issued s1 c h.sig (if d = .push then j.put c .push v else j) v none
    let plain : State := issued s1 c h.sig j c.value none
    -- what the word reads: the operand it pushes, or sends
    let free (first : Option Src) (d : Option Dest) : Prop :=
      destPending (j.regs c.stream c.slot) (if d = some .push ∨ h.sig.reply ≠ 0 then first.toList else [])
        (if d = some .push then d else none) = false
    let va := c.regs.src a
    (free (some a) (some d) → exec (.add h d a b) s = .next (off d va) ∧ exec (.div h d a b true) s = .next (off d va) ∧
      exec (.fshl h d a b n) s = .next (off d va) ∧ exec (.mov h d a) s = .next (off d va) ∧
      exec (.lds h d a sz false i21) s = .next (off d va) ∧ exec (.csrw h d csr sel a) s = .next (off d va) ∧
      exec (.ld h d a sz false ord) s = .next (off d va) ∧ exec (.atom h d a b aop false rord sc true) s = .next (off d va) ∧
      exec (.launch h d a b) s = .next (off d va)) ∧
    (free none (some d) → exec (.movi h d i31) s = .next (off d 0) ∧ exec (.csrr h d csr sel) s = .next (off d 0) ∧
      exec (.qpop h d x) s = .next (off d 0) ∧ exec (.stamp h d) s = .next (off d 0) ∧ exec (.cstat h d cs) s = .next (off d 0)) ∧
    (free (some a) none → exec (.cmp h pd a b cc) s = .next (off .discard va) ∧ exec (.sts h b a sz i21) s = .next plain ∧
      exec (.st h b a sz ord) s = .next plain ∧ exec (.jmp h a) s = .next plain ∧ exec (.retReg h a) s = .next plain) ∧
    (free none none → exec (.loop h kc i31) s = .next plain ∧ exec (.br h i36) s = .next plain ∧
      exec (.call h i36) s = .next plain ∧ exec (.ret h) s = .next plain ∧ exec (.trap h code) s = .next plain ∧
      exec (.join h) s = .next plain) ∧
    -- matrix words
    (free (some a) none → exec (.lmm h tl x a b nb) s = .next (off .discard va) ∧
      exec (.lmmFeed h tl x x a nb) s = .next (off .discard va) ∧ exec (.lspill h tl a) s = .next (off .discard va) ∧
      exec (.lfill h tl a) s = .next (off .discard va) ∧ exec (.tload h tl a b) s = .next (off .discard va) ∧
      exec (.tsave h tl a b) s = .next (off .discard va) ∧ exec (.cbload h cb a b) s = .next plain ∧
      exec (.tlset h tl a) s = .next plain ∧ exec (.cfeed h tl a) s = .next plain) ∧
    (free none none → exec (.lzero h tl) s = .next (off .discard 0) ∧ exec (.tdecl h tl f32 disc) s = .next plain ∧
      exec (.cunfeed h tl) s = .next plain ∧ exec (.lwake h m4) s = .next plain) ∧
    (free none (some .push) → exec (.lstat h lsel) s = .next (off .push 0)) ∧
    -- copy and Sluice words
    (free (some a) none → exec (.shape h sh a) s = .next plain ∧ exec (.cwait h a) s = .next plain) ∧
    (free none none → exec (.cwaitAll h) s = .next plain) ∧
    (c.slot = none → free (some a) (some d) →
      let u := j.stream c.stream
      let k := j.setStream c.stream { (if d = .push then u.push va else u) with pc := c.pc + 8, notBefore := s1.tick + 1 }
      let t : State := { s1 with
        jobs := s1.jobs.set c.job (retireWord s1.tick c.stream k ⟨c.pc, none, .discard, va, h.sig.reply, h.sig.tokens, false, true, 0⟩)
        cursor := none }
      exec (.cpy h d sh a b n) s = .next t ∧ exec (.cpyo h d sh a b n) s = .next t ∧ exec (.cpyoAppend h d sh a b n) s = .next t ∧
      exec (.cpyc h d sh a b n) s = .next t ∧ exec (.gath h d sh a b n) s = .next t ∧ exec (.gathp h d sh a b n) s = .next t ∧
      exec (.scat h d sh a b n) s = .next t ∧ exec (.pref h d sh a b l1) s = .next t ∧ exec (.cflush h d sh a b op) s = .next t)

/-! ### Scratchpad and memory -/

/-- LDS reads 2^SIZE bytes at a + sext(I, 21), little-endian, inside the job's windows; STS writes them there, and
nothing else changes (R111) but that an uncorrectable unit that the store covers is sound again (R248). -/
def Obligations.ScratchpadLoadAndStore : Prop :=
  ∀ (s : State) (h : Hdr) (d : Dest) (x a : Src) (size : BitVec 2) (sgn : Bool) (off : BitVec 21) (c : Cursor) (j : Job) (s1 : State),
    let at' := (c.regs.src a + off.signExtend 64).toNat
    let n := 2 ^ size.toNat
    c.slot = none → j.spanOk at' n = true →
    (Runs s h [a] (some d) c j s1 → unitsTouch j.spBad at' n = false →
      let raw := leNat ((List.range n).map fun i => cellGet j.sp (at' + i))
      let v : Word := if sgn = true ∧ 2 ^ (8 * n - 1) ≤ raw then BitVec.ofInt 64 ((raw : Int) - 2 ^ (8 * n)) else BitVec.ofNat 64 raw
      exec (.lds h d a size sgn off) s = .next (issued s1 c h.sig (j.put c d v) v none)) ∧
    (Runs s h [x, a] none c j s1 →
      exec (.sts h x a size off) s = .next (issued s1 c h.sig
        { j with
          sp := cellPutN j.sp at' ((List.range n).map fun i => (c.regs.src x).extractLsb' (8 * i) 8)
          spBad := j.spBad.filter fun u => !(decide (at' ≤ 8 * u) && decide (8 * u + 8 ≤ at' + n)) }
        c.value none))

/-- A scratchpad access outside the job's windows raises BOUND, and a load of an uncorrectable unit MEM_UE, which is
reported as consumed: a stream that can handle the trap takes it, and nothing is read or written (R111, R247, R248). The
address checks of LD and ST in every ordering (R113): an ordered access to an address that is no multiple of its size, and
a load from path 0x6 that is not one of 8 aligned bytes, raises MISALIGNED; otherwise bits [63:60] nonzero or a path of 0x7
or above raise PROTECTION, as do a store to path 0x6, a load there from where nothing answers, and a store to path 0x1
where no part of it fails to translate, which ranks before (R80). The model's choices it rests on: log 89 (the error
record of the MEM_UE, some of whose fields are free). -/
def Obligations.LoadStoreTraps : Prop :=
  (∀ (s : State) (h : Hdr) (d : Dest) (x a : Src) (size : BitVec 2) (sgn : Bool) (off : BitVec 21) (c : Cursor) (j : Job) (s1 : State),
    let at' := (c.regs.src a + off.signExtend 64).toNat
    HandlerReady c → j.spanOk at' (2 ^ size.toNat) = false →
    (Runs s h [a] (some d) c j s1 →
      exec (.lds h d a size sgn off) s = .next (trapTaken s1 c ⟨causeBound, c.pc, 0, BitVec.ofNat 64 c.index <<< 8⟩)) ∧
    (Runs s h [x, a] none c j s1 →
      exec (.sts h x a size off) s = .next (trapTaken s1 c ⟨causeBound, c.pc, 0, BitVec.ofNat 64 c.index <<< 8⟩))) ∧
  (∀ (s : State) (h : Hdr) (d : Dest) (a : Src) (size : BitVec 2) (sgn : Bool) (off : BitVec 21) (c : Cursor) (j : Job) (s1 : State),
    let at' := (c.regs.src a + off.signExtend 64).toNat
    HandlerReady c → j.spanOk at' (2 ^ size.toNat) = true → unitsTouch j.spBad at' (2 ^ size.toNat) = true →
    Runs s h [a] (some d) c j s1 →
    exec (.lds h d a size sgn off) s =
      .next (trapTaken (({ s1 with ueAt := j.spUe none at' (2 ^ size.toNat) } : State).rollback c |>.reportUe c.job c.pre.core) c
        ⟨causeMemUe, c.pc, 0, BitVec.ofNat 64 c.index <<< 8⟩)) ∧
  (∀ (s : State) (h : Hdr) (d : Dest) (x a : Src) (size : BitVec 2) (sgn : Bool) (ord : MemOrd) (c : Cursor) (j : Job) (s1 : State),
    let va := c.regs.src a + (match ord with | .rlx i => i.signExtend 64 | .ordered _ i => i.signExtend 64)
    let n := 2 ^ size.toNat
    let aligned := ordIs ord = true → va.toNat % n = 0
    let out (cause : BitVec 8) : State := trapTaken s1 c ⟨cause, c.pc, 0, BitVec.ofNat 64 c.index <<< 8⟩
    HandlerReady c →
    (¬aligned →
      (Runs s h [a] (some d) c j s1 → exec (.ld h d a size sgn ord) s = .next (out causeMisaligned)) ∧
      (Runs s h [x, a] none c j s1 → exec (.st h x a size ord) s = .next (out causeMisaligned))) ∧
    (va.toNat / 2 ^ 56 = 6 → Runs s h [a] (some d) c j s1 →
      ((n ≠ 8 ∨ va.toNat % 8 ≠ 0) → exec (.ld h d a size sgn ord) s = .next (out causeMisaligned)) ∧
      (n = 8 → va.toNat % 8 = 0 → s1.controlRead j none (va.toNat % 2 ^ 56) = none →
        exec (.ld h d a size sgn ord) s = .next (out causeProtection))) ∧
    (aligned →
      (7 * 2 ^ 56 ≤ va.toNat → Runs s h [a] (some d) c j s1 → exec (.ld h d a size sgn ord) s = .next (out causeProtection)) ∧
      (6 * 2 ^ 56 ≤ va.toNat → Runs s h [x, a] none c j s1 → exec (.st h x a size ord) s = .next (out causeProtection)) ∧
      (va.toNat / 2 ^ 56 = 1 → ((∃ t l, s1.partsOf (c.who j) va n .read = .ok t l) ∨ ∃ t e, s1.partsOf (c.who j) va n .read = .fault t e) →
        Runs s h [x, a] none c j s1 → exec (.st h x a size ord) s = .next (out causeProtection))))

/-- Bytes written to a canonical byte store are read back, every other address reads as before, and the form is kept:
what every store to the scratchpad, the table store and device memory does. Two canonical byte stores that read alike at
every address are equal. The model's choices it rests on: log 4. -/
def Obligations.StoredBytesReadBack : Prop :=
  (∀ (m : List Host.Cell) (a : Nat) (b : List Byte), Memory.wf m →
    Memory.wf (cellPutN m a b) ∧
    ∀ x, cellGet (cellPutN m a b) x = if a ≤ x ∧ x < a + b.length then b.getD (x - a) 0 else cellGet m x) ∧
  (∀ m k : List Host.Cell, Memory.wf m → Memory.wf k → (∀ x, cellGet m x = cellGet k x) → m = k)

/-- LD yields the bytes its access gives, extended, on every path from 0x0 to 0x5, and on path 0x6 the register read; the
access may bring lines and translations into the core, an acquire at team scope or wider, or on path 0x1, reads the home,
and one at team scope or wider then leaves no line of an RC page in the core's L1 (R113, R261, R262, R265). It waits
inside the device while a host holds a line that such an acquire has to send home (R390). The model's choices it rests
on: logs 31, 32, 84. -/
def Obligations.LoadYieldsBytesRead : Prop :=
  ∀ (s : State) (h : Hdr) (d : Dest) (a : Src) (size : BitVec 2) (sgn : Bool) (ord : MemOrd) (c : Cursor) (j : Job)
      (s1 s2 : State) (b : List Byte),
    let va := c.regs.src a + (match ord with | .rlx i => i.signExtend 64 | .ordered _ i => i.signExtend 64)
    let n := 2 ^ size.toNat
    let acq := match ord with | .rlx _ => false | .ordered _ _ => true
    let wide := match ord with | .rlx _ => false | .ordered sc _ => scopeWide sc
    Runs s h [a] (some d) c j s1 → c.slot = none → (acq = true → va.toNat % n = 0) → (wide = true → s1.l1Held j.core = false) →
    (va.toNat < 6 * 2 ^ 56 →
      s1.readVia (c.who j) va n (wide || (acq && decide (va.toNat / 2 ^ 56 = 1))) = .ok s2 b → b.length = n →
      let raw := leNat b
      let v : Word := if sgn = true ∧ 2 ^ (8 * n - 1) ≤ raw then BitVec.ofInt 64 ((raw : Int) - 2 ^ (8 * n)) else BitVec.ofNat 64 raw
      exec (.ld h d a size sgn ord) s =
        .next (issued (if wide then s2.l1Acquire j.core else s2) c h.sig (j.put c d v) v none)) ∧
    (∀ v, va.toNat / 2 ^ 56 = 6 → n = 8 → va.toNat % 8 = 0 → s1.controlRead j none (va.toNat % 2 ^ 56) = some v →
      exec (.ld h d a size sgn ord) s =
        .next (issued (if wide then s1.l1Acquire j.core else s1) c h.sig (j.put c d v) v none))

/-- ST on every path from 0x0 to 0x5 but the read-only 0x1, in every ordering: it does what its access does and nothing
else, a release at team scope or wider after the core's dirty lines have gone home (R113, R260, R262). In the job's own
scratchpad (path 0x3) its bytes stand at their offset. Inside one line of a page of device memory: on path 0x2, where
neither the L1 nor, exclusively, a host holds the line, the bytes go to the physical address the translation gives, at
their home, and to no other byte, and nothing else changes but what the translation itself leaves and that a clean copy
a host held is gone (R390); on path 0x0 with the line in the L1 they change that line there and mark those bytes dirty,
and no byte of memory. The model's choices it rests on: logs 31, 32, 84. -/
def Obligations.StoresGoWhereTheirPathSays : Prop :=
  ∀ (s : State) (h : Hdr) (x a : Src) (size : BitVec 2) (ord : MemOrd) (c : Cursor) (j : Job) (s1 : State),
    let va := c.regs.src a + (match ord with | .rlx i => i.signExtend 64 | .ordered _ i => i.signExtend 64)
    let n := 2 ^ size.toNat
    let wide := match ord with | .rlx _ => false | .ordered sc _ => scopeWide sc
    let rel := if wide then s1.l1Release j.core else s1
    let data := (List.range n).map fun i => (c.regs.src x).extractLsb' (8 * i) 8
    Runs s h [x, a] none c j s1 → c.slot = none → (ordIs ord = true → va.toNat % n = 0) → (wide = true → s1.l1Held j.core = false) →
    (∀ s2 k, va.toNat < 6 * 2 ^ 56 → va.toNat / 2 ^ 56 ≠ 1 → rel.writeVia (c.who j) va data wide = .ok s2 () →
      s2.jobs[c.job]? = some k → exec (.st h x a size ord) s = .next (issued s2 c h.sig k c.value none)) ∧
    (va.toNat / 2 ^ 56 = 3 → va.toNat % 2 ^ 56 < 2 ^ 22 → j.spanOk (va.toNat % 2 ^ 56) n = true →
      let at' := va.toNat % 2 ^ 56
      exec (.st h x a size ord) s = .next (issued rel c h.sig
        { j with
          sp := cellPutN j.sp at' data
          spBad := j.spBad.filter fun u => !(decide (at' ≤ 8 * u) && decide (8 * u + 8 ≤ at' + n)) }
        c.value none)) ∧
    (∀ s2 p, ordIs ord = false → (j.stream c.stream).out = none → va.toNat % 64 + n ≤ 64 → s1.translate (c.who j) va .write = .ok s2 p →
      pteHost p.leaf = false → s2.noHome p.pa = false → s2.flash.retired.contains (p.pa / 2 ^ 16) = false →
      s2.hostHolds p.pa n = false →
      (va.toNat / 2 ^ 56 = 2 → s2.l1Find j.core p.pa = none →
        exec (.st h x a size ord) s = .next (issued (s2.writePhys p.pa data) c h.sig j c.value none) ∧
        (Memory.wf s2.mem → ∀ q, cellGet (s2.writePhys p.pa data).mem q =
          if p.pa ≤ q ∧ q < p.pa + n then data.getD (q - p.pa) 0 else cellGet s2.mem q)) ∧
      (∀ l, va.toNat / 2 ^ 56 = 0 → s2.l1Find j.core p.pa = some l → cacheable p.leaf = true → (l.uo = true → pteOrd p.leaf = 2) →
        let t := s2.modCore (s2.l1Core j.core p.pa) fun k => { k with l1 := k.l1.map fun q =>
          if q.line = p.pa / 64 then
            { q with data := linePut q.data (p.pa % 64) data, dirty := q.dirty ||| lineMask (p.pa % 64) n }
          else q }
        exec (.st h x a size ord) s =
          .next (issued { t with memBad := clearBad s2.memBad p.pa n } c h.sig j c.value none) ∧ t.mem = s2.mem))

/-- An atomic reads its location, writes what its operation gives and yields the old value, zero-extended or, for a
signed ATOM, sign-extended; ATOMF's exceptions join FPFLG; a release part comes first and an acquire part last (R214).
It waits inside the device while a host holds a line that its ordering has to send home (R390). The model's choices it
rests on: logs 32, 84. -/
def Obligations.AtomicsYieldOldValue : Prop :=
  ∀ (s : State) (h : Hdr) (d : Dest) (a b f : Src) (op : AtomOp) (sgn sz : Bool) (ft : AtomFmt) (ord : RmwOrd) (sc : Scope)
      (c : Cursor) (j : Job) (s1 s2 : State) (old : Nat) (fl : BitVec 5),
    let va := c.regs.src a
    let w := c.who j
    let before := if (ord = .rel ∨ ord = .ar) ∧ scopeWide sc = true then s1.l1Release j.core else s1
    let after (t : State) : State := if (ord = .acq ∨ ord = .ar) ∧ scopeWide sc = true then t.l1Acquire j.core else t
    let n := if sz then 8 else 4
    let m := 2 ^ (8 * n)
    c.slot = none → va.toNat / 2 ^ 56 ∈ [0, 2, 3, 4, 5] → (ord ≠ .rlx → scopeWide sc = true → s1.l1Held j.core = false) →
    (Runs s h [a, b] (some d) c j s1 → va.toNat % n = 0 →
      before.rmw w va n (fun o =>
        let x := o % m
        let y := (c.regs.src b).toNat % m
        let less := if sgn then decide ((BitVec.ofNat (8 * n) x).toInt < (BitVec.ofNat (8 * n) y).toInt) else decide (x < y)
        (some (match op with
          | .add => (x + y) % m | .swp => y | .min => if less then x else y | .max => if less then y else x
          | .and => x &&& y | .or => x ||| y | .xor => x ^^^ y), 0)) = .ok s2 (old, fl) →
      let v : Word := if sgn then (BitVec.ofNat (8 * n) old).signExtend 64 else BitVec.ofNat 64 old
      ∃ k, s2.jobs[c.job]? = some k ∧
        exec (.atom h d a b op sgn ord sc sz) s = .next (issued (after s2) c h.sig (k.put c d v) v none)) ∧
    (Runs s h [a, b, f] (some d) c j s1 → va.toNat % n = 0 →
      before.rmw w va n (fun o =>
        (if o = (c.regs.src b).toNat % m then some ((c.regs.src f).toNat % m) else none, 0)) = .ok s2 (old, fl) →
      ∃ k, s2.jobs[c.job]? = some k ∧
        exec (.acas h d a b f ord sc sz) s =
          .next (issued (after s2) c h.sig (k.put c d (BitVec.ofNat 64 old)) (BitVec.ofNat 64 old) none)) ∧
    (Runs s h [a, b] (some d) c j s1 → j.det = false → va.toNat % ((atomFmt ft).width / 8) = 0 →
      before.rmw w va ((atomFmt ft).width / 8) (fun o =>
        let sum := exactAdd .rne (decodeFloat (atomFmt ft) o) (decodeFloat (atomFmt ft) ((c.regs.src b).toNat % 2 ^ (atomFmt ft).width))
        let r := roundVal (atomFmt ft) .rne sum.1
        (some r.1, sum.2 ||| r.2)) = .ok s2 (old, fl) →
      ∃ k, s2.jobs[c.job]? = some k ∧
        exec (.atomf h d a b ft ord sc) s =
          .next (issued (after s2) c h.sig ((k.modRegs c fun t => t.orFlags fl).put c d (BitVec.ofNat 64 old))
            (BitVec.ofNat 64 old) none))

/-! ### WAIT, SIG and program order -/

/-- A WAIT byte lets a word issue exactly where R55 and R57 say, and what it takes with it: a token from each selected
stream together; after a drain, only with nothing older unretired; a timed form not before STAMP + 4·d, where STAMP
moves to that target; in a job of a timed launch a timed word is late once that cycle has passed, or where in it the
token that it also asks for is missing. The model's choices it rests on: logs 14, 16. -/
def Obligations.WaitForms : Prop :=
  ∀ (j : Job) (now : Nat) (x : StreamId) (m e : BitVec 4) (d : BitVec 6) (i : BitVec 2),
    let sel := maskOthers x m
    let target := (j.stream x).stamp.toNat + 4 * d.toNat
    let near := (j.stream x).stamp.toNat + 4 * e.toNat
    let y := otherOf x i
    (applyWait (.tokens m) j now x =
      if ∀ y ∈ sel, j.hasToken now y x = true then .ready (sel.foldl (fun k y => k.popToken y x) j) false else .stall) ∧
    (applyWait (.drain m) j now x =
      if (j.stream x).retireQ = [] ∧ ∀ y ∈ sel, j.hasToken now y x = true then
        .ready (sel.foldl (fun k y => k.popToken y x) j) false
      else .stall) ∧
    (applyWait (.timed d) j now x =
      if now < target then .stall
      else if j.timed = true ∧ target < now then .miss
      else .ready (j.setStream x { j.stream x with stamp := BitVec.ofNat 64 target }) j.timed) ∧
    (applyWait (.timedToken i e) j now x =
      if now < near then .stall
      else if j.timed = true ∧ (near < now ∨ j.hasToken now y x = false) then .miss
      else if j.hasToken now y x = true then
        .ready ((j.popToken y x).setStream x { j.stream x with stamp := BitVec.ofNat 64 near }) j.timed
      else .stall)

/-- The pushes of SIG at retire: with nothing older held, the word's results complete and room for each, one token to each
selected stream and the value to the stream REPLY names; otherwise nothing is pushed yet and the word's entry stands last
in the stream's order (R58, R145). The model's choices it rests on: logs 15, 16. -/
def Obligations.SigPushesAtRetire : Prop :=
  ∀ (now : Nat) (x : StreamId) (j : Job) (e : RetEntry),
    e.cmd = none → e.copy = false → (e.tokens ≠ 0 ∨ e.reply ≠ 0) →
    ((j.stream x).retireQ = [] → e.ready ≤ now → j.retireRoom now x e.tokens e.reply = true →
      ∀ y z : StreamId,
        let k := retireWord now x j e
        k.tokens.get (pairIdx y z) = j.tokens.get (pairIdx y z) ++ (if y = x ∧ z ∈ maskOthers x e.tokens then [now] else []) ∧
        k.queues.get (pairIdx y z) = j.queues.get (pairIdx y z) ++
          (if y = x ∧ e.reply ≠ 0 ∧ z = otherOf x (BitVec.ofNat 2 (e.reply.toNat - 1)) then [(now, e.value)] else [])) ∧
    ((j.stream x).retireQ ≠ [] ∨ now < e.ready ∨ j.retireRoom now x e.tokens e.reply = false →
      retireWord now x j e = j.setStream x { j.stream x with retireQ := (j.stream x).retireQ ++ [e] })

/-! ### Queues, stamps and registers of a stream -/

/-- QPUSH sends its operand toward X with its retire, as REPLY would; QPOP takes the oldest entry from X once it is two
cycles old (R207). The model's choices it rests on: logs 16, 29. -/
def Obligations.QueueWords : Prop :=
  ∀ (s : State) (h : Hdr) (d : Dest) (a : Src) (x : BitVec 2) (c : Cursor) (j : Job) (s1 : State),
    let g : Sig := { h.sig with reply := x.setWidth 3 + 1 }
    let y := otherOf c.stream x
    c.slot = none →
    (Runs s { h with sig := g } [a] none c j s1 →
      exec (.qpush h x a) s = .next (issued s1 c g j (c.regs.src a) none)) ∧
    (∀ t0 v rest, Runs s h [] (some d) c j s1 → (j.handler = none ∨ c.stream ≠ .c) →
      j.queues.get (pairIdx y c.stream) = (t0, v) :: rest → t0 + 2 ≤ s1.tick →
      exec (.qpop h d x) s =
        .next (issued s1 c h.sig (({ j with queues := j.queues.set (pairIdx y c.stream) rest } : Job).put c d v) v none))

/-- QLVL writes a count of entries or tokens as of its issue, without waiting (R209). STAMP sets the stream's STAMP to
TICK, STAMP.set to its operand, and both yield the TICK of their issue (R210). -/
def Obligations.LevelAndStampWords : Prop :=
  (∀ (s : State) (h : Hdr) (d : Dest) (x : BitVec 2) (c : Cursor) (j : Job) (s1 : State),
    let y := otherOf c.stream x
    let out (n : Nat) : State := issued s1 c h.sig (j.put c d (BitVec.ofNat 64 n)) (BitVec.ofNat 64 n) none
    Runs s h [] (some d) c j s1 →
    exec (.qlvl h d .qIn x) s = .next (out (j.queues.get (pairIdx y c.stream)).length) ∧
    exec (.qlvl h d .qOut x) s = .next (out (j.queues.get (pairIdx c.stream y)).length) ∧
    exec (.qlvl h d .tIn x) s = .next (out (j.tokens.get (pairIdx y c.stream)).length) ∧
    exec (.qlvl h d .tOut x) s = .next (out (j.tokens.get (pairIdx c.stream y)).length) ∧
    -- KIND, in [19:18]
    ∀ q w, encode (.qlvl h d q x) = some w →
      fld w 18 2 = (match q with | .qIn => 0#2 | .qOut => 1#2 | .tIn => 2#2 | .tOut => 3#2) ∧ fld w 16 2 = x) ∧
  (∀ (s : State) (h : Hdr) (d : Dest) (a : Src) (c : Cursor) (j : Job) (s1 : State),
    let now := BitVec.ofNat 64 s1.tick
    (Runs s h [] (some d) c j s1 →
      exec (.stamp h d) s = .next (issued s1 c h.sig (j.modRegs c fun t => ({ t with stamp := now } : StreamSt).write d now) now none)) ∧
    (Runs s h [a] (some d) c j s1 →
      exec (.stampSet h d a) s =
        .next (issued s1 c h.sig (j.modRegs c fun t => ({ t with stamp := c.regs.src a } : StreamSt).write d now) now none)))

/-- The trap and control registers of a stream, as the table of R229 numbers them, read and written by number: a write
leaves D the old value. A number not in the table or not present, a write to a read-only register, a value with a reserved
bit or out of its range, and a selector of no stream raise ILLEGAL and change nothing. A CSR of another stream is reached
only by C in a handler (R229): elsewhere naming one is ILLEGAL, and in the handler its registers, the kept ones among them,
are read and written by number. -/
def Obligations.ControlRegisters : Prop :=
  (∀ (s : State) (h : Hdr) (d : Dest) (a : Src) (c : Cursor) (j : Job) (s1 : State),
    let t := j.regs c.stream c.slot
    let v := c.regs.src a
    let reads (n : BitVec 12) (x : Word) : Prop :=
      Runs s h [] (some d) c j s1 → exec (.csrr h d n 7) s = .next (issued s1 c h.sig (j.put c d x) x none)
    let writes (n : BitVec 12) (old : Word) (u : StreamSt) : Prop :=
      Runs s h [a] (some d) c j s1 → exec (.csrw h d n 7 a) s =
        .next (issued s1 c h.sig (j.setRegs c.stream c.slot (u.write d old)) old none)
    -- read by number, the issuing stream selected
    reads 0x000 t.fpctl ∧ reads 0x001 t.fpflg ∧ reads 0x002 t.stamp ∧ reads 0x003 t.age ∧
    (c.stream = .m → reads 0x004 t.lgate) ∧ reads 0x006 (BitVec.ofNat 64 j.jstart) ∧ reads 0x007 (BitVec.ofNat 64 s1.tick) ∧
    reads 0x010 t.tcause ∧ reads 0x011 t.tpc ∧ reads 0x012 t.tlane ∧ reads 0x013 t.tinfo ∧ reads 0x014 t.thandler ∧
    (c.stream = .c → reads 0x015 t.tresume) ∧
    -- SSTAT: STREAM, DISCARDED, DET, TIMED, URGENT, HANDLER
    reads 0x005 (BitVec.ofNat 64 (c.stream.num + (if j.discarded then 8 else 0) + (if j.det then 16 else 0) +
      (if j.timed then 32 else 0) + (if j.urgent then 64 else 0) + (if c.stream = .c ∧ j.handler.isSome = true then 128 else 0))) ∧
    (∀ i : Fin 16, reads (BitVec.ofNat 12 (0x040 + i.val)) (j.discmap.extractLsb' (64 * i.val) 64)) ∧
    -- written by number: D takes the old value; no field of another register moves
    (c.slot = none →
      (v &&& 0xFFFF_FFFF_FFF0_00F8 = 0 → (v.extractLsb' 0 3).toNat ≤ 4 → v.extractLsb' 14 3 ≠ 0 →
        writes 0x000 t.fpctl { t with fpctl := v }) ∧
      (v.toNat < 32 → writes 0x001 t.fpflg { t with fpflg := v }) ∧ writes 0x002 t.stamp { t with stamp := v } ∧
      (16 ≤ v.toNat ∧ v.toNat ≤ 65535 → writes 0x003 t.age { t with age := v }) ∧
      -- LGATE governs the core's sub-arrays from the next cycle on (R258)
      (c.stream = .m → 64 ≤ v.toNat ∧ v.toNat ≤ 1048576 → Runs s h [a] (some d) c j s1 →
        exec (.csrw h d 0x004 7 a) s = .next (issued (s1.modCore j.core fun k => { k with lgateAt := s1.tick }) c h.sig
          (j.setRegs c.stream c.slot (({ t with lgate := v } : StreamSt).write d t.lgate)) t.lgate none)) ∧
      (v.toNat < 256 → writes 0x010 t.tcause { t with tcause := v }) ∧ writes 0x011 t.tpc { t with tpc := v } ∧
      (v.toNat < 256 → writes 0x012 t.tlane { t with tlane := v }) ∧
      (v &&& 0x0000_0000_FFFF_00F0 = 0 → writes 0x013 t.tinfo { t with tinfo := v }) ∧
      writes 0x014 t.thandler { t with thandler := v } ∧ (c.stream = .c → writes 0x015 t.tresume { t with tresume := v }))) ∧
  (∀ (s : State) (h : Hdr) (d : Dest) (a : Src) (n : BitVec 12) (sel : BitVec 3) (c : Cursor) (j : Job) (s1 : State),
    let v := c.regs.src a
    let out := trapTaken s1 c ⟨causeIllegal, c.pc, 0, BitVec.ofNat 64 c.index <<< 8⟩
    let here := n.toNat ∈ [0x000, 0x001, 0x002, 0x003, 0x005, 0x006, 0x007, 0x010, 0x011, 0x012, 0x013, 0x014] ∨
      (n.toNat = 0x004 ∧ c.stream = .m) ∨ (n.toNat = 0x015 ∧ c.stream = .c) ∨ (0x040 ≤ n.toNat ∧ n.toNat ≤ 0x04F)
    let bad := ¬here ∨ n.toNat ∈ [0x005, 0x006, 0x007] ∨ 0x040 ≤ n.toNat ∨
      (n.toNat = 0x000 ∧ (v &&& 0xFFFF_FFFF_FFF0_00F8 ≠ 0 ∨ 4 < (v.extractLsb' 0 3).toNat ∨ v.extractLsb' 14 3 = 0)) ∨
      (n.toNat = 0x001 ∧ 32 ≤ v.toNat) ∨ (n.toNat = 0x003 ∧ (v.toNat < 16 ∨ 65535 < v.toNat)) ∨
      (n.toNat = 0x004 ∧ (v.toNat < 64 ∨ 1048576 < v.toNat)) ∨ (n.toNat = 0x010 ∧ 256 ≤ v.toNat) ∨
      (n.toNat = 0x012 ∧ 256 ≤ v.toNat) ∨ (n.toNat = 0x013 ∧ v &&& 0x0000_0000_FFFF_00F0 ≠ 0)
    HandlerReady c →
    (Runs s h [] (some d) c j s1 → (¬here ∧ sel = 7) ∨ sel = 5 ∨ sel = 6 → exec (.csrr h d n sel) s = .next out) ∧
    (Runs s h [a] (some d) c j s1 → (bad ∧ sel = 7) ∨ sel = 5 ∨ sel = 6 → exec (.csrw h d n sel a) s = .next out)) ∧
  (∀ (s : State) (h : Hdr) (d : Dest) (a : Src) (n : BitVec 12) (y : StreamId) (i : Fin 16) (c : Cursor) (j : Job) (s1 : State),
    y ≠ c.stream → c.slot = none →
    (Runs s h [] (some d) c j s1 → j.handler = none → HandlerReady c →
      exec (.csrr h d n (BitVec.ofNat 3 y.num)) s =
        .next (trapTaken s1 c ⟨causeIllegal, c.pc, 0, BitVec.ofNat 64 c.index <<< 8⟩)) ∧
    (Runs s h [a] (some d) c j s1 → j.handler = none → HandlerReady c →
      exec (.csrw h d n (BitVec.ofNat 3 y.num) a) s =
        .next (trapTaken s1 c ⟨causeIllegal, c.pc, 0, BitVec.ofNat 64 c.index <<< 8⟩)) ∧
    (j.handler.isSome = true → c.stream = .c →
      let t := j.stream y
      let v := c.regs.src a
      let reads (n : BitVec 12) (x : Word) : Prop := Runs s h [] (some d) c j s1 →
        exec (.csrr h d n (BitVec.ofNat 3 y.num)) s = .next (issued s1 c h.sig (j.put c d x) x none)
      let writes (n : BitVec 12) (old : Word) (u : StreamSt) : Prop := Runs s h [a] (some d) c j s1 →
        exec (.csrw h d n (BitVec.ofNat 3 y.num) a) s = .next (issued s1 c h.sig ((j.setStream y u).put c d old) old none)
      reads 0x000 t.fpctl ∧ reads 0x001 t.fpflg ∧ reads 0x002 t.stamp ∧ reads 0x003 t.age ∧ (y = .m → reads 0x004 t.lgate) ∧
      reads 0x010 t.tcause ∧ reads 0x011 t.tpc ∧ reads 0x012 t.tlane ∧ reads 0x013 t.tinfo ∧ reads 0x014 t.thandler ∧
      reads (BitVec.ofNat 12 (0x100 + i.val)) (t.k.get i) ∧
      (v &&& 0xFFFF_FFFF_FFF0_00F8 = 0 → (v.extractLsb' 0 3).toNat ≤ 4 → v.extractLsb' 14 3 ≠ 0 →
        writes 0x000 t.fpctl { t with fpctl := v }) ∧
      (v.toNat < 32 → writes 0x001 t.fpflg { t with fpflg := v }) ∧ writes 0x002 t.stamp { t with stamp := v } ∧
      (16 ≤ v.toNat ∧ v.toNat ≤ 65535 → writes 0x003 t.age { t with age := v }) ∧
      (y = .m → 64 ≤ v.toNat ∧ v.toNat ≤ 1048576 → Runs s h [a] (some d) c j s1 →
        exec (.csrw h d 0x004 (BitVec.ofNat 3 y.num) a) s = .next (issued (s1.modCore j.core fun k => { k with lgateAt := s1.tick })
          c h.sig ((j.setStream y { t with lgate := v }).put c d t.lgate) t.lgate none)) ∧
      (v.toNat < 256 → writes 0x010 t.tcause { t with tcause := v }) ∧ writes 0x011 t.tpc { t with tpc := v } ∧
      (v.toNat < 256 → writes 0x012 t.tlane { t with tlane := v }) ∧
      (v &&& 0x0000_0000_FFFF_00F0 = 0 → writes 0x013 t.tinfo { t with tinfo := v }) ∧
      writes 0x014 t.thandler { t with thandler := v } ∧
      writes (BitVec.ofNat 12 (0x100 + i.val)) (t.k.get i) { t with k := t.k.set i.val v }))

/-- IDQ's facts of a job's placement (R225); in a deterministic launch the core and stop numbers raise DET_FORBIDDEN.
The model's choices it rests on: log 28. -/
def Obligations.PlacementFacts : Prop :=
  ∀ (s : State) (h : Hdr) (d : Dest) (c : Cursor) (j : Job) (s1 : State),
    let m := j.mem
    let yields (sel : BitVec 8) (x : Word) : Prop := exec (.idq h d sel) s = .next (issued s1 c h.sig (j.put c d x) x none)
    Runs s h [] (some d) c j s1 →
    yields 0x00 (BitVec.ofNat 64 (if j.det then m.canon else m.coreSet)) ∧ yields 0x01 (BitVec.ofNat 64 m.teamSize) ∧
    yields 0x02 (BitVec.ofNat 64 m.index) ∧ yields 0x03 (BitVec.ofNat 64 m.team) ∧ yields 0x04 (BitVec.ofNat 64 m.linear) ∧
    yields 0x05 m.seq ∧ (∀ p, s1.parts[m.part]? = some p → yields 0x06 (BitVec.ofNat 64 p.stops.length)) ∧
    (j.det = false → yields 0x08 (BitVec.ofNat 64 j.core) ∧ yields 0x09 (BitVec.ofNat 64 (j.core / 8))) ∧
    (∀ i : Fin 8, yields (BitVec.ofNat 8 (0x10 + i.val)) ((m.splits.extractLsb' (16 * i.val) 16).setWidth 64)) ∧
    (j.det = true → HandlerReady c →
      exec (.idq h d 0x08) s = .next (trapTaken s1 c ⟨causeDetForbidden, c.pc, 0, BitVec.ofNat 64 c.index <<< 8⟩) ∧
      exec (.idq h d 0x09) s = .next (trapTaken s1 c ⟨causeDetForbidden, c.pc, 0, BitVec.ofNat 64 c.index <<< 8⟩))

/-! ### Traps and their return -/

/-- TRAP raises SOFTWARE with DONE and its code, at its own address, and has no other effect (R226, R228): the trapping
stream's trap CSRs take the record, C's predicates, history and next word are saved, SSTAT.HANDLER is set, and C goes on
at the trapping stream's THANDLER. In a confirmed iteration of a proofing loop it is the slot's own C that traps and goes on
in the handler (R297). A trap in a stream whose THANDLER is zero, or while a handler runs, aborts the job
with its record (R226, R231): the job issues no more, its commands are dropped, and its append slots and feeds are
unbound. -/
def Obligations.TrapsEnterHandlerOrAbort : Prop :=
  (∀ (s : State) (h : Hdr) (code : BitVec 16) (c : Cursor) (j : Job) (s1 : State),
    Runs s h [] none c j s1 → HandlerReady c →
    exec (.trap h code) s = .next (trapTaken s1 c
      ⟨causeSoftware, c.pc, 0, BitVec.ofNat 64 (code.toNat * 2 ^ 32 + 8) ||| (BitVec.ofNat 64 c.index <<< 8)⟩)) ∧
  (∀ (s : State) (h : Hdr) (code : BitVec 16) (c : Cursor) (j : Job) (s1 : State) (n : Nat) (sl : Slot) (it : Iter),
    Runs s h [] none c j s1 → c.stream = .c → c.slot = some n → j.speculative (some n) = false → c.pre.slot? n = some sl →
    sl.running = some it → it.st = .confirmed → c.pre.handler = none → c.regs.thandler ≠ 0 →
    exec (.trap h code) s = .next (trapTaken s1 c
      ⟨causeSoftware, c.pc, 0, BitVec.ofNat 64 (code.toNat * 2 ^ 32 + 8) ||| (BitVec.ofNat 64 c.index <<< 8)⟩)) ∧
  (∀ (s : State) (h : Hdr) (code : BitVec 16) (c : Cursor) (j : Job) (s1 : State),
    Runs s h [] none c j s1 → c.slot = none → ((c.pre.stream c.stream).thandler = 0 ∨ c.pre.handler.isSome = true) →
    c.pre.phase = .running →
    ∃ t k, exec (.trap h code) s = .next t ∧ t.jobs[c.job]? = some k ∧ k.phase = .aborted ∧ k.cmds = [] ∧ k.lme = [] ∧
      k.handler = none ∧ (∀ i : Fin 4, k.append.get i = none ∧ k.feeds.get i = none) ∧
      k.fault = some (c.stream,
        ⟨causeSoftware, c.pc, 0, BitVec.ofNat 64 (code.toNat * 2 ^ 32 + 8) ||| (BitVec.ofNat 64 c.index <<< 8)⟩) ∧
      t.mem = s1.mem ∧ t.tick = s1.tick)

/-- TRET.retry and TRET.next end a handler by R227, of a proof slot's trap too (R297), once what its C has issued before is
complete: the streams go on where `returned` says, after SLUICE_STRICT at the next word not yet issued (R204). TRET.abort, and
every return from an asynchronous trap, aborts the job with the trap's record; outside a handler TRET is ILLEGAL. The
model's choices it rests on: log 27. -/
def Obligations.TrapReturn : Prop :=
  ∀ (s : State) (h : Hdr) (c : Cursor) (j : Job) (s1 : State),
    Runs s h [] none c j s1 → c.stream = .c →
    (∀ hd, j.handler = some hd → hd.slot = c.slot →
      let x := hd.stream
      let t := j.regs x hd.slot
      let older := (j.regs .c c.slot).retireQ.any fun e => !j.entryDone s1.tick e
      let aborts (o : Host.Outcome State Fault Refusal) : Prop :=
        ∃ u k, o = .next u ∧ u.jobs[c.job]? = some k ∧ k.phase = .aborted ∧
          k.fault = some (x, ⟨t.tcause.setWidth 8, t.tpc, t.tlane, t.tinfo⟩) ∧ u.mem = s1.mem
      (older = false →
        (t.tinfo.getLsbD 15 = false →
          exec (.tretRetry h) s = .next { s1 with
            jobs := s1.jobs.set c.job (returned s1.tick j hd false), cursor := none } ∧
          exec (.tretNext h) s = .next { s1 with
            jobs := s1.jobs.set c.job (returned s1.tick j hd true), cursor := none }) ∧
        (j.phase = .running → aborts (exec (.tretAbort h) s) ∧
          (t.tinfo.getLsbD 15 = true → aborts (exec (.tretRetry h) s) ∧ aborts (exec (.tretNext h) s)))) ∧
      (older = true → c.late = false →
        exec (.tretRetry h) s = .next (s1.rollback c) ∧ exec (.tretNext h) s = .next (s1.rollback c) ∧
        exec (.tretAbort h) s = .next (s1.rollback c))) ∧
    (j.handler = none → HandlerReady c →
      let out := trapTaken s1 c ⟨causeIllegal, c.pc, 0, BitVec.ofNat 64 c.index <<< 8⟩
      exec (.tretRetry h) s = .next out ∧ exec (.tretNext h) s = .next out ∧ exec (.tretAbort h) s = .next out)

/-! ### Delivery points, barriers and a job's end -/

/-- FENCE orders the L1 by its ordering and scope and changes nothing else; JOIN marks its stream as joined; DBAR of the
last member of its team to arrive, as of a team of one, passes at once with its generation's number; any other records its
arrival and passes at a turn after the last has arrived, until when it waits (R211 to R213, R262). With an enabled flag
standing, a delivery point raises FP_PRECISE before any other effect, with the set in TINFO and TLANE all ones; FPFLG stays
as it is (R43). The model's choices it rests on: logs 25, 26, 84. -/
def Obligations.DeliveryPointWords : Prop :=
  (∀ (s : State) (h : Hdr) (d : Dest) (ord : FenceOrd) (sc : Scope) (c : Cursor) (j : Job) (s1 : State),
    Delivered c j →
    (Runs s h [] none c j s1 → (scopeWide sc = true → s1.l1Held j.core = false) →
      let rel := if ord ≠ .acq ∧ scopeWide sc = true then s1.l1Release j.core else s1
      let acq := if ord ≠ .rel ∧ scopeWide sc = true then rel.l1Acquire j.core else rel
      exec (.fence h ord sc) s = .next (issued acq c h.sig j c.value none)) ∧
    (Runs s h [] none c j s1 → (c.stream = .c → j.handler = none ∧ j.loop = none) →
      (othersOf c.stream).any (fun y => !(j.stream y).atJoin) = true →
      exec (.join h) s = .next { s1 with
        jobs := s1.jobs.set c.job (j.modRegs c fun t => { t with atJoin := true, fpflg := t.fpflg ||| c.raised.setWidth 64 })
        cursor := none }) ∧
    (c.stream = .c → j.handler = none → s1.l1Held j.core = false →
      let g := BitVec.ofNat 64 (j.barGen + 1)
      let others := ∀ i k, i ∈ s1.teamJobs c.job j → i ≠ c.job → s1.jobs[i]? = some k → k.phase = .retired ∨ j.barGen + 1 ≤ k.barAt
      -- its arrival
      (Runs s h [] (some d) c j s1 → c.regs.bar = none →
        (others →
          exec (.dbar h d) s = .next (issued ((s1.l1Release j.core).l1Acquire j.core) c h.sig
            (({ j with barAt := j.barGen + 1, barGen := j.barGen + 1, c := { j.c with bar := none } } : Job).put c d g) g none)) ∧
        (¬others →
          exec (.dbar h d) s = .next { s1.l1Release j.core with
            jobs := s1.jobs.set c.job { j with barAt := j.barGen + 1, c := { j.c with bar := some c.pc.toNat, out := none } }
            cursor := none })) ∧
      -- a turn after it, when the token its WAIT asked for has been taken
      (Runs s { h with wait := .tokens 0 } [] (some d) c j s1 → c.regs.bar = some c.pc.toNat → j.barGen + 1 ≤ j.barAt →
        (others →
          exec (.dbar h d) s = .next (issued (s1.l1Acquire j.core) c h.sig
            (({ j with barGen := j.barGen + 1, c := { j.c with bar := none } } : Job).put c d g) g none)) ∧
        (¬others → exec (.dbar h d) s = .next { s1 with cursor := none })))) ∧
  (∀ (s : State) (h : Hdr) (d : Dest) (ord : FenceOrd) (sc : Scope) (c : Cursor) (j : Job) (s1 : State),
    let set := ((j.stream c.stream).fpflg ||| c.raised.setWidth 64).extractLsb' 0 5 &&& (j.stream c.stream).fpctl.extractLsb' 8 5
    let out := trapTaken s1 c
      ⟨causeFpPrecise, c.pc, 0xFF, (set.setWidth 64 <<< 10) ||| 4 ||| (BitVec.ofNat 64 c.index <<< 8)⟩
    HandlerReady c → (j.stream c.stream).retireQ = [] → set ≠ 0 → j.handler = none → j.loop = none →
    (Runs s h [] none c j s1 → exec (.fence h ord sc) s = .next out ∧ exec (.join h) s = .next out) ∧
    (Runs s h [] (some d) c j s1 → c.stream = .c → c.regs.bar = none → exec (.dbar h d) s = .next out))

/-- When the last stream reaches JOIN the job retires in one step (R211): its tokens and entries are discarded, its
append slots and feeds unbound; what its L1 held dirty on pages of kind RC goes home. It retires later where a host holds a
line that has to go home (R390), or pages of its loop's squashed appends have still to go back (R303). The model's choices it rests on: logs
15, 84. -/
def Obligations.LastJoinRetiresJob : Prop :=
  ∀ (s : State) (h : Hdr) (c : Cursor) (j : Job) (s1 : State),
    Runs s h [] none c j s1 → Delivered c j → (∀ y ∈ othersOf c.stream, (j.stream y).atJoin = true) →
    j.phase = .running → j.handler = none → j.loop = none → j.owed = [] → j.jstart ≤ s1.tick → s1.l1Held j.core = false →
    ∃ t k, exec (.join h) s = .next t ∧ t.cursor = none ∧ t.jobs[c.job]? = some k ∧ k.phase = .retired ∧
      (∀ i : Fin 25, k.tokens.get i = [] ∧ k.queues.get i = []) ∧
      (∀ i : Fin 4, k.append.get i = none ∧ k.feeds.get i = none) ∧ t.mem = (s1.l1Release j.core).mem

/-- DISC's forms change only the map they name (R222); YIELD with a swap pending lets it take effect and yields 1, and
yields 0 with none (R224). -/
def Obligations.DiscardAndYieldWords : Prop :=
  ∀ (s : State) (h : Hdr) (d : Dest) (a b : Src) (c : Cursor) (j : Job) (s1 : State),
    let x := (c.regs.src a).toNat
    let n := (c.regs.src b).toNat
    let bits (ts : Bool) : BitVec 1024 :=
      BitVec.ofFnLE fun k : Fin 1024 =>
        let lo := x / 4096 + (if ts then 768 else 0)
        decide (lo ≤ k.val) && decide (k.val < lo + n / 4096)
    c.slot = none →
    (Runs s h [a, b] none c j s1 → x % 4096 = 0 → n % 4096 = 0 → 0 < n →
      (j.spanOk x n = true → x + n ≤ 0x30_0000 →
        exec (.discMark h a b false) s = .next (issued s1 c h.sig { j with discmap := j.discmap ||| bits false } c.value none) ∧
        exec (.discKeep h a b false) s = .next (issued s1 c h.sig { j with discmap := j.discmap &&& ~~~bits false } c.value none)) ∧
      (inWindow j.tsw x n = true → x + n ≤ 0x10_0000 →
        exec (.discMark h a b true) s = .next (issued s1 c h.sig { j with discmap := j.discmap ||| bits true } c.value none) ∧
        exec (.discKeep h a b true) s = .next (issued s1 c h.sig { j with discmap := j.discmap &&& ~~~bits true } c.value none))) ∧
    (Runs s h [b] (some d) c j s1 → n < 16 →
      exec (.discLost h d b) s =
        .next (issued s1 c h.sig (j.put c d (j.lost.extractLsb' (64 * n) 64)) (j.lost.extractLsb' (64 * n) 64) none)) ∧
    (Runs s h [] none c j s1 →
      exec (.discAck h) s = .next (issued s1 c h.sig { j with lost := 0, discarded := false } c.value none)) ∧
    (Runs s h [] (some d) c j s1 →
      exec (.yield h d) s = .next (
        match j.swapAt with
        | none => issued s1 c h.sig (j.put c d 0) 0 none
        | some _ => issued s1 c h.sig (({ j with swapAt := none, draining := true } : Job).put c d 1) 1 none))

/-! ### Vector words -/

/-- Integer arithmetic, logic, shifts and counts of active lanes (R49, R116, R135, R136): exact, then wrapped, or
limited to the TYPE's range under `clamp=sat`; inactive lanes keep their bits, and no exception is raised. -/
def Obligations.VectorIntegerResults : Prop :=
  ∀ (s : State) (h : VHdr) (vd va vb vc : BitVec 7) (ty : ElemTy),
    let w := ty.bits
    let on (l : List (BitVec 7)) (c : Cursor) : List Touch := l.map fun v => (v, activeBytes (laneActive c h) ty.bytes)
    let x (v : BitVec 7) (c : Cursor) (i : Nat) : Nat := lane (c.pre.vreg v) w i
    let z (v : BitVec 7) (c : Cursor) (i : Nat) : Int :=
      if ty.isSigned = true ∧ 2 ^ (w - 1) ≤ x v c i then (x v c i : Int) - 2 ^ w else x v c i
    let lo : Int := if ty.isSigned then -(2 ^ (w - 1)) else 0
    let hi : Int := if ty.isSigned then 2 ^ (w - 1) - 1 else 2 ^ w - 1
    let wrap (y : Int) : Nat × BitVec 5 := ((y % 2 ^ w).toNat, 0)
    let fin (c : Cursor) (y : Int) : Nat × BitVec 5 := wrap (if vmodClamp c.vmod = .sat then max lo (min hi y) else y)
    let n (v : BitVec 7) (c : Cursor) (i : Nat) : Nat := x v c i % 256
    let joined (c : Cursor) (i : Nat) : Nat := x va c i * 2 ^ w + x vb c i
    LaneYields s h vd (on [va, vb]) ty (exec (.viadd h vd va vb ty) s) (fun c i => fin c (z va c i + z vb c i)) ∧
    LaneYields s h vd (on [va, vb]) ty (exec (.visub h vd va vb ty) s) (fun c i => fin c (z va c i - z vb c i)) ∧
    LaneYields s h vd (on [va, vb]) ty (exec (.vimul h vd va vb ty) s) (fun c i => fin c (z va c i * z vb c i)) ∧
    LaneYields s h vd (on [va, vb]) ty (exec (.vimulh h vd va vb ty) s) (fun c i => wrap (z va c i * z vb c i / 2 ^ w)) ∧
    LaneYields s h vd (on [va, vb, vc]) ty (exec (.vimad h vd va vb vc ty) s)
      (fun c i => fin c (z va c i * z vb c i + z vc c i)) ∧
    LaneYields s h vd (on [va, vb]) ty (exec (.vand h vd va vb ty) s) (fun c i => (x va c i &&& x vb c i, 0)) ∧
    LaneYields s h vd (on [va, vb]) ty (exec (.vor h vd va vb ty) s) (fun c i => (x va c i ||| x vb c i, 0)) ∧
    LaneYields s h vd (on [va, vb]) ty (exec (.vxor h vd va vb ty) s) (fun c i => (x va c i ^^^ x vb c i, 0)) ∧
    LaneYields s h vd (on [va, vb]) ty (exec (.vandn h vd va vb ty) s) (fun c i => (x va c i &&& (2 ^ w - 1 - x vb c i), 0)) ∧
    LaneYields s h vd (on [va, vb]) ty (exec (.vshl h vd va vb ty) s)
      (fun c i => (if n vb c i < w then x va c i * 2 ^ n vb c i else 0, 0)) ∧
    LaneYields s h vd (on [va, vb]) ty (exec (.vshr h vd va vb ty) s)
      (fun c i => (if n vb c i < w then x va c i / 2 ^ n vb c i else 0, 0)) ∧
    LaneYields s h vd (on [va, vb]) ty (exec (.vsar h vd va vb ty) s)
      (fun c i => (((BitVec.ofNat w (x va c i)).sshiftRight (n vb c i)).toNat, 0)) ∧
    LaneYields s h vd (on [va, vb]) ty (exec (.vrot h vd va vb ty) s)
      (fun c i => (((BitVec.ofNat w (x va c i)).rotateLeft (n vb c i % w)).toNat, 0)) ∧
    LaneYields s h vd (on [va, vb, vc]) ty (exec (.vfshl h vd va vb vc ty) s)
      (fun c i => (joined c i * 2 ^ n vc c i % 2 ^ (2 * w) / 2 ^ w, 0)) ∧
    LaneYields s h vd (on [va, vb, vc]) ty (exec (.vfshr h vd va vb vc ty) s) (fun c i => (joined c i / 2 ^ n vc c i, 0)) ∧
    LaneYields s h vd (on [va]) ty (exec (.vclz h vd va ty) s)
      (fun c i => (((List.range w).takeWhile fun k => !(x va c i).testBit (w - 1 - k)).length, 0)) ∧
    LaneYields s h vd (on [va]) ty (exec (.vpopc h vd va ty) s)
      (fun c i => (((List.range w).filter (x va c i).testBit).length, 0))

/-- Sums, products, fused forms, quotients and roots of active lanes (R123, R124): one exact result of the operands
after ABS and NEG, scaled, rounded once under the mode in force and clamped (R46, R67). The model's choices it rests on:
log 55. -/
def Obligations.VectorFloatArithmetic : Prop :=
  ∀ (s : State) (h : VHdr) (vd va vb vc : BitVec 7) (ty : ElemTy),
    let f := fmtOf ty
    let on (l : List (BitVec 7)) (c : Cursor) : List Touch := l.map fun v => (v, activeBytes (laneActive c h) ty.bytes)
    let x (v : BitVec 7) (k : Nat) (c : Cursor) (i : Nat) : FVal :=
      vmodOperand c.vmod k (decodeFloat f (lane (c.pre.vreg v) ty.bits i))
    let r (c : Cursor) (e : FVal × BitVec 5) : Nat × BitVec 5 := finishFloat f (modeOf c) c.vmod e.1 e.2
    LaneYields s h vd (on [va, vb]) ty (exec (.vadd h vd va vb ty) s)
      (fun c i => r c (exactAdd (modeOf c) (x va 0 c i) (x vb 1 c i))) ∧
    LaneYields s h vd (on [va, vb]) ty (exec (.vsub h vd va vb ty) s)
      (fun c i => r c (exactAdd (modeOf c) (x va 0 c i) (x vb 1 c i).negate)) ∧
    LaneYields s h vd (on [va, vb]) ty (exec (.vmul h vd va vb ty) s) (fun c i => r c (exactMul (x va 0 c i) (x vb 1 c i))) ∧
    LaneYields s h vd (on [va, vb, vc]) ty (exec (.vfma h vd va vb vc ty) s)
      (fun c i => r c (exactFma (modeOf c) (x va 0 c i) (x vb 1 c i) (x vc 2 c i))) ∧
    LaneYields s h vd (on [va, vb, vc]) ty (exec (.vfms h vd va vb vc ty) s)
      (fun c i => r c (exactFma (modeOf c) (x va 0 c i) (x vb 1 c i) (x vc 2 c i).negate)) ∧
    LaneYields s h vd (on [va, vb, vc]) ty (exec (.vfnma h vd va vb vc ty) s)
      (fun c i => r c (exactFma (modeOf c) (x va 0 c i).negate (x vb 1 c i) (x vc 2 c i))) ∧
    LaneYields s h vd (on [va, vb]) ty (exec (.vdiv h vd va vb ty) s) (fun c i => r c (exactDiv (x va 0 c i) (x vb 1 c i))) ∧
    LaneYields s h vd (on [va]) ty (exec (.vsqrt h vd va ty) s) (fun c i => r c (exactSqrt (x va 0 c i)))

/-- Minimum and maximum by R45 and R125, comparison into a mask by R126, classes by R127, and on integer TYPEs by the
TYPE's signedness, where nothing is raised. -/
def Obligations.VectorCompareResults : Prop :=
  ∀ (s : State) (h : VHdr) (vd va vb : BitVec 7) (md : BitVec 3) (ty : ElemTy) (cc : VCond),
    let f := fmtOf ty
    let w := ty.bits
    let on (l : List (BitVec 7)) (c : Cursor) : List Touch := l.map fun v => (v, activeBytes (laneActive c h) ty.bytes)
    let x (v : BitVec 7) (c : Cursor) (i : Nat) : Nat := lane (c.pre.vreg v) w i
    let z (v : BitVec 7) (c : Cursor) (i : Nat) : Int :=
      if ty.isSigned = true ∧ 2 ^ (w - 1) ≤ x v c i then (x v c i : Int) - 2 ^ w else x v c i
    let a (c : Cursor) (i : Nat) : FVal := vmodOperand c.vmod 0 (decodeFloat f (x va c i))
    let b (c : Cursor) (i : Nat) : FVal := vmodOperand c.vmod 1 (decodeFloat f (x vb c i))
    let nv (c : Cursor) (i : Nat) : BitVec 5 := snanFlag (a c i) ||| snanFlag (b c i)
    let pick (big num : Bool) (c : Cursor) (i : Nat) : Nat × BitVec 5 :=
      if ty.isInt then
        (if z vb c i < z va c i then (if big then x va c i else x vb c i) else (if big then x vb c i else x va c i), 0)
      else
        finishFloat f (modeOf c) c.vmod
          (if (a c i).isNan && (b c i).isNan then .nan false
           else if (a c i).isNan then (if num then b c i else .nan false)
           else if (b c i).isNan then (if num then a c i else .nan false)
           else if big then (if totalLess (a c i) (b c i) then b c i else a c i)
           else (if totalLess (b c i) (a c i) then b c i else a c i)) (nv c i)
    LaneYields s h vd (on [va, vb]) ty (exec (.vmin h vd va vb ty) s) (pick false false) ∧
    LaneYields s h vd (on [va, vb]) ty (exec (.vmax h vd va vb ty) s) (pick true false) ∧
    LaneYields s h vd (on [va, vb]) ty (exec (.vminn h vd va vb ty) s) (pick false true) ∧
    LaneYields s h vd (on [va, vb]) ty (exec (.vmaxn h vd va vb ty) s) (pick true true) ∧
    LaneYields s h vd (on [va]) ty (exec (.vclass h vd va ty) s) (fun c i =>
      (match decodeFloat f (x va c i) with
       | .inf true => 1 | .inf false => 128 | .nan true => 256 | .nan false => 512
       | .fin neg m _ =>
         if m = 0 then (if neg then 8 else 16)
         else if m < 2 ^ f.tbits then (if neg then 4 else 32) else (if neg then 2 else 64), 0)) ∧
    (∀ c j s1,
      let ord (i : Nat) : Option Ordering := if ty.isInt then some (compare (z va c i) (z vb c i)) else compareVal (a c i) (b c i)
      let holds (i : Nat) : Bool :=
        match cc with
        | .eq => ord i == some .eq | .ne => ord i != some .eq
        | .lt => ord i == some .lt | .le => ord i == some .lt || ord i == some .eq
        | .gt => ord i == some .gt | .ge => ord i == some .gt || ord i == some .eq
        | .un => ord i == none | .ord => ord i != none
      let e (i : Nat) : BitVec 5 :=
        if laneActive c h i && !ty.isInt then
          (if cc ∈ [.lt, .le, .gt, .ge] then (if (a c i).isNan || (b c i).isNan then flagNv else 0) else nv c i)
        else 0
      Enters s h.wait h.sig c j s1 → VecReady s1 j (on [va, vb] c) [] → NoPrecise c ty.lanes e →
      exec (.vcmp h md va vb ty cc) s = .next (wordDone s1 c h
        (j.setMask md (BitVec.ofFnLE fun k : Fin 256 =>
          if k.val < ty.lanes then (if laneActive c h k.val then holds k.val else (j.mask md).getLsbD k.val) else false))
        c.value (raisedBy ty.lanes e)))

/-- Estimates and refinement steps by R50, R51 and R128, transcendental functions by R52 and R129, always rounded RNE.
The model's choices it rests on: logs 53, 60. -/
def Obligations.VectorFunctionResults : Prop :=
  ∀ (s : State) (h : VHdr) (vd va vb : BitVec 7) (ty : ElemTy),
    let f := fmtOf ty
    let on (l : List (BitVec 7)) (c : Cursor) : List Touch := l.map fun v => (v, activeBytes (laneActive c h) ty.bytes)
    let a (c : Cursor) (i : Nat) : FVal := vmodOperand c.vmod 0 (decodeFloat f (lane (c.pre.vreg va) ty.bits i))
    let b (c : Cursor) (i : Nat) : FVal := vmodOperand c.vmod 1 (decodeFloat f (lane (c.pre.vreg vb) ty.bits i))
    let r (m : RMode) (c : Cursor) (e : FVal × BitVec 5) : Nat × BitVec 5 := finishFloat f m c.vmod e.1 e.2
    let estimate (rsq : Bool) (c : Cursor) (i : Nat) : Nat × BitVec 5 :=
      match estimateOf rsq (a c i) with
      | .inl special => r (modeOf c) c special
      | .inr exact =>
        let y := roundEstimate f (modeOf c) (vmodScale c.vmod) exact
        (clampBits f (vmodClamp c.vmod) y.2 y.1, y.2)
    LaneYields s h vd (on [va]) ty (exec (.vrcpe h vd va ty) s) (estimate false) ∧
    LaneYields s h vd (on [va]) ty (exec (.vrsqe h vd va ty) s) (estimate true) ∧
    LaneYields s h vd (on [va, vb]) ty (exec (.vrcps h vd va vb ty) s)
      (fun c i => r (modeOf c) c (rcpsVal (modeOf c) (a c i) (b c i))) ∧
    LaneYields s h vd (on [va, vb]) ty (exec (.vrsqs h vd va vb ty) s)
      (fun c i => r (modeOf c) c (rsqsVal (modeOf c) (a c i) (b c i))) ∧
    LaneYields s h vd (on [va]) ty (exec (.vexp2 h vd va ty) s) (fun c i => r .rne c (exp2Val (a c i))) ∧
    LaneYields s h vd (on [va]) ty (exec (.vlog2 h vd va ty) s) (fun c i => r .rne c (log2Val (a c i))) ∧
    LaneYields s h vd (on [va]) ty (exec (.vsin h vd va ty) s) (fun c i => r .rne c (sinVal (a c i))) ∧
    LaneYields s h vd (on [va]) ty (exec (.vcos h vd va ty) s) (fun c i => r .rne c (cosVal (a c i)))

/-- Conversion moves element `i` of its source lane to its destination lane by R130, and block quantisation writes bytes
and scales where R132 to R134 put them; every other byte of the destination keeps its bits. The model's choices it rests
on: log 56. -/
def Obligations.VectorConversions : Prop :=
  ∀ (s : State) (h : VHdr) (vd va vs : BitVec 7) (ty src : ElemTy) (part b : BitVec 3) (c : Cursor) (j : Job) (s1 : State),
    Enters s h.wait h.sig c j s1 →
    let act := laneActive c h
    -- VCVT: N elements, PART naming the part of the wider-laned register that the narrower format fills or comes from
    (let n := 256 / max ty.bytes src.bytes
     let up (narrow wide : ElemTy) : Nat := if narrow.bytes < wide.bytes then part.toNat * n else 0
     let el (base l : Nat) : Bool := decide (base ≤ l) && decide (l - base < n) && act (l - base)
     let y (i : Nat) : Nat × BitVec 5 := cvtLane c ty src (lane (c.pre.vreg va) src.bits (up src ty + i))
     let e (i : Nat) : BitVec 5 := if act i then (y i).2 else 0
     up src ty + n ≤ 256 / src.bytes → up ty src + n ≤ 256 / ty.bytes →
     VecReady s1 j [(va, fun x => el (up src ty) (x / src.bytes))] [vd] → NoPrecise c n e →
     VecDone s1 c h j (exec (.vcvt h vd va ty src part) s) vd ty.bytes (el (up ty src)) (fun l => (y (l - up ty src)).1) c.value
       (raisedBy n e)) ∧
    -- VQBLK: bytes 0 to Ls − 1 take the quantised lanes, and the computing form writes its scales after them
    (let ls := src.lanes
     let bl := 2 ^ (b.toNat + 3)
     let nb := max 1 (ls / bl)
     let m := rmOf c.regs.fpctl
     let x (i : Nat) : FVal := decodeFloat (fmtOf src) (lane (c.pre.vreg va) src.bits i)
     let own (k : Nat) : Nat := blockScale ty.isSigned ((List.range (min bl (ls - k * bl))).map fun i => x (k * bl + i))
     let given (k : Nat) : Nat := lane (c.pre.vreg vs) 8 (if bl ≤ ls then k else 0)
     let q (o : Bool) (sc : Nat → Nat) (i : Nat) : Nat × BitVec 5 := quantLane m ty.isSigned o (sc (i / bl)) (x i)
     src ∈ [.bf16, .f16, .f32] → b.toNat ≤ 5 →
     (bl ≤ ls → VecReady s1 j [allOf va] [vd] → NoPrecise c ls (fun i => (q true own i).2) →
       VecDone s1 c h j (exec (.vqblk h vd va ty src b) s) vd 1 (fun i => decide (i < ls + nb))
         (fun i => if i < ls then (q true own i).1 else own (i - ls)) c.value (raisedBy ls fun i => (q true own i).2)) ∧
     (VecReady s1 j [allOf va, (vs, fun x => decide (x < nb))] [vd] → NoPrecise c ls (fun i => (q false given i).2) →
       VecDone s1 c h j (exec (.vqblkGiven h vd va vs ty src b) s) vd 1 (fun i => decide (i < ls)) (fun i => (q false given i).1)
         c.value (raisedBy ls fun i => (q false given i).2))) ∧
    -- VDQBLK: lane i is byte i of VA under its block's scale; a NaN or a NaN scale gives the canonical NaN, and no flag
    (let ld := ty.lanes
     let bl := 2 ^ (b.toNat + 3)
     let blk (i : Nat) : Nat := if bl ≤ ld then i / bl else 0
     let y (i : Nat) : Nat × BitVec 5 :=
       let sc := lane (c.pre.vreg vs) 8 (blk i)
       let x := lane (c.pre.vreg va) 8 i
       let v := if src.isInt then valOfInt (if src.isSigned = true ∧ 128 ≤ x then (x : Int) - 256 else x)
         else decodeF8 (f8Of c.regs.fpctl) x
       if sc = 0xFF ∨ v.isNan = true then ((fmtOf ty).nanBits, 0)
       else finishFloat (fmtOf ty) (modeOf c) c.vmod (v.scale ((sc : Int) - 127)) 0
     let e (i : Nat) : BitVec 5 := if act i then (y i).2 else 0
     VecReady s1 j [(va, fun x => decide (x < ld) && act x), (vs, fun x => (List.range ld).any fun i => act i && blk i == x)] [vd] →
     NoPrecise c ld e →
     VecDone s1 c h j (exec (.vdqblk h vd va vs ty src b) s) vd ty.bytes act (fun i => (y i).1) c.value (raisedBy ld e))

/-- Lane movement (R143, R144): the selected lanes, broadcasts, slides across two registers, selections by a mask and
single lanes, with inactive lanes as they were; VIOTA's counts and numbers (R149). -/
def Obligations.VectorMoves : Prop :=
  ∀ (s : State) (h : VHdr) (vd va vb vc : BitVec 7) (ka kb : Src) (mc : BitVec 3) (idx : Bool) (ty : ElemTy),
    let n := ty.lanes
    let all (l : List (BitVec 7)) (_ : Cursor) : List Touch := l.map allOf
    let x (v : BitVec 7) (c : Cursor) (i : Nat) : Nat := lane (c.pre.vreg v) ty.bits i
    let cat (v u : BitVec 7) (c : Cursor) (i : Nat) : Nat := if i < n then x v c i else if i < 2 * n then x u c (i - n) else 0
    LaneYields s h vd (all [va, vb]) ty (exec (.vperm h vd va vb ty) s) (fun c i => (x va c (x vb c i % n), 0)) ∧
    LaneYields s h vd (all [va, vb, vc]) ty (exec (.vshuf h vd va vb vc ty) s)
      (fun c i => (cat va vb c (x vc c i % (2 * n)), 0)) ∧
    LaneYields s h vd (all []) ty (exec (.vbcast h vd ka ty) s) (fun c _ => ((c.regs.src ka).toNat, 0)) ∧
    LaneYields s h vd (all [va, vb]) ty (exec (.vslideDn h vd va vb ka ty) s)
      (fun c i => (cat va vb c (i + (c.regs.src ka).toNat), 0)) ∧
    LaneYields s h vd (all [va, vb]) ty (exec (.vslideUp h vd va vb ka ty) s)
      (fun c i => (if (c.regs.src ka).toNat ≤ i + n then cat vb va c (i + n - (c.regs.src ka).toNat) else 0, 0)) ∧
    LaneYields s h vd (all [va, vb]) ty (exec (.vsel h vd va vb mc ty) s)
      (fun c i => (if mc = 7 ∨ (c.pre.mask mc).getLsbD i = true then x va c i else x vb c i, 0)) ∧
    LaneYields s h vd (all []) ty (exec (.viota h vd ty idx) s)
      (fun c i => (if idx then i else ((List.range i).filter (laneActive c h)).length, 0)) ∧
    (∀ c j s1, Enters s h.wait h.sig c j s1 → VecReady s1 j [] [vd] →
      let k := (c.regs.src kb).toNat
      (k < n → VecDone s1 c h j (exec (.vins h vd ka kb ty) s) vd ty.bytes (fun i => decide (i = k))
        (fun _ => (c.regs.src ka).toNat) c.value 0) ∧
      (n ≤ k → exec (.vins h vd ka kb ty) s = .next (wordDone s1 c h j c.value 0))) ∧
    (∀ c j s1, Enters s h.wait h.sig c j s1 → VecReady s1 j [(va, fun b => b / ty.bytes == (c.regs.src kb).toNat)] [] →
      let k := (c.regs.src kb).toNat
      let y := if k < n then x va c k else 0
      let v : Word := if ty.isSigned = true ∧ 2 ^ (ty.bits - 1) ≤ y then BitVec.ofInt 64 ((y : Int) - 2 ^ ty.bits) else BitVec.ofNat 64 y
      exec (.vext h va kb ty) s = .next (wordDone s1 c h (j.put c .push v) v 0))

/-- Loads and stores of lanes from and to the scratchpad (R140 to R142): inside the job's windows, each active unit at
its address, little-endian, stores in ascending order; nothing else is touched. A store lands at its own word of the bundle. The
model's choices it rests on: log 97. -/
def Obligations.VectorLoadsAndStores : Prop :=
  ∀ (s : State) (h : VHdr) (vd vb : BitVec 7) (ka kb : Src) (off : BitVec 14) (ty : ElemTy) (bm : Bool) (c : Cursor) (j : Job)
      (s1 : State),
    Enters s h.wait h.sig c j s1 →
    let act := laneActive c h
    let a := c.regs.src ka
    let on (v : BitVec 7) : Touch := (v, activeBytes act ty.bytes)
    let seq (w : Nat) (i : Nat) : Nat := (a + off.signExtend 64).toNat + i * w
    let stride (i : Nat) : Nat := (a + BitVec.ofNat 64 i * c.regs.src kb).toNat
    let idx (i : Nat) : Nat := (a + BitVec.ofNat 64 (lane (c.pre.vreg vb) ty.bits i)).toNat
    let u := if bm then 1 else ty.bytes
    -- every active unit in the windows, and (for a load) sound
    let fits (load : Bool) (w : Nat) (at' : Nat → Nat) : Prop :=
      spanCauses j load (((List.range (256 / w)).filter act).map fun i => (at' i, w)) = []
    let loaded (w : Nat) (at' : Nat → Nat) (i : Nat) : Nat := leNat ((List.range w).map fun k => cellGet j.sp (at' i + k))
    let stored (w : Nat) (at' : Nat → Nat) : Job :=
      ((List.range (256 / w)).filter act).foldl (fun k i =>
        k.spPut (at' i) ((List.range w).map fun n => BitVec.ofNat 8 (lane (c.pre.vreg vd) (8 * w) i / 2 ^ (8 * n)))) j
    (VecReady s1 j [] [vd] → fits true u (seq u) →
      VecDone s1 c h j (exec (.vld h vd ka off ty bm) s) vd u act (loaded u (seq u)) c.value 0) ∧
    (VecReady s1 j [] [vd] → fits true ty.bytes stride →
      VecDone s1 c h j (exec (.vlds h vd ka kb ty) s) vd ty.bytes act (loaded ty.bytes stride) c.value 0) ∧
    (VecReady s1 j [on vb] [vd] → fits true ty.bytes idx →
      VecDone s1 c h j (exec (.vgats h vd ka vb ty) s) vd ty.bytes act (loaded ty.bytes idx) c.value 0) ∧
    (VecReady s1 j [(vd, activeBytes act u)] [] → fits false u (seq u) →
      exec (.vst h vd ka off ty bm) s = .next (wordDone s1 c h (stored u (seq u)) c.value 0)) ∧
    (VecReady s1 j [on vd, on vb] [] → fits false ty.bytes idx →
      exec (.vscats h vd ka vb ty) s = .next (wordDone s1 c h (stored ty.bytes idx) c.value 0))

/-- Reductions write lane 0 with the pairwise sum, the running sums, or the greatest or least active lane of R47 and
R146 to R148, and VREDARG pushes its lane's number; mask words count and combine masks (R149). The model's choices it
rests on: log 54. -/
def Obligations.VectorReductions : Prop :=
  ∀ (s : State) (h : VHdr) (vd va : BitVec 7) (ty : ElemTy) (least exc : Bool) (md ma mb : BitVec 3) (tt : BitVec 4)
      (c : Cursor) (j : Job) (s1 : State),
    Enters s h.wait h.sig c j s1 →
    let act := laneActive c h
    let on : List Touch := [(va, activeBytes act ty.bytes)]
    let w := ty.bits
    let x (i : Nat) : Option Nat := if act i then some (lane (c.pre.vreg va) w i) else none
    let l := (List.range ty.lanes).map x
    let add (a b : Nat) : Nat × BitVec 5 :=
      if ty.isInt then ((a + b) % 2 ^ w, 0)
      else
        let e := exactAdd (rmOf c.regs.fpctl) (decodeFloat (fmtOf ty) a) (decodeFloat (fmtOf ty) b)
        let y := roundVal (fmtOf ty) (rmOf c.regs.fpctl) e.1
        (y.1, e.2 ||| y.2)
    let first (i : Nat) : Bool := decide (i = 0)
    -- a NaN enters as the canonical one, a signalling one with NV (R24)
    let quiet (a : Nat) : Nat × BitVec 5 :=
      let v := decodeFloat (fmtOf ty) a
      if ty.isInt = false ∧ v.isNan = true then ((fmtOf ty).nanBits, snanFlag v) else (a, 0)
    (VecReady s1 j on [vd] →
      -- float lanes add in the pairwise tree of R47 (of eight levels at most), integer lanes modulo their width
      (let t : Option Nat × BitVec 5 :=
         if ty.isInt then (some ((l.filterMap id).sum % 2 ^ w), 0)
         else
           let q := l.map fun o => o.map quiet
           let r := treeSum add 8 (q.map fun o => o.map Prod.fst)
           (r.1, q.foldl (fun f o => f ||| (o.map Prod.snd).getD 0) r.2)
       NoPrecise c 1 (fun _ => t.2) →
       VecDone s1 c h j (exec (.vredsum h vd va ty) s) vd ty.bytes first (fun _ => t.1.getD 0) c.value t.2) ∧
      (let b := bestLane c h va ty false
       NoPrecise c 1 (fun _ => b.2.2) →
       VecDone s1 c h j (exec (.vredmax h vd va ty) s) vd ty.bytes first (fun _ => b.1) c.value b.2.2) ∧
      (let b := bestLane c h va ty true
       NoPrecise c 1 (fun _ => b.2.2) →
       VecDone s1 c h j (exec (.vredmin h vd va ty) s) vd ty.bytes first (fun _ => b.1) c.value b.2.2) ∧
      (let b := bestLane c h va ty least
       let i : Word := match b.2.1 with | some i => BitVec.ofNat 64 i | none => BitVec.allOnes 64
       NoPrecise c 1 (fun _ => b.2.2) →
       VecDone s1 c h (j.put c .push i) (exec (.vredarg h vd va ty least) s) vd ty.bytes first (fun _ => b.1) i b.2.2) ∧
      (let r := scanLanes add quiet exc 0 none l
       NoPrecise c r.2.length (fun i => (r.2.getD i (0, 0)).2) →
       VecDone s1 c h j (exec (.vscan h vd va ty exc) s) vd ty.bytes act (fun i => (r.1.getD i none).getD 0) c.value
         (raisedBy r.2.length fun i => (r.2.getD i (0, 0)).2))) ∧
    (let n := BitVec.ofNat 64 ((List.range ty.lanes).filter fun i => (c.pre.mask ma).getLsbD i && act i).length
     exec (.vmpop h ma ty) s = .next (wordDone s1 c h (j.put c .push n) n 0)) ∧
    exec (.vmlog h md ma mb tt) s = .next (wordDone s1 c h
      (j.setMask md (BitVec.ofFnLE fun i : Fin 256 =>
        tt.getLsbD (2 * ((c.pre.mask ma).getLsbD i.val).toNat + ((c.pre.mask mb).getLsbD i.val).toNat))) c.value 0)

/-- VTAB builds every entry of its row in its slot of the table store (R150); VSNAP takes a row with its owner's count
of steps (R152); VPREFEQ, VSHORT, VMASS, VNOISE, VBTEST and VBSET by R153 to R157; VMOD changes only what the next word
does (R67). The model's choices it rests on: logs 9, 54, 57, 58, 92. -/
def Obligations.VectorTablesAndSampling : Prop :=
  ∀ (s : State) (h : VHdr) (vd va vb : BitVec 7) (md : BitVec 3) (tl : BitVec 2) (ka kb kc : Src) (uns : Bool) (ty : ElemTy)
      (w : Wait) (g : Sig) (neg abs : BitVec 3) (cl : Clamp) (sc : BitVec 4) (rnd : Option RMode) (c : Cursor) (j : Job) (s1 : State),
    let act := laneActive c h
    let x (v : BitVec 7) (i : Nat) : Nat := lane (c.pre.vreg v) ty.bits i
    let on (v : BitVec 7) : Touch := (v, activeBytes act ty.bytes)
    (Enters s w g c j s1 →
      exec (.vmod w g neg abs cl sc rnd) s = .next { s1 with
        cursor := some { c with vmod := some ⟨neg, abs, cl, sc, rnd⟩, next := none, index := c.index + 1 } }) ∧
    (Enters s h.wait h.sig c j s1 →
      (let lay := j.layout tl
       let book := j.bookOf lay.word
       let grp := (c.regs.src ka).toNat
       let entries := tabEntries book lay.word uns (c.pre.vreg va)
       VecReady s1 j [(va, fun x => decide (x % 8 < layG (c.pre.layout tl).word))] [] → lay.set = true → grp < layS lay.word →
       entries.all (entryFits lay.word) = true →
       exec (.vtab h va tl ka uns) s = .next (wordDone s1 c h
         ((j.tsPut (entryAt book.k lay.word grp 0 0)
            (entries.flatMap fun e => leBytes (layWb lay.word) (e % 2 ^ (8 * layWb lay.word)).toNat)).setLayout tl
              { lay with slots := slotPut grp uns lay.slots }) c.value 0)) ∧
      (VecReady s1 j [allOf va] [vd] →
       let n : Word := match j.ownerSteps (va.toNat / 32) with | some k => BitVec.ofNat 64 k | none => BitVec.allOnes 64
       exec (.vsnap h vd va) s = .next (wordDone s1 c h ((j.vecPut (allOf vd) (c.pre.vreg va)).put c .push n) n 0)) ∧
      (VecReady s1 j [on va, on vb] [] →
       let n := BitVec.ofNat 64 ((List.range ty.lanes).takeWhile fun i => act i && x va i == x vb i).length
       exec (.vprefeq h va vb ty) s = .next (wordDone s1 c h (j.put c .push n) n 0)) ∧
      (let v2 := vd + 1
       let old := List.zip (lanesOf (c.pre.vreg vd) 32) (lanesOf (c.pre.vreg v2) 32)
       let best := ((old ++ shortCands c h va ty (c.regs.src kb)).foldl (fun l p => shortInsert p l) []).take 64
       VecReady s1 j [allOf vd, allOf v2, on va] [vd, v2] →
       exec (.vshort h vd va kb ty) s = .next (wordDone s1 c h
         ((j.vecPut (allOf vd) (packLanes 32 (best.map Prod.fst))).vecPut (allOf v2) (packLanes 32 (best.map Prod.snd)))
         c.value 0)) ∧
      (let t := sumLanes c h va .f32
       let sum := decodeFloat fmtF32 t.1
       let low := sum.isNan || compareVal sum (decodeFloat fmtF32 ((c.regs.src kb).toNat % 2 ^ 32)) == some .lt
       VecReady s1 j [(va, activeBytes act 4)] [] → NoPrecise c 1 (fun _ => t.2) →
       exec (.vmass h md va kb kc) s = .next (wordDone s1 c h
         (if low then j.setMask md (j.mask md ||| (1#256 <<< ((c.regs.src kc).toNat % 256))) else j) c.value t.2)) ∧
      (VecReady s1 j [allOf va, on vb] [] →
       exec (.vbtest h md va vb ty) s = .next (wordDone s1 c h
         (j.setMask md (BitVec.ofFnLE fun k : Fin 256 =>
           if k.val < ty.lanes ∧ act k.val = true then (c.pre.vreg va).getLsbD (x vb k.val % 2048) else (j.mask md).getLsbD k.val))
         c.value 0)) ∧
      (VecReady s1 j [allOf va, on vb] [vd] →
       exec (.vbset h vd va vb ty) s = .next (wordDone s1 c h
         (j.vecPut (allOf vd) (BitVec.ofFnLE fun k : Fin 2048 => (c.pre.vreg va).getLsbD k.val ||
           (List.range ty.lanes).any fun i => act i && x vb i % 2048 == k.val)) c.value 0))) ∧
    LaneYields s h vd (fun _ => []) .f32 (exec (.vnoise h vd ka kb kc) s) (fun c i =>
      roundVal fmtF32 .rne (gumbelVal
        ((noiseHash (c.regs.src ka) (c.regs.src kb) (c.regs.src kc + BitVec.ofNat 64 i)).toNat / 2 ^ 40)))

/-- What stops a V word before it does anything: a register in a tile that is absent for the job raises ILLEGAL (R66), a
destination in a tile an LME command owns TILE_OWNED (R118), an enabled exception of an active lane in precise mode
FP_PRECISE with the lowest such lane and all it raised (R44). The model's choices it rests on: log 59. -/
def Obligations.VectorWordTraps : Prop :=
  ∀ (s : State) (h : VHdr) (vd va vb : BitVec 7) (ty : ElemTy) (c : Cursor) (j : Job) (s1 : State),
    Enters s h.wait h.sig c j s1 → h.more = false → HandlerReady c →
    let at' := BitVec.ofNat 64 c.index <<< 8
    let o := exec (.vadd h vd va vb ty) s
    let r (i : Nat) : Nat × BitVec 5 :=
      let e := exactAdd (modeOf c) (vmodOperand c.vmod 0 (decodeFloat (fmtOf ty) (lane (c.pre.vreg va) ty.bits i)))
        (vmodOperand c.vmod 1 (decodeFloat (fmtOf ty) (lane (c.pre.vreg vb) ty.bits i)))
      finishFloat (fmtOf ty) (modeOf c) c.vmod e.1 e.2
    ((∃ v ∈ [va, vb, vd], s1.absent j v = true) → o = .next (trapTaken s1 c ⟨causeIllegal, c.pc, 0, at'⟩)) ∧
    ((∀ v ∈ [va, vb, vd], s1.absent j v = false) → j.tileOwned (vd.toNat / 32) = true →
      o = .next (trapTaken s1 c ⟨causeTileOwned, c.pc, 0, at'⟩)) ∧
    (∀ i < ty.lanes, VecReady s1 j [(va, activeBytes (laneActive c h) ty.bytes), (vb, activeBytes (laneActive c h) ty.bytes)] [vd] →
      preciseOf c.regs.fpctl = true → laneActive c h i = true → (r i).2 &&& enabledOf c.regs.fpctl ≠ 0 →
      (∀ k < i, laneActive c h k = true → (r k).2 &&& enabledOf c.regs.fpctl = 0) →
      o = .next (trapTaken s1 c ⟨causeFpPrecise, c.pc, BitVec.ofNat 64 i, ((r i).2.setWidth 64 <<< 10) ||| at'⟩))

/-! ### Launches, the Pond and checkpoints -/

/-- LAUNCH claims a slot of the Inlet it names, posts its record there once the Inlet has room for that slot and no host
holds a line of it (R390), and waits to be numbered; until then it stalls with the slot it has claimed (R215, R336). WQPUSH
and WQPOP by R216, R355 and R356: a pop takes one of the first W items in key order with no older item of its key before it,
and one that finds nothing yields 0 and a key of all ones; CKPT, where nothing makes it wait, records its step and yields
the last (R223). The model's choices it rests on: logs 9, 43, 44, 45, 84, 93. -/
def Obligations.LaunchPondAndCheckpoint : Prop :=
  ∀ (s : State) (h : Hdr) (d : Dest) (a b q k p : Src) (kd : KeyDest) (c : Cursor) (j : Job) (s1 : State),
    c.slot = none →
    (∀ s2 rec', Runs s h [a, b] (some d) c j s1 → j.handler = none →
      let va := c.regs.src a
      let i : BitVec 2 := (c.regs.src b).setWidth 2
      let base := s1.inletBase j.mem.part i
      let room (t : State) (n : Nat) : Prop := n - leNat (t.readPhys (base + 8) 8) < leNat (t.readPhys (base + 16) 4) ∧
        t.hostHolds (inletSlot base (leNat (t.readPhys (base + 16) 4)) n) 256 = false ∧ t.l1Held j.core = false
      let posts (t : State) (n : Nat) : State := inFlight
        (((t.l1Release j.core).writePhys (inletSlot base (leNat ((t.l1Release j.core).readPhys (base + 16) 4)) n) rec').modPart
          j.mem.part fun u => { u with posted := u.posted ++ [⟨i, n, c.job, j.nextCmd, j.mem.ctx⟩] })
        c h.sig
        { j with nextCmd := j.nextCmd + 1, waits := j.waits ++ [j.nextCmd], c := { j.c with claim := none, out := none } } d j.nextCmd
        false false
      let tail := leNat (s2.readPhys base 8)
      let claimed (t : State) : State := t.writePhys base (leBytes 8 (leNat (t.readPhys base 8) + 1))
      va.toNat % 64 = 0 → (c.regs.src b).toNat < 4 → va.toNat < 2 ^ 56 →
      s1.memRead (c.who j) va 256 false = .ok s2 rec' → s2.unreadable base 64 = false → s2.hostHolds base 64 = false →
      (j.c.claim = none →
        (room (claimed s2) tail → exec (.launch h d a b) s = .next (posts (claimed s2) tail)) ∧
        (¬room (claimed s2) tail → exec (.launch h d a b) s = .next { claimed (s1.rollback c) with
          jobs := s1.jobs.set c.job (c.pre.setStream .c { c.pre.c with claim := some (i, tail) }), cursor := none })) ∧
      (∀ n, j.c.claim = some (i, n) →
        (room s2 n → exec (.launch h d a b) s = .next (posts s2 n)) ∧
        (¬room s2 n → c.late = false → exec (.launch h d a b) s = .next (s1.rollback c)))) ∧
    (∀ (i : Fin 16) (t : Part), (c.regs.src q).toNat = i.val → s1.parts[j.mem.part]? = some t →
      let enabled := (t.pqcfg.get i).getLsbD 7
      let w := if j.det then 1 else ((t.pqcfg.get i).extractLsb' 0 6).toNat + 1
      let l := t.pond.get i
      let full := 65536 ≤ l.length ∨ t.pondways * 65536 * t.stops.length ≤ (t.pond.toList.map List.length).sum
      (Runs s h [q, k, p] (some d) c j s1 →
        (enabled = false ∨ full → exec (.wqpush h d q k p) s = .next (issued s1 c h.sig (j.put c d 1) 1 none)) ∧
        (enabled = true → ¬full → s1.l1Held j.core = false →
          exec (.wqpush h d q k p) s = .next (issued
            ((s1.l1Release j.core).modPart j.mem.part fun u =>
              { u with pond := u.pond.set i (pondInsert ⟨(c.regs.src k).setWidth 32, c.regs.src p, 0⟩ l) })
            c h.sig (j.put c d 0) 0 none))) ∧
      (let key : List Src := match kd with | .k r => [.k r] | .discard => []
       let done (u : State) (payload key : Word) : Prop :=
         ∃ y, (y = payload ∨ (∃ r, kd = .k r ∧ d = .k r ∧ y = key)) ∧
           exec (.wqpop h d kd q) s = .next (issued u c h.sig (j.modRegs c fun r =>
             (match kd with | .k n => r.write (.k n) key | .discard => r).write d y) payload none)
       Runs s h (q :: key) (some d) c j s1 → s1.l1Held j.core = false →
       (enabled = false ∨ l = [] → done s1 0 (BitVec.allOnes 64)) ∧
       (enabled = true → l ≠ [] →
         ∃ n x, l[n]? = some x ∧ n < w ∧ (∀ y ∈ l.take n, y.key ≠ x.key) ∧
           done (({ s1.modPart j.mem.part fun u => { u with pond := u.pond.set i (pondAfter (((t.pqcfg.get i).extractLsb' 0 6).toNat + 1) n l) } with
             free := s1.free + 1 } : State).l1Acquire j.core) x.payload (x.key.setWidth 64)))) ∧
    (Runs s h [a] (some d) c j s1 → c.stream = .c → j.c.retireQ = [] → s1.ckptWaits j.mem.part j.mem.ctx = false →
      let old : Word := BitVec.ofNat 64 (s1.ctxDesc j.mem.part j.mem.ctx / 2 ^ 64)
      exec (.ckpt h d a) s =
        .next (issued (s1.checkpoint j.mem.part j.mem.ctx (c.regs.src a)) c h.sig (j.put c d old) old none))

/-! ### Proofing loops -/

/-- PLOOP starts a loop on a sound record, and C stands as its slot 0 until it ends (R217, R289, R290); PACC and PSTAT write and read a job's proof
registers (R219, R220); a slot's PGEND starts its body on the guess, PNEXT and PEXIT end its iteration (R218, R293,
R294). The model's choices it rests on: logs 49, 50, 51, 52, 91. -/
def Obligations.ProofLoopWords : Prop :=
  ∀ (s : State) (h : Hdr) (d : Dest) (a : Src) (kc : BitVec 4) (c : Cursor) (j : Job) (s1 : State),
    (let off := (c.regs.src a).toNat
     let r : BitVec 512 := BitVec.ofNat 512 (leNat (cellGetN j.sp off 64))
     let carved := { j with loop := some (Loop.start 0 j d h.sig) }
     Runs s h [a] (some d) c j s1 → c.slot = none → j.handler = none → j.loop = none → j.c.retireQ = [] → off % 64 = 0 →
     j.topWindow.1 + 32768 ≤ j.topWindow.2 → carved.spanOk off 64 = true → unitsTouch j.spBad off 64 = false →
     proofBad r (1 + j.helpers.length) = false → carved.spanOk (privArea r).1 (privArea r).2 = true →
     s1.l1HeldAny (j.core :: j.helpers) = false →
     exec (.ploop h d a) s = .next { s1.flushGroup j with
       jobs := s1.jobs.set c.job { j with
         loop := some (Loop.start r j d h.sig), proofOk := 0, proofSq := 0, proofNo := 0
         c := { j.c with out := none } }
       cursor := none }) ∧
    (Runs s h [a] none c j s1 → j.loop = none →
      exec (.pacc h kc a) s =
        .next (issued s1 c h.sig { j with pacc := j.pacc.set kc.toNat (c.regs.src a) kc.isLt } c.value none)) ∧
    (Runs s h [] (some d) c j s1 →
      let reads (sel : BitVec 8) (v : Word) : Prop := exec (.pstat h d sel) s = .next (issued s1 c h.sig (j.put c d v) v none)
      reads 0 j.proofOk ∧ reads 1 j.proofSq ∧ reads 2 j.proofNo ∧
      (c.slot = none → reads 3 (BitVec.allOnes 64)) ∧
      (∀ it, j.iter? c.slot = some it → reads 3 (if it.st = .guessing then BitVec.allOnes 64 else BitVec.ofNat 64 it.n))) ∧
    (∀ n lp sl it, Runs s h [] none c j s1 → c.slot = some n → j.handler = none → j.loop = some lp → lp.slots[n]? = some sl →
      sl.running = some it →
      let t := j.regs .c (some n)
      (it.st = .guessing →
        exec (.pgend h) s = .next { (s1.freshPriv c.job n).modJob c.job fun k =>
          k.startOn n (Iter.fresh it.n .speculative t.k) (bodyRegs k lp (k.regs .c (some n)) it.n t.k (s1.tick + 1)) with
          cursor := none }) ∧
      (sl.finished = none → t.retireQ = [] →
        let ended (exit : Bool) (st : IterState) : Job := j.setSlot n { sl with
          running := none
          finished := some { it with cout := t.k, flags := t.fpflg, exit := exit, st := st } }
        (it.st = .speculative →
          exec (.pnext h) s = .next { s1 with jobs := s1.jobs.set c.job (ended false .finished), cursor := none }) ∧
        (it.st = .confirmed →
          let at' (k : Job) : Job := { k with loop := k.loop.map fun l => { l with commitAt := max lp.commitAt (s1.tick + 4) } }
          exec (.pnext h) s = .next { s1 with jobs := s1.jobs.set c.job (at' (ended false .confirmed)), cursor := none } ∧
          exec (.pexit h) s = .next { s1 with jobs := s1.jobs.set c.job (at' (ended true .confirmed)), cursor := none })))

/-- The steps of a loop (R292 to R295): the oldest uncommitted iteration starts confirmed on the true carries, and a younger
one on a guess, or waits; an oldest iteration that has finished on a guess is confirmed where its carries are accepted, and else
squashed with every younger one and run again; a finished and confirmed one commits, with its flags and carries, and the next is
compared or, after the last, what is younger is squashed and the loop has ended; at the end C has its registers as at PLOOP with
the committed carries, PLOOP writes its count, the carved bytes of every core read zero, and C goes on past PLOOP no earlier
than 128 cycles on. A step that empties an L1 waits while a host holds a line that has to go home (R390). The model's choices it rests on: logs 49, 84, 91. -/
def Obligations.ProofLoopSteps : Prop :=
  ∀ (s : State) (n : Nat) (j : Job) (lp : Loop) (sl : Slot) (it : Iter),
    s.jobs[n]? = some j → j.loop = some lp → j.moves = true →
    let w := lp.slots.length
    let head := lp.committed % w
    (∀ slot i, lp.ended = false → lp.slots[slot]? = some sl → lp.nextFor slot = some i →
      (prTrip lp.record ≠ 0 → i < prTrip lp.record) → (i = lp.committed → s.l1Held sl.core = false) →
      let at' := s.tick + 6
      exec (.proofIterationStart n slot) s = .next (
        if i = lp.committed then
          ((s.l1FlushAll [sl.core]).freshPriv n slot).modJob n fun k =>
            { k.startOn slot (Iter.fresh i .confirmed lp.carries) (bodyRegs k lp (k.regs .c (some slot)) i lp.carries at') with
              proofOk := k.proofOk + 1 }
        else if prHasGuess lp.record then
          (s.freshPriv n slot).modJob n fun k =>
            k.startOn slot (Iter.fresh i .guessing lp.carries) (guessRegs k lp (k.regs .c (some slot)) i at')
        else (s.freshPriv n slot).modJob n fun k =>
          k.setSlot slot { ((k.slot? slot).getD sl) with running := some (Iter.fresh i .waiting lp.carries), held := false })) ∧
    (lp.ended = false → lp.slots[head]? = some sl → sl.finished = some it → it.n = lp.committed → s.l1Held sl.core = false →
      (it.st = .confirmed → it.stores = [] → lp.commitAt ≤ s.tick →
        let last := it.exit = true ∨ (prTrip lp.record ≠ 0 ∧ prTrip lp.record ≤ lp.committed + 1)
        let done (ended : Bool) : State := { s.l1FlushAll [sl.core] with
          jobs := s.jobs.set n { j with
            loop := some { lp with
              slots := lp.slots.set head { sl with finished := none }
              flags := lp.flags ||| it.flags, committed := lp.committed + 1, carries := withCarries lp.record lp.carries it.cout, ended := ended
              commitAt := s.tick + 1 } } }
        (last → exec (.proofCommit n) s = .next ((done true).squashFrom n (lp.committed + 1) w)) ∧
        (¬last → exec (.proofCommit n) s = .next ((done false).proveNext n))) ∧
      (it.st ≠ .confirmed →
        let accepted := ∀ r ∈ carriedOf lp.record,
          if prAcc lp.record then (lp.carries.get r ^^^ it.cin.get r) &&& j.pacc.get r = 0 else lp.carries.get r = it.cin.get r
        (accepted → it.stores = [] →
          exec (.proofCommit n) s = .next { s with
            jobs := s.jobs.set n { j with
              proofOk := j.proofOk + 1
              loop := some { lp with
                slots := lp.slots.set head { sl with finished := some { it with st := .confirmed, stores := [] } }
                commitAt := max lp.commitAt (s.tick + 1) } } }) ∧
        (¬accepted → exec (.proofCommit n) s = .next (s.rerunIter n lp.committed w)))) ∧
    (lp.ended = true → s.l1HeldAny (j.core :: j.helpers) = false →
      let top := j.topWindow.2
      let zero (m : List Host.Cell) : List Host.Cell := m.filter fun x => decide (x.1 < top - 32768) || decide (top ≤ x.1)
      let v := BitVec.ofNat 64 lp.committed
      let out := ({ j.c.leave with
        pc := lp.base.pc + 8, k := withCarries lp.record lp.base.k lp.carries, p := lp.base.p, h := lp.base.h
        rstack := lp.base.rstack, stamp := lp.base.stamp, fpflg := lp.flags, out := none, claim := none, skip := false
        notBefore := s.tick + 128 } : StreamSt)
      exec (.proofLoopEnd n) s = .next {
        j.helpers.foldl (fun t h => t.modCore h fun k => { k with left := zero k.left }) (s.l1FlushAll (j.core :: j.helpers)) with
        jobs := s.jobs.set n (retireWord s.tick .c
          { j with sp := zero j.sp, spBad := unitsAfter j.spBad (top - 32768) 32768, loop := none, c := out.write lp.dest v }
          ⟨lp.base.pc, none, .discard, v, lp.sig.reply, lp.sig.tokens, false, false, 0⟩) })

/-! ### Append regions -/

/-- The append words on a sound descriptor, in a stream that runs no proof body (R221, R300 to R302): what each yields,
what it does to the descriptor's lengths, and that a run begins where the region's bytes, committed and not, end. The
model's choices it rests on: logs 46, 47. -/
def Obligations.AppendWords : Prop :=
  ∀ (s : State) (h : Hdr) (d : Dest) (slot : BitVec 2) (a b : Src) (c : Cursor) (j : Job) (s1 s2 s3 : State) (desc : Word)
      (x : ApDesc) (p : ApPool),
    let w := c.who j
    let va := c.regs.src a
    let n := (c.regs.src b).toNat
    let out (t : State) (v : Word) : State := issued t c h.sig (j.put c d v) v none
    c.slot = none →
    (Runs s h [a] none c j s1 → va.toNat % 64 = 0 → s1.apDesc w va = .ok s2 x → apDescBad x = false →
      s2.apPool w x.pool = .ok s3 p → apPoolBad p = false →
      exec (.apopen h slot a) s =
        .next (issued s3 c h.sig { j with append := j.append.set slot.toNat (some va) slot.isLt } c.value none)) ∧
    (j.append.get slot.toFin = some desc →
      (∀ o rest, Runs s h [a, b] (some d) c j s1 → 0 < n → n ≤ 64 → j.spanOk va.toNat n = true →
        unitsTouch j.spBad va.toNat n = false → s1.apAppend w desc (cellGetN j.sp va.toNat n) [] = .ok s2 (.inl (o, rest)) →
        exec (.apnd h d slot a b) s = .next (out s2 (BitVec.ofNat 64 o)) ∧
        ∃ t y, s1.apDesc w desc = .ok t y ∧ o = y.clen + y.tlen) ∧
      (Runs s h [b] (some d) c j s1 → s1.l1Held j.core = false → (s1.l1Release j.core).apDesc w desc = .ok s2 x → n ≤ x.tlen →
        s2.apWrite w desc (apDescBytes { x with clen := x.clen + n, tlen := x.tlen - n }) = .ok s3 () →
        exec (.apcommit h d slot b) s = .next (out s3 (BitVec.ofNat 64 (x.clen + n)))) ∧
      (∀ t, Runs s h [] (some d) c j s1 → s1.apDesc w desc = .ok s2 x →
        State.apDropFrom w x.plist x.pool (x.npg - apPages x.clen) (apPages x.clen) s2 = .ok t () →
        t.apWrite w desc (apDescBytes { x with tlen := 0, npg := apPages x.clen }) = .ok s3 () →
        exec (.aptrunc h d slot) s = .next (out s3 (BitVec.ofNat 64 x.tlen))) ∧
      (∀ m, Runs s h [a] (some d) c j s1 → va.toNat % 64 = 0 → s1.apFork w desc va = .ok s2 (.inl m) →
        exec (.apfork h d slot a) s = .next (out s2 (BitVec.ofNat 64 m)) ∧ ∃ t y, s1.apDesc w desc = .ok t y ∧ m = y.clen) ∧
      (Runs s h [] (some d) c j s1 → s1.apDesc w desc = .ok s2 x →
        exec (.apstat h d slot 0) s = .next (out s2 (BitVec.ofNat 64 x.clen)) ∧
        exec (.apstat h d slot 1) s = .next (out s2 (BitVec.ofNat 64 x.tlen)) ∧
        (s2.apPool w x.pool = .ok s3 p → exec (.apstat h d slot 2) s = .next (out s3 (BitVec.ofNat 64 p.fcnt))))) ∧
    (j.append.get slot.toFin = none → HandlerReady c →
      let ill := trapTaken s1 c ⟨causeIllegal, c.pc, 0, BitVec.ofNat 64 c.index <<< 8⟩
      (Runs s h [a, b] (some d) c j s1 → exec (.apnd h d slot a b) s = .next ill) ∧
      (Runs s h [] (some d) c j s1 → exec (.aptrunc h d slot) s = .next ill))

/-! ### The lookup matrix engine -/

/-- The synchronous words of M (R162, R164, R165, R174, R176, R179, R180): what each writes, where its tile, layout or
feed is in use by no command and its operand is sound. The model's choices it rests on: logs 63, 98. -/
def Obligations.MatrixSetupWords : Prop :=
  ∀ (s : State) (h : Hdr) (t tl cf : BitVec 2) (cb : BitVec 3) (f32 disc : Bool) (mask : BitVec 4) (kc ka : Src) (c : Cursor)
      (j : Job) (s1 : State),
    let ctl := c.regs.src kc
    let at' := (c.regs.src ka).toNat
    let done (k : Job) : State := issued s1 c h.sig k c.value none
    c.slot = none →
    (Runs s h [] none c j s1 → s1.noTile j t = false → j.tileOwned t.toNat = false →
      exec (.tdecl h t f32 disc) s = .next (done { j with tiles := j.tiles.set t.toNat ⟨f32, disc⟩ t.isLt })) ∧
    (let k := (ctl.extractLsb' 0 5).toNat
     let e : BitVec 128 := BitVec.ofNat 128 (leNat (cellGetN j.sp at' 16) % 2 ^ (8 * k))
     let b : Codebook := ⟨true, k, ctl.getLsbD 8, e⟩
     Runs s h [kc, ka] none c j s1 → (∀ x ∈ j.layoutsOf cb, j.layoutBusy x = false) → ctl &&& 0xFFFF_FFFF_FFFF_FEE0 = 0 →
     2 ≤ k → k ≤ 16 → j.spanOk at' 16 = true → unitsTouch j.spBad at' 16 = false →
     (ctl.getLsbD 8 = true → ∀ i < k, b.entry (k - 1 - i) = -(b.entry i)) →
     exec (.cbload h cb kc ka) s = .next (done
       ((j.layoutsOf cb).foldl (fun q x => q.setLayout x { q.layout x with set := false, slots := [] })
         { j with books := j.books.set cb.toNat b cb.isLt }))) ∧
    (Runs s h [kc] none c j s1 → j.layoutBusy tl = false → tlsetCauses j ctl = [] →
      exec (.tlset h tl kc) s = .next (done (j.setLayout tl ⟨true, ctl, []⟩))) ∧
    (let d : BitVec 512 := BitVec.ofNat 512 (leNat (cellGetN j.sp at' 64))
     Runs s h [ka] none c j s1 → j.feedBusy cf = false → at' % 64 = 0 → j.spanOk at' 64 = true →
     unitsTouch j.spBad at' 64 = false → fdBad d = false → (d.extractLsb' 56 4).toNat ≤ 1 →
     exec (.cfeed h cf ka) s = .next (done (j.setFeed cf (some ⟨d, 0, 0, []⟩)))) ∧
    (Runs s h [] none c j s1 → j.feedBusy cf = false → exec (.cunfeed h cf) s = .next (done (j.setFeed cf none))) ∧
    (Runs s h [] none c j s1 →
      exec (.lwake h mask) s = .next (
        issued (if j.timed then s1 else s1.modCore j.core (wakeSubs s1.tick mask)) c h.sig j c.value none)) ∧
    (Runs s h [] (some .push) c j s1 →
      let pushes (sel : BitVec 12) (k : Job) (v : Nat) : Prop :=
        exec (.lstat h sel) s = .next (issued s1 c h.sig (k.put c .push (BitVec.ofNat 64 v)) (BitVec.ofNat 64 v) none)
      pushes 0x001 { j with rsvd := 0 } j.rsvd.toNat ∧
      (∀ sel v, sel ≠ 1 → lstatValue s1 j sel.toNat = some v → pushes sel j v) ∧
      (∀ i : Fin 4, pushes (BitVec.ofNat 12 (0x010 + i.val)) j
        (match j.feeds.get i with | some f => f.issued | none => 2 ^ 64 - 1)) ∧
      ∀ i : Fin 8, pushes (BitVec.ofNat 12 (0x030 + i.val)) j
        (let b := j.books.get i; if b.loaded then b.k + (if b.sym then 256 else 0) + 512 else 0))

/-- An LME command that passes its checks, with fewer than two unfinished and no vector write to its tile still to land
(R118), joins the queue and is not yet retired (R160, R169, R177, R178); a feed's commands take their bytes in issue order
(R175). The model's choices it rests on: log 61. -/
def Obligations.MatrixCommandWords : Prop :=
  ∀ (s : State) (h : Hdr) (t tl cf : BitVec 2) (kc ka : Src) (nb : BitVec 12) (c : Cursor) (j : Job) (s1 : State),
    let ctl := c.regs.src kc
    let va := c.regs.src ka
    let lay := j.layout tl
    let len := lmLen ctl lay.word
    let joins (k : Job) (op : LmeOp) : State :=
      inFlight s1 c h.sig { k with nextCmd := j.nextCmd + 1, lme := j.lme ++ [⟨j.nextCmd, c.pc, op, 0, false, false, 0⟩] }
        .discard j.nextCmd false false
    let tileOk (t : BitVec 2) : Prop := s1.noTile j t = false ∧ (j.tiles.get t.toFin).f32 = true ∧
      ∀ r < 32, j.board.v.getD (32 * t.toNat + r) 0 ≤ s1.tick
    let spanOk (n : Nat) : Prop := va.toNat % 64 = 0 ∧ j.spanOk va.toNat n = true
    -- R169: the control word, the tile, the scales, the table and its slots
    let lmmOk : Prop := lmCtlBad ctl = false ∧ tileOk t ∧ j.spanOk (lmAsc ctl) (32 * nb.toNat) = true ∧ lay.set = true ∧
      lmSlot0 ctl + nb.toNat * lmGpb ctl lay.word ≤ layS lay.word ∧
      slotsOk lay (lmSlot0 ctl) (nb.toNat * lmGpb ctl lay.word) (some (lmAsgn ctl)) = true
    let tableOk : Prop := tcCount ctl ≠ 0 ∧ va.toNat % 64 = 0 ∧ lay.set = true ∧ tcFirst ctl + tcCount ctl ≤ layS lay.word ∧
      j.spanOk va.toNat (tcCount ctl * laySlotBytes (j.bookOf lay.word).k lay.word) = true
    c.slot = none → j.lme.length < 2 →
    (Runs s h [kc, ka] none c j s1 →
      (lmmOk → va.toNat % 8 = 0 → j.spanOk va.toNat (nb.toNat * len) = true →
        exec (.lmm h t tl kc ka nb) s = .next (joins j (.lmm t tl (.scratch va) ctl nb 0))) ∧
      (tableOk → ctl &&& 0xFFFF_FFFE_E000_E000 = 0 → exec (.tload h tl kc ka) s = .next (joins j (.tload tl ctl va))) ∧
      (tableOk → ctl &&& 0xFFFF_FFFF_E000_E000 = 0 → slotsOk lay (tcFirst ctl) (tcCount ctl) none = true →
        exec (.tsave h tl kc ka) s = .next (joins j (.tsave tl ctl va)))) ∧
    (∀ f, Runs s h [kc] none c j s1 → lmmOk → j.feed cf = some f → nb.toNat * len ≤ fdLen f.desc - f.issued →
      exec (.lmmFeed h t tl cf kc nb) s = .next
        (joins (j.setFeed cf (some { f with issued := f.issued + nb.toNat * len })) (.lmm t tl (.feed cf) ctl nb f.issued))) ∧
    (Runs s h [ka] none c j s1 → tileOk t → spanOk 8192 →
      exec (.lspill h t ka) s = .next (joins j (.spill t va)) ∧ exec (.lfill h t ka) s = .next (joins j (.fill t va))) ∧
    (Runs s h [] none c j s1 → tileOk t → exec (.lzero h t) s = .next (joins j (.zero t)))

/-- The engine starts the head of its queue once its sub-arrays are awake and wakes those that are not, adds one K step
to each active row, completes it with its count, flags and sub-arrays' rest, or stops it on uncorrectable data, which in a
drain is recorded until the job resumes (R160, R163, R170, R177 to R181, R359); sub-arrays gate and wake, and a feed fills its
buffer (R175, R179, R258). The model's choices it rests on: logs 7, 41, 62, 64, 65, 66, 67, 89, 98. -/
def Obligations.MatrixEngineSteps : Prop :=
  ∀ (s : State) (n : Nat) (j : Job) (x : LmeCmd) (rest : List LmeCmd) (core : Nat) (sub cf : BitVec 2),
    (s.jobs[n]? = some j → j.lme = x :: rest → x.stopped = false →
      let awake := (List.finRange 4).all fun i => !x.op.subs.getLsbD i.val || ((s.core j.core).subs.get i).awake
      let stopped : State := ({ s with jobs := s.jobs.set n { j with lme := { x with stopped := true } :: rest } } : State).modCore
        j.core (restIdle x.op.subs)
      let ue : TrapRec := ⟨causeMemUe, x.pc, 0, BitVec.ofNat 64 (min x.steps (2 ^ 32 - 1) * 2 ^ 32) ||| 0x8000⟩
      (j.enginesMove = true → x.started = false →
        exec (.lmeCommandStart n) s = .next (
          if awake then { s with jobs := s.jobs.set n { j with lme := { x with started := true } :: rest } }
          else s.modCore j.core (wakeSubs s.tick x.op.subs))) ∧
      (∀ p t, j.enginesMove = true → s.gateOpen j.core = true → j.nextStep = .ready p t →
        let r := p.run t j
        let k : Job := { r.1 with
          lme := { x with steps := x.steps + 1, flags := x.flags ||| r.2.2 } :: rest
          rsvd := j.rsvd + BitVec.ofNat 64 r.2.1 }
        exec (.lmmKStepDone n) s = .next (
          if awake then { s with
            jobs := s.jobs.set n (match x.op.feed with
              | none => k
              | some f => k.setFeed f ((j.feed f).map fun q =>
                  { q with consumed := q.consumed + p.bytes.length, buf := q.buf.drop p.bytes.length })) }
          else s.modCore j.core (wakeSubs s.tick x.op.subs))) ∧
      (j.lmeOver x = true →
        let r := j.runWhole x
        exec (.lmeCommandComplete n) s = .next
          ((({ s with
              jobs := s.jobs.set n
                { r.1 with lme := rest, m := (setEntryValue j.m x.id (BitVec.ofNat 64 r.2)).orFlags x.flags } } : State).modCore
            j.core (restIdle x.op.subs)).settle n)) ∧
      (∀ u, x.started = true → j.enginesMove = true → j.nextStep = .ue u ∨ j.wholeUe x.op = some u →
        exec (.lmeAsyncFault n) s = .next (({ stopped with ueAt := some u } : State).takeTrap n .m none ue)) ∧
      (∀ u, x.started = true → j.drains = true → j.wholeUe x.op = some u →
        exec (.lmeAsyncFault n) s = .next
          (({ stopped with ueAt := some u } : State).modJob n fun k => { k with pendTrap := k.pendTrap ++ [(.m, ue)] }))) ∧
    (core < 96 →
      let q := (s.core core).subs.get sub.toFin
      let set (y : SubArray) : State := s.modCore core fun k => { k with subs := k.subs.set sub.toNat y sub.isLt }
      (s.gateDue s.tick core sub.toNat q = true → exec (.subarrayGate core sub) s = .next (set { q with awake := false })) ∧
      (∀ t, q.wakeAt = some t → t ≤ s.tick → exec (.subarrayWakeDone core sub) s = .next (set ⟨true, none, 0⟩))) ∧
    (∀ q t b, s.jobs[n]? = some j → j.feed cf = some q → j.enginesMove = true → j.feedHeld = false →
      q.consumed + q.buf.length < fdLen q.desc → q.buf.length + 8 ≤ 32768 →
      s.agentRead (whoOf n j .m none 0) (fdAddr q.desc (q.consumed + q.buf.length)) 8 false false = .ok t b →
      exec (.feedFetch n cf) s = .next { t with
        jobs := s.jobs.set n (j.setFeed cf (some { q with buf := q.buf ++ b.map fun y => (y, 0) })) })

/-! ### Copies and the Sluice -/

/-- A command of L or S that passes its checks and finds a place joins the commands in flight with its shape and
operands as of its issue, and is not yet retired (R185, R186, R193 to R203); CPYO's append form reserves its bytes first
(R194). The model's choices it rests on: logs 33, 34, 35, 36, 37, 39, 40. -/
def Obligations.CopyCommandWords : Prop :=
  ∀ (s : State) (h : Hdr) (d : Dest) (sh : BitVec 3) (km ks kn : Src) (l1 : Bool) (op : FlushOp) (c : Cursor) (j : Job) (s1 : State),
    let r := j.shapeReg c.stream sh
    let a := c.regs.src km
    let x := c.regs.src ks
    let sp := x.toNat
    let n := (c.regs.src kn).toNat
    let new (o : CopyOp) : Cmd := Cmd.fresh c j.nextCmd o r a x (c.regs.src kn)
    let joins (t : State) (strict : Bool) (y : Cmd) : State :=
      inFlight t c h.sig { j with nextCmd := j.nextCmd + 1, cmds := j.cmds ++ [y] } d j.nextCmd strict true
    let base := effBase r a
    let last := elemAt r (copyElems r n - 1)
    let range := dispRange r n
    let ordered (first final : Nat) : Prop :=
      n = 0 ∨ ((shAcq r = true → first % shEsz r = 0) ∧ (shRel r = true → final % shEsz r = 0))
    let copyOk (out : Bool) : Prop := pathCauses ⟨out, none⟩ r a = [] ∧ n ≤ shExt r 3 ∧ j.spanOk sp (copySpan r n) = true ∧
      ownSpanBad j r a range.1 (range.2 + shEsz r) n = false
    c.slot = none → s1.coreInflight j.core < 128 → j.cmds.length < 128 →
    (Runs s h [km, ks, kn] (some d) c j s1 →
      (copyOk false → ordered base.toNat (sp + last.2) →
        exec (.cpy h d sh km ks kn) s = .next (joins s1 false { new .cpy with spent := n == 0, count := n })) ∧
      (copyOk true → ordered sp (displace base last.1).toNat →
        exec (.cpyo h d sh km ks kn) s = .next (joins s1 false { new .cpyo with spent := n == 0, count := n })) ∧
      (∀ desc off s2, a.toNat < 4 → j.append.get (a.extractLsb' 0 2).toFin = some desc → n ≤ shExt r 3 →
        j.spanOk sp (copySpan r n) = true →
        s1.apReserve (c.who j) desc (copyElems r n * shEsz r) = .ok s2 (.inl off) →
        exec (.cpyoAppend h d sh km ks kn) s = .next (joins s2 false
          { new .cpyoAppend with spent := n == 0, count := copyElems r n * shEsz r, off := off, desc := [desc] })) ∧
      -- CPYC: its descriptor lies at K[kn] in the scratchpad
      (let head := leNat (cellGetN j.sp n 64)
       let len := 64 + 8 * cvNops head
       let desc := (List.range (len / 8)).map fun i => (BitVec.ofNat 64 (leNat (cellGetN j.sp (n + 8 * i) 8)) : Word)
       let g := cvRange desc 5
       let im := cvRange desc 0
       pathCauses ⟨false, none⟩ r a = [] → n % 64 = 0 → j.spanOk n 64 = true → j.spanOk n len = true →
       unitsTouch j.spBad n len = false → cvHeadBad head = false → (cvOps desc).any cvOpBad = false →
       orderCauses r (match cvPixel desc (shEsz r) 0 with
         | .image x => some (displace base x).toNat
         | _ => none) (some sp) = [] →
       0 ≤ g.1 → g.2 < cvNg head →
       j.spanOk sp (cvPixels desc * cvCg head * shEsz r) = true →
       (shStrict r = true → 0 ≤ im.1 ∧ im.2 < cvN head) →
       (∀ q, cvSpan desc (shEsz r) = some q → ownSpanBad j r a q.1 q.2 1 = false) →
       exec (.cpyc h d sh km ks kn) s = .next (joins s1 false { new .cpyc with desc := desc, count := cvPixels desc })) ∧
      -- the Sluice: rows and vector of K[ks]
      (let rows := (x.extractLsb' 0 22).toNat
       let vec := (x.extractLsb' 32 22).toNat
       let common (outRows : Nat) (scat : Bool) : Prop := shRowsz r ≠ 0 ∧ x &&& 0xFFC0_0000_FFC0_0000 = 0 ∧
         pathCauses ⟨scat, some causeProtection⟩ r a = [] ∧ a.toNat % 8 = 0 ∧ shStride r 0 % 8 = 0 ∧ rows % 8 = 0 ∧
         vec % slWidth r = 0 ∧ n < 2 ^ 24 ∧ j.spanOk vec (n * slWidth r) = true ∧ j.spanOk rows (outRows * shRowsz r) = true ∧
         j.spanOk (shFvec r) (8 * shFvcap r) = true
       (common n false → exec (.gath h d sh km ks kn) s = .next (joins s1 (shStrict r) { new .gath with spent := n == 0 })) ∧
       (common n true → exec (.scat h d sh km ks kn) s = .next (joins s1 (shStrict r) { new .scat with spent := n == 0 })) ∧
       (let bags := bagOffsets j r
        common (shNbag r) false → shPool r ≠ 0 → j.spanOk (shBags r) (4 * (shNbag r + 1)) = true → bagsBad bags n = false →
        unitsTouch j.spBad (shBags r) (4 * (shNbag r + 1)) = false →
        exec (.gathp h d sh km ks kn) s =
          .next (joins s1 (shStrict r) { new .gathp with list := bags, spent := shNbag r == 0 })))) ∧
    (Runs s h [km, kn] (some d) c j s1 → pathCauses ⟨false, some causeIllegal⟩ r a = [] → shAcq r = false → shRel r = false →
      n ≤ shExt r 3 →
      let walk (o : CopyOp) : Cmd := { Cmd.fresh c j.nextCmd o r a 0 (c.regs.src kn) with spent := true }
      exec (.pref h d sh km kn l1) s = .next (joins s1 false (walk (.pref l1))) ∧
      exec (.cflush h d sh km kn op) s = .next (joins s1 false (walk (.cflush op))))

/-- SHAPE loads a sound record (R182, R183); CWAIT lets the word pass once few enough commands of its stream are in
flight (R192); CSTAT reads its counts, and clears the one it reads for selector 3 (R199). A command goes on by its units
of work while nothing holds it, completes with its count, its fault vector and its exceptions, so that the retire that
waited for it may follow, or stops at its last completed unit, all of whose bytes are written, and raises its cause, which for
a translation failure it does in a job of a timed launch only (R185, R188, R191, R204, R305, R313); a PREF of host memory
first asks for the lines it lacks (R391). The model's choices it rests on: logs 38, 41, 42. -/
def Obligations.CopyControlAndSteps : Prop :=
  (∀ (s : State) (h : Hdr) (d : Dest) (sh : BitVec 3) (ks : Src) (c : Cursor) (j : Job) (s1 : State),
    let at' := (c.regs.src ks).toNat
    let r : BitVec 512 := BitVec.ofNat 512 (leNat (cellGetN j.sp at' 64))
    let mine := (j.cmds.filter fun x => x.stream == c.stream).length
    let out (k : Job) (v : Word) : State := issued s1 c h.sig (k.put c d v) v none
    c.slot = none →
    (Runs s h [ks] none c j s1 → at' % 64 = 0 → j.spanOk at' 64 = true → unitsTouch j.spBad at' 64 = false → shapeBad r = false →
      exec (.shape h sh ks) s = .next (issued s1 c h.sig (j.setShape c.stream sh r) c.value none)) ∧
    (Runs s h [ks] none c j s1 → mine ≤ at' → exec (.cwait h ks) s = .next (issued s1 c h.sig j c.value none)) ∧
    (Runs s h [] none c j s1 → mine = 0 → exec (.cwaitAll h) s = .next (issued s1 c h.sig j c.value none)) ∧
    (Runs s h [] (some d) c j s1 →
      exec (.cstat h d 0) s = .next (out j (BitVec.ofNat 64 mine)) ∧
      exec (.cstat h d 1) s = .next (out j (BitVec.ofNat 64 (s1.coreInflight j.core))) ∧
      exec (.cstat h d 2) s = .next (out j (j.stream c.stream).retired) ∧
      exec (.cstat h d 3) s = .next (out { j with overflow := 0 } j.overflow))) ∧
  (∀ (s : State) (n id : Nat) (j : Job) (x : Cmd),
    s.jobs[n]? = some j → j.cmd? id = some x →
    (j.enginesMove = true → x.works = true → j.cmdHeld x = false →
      let w := x.who n j
      -- it stops: what walks have left stands, what its last unit has left is written, and it raises the cause
      let stops (t : State) (cause : BitVec 8) : State :=
        ((({ s.keepWalks w t with ueAt := t.ueAt } : State).flushCmd w x).modJob n fun k =>
          (k.putFaults x).setCmd { x with stopped := true, held := [], fore := [] }).asyncTrap n x.stream
            ⟨cause, x.pc, 0, BitVec.ofNat 64 (min x.prog (2 ^ 32 - 1) * 2 ^ 32) ||| 0x8000⟩
      (∀ t y, s.runUnit n j x = .ok t y →
        (x.op.isSluice = true → exec (.sluiceBatch n id) s = .next (t.setCmd n y)) ∧
        (x.op.isSluice = false → s.copySegment n id = t.setCmd n y)) ∧
      (∀ t cause, s.runUnit n j x = .fault t cause → exec (.commandAsyncFault n id) s = .next (stops t cause)) ∧
      (∀ t v k l, s.runUnit n j x = .susp t v k l → j.timed = true →
        exec (.commandAsyncFault n id) s = .next (stops t causeTranslation))) ∧
    (x.spent = true → x.done = false → x.stopped = false → j.enginesMove = true ∨ (j.drains = true ∧ x.op.isWalk = true) →
      let asks := s.prefAsks (x.who n j) x
      let w := if x.op.isWalk then s.walkAll (x.who n j) x else (s, x.count)
      exec (.commandComplete n id) s = .next
        (if asks = [] then
          ({ w.1 with
            jobs := s.jobs.set n
              (let k := (j.putFaults x).setCmd { x with done := true, count := w.2 }
               k.setStream x.stream ((setEntryValue (k.stream x.stream) id (BitVec.ofNat 64 w.2)).orFlags x.flags)) } : State).settle n
        else { s with cxl := s.cxl ++ (asks.filterMap fun q => q).dedup })))

/-! ### Steps of the streams and of translation -/

/-- A ring takes the first word ahead of the PC that it lacks (R249); a timed word of a timed job that missed its cycle
traps with SCHEDULE_MISS at its address (R57), and streams that all wait for each other with DEADLOCK in C (R244), each
trap as R226 has it; a timed job past its budget is aborted with SCHEDULE_MISS and TINFO.BUDGET (R237); and a walk keeps
its leaf (R374). The service of translation failures by an agent that may (R376): RESUME lets the suspended jobs of a
core number walk again, ABORT aborts the one named with TRANSLATION, each record the Crumb takes or cannot read moves
FAULTHEAD on;
INVLEN starts an invalidation and its end, once no access of the context is still on its way over a port, drops the context's
translations from every core and stop (R377); a frame copy that a checkpoint copy asks for gives the new frame the old one's
bytes and changes no other (R424); a new context has its descriptor written (R369). The model's choices it rests on: logs
22, 24, 68, 69, 71, 84, 94. -/
def Obligations.StreamAndTranslationSteps : Prop :=
  (∀ (s : State) (n : Nat) (x : StreamId) (j : Job), s.jobs[n]? = some j →
    let caught (y : StreamId) (r : TrapRec) : State :=
      { trapTaken s (Cursor.start n y none j 1) r with cursor := s.cursor }
    (∀ a s1 w, j.phase = .running ∨ j.phase = .loading → (j.stream x).atJoin = false → (x = .c → j.loop = none) →
      firstMissing (j.stream x) (j.stream x).ringAhead (j.stream x).pc = some a → s.fetchAt (whoOf n j x none a) a = .ok s1 w →
      exec (.ringFetch n x) s = .next (s1.modRegs n x none fun t => t.ringPut a w)) ∧
    (∀ ws wt, j.timed = true → j.phase = .running → j.handler = none → j.susp = none → j.draining = false →
      (j.stream x).atJoin = false → (j.stream x).skip = false → (j.stream x).inside = false → (x = .c → j.loop = none) →
      j.jstart ≤ s.tick → bundleAt (j.stream x) x 4 (j.stream x).pc = .inl ws → bundleIllegal x ws = none →
      (∀ w ∈ ws, judgedAtIssue w = false) → Wait.ofByte (fld (ws.headD 0) 56 8) = some wt → (∃ r, applyWait wt j s.tick x = r ∧ r = .miss) →
      (j.stream x).thandler ≠ 0 →
      exec (.timedTargetMiss n x) s = .next (caught x ⟨causeScheduleMiss, (j.stream x).pc, 0, 0⟩)) ∧
    (j.deadlocked s.tick = true → j.c.thandler ≠ 0 →
      exec (.queueDeadlock n) s = .next (caught .c ⟨causeDeadlock, j.waitPc s.tick, 0, 0⟩)) ∧
    (j.timed = true → j.phase = .running ∨ j.phase = .loading → j.jstart + j.budget ≤ s.tick → j.loop = none →
      ∃ t k, exec (.budgetExpiry n) s = .next t ∧ t.jobs[n]? = some k ∧ k.phase = .aborted ∧
        k.fault = some (.c, ⟨causeScheduleMiss, j.c.pc, 0, 2⟩) ∧ k.c.tcause = 0x09 ∧ k.c.tpc = j.c.pc ∧ k.c.tinfo = 2 ∧
        t.mem = s.mem) ∧
    (∀ va kind s1 p, j.phase = .running → va.toNat / 2 ^ 56 ≤ 2 →
      s.translate (whoOf n j .c none 0) va (if kind = .write then .read else kind) = .ok s1 p →
      exec (.tableWalk n va kind) s = .next s1)) ∧
  (∀ (s : State) (a : Agent) (part : Nat) (p : Part), s.parts[part]? = some p →
    (∀ core, s.hears a = true → p.services part a = true →
      ∃ t, exec (.resume a part core) s = .next t ∧ t.mem = s.mem ∧ t.jobs.length = s.jobs.length ∧
        ∀ (n : Nat) (j : Job), s.jobs[n]? = some j →
          t.jobs[n]? = some (if (j.suspAt part core).isSome then { j with susp := none } else j)) ∧
    (∀ (core n : Nat) (j : Job) (f : Susp), s.hears a = true → p.services part a = true → s.jobs[n]? = some j → j.suspAt part core = some f →
      j.phase = .running → (∀ (m : Nat) (k : Job), m ≠ n → s.jobs[m]? = some k → k.suspAt part core = none) →
      ∃ t k, exec (.abort a part core) s = .next t ∧ t.mem = s.mem ∧ t.jobs[n]? = some k ∧ k.phase = .aborted ∧ k.susp = none ∧
        k.fault = some (f.stream, ⟨causeTranslation, f.tpc, 0, 0⟩)) ∧
    (∀ resume frame, p.fsvc = false → s.crumbDown part = false → p.faulthead ≠ p.faulttail →
      let recAt := p.faultq.toNat + 32 * (p.faulthead.toNat % Config.faultQueueSize)
      s.ownerOf recAt = some part → s.unreadable recAt 32 = true ∨
        (s.hostHolds recAt 32 = false ∧ s.serviceWaits part (leNat (s.readPhys recAt 32)) frame = false) →
      ∃ t q, exec (.faultService part resume frame) s = .next t ∧ t.parts[part]? = some q ∧ q.faulthead = p.faulthead + 1) ∧
    (∀ ctx va len, s.hears a = true → p.writable part a = true →
      exec (.invalidate a part ctx va len) s = .next { s with
        parts := s.parts.set part { p with invctx := ctx.setWidth 64, invva := va, invlen := len, invdone := false } }) ∧
    (p.invdone = false → s.inFlight part (p.invctx.setWidth 16) = false →
      ∃ t, exec (.invalidationDone part) s = .next t ∧ t.mem = s.mem ∧ t.jobs = s.jobs ∧
        t.parts = s.parts.set part { p with invdone := true } ∧
        (p.invlen = 0 → ∀ c : Fin 96, ∀ e ∈ (t.cores.get c).tlb, e.part ≠ part ∨ e.ctx ≠ p.invctx.setWidth 16)) ∧
    (∀ src dst, s.Inv → src ≠ dst → s.ownerOf (src * 2 ^ 16) = some part → s.ownerOf (dst * 2 ^ 16) = some part →
      s.crumbDown part = false → (∃ r ∈ s.faultRecords p, s.copiesFrame part r src = true) → p.holdsFrame dst 1 = false →
      s.hostHolds (src * 2 ^ 16) (2 ^ 16) = false → s.hostHolds (dst * 2 ^ 16) (2 ^ 16) = false →
      ∃ t, exec (.frameCopy src dst) s = .next t ∧
        (∀ i, i < 2 ^ 16 → t.readPhys (dst * 2 ^ 16 + i) 1 = s.readPhys (src * 2 ^ 16 + i) 1) ∧
        ∀ x, x < dst * 2 ^ 16 ∨ (dst + 1) * 2 ^ 16 ≤ x → t.readPhys x 1 = s.readPhys x 1) ∧
    (∀ ctx root key, s.ctxValid part ctx = false → s.crumbDown part = false →
      areaBytes * 8 * p.stops.length ≤ s.partMem part → s.ownerOf (p.ctxbase.toNat + 16 * ctx.toNat) = some part →
      exec (.contextCreate part ctx root key) s =
        .next ((s.writePhys (p.ctxbase.toNat + 16 * ctx.toNat)
          (leBytes 16 (1 + key.toNat * 2 ^ 12 + root % 2 ^ 36 * 2 ^ 16))).modPart part fun q =>
            { q with contexts := ctx :: q.contexts.filter (fun c => c ≠ ctx), images := q.images.filter fun i => i.1 ≠ ctx })))

/-! ### Launches -/

/-- A launch from its Inlet to its completion record: a consumed record takes the next sequence number, its slot is
zeroed, HEAD moves on, a malformed one ends with its check's number, an accepted one has its number written to SEQPTR where it
names one, and a LAUNCH that posted it receives the number (R215, R332, R335, R336); a write of the number that has to wait is made
again before anything else; a launch whose number is written and
whose predecessors have completed is ready, one with a failed predecessor is cancelled, a timed one without room is rejected
(R337, R346); a team dispatched is placed with one JSTART and its jobs start then (R230, R339, R347); a drained launch's
record goes to its Outlet, with its vector where it asks for one, or waits for room, or is logged (R341 to R343). The model's
choices it rests on: logs 72, 73, 74, 75, 76, 77. -/
def Obligations.LaunchSteps : Prop :=
  ∀ (s : State) (part : Nat) (p : Part), s.parts[part]? = some p →
    (∀ i : BitVec 2,
      let base := s.inletBase part i
      let n := s.inletHead base
      let slot := inletSlot base (s.inletSize base) n
      let r : BitVec 2048 := BitVec.ofNat 2048 (leNat (s.readPhys slot 256))
      let seq : Word := p.epoch ++ BitVec.ofNat 48 (p.count + 1)
      let poster := p.posted.find? fun q => q.inlet == i && q.n == n
      let bad := s.malformed p r seq (poster.map (·.ctx))
      let l := match bad with
        | some k => (Launch.fresh seq i r).close 3 (BitVec.ofNat 8 k)
        | none => Launch.fresh seq i r
      let taken := ((s.writePhys slot (leBytes 8 0)).writePhys (base + 8) (leBytes 8 (n + 1))).modPart part fun q =>
        { q with count := q.count + 1, consumeAt := s.tick + 16, launches := q.launches ++ [l]
                 posted := q.posted.filter fun z => !(z.inlet == i && z.n == n) }
      let numbered := if bad.isSome = true ∨ lrSeqptr r = 0 then taken else taken.writeSeq part l
      p.resetting = false → p.consumeAt ≤ s.tick → s.inletHolds part i = true →
      (∀ k, k < i.toNat → s.inletHolds part (BitVec.ofNat 2 k) = false) →
      exec (.inletConsume part i) s = .next (match poster with
        | none => numbered
        | some q => (numbered.modJob q.job (Job.launched q.cmd seq)).settle q.job)) ∧
    (∀ seq l, s.launch? part seq = some l → p.resetting = false →
      let prior := (List.range 4).map (lrPred l.record)
      let put (f : Launch → Launch) : State := s.modLaunch part seq f
      (l.phase = .waiting → l.seqDue = true → exec (.launchReady part seq) s = .next (s.writeSeq part l)) ∧
      (l.phase = .waiting → l.seqDue = false →
        (lrPredok l.record = true → (∃ q ∈ prior, p.predFailed q = true) →
          exec (.launchReady part seq) s = .next (put fun q => q.close 4 0)) ∧
        ((∀ q ∈ prior, p.predDone q = true ∧ (lrPredok l.record = true → p.predFailed q = false)) →
          (lrClass l.record ≠ 1 → exec (.launchReady part seq) s = .next (put fun q => { q with phase := .ready })) ∧
          (lrClass l.record = 1 → s.admission p l.record = none →
            exec (.launchReady part seq) s = .next (put fun q => q.close 2 0)) ∧
          (∀ cores, lrClass l.record = 1 → s.admission p l.record = some cores →
            exec (.launchReady part seq) s = .next
              ((put fun q => { q with phase := .ready, admitted := some (s.tick + s.clearTime cores), cores := cores }).clearCores cores)))) ∧
      (∀ t cores jstart, l.nextRun = some t → (l.teams.any fun q => q.index == t && q.phase == .swapped) = false →
        l.wants = true → lrClass l.record ≠ 2 → (lrClass l.record = 1 → s.timedStart l cores jstart = true) →
        p.heads l = true → s.tick ≤ jstart → s.l1HeldAny cores = false →
        placementOk (s.mayTake p l) (lrProof l.record) (lrTeam l.record) cores = true → s.rerunCoresOk p l t cores = true →
        (l.phase = .running →
          exec (.teamDispatch part seq cores jstart) s = .next (s.placeTeam p part l t cores jstart)) ∧
        (∀ s1 args, l.phase ≠ .running → s.readArgs part l = .ok s1 args →
          exec (.teamDispatch part seq cores jstart) s =
            .next (s1.placeTeam p part { l with args := args } t cores jstart))) ∧
      (l.phase = .draining → s.writesOut part seq = false → s.drainHeld part = false → l.seqDue = true →
        exec (.completionRecordWrite part seq) s = .next (s.writeSeq part l)) ∧
      (l.phase = .draining → s.writesOut part seq = false → s.drainHeld part = false → l.seqDue = false →
        let done (l1 : Launch) (t : State) : State := t.modLaunch part seq fun _ => { l1 with phase := .complete }
        (l.judged.status = 3 → outletBad l.judged.record = true →
          exec (.completionRecordWrite part seq) s = .next (done l.judged ((s.drainLaunch part seq).logError { ErrRec.blank with
            kind := 8, unit := 0xC, seq := seq, ctx := lrCtx l.judged.record, syn := l.judged.cause.toNat
            detail := lrOutlet l.judged.record }))) ∧
        (∀ t, (s.drainLaunch part seq).postRecord part l.judged = .ok t none →
          ¬(l.judged.status = 3 ∧ outletBad l.judged.record = true) →
          exec (.completionRecordWrite part seq) s = .next (t.modLaunch part seq fun q => { q with late := true })) ∧
        (∀ t vec, (s.drainLaunch part seq).postRecord part l.judged = .ok t (some vec) →
          ¬(l.judged.status = 3 ∧ outletBad l.judged.record = true) →
          exec (.completionRecordWrite part seq) s =
            .next (done l.judged (if lrIrq l.judged.record then t.sendMsix p.owner vec else t))) ∧
        (∀ t, (s.drainLaunch part seq).postRecord part l.judged = .wait t →
          ¬(l.judged.status = 3 ∧ outletBad l.judged.record = true) →
          exec (.completionRecordWrite part seq) s = .next t) ∧
        (∀ e u, (s.drainLaunch part seq).postRecord part l.judged = .fail e u →
          ¬(l.judged.status = 3 ∧ outletBad l.judged.record = true) →
          exec (.completionRecordWrite part seq) s = .next (done l.judged
            ((s.drainLaunch part seq).luForget.logUnwritten seq (lrCtx l.judged.record) (lrOutlet l.judged.record) e))))) ∧
    (∀ (n : Nat) (j : Job), s.jobs[n]? = some j → j.phase = .loading → j.jstart ≤ s.tick → j.urgent = false →
      exec (.jobStart n) s = .next ((({ s with jobs := s.jobs.set n { j with phase := .running } } : State).modCore j.core fun k =>
        { k.runs (j.mem.part, j.mem.ctx) with lgateAt := s.tick }).modLaunch j.mem.part j.mem.seq fun l =>
          if l.start = 0 then { l with start := j.jstart } else l)) ∧
    (∀ (n : Nat) (j : Job), s.jobs[n]? = some j → j.phase = .loading → j.jstart ≤ s.tick → j.urgent = true →
      n ∈ s.teamJobs n j → s.victimsStill (s.teamJobs n j) = true →
      ∃ t k, exec (.jobStart n) s = .next t ∧ t.jobs[n]? = some k ∧ k.phase = .running ∧ k.jstart = s.tick ∧
        k.c.stamp = s.tickWord ∧ t.mem = s.mem)

/-- What R229, R159, R165, R182, R219 and R230 give a job's registers at its start. What a team's placement makes of its
jobs (R229, R230, R339): as many as the team has are added, numbered in order, each with its index, linear number, the
launch's arguments and its indices in C's registers, and the one JSTART, running at once where that is now; and what a completion record says (R343). The
model's choices it rests on: logs 5, 75, 78. -/
def Obligations.FirstWordValuesAndRecord : Prop :=
  ((∀ x : StreamId, (Job.reset.stream x).fpctl = 0x000D_0000 ∧ (Job.reset.stream x).fpflg = 0 ∧ (Job.reset.stream x).age = 256 ∧
    (Job.reset.stream x).lgate = 4096 ∧ (Job.reset.stream x).tcause = 0 ∧ (Job.reset.stream x).tpc = 0 ∧
    (Job.reset.stream x).tinfo = 0 ∧ (Job.reset.stream x).tlane = 0 ∧ (Job.reset.stream x).thandler = 0 ∧
    (Job.reset.stream x).rstack = []) ∧
  Job.reset.c.tresume = 0 ∧
  (∀ i : Fin 16, Job.reset.pacc.get i = BitVec.allOnes 64) ∧
  (∀ i : Fin 4, (Job.reset.layouts.get i).set = false ∧ Job.reset.feeds.get i = none ∧ Job.reset.append.get i = none) ∧
  (∀ i : Fin 8, (Job.reset.books.get i).loaded = false) ∧
  (∀ i : Fin 25, Job.reset.tokens.get i = [] ∧ Job.reset.queues.get i = [])) ∧
  ((∀ (s : State) (p : Part) (part : Nat) (l : Launch) (t : Nat) (cores : List Nat) (jstart i : Nat),
    placementOk (fun _ => true) (lrProof l.record) (lrTeam l.record) cores = true → i < lrTeam l.record → s.tick ≤ jstart →
    let u := s.placeTeam p part l t cores jstart
    let linear := lrTeam l.record * t + i
    (s.Inv → u.Inv) ∧ u.tick = s.tick ∧ u.jobs.length = s.jobs.length + lrTeam l.record ∧
    ∃ j, u.jobs[s.jobs.length + i]? = some j ∧ (s.tick < jstart → j.phase = .loading) ∧
      (s.tick = jstart → lrClass l.record ≠ 2 → j.phase = .running) ∧ j.jstart = jstart ∧ j.mem.index = i ∧ j.mem.linear = linear ∧
      j.mem.team = t ∧ j.mem.seq = l.seq ∧ j.core = cores.getD ((1 + lrProof l.record) * i) 0 ∧
      (∀ m : Fin 8, j.c.k.get ⟨m.val, by omega⟩ = l.args.get m) ∧
      (∀ x : StreamId, (j.stream x).k.get 11 = BitVec.ofNat 64 linear ∧ (j.stream x).stamp = BitVec.ofNat 64 jstart ∧
        (lrEntry l.record x.num = 0xFFFF_FFFF → (j.stream x).atJoin = true) ∧
        (lrEntry l.record x.num ≠ 0xFFFF_FFFF → (j.stream x).atJoin = false ∧
          (j.stream x).pc = lrCode l.record + BitVec.ofNat 64 (lrEntry l.record x.num)))) ∧
  (∀ (l : Launch) (now : Nat), l.start < 2 ^ 64 → l.finish < 2 ^ 64 →
    let w := leNat (completionBytes l now)
    (completionBytes l now).length = 64 ∧ bitsOf w 63 0 = l.seq.toNat ∧ bitsOf w 71 64 = l.status.toNat ∧
    bitsOf w 87 80 = l.cause.toNat ∧ bitsOf w 127 96 = l.job.toNat ∧ bitsOf w 191 128 = l.tpc.toNat ∧
    bitsOf w 255 192 = l.tinfo.toNat ∧ bitsOf w 319 256 = (lrUsertag l.record).toNat ∧ bitsOf w 383 320 = l.start ∧
    bitsOf w 447 384 = l.finish))

/-! ### Scheduling, swaps and urgent pre-emption -/

/-- The longest-resident team whose quantum has passed is to be swapped out, each of its jobs within 23,000 cycles
(R224, R351); at the window's end its jobs drain; drained, what its commands have left written, its state is saved and its core
freed, its marked regions reading zero (R224, R363 to R365); restored, its jobs run together from the next cycle on, their rings filled (R366). An urgent team freezes
the jobs of its cores, which go on when no urgent job is on their cores or waits for one (R360, R362); a bank-mode job is
preloaded into the idle bank (R251); and L1s are fused with nothing in them (R263). The model's choices it rests on: logs 79, 80, 81, 103. -/
def Obligations.SchedulingSteps : Prop :=
  (∀ (s : State) (part : Nat) (p : Part) (seq : Word) (l : Launch),
    s.parts[part]? = some p → s.launch? part seq = some l →
    (∀ team q, l.teams.find? (fun z => z.index == team) = some q → s.sliceDue p l q = true →
      (∀ o ∈ p.launches, ∀ z ∈ o.teams, s.sliceDue p o z = true → q.since ≤ z.since) →
      ∃ t, exec (.quantumExpiry part seq team) s = .next t ∧ t.mem = s.mem ∧
        ∀ n ∈ q.jobs, ∀ j, s.jobs[n]? = some j →
          j.phase = .running ∨ j.phase = .loading → j.swapAt = none → j.draining = false →
          t.jobs[n]? = some { j with swapAt := some (s.tick + 23000), swapBy := s.tick + Config.tClear }) ∧
    (∀ team q cores, l.teams.find? (fun z => z.index == team) = some q → q.phase = .swapped → p.resetting = false →
      l.nextRun = some team → p.heads l = true → q.jobs.Nodup →
      (∀ n ∈ q.jobs, ∃ j, s.jobs[n]? = some j ∧ j.phase = .swapped ∧ j.pendTrap = []) →
      placementOk (s.mayTake p l) (lrProof l.record) q.jobs.length cores = true → s.l1HeldAny cores = false →
      ∃ t, exec (.teamRestore part seq team cores) s = .next t ∧ (s.Inv → t.Inv) ∧
        ∀ (n i : Nat) (j : Job), q.jobs[i]? = some n → s.jobs[n]? = some j →
          ∃ k, t.jobs[n]? = some k ∧ k.phase = .running ∧ k.core = cores.getD ((1 + lrProof l.record) * i) 0 ∧
            k.mem = j.mem ∧ k.sp = j.sp ∧ k.v = j.v ∧ k.tokens = j.tokens ∧ k.queues = j.queues ∧
            ∀ x : StreamId, ∃ ring, k.stream x =
              { j.stream x with notBefore := max (j.stream x).notBefore (s.tick + 1), ring := ring }) ∧
    (∀ team cores jstart, l.nextRun = some team → p.resetting = false → l.wants = true → lrClass l.record = 2 → p.heads l = true →
      s.tick + 64 ≤ jstart → placementOk (s.mayPreempt p) (lrProof l.record) (lrTeam l.record) cores = true →
      s.helpersFree (lrProof l.record) cores = true →
      s.rerunCoresOk p l team cores = true →
      (l.phase = .running →
        exec (.urgentPlace part seq cores jstart) s =
          .next ((cores.foldl State.freeze s).placeTeam p part l team cores jstart)) ∧
      (∀ s1 args, l.phase ≠ .running → s.readArgs part l = .ok s1 args →
        exec (.urgentPlace part seq cores jstart) s =
          .next ((cores.foldl State.freeze s1).placeTeam p part { l with args := args } team cores jstart))) ∧
    (∀ (core lin n : Nat) (j : Job) (b : Bool), p.stops.contains (stopOf core) = true → core < 96 → lrBank l.record = true →
      lrClass l.record ≠ 2 → l.wants = true → (s.core core).normal = some n → s.jobs[n]? = some j → j.bank = some b →
      (s.core core).preload = none → l.queue = [] → l.nextRun = some (lin / lrTeam l.record) →
      ∃ t q, exec (.bankPreload part seq core lin) s = .next t ∧ (t.core core).preload = some q ∧ q.part = part ∧ q.seq = seq ∧
        q.linear = lin ∧ q.bank = !b)) ∧
  ((∀ (s : State) (n due : Nat) (j : Job), s.jobs[n]? = some j → j.swapAt = some due → j.phase = .running → due ≤ s.tick →
    exec (.swapWindowExpiry n) s = .next { s with jobs := s.jobs.set n { j with swapAt := none, draining := true } }) ∧
  (∀ (s : State) (n : Nat) (j0 j : Job), s.jobs[n]? = some j0 → j0.phase = .running → j0.draining = true →
    (s.flushCmds n).jobs[n]? = some j → (s.flushCmds n).drained n j = true → (s.flushCmds n).l1HeldAny (j0.core :: j0.helpers) = false →
    j.loop = none →
    ∃ t k, exec (.swapOutSave n) s = .next t ∧ t.jobs[n]? = some k ∧ k.phase = .swapped ∧ k.draining = false ∧
      (t.core j.core).normal ≠ some n ∧ k.mem = j.mem ∧ k.tokens = j.tokens ∧ k.queues = j.queues ∧ k.lost = j.lost ||| j.discmap ∧
      (∀ x : StreamId, k.stream x = { j.stream x with ring := [] }) ∧
      (∀ a, marked j.discmap (a / 4096) = true → ∀ c ∈ k.sp, c.1 ≠ a) ∧
      (∀ c ∈ j.sp, marked j.discmap (c.1 / 4096) = false → c ∈ k.sp)) ∧
  (∀ (s : State) (core n : Nat) (j : Job), (s.core core).holder = some n → s.jobs[n]? = some j → j.victim = true →
    j.pendTrap = [] → (∀ c ∈ j.core :: j.helpers, s.heldUrgent c = false ∧ s.urgentWaits c = false) →
    let go (t : StreamSt) : StreamSt := { t with notBefore := max t.notBefore (s.tick + 1) }
    exec (.victimResume core) s = .next (({ s with
      jobs := s.jobs.set n { j with
        victim := false, c := go j.c, l := go j.l, vs := go j.vs, m := go j.m, s := go j.s
        loop := j.loop.map fun lp => { lp with slots := lp.slots.map fun sl => { sl with regs := go sl.regs } } } } :
      State).modCore j.core fun k => { k.runs (j.mem.part, j.mem.ctx) with lgateAt := s.tick })) ∧
  (∀ (s : State) (stop : Nat) (fuse : Bool), stop < 12 → s.fusionWanted stop = fuse → (s.core (8 * stop)).fused ≠ fuse →
    s.l1HeldAny ((List.range 8).map (8 * stop + ·)) = false →
    ∃ t, exec (.l1FusionChange stop fuse) s = .next t ∧ t.jobs = s.jobs ∧
      ∀ i, i < 8 → (t.core (8 * stop + i)).fused = fuse ∧ (t.core (8 * stop + i)).l1 = []))

/-! ### Host ports, peers and the control space -/

/-- A host's access within a line reaches the device address its window gives, where its port may and, if the other port holds
the line exclusively, once it has let it go; else it is refused, logged and, a read, answered with an error; a peer's is the
same but is not tracked (R387 to R390, R397). Answers to the
device's own requests come in their order (R286, R391); a snoop hands a line back, with what an L1 has written of it; a link that
goes down ends its requests without an answer, and each write among them is logged; one that trains again is logged, and what was
held for it goes out (R391, R412, R435). The model's choices it rests on: logs 84, 86. -/
def Obligations.HostPortSteps : Prop :=
  ∀ (s : State) (port : Bool) (addr n : Nat) (data : List Byte),
    (s.linkIsUp port = true →
      (∀ pa, s.hostToDevice port addr = some pa → s.portReaches port pa = true →
        (s.portHolds (!port) (lineOf pa) true = false →
          (oneLine addr n = true → s.memPoisoned pa n = false →
            exec (.hostMemRead port addr n) s = .next
              ((s.reply (.data (s.readPhys pa n))).track port (lineOf pa) (s.portHolds port (lineOf pa) true)) ∧
            exec (.peerRequest port addr n none) s = .next (s.reply (.data (s.readPhys pa n)))) ∧
          (oneLine addr n = true → s.memPoisoned pa n = true →
            exec (.hostMemRead port addr n) s = .next (s.reply .poison)) ∧
          (oneLine addr data.length = true →
            let t := s.writePhys pa data
            exec (.hostMemWrite port addr data) s = .next (t.reply .done) ∧
            exec (.peerRequest port addr n (some data)) s = .next (t.reply .done))) ∧
        (s.portHolds (!port) (lineOf pa) true = true →
          (oneLine addr n = true → exec (.hostMemRead port addr n) s = .next s) ∧
          (oneLine addr data.length = true → exec (.hostMemWrite port addr data) s = .next s))) ∧
      ((∀ pa, s.hostToDevice port addr = some pa → s.portReaches port pa = false) →
        (oneLine addr n = true →
          exec (.hostMemRead port addr n) s = .next ((s.refuse (portAgent port) addr).reply .error)) ∧
        (oneLine addr data.length = true →
          exec (.hostMemWrite port addr data) s = .next (s.refuse (portAgent port) addr)))) ∧
    (∀ line, exec (.backInvalidateSnoop port line) s =
      .next { s with snoop := s.snoop.filter fun q => !(q.port == port && q.line == line) }) ∧
    (∀ r rest, s.cxl = r :: rest → r.port = port → r.addr = addr → r.done = false → r.data = none → data.length = r.bytes →
      exec (.cxlCompletion port addr (some data)) s = .next { s with
        cxl := if r.posted then rest else rest ++ [{ r with done := true, answer := some data }] }) ∧
    (∀ line l, (s.l1Recall port line).hostLines.find? (fun q => q.port == port && q.line == line) = some l →
      exec (.hostCoherenceSnoop port line) s = .next { s.l1Recall port line with
        hostLines := (s.l1Recall port line).hostLines.filter fun q => q != l
        replies := (s.l1Recall port line).replies ++ [.data (lineBytes l.data 0 64)] }) ∧
    (∀ line l, (∀ c : Fin 96, ∀ q ∈ (s.cores.get c).l1, q.line ≠ hostLineNo port line) →
      s.hostLines.find? (fun q => q.port == port && q.line == line) = some l →
      exec (.hostCoherenceSnoop port line) s = .next { s with
        hostLines := s.hostLines.filter fun q => q != l, replies := s.replies ++ [.data (lineBytes l.data 0 64)] }) ∧
    (s.linkIsUp port = false →
      exec (.cxlLinkReset port) s = .next ((({ s with
        linkUp := if port then (s.linkUp.1, true) else (true, s.linkUp.2) } : State).logError { ErrRec.blank with
          kind := 6, unit := agentUnit (portAgent port) }).releaseMsix)) ∧
    (s.linkIsUp port = true →
      ∃ t, exec (.cxlLinkReset port) s = .next t ∧ t.linkIsUp port = false ∧ t.linkIsUp (!port) = s.linkIsUp (!port) ∧
        t.jobs = s.jobs ∧ (∀ r ∈ t.cxl, r.port = port → r.done = true ∧ (r ∈ s.cxl ∨ r.answer = none)) ∧
        (∀ r ∈ s.cxl, r.port ≠ port → r ∈ t.cxl) ∧
        (let lost := (s.cxl.filter fun r => r.port == port && !r.done && r.data.isSome).length
         (lost = 0 → t.mem = s.mem) ∧
         (s.errTail.toNat + lost < 2 ^ 64 → s.errHead.toNat ≤ s.errTail.toNat →
           s.errTail.toNat + lost ≤ s.errHead.toNat + Config.errLogSize →
             t.errTail = s.errTail + BitVec.ofNat 64 lost)))

/-- The control space for an agent it answers (R355, R389, R392 to R395): a free semaphore is taken by a read and its
own one renewed, another's is only read; the holder's zero frees it; a lease that runs out frees it and counts; PARTCFG
takes a value from the holder of SEM0 alone, keeping URGENT; the owning port, or the Crumb, resets Inlets and clears
queues; a register is written by one who may, and a write by one who may not, or to a register that is only read, is refused and logged. The model's choices it rests
on: log 86. -/
def Obligations.ControlSpaceSteps : Prop :=
  ∀ (s : State) (a : Agent), s.hears a = true →
    (∀ (n : BitVec 4) (v : Word),
      let q := s.sems.get n.toFin
      let lease := s.leases.get n.toFin
      let mine : Sem := { q with
        holder := agentNum a, due := if lease = 0 then none else some (s.tick + 2300 * lease.toNat) }
      let put (z : Sem) : State := { s with sems := s.sems.set n.toNat z n.isLt }
      let ans (z : Sem) : Reply := .data (leBytes 8 (z.holder.toNat + 256 * z.expired.toNat))
      (q.holder = 0 ∨ q.holder = agentNum a →
        exec (.semaphoreRead a n) s = .next ((put mine).reply (ans mine))) ∧
      (q.holder ≠ 0 → q.holder ≠ agentNum a → exec (.semaphoreRead a n) s = .next (s.reply (ans q))) ∧
      (q.holder = agentNum a →
        exec (.semaphoreWrite a n 0) s = .next (put { q with holder := 0, due := none })) ∧
      (v ≠ 0 ∨ q.holder ≠ agentNum a → exec (.semaphoreWrite a n v) s = .next s) ∧
      (∀ due, q.due = some due → due ≤ s.tick →
        exec (.leaseExpiry n) s = .next (
          let t := put ⟨q.expired + 1, 0, none⟩
          match holderPort q.holder with
          | some port => t.sendMsix port (s.irqsrc.extractLsb' 0 11)
          | none => t))) ∧
    (∀ (part : Nat) (p : Part) (v : Word), s.parts[part]? = some p →
      (s.holdsSem 0 a = true → agentReaches a part = true →
        exec (.partcfgWrite a part v) s = .next { s with
          parts := s.parts.set part { p with partcfg := (p.partcfg &&& 0x10) ||| (v &&& 0xF) } }) ∧
      (s.holdsSem 0 a = false ∨ agentReaches a part = false → exec (.partcfgWrite a part v) s = .next (s.refuse a p.block)) ∧
      (p.writable part a = true →
        (∀ i : Fin 4,
          let base := (p.inlets.get i).toNat
          s.Inv → base ≠ 0 → ringSizeOk (s.inletSize base) = true → p.inletRst = 0 → s.unreadable base 32 = false →
          s.inletHeld base = false →
          ∃ t q, exec (.inletReset a part (BitVec.twoPow 4 i.val)) s = .next t ∧ t.jobs = s.jobs ∧ t.parts[part]? = some q ∧
            q.inlets.get i = (p.nextInlet.get i).getD (p.inlets.get i) ∧ q.nextInlet.get i = none ∧
            t.readPhys (base + 8) 8 = leBytes 8 (s.inletTail base)) ∧
        (∀ i : BitVec 4,
          exec (.pqcfgClear a part i v) s = .next { s with
            parts := s.parts.set part { p with
              pqcfg := p.pqcfg.set i.toFin ((v ||| 0x100) &&& 0xBF), pond := p.pond.set i.toFin [] } }) ∧
        (s.blockPart p.block = some part →
          ∃ t q, exec (.registerWrite a (p.block + 8) v) s = .next t ∧ t.parts[part]? = some q ∧
            q.ctxbase = v &&& ~~~0xFFFF#64)) ∧
      (p.writable part a = false →
        (∀ mask : BitVec 4, exec (.inletReset a part mask) s = .next (s.refuse a (p.block + 0x60))) ∧
        (∀ i : BitVec 4, exec (.pqcfgClear a part i v) s = .next (s.refuse a (p.block + 0x80 + 8 * i.toNat))) ∧
        (s.blockPart p.block = some part →
          exec (.registerWrite a (p.block + 8) v) s = .next (s.refuse a (p.block + 8))))) ∧
    (∀ v, exec (.registerWrite a 0x200 v) s = .next { s with irqsrc := v &&& 0x07FF_07FF }) ∧
    (∀ v, exec (.registerWrite a 0x260 v) s = .next (s.refuse a 0x260)) ∧
    (∀ v, s.holdsSem 2 a = false → exec (.registerWrite a 0x218 v) s = .next (s.refuse a 0x218))

/-! ### Errors, partition reset, firmware -/

/-- A partition's reset stops its jobs, empties its Inlets' launches into RESET records and releases its contexts, by
one who may (R394, R421); its end gives zero memory and the next epoch (R335, R421); the scrub logs an uncorrectable
line (R418), a failing frame is remapped to the next spare of its package, or, with none left, retired without one (R419), a
failing empty core gives its number to the stop's spare (R420), a retried flit is counted, and a link that has failed eight
retries in a row, that one alone, is retrained and logged (R412, R422). The model's choices it rests on: logs 9, 70, 82, 83, 104,
109. -/
def Obligations.RepairSteps : Prop :=
  ∀ s : State,
    (∀ (a : Agent) (part : Nat) (p : Part), s.hears a = true → s.parts[part]? = some p →
      (p.writable part a = false → exec (.partitionReset a part) s = .next (s.refuse a (p.block + 0x148))) ∧
      (p.writable part a = true → p.resetting = false → p.stops ≠ [] →
        ∃ t q, exec (.partitionReset a part) s = .next t ∧ t.parts[part]? = some q ∧ q.resetting = true ∧ q.launches = [] ∧
          q.contexts = [] ∧ q.faulthead = p.faulttail ∧
          (∀ l ∈ p.launches, l.phase ≠ .complete → l.status = 5 → l ∈ q.outstanding) ∧
          (∀ l ∈ p.launches, l.phase ≠ .complete → l.status ≠ 5 → { l with
            status := 5
            finish := if l.teams.any fun z => z.phase == .resident || z.phase == .swapped then s.tick else l.finish } ∈
              q.outstanding) ∧
          (∀ i : Fin 16, q.pond.get i = []) ∧
          ∀ (n : Nat) (k : Job), t.jobs[n]? = some k → k.mem.part = part → k.phase = .aborted ∨ k.phase = .retired)) ∧
    (∀ (part : Nat) (p : Part), s.parts[part]? = some p → p.resetting = true → s.ringDown = false → p.stops ≠ [] →
      ∃ t q, exec (.partitionResetDone part) s = .next t ∧ t.parts[part]? = some q ∧ q.resetting = false ∧
        q.epoch = s.flash.epoch + 1 ∧ t.flash.epoch = s.flash.epoch + 1 ∧ q.count = 0 ∧
        (∀ x, s.ownerOf x = some part → t.readPhys x 1 = [0]) ∧
        (∀ l ∈ q.launches, l.phase = .draining) ∧ q.launches.length = p.outstanding.length) ∧
    (∀ line, (∃ b ∈ s.memBad, b.1 = line) →
      exec (.patrolScrub line) s = .next ({ s with free := s.free + 1 }.logError { ErrRec.blank with
        kind := 3, unit := 8, addr := 64 * line, stop := (s.homeOf (64 * line)).getD 0xFF
        syn := (Config.freeWord s.free).toNat })) ∧
    (∀ (frame : Nat) (pkg : Fin 12), s.frameStop frame = some pkg.val → s.frameFails frame = true → s.retireHeld frame = false →
      s.flash.retired.contains frame = false →
      ((s.flash.remap.any fun z => z.1 == frame) = false → s.nextSpare.get pkg < Config.spareFrames →
        ∃ t, exec (.frameRetire frame) s = .next t ∧ t.flash.retired = s.flash.retired ∧
          t.flash.remap =
            (frame, (pkg.val + 1) * Config.packageFrames - Config.spareFrames + s.nextSpare.get pkg) :: s.flash.remap ∧
          t.nextSpare.get pkg = s.nextSpare.get pkg + 1 ∧ t.jobs = s.jobs) ∧
      (Config.spareFrames ≤ s.nextSpare.get pkg →
        ∃ t, exec (.frameRetire frame) s = .next t ∧ t.flash.retired = frame :: s.flash.retired ∧
          t.flash.remap = s.flash.remap ∧ t.jobs = s.jobs)) ∧
    (∀ core, core < 96 → (s.core core).failing = true → (s.core core).disabled = false → (s.core core).empty = true →
      ∃ t, exec (.spareCoreSubstitute core) s = .next t ∧
        (s.flash.spares.get ⟨core / 8 % 12, Nat.mod_lt _ (by decide)⟩ = 0xF → s.badSpares.contains (core / 8) = false →
          t.flash.spares.get ⟨core / 8 % 12, Nat.mod_lt _ (by decide)⟩ = BitVec.ofNat 4 (core % 8) ∧
            (t.core core).failing = false ∧ (t.core core).l1 = [] ∧ (t.core core).tlb = []) ∧
        (s.flash.spares.get ⟨core / 8 % 12, Nat.mod_lt _ (by decide)⟩ ≠ 0xF ∨ s.badSpares.contains (core / 8) = true →
          (t.core core).disabled = true)) ∧
    (∀ link,
      let run := s.retriesOf link
      (run.1 < 8 →
        (∃ t, exec (.flitCrcRetry link) s = .next t ∧ t.corrected = (9, link % 12, s.tick) :: s.corrected ∧ t.jobs = s.jobs ∧
          t.retriesOf link = (if s.tick ≤ run.2 + 40 then run.1 + 1 else 1, s.tick)) ∧
        ∀ ok, exec (.ringLinkRetrain link ok) s = .next s) ∧
      (8 ≤ run.1 →
        exec (.flitCrcRetry link) s = .next s ∧
        exec (.ringLinkRetrain link true) s =
          .next (({ s with retries := s.retries.filter fun z => z.1 ≠ link } : State).logError
            { ErrRec.blank with kind := 6, unit := 9, stop := link % 12 }) ∧
        ∃ t, exec (.ringLinkRetrain link false) s = .next t ∧ t.ringDown = true ∧
          ∀ p ∈ t.parts, p.resetting = true ∨ p.stops = []))

/-- The mailbox takes a command from the holder of SEM1 while none runs, with the status of a running command; a buffer
the agent may not use makes it DENIED, and while a host holds a line of it the write waits; as it ends FWSTAT has its result, an
accepted image its counter, a report and its signatures (R428, R429) or a record its bytes in the buffer that FWBUF named as the
command began (R427, R431, R432). The model's choices it rests on: logs 10, 87, 107. -/
def Obligations.MailboxSteps : Prop :=
  (∀ (s : State) (a : Agent) (stop : Nat) (frames : List Nat), s.hears a = true → s.holdsSem 1 a = true → s.fwbusy = none →
    let buf := s.fwbuf.toNat
    let started (i : Instr) (cmd : BitVec 8) (n : Nat) : Prop :=
      (s.hostHolds buf n = true → exec i s = .next s) ∧
      (s.hostHolds buf n = false →
        ∃ f : FwBusy, exec i s = .next { s with fwstat := BitVec.ofNat 64 (256 * cmd.toNat + 1), fwbusy := some f } ∧
          f.cmd = cmd ∧ f.who = a ∧ f.buf = buf ∧ (s.mayUse a buf n = false → f.fail = 7) ∧
          (cmd ≠ 1 → s.mayUse a buf n = true → f.fail = 0))
    let h := leNat (s.readPhys buf 256)
    started (.fwUpdateImage a stop) 1 (if imageFormOk h then imageBytes (imLen h) else 256) ∧
      started (.fwAttest a) 2 (1024 + 64 + 3309) ∧ started (.fwChangeLayout a) 3 4096 ∧
      started (.fwReadRecord a) 4 (recordBytes s.flash.record).length ∧ started (.fwExport a stop) 5 16 ∧
      started (.fwImport a stop frames) 6 16) ∧
  (∀ (s : State) (f : FwBusy) (ok : Bool), s.fwbusy = some f → s.fwWaits f = true →
    exec (.fwCommandComplete ok) s = .next s) ∧
  (∀ (s : State) (f : FwBusy) (ok : Bool), s.fwbusy = some f → s.fwWaits f = false →
    ∃ t r, exec (.fwCommandComplete ok) s = .next t ∧ t.fwbusy = none ∧
      t.fwstat = BitVec.ofNat 64 (f.cmd.toNat * 256 + (r : BitVec 8).toNat) ∧ t.tick = s.tick ∧
      (f.fail ≠ 0 → r = f.fail ∧ t.mem = s.mem) ∧
      (f.fail = 0 → f.cmd = 1 → ok = false → r = 6 ∧ t.flash = s.flash) ∧
      (f.fail = 0 → f.cmd = 1 → ok = true → r = 2 ∧ t.mem = s.mem ∧
        ∀ k : Fin 3, f.kind = k.val + 1 → t.flash.svn.get k = f.svn) ∧
      (f.fail = 0 → f.cmd = 2 → s.seed = none → r = 6 ∧ t.mem = s.mem) ∧
      (∀ seed, f.fail = 0 → f.cmd = 2 → s.seed = some seed → s.memPoisoned f.buf 32 = false →
        let report := s.report seed (s.readPhys f.buf 32)
        r = 2 ∧ t.mem = (s.writePhys f.buf (report ++ signBoth (attestBound seed s.crust) report)).mem) ∧
      (f.fail = 0 → f.cmd = 4 → r = 2 ∧ t.mem = (s.writePhys f.buf (recordBytes s.flash.record)).mem))

/-! ### Power, heat and time -/

/-- Bring-up runs phase by phase (R434): with a Crust and a record that pass, the links are up in phase 4, with no job and TICK 0,
the identity read and the record checked (R426, R428, R430); then the packages, the scan of the cores, and READY, each partition of
the layout new with the next epoch (R335); where every core and spare passes its test, memory is zero but for the record of a trip, if
one was noted. A failure leaves the module short of READY. Without power everything but flash is lost (R435), as after a thermal trip,
which notes itself there (R437) and takes power away when its time is over. A warning begins at 95 °C and ends with every sensor
below 92 °C; an emergency begins at 105 °C, opens 8 of 16 issue cycles on every core, voids the promise of admitted launches (R438),
counts itself and is logged; it ends with every sensor below 100 °C for 10 ms, and cores with timed jobs are open again (R437).
Outside one the Crumb sets each core's gate, but a timed job's core stays open (R436). Telemetry is one whole sample of what the sensors read (R439), and a
cycle moves TICK by one (R9). The model's choices it rests on: logs 6, 10, 70, 88, 105, 107, 109. -/
def Obligations.PowerSteps : Prop :=
  (∀ (s : State) (fail : BitVec 8) (bad : List Nat),
    (s.powered = false →
      ((s.flash.damaged = false → s.flash.crustOk = true → fail = 0 ∨ fail = 4 →
        ∃ t, exec (.powerOn fail bad) s = .next t ∧ t.powered = true ∧ t.bootstat = 4 ∧ t.linkUp = (true, true) ∧
          t.jobs = [] ∧ t.tick = 0 ∧ t.agenda = s.agenda ∧ t.flash = s.flash ∧ t.parts = [] ∧ t.mem = [] ∧
          t.cores = Vector.replicate 96 Core.reset ∧ t.bringUp = some ⟨fail, bad, false⟩ ∧
          t.crust = s.flash.measured crustSlot ∧ t.cert = certOf t.seed t.crust) ∧
      (s.flash.damaged = true → s.flash.crustOk = true → fail = 0 ∨ fail = 4 →
        ∃ t, exec (.powerOn fail bad) s = .next t ∧ t.bootstat = 4 ∧ t.flash.record = s.flash.good ∧ t.flash.damaged = false ∧
          t.bringUp = some ⟨fail, bad, true⟩) ∧
      (s.flash.crustOk = false ∨ (fail ≠ 0 ∧ fail ≠ 4) →
        exec (.powerOn fail bad) s = .next { State.reset with
          agenda := s.agenda, free := s.free, flash := s.flash, powered := true }))) ∧
    (s.powered = true → exec (.powerOn fail bad) s = .next s)) ∧
  (∀ (s : State) (b : BringUp), s.bringUp = some b →
    let lay := s.flash.layout
    (s.bootstat = 4 → b.fail ≠ 4 → s.nextPhase = { s with bootstat := 5 }) ∧
    (s.bootstat = 4 → b.fail = 4 → s.nextPhase = { s with bootstat := 0x0405, bringUp := none }) ∧
    (s.bootstat = 5 → b.bad = [] → s.nextPhase = { s with bootstat := 6 }) ∧
    (s.bootstat = 5 → s.nextPhase.bootstat = 6 ∧ s.nextPhase.bringUp = some b) ∧
    (s.bootstat = 6 →
      let t := s.nextPhase
      t.bootstat = 0x1_0007 ∧ t.bringUp = none ∧ t.flash.tripped = false ∧ t.flash.epoch = s.flash.epoch + BitVec.ofNat 16 lay.length ∧
      t.parts.length = s.parts.length + lay.length ∧ t.jobs = s.jobs ∧ t.tick = s.tick ∧
      (∀ i q, lay[i]? = some q → t.parts[s.parts.length + i]? = some
        { Part.create q.1 q.2 with resetting := false, epoch := s.flash.epoch + BitVec.ofNat 16 (i + 1) }) ∧
      (b.replaced = false → s.flash.tripped = false → t.mem = s.mem ∧ t.errTail = s.errTail) ∧
      (b.replaced = false → s.flash.tripped = true → s.errTail = 0 → s.errHead = 0 →
        t.errTail = 1 ∧ t.mem = (s.writePhys s.errBase
          (errBytes { ErrRec.blank with kind := 0xD } (s.correctedAt ErrRec.blank.unit ErrRec.blank.place) s.tick)).mem))) ∧
  (∀ s : State,
    (exec .powerRemoved s = .next { State.reset with agenda := s.agenda, free := s.free, flash := s.flash }) ∧
    (s.powered = true → s.sensors.tripBy ≠ none →
      exec .thermalTrip s = .next { State.reset with
        agenda := s.agenda, free := s.free, flash := { s.flash with tripped := true } }) ∧
    (s.sensors.tripBy = none → exec .thermalTrip s = .next s) ∧
    (let heat := s.therm.extractLsb' 0 2
     let hottest := s.sensors.temps.toList.foldl max 0
     let setHeat (v : Word) : State := { s with therm := (s.therm &&& ~~~3#64) ||| v }
     (s.powered = true → heat = 0 → 8 * 95 ≤ hottest → exec .thermalWarningEnter s = .next (setHeat 1)) ∧
     (heat ≠ 0 ∨ hottest < 8 * 95 → exec .thermalWarningEnter s = .next s) ∧
     (heat = 1 → hottest < 8 * 92 → exec .thermalWarningExit s = .next (setHeat 0)) ∧
     (heat ≠ 1 ∨ 8 * 92 ≤ hottest → exec .thermalWarningExit s = .next s) ∧
     (s.powered = true → heat ≠ 2 → 8 * 105 ≤ hottest →
       exec .thermalEmergencyEnter s = .next (({ s with
         therm := BitVec.ofNat 64 (2 + 256 * min 255 ((s.therm.extractLsb' 8 8).toNat + 1))
         cores := s.cores.map fun (k : Core) => { k with gate := 8 }
         parts := s.parts.map fun (p : Part) => { p with
           launches := p.launches.map fun (l : Launch) =>
             if l.admitted.isSome = true ∧ (l.phase = .ready ∨ l.phase = .running) then { l with voided := true } else l } } :
         State).logError { ErrRec.blank with kind := 0xE })) ∧
     (heat = 2 ∨ hottest < 8 * 105 → exec .thermalEmergencyEnter s = .next s) ∧
     (∀ since, s.sensors.coolSince = some since → since + 23_000_000 ≤ s.tick → heat = 2 →
       exec .thermalEmergencyExit s = .next { setHeat 1 with
         cores := Vector.ofFn fun c : Fin 96 =>
           let k := s.cores.get c
           { k with gate := if s.timedCore c.val then 16 else k.gate } }) ∧
     (heat ≠ 2 ∨ s.sensors.coolSince = none → exec .thermalEmergencyExit s = .next s) ∧
     (∀ gates : List (Nat × Nat),
       (heat ≠ 2 → exec (.issueGateUpdate gates) s = .next { s with
         cores := Vector.ofFn fun c : Fin 96 =>
           let k := s.cores.get c
           let asked := (gates.filter fun g => decide (g.1 = c.val) && decide (1 ≤ g.2) && decide (g.2 ≤ 16) && !s.gateHeld g.1).getLast?
           { k with gate := if s.timedCore c.val then 16 else (asked.map Prod.snd).getD k.gate } }) ∧
       (heat = 2 → exec (.issueGateUpdate gates) s = .next s))) ∧
    (∀ (part : Nat) (p : Part) (pw mp : Word), s.powered = true → s.parts[part]? = some p →
      let temp := BitVec.ofNat 64 (s.partTemp p)
      exec (.telemetryRefresh part pw temp mp) s = .next { s with
        modpwr := mp, parts := s.parts.set part { p with pwrnow := pw, tempmax := temp } } ∧
      ∀ other, other ≠ temp → exec (.telemetryRefresh part pw other mp) s = .next s) ∧
    (s.powered = true → (∀ due, s.sensors.tripBy = some due → s.tick < due) →
      ∃ t, exec .tickAdvance s = .next t ∧ t.tick = s.tick + 1) ∧
    (∀ due, s.powered = true → s.sensors.tripBy = some due → due ≤ s.tick →
      exec .tickAdvance s = .next { State.reset with
        agenda := s.agenda, free := s.free, flash := { s.flash with tripped := true } }) ∧
    (s.powered = false → exec .tickAdvance s = .next s))

end Statements
end

