-- ==== Sys2Proof/Laws/Cells.lean ====
section
/-! SUPPORT. The canonical form of a byte store: every operation that writes, drops or copies bytes keeps it, and reset memory has
it. -/

namespace Sys2Proof.Machine

/-- A canonical list above a bound is canonical above any lower one. -/
theorem cellsFrom_weaken {lo hi : Nat} (h : lo ≤ hi) {m : List Host.Cell} (w : cellsFrom (some hi) m = true) :
    cellsFrom (some lo) m = true := by
  cases m with
  | nil => rfl
  | cons p t =>
    simp only [cellsFrom, Bool.and_eq_true, decide_eq_true_eq] at w ⊢
    exact ⟨⟨by omega, w.1.2⟩, w.2⟩

/-- A canonical list above a bound is canonical. -/
theorem cellsFrom_none {lo : Option Nat} {m : List Host.Cell} (w : cellsFrom lo m = true) : cellsFrom none m = true := by
  cases lo with
  | none => exact w
  | some lo =>
    cases m with
    | nil => rfl
    | cons p t =>
      simp only [cellsFrom, Bool.and_eq_true, decide_eq_true_eq] at w ⊢
      exact ⟨w.1.2, w.2⟩

/-- Writing a byte above a bound keeps a canonical list above it. -/
theorem cellsFrom_put {m : List Host.Cell} {lo : Option Nat} {a : Nat} {x : Byte} (w : cellsFrom lo m = true)
    (h : ∀ l, lo = some l → l < a) : cellsFrom lo (cellPut m a x) = true := by
  induction m generalizing lo with
  | nil =>
    unfold cellPut
    split
    · cases lo <;> rfl
    · cases lo with
      | none => simpa [cellsFrom]
      | some l => simpa [cellsFrom, h l rfl]
  | cons p t ih =>
    obtain ⟨b, y⟩ := p
    have tail : cellsFrom (some b) t = true := by
      cases lo <;> simp [cellsFrom] at w <;> simp [w]
    have y0 : y ≠ 0 := by
      cases lo <;> simp [cellsFrom] at w <;> simp [w]
    have above : ∀ l, lo = some l → l < b := by
      intro l e; subst e; simp [cellsFrom] at w; exact w.1.1
    have mk : ∀ (c : Nat) (z : Byte) (k : List Host.Cell), (∀ l, lo = some l → l < c) → z ≠ 0 →
        cellsFrom (some c) k = true → cellsFrom lo ((c, z) :: k) = true := by
      intro c z k h1 h2 h3
      cases lo with
      | none => simp only [cellsFrom, Bool.and_eq_true, decide_eq_true_eq]; exact ⟨h2, h3⟩
      | some l => simp only [cellsFrom, Bool.and_eq_true, decide_eq_true_eq]; exact ⟨⟨h1 l rfl, h2⟩, h3⟩
    unfold cellPut
    by_cases hab : a < b
    · simp only [hab, if_true]
      by_cases hx : x = 0
      · simp only [hx, if_true]; exact w
      · simp only [hx, if_false]
        exact mk a x _ h hx (by simp only [cellsFrom, Bool.and_eq_true, decide_eq_true_eq]; exact ⟨⟨hab, y0⟩, tail⟩)
    · simp only [hab, if_false]
      by_cases he : a = b
      · subst he
        simp only [if_true]
        by_cases hx : x = 0
        · simp only [hx, if_true]
          cases lo with
          | none => exact cellsFrom_none tail
          | some l => exact cellsFrom_weaken (Nat.le_of_lt (above l rfl)) tail
        · simp only [hx, if_false]
          exact mk a x t h hx tail
      · simp only [he, if_false]
        exact mk b y _ above y0 (ih tail (by intro l e; cases e; omega))

/-- Writing one byte keeps the canonical form. -/
theorem cellPut_wf {m : List Host.Cell} (a : Nat) (x : Byte) (w : Memory.wf m) : Memory.wf (cellPut m a x) :=
  cellsFrom_put w (by intro l e; cases e)

/-- Writing bytes keeps the canonical form. -/
theorem cellPutN_wf {m : List Host.Cell} (a : Nat) (b : List Byte) (w : Memory.wf m) : Memory.wf (cellPutN m a b) := by
  induction b generalizing m a with
  | nil => exact w
  | cons x t ih => exact ih (a + 1) (cellPut_wf a x w)

/-- Dropping bytes keeps a canonical list above its bound. -/
theorem cellsFrom_filter {m : List Host.Cell} {lo : Option Nat} (f : Host.Cell → Bool) (w : cellsFrom lo m = true) :
    cellsFrom lo (m.filter f) = true := by
  induction m generalizing lo with
  | nil => exact w
  | cons p t ih =>
    obtain ⟨b, y⟩ := p
    have tail : cellsFrom (some b) t = true := by
      cases lo <;> simp [cellsFrom] at w <;> simp [w]
    by_cases hf : f (b, y) = true
    · rw [List.filter_cons_of_pos hf]
      cases lo with
      | none => simp only [cellsFrom, Bool.and_eq_true, decide_eq_true_eq] at w ⊢; exact ⟨w.1, ih tail⟩
      | some l => simp only [cellsFrom, Bool.and_eq_true, decide_eq_true_eq] at w ⊢; exact ⟨w.1, ih tail⟩
    · rw [List.filter_cons_of_neg hf]
      cases lo with
      | none => exact cellsFrom_none (ih tail)
      | some l =>
        have : l < b := by simp [cellsFrom] at w; exact w.1.1
        exact cellsFrom_weaken (Nat.le_of_lt this) (ih tail)

/-- Dropping bytes keeps the canonical form. -/
theorem filter_wf {m : List Host.Cell} (f : Host.Cell → Bool) (w : Memory.wf m) : Memory.wf (m.filter f) :=
  cellsFrom_filter f w

/-- Folding writes keeps the canonical form. -/
theorem foldl_wf {α : Type} {m : List Host.Cell} (l : List α) (f : List Host.Cell → α → List Host.Cell)
    (h : ∀ k a, Memory.wf k → Memory.wf (f k a)) (w : Memory.wf m) : Memory.wf (l.foldl f m) := by
  induction l generalizing m with
  | nil => exact w
  | cons a t ih => exact ih (h m a w)

/-- Copying bytes keeps the canonical form. -/
theorem cellsCopy_wf {m : List Host.Cell} (src dst n : Nat) (w : Memory.wf m) : Memory.wf (cellsCopy m src dst n) :=
  foldl_wf _ _ (fun _ _ h => cellPut_wf _ _ h) (filter_wf _ w)

/-- The memory of the reset state is in canonical form. -/
theorem reset_wf : Memory.wf State.reset.mem := rfl

end Sys2Proof.Machine
end

