-- ==== Sys2Proof/Laws/State.lean ====
section
/-! SUPPORT. What each plain update of a record leaves of every field: one lemma per field, true by definition. -/

namespace Sys2Proof.Machine

/-! ### Replacing a job -/

@[simp] theorem State.setJob_tick (s : State) (n : Nat) (j : Job) : (s.setJob n j).tick = s.tick := rfl
@[simp] theorem State.setJob_free (s : State) (n : Nat) (j : Job) : (s.setJob n j).free = s.free := rfl
@[simp] theorem State.setJob_ueAt (s : State) (n : Nat) (j : Job) : (s.setJob n j).ueAt = s.ueAt := rfl
@[simp] theorem State.setJob_agenda (s : State) (n : Nat) (j : Job) : (s.setJob n j).agenda = s.agenda := rfl
@[simp] theorem State.setJob_cursor (s : State) (n : Nat) (j : Job) : (s.setJob n j).cursor = s.cursor := rfl
@[simp] theorem State.setJob_mem (s : State) (n : Nat) (j : Job) : (s.setJob n j).mem = s.mem := rfl
@[simp] theorem State.setJob_memBad (s : State) (n : Nat) (j : Job) : (s.setJob n j).memBad = s.memBad := rfl
@[simp] theorem State.setJob_jobs (s : State) (n : Nat) (j : Job) : (s.setJob n j).jobs = s.jobs.set n j := rfl
@[simp] theorem State.setJob_cores (s : State) (n : Nat) (j : Job) : (s.setJob n j).cores = s.cores := rfl
@[simp] theorem State.setJob_stops (s : State) (n : Nat) (j : Job) : (s.setJob n j).stops = s.stops := rfl
@[simp] theorem State.setJob_parts (s : State) (n : Nat) (j : Job) : (s.setJob n j).parts = s.parts := rfl
@[simp] theorem State.setJob_replicas (s : State) (n : Nat) (j : Job) : (s.setJob n j).replicas = s.replicas := rfl
@[simp] theorem State.setJob_hostLines (s : State) (n : Nat) (j : Job) : (s.setJob n j).hostLines = s.hostLines := rfl
@[simp] theorem State.setJob_cxl (s : State) (n : Nat) (j : Job) : (s.setJob n j).cxl = s.cxl := rfl
@[simp] theorem State.setJob_replies (s : State) (n : Nat) (j : Job) : (s.setJob n j).replies = s.replies := rfl
@[simp] theorem State.setJob_msix (s : State) (n : Nat) (j : Job) : (s.setJob n j).msix = s.msix := rfl
@[simp] theorem State.setJob_masked (s : State) (n : Nat) (j : Job) : (s.setJob n j).masked = s.masked := rfl
@[simp] theorem State.setJob_held (s : State) (n : Nat) (j : Job) : (s.setJob n j).held = s.held := rfl
@[simp] theorem State.setJob_linkUp (s : State) (n : Nat) (j : Job) : (s.setJob n j).linkUp = s.linkUp := rfl
@[simp] theorem State.setJob_dbase (s : State) (n : Nat) (j : Job) : (s.setJob n j).dbase = s.dbase := rfl
@[simp] theorem State.setJob_snoop (s : State) (n : Nat) (j : Job) : (s.setJob n j).snoop = s.snoop := rfl
@[simp] theorem State.setJob_sems (s : State) (n : Nat) (j : Job) : (s.setJob n j).sems = s.sems := rfl
@[simp] theorem State.setJob_leases (s : State) (n : Nat) (j : Job) : (s.setJob n j).leases = s.leases := rfl
@[simp] theorem State.setJob_irqsrc (s : State) (n : Nat) (j : Job) : (s.setJob n j).irqsrc = s.irqsrc := rfl
@[simp] theorem State.setJob_peerBase (s : State) (n : Nat) (j : Job) : (s.setJob n j).peerBase = s.peerBase := rfl
@[simp] theorem State.setJob_peerLim (s : State) (n : Nat) (j : Job) : (s.setJob n j).peerLim = s.peerLim := rfl
@[simp] theorem State.setJob_errBase (s : State) (n : Nat) (j : Job) : (s.setJob n j).errBase = s.errBase := rfl
@[simp] theorem State.setJob_errHead (s : State) (n : Nat) (j : Job) : (s.setJob n j).errHead = s.errHead := rfl
@[simp] theorem State.setJob_errTail (s : State) (n : Nat) (j : Job) : (s.setJob n j).errTail = s.errTail := rfl
@[simp] theorem State.setJob_errLost (s : State) (n : Nat) (j : Job) : (s.setJob n j).errLost = s.errLost := rfl
@[simp] theorem State.setJob_corrected (s : State) (n : Nat) (j : Job) : (s.setJob n j).corrected = s.corrected := rfl
@[simp] theorem State.setJob_badLines (s : State) (n : Nat) (j : Job) : (s.setJob n j).badLines = s.badLines := rfl
@[simp] theorem State.setJob_retries (s : State) (n : Nat) (j : Job) : (s.setJob n j).retries = s.retries := rfl
@[simp] theorem State.setJob_fwbuf (s : State) (n : Nat) (j : Job) : (s.setJob n j).fwbuf = s.fwbuf := rfl
@[simp] theorem State.setJob_fwstat (s : State) (n : Nat) (j : Job) : (s.setJob n j).fwstat = s.fwstat := rfl
@[simp] theorem State.setJob_fwbusy (s : State) (n : Nat) (j : Job) : (s.setJob n j).fwbusy = s.fwbusy := rfl
@[simp] theorem State.setJob_bootstat (s : State) (n : Nat) (j : Job) : (s.setJob n j).bootstat = s.bootstat := rfl
@[simp] theorem State.setJob_modpwr (s : State) (n : Nat) (j : Job) : (s.setJob n j).modpwr = s.modpwr := rfl
@[simp] theorem State.setJob_therm (s : State) (n : Nat) (j : Job) : (s.setJob n j).therm = s.therm := rfl
@[simp] theorem State.setJob_sensors (s : State) (n : Nat) (j : Job) : (s.setJob n j).sensors = s.sensors := rfl
@[simp] theorem State.setJob_powered (s : State) (n : Nat) (j : Job) : (s.setJob n j).powered = s.powered := rfl
@[simp] theorem State.setJob_bringUp (s : State) (n : Nat) (j : Job) : (s.setJob n j).bringUp = s.bringUp := rfl
@[simp] theorem State.setJob_badSpares (s : State) (n : Nat) (j : Job) : (s.setJob n j).badSpares = s.badSpares := rfl
@[simp] theorem State.setJob_capblock (s : State) (n : Nat) (j : Job) : (s.setJob n j).capblock = s.capblock := rfl
@[simp] theorem State.setJob_seed (s : State) (n : Nat) (j : Job) : (s.setJob n j).seed = s.seed := rfl
@[simp] theorem State.setJob_cert (s : State) (n : Nat) (j : Job) : (s.setJob n j).cert = s.cert := rfl
@[simp] theorem State.setJob_crust (s : State) (n : Nat) (j : Job) : (s.setJob n j).crust = s.crust := rfl
@[simp] theorem State.setJob_crumbs (s : State) (n : Nat) (j : Job) : (s.setJob n j).crumbs = s.crumbs := rfl
@[simp] theorem State.setJob_flash (s : State) (n : Nat) (j : Job) : (s.setJob n j).flash = s.flash := rfl
@[simp] theorem State.setJob_ringDown (s : State) (n : Nat) (j : Job) : (s.setJob n j).ringDown = s.ringDown := rfl
@[simp] theorem State.setJob_nextSpare (s : State) (n : Nat) (j : Job) : (s.setJob n j).nextSpare = s.nextSpare := rfl

/-! ### Bytes at their home -/

@[simp] theorem State.writePhys_tick (s : State) (a : Nat) (b : List Byte) : (s.writePhys a b).tick = s.tick := rfl
@[simp] theorem State.writePhys_free (s : State) (a : Nat) (b : List Byte) : (s.writePhys a b).free = s.free := rfl
@[simp] theorem State.writePhys_ueAt (s : State) (a : Nat) (b : List Byte) : (s.writePhys a b).ueAt = s.ueAt := rfl
@[simp] theorem State.writePhys_agenda (s : State) (a : Nat) (b : List Byte) : (s.writePhys a b).agenda = s.agenda := rfl
@[simp] theorem State.writePhys_cursor (s : State) (a : Nat) (b : List Byte) : (s.writePhys a b).cursor = s.cursor := rfl
@[simp] theorem State.writePhys_mem (s : State) (a : Nat) (b : List Byte) : (s.writePhys a b).mem = cellPutN s.mem a b := rfl
@[simp] theorem State.writePhys_memBad (s : State) (a : Nat) (b : List Byte) : (s.writePhys a b).memBad = clearBad s.memBad a b.length := rfl
@[simp] theorem State.writePhys_jobs (s : State) (a : Nat) (b : List Byte) : (s.writePhys a b).jobs = s.jobs := rfl
@[simp] theorem State.writePhys_cores (s : State) (a : Nat) (b : List Byte) : (s.writePhys a b).cores = s.cores := rfl
@[simp] theorem State.writePhys_stops (s : State) (a : Nat) (b : List Byte) : (s.writePhys a b).stops = s.stops := rfl
@[simp] theorem State.writePhys_parts (s : State) (a : Nat) (b : List Byte) : (s.writePhys a b).parts = s.parts := rfl
@[simp] theorem State.writePhys_replicas (s : State) (a : Nat) (b : List Byte) : (s.writePhys a b).replicas = s.replicas := rfl
@[simp] theorem State.writePhys_hostLines (s : State) (a : Nat) (b : List Byte) : (s.writePhys a b).hostLines = s.hostLines := rfl
@[simp] theorem State.writePhys_cxl (s : State) (a : Nat) (b : List Byte) : (s.writePhys a b).cxl = s.cxl := rfl
@[simp] theorem State.writePhys_replies (s : State) (a : Nat) (b : List Byte) : (s.writePhys a b).replies = s.replies := rfl
@[simp] theorem State.writePhys_msix (s : State) (a : Nat) (b : List Byte) : (s.writePhys a b).msix = s.msix := rfl
@[simp] theorem State.writePhys_masked (s : State) (a : Nat) (b : List Byte) : (s.writePhys a b).masked = s.masked := rfl
@[simp] theorem State.writePhys_held (s : State) (a : Nat) (b : List Byte) : (s.writePhys a b).held = s.held := rfl
@[simp] theorem State.writePhys_linkUp (s : State) (a : Nat) (b : List Byte) : (s.writePhys a b).linkUp = s.linkUp := rfl
@[simp] theorem State.writePhys_dbase (s : State) (a : Nat) (b : List Byte) : (s.writePhys a b).dbase = s.dbase := rfl
@[simp] theorem State.writePhys_sems (s : State) (a : Nat) (b : List Byte) : (s.writePhys a b).sems = s.sems := rfl
@[simp] theorem State.writePhys_leases (s : State) (a : Nat) (b : List Byte) : (s.writePhys a b).leases = s.leases := rfl
@[simp] theorem State.writePhys_irqsrc (s : State) (a : Nat) (b : List Byte) : (s.writePhys a b).irqsrc = s.irqsrc := rfl
@[simp] theorem State.writePhys_peerBase (s : State) (a : Nat) (b : List Byte) : (s.writePhys a b).peerBase = s.peerBase := rfl
@[simp] theorem State.writePhys_peerLim (s : State) (a : Nat) (b : List Byte) : (s.writePhys a b).peerLim = s.peerLim := rfl
@[simp] theorem State.writePhys_errBase (s : State) (a : Nat) (b : List Byte) : (s.writePhys a b).errBase = s.errBase := rfl
@[simp] theorem State.writePhys_errHead (s : State) (a : Nat) (b : List Byte) : (s.writePhys a b).errHead = s.errHead := rfl
@[simp] theorem State.writePhys_errTail (s : State) (a : Nat) (b : List Byte) : (s.writePhys a b).errTail = s.errTail := rfl
@[simp] theorem State.writePhys_errLost (s : State) (a : Nat) (b : List Byte) : (s.writePhys a b).errLost = s.errLost := rfl
@[simp] theorem State.writePhys_corrected (s : State) (a : Nat) (b : List Byte) : (s.writePhys a b).corrected = s.corrected := rfl
@[simp] theorem State.writePhys_badLines (s : State) (a : Nat) (b : List Byte) : (s.writePhys a b).badLines = s.badLines := rfl
@[simp] theorem State.writePhys_retries (s : State) (a : Nat) (b : List Byte) : (s.writePhys a b).retries = s.retries := rfl
@[simp] theorem State.writePhys_fwbuf (s : State) (a : Nat) (b : List Byte) : (s.writePhys a b).fwbuf = s.fwbuf := rfl
@[simp] theorem State.writePhys_fwstat (s : State) (a : Nat) (b : List Byte) : (s.writePhys a b).fwstat = s.fwstat := rfl
@[simp] theorem State.writePhys_fwbusy (s : State) (a : Nat) (b : List Byte) : (s.writePhys a b).fwbusy = s.fwbusy := rfl
@[simp] theorem State.writePhys_bootstat (s : State) (a : Nat) (b : List Byte) : (s.writePhys a b).bootstat = s.bootstat := rfl
@[simp] theorem State.writePhys_modpwr (s : State) (a : Nat) (b : List Byte) : (s.writePhys a b).modpwr = s.modpwr := rfl
@[simp] theorem State.writePhys_therm (s : State) (a : Nat) (b : List Byte) : (s.writePhys a b).therm = s.therm := rfl
@[simp] theorem State.writePhys_sensors (s : State) (a : Nat) (b : List Byte) : (s.writePhys a b).sensors = s.sensors := rfl
@[simp] theorem State.writePhys_powered (s : State) (a : Nat) (b : List Byte) : (s.writePhys a b).powered = s.powered := rfl
@[simp] theorem State.writePhys_bringUp (s : State) (a : Nat) (b : List Byte) : (s.writePhys a b).bringUp = s.bringUp := rfl
@[simp] theorem State.writePhys_badSpares (s : State) (a : Nat) (b : List Byte) : (s.writePhys a b).badSpares = s.badSpares := rfl
@[simp] theorem State.writePhys_capblock (s : State) (a : Nat) (b : List Byte) : (s.writePhys a b).capblock = s.capblock := rfl
@[simp] theorem State.writePhys_seed (s : State) (a : Nat) (b : List Byte) : (s.writePhys a b).seed = s.seed := rfl
@[simp] theorem State.writePhys_cert (s : State) (a : Nat) (b : List Byte) : (s.writePhys a b).cert = s.cert := rfl
@[simp] theorem State.writePhys_crust (s : State) (a : Nat) (b : List Byte) : (s.writePhys a b).crust = s.crust := rfl
@[simp] theorem State.writePhys_crumbs (s : State) (a : Nat) (b : List Byte) : (s.writePhys a b).crumbs = s.crumbs := rfl
@[simp] theorem State.writePhys_flash (s : State) (a : Nat) (b : List Byte) : (s.writePhys a b).flash = s.flash := rfl
@[simp] theorem State.writePhys_ringDown (s : State) (a : Nat) (b : List Byte) : (s.writePhys a b).ringDown = s.ringDown := rfl
@[simp] theorem State.writePhys_nextSpare (s : State) (a : Nat) (b : List Byte) : (s.writePhys a b).nextSpare = s.nextSpare := rfl

/-! ### An interrupt message -/

@[simp] theorem State.sendMsix_tick (s : State) (p : Bool) (v : BitVec 11) : (s.sendMsix p v).tick = s.tick := by
  unfold State.sendMsix; split <;> rfl
@[simp] theorem State.sendMsix_free (s : State) (p : Bool) (v : BitVec 11) : (s.sendMsix p v).free = s.free := by
  unfold State.sendMsix; split <;> rfl
@[simp] theorem State.sendMsix_ueAt (s : State) (p : Bool) (v : BitVec 11) : (s.sendMsix p v).ueAt = s.ueAt := by
  unfold State.sendMsix; split <;> rfl
@[simp] theorem State.sendMsix_agenda (s : State) (p : Bool) (v : BitVec 11) : (s.sendMsix p v).agenda = s.agenda := by
  unfold State.sendMsix; split <;> rfl
@[simp] theorem State.sendMsix_cursor (s : State) (p : Bool) (v : BitVec 11) : (s.sendMsix p v).cursor = s.cursor := by
  unfold State.sendMsix; split <;> rfl
@[simp] theorem State.sendMsix_mem (s : State) (p : Bool) (v : BitVec 11) : (s.sendMsix p v).mem = s.mem := by
  unfold State.sendMsix; split <;> rfl
@[simp] theorem State.sendMsix_memBad (s : State) (p : Bool) (v : BitVec 11) : (s.sendMsix p v).memBad = s.memBad := by
  unfold State.sendMsix; split <;> rfl
@[simp] theorem State.sendMsix_jobs (s : State) (p : Bool) (v : BitVec 11) : (s.sendMsix p v).jobs = s.jobs := by
  unfold State.sendMsix; split <;> rfl
@[simp] theorem State.sendMsix_cores (s : State) (p : Bool) (v : BitVec 11) : (s.sendMsix p v).cores = s.cores := by
  unfold State.sendMsix; split <;> rfl
@[simp] theorem State.sendMsix_stops (s : State) (p : Bool) (v : BitVec 11) : (s.sendMsix p v).stops = s.stops := by
  unfold State.sendMsix; split <;> rfl
@[simp] theorem State.sendMsix_parts (s : State) (p : Bool) (v : BitVec 11) : (s.sendMsix p v).parts = s.parts := by
  unfold State.sendMsix; split <;> rfl
@[simp] theorem State.sendMsix_replicas (s : State) (p : Bool) (v : BitVec 11) : (s.sendMsix p v).replicas = s.replicas := by
  unfold State.sendMsix; split <;> rfl
@[simp] theorem State.sendMsix_hostLines (s : State) (p : Bool) (v : BitVec 11) : (s.sendMsix p v).hostLines = s.hostLines := by
  unfold State.sendMsix; split <;> rfl
@[simp] theorem State.sendMsix_cxl (s : State) (p : Bool) (v : BitVec 11) : (s.sendMsix p v).cxl = s.cxl := by
  unfold State.sendMsix; split <;> rfl
@[simp] theorem State.sendMsix_replies (s : State) (p : Bool) (v : BitVec 11) : (s.sendMsix p v).replies = s.replies := by
  unfold State.sendMsix; split <;> rfl
@[simp] theorem State.sendMsix_masked (s : State) (p : Bool) (v : BitVec 11) : (s.sendMsix p v).masked = s.masked := by
  unfold State.sendMsix; split <;> rfl
@[simp] theorem State.sendMsix_linkUp (s : State) (p : Bool) (v : BitVec 11) : (s.sendMsix p v).linkUp = s.linkUp := by
  unfold State.sendMsix; split <;> rfl
@[simp] theorem State.sendMsix_dbase (s : State) (p : Bool) (v : BitVec 11) : (s.sendMsix p v).dbase = s.dbase := by
  unfold State.sendMsix; split <;> rfl
@[simp] theorem State.sendMsix_snoop (s : State) (p : Bool) (v : BitVec 11) : (s.sendMsix p v).snoop = s.snoop := by
  unfold State.sendMsix; split <;> rfl
@[simp] theorem State.sendMsix_sems (s : State) (p : Bool) (v : BitVec 11) : (s.sendMsix p v).sems = s.sems := by
  unfold State.sendMsix; split <;> rfl
@[simp] theorem State.sendMsix_leases (s : State) (p : Bool) (v : BitVec 11) : (s.sendMsix p v).leases = s.leases := by
  unfold State.sendMsix; split <;> rfl
@[simp] theorem State.sendMsix_irqsrc (s : State) (p : Bool) (v : BitVec 11) : (s.sendMsix p v).irqsrc = s.irqsrc := by
  unfold State.sendMsix; split <;> rfl
@[simp] theorem State.sendMsix_peerBase (s : State) (p : Bool) (v : BitVec 11) : (s.sendMsix p v).peerBase = s.peerBase := by
  unfold State.sendMsix; split <;> rfl
@[simp] theorem State.sendMsix_peerLim (s : State) (p : Bool) (v : BitVec 11) : (s.sendMsix p v).peerLim = s.peerLim := by
  unfold State.sendMsix; split <;> rfl
@[simp] theorem State.sendMsix_errBase (s : State) (p : Bool) (v : BitVec 11) : (s.sendMsix p v).errBase = s.errBase := by
  unfold State.sendMsix; split <;> rfl
@[simp] theorem State.sendMsix_errHead (s : State) (p : Bool) (v : BitVec 11) : (s.sendMsix p v).errHead = s.errHead := by
  unfold State.sendMsix; split <;> rfl
@[simp] theorem State.sendMsix_errTail (s : State) (p : Bool) (v : BitVec 11) : (s.sendMsix p v).errTail = s.errTail := by
  unfold State.sendMsix; split <;> rfl
@[simp] theorem State.sendMsix_errLost (s : State) (p : Bool) (v : BitVec 11) : (s.sendMsix p v).errLost = s.errLost := by
  unfold State.sendMsix; split <;> rfl
@[simp] theorem State.sendMsix_corrected (s : State) (p : Bool) (v : BitVec 11) : (s.sendMsix p v).corrected = s.corrected := by
  unfold State.sendMsix; split <;> rfl
@[simp] theorem State.sendMsix_badLines (s : State) (p : Bool) (v : BitVec 11) : (s.sendMsix p v).badLines = s.badLines := by
  unfold State.sendMsix; split <;> rfl
@[simp] theorem State.sendMsix_retries (s : State) (p : Bool) (v : BitVec 11) : (s.sendMsix p v).retries = s.retries := by
  unfold State.sendMsix; split <;> rfl
@[simp] theorem State.sendMsix_fwbuf (s : State) (p : Bool) (v : BitVec 11) : (s.sendMsix p v).fwbuf = s.fwbuf := by
  unfold State.sendMsix; split <;> rfl
@[simp] theorem State.sendMsix_fwstat (s : State) (p : Bool) (v : BitVec 11) : (s.sendMsix p v).fwstat = s.fwstat := by
  unfold State.sendMsix; split <;> rfl
@[simp] theorem State.sendMsix_fwbusy (s : State) (p : Bool) (v : BitVec 11) : (s.sendMsix p v).fwbusy = s.fwbusy := by
  unfold State.sendMsix; split <;> rfl
@[simp] theorem State.sendMsix_bootstat (s : State) (p : Bool) (v : BitVec 11) : (s.sendMsix p v).bootstat = s.bootstat := by
  unfold State.sendMsix; split <;> rfl
@[simp] theorem State.sendMsix_modpwr (s : State) (p : Bool) (v : BitVec 11) : (s.sendMsix p v).modpwr = s.modpwr := by
  unfold State.sendMsix; split <;> rfl
@[simp] theorem State.sendMsix_therm (s : State) (p : Bool) (v : BitVec 11) : (s.sendMsix p v).therm = s.therm := by
  unfold State.sendMsix; split <;> rfl
@[simp] theorem State.sendMsix_sensors (s : State) (p : Bool) (v : BitVec 11) : (s.sendMsix p v).sensors = s.sensors := by
  unfold State.sendMsix; split <;> rfl
@[simp] theorem State.sendMsix_powered (s : State) (p : Bool) (v : BitVec 11) : (s.sendMsix p v).powered = s.powered := by
  unfold State.sendMsix; split <;> rfl
@[simp] theorem State.sendMsix_bringUp (s : State) (p : Bool) (v : BitVec 11) : (s.sendMsix p v).bringUp = s.bringUp := by
  unfold State.sendMsix; split <;> rfl
@[simp] theorem State.sendMsix_badSpares (s : State) (p : Bool) (v : BitVec 11) : (s.sendMsix p v).badSpares = s.badSpares := by
  unfold State.sendMsix; split <;> rfl
@[simp] theorem State.sendMsix_capblock (s : State) (p : Bool) (v : BitVec 11) : (s.sendMsix p v).capblock = s.capblock := by
  unfold State.sendMsix; split <;> rfl
@[simp] theorem State.sendMsix_seed (s : State) (p : Bool) (v : BitVec 11) : (s.sendMsix p v).seed = s.seed := by
  unfold State.sendMsix; split <;> rfl
@[simp] theorem State.sendMsix_cert (s : State) (p : Bool) (v : BitVec 11) : (s.sendMsix p v).cert = s.cert := by
  unfold State.sendMsix; split <;> rfl
@[simp] theorem State.sendMsix_crust (s : State) (p : Bool) (v : BitVec 11) : (s.sendMsix p v).crust = s.crust := by
  unfold State.sendMsix; split <;> rfl
@[simp] theorem State.sendMsix_crumbs (s : State) (p : Bool) (v : BitVec 11) : (s.sendMsix p v).crumbs = s.crumbs := by
  unfold State.sendMsix; split <;> rfl
@[simp] theorem State.sendMsix_flash (s : State) (p : Bool) (v : BitVec 11) : (s.sendMsix p v).flash = s.flash := by
  unfold State.sendMsix; split <;> rfl
@[simp] theorem State.sendMsix_ringDown (s : State) (p : Bool) (v : BitVec 11) : (s.sendMsix p v).ringDown = s.ringDown := by
  unfold State.sendMsix; split <;> rfl
@[simp] theorem State.sendMsix_nextSpare (s : State) (p : Bool) (v : BitVec 11) : (s.sendMsix p v).nextSpare = s.nextSpare := by
  unfold State.sendMsix; split <;> rfl

/-- A message of a vector that the host has not masked, over a port whose link is up, is sent. -/
theorem State.sendMsix_sent (s : State) (p : Bool) (v : BitVec 11) (h : s.msixWaits p v = false) :
    s.sendMsix p v = { s with msix := s.msix ++ [(p, v)] } := by
  simp [State.sendMsix, h]

/-- Any other message is held, once for a vector. -/
theorem State.sendMsix_held (s : State) (p : Bool) (v : BitVec 11) (h : s.msixWaits p v = true) :
    s.sendMsix p v = { s with held := if s.held.contains (p, v) then s.held else s.held ++ [(p, v)] } := by
  simp [State.sendMsix, h]

/-! ### A pushed result -/

@[simp] theorem StreamSt.push_pc (t : StreamSt) (x : Word) : (t.push x).pc = t.pc := rfl
@[simp] theorem StreamSt.push_k (t : StreamSt) (x : Word) : (t.push x).k = t.k := rfl
@[simp] theorem StreamSt.push_p (t : StreamSt) (x : Word) : (t.push x).p = t.p := rfl
@[simp] theorem StreamSt.push_rstack (t : StreamSt) (x : Word) : (t.push x).rstack = t.rstack := rfl
@[simp] theorem StreamSt.push_fpctl (t : StreamSt) (x : Word) : (t.push x).fpctl = t.fpctl := rfl
@[simp] theorem StreamSt.push_fpflg (t : StreamSt) (x : Word) : (t.push x).fpflg = t.fpflg := rfl
@[simp] theorem StreamSt.push_stamp (t : StreamSt) (x : Word) : (t.push x).stamp = t.stamp := rfl
@[simp] theorem StreamSt.push_age (t : StreamSt) (x : Word) : (t.push x).age = t.age := rfl
@[simp] theorem StreamSt.push_lgate (t : StreamSt) (x : Word) : (t.push x).lgate = t.lgate := rfl
@[simp] theorem StreamSt.push_tcause (t : StreamSt) (x : Word) : (t.push x).tcause = t.tcause := rfl
@[simp] theorem StreamSt.push_tpc (t : StreamSt) (x : Word) : (t.push x).tpc = t.tpc := rfl
@[simp] theorem StreamSt.push_tlane (t : StreamSt) (x : Word) : (t.push x).tlane = t.tlane := rfl
@[simp] theorem StreamSt.push_tinfo (t : StreamSt) (x : Word) : (t.push x).tinfo = t.tinfo := rfl
@[simp] theorem StreamSt.push_thandler (t : StreamSt) (x : Word) : (t.push x).thandler = t.thandler := rfl
@[simp] theorem StreamSt.push_tresume (t : StreamSt) (x : Word) : (t.push x).tresume = t.tresume := rfl
@[simp] theorem StreamSt.push_atJoin (t : StreamSt) (x : Word) : (t.push x).atJoin = t.atJoin := rfl
@[simp] theorem StreamSt.push_notBefore (t : StreamSt) (x : Word) : (t.push x).notBefore = t.notBefore := rfl
@[simp] theorem StreamSt.push_skip (t : StreamSt) (x : Word) : (t.push x).skip = t.skip := rfl
@[simp] theorem StreamSt.push_bar (t : StreamSt) (x : Word) : (t.push x).bar = t.bar := rfl
@[simp] theorem StreamSt.push_claim (t : StreamSt) (x : Word) : (t.push x).claim = t.claim := rfl
@[simp] theorem StreamSt.push_out (t : StreamSt) (x : Word) : (t.push x).out = t.out := rfl
@[simp] theorem StreamSt.push_retireQ (t : StreamSt) (x : Word) : (t.push x).retireQ = t.retireQ := rfl
@[simp] theorem StreamSt.push_ring (t : StreamSt) (x : Word) : (t.push x).ring = t.ring := rfl
@[simp] theorem StreamSt.push_retired (t : StreamSt) (x : Word) : (t.push x).retired = t.retired := rfl

/-! ### A kept register written -/

@[simp] theorem StreamSt.setK_pc (t : StreamSt) (i : BitVec 4) (x : Word) : (t.setK i x).pc = t.pc := rfl
@[simp] theorem StreamSt.setK_k (t : StreamSt) (i : BitVec 4) (x : Word) : (t.setK i x).k = t.k.set i.toNat x i.isLt := rfl
@[simp] theorem StreamSt.setK_h (t : StreamSt) (i : BitVec 4) (x : Word) : (t.setK i x).h = t.h := rfl
@[simp] theorem StreamSt.setK_p (t : StreamSt) (i : BitVec 4) (x : Word) : (t.setK i x).p = t.p := rfl
@[simp] theorem StreamSt.setK_rstack (t : StreamSt) (i : BitVec 4) (x : Word) : (t.setK i x).rstack = t.rstack := rfl
@[simp] theorem StreamSt.setK_fpctl (t : StreamSt) (i : BitVec 4) (x : Word) : (t.setK i x).fpctl = t.fpctl := rfl
@[simp] theorem StreamSt.setK_fpflg (t : StreamSt) (i : BitVec 4) (x : Word) : (t.setK i x).fpflg = t.fpflg := rfl
@[simp] theorem StreamSt.setK_stamp (t : StreamSt) (i : BitVec 4) (x : Word) : (t.setK i x).stamp = t.stamp := rfl
@[simp] theorem StreamSt.setK_age (t : StreamSt) (i : BitVec 4) (x : Word) : (t.setK i x).age = t.age := rfl
@[simp] theorem StreamSt.setK_lgate (t : StreamSt) (i : BitVec 4) (x : Word) : (t.setK i x).lgate = t.lgate := rfl
@[simp] theorem StreamSt.setK_tcause (t : StreamSt) (i : BitVec 4) (x : Word) : (t.setK i x).tcause = t.tcause := rfl
@[simp] theorem StreamSt.setK_tpc (t : StreamSt) (i : BitVec 4) (x : Word) : (t.setK i x).tpc = t.tpc := rfl
@[simp] theorem StreamSt.setK_tlane (t : StreamSt) (i : BitVec 4) (x : Word) : (t.setK i x).tlane = t.tlane := rfl
@[simp] theorem StreamSt.setK_tinfo (t : StreamSt) (i : BitVec 4) (x : Word) : (t.setK i x).tinfo = t.tinfo := rfl
@[simp] theorem StreamSt.setK_thandler (t : StreamSt) (i : BitVec 4) (x : Word) : (t.setK i x).thandler = t.thandler := rfl
@[simp] theorem StreamSt.setK_tresume (t : StreamSt) (i : BitVec 4) (x : Word) : (t.setK i x).tresume = t.tresume := rfl
@[simp] theorem StreamSt.setK_atJoin (t : StreamSt) (i : BitVec 4) (x : Word) : (t.setK i x).atJoin = t.atJoin := rfl
@[simp] theorem StreamSt.setK_notBefore (t : StreamSt) (i : BitVec 4) (x : Word) : (t.setK i x).notBefore = t.notBefore := rfl
@[simp] theorem StreamSt.setK_skip (t : StreamSt) (i : BitVec 4) (x : Word) : (t.setK i x).skip = t.skip := rfl
@[simp] theorem StreamSt.setK_bar (t : StreamSt) (i : BitVec 4) (x : Word) : (t.setK i x).bar = t.bar := rfl
@[simp] theorem StreamSt.setK_claim (t : StreamSt) (i : BitVec 4) (x : Word) : (t.setK i x).claim = t.claim := rfl
@[simp] theorem StreamSt.setK_out (t : StreamSt) (i : BitVec 4) (x : Word) : (t.setK i x).out = t.out := rfl
@[simp] theorem StreamSt.setK_retireQ (t : StreamSt) (i : BitVec 4) (x : Word) : (t.setK i x).retireQ = t.retireQ := rfl
@[simp] theorem StreamSt.setK_ring (t : StreamSt) (i : BitVec 4) (x : Word) : (t.setK i x).ring = t.ring := rfl
@[simp] theorem StreamSt.setK_retired (t : StreamSt) (i : BitVec 4) (x : Word) : (t.setK i x).retired = t.retired := rfl

/-! ### A trap record -/

@[simp] theorem StreamSt.setTrap_pc (t : StreamSt) (r : TrapRec) : (t.setTrap r).pc = t.pc := rfl
@[simp] theorem StreamSt.setTrap_k (t : StreamSt) (r : TrapRec) : (t.setTrap r).k = t.k := rfl
@[simp] theorem StreamSt.setTrap_h (t : StreamSt) (r : TrapRec) : (t.setTrap r).h = t.h := rfl
@[simp] theorem StreamSt.setTrap_p (t : StreamSt) (r : TrapRec) : (t.setTrap r).p = t.p := rfl
@[simp] theorem StreamSt.setTrap_rstack (t : StreamSt) (r : TrapRec) : (t.setTrap r).rstack = t.rstack := rfl
@[simp] theorem StreamSt.setTrap_fpctl (t : StreamSt) (r : TrapRec) : (t.setTrap r).fpctl = t.fpctl := rfl
@[simp] theorem StreamSt.setTrap_fpflg (t : StreamSt) (r : TrapRec) : (t.setTrap r).fpflg = t.fpflg := rfl
@[simp] theorem StreamSt.setTrap_stamp (t : StreamSt) (r : TrapRec) : (t.setTrap r).stamp = t.stamp := rfl
@[simp] theorem StreamSt.setTrap_age (t : StreamSt) (r : TrapRec) : (t.setTrap r).age = t.age := rfl
@[simp] theorem StreamSt.setTrap_lgate (t : StreamSt) (r : TrapRec) : (t.setTrap r).lgate = t.lgate := rfl
@[simp] theorem StreamSt.setTrap_tcause (t : StreamSt) (r : TrapRec) : (t.setTrap r).tcause = r.cause.setWidth 64 := rfl
@[simp] theorem StreamSt.setTrap_tpc (t : StreamSt) (r : TrapRec) : (t.setTrap r).tpc = r.tpc := rfl
@[simp] theorem StreamSt.setTrap_tlane (t : StreamSt) (r : TrapRec) : (t.setTrap r).tlane = r.lane := rfl
@[simp] theorem StreamSt.setTrap_tinfo (t : StreamSt) (r : TrapRec) : (t.setTrap r).tinfo = r.info := rfl
@[simp] theorem StreamSt.setTrap_thandler (t : StreamSt) (r : TrapRec) : (t.setTrap r).thandler = t.thandler := rfl
@[simp] theorem StreamSt.setTrap_tresume (t : StreamSt) (r : TrapRec) : (t.setTrap r).tresume = t.tresume := rfl
@[simp] theorem StreamSt.setTrap_atJoin (t : StreamSt) (r : TrapRec) : (t.setTrap r).atJoin = (t.atJoin && t.pc == noWord) := rfl
@[simp] theorem StreamSt.setTrap_notBefore (t : StreamSt) (r : TrapRec) : (t.setTrap r).notBefore = t.notBefore := rfl
@[simp] theorem StreamSt.setTrap_skip (t : StreamSt) (r : TrapRec) : (t.setTrap r).skip = t.skip := rfl
@[simp] theorem StreamSt.setTrap_bar (t : StreamSt) (r : TrapRec) : (t.setTrap r).bar = none := rfl
@[simp] theorem StreamSt.setTrap_out (t : StreamSt) (r : TrapRec) : (t.setTrap r).out = none := rfl
@[simp] theorem StreamSt.setTrap_claim (t : StreamSt) (r : TrapRec) : (t.setTrap r).claim = t.claim := rfl
@[simp] theorem StreamSt.setTrap_retireQ (t : StreamSt) (r : TrapRec) : (t.setTrap r).retireQ = t.retireQ := rfl
@[simp] theorem StreamSt.setTrap_ring (t : StreamSt) (r : TrapRec) : (t.setTrap r).ring = t.ring := rfl
@[simp] theorem StreamSt.setTrap_retired (t : StreamSt) (r : TrapRec) : (t.setTrap r).retired = t.retired := rfl

/-! ### Exceptions joined -/

@[simp] theorem StreamSt.orFlags_pc (t : StreamSt) (f : BitVec 5) : (t.orFlags f).pc = t.pc := rfl
@[simp] theorem StreamSt.orFlags_k (t : StreamSt) (f : BitVec 5) : (t.orFlags f).k = t.k := rfl
@[simp] theorem StreamSt.orFlags_h (t : StreamSt) (f : BitVec 5) : (t.orFlags f).h = t.h := rfl
@[simp] theorem StreamSt.orFlags_p (t : StreamSt) (f : BitVec 5) : (t.orFlags f).p = t.p := rfl
@[simp] theorem StreamSt.orFlags_rstack (t : StreamSt) (f : BitVec 5) : (t.orFlags f).rstack = t.rstack := rfl
@[simp] theorem StreamSt.orFlags_fpctl (t : StreamSt) (f : BitVec 5) : (t.orFlags f).fpctl = t.fpctl := rfl
@[simp] theorem StreamSt.orFlags_fpflg (t : StreamSt) (f : BitVec 5) : (t.orFlags f).fpflg = t.fpflg ||| f.setWidth 64 := rfl
@[simp] theorem StreamSt.orFlags_stamp (t : StreamSt) (f : BitVec 5) : (t.orFlags f).stamp = t.stamp := rfl
@[simp] theorem StreamSt.orFlags_age (t : StreamSt) (f : BitVec 5) : (t.orFlags f).age = t.age := rfl
@[simp] theorem StreamSt.orFlags_lgate (t : StreamSt) (f : BitVec 5) : (t.orFlags f).lgate = t.lgate := rfl
@[simp] theorem StreamSt.orFlags_tcause (t : StreamSt) (f : BitVec 5) : (t.orFlags f).tcause = t.tcause := rfl
@[simp] theorem StreamSt.orFlags_tpc (t : StreamSt) (f : BitVec 5) : (t.orFlags f).tpc = t.tpc := rfl
@[simp] theorem StreamSt.orFlags_tlane (t : StreamSt) (f : BitVec 5) : (t.orFlags f).tlane = t.tlane := rfl
@[simp] theorem StreamSt.orFlags_tinfo (t : StreamSt) (f : BitVec 5) : (t.orFlags f).tinfo = t.tinfo := rfl
@[simp] theorem StreamSt.orFlags_thandler (t : StreamSt) (f : BitVec 5) : (t.orFlags f).thandler = t.thandler := rfl
@[simp] theorem StreamSt.orFlags_tresume (t : StreamSt) (f : BitVec 5) : (t.orFlags f).tresume = t.tresume := rfl
@[simp] theorem StreamSt.orFlags_atJoin (t : StreamSt) (f : BitVec 5) : (t.orFlags f).atJoin = t.atJoin := rfl
@[simp] theorem StreamSt.orFlags_notBefore (t : StreamSt) (f : BitVec 5) : (t.orFlags f).notBefore = t.notBefore := rfl
@[simp] theorem StreamSt.orFlags_skip (t : StreamSt) (f : BitVec 5) : (t.orFlags f).skip = t.skip := rfl
@[simp] theorem StreamSt.orFlags_bar (t : StreamSt) (f : BitVec 5) : (t.orFlags f).bar = t.bar := rfl
@[simp] theorem StreamSt.orFlags_claim (t : StreamSt) (f : BitVec 5) : (t.orFlags f).claim = t.claim := rfl
@[simp] theorem StreamSt.orFlags_out (t : StreamSt) (f : BitVec 5) : (t.orFlags f).out = t.out := rfl
@[simp] theorem StreamSt.orFlags_retireQ (t : StreamSt) (f : BitVec 5) : (t.orFlags f).retireQ = t.retireQ := rfl
@[simp] theorem StreamSt.orFlags_ring (t : StreamSt) (f : BitVec 5) : (t.orFlags f).ring = t.ring := rfl
@[simp] theorem StreamSt.orFlags_retired (t : StreamSt) (f : BitVec 5) : (t.orFlags f).retired = t.retired := rfl

/-! ### A token popped -/

@[simp] theorem Job.popToken_mem (j : Job) (y x : StreamId) : (j.popToken y x).mem = j.mem := rfl
@[simp] theorem Job.popToken_phase (j : Job) (y x : StreamId) : (j.popToken y x).phase = j.phase := rfl
@[simp] theorem Job.popToken_core (j : Job) (y x : StreamId) : (j.popToken y x).core = j.core := rfl
@[simp] theorem Job.popToken_urgent (j : Job) (y x : StreamId) : (j.popToken y x).urgent = j.urgent := rfl
@[simp] theorem Job.popToken_timed (j : Job) (y x : StreamId) : (j.popToken y x).timed = j.timed := rfl
@[simp] theorem Job.popToken_det (j : Job) (y x : StreamId) : (j.popToken y x).det = j.det := rfl
@[simp] theorem Job.popToken_jstart (j : Job) (y x : StreamId) : (j.popToken y x).jstart = j.jstart := rfl
@[simp] theorem Job.popToken_budget (j : Job) (y x : StreamId) : (j.popToken y x).budget = j.budget := rfl
@[simp] theorem Job.popToken_c (j : Job) (y x : StreamId) : (j.popToken y x).c = j.c := rfl
@[simp] theorem Job.popToken_l (j : Job) (y x : StreamId) : (j.popToken y x).l = j.l := rfl
@[simp] theorem Job.popToken_vs (j : Job) (y x : StreamId) : (j.popToken y x).vs = j.vs := rfl
@[simp] theorem Job.popToken_m (j : Job) (y x : StreamId) : (j.popToken y x).m = j.m := rfl
@[simp] theorem Job.popToken_s (j : Job) (y x : StreamId) : (j.popToken y x).s = j.s := rfl
@[simp] theorem Job.popToken_queues (j : Job) (y x : StreamId) : (j.popToken y x).queues = j.queues := rfl
@[simp] theorem Job.popToken_v (j : Job) (y x : StreamId) : (j.popToken y x).v = j.v := rfl
@[simp] theorem Job.popToken_board (j : Job) (y x : StreamId) : (j.popToken y x).board = j.board := rfl
@[simp] theorem Job.popToken_masks (j : Job) (y x : StreamId) : (j.popToken y x).masks = j.masks := rfl
@[simp] theorem Job.popToken_tiles (j : Job) (y x : StreamId) : (j.popToken y x).tiles = j.tiles := rfl
@[simp] theorem Job.popToken_books (j : Job) (y x : StreamId) : (j.popToken y x).books = j.books := rfl
@[simp] theorem Job.popToken_layouts (j : Job) (y x : StreamId) : (j.popToken y x).layouts = j.layouts := rfl
@[simp] theorem Job.popToken_feeds (j : Job) (y x : StreamId) : (j.popToken y x).feeds = j.feeds := rfl
@[simp] theorem Job.popToken_rsvd (j : Job) (y x : StreamId) : (j.popToken y x).rsvd = j.rsvd := rfl
@[simp] theorem Job.popToken_lme (j : Job) (y x : StreamId) : (j.popToken y x).lme = j.lme := rfl
@[simp] theorem Job.popToken_shL (j : Job) (y x : StreamId) : (j.popToken y x).shL = j.shL := rfl
@[simp] theorem Job.popToken_shS (j : Job) (y x : StreamId) : (j.popToken y x).shS = j.shS := rfl
@[simp] theorem Job.popToken_cmds (j : Job) (y x : StreamId) : (j.popToken y x).cmds = j.cmds := rfl
@[simp] theorem Job.popToken_waits (j : Job) (y x : StreamId) : (j.popToken y x).waits = j.waits := rfl
@[simp] theorem Job.popToken_nextCmd (j : Job) (y x : StreamId) : (j.popToken y x).nextCmd = j.nextCmd := rfl
@[simp] theorem Job.popToken_overflow (j : Job) (y x : StreamId) : (j.popToken y x).overflow = j.overflow := rfl
@[simp] theorem Job.popToken_append (j : Job) (y x : StreamId) : (j.popToken y x).append = j.append := rfl
@[simp] theorem Job.popToken_sp (j : Job) (y x : StreamId) : (j.popToken y x).sp = j.sp := rfl
@[simp] theorem Job.popToken_ts (j : Job) (y x : StreamId) : (j.popToken y x).ts = j.ts := rfl
@[simp] theorem Job.popToken_spBad (j : Job) (y x : StreamId) : (j.popToken y x).spBad = j.spBad := rfl
@[simp] theorem Job.popToken_tsBad (j : Job) (y x : StreamId) : (j.popToken y x).tsBad = j.tsBad := rfl
@[simp] theorem Job.popToken_tileBad (j : Job) (y x : StreamId) : (j.popToken y x).tileBad = j.tileBad := rfl
@[simp] theorem Job.popToken_w0 (j : Job) (y x : StreamId) : (j.popToken y x).w0 = j.w0 := rfl
@[simp] theorem Job.popToken_w1 (j : Job) (y x : StreamId) : (j.popToken y x).w1 = j.w1 := rfl
@[simp] theorem Job.popToken_tsw (j : Job) (y x : StreamId) : (j.popToken y x).tsw = j.tsw := rfl
@[simp] theorem Job.popToken_bank (j : Job) (y x : StreamId) : (j.popToken y x).bank = j.bank := rfl
@[simp] theorem Job.popToken_discmap (j : Job) (y x : StreamId) : (j.popToken y x).discmap = j.discmap := rfl
@[simp] theorem Job.popToken_lost (j : Job) (y x : StreamId) : (j.popToken y x).lost = j.lost := rfl
@[simp] theorem Job.popToken_discarded (j : Job) (y x : StreamId) : (j.popToken y x).discarded = j.discarded := rfl
@[simp] theorem Job.popToken_handler (j : Job) (y x : StreamId) : (j.popToken y x).handler = j.handler := rfl
@[simp] theorem Job.popToken_pendTrap (j : Job) (y x : StreamId) : (j.popToken y x).pendTrap = j.pendTrap := rfl
@[simp] theorem Job.popToken_susp (j : Job) (y x : StreamId) : (j.popToken y x).susp = j.susp := rfl
@[simp] theorem Job.popToken_victim (j : Job) (y x : StreamId) : (j.popToken y x).victim = j.victim := rfl
@[simp] theorem Job.popToken_swapAt (j : Job) (y x : StreamId) : (j.popToken y x).swapAt = j.swapAt := rfl
@[simp] theorem Job.popToken_swapBy (j : Job) (y x : StreamId) : (j.popToken y x).swapBy = j.swapBy := rfl
@[simp] theorem Job.popToken_draining (j : Job) (y x : StreamId) : (j.popToken y x).draining = j.draining := rfl
@[simp] theorem Job.popToken_pacc (j : Job) (y x : StreamId) : (j.popToken y x).pacc = j.pacc := rfl
@[simp] theorem Job.popToken_barGen (j : Job) (y x : StreamId) : (j.popToken y x).barGen = j.barGen := rfl
@[simp] theorem Job.popToken_barAt (j : Job) (y x : StreamId) : (j.popToken y x).barAt = j.barAt := rfl
@[simp] theorem Job.popToken_loop (j : Job) (y x : StreamId) : (j.popToken y x).loop = j.loop := rfl
@[simp] theorem Job.popToken_proofOk (j : Job) (y x : StreamId) : (j.popToken y x).proofOk = j.proofOk := rfl
@[simp] theorem Job.popToken_proofSq (j : Job) (y x : StreamId) : (j.popToken y x).proofSq = j.proofSq := rfl
@[simp] theorem Job.popToken_proofNo (j : Job) (y x : StreamId) : (j.popToken y x).proofNo = j.proofNo := rfl
@[simp] theorem Job.popToken_owed (j : Job) (y x : StreamId) : (j.popToken y x).owed = j.owed := rfl
@[simp] theorem Job.popToken_fault (j : Job) (y x : StreamId) : (j.popToken y x).fault = j.fault := rfl
@[simp] theorem Job.popToken_helpers (j : Job) (y x : StreamId) : (j.popToken y x).helpers = j.helpers := rfl

/-! ### An entry popped -/

@[simp] theorem Job.popQueue_mem (j : Job) (y x : StreamId) : (j.popQueue y x).mem = j.mem := rfl
@[simp] theorem Job.popQueue_phase (j : Job) (y x : StreamId) : (j.popQueue y x).phase = j.phase := rfl
@[simp] theorem Job.popQueue_core (j : Job) (y x : StreamId) : (j.popQueue y x).core = j.core := rfl
@[simp] theorem Job.popQueue_urgent (j : Job) (y x : StreamId) : (j.popQueue y x).urgent = j.urgent := rfl
@[simp] theorem Job.popQueue_timed (j : Job) (y x : StreamId) : (j.popQueue y x).timed = j.timed := rfl
@[simp] theorem Job.popQueue_det (j : Job) (y x : StreamId) : (j.popQueue y x).det = j.det := rfl
@[simp] theorem Job.popQueue_jstart (j : Job) (y x : StreamId) : (j.popQueue y x).jstart = j.jstart := rfl
@[simp] theorem Job.popQueue_budget (j : Job) (y x : StreamId) : (j.popQueue y x).budget = j.budget := rfl
@[simp] theorem Job.popQueue_c (j : Job) (y x : StreamId) : (j.popQueue y x).c = j.c := rfl
@[simp] theorem Job.popQueue_l (j : Job) (y x : StreamId) : (j.popQueue y x).l = j.l := rfl
@[simp] theorem Job.popQueue_vs (j : Job) (y x : StreamId) : (j.popQueue y x).vs = j.vs := rfl
@[simp] theorem Job.popQueue_m (j : Job) (y x : StreamId) : (j.popQueue y x).m = j.m := rfl
@[simp] theorem Job.popQueue_s (j : Job) (y x : StreamId) : (j.popQueue y x).s = j.s := rfl
@[simp] theorem Job.popQueue_tokens (j : Job) (y x : StreamId) : (j.popQueue y x).tokens = j.tokens := rfl
@[simp] theorem Job.popQueue_v (j : Job) (y x : StreamId) : (j.popQueue y x).v = j.v := rfl
@[simp] theorem Job.popQueue_board (j : Job) (y x : StreamId) : (j.popQueue y x).board = j.board := rfl
@[simp] theorem Job.popQueue_masks (j : Job) (y x : StreamId) : (j.popQueue y x).masks = j.masks := rfl
@[simp] theorem Job.popQueue_tiles (j : Job) (y x : StreamId) : (j.popQueue y x).tiles = j.tiles := rfl
@[simp] theorem Job.popQueue_books (j : Job) (y x : StreamId) : (j.popQueue y x).books = j.books := rfl
@[simp] theorem Job.popQueue_layouts (j : Job) (y x : StreamId) : (j.popQueue y x).layouts = j.layouts := rfl
@[simp] theorem Job.popQueue_feeds (j : Job) (y x : StreamId) : (j.popQueue y x).feeds = j.feeds := rfl
@[simp] theorem Job.popQueue_rsvd (j : Job) (y x : StreamId) : (j.popQueue y x).rsvd = j.rsvd := rfl
@[simp] theorem Job.popQueue_lme (j : Job) (y x : StreamId) : (j.popQueue y x).lme = j.lme := rfl
@[simp] theorem Job.popQueue_shL (j : Job) (y x : StreamId) : (j.popQueue y x).shL = j.shL := rfl
@[simp] theorem Job.popQueue_shS (j : Job) (y x : StreamId) : (j.popQueue y x).shS = j.shS := rfl
@[simp] theorem Job.popQueue_cmds (j : Job) (y x : StreamId) : (j.popQueue y x).cmds = j.cmds := rfl
@[simp] theorem Job.popQueue_waits (j : Job) (y x : StreamId) : (j.popQueue y x).waits = j.waits := rfl
@[simp] theorem Job.popQueue_nextCmd (j : Job) (y x : StreamId) : (j.popQueue y x).nextCmd = j.nextCmd := rfl
@[simp] theorem Job.popQueue_overflow (j : Job) (y x : StreamId) : (j.popQueue y x).overflow = j.overflow := rfl
@[simp] theorem Job.popQueue_append (j : Job) (y x : StreamId) : (j.popQueue y x).append = j.append := rfl
@[simp] theorem Job.popQueue_sp (j : Job) (y x : StreamId) : (j.popQueue y x).sp = j.sp := rfl
@[simp] theorem Job.popQueue_ts (j : Job) (y x : StreamId) : (j.popQueue y x).ts = j.ts := rfl
@[simp] theorem Job.popQueue_spBad (j : Job) (y x : StreamId) : (j.popQueue y x).spBad = j.spBad := rfl
@[simp] theorem Job.popQueue_tsBad (j : Job) (y x : StreamId) : (j.popQueue y x).tsBad = j.tsBad := rfl
@[simp] theorem Job.popQueue_tileBad (j : Job) (y x : StreamId) : (j.popQueue y x).tileBad = j.tileBad := rfl
@[simp] theorem Job.popQueue_w0 (j : Job) (y x : StreamId) : (j.popQueue y x).w0 = j.w0 := rfl
@[simp] theorem Job.popQueue_w1 (j : Job) (y x : StreamId) : (j.popQueue y x).w1 = j.w1 := rfl
@[simp] theorem Job.popQueue_tsw (j : Job) (y x : StreamId) : (j.popQueue y x).tsw = j.tsw := rfl
@[simp] theorem Job.popQueue_bank (j : Job) (y x : StreamId) : (j.popQueue y x).bank = j.bank := rfl
@[simp] theorem Job.popQueue_discmap (j : Job) (y x : StreamId) : (j.popQueue y x).discmap = j.discmap := rfl
@[simp] theorem Job.popQueue_lost (j : Job) (y x : StreamId) : (j.popQueue y x).lost = j.lost := rfl
@[simp] theorem Job.popQueue_discarded (j : Job) (y x : StreamId) : (j.popQueue y x).discarded = j.discarded := rfl
@[simp] theorem Job.popQueue_handler (j : Job) (y x : StreamId) : (j.popQueue y x).handler = j.handler := rfl
@[simp] theorem Job.popQueue_pendTrap (j : Job) (y x : StreamId) : (j.popQueue y x).pendTrap = j.pendTrap := rfl
@[simp] theorem Job.popQueue_susp (j : Job) (y x : StreamId) : (j.popQueue y x).susp = j.susp := rfl
@[simp] theorem Job.popQueue_victim (j : Job) (y x : StreamId) : (j.popQueue y x).victim = j.victim := rfl
@[simp] theorem Job.popQueue_swapAt (j : Job) (y x : StreamId) : (j.popQueue y x).swapAt = j.swapAt := rfl
@[simp] theorem Job.popQueue_swapBy (j : Job) (y x : StreamId) : (j.popQueue y x).swapBy = j.swapBy := rfl
@[simp] theorem Job.popQueue_draining (j : Job) (y x : StreamId) : (j.popQueue y x).draining = j.draining := rfl
@[simp] theorem Job.popQueue_pacc (j : Job) (y x : StreamId) : (j.popQueue y x).pacc = j.pacc := rfl
@[simp] theorem Job.popQueue_barGen (j : Job) (y x : StreamId) : (j.popQueue y x).barGen = j.barGen := rfl
@[simp] theorem Job.popQueue_barAt (j : Job) (y x : StreamId) : (j.popQueue y x).barAt = j.barAt := rfl
@[simp] theorem Job.popQueue_loop (j : Job) (y x : StreamId) : (j.popQueue y x).loop = j.loop := rfl
@[simp] theorem Job.popQueue_proofOk (j : Job) (y x : StreamId) : (j.popQueue y x).proofOk = j.proofOk := rfl
@[simp] theorem Job.popQueue_proofSq (j : Job) (y x : StreamId) : (j.popQueue y x).proofSq = j.proofSq := rfl
@[simp] theorem Job.popQueue_proofNo (j : Job) (y x : StreamId) : (j.popQueue y x).proofNo = j.proofNo := rfl
@[simp] theorem Job.popQueue_owed (j : Job) (y x : StreamId) : (j.popQueue y x).owed = j.owed := rfl
@[simp] theorem Job.popQueue_fault (j : Job) (y x : StreamId) : (j.popQueue y x).fault = j.fault := rfl
@[simp] theorem Job.popQueue_helpers (j : Job) (y x : StreamId) : (j.popQueue y x).helpers = j.helpers := rfl

/-! ### Scratchpad bytes -/

@[simp] theorem Job.spPut_mem (j : Job) (a : Nat) (b : List Byte) : (j.spPut a b).mem = j.mem := rfl
@[simp] theorem Job.spPut_phase (j : Job) (a : Nat) (b : List Byte) : (j.spPut a b).phase = j.phase := rfl
@[simp] theorem Job.spPut_core (j : Job) (a : Nat) (b : List Byte) : (j.spPut a b).core = j.core := rfl
@[simp] theorem Job.spPut_urgent (j : Job) (a : Nat) (b : List Byte) : (j.spPut a b).urgent = j.urgent := rfl
@[simp] theorem Job.spPut_timed (j : Job) (a : Nat) (b : List Byte) : (j.spPut a b).timed = j.timed := rfl
@[simp] theorem Job.spPut_det (j : Job) (a : Nat) (b : List Byte) : (j.spPut a b).det = j.det := rfl
@[simp] theorem Job.spPut_jstart (j : Job) (a : Nat) (b : List Byte) : (j.spPut a b).jstart = j.jstart := rfl
@[simp] theorem Job.spPut_budget (j : Job) (a : Nat) (b : List Byte) : (j.spPut a b).budget = j.budget := rfl
@[simp] theorem Job.spPut_c (j : Job) (a : Nat) (b : List Byte) : (j.spPut a b).c = j.c := rfl
@[simp] theorem Job.spPut_l (j : Job) (a : Nat) (b : List Byte) : (j.spPut a b).l = j.l := rfl
@[simp] theorem Job.spPut_vs (j : Job) (a : Nat) (b : List Byte) : (j.spPut a b).vs = j.vs := rfl
@[simp] theorem Job.spPut_m (j : Job) (a : Nat) (b : List Byte) : (j.spPut a b).m = j.m := rfl
@[simp] theorem Job.spPut_s (j : Job) (a : Nat) (b : List Byte) : (j.spPut a b).s = j.s := rfl
@[simp] theorem Job.spPut_tokens (j : Job) (a : Nat) (b : List Byte) : (j.spPut a b).tokens = j.tokens := rfl
@[simp] theorem Job.spPut_queues (j : Job) (a : Nat) (b : List Byte) : (j.spPut a b).queues = j.queues := rfl
@[simp] theorem Job.spPut_v (j : Job) (a : Nat) (b : List Byte) : (j.spPut a b).v = j.v := rfl
@[simp] theorem Job.spPut_board (j : Job) (a : Nat) (b : List Byte) : (j.spPut a b).board = j.board := rfl
@[simp] theorem Job.spPut_masks (j : Job) (a : Nat) (b : List Byte) : (j.spPut a b).masks = j.masks := rfl
@[simp] theorem Job.spPut_tiles (j : Job) (a : Nat) (b : List Byte) : (j.spPut a b).tiles = j.tiles := rfl
@[simp] theorem Job.spPut_books (j : Job) (a : Nat) (b : List Byte) : (j.spPut a b).books = j.books := rfl
@[simp] theorem Job.spPut_layouts (j : Job) (a : Nat) (b : List Byte) : (j.spPut a b).layouts = j.layouts := rfl
@[simp] theorem Job.spPut_feeds (j : Job) (a : Nat) (b : List Byte) : (j.spPut a b).feeds = j.feeds := rfl
@[simp] theorem Job.spPut_rsvd (j : Job) (a : Nat) (b : List Byte) : (j.spPut a b).rsvd = j.rsvd := rfl
@[simp] theorem Job.spPut_lme (j : Job) (a : Nat) (b : List Byte) : (j.spPut a b).lme = j.lme := rfl
@[simp] theorem Job.spPut_shL (j : Job) (a : Nat) (b : List Byte) : (j.spPut a b).shL = j.shL := rfl
@[simp] theorem Job.spPut_shS (j : Job) (a : Nat) (b : List Byte) : (j.spPut a b).shS = j.shS := rfl
@[simp] theorem Job.spPut_cmds (j : Job) (a : Nat) (b : List Byte) : (j.spPut a b).cmds = j.cmds := rfl
@[simp] theorem Job.spPut_waits (j : Job) (a : Nat) (b : List Byte) : (j.spPut a b).waits = j.waits := rfl
@[simp] theorem Job.spPut_nextCmd (j : Job) (a : Nat) (b : List Byte) : (j.spPut a b).nextCmd = j.nextCmd := rfl
@[simp] theorem Job.spPut_overflow (j : Job) (a : Nat) (b : List Byte) : (j.spPut a b).overflow = j.overflow := rfl
@[simp] theorem Job.spPut_append (j : Job) (a : Nat) (b : List Byte) : (j.spPut a b).append = j.append := rfl
@[simp] theorem Job.spPut_sp (j : Job) (a : Nat) (b : List Byte) : (j.spPut a b).sp = cellPutN j.sp a b := rfl
@[simp] theorem Job.spPut_ts (j : Job) (a : Nat) (b : List Byte) : (j.spPut a b).ts = j.ts := rfl
@[simp] theorem Job.spPut_spBad (j : Job) (a : Nat) (b : List Byte) : (j.spPut a b).spBad = unitsAfter j.spBad a b.length := rfl
@[simp] theorem Job.spPut_tsBad (j : Job) (a : Nat) (b : List Byte) : (j.spPut a b).tsBad = j.tsBad := rfl
@[simp] theorem Job.spPut_tileBad (j : Job) (a : Nat) (b : List Byte) : (j.spPut a b).tileBad = j.tileBad := rfl
@[simp] theorem Job.spPut_w0 (j : Job) (a : Nat) (b : List Byte) : (j.spPut a b).w0 = j.w0 := rfl
@[simp] theorem Job.spPut_w1 (j : Job) (a : Nat) (b : List Byte) : (j.spPut a b).w1 = j.w1 := rfl
@[simp] theorem Job.spPut_tsw (j : Job) (a : Nat) (b : List Byte) : (j.spPut a b).tsw = j.tsw := rfl
@[simp] theorem Job.spPut_bank (j : Job) (a : Nat) (b : List Byte) : (j.spPut a b).bank = j.bank := rfl
@[simp] theorem Job.spPut_discmap (j : Job) (a : Nat) (b : List Byte) : (j.spPut a b).discmap = j.discmap := rfl
@[simp] theorem Job.spPut_lost (j : Job) (a : Nat) (b : List Byte) : (j.spPut a b).lost = j.lost := rfl
@[simp] theorem Job.spPut_discarded (j : Job) (a : Nat) (b : List Byte) : (j.spPut a b).discarded = j.discarded := rfl
@[simp] theorem Job.spPut_handler (j : Job) (a : Nat) (b : List Byte) : (j.spPut a b).handler = j.handler := rfl
@[simp] theorem Job.spPut_pendTrap (j : Job) (a : Nat) (b : List Byte) : (j.spPut a b).pendTrap = j.pendTrap := rfl
@[simp] theorem Job.spPut_susp (j : Job) (a : Nat) (b : List Byte) : (j.spPut a b).susp = j.susp := rfl
@[simp] theorem Job.spPut_victim (j : Job) (a : Nat) (b : List Byte) : (j.spPut a b).victim = j.victim := rfl
@[simp] theorem Job.spPut_swapAt (j : Job) (a : Nat) (b : List Byte) : (j.spPut a b).swapAt = j.swapAt := rfl
@[simp] theorem Job.spPut_swapBy (j : Job) (a : Nat) (b : List Byte) : (j.spPut a b).swapBy = j.swapBy := rfl
@[simp] theorem Job.spPut_draining (j : Job) (a : Nat) (b : List Byte) : (j.spPut a b).draining = j.draining := rfl
@[simp] theorem Job.spPut_pacc (j : Job) (a : Nat) (b : List Byte) : (j.spPut a b).pacc = j.pacc := rfl
@[simp] theorem Job.spPut_barGen (j : Job) (a : Nat) (b : List Byte) : (j.spPut a b).barGen = j.barGen := rfl
@[simp] theorem Job.spPut_barAt (j : Job) (a : Nat) (b : List Byte) : (j.spPut a b).barAt = j.barAt := rfl
@[simp] theorem Job.spPut_loop (j : Job) (a : Nat) (b : List Byte) : (j.spPut a b).loop = j.loop := rfl
@[simp] theorem Job.spPut_proofOk (j : Job) (a : Nat) (b : List Byte) : (j.spPut a b).proofOk = j.proofOk := rfl
@[simp] theorem Job.spPut_proofSq (j : Job) (a : Nat) (b : List Byte) : (j.spPut a b).proofSq = j.proofSq := rfl
@[simp] theorem Job.spPut_proofNo (j : Job) (a : Nat) (b : List Byte) : (j.spPut a b).proofNo = j.proofNo := rfl
@[simp] theorem Job.spPut_owed (j : Job) (a : Nat) (b : List Byte) : (j.spPut a b).owed = j.owed := rfl
@[simp] theorem Job.spPut_fault (j : Job) (a : Nat) (b : List Byte) : (j.spPut a b).fault = j.fault := rfl
@[simp] theorem Job.spPut_helpers (j : Job) (a : Nat) (b : List Byte) : (j.spPut a b).helpers = j.helpers := rfl

/-! ### A vector register -/

@[simp] theorem Job.vecPut_mem (j : Job) (t : Touch) (x : VReg) : (j.vecPut t x).mem = j.mem := rfl
@[simp] theorem Job.vecPut_phase (j : Job) (t : Touch) (x : VReg) : (j.vecPut t x).phase = j.phase := rfl
@[simp] theorem Job.vecPut_core (j : Job) (t : Touch) (x : VReg) : (j.vecPut t x).core = j.core := rfl
@[simp] theorem Job.vecPut_urgent (j : Job) (t : Touch) (x : VReg) : (j.vecPut t x).urgent = j.urgent := rfl
@[simp] theorem Job.vecPut_timed (j : Job) (t : Touch) (x : VReg) : (j.vecPut t x).timed = j.timed := rfl
@[simp] theorem Job.vecPut_det (j : Job) (t : Touch) (x : VReg) : (j.vecPut t x).det = j.det := rfl
@[simp] theorem Job.vecPut_jstart (j : Job) (t : Touch) (x : VReg) : (j.vecPut t x).jstart = j.jstart := rfl
@[simp] theorem Job.vecPut_budget (j : Job) (t : Touch) (x : VReg) : (j.vecPut t x).budget = j.budget := rfl
@[simp] theorem Job.vecPut_c (j : Job) (t : Touch) (x : VReg) : (j.vecPut t x).c = j.c := rfl
@[simp] theorem Job.vecPut_l (j : Job) (t : Touch) (x : VReg) : (j.vecPut t x).l = j.l := rfl
@[simp] theorem Job.vecPut_vs (j : Job) (t : Touch) (x : VReg) : (j.vecPut t x).vs = j.vs := rfl
@[simp] theorem Job.vecPut_m (j : Job) (t : Touch) (x : VReg) : (j.vecPut t x).m = j.m := rfl
@[simp] theorem Job.vecPut_s (j : Job) (t : Touch) (x : VReg) : (j.vecPut t x).s = j.s := rfl
@[simp] theorem Job.vecPut_tokens (j : Job) (t : Touch) (x : VReg) : (j.vecPut t x).tokens = j.tokens := rfl
@[simp] theorem Job.vecPut_queues (j : Job) (t : Touch) (x : VReg) : (j.vecPut t x).queues = j.queues := rfl
@[simp] theorem Job.vecPut_v (j : Job) (t : Touch) (x : VReg) : (j.vecPut t x).v = j.v.set t.1.toNat x := rfl
@[simp] theorem Job.vecPut_board (j : Job) (t : Touch) (x : VReg) : (j.vecPut t x).board = j.board := rfl
@[simp] theorem Job.vecPut_masks (j : Job) (t : Touch) (x : VReg) : (j.vecPut t x).masks = j.masks := rfl
@[simp] theorem Job.vecPut_tiles (j : Job) (t : Touch) (x : VReg) : (j.vecPut t x).tiles = j.tiles := rfl
@[simp] theorem Job.vecPut_books (j : Job) (t : Touch) (x : VReg) : (j.vecPut t x).books = j.books := rfl
@[simp] theorem Job.vecPut_layouts (j : Job) (t : Touch) (x : VReg) : (j.vecPut t x).layouts = j.layouts := rfl
@[simp] theorem Job.vecPut_feeds (j : Job) (t : Touch) (x : VReg) : (j.vecPut t x).feeds = j.feeds := rfl
@[simp] theorem Job.vecPut_rsvd (j : Job) (t : Touch) (x : VReg) : (j.vecPut t x).rsvd = j.rsvd := rfl
@[simp] theorem Job.vecPut_lme (j : Job) (t : Touch) (x : VReg) : (j.vecPut t x).lme = j.lme := rfl
@[simp] theorem Job.vecPut_shL (j : Job) (t : Touch) (x : VReg) : (j.vecPut t x).shL = j.shL := rfl
@[simp] theorem Job.vecPut_shS (j : Job) (t : Touch) (x : VReg) : (j.vecPut t x).shS = j.shS := rfl
@[simp] theorem Job.vecPut_cmds (j : Job) (t : Touch) (x : VReg) : (j.vecPut t x).cmds = j.cmds := rfl
@[simp] theorem Job.vecPut_waits (j : Job) (t : Touch) (x : VReg) : (j.vecPut t x).waits = j.waits := rfl
@[simp] theorem Job.vecPut_nextCmd (j : Job) (t : Touch) (x : VReg) : (j.vecPut t x).nextCmd = j.nextCmd := rfl
@[simp] theorem Job.vecPut_overflow (j : Job) (t : Touch) (x : VReg) : (j.vecPut t x).overflow = j.overflow := rfl
@[simp] theorem Job.vecPut_append (j : Job) (t : Touch) (x : VReg) : (j.vecPut t x).append = j.append := rfl
@[simp] theorem Job.vecPut_sp (j : Job) (t : Touch) (x : VReg) : (j.vecPut t x).sp = j.sp := rfl
@[simp] theorem Job.vecPut_ts (j : Job) (t : Touch) (x : VReg) : (j.vecPut t x).ts = j.ts := rfl
@[simp] theorem Job.vecPut_spBad (j : Job) (t : Touch) (x : VReg) : (j.vecPut t x).spBad = j.spBad := rfl
@[simp] theorem Job.vecPut_tsBad (j : Job) (t : Touch) (x : VReg) : (j.vecPut t x).tsBad = j.tsBad := rfl
@[simp] theorem Job.vecPut_w0 (j : Job) (t : Touch) (x : VReg) : (j.vecPut t x).w0 = j.w0 := rfl
@[simp] theorem Job.vecPut_w1 (j : Job) (t : Touch) (x : VReg) : (j.vecPut t x).w1 = j.w1 := rfl
@[simp] theorem Job.vecPut_tsw (j : Job) (t : Touch) (x : VReg) : (j.vecPut t x).tsw = j.tsw := rfl
@[simp] theorem Job.vecPut_bank (j : Job) (t : Touch) (x : VReg) : (j.vecPut t x).bank = j.bank := rfl
@[simp] theorem Job.vecPut_discmap (j : Job) (t : Touch) (x : VReg) : (j.vecPut t x).discmap = j.discmap := rfl
@[simp] theorem Job.vecPut_lost (j : Job) (t : Touch) (x : VReg) : (j.vecPut t x).lost = j.lost := rfl
@[simp] theorem Job.vecPut_discarded (j : Job) (t : Touch) (x : VReg) : (j.vecPut t x).discarded = j.discarded := rfl
@[simp] theorem Job.vecPut_handler (j : Job) (t : Touch) (x : VReg) : (j.vecPut t x).handler = j.handler := rfl
@[simp] theorem Job.vecPut_pendTrap (j : Job) (t : Touch) (x : VReg) : (j.vecPut t x).pendTrap = j.pendTrap := rfl
@[simp] theorem Job.vecPut_susp (j : Job) (t : Touch) (x : VReg) : (j.vecPut t x).susp = j.susp := rfl
@[simp] theorem Job.vecPut_victim (j : Job) (t : Touch) (x : VReg) : (j.vecPut t x).victim = j.victim := rfl
@[simp] theorem Job.vecPut_swapAt (j : Job) (t : Touch) (x : VReg) : (j.vecPut t x).swapAt = j.swapAt := rfl
@[simp] theorem Job.vecPut_swapBy (j : Job) (t : Touch) (x : VReg) : (j.vecPut t x).swapBy = j.swapBy := rfl
@[simp] theorem Job.vecPut_draining (j : Job) (t : Touch) (x : VReg) : (j.vecPut t x).draining = j.draining := rfl
@[simp] theorem Job.vecPut_pacc (j : Job) (t : Touch) (x : VReg) : (j.vecPut t x).pacc = j.pacc := rfl
@[simp] theorem Job.vecPut_barGen (j : Job) (t : Touch) (x : VReg) : (j.vecPut t x).barGen = j.barGen := rfl
@[simp] theorem Job.vecPut_barAt (j : Job) (t : Touch) (x : VReg) : (j.vecPut t x).barAt = j.barAt := rfl
@[simp] theorem Job.vecPut_loop (j : Job) (t : Touch) (x : VReg) : (j.vecPut t x).loop = j.loop := rfl
@[simp] theorem Job.vecPut_proofOk (j : Job) (t : Touch) (x : VReg) : (j.vecPut t x).proofOk = j.proofOk := rfl
@[simp] theorem Job.vecPut_proofSq (j : Job) (t : Touch) (x : VReg) : (j.vecPut t x).proofSq = j.proofSq := rfl
@[simp] theorem Job.vecPut_proofNo (j : Job) (t : Touch) (x : VReg) : (j.vecPut t x).proofNo = j.proofNo := rfl
@[simp] theorem Job.vecPut_owed (j : Job) (t : Touch) (x : VReg) : (j.vecPut t x).owed = j.owed := rfl
@[simp] theorem Job.vecPut_fault (j : Job) (t : Touch) (x : VReg) : (j.vecPut t x).fault = j.fault := rfl
@[simp] theorem Job.vecPut_helpers (j : Job) (t : Touch) (x : VReg) : (j.vecPut t x).helpers = j.helpers := rfl

end Sys2Proof.Machine
end

