-- ==== Sys2Proof/Laws/Access.lean ====
section
/-! SUPPORT. What an access to memory, through translation, the L1, the replicas and the host ports, may change: never a job, the
word under way, the clock or a partition; and it keeps memory canonical. -/

namespace Sys2Proof.Machine

/-- `t` is `s` after accesses: jobs, cursor, clock, agenda and partitions as they were, memory canonical if it was. -/
structure Accessed (s t : State) : Prop where
  jobs   : t.jobs = s.jobs
  cursor : t.cursor = s.cursor
  tick   : t.tick = s.tick
  agenda : t.agenda = s.agenda
  parts  : t.parts = s.parts
  mem    : Memory.wf s.mem → Memory.wf t.mem

theorem Accessed.refl (s : State) : Accessed s s := ⟨rfl, rfl, rfl, rfl, rfl, id⟩

theorem Accessed.trans {s t u : State} (h : Accessed s t) (k : Accessed t u) : Accessed s u :=
  ⟨k.jobs.trans h.jobs, k.cursor.trans h.cursor, k.tick.trans h.tick, k.agenda.trans h.agenda, k.parts.trans h.parts,
    fun w => k.mem (h.mem w)⟩

theorem Accessed.foldl {α : Type} (l : List α) (f : State → α → State) (h : ∀ t a, Accessed t (f t a)) (s : State) :
    Accessed s (l.foldl f s) := by
  induction l generalizing s with
  | nil => exact .refl s
  | cons a t ih => exact (h s a).trans (ih (f s a))

theorem Accessed.ite {c : Prop} [Decidable c] {s t u : State} (h : Accessed s t) (k : Accessed s u) :
    Accessed s (if c then t else u) := by
  split
  · exact h
  · exact k

/-- What a memory access's result may have changed. -/
def MRes.Ok {α : Type} (s : State) : MRes α → Prop
  | .ok t _ => Accessed s t
  | .fault t _ => Accessed s t
  | .susp t _ _ _ => Accessed s t
  | .hold t _ _ => Accessed s t

theorem MRes.Ok.trans {α : Type} {s t : State} {r : MRes α} (h : Accessed s t) (k : r.Ok t) : r.Ok s := by
  cases r <;> exact h.trans k

theorem MRes.Ok.bind {α β : Type} {s : State} {r : MRes α} {f : State → α → MRes β} (h : r.Ok s)
    (k : ∀ t x, r = .ok t x → (f t x).Ok t) : (r.bind f).Ok s := by
  cases r with
  | ok t x => exact MRes.Ok.trans h (k t x rfl)
  | fault | susp | hold => exact h

theorem MRes.Ok.latch {α : Type} {s t : State} {l : List (Phys × Nat)} {r : MRes α} (h : Accessed t s) (k : r.Ok t) :
    (r.latch s l).Ok t := by
  cases r with
  | hold => exact h
  | _ => exact k

/-! ### Plain updates -/

theorem modCore_accessed (s : State) (c : Nat) (f : Core → Core) : Accessed s (s.modCore c f) := by
  unfold State.modCore; split
  · exact ⟨rfl, rfl, rfl, rfl, rfl, id⟩
  · exact .refl s

theorem modStop_accessed (s : State) (n : Nat) (f : StopTlb → StopTlb) : Accessed s (s.modStop n f) := by
  unfold State.modStop; split
  · exact ⟨rfl, rfl, rfl, rfl, rfl, id⟩
  · exact .refl s

theorem writePhys_accessed (s : State) (a : Nat) (b : List Byte) : Accessed s (s.writePhys a b) :=
  ⟨rfl, rfl, rfl, rfl, rfl, cellPutN_wf a b⟩

theorem sendMsix_accessed (s : State) (p : Bool) (v : BitVec 11) : Accessed s (s.sendMsix p v) :=
  ⟨by simp, by simp, by simp, by simp, by simp, by simp⟩

theorem announce_accessed (s : State) (e : BitVec 64) (v : BitVec 11) :
    Accessed s ((({ s with errTail := e } : State).sendMsix false v).sendMsix true v) :=
  ⟨by simp, by simp, by simp, by simp, by simp, by simp⟩

theorem logError_accessed (s : State) (r : ErrRec) : Accessed s (s.logError r) := by
  unfold State.logError; split
  · exact ⟨rfl, rfl, rfl, rfl, rfl, id⟩
  · exact (writePhys_accessed ..).trans (announce_accessed ..)

/-! ### The L1 -/

theorem writeBackLine_accessed (s : State) (l : L1Line) : Accessed s (s.writeBackLine l) := by
  unfold State.writeBackLine
  refine .ite (.refl s) (.ite ⟨rfl, rfl, rfl, rfl, rfl, id⟩ ?_)
  exact (Accessed.foldl _ _ (fun t i => .ite (writePhys_accessed ..) (.refl t)) s).trans ⟨rfl, rfl, rfl, rfl, rfl, id⟩

theorem l1Install_accessed (s : State) (core : Nat) (l : L1Line) : Accessed s (s.l1Install core l) := by
  unfold State.l1Install
  dsimp only
  refine Accessed.trans (.ite (.refl s) ?_) (modCore_accessed ..)
  split
  · exact (writeBackLine_accessed ..).trans (modCore_accessed ..)
  · exact .refl s

theorem l1Fill_accessed (s : State) (w : Who) (pa : Nat) (leaf : Word) : Accessed s (s.l1Fill w pa leaf) := by
  unfold State.l1Fill
  exact .ite (.refl s) (l1Install_accessed ..)

theorem l1Write_accessed (s : State) (core pa : Nat) (b : List Byte) (d : Bool) : Accessed s (s.l1Write core pa b d) := by
  unfold State.l1Write; exact modCore_accessed ..

theorem l1Clean_accessed (s : State) (core pa : Nat) : Accessed s (s.l1Clean core pa) := by
  unfold State.l1Clean; split
  · exact .refl s
  · exact (writeBackLine_accessed ..).trans (modCore_accessed ..)

theorem l1Drop_accessed (s : State) (core pa : Nat) : Accessed s (s.l1Drop core pa) := by
  unfold State.l1Drop; split
  · exact .refl s
  · exact (writeBackLine_accessed ..).trans (modCore_accessed ..)

theorem l1Fit_accessed (s : State) (w : Who) (fresh : Bool) (p : Phys) : Accessed s (s.l1Fit w fresh p) :=
  .ite (l1Drop_accessed ..) (.refl s)

theorem l1Settle_accessed (p : L1Line → Bool) (s : State) (core : Nat) : Accessed s (s.l1Settle p core) :=
  (Accessed.foldl _ _ (fun u l => writeBackLine_accessed u l) s).trans (modCore_accessed ..)

theorem l1Release_accessed (s : State) (core : Nat) : Accessed s (s.l1Release core) :=
  .foldl _ _ (fun t c => l1Settle_accessed _ t c) s

theorem l1Acquire_accessed (s : State) (core : Nat) : Accessed s (s.l1Acquire core) :=
  (l1Release_accessed s core).trans (.foldl _ _ (fun _ _ => modCore_accessed ..) _)

theorem l1Flush_accessed (s : State) (core : Nat) : Accessed s (s.l1Flush core) := by
  unfold State.l1Flush
  exact (Accessed.foldl _ _ (fun u l => writeBackLine_accessed u l) s).trans (modCore_accessed ..)

theorem l1FlushAll_accessed (s : State) (cores : List Nat) : Accessed s (s.l1FlushAll cores) :=
  .foldl _ _ (fun t c => l1Flush_accessed t c) s

theorem meetsUe_accessed (s : State) (pa : Nat) : Accessed s (s.meetsUe pa) := ⟨rfl, rfl, rfl, rfl, rfl, id⟩

theorem portUe_accessed (s : State) (p : Bool) (a : Nat) : Accessed s (s.portUe p a) := ⟨rfl, rfl, rfl, rfl, rfl, id⟩

theorem releaseAt_accessed (s : State) (core : Nat) (sc : Scope) : Accessed s (s.releaseAt core sc) := by
  unfold State.releaseAt; split
  · exact l1Release_accessed ..
  · exact .refl s

theorem acquireAt_accessed (s : State) (core : Nat) (sc : Scope) : Accessed s (s.acquireAt core sc) := by
  unfold State.acquireAt; split
  · exact l1Acquire_accessed ..
  · exact .refl s

/-! ### Translation -/

theorem tlbLearn_accessed (s : State) (w : Who) (e : TlbEntry) : Accessed s (s.tlbLearn w e) := by
  unfold State.tlbLearn; split
  · exact modStop_accessed ..
  · exact modCore_accessed ..

theorem stopLearn_accessed (s : State) (n : Nat) (e : TlbEntry) (l : List NonLeaf) : Accessed s (s.stopLearn n e l) :=
  modStop_accessed ..

theorem translate_accessed (s : State) (w : Who) (va : Word) (kind : AccessKind) : (s.translate w va kind).Ok s := by
  unfold State.translate
  dsimp only
  split
  · repeat' split
    · exact meetsUe_accessed ..
    · exact .refl s
    · exact tlbLearn_accessed ..
    · exact .refl s
  · split
    · exact .refl s
    · exact meetsUe_accessed ..
    · exact .refl s
    · split
      · exact .refl s
      split
      · exact .refl s
      exact (Accessed.ite (.refl s) (writePhys_accessed ..)).trans ((modStop_accessed ..).trans (tlbLearn_accessed ..))

/-! ### Host memory -/

theorem logLostWrite_accessed (s : State) (w : Who) (p : Bool) (a : Nat) : Accessed s (s.logLostWrite w p a) :=
  logError_accessed ..

theorem peerAccess_accessed (s : State) (w : Who) (p : Bool) (a n : Nat) (d : Option (List Byte)) :
    (s.peerAccess w p a n d).Ok s := by
  unfold State.peerAccess
  dsimp only
  split
  · exact .refl s
  · split
    · split <;> exact ⟨rfl, rfl, rfl, rfl, rfl, id⟩
    · exact .refl s

theorem ownHostLine_accessed (s : State) (w : Who) (p : Bool) (l : Nat) : (s.ownHostLine w p l).Ok s := by
  unfold State.ownHostLine
  dsimp only
  repeat' split
  all_goals first | exact .refl s | exact ⟨rfl, rfl, rfl, rfl, rfl, id⟩

theorem hostAccess_accessed (s : State) (w : Who) (a n : Nat) (d : Option (List Byte)) : (s.hostAccess w a n d).Ok s := by
  unfold State.hostAccess
  dsimp only
  split
  · exact peerAccess_accessed ..
  split
  · split
    · exact portUe_accessed ..
    · exact logLostWrite_accessed ..
  · split
    · exact peerAccess_accessed ..
    · have h := ownHostLine_accessed s w (s.hport w.part) (lineOf a)
      generalize s.ownHostLine w (s.hport w.part) (lineOf a) = r at h ⊢
      rcases r with ⟨t, l⟩ | ⟨t, e⟩ | _ | _ <;> rcases d with _ | b <;> dsimp only
      · exact h
      · exact Accessed.trans h ⟨rfl, rfl, rfl, rfl, rfl, id⟩
      · exact h
      · exact Accessed.trans h (logLostWrite_accessed ..)
      all_goals exact h

/-! ### Parts of an access -/

theorem homeRead_accessed (s : State) (pa n : Nat) : (s.homeRead pa n).Ok s := by
  unfold State.homeRead; repeat' split
  all_goals first | exact Accessed.refl s | exact meetsUe_accessed ..

theorem homeWrite_accessed (s : State) (pa : Nat) (b : List Byte) : (s.homeWrite pa b).Ok s := by
  unfold State.homeWrite; split
  · exact .refl s
  · exact writePhys_accessed ..

theorem hostFit_accessed (s : State) (w : Who) (fresh : Bool) (p : Phys) : Accessed s (s.hostFit w fresh p) := by
  unfold State.hostFit; split
  · exact .refl s
  · exact .ite ((writeBackLine_accessed ..).trans (modCore_accessed ..)) (.refl s)

theorem hostRead_accessed (s : State) (w : Who) (fresh fill : Bool) (p : Phys) (n : Nat) : (s.hostRead w fresh fill p n).Ok s := by
  unfold State.hostRead
  refine MRes.Ok.trans (hostFit_accessed s w fresh p) ?_
  dsimp only
  split
  · exact Accessed.refl _
  · refine (hostAccess_accessed ..).bind fun t x _ => ?_
    split
    · exact .ite (l1Install_accessed ..) (.refl t)
    · exact .refl t

theorem hostWrite_accessed (s : State) (w : Who) (home : Bool) (p : Phys) (b : List Byte) : (s.hostWrite w home p b).Ok s := by
  unfold State.hostWrite
  split
  · exact MRes.Ok.trans (hostFit_accessed s w true p) ((hostAccess_accessed ..).bind fun t _ _ => .refl t)
  · split
    · exact (hostAccess_accessed ..).bind fun t _ _ => .refl t
    · exact (hostRead_accessed ..).bind fun t _ _ => modCore_accessed ..

theorem forgetReplica_accessed (s : State) (w : Who) (pa : Nat) : Accessed s (s.forgetReplica w pa) :=
  ⟨rfl, rfl, rfl, rfl, rfl, id⟩

theorem replicaRead_accessed (s : State) (w : Who) (repl : Bool) (p : Phys) (n : Nat) : (s.replicaRead w repl p n).Ok s := by
  unfold State.replicaRead
  dsimp only
  split
  · exact homeRead_accessed ..
  · split
    · split
      · exact meetsUe_accessed ..
      · exact .refl s
    · exact (homeRead_accessed ..).bind fun t _ _ => Accessed.ite ⟨rfl, rfl, rfl, rfl, rfl, id⟩ (.refl t)

theorem readPart_accessed (s : State) (w : Who) (path : Nat) (fresh : Bool) (p : Phys) (n : Nat) :
    (s.readPart w path fresh p n).Ok s := by
  unfold State.readPart
  dsimp only
  split
  · exact hostRead_accessed ..
  · split
    · exact .refl s
    · refine MRes.Ok.trans (l1Fit_accessed s w fresh p) ?_
      generalize s.l1Fit w fresh p = s0
      have f (q : Prop) [Decidable q] : Accessed s0 (if q then s0.forgetReplica w p.pa else s0) :=
        .ite (forgetReplica_accessed ..) (.refl s0)
      split
      · split
        · exact meetsUe_accessed ..
        · exact f _
      · have g (q : Prop) [Decidable q] (t : State) : (if q then t.replicaRead w true p n else t.homeRead p.pa n).Ok t := by
          split
          · exact replicaRead_accessed ..
          · exact homeRead_accessed ..
        exact MRes.Ok.trans (f (path = 1 ∧ ¬(path = 1 ∧ fresh = false ∧ pteOrd p.leaf ≠ 1)))
          (MRes.Ok.bind (g _ _) fun t _ _ => Accessed.ite (l1Fill_accessed ..) (.refl t))

theorem agentPart_accessed (s : State) (w : Who) (path : Nat) (repl acq : Bool) (p : Phys) (n : Nat) :
    (s.agentPart w path repl acq p n).Ok s := by
  unfold State.agentPart
  dsimp only
  split
  · exact hostRead_accessed ..
  · split
    · exact .refl s
    · refine MRes.Ok.trans (l1Drop_accessed s w.core p.pa) ?_
      split
      · exact replicaRead_accessed ..
      · exact homeRead_accessed ..

theorem writePart_accessed (s : State) (w : Who) (path : Nat) (direct : Bool) (p : Phys) (b : List Byte) :
    (s.writePart w path direct p b).Ok s := by
  unfold State.writePart
  dsimp only
  split
  · exact hostWrite_accessed ..
  · split
    · exact Accessed.ite (meetsUe_accessed ..) (.refl s)
    · have h := l1Fit_accessed s w false p
      generalize s.l1Fit w false p = s0 at h ⊢
      split
      · exact MRes.Ok.trans h (homeWrite_accessed ..)
      split
      · exact MRes.Ok.trans h (MRes.Ok.bind (MRes.Ok.trans (l1Clean_accessed ..) (homeWrite_accessed ..)) fun t _ _ => l1Write_accessed ..)
      split
      · split
        · exact Accessed.refl s
        exact h.trans (((l1Fill_accessed _ w p.pa p.leaf).trans (l1Write_accessed _ w.core p.pa b true)).trans
          ⟨rfl, rfl, rfl, rfl, rfl, id⟩)
      · exact MRes.Ok.trans h (homeWrite_accessed ..)

theorem translateAll_accessed (w : Who) (va : Word) (kind : AccessKind) (l : List (Nat × Nat)) (s : State) :
    (State.translateAll w va kind l s).Ok s := by
  induction l generalizing s with
  | nil => exact Accessed.refl s
  | cons p t ih =>
    obtain ⟨a, n⟩ := p
    unfold State.translateAll
    have h := translate_accessed s w (onPath va a) kind
    rcases e : s.translate w (onPath va a) kind with ⟨s1, p⟩ | ⟨s1, c⟩ | ⟨s1, v, k, lv⟩ | ⟨s1, q, l⟩ <;> rw [e] at h
    · exact MRes.Ok.trans h ((ih _).bind fun t _ _ => .refl t)
    · have k := ih s1
      rcases e2 : State.translateAll w va kind t s1 with ⟨s2, x⟩ | ⟨s2, c2⟩ | ⟨s2, v, q, lv⟩ | _ <;> rw [e2] at k <;>
        simp only [e2]
      · exact Accessed.trans h k
      · exact Accessed.trans h k
      · exact Accessed.trans h k
      · exact h
    · exact h
    · exact h

theorem readAll_accessed (w : Who) (path : Nat) (acq : Bool) (l : List (Phys × Nat)) (s : State) :
    (State.readAll w path acq l s).Ok s := by
  induction l generalizing s with
  | nil => exact Accessed.refl s
  | cons p t ih =>
    unfold State.readAll
    exact (readPart_accessed ..).bind fun u _ _ => (ih u).bind fun v _ _ => .refl v

theorem writeAll_accessed (w : Who) (path : Nat) (direct : Bool) (l : List (Phys × Nat)) (b : List Byte) (s : State) :
    (State.writeAll w path direct l b s).Ok s := by
  induction l generalizing s b with
  | nil => exact Accessed.refl s
  | cons p t ih =>
    unfold State.writeAll
    exact (writePart_accessed ..).bind fun u _ _ => ih _ u

/-! ### Whole accesses -/

theorem partsOf_accessed (s : State) (w : Who) (va : Word) (n : Nat) (kind : AccessKind) : (s.partsOf w va n kind).Ok s := by
  unfold State.partsOf; split
  · exact translateAll_accessed ..
  · exact Accessed.refl s

theorem reachAll_accessed (s : State) (w : Who) (va : Word) (n : Nat) (wr : Bool) : (s.reachAll w va n wr).Ok s := by
  unfold State.reachAll
  refine (partsOf_accessed ..).bind fun t l _ => ?_
  dsimp only
  repeat' split
  all_goals first | exact Accessed.refl t | exact meetsUe_accessed ..

theorem memRead_accessed (s : State) (w : Who) (va : Word) (n : Nat) (fresh : Bool) : (s.memRead w va n fresh).Ok s :=
  (reachAll_accessed ..).bind fun t _ _ => .latch (.refl t) (readAll_accessed ..)

theorem memWrite_accessed (s : State) (w : Who) (va : Word) (b : List Byte) (d : Bool) : (s.memWrite w va b d).Ok s :=
  (reachAll_accessed ..).bind fun t _ _ => .latch (.refl t) (writeAll_accessed ..)

theorem scratchRead_accessed (s : State) (w : Who) (va : Word) (n : Nat) : (s.scratchRead w va n).Ok s := by
  unfold State.scratchRead
  repeat' split
  all_goals first | exact Accessed.refl s | exact ⟨rfl, rfl, rfl, rfl, rfl, id⟩

theorem readVia_accessed (s : State) (w : Who) (va : Word) (n : Nat) (acq : Bool) : (s.readVia w va n acq).Ok s := by
  unfold State.readVia; split
  · exact scratchRead_accessed ..
  · exact memRead_accessed ..

theorem agentAll_accessed (w : Who) (path : Nat) (repl acq : Bool) (l : List (Phys × Nat)) (s : State) :
    (State.agentAll w path repl acq l s).Ok s := by
  induction l generalizing s with
  | nil => exact Accessed.refl s
  | cons p t ih =>
    unfold State.agentAll
    exact (agentPart_accessed ..).bind fun u _ _ => (ih u).bind fun v _ _ => .refl v

theorem agentRead_accessed (s : State) (w : Who) (va : Word) (n : Nat) (r acq : Bool) : (s.agentRead w va n r acq).Ok s := by
  unfold State.agentRead; split
  · exact scratchRead_accessed ..
  · exact (reachAll_accessed ..).bind fun t _ _ => .latch (.refl t) (agentAll_accessed ..)

theorem rmwFind_accessed (s : State) (w : Who) (va : Word) : (s.rmwFind w va).Ok s := by
  unfold State.rmwFind; split
  · exact .refl s
  · refine MRes.Ok.bind (by split; exacts [.refl s, translate_accessed ..]) fun t p _ => ?_
    split
    · exact .refl t
    · split <;> exact .refl t

end Sys2Proof.Machine
end

