-- ==== Sys2Proof/Laws/Shell.lean ====
section
/-! SUPPORT. What the shells of an instruction word come to: a word that enters runs its body on the state WAIT left; where the
body completes, stops or traps, the step's outcome is the one named here. Claims about single words cite these. -/

namespace Sys2Proof.Machine

/-! ### Entering -/

theorem Enters.cursor {s s1 : State} {w : Wait} {g : Sig} {c : Cursor} {j : Job} (h : Enters s w g c j s1) :
    s1.cursor = some c := by
  cases h with
  | free _ _ cur => exact cur
  | waited => rfl
  | begun _ _ cur => exact cur

theorem Enters.job {s s1 : State} {w : Wait} {g : Sig} {c : Cursor} {j : Job} (h : Enters s w g c j s1) :
    s1.jobs[c.job]? = some j := by
  cases h with
  | free _ _ _ job => exact job
  | waited _ _ _ _ _ job | begun _ _ _ job =>
    obtain ⟨lt, _⟩ := List.getElem?_eq_some_iff.1 job
    simp [lt]

theorem Enters.going {s s1 : State} {w : Wait} {g : Sig} {c : Cursor} {j : Job} (h : Enters s w g c j s1) :
    c.stalled = false := by
  cases h <;> assumption

theorem Enters.clean {s s1 : State} {w : Wait} {g : Sig} {c : Cursor} {j : Job} (h : Enters s w g c j s1) :
    c.trap = none := by
  cases h <;> assumption

/-- An allowed header raises nothing. -/
theorem HeaderAllowed.not_bad {c : Cursor} {j : Job} {w : Wait} {g : Sig} (h : HeaderAllowed c j w g) :
    (handlerHdrBad j c.stream w g || slotHdrBad c j w g) = false := by
  obtain ⟨h1, h2⟩ := h
  rw [Bool.or_eq_false_iff]
  constructor
  · unfold handlerHdrBad Job.inHandler
    rcases hh : j.handler.isSome with _ | _
    · simp
    · by_cases hc : c.stream = .c
      · obtain ⟨hw, hg⟩ := h1 hh hc
        rcases hw with hw | hw <;> simp [hw, hg]
      · simp [hc]
  · unfold slotHdrBad inBody
    rcases hs : c.slot.isSome with _ | _
    · simp
    · rcases hh : j.handler with _ | x
      · obtain ⟨hw, hg⟩ := h2 hs hh
        simp [hw, hg]
      · simp

/-- A word that enters runs its body on the state WAIT left; the last word of a bundle then closes it. -/
theorem runWord_enters {s s1 : State} {w : Wait} {g : Sig} {c : Cursor} {j : Job} (last : Bool)
    (body : Cursor → Job → State → WRes) (h : Enters s w g c j s1) :
    runWord w g last body s =
      .next (if last then (s1.absorb c (body c j s1)).close g else (s1.absorb c (body c j s1)).advance) := by
  cases h with
  | free c j cur job going clean header nowait =>
    unfold runWord
    rw [cur]
    simp only [job, header.not_bad, Bool.false_eq_true, if_false]
    have he : s.enter c w = s := by
      unfold State.enter
      have : ({ s with cursor := some c } : State) = s := by rw [← cur]
      rcases nowait with h1 | h1 | h1
      · simp [h1, this]
      · simp [h1, this]
      · split
        · exact this
        · rcases hd : waitDrains w with _ | _
          · simp [job, h1.1, this]
          · simp [job, h1.1, h1.2 hd, this]
    simp only [he, cur, going, job, Bool.false_and, Bool.false_eq_true, if_false]
  | waited c j0 j late cur job going clean header first waits stream outside ready =>
    obtain ⟨lt, _⟩ := List.getElem?_eq_some_iff.1 job
    unfold runWord
    rw [cur]
    simp only [job, header.not_bad, Bool.false_eq_true, if_false]
    have he : s.enter c w = { s with jobs := s.jobs.set c.job j, cursor := some { c with late := late } } := by
      unfold State.enter
      rw [if_neg (by rintro (h1 | h1 | h1); exacts [h1 first, waits h1, by simp [clean] at h1])]
      simp [job, stream, outside, ready, State.setJob]
    simp only [he, going, Bool.false_and, Bool.false_eq_true, if_false]
    have hj : (s.jobs.set c.job j)[c.job]? = some j := by simp [lt]
    simp only [hj]
  | begun c j0 cur job going clean header first waits stream inside =>
    obtain ⟨lt, _⟩ := List.getElem?_eq_some_iff.1 job
    unfold runWord
    rw [cur]
    simp only [job, header.not_bad, Bool.false_eq_true, if_false]
    have he : s.enter c w = { s with jobs := s.jobs.set c.job (j0.waitOver c.stream w) } := by
      unfold State.enter
      rw [if_neg (by rintro (h1 | h1 | h1); exacts [h1 first, waits h1, by simp [clean] at h1])]
      simp [job, stream, inside, State.setJob, ← cur]
    simp only [he, cur, going, Bool.false_eq_true, if_false, Bool.false_and]
    have hj : (s.jobs.set c.job (j0.waitOver c.stream w))[c.job]? = some (j0.waitOver c.stream w) := by simp [lt]
    simp only [hj]

/-! ### What a body's result comes to -/

/-- Changing a job that is there. -/
theorem State.modJob_eq {s : State} {n : Nat} {j : Job} (h : s.jobs[n]? = some j) (f : Job → Job) :
    s.modJob n f = { s with jobs := s.jobs.set n (f j) } := by
  simp [State.modJob, h, State.setJob]

/-- Changing registers of a job that is there. -/
theorem State.modRegs_eq {s : State} {c : Cursor} {j : Job} (h : s.jobs[c.job]? = some j) (f : StreamSt → StreamSt) :
    s.modRegs c.job c.stream c.slot f = { s with jobs := s.jobs.set c.job (j.modRegs c f) } := by
  simp [State.modRegs, State.modJob_eq h, Job.modRegs]

/-- The state after the last word of a bundle whose body completed. -/
theorem close_ok {s1 s2 : State} {c c2 : Cursor} {j : Job} {g : Sig} {v : Word} {nx : Option Word}
    (cur : s2.cursor = some c2) (same : c2.job = c.job) (job : s2.jobs[c.job]? = some j)
    (was : c.stalled = false) (going : c2.stalled = false) (pre : c.trap = none) (clean : c2.trap = none) :
    (s1.absorb c (.ok s2 v nx)).close g = issued s2 c2 g j v nx := by
  rw [← same] at job
  obtain ⟨lt, hj⟩ := List.getElem?_eq_some_iff.1 job
  unfold State.absorb State.close
  simp only [cur, Option.getD_some, pre, Option.isSome_none, was, clean, going, Cursor.verdict, Bool.false_and, Bool.or_self,
    Bool.false_eq_true, if_false]
  unfold State.finishWord issued
  rcases hs : c2.slot with _ | n
  · simp [State.modRegs, State.modJob, hj, State.setJob, lt, Cursor.pc, Cursor.regs, hs]
  · simp [State.modRegs, State.modJob, job, State.setJob, Cursor.pc, Cursor.regs, hs]

/-- A word whose body completes in the cursor's own terms has issued. -/
theorem runWord_ok {s s1 s2 : State} {w : Wait} {g : Sig} {c : Cursor} {j j2 : Job} {body : Cursor → Job → State → WRes}
    {v : Word} {nx : Option Word} (h : Enters s w g c j s1) (res : body c j s1 = .ok s2 v nx) (cur : s2.cursor = some c)
    (job : s2.jobs[c.job]? = some j2) : runWord w g true body s = .next (issued s2 c g j2 v nx) := by
  rw [runWord_enters true body h, res]
  simp [close_ok cur rfl job h.going h.going h.clean h.clean]

/-- A word whose body leaves the word complete without retiring: that state is the outcome. -/
theorem runWord_stop {s s1 s2 : State} {w : Wait} {g : Sig} {c : Cursor} {j : Job} {body : Cursor → Job → State → WRes}
    (h : Enters s w g c j s1) (res : body c j s1 = .stop s2) : runWord w g true body s = .next { s2 with cursor := none } := by
  rw [runWord_enters true body h, res]
  simp [State.absorb, h.clean, h.going, State.close]

/-- A word whose body cannot go on yet: its bundle is as before it, and is offered again. -/
theorem runWord_stall {s s1 : State} {w : Wait} {g : Sig} {c : Cursor} {j : Job} {body : Cursor → Job → State → WRes}
    (h : Enters s w g c j s1) (res : body c j s1 = .stall) (late : c.late = false) :
    runWord w g true body s = .next (s1.rollback c) := by
  rw [runWord_enters true body h, res]
  simp [State.absorb, State.close, h.clean, late, State.rollback, State.setJob]

/-- A word whose body traps: its bundle is as before it, and the trap is raised. -/
theorem runWord_trap {s s1 : State} {w : Wait} {g : Sig} {c : Cursor} {j : Job} {body : Cursor → Job → State → WRes}
    {cause : BitVec 8} {lane info : Word} (h : Enters s w g c j s1) (res : body c j s1 = .trap cause lane info) :
    runWord w g true body s =
      .next ((s1.rollback c).raiseAt c ⟨cause, c.pc, lane, info ||| (BitVec.ofNat 64 c.index <<< 8)⟩) := by
  rw [runWord_enters true body h, res]
  simp [State.absorb, State.close, Cursor.met, Cursor.verdict, h.clean, h.going, worseTrap, State.rollback, State.setJob, State.raiseAt]

/-- A trap of a stream, with THANDLER set and no handler running, is taken. -/
theorem raiseAt_taken {s1 : State} {c : Cursor} {j : Job} {r : TrapRec} (job : s1.jobs[c.job]? = some j) (slot : c.slot = none)
    (idle : c.pre.handler = none) (set : (c.pre.stream c.stream).thandler ≠ 0) (cause : r.cause ≠ causeMemUe) :
    (s1.rollback c).raiseAt c r = trapTaken s1 c r := by
  obtain ⟨lt, _⟩ := List.getElem?_eq_some_iff.1 job
  unfold State.raiseAt State.rollback State.takeTrap trapTaken
  simp only [slot, cause, if_false, State.setJob, State.modRegs, State.modJob]
  rcases hx : c.stream <;>
    simp [lt, hx, slot, Cursor.regs, Job.setRegs, Job.regs, Job.setStream, Job.stream, idle, StreamSt.setTrap] <;>
    simp [hx, Job.stream] at set <;> simp [set]

/-! ### Scalar words -/

/-- A scalar word that runs and completes has issued, with its destination written. -/
theorem scalarWord_ok {s s1 s2 : State} {h : Hdr} {uses : List Src} {first : Option Src} {d : Option Dest} {c : Cursor}
    {j j2 : Job} {op : Cursor → Job → State → WRes} {v : Word} {nx : Option Word} (run : Runs s h uses d c j s1)
    (res : op c j s1 = .ok s2 v nx) (cur : s2.cursor = some c) (job : s2.jobs[c.job]? = some j2) :
    scalarWord h uses first d op s =
      .next (issued s2 c h.sig (match d with | some dd => j2.put c dd v | none => j2) v nx) := by
  obtain ⟨enters, guard, free⟩ := run
  obtain ⟨lt, _⟩ := List.getElem?_eq_some_iff.1 job
  unfold scalarWord
  rcases d with _ | dd
  · exact runWord_ok enters (by simp [scalarBody, guard, free, res]) cur job
  · have e := State.modRegs_eq job (fun r => r.write dd v)
    rw [runWord_ok enters (s2 := { s2 with jobs := s2.jobs.set c.job (j2.modRegs c fun r => r.write dd v) }) (v := v) (nx := nx)
      (by simp [scalarBody, guard, free, res, e]) cur (j2 := j2.put c dd v) (by simp [lt, Job.modRegs, Job.put])]
    simp [issued, List.set_set]

/-- A scalar word whose body stops. -/
theorem scalarWord_stop {s s1 s2 : State} {h : Hdr} {uses : List Src} {first : Option Src} {d : Option Dest} {c : Cursor}
    {j : Job} {op : Cursor → Job → State → WRes} (run : Runs s h uses d c j s1) (res : op c j s1 = .stop s2) :
    scalarWord h uses first d op s = .next { s2 with cursor := none } :=
  runWord_stop run.1 (by simp [scalarBody, run.2.1, run.2.2, res])

/-- A scalar word that traps. -/
theorem scalarWord_trap {s s1 : State} {h : Hdr} {uses : List Src} {first : Option Src} {d : Option Dest} {c : Cursor}
    {j : Job} {op : Cursor → Job → State → WRes} {cause : BitVec 8} {lane info : Word} (run : Runs s h uses d c j s1)
    (res : op c j s1 = .trap cause lane info) :
    scalarWord h uses first d op s =
      .next ((s1.rollback c).raiseAt c ⟨cause, c.pc, lane, info ||| (BitVec.ofNat 64 c.index <<< 8)⟩) :=
  runWord_trap run.1 (by simp [scalarBody, run.2.1, run.2.2, res])

/-- A scalar word whose value is a function of the registers yields it. -/
theorem pureWord_yields (s : State) (h : Hdr) (uses : List Src) (first : Option Src) (d : Dest) (f : StreamSt → Word) :
    Yields s h uses d (pureWord h uses first d f s) f := by
  intro c j s1 run
  exact scalarWord_ok (d := some d) run rfl run.1.cursor run.1.job

/-- A scalar word whose guard is false retires with no effect but the push of its first operand (R60, R92). -/
theorem scalarWord_off {s s1 : State} {h : Hdr} {uses : List Src} {first : Option Src} {d : Option Dest} {c : Cursor}
    {j : Job} {op : Cursor → Job → State → WRes} (enters : Enters s h.wait h.sig c j s1)
    (off : c.regs.guardTrue h.guard = false)
    (free : destPending (j.regs c.stream c.slot) (offUses h first d) (offDest d) = false) :
    scalarWord h uses first d op s =
      .next (issued s1 c h.sig
        (if d = some .push then j.put c .push (guardOffValue c.regs first) else j)
        (if d.isSome then guardOffValue c.regs first else c.value) none) := by
  obtain ⟨lt, _⟩ := List.getElem?_eq_some_iff.1 enters.job
  unfold scalarWord
  by_cases hd : d = some .push
  · subst hd
    have e := State.modRegs_eq enters.job (fun r => r.push (guardOffValue c.regs first))
    rw [runWord_ok enters (s2 := { s1 with jobs := s1.jobs.set c.job (j.modRegs c fun r => r.push (guardOffValue c.regs first)) })
      (v := guardOffValue c.regs first) (nx := none) (by simp only [scalarBody, off, free, if_true]; simp [e]) enters.cursor
      (j2 := j.put c .push (guardOffValue c.regs first)) (by simp [lt, Job.modRegs, Job.put, StreamSt.write])]
    simp [issued, List.set_set]
  · rw [runWord_ok enters (s2 := s1) (v := if d.isSome then guardOffValue c.regs first else c.value) (nx := none)
      (by simp only [scalarBody, off, free, hd, if_false]; simp) enters.cursor enters.job]
    simp [hd]

end Sys2Proof.Machine
end

