-- ==== Sys2Proof/Laws/Lanes.lean ====
section
/-! SUPPORT. Lanes of packed registers read back, and what the shell of a V-map word comes to. Claims about vector words cite
these. -/

namespace Sys2Proof.Machine

/-! ### Packed lanes -/

theorem packNat_lt (w : Nat) (l : List Nat) : packNat w l < 2 ^ (w * l.length) := by
  induction l with
  | nil => simp [packNat]
  | cons x t ih =>
    have h : x % 2 ^ w < 2 ^ w := Nat.mod_lt _ (Nat.two_pow_pos w)
    have e : 2 ^ (w * (x :: t).length) = 2 ^ w * 2 ^ (w * t.length) := by
      rw [List.length_cons, Nat.mul_succ, Nat.pow_add, Nat.mul_comm]
    calc packNat w (x :: t) = x % 2 ^ w + 2 ^ w * packNat w t := rfl
      _ < 2 ^ w + 2 ^ w * packNat w t := by omega
      _ = 2 ^ w * (packNat w t + 1) := by rw [Nat.mul_add, Nat.mul_one, Nat.add_comm]
      _ ≤ 2 ^ w * 2 ^ (w * t.length) := Nat.mul_le_mul_left _ ih
      _ = _ := e.symm

theorem packNat_lane (w i : Nat) (l : List Nat) (h : i < l.length) : packNat w l / 2 ^ (w * i) % 2 ^ w = l[i] % 2 ^ w := by
  induction l generalizing i with
  | nil => simp at h
  | cons x t ih =>
    cases i with
    | zero => simp [packNat]
    | succ k =>
      have e : 2 ^ (w * (k + 1)) = 2 ^ w * 2 ^ (w * k) := by rw [Nat.mul_succ, Nat.pow_add, Nat.mul_comm]
      have lt : x % 2 ^ w < 2 ^ w := Nat.mod_lt _ (Nat.two_pow_pos w)
      rw [e, ← Nat.div_div_eq_div_mul, packNat, Nat.add_mul_div_left _ _ (Nat.two_pow_pos w), Nat.div_eq_of_lt lt, Nat.zero_add]
      simpa using ih k (by simpa using h)

theorem lane_packLanes (w i : Nat) (l : List Nat) (h : i < l.length) (fits : w * l.length ≤ 2048) :
    lane (packLanes w l) w i = l[i] % 2 ^ w := by
  have lt : packNat w l < 2 ^ 2048 := lt_of_lt_of_le (packNat_lt w l) (Nat.pow_le_pow_right (by omega) fits)
  rw [lane, packLanes, BitVec.toNat_ofNat, Nat.mod_eq_of_lt lt, packNat_lane w i l h]

/-- A lane fits its width. -/
theorem lane_mod (r : VReg) (w i : Nat) : lane r w i % 2 ^ w = lane r w i := Nat.mod_mod _ _

theorem lane_mapLanes (r : VReg) (w : Nat) (f : Nat → Option Nat) (i : Nat) (h : i < 2048 / w) :
    lane (mapLanes r w f) w i = match f i with | some x => x % 2 ^ w | none => lane r w i := by
  have fits : w * (2048 / w) ≤ 2048 := Nat.mul_div_le 2048 w
  rw [mapLanes, lane_packLanes _ _ _ (by simpa using h) (by simpa using fits)]
  rcases e : f i with _ | x <;> simp [e, lane_mod]

theorem putLanes_eq (r : VReg) (w : Nat) (f : Nat → Option Nat) :
    putLanes r w ((List.range (2048 / w)).map f) = mapLanes r w f := by
  unfold putLanes mapLanes
  congr 1
  rw [List.zipWith_map_right, List.zipWith_self]

/-- A register of lanes of `w` bytes has as many lanes of `8·w` bits. -/
theorem lanes_bits (w : Nat) : 2048 / (8 * w) = 256 / w := by
  rw [← Nat.div_div_eq_div_mul]

/-! ### Words -/

/-- The causes of a word that is ready are those of its own. -/
theorem vecCauses_ready {s : State} {j : Job} {srcs : List Touch} {dsts : List (BitVec 7)} (h : VecReady s j srcs dsts) :
    s.vecCauses j srcs dsts = [] := by
  obtain ⟨h1, h2, h3⟩ := h
  have e1 : (srcs.map Prod.fst ++ dsts).any (s.absent j) = false := by
    rw [List.any_eq_false]; intro x hx; simp [h1 x hx]
  have e2 : dsts.any (fun v => j.tileOwned (tileOf v.toNat)) = false := by
    rw [List.any_eq_false]; intro x hx; simp [h2 x hx]
  simp [State.vecCauses, e1, e2, h3]

/-- A V word that is ready and whose effect completes is done. -/
theorem vecWord_ok {s s1 s2 : State} {h : VHdr} {srcs : Cursor → List Touch} {dsts : List (BitVec 7)}
    {more : Cursor → Job → State → List (BitVec 8)} {op : Cursor → Job → State → WRes} {c : Cursor} {j j2 : Job} {v : Word}
    {fl : BitVec 5} (enters : Enters s h.wait h.sig c j s1) (ready : VecReady s1 j (srcs c) dsts) (none' : more c j s1 = [])
    (res : op c j s1 = .ok s2 v none)
    (is : s2 = { s1 with jobs := s1.jobs.set c.job j2, cursor := some { c with raised := c.raised ||| fl } }) :
    vecWord h srcs dsts more op s = .next (wordDone s1 c h j2 v fl) := by
  obtain ⟨lt, _⟩ := List.getElem?_eq_some_iff.1 enters.job
  subst is
  unfold vecWord vecWordAt
  rw [runWord_enters _ _ enters]
  simp only [vecCauses_ready ready, none', List.append_nil, firstCause, res, WRes.dropVmod, Option.getD_some]
  unfold wordDone
  rcases hm : h.more
  · simp only [Bool.not_false, if_true, Bool.false_eq_true, if_false]
    refine congrArg _ ((close_ok (s1 := s1) (c := c) (c2 := { c with raised := c.raised ||| fl, vmod := none }) (j := j2) rfl rfl ?_ enters.going
      enters.going enters.clean enters.clean).trans ?_)
    · simp [lt]
    · simp [issued, List.set_set, Cursor.pc, Cursor.regs]
  · simp [State.absorb, State.advance, enters.clean, enters.going]

/-- Collecting exceptions that are not precise. -/
theorem raiseLanes_ok {c : Cursor} {s1 : State} {j : Job} {l : List (Nat × BitVec 5)} {v : Word} {f : Job → Job}
    (cur : s1.cursor = some c) (job : s1.jobs[c.job]? = some j)
    (quiet : preciseOf c.regs.fpctl = true → ∀ p ∈ l, p.2 &&& enabledOf c.regs.fpctl = 0) :
    raiseLanes c s1 l v f =
      .ok { s1 with jobs := s1.jobs.set c.job (f j), cursor := some { c with raised := c.raised ||| joinFlags l } } v none := by
  unfold raiseLanes
  have e : (if preciseOf c.regs.fpctl then firstFault (enabledOf c.regs.fpctl) l else none) = none := by
    split
    · rename_i hp
      have : (l.filter fun p => p.2 &&& enabledOf c.regs.fpctl != 0) = [] := by
        rw [List.filter_eq_nil_iff]; intro p hp'; simp [quiet hp p hp']
      rw [firstFault, this, List.foldl_nil]
    · rfl
  simp only [e, State.modJob_eq job, cur, Option.getD_some]

/-- Exceptions by lane, as a list of the lanes that have any. -/
theorem laneFlags_eq (n : Nat) (g : Nat → Option (Nat × BitVec 5)) :
    laneFlags ((List.range n).map g) = (List.range n).filterMap fun i => (g i).map fun x => (i, x.2) := by
  unfold laneFlags
  rw [List.length_map, List.length_range]
  generalize List.range n = l
  induction l with
  | nil => rfl
  | cons i t ih => rcases hg : g i with _ | x <;> simp [hg, ih]

/-- Exceptions by lane, joined. -/
theorem joinFlags_lanes (n : Nat) (g : Nat → Option (Nat × BitVec 5)) :
    joinFlags (laneFlags ((List.range n).map g)) = raisedBy n fun i => ((g i).map Prod.snd).getD 0#5 := by
  rw [laneFlags_eq, joinFlags, raisedBy]
  generalize List.range n = l
  generalize (0 : BitVec 5) = a
  induction l generalizing a with
  | nil => rfl
  | cons i t ih => rcases hg : g i with _ | x <;> simp [hg, ih]

theorem mem_laneFlags {n : Nat} {g : Nat → Option (Nat × BitVec 5)} {p : Nat × BitVec 5}
    (h : p ∈ laneFlags ((List.range n).map g)) : p.1 < n ∧ ∃ x, g p.1 = some x ∧ p.2 = x.2 := by
  rw [laneFlags_eq, List.mem_filterMap] at h
  obtain ⟨i, hi, e⟩ := h
  rw [List.mem_range] at hi
  rw [Option.map_eq_some_iff] at e
  obtain ⟨x, hx, rfl⟩ := e
  exact ⟨hi, x, hx, rfl⟩

/-- A word done by putting a register whose lanes are known. -/
theorem vecDone_of {s1 : State} {c : Cursor} {h : VHdr} {j : Job} {o : Host.Outcome State Fault Refusal} {vd : BitVec 7} {w : Nat}
    {wrote : Nat → Bool} {val : Nat → Nat} {v : Word} {fl : BitVec 5} {x : VReg}
    (is : o = .next (wordDone s1 c h (j.vecPut (vd, fun b => wrote (b / w)) x) v fl))
    (lanes : ∀ i < 256 / w, lane x (8 * w) i = if wrote i then val i % 2 ^ (8 * w) else lane (j.vreg vd) (8 * w) i) :
    VecDone s1 c h j o vd w wrote val v fl := ⟨x, is, lanes⟩

/-- Lanes put where a condition holds. -/
theorem lane_mapLanes_if (r : VReg) (w : Nat) (p : Nat → Bool) (f : Nat → Nat) (i : Nat) (h : i < 256 / w) :
    lane (mapLanes r (8 * w) fun i => if p i then some (f i) else none) (8 * w) i =
      if p i then f i % 2 ^ (8 * w) else lane r (8 * w) i := by
  rw [lane_mapLanes _ _ _ _ (by rw [lanes_bits]; exact h)]
  rcases p i <;> simp

/-- A word that computes its active lanes yields them. -/
theorem laneWord_yields (s : State) (h : VHdr) (vd : BitVec 7) (srcs : List (BitVec 7)) (ty : ElemTy)
    (f : Cursor → Nat → Nat × BitVec 5) :
    LaneYields s h vd (fun c => srcs.map fun v => (v, activeBytes (laneActive c h) ty.bytes)) ty
      (laneWord h vd srcs ty f s) f := by
  intro c j s1 e enters ready quiet
  have hl : ty.lanes = 2048 / ty.bits := (lanes_bits _).symm
  refine vecDone_of (x := mapLanes (j.vreg vd) ty.bits fun i => if laneActive c h i then some (f c i).1 else none)
    (vecWord_ok enters ready rfl (raiseLanes_ok enters.cursor enters.job ?_) ?_) ?_
  · intro hp p hm
    obtain ⟨lt, x, hx, h2⟩ := mem_laneFlags hm
    have := quiet hp p.1 lt
    split at hx
    · rename_i ha
      obtain rfl := Option.some.inj hx
      simpa [e, ha, h2] using this
    · cases hx
  · have he : (fun i => ((if laneActive c h i then some (f c i) else none).map Prod.snd).getD 0#5) = e := by
      funext i; rcases ha : laneActive c h i <;> simp [ha, e]
    have hv : ((fun r => r.map Prod.fst) ∘ fun i => if laneActive c h i then some (f c i) else none) =
        fun i => if laneActive c h i then some (f c i).1 else none := by
      funext i; rcases ha : laneActive c h i <;> simp [ha]
    rw [joinFlags_lanes, he, List.map_map, hv, hl, putLanes_eq]
    rfl
  · intro i hi
    exact lane_mapLanes_if _ _ _ _ _ hi

/-- A word that moves lanes yields them, and raises nothing. -/
theorem moveWord_yields (s : State) (h : VHdr) (vd : BitVec 7) (srcs : List (BitVec 7)) (ty : ElemTy) (f : Cursor → Nat → Nat) :
    LaneYields s h vd (fun _ => srcs.map allOf) ty (moveWord h vd srcs ty f s) (fun c i => (f c i, 0)) := by
  intro c j s1 e enters ready quiet
  refine vecDone_of (x := mapLanes (j.vreg vd) ty.bits fun i => if laneActive c h i then some (f c i) else none)
    (vecWord_ok enters ready rfl (congrArg (fun t => WRes.ok t _ _) (State.modJob_eq enters.job _)) ?_) ?_
  · have e0 : raisedBy ty.lanes e = 0 := by
      rw [raisedBy]
      generalize List.range ty.lanes = l
      induction l with
      | nil => rfl
      | cons i t ih => simp [e]
    simp [e0, enters.cursor]
    rfl
  · intro i hi
    exact lane_mapLanes_if _ _ _ _ _ hi

end Sys2Proof.Machine
end

