-- ==== Sys2Proof/Laws/PerInstr.lean ====
section
/-! SUPPORT. Statements made of every instruction, one lemma for each constructor. -/

open Sys2Proof

/-- What is legal alone is legal in a V bundle: a bundle only moves the judgement of REPLY from the word to the bundle
(R59). -/
def Sys2Proof.Laws.Legal.Statement (i : Sys2Proof.Instr) : Prop := i.wellFormed = true → i.legalIn true = true

/-- A header that is legal alone is legal in a bundle. -/
theorem Sys2Proof.Laws.hdr_ok_inV {h : Sys2Proof.Hdr} (ok : h.ok false = true) : h.ok true = true := by
  simp only [Sys2Proof.Hdr.ok, Bool.and_eq_true] at ok ⊢
  exact ⟨ok.1, by simp⟩

/-- A word whose header alone depends on its place. -/
theorem Sys2Proof.Laws.hdr_and_inV {h : Hdr} {b : Bool} (ok : (h.ok false && b) = true) : (h.ok true && b) = true := by
  simp only [Bool.and_eq_true] at ok ⊢
  exact ⟨Sys2Proof.Laws.hdr_ok_inV ok.1, ok.2⟩

theorem Sys2Proof.Laws.Legal.nop (h : Hdr) :
    Sys2Proof.Laws.Legal.Statement (.nop h) := fun ok => Sys2Proof.Laws.hdr_ok_inV ok

theorem Sys2Proof.Laws.Legal.movi (h : Hdr) (d : Dest) (imm : BitVec 31) :
    Sys2Proof.Laws.Legal.Statement (.movi h d imm) := fun ok => ok

theorem Sys2Proof.Laws.Legal.movk (h : Hdr) (d : Dest) (a : Src) (hw : BitVec 2) (imm : BitVec 16) :
    Sys2Proof.Laws.Legal.Statement (.movk h d a hw imm) := fun ok => ok

theorem Sys2Proof.Laws.Legal.mov (h : Hdr) (d : Dest) (a : Src) :
    Sys2Proof.Laws.Legal.Statement (.mov h d a) := fun ok => ok

theorem Sys2Proof.Laws.Legal.add (h : Hdr) (d : Dest) (a b : Src) :
    Sys2Proof.Laws.Legal.Statement (.add h d a b) := fun ok => ok

theorem Sys2Proof.Laws.Legal.sub (h : Hdr) (d : Dest) (a b : Src) :
    Sys2Proof.Laws.Legal.Statement (.sub h d a b) := fun ok => ok

theorem Sys2Proof.Laws.Legal.addi (h : Hdr) (d : Dest) (a : Src) (imm : BitVec 26) :
    Sys2Proof.Laws.Legal.Statement (.addi h d a imm) := fun ok => ok

theorem Sys2Proof.Laws.Legal.and (h : Hdr) (d : Dest) (a b : Src) :
    Sys2Proof.Laws.Legal.Statement (.and h d a b) := fun ok => ok

theorem Sys2Proof.Laws.Legal.or (h : Hdr) (d : Dest) (a b : Src) :
    Sys2Proof.Laws.Legal.Statement (.or h d a b) := fun ok => ok

theorem Sys2Proof.Laws.Legal.xor (h : Hdr) (d : Dest) (a b : Src) :
    Sys2Proof.Laws.Legal.Statement (.xor h d a b) := fun ok => ok

theorem Sys2Proof.Laws.Legal.andn (h : Hdr) (d : Dest) (a b : Src) :
    Sys2Proof.Laws.Legal.Statement (.andn h d a b) := fun ok => ok

theorem Sys2Proof.Laws.Legal.shl (h : Hdr) (d : Dest) (a b : Src) :
    Sys2Proof.Laws.Legal.Statement (.shl h d a b) := fun ok => ok

theorem Sys2Proof.Laws.Legal.shr (h : Hdr) (d : Dest) (a b : Src) :
    Sys2Proof.Laws.Legal.Statement (.shr h d a b) := fun ok => ok

theorem Sys2Proof.Laws.Legal.sar (h : Hdr) (d : Dest) (a b : Src) :
    Sys2Proof.Laws.Legal.Statement (.sar h d a b) := fun ok => ok

theorem Sys2Proof.Laws.Legal.min (h : Hdr) (d : Dest) (a b : Src) (sgn : Bool) :
    Sys2Proof.Laws.Legal.Statement (.min h d a b sgn) := fun ok => ok

theorem Sys2Proof.Laws.Legal.max (h : Hdr) (d : Dest) (a b : Src) (sgn : Bool) :
    Sys2Proof.Laws.Legal.Statement (.max h d a b sgn) := fun ok => ok

theorem Sys2Proof.Laws.Legal.cmp (h : Hdr) (pd : BitVec 3) (a b : Src) (cc : Cond) :
    Sys2Proof.Laws.Legal.Statement (.cmp h pd a b cc) := fun ok => ok

theorem Sys2Proof.Laws.Legal.cmpi (h : Hdr) (pd : BitVec 3) (a : Src) (imm : BitVec 21) (cc : Cond) :
    Sys2Proof.Laws.Legal.Statement (.cmpi h pd a imm cc) := fun ok => ok

theorem Sys2Proof.Laws.Legal.sel (h : Hdr) (d : Dest) (pc : BitVec 3) (a b : Src) :
    Sys2Proof.Laws.Legal.Statement (.sel h d pc a b) := fun ok => ok

theorem Sys2Proof.Laws.Legal.pset (h : Hdr) (pd pa pb : BitVec 3) (tt : BitVec 4) :
    Sys2Proof.Laws.Legal.Statement (.pset h pd pa pb tt) := fun ok => ok

theorem Sys2Proof.Laws.Legal.br (h : Hdr) (off : BitVec 36) :
    Sys2Proof.Laws.Legal.Statement (.br h off) := fun ok => Sys2Proof.Laws.hdr_ok_inV ok

theorem Sys2Proof.Laws.Legal.jmp (h : Hdr) (a : Src) :
    Sys2Proof.Laws.Legal.Statement (.jmp h a) := fun ok => Sys2Proof.Laws.hdr_ok_inV ok

theorem Sys2Proof.Laws.Legal.call (h : Hdr) (off : BitVec 36) :
    Sys2Proof.Laws.Legal.Statement (.call h off) := fun ok => Sys2Proof.Laws.hdr_ok_inV ok

theorem Sys2Proof.Laws.Legal.ret (h : Hdr) :
    Sys2Proof.Laws.Legal.Statement (.ret h) := fun ok => Sys2Proof.Laws.hdr_ok_inV ok

theorem Sys2Proof.Laws.Legal.retReg (h : Hdr) (a : Src) :
    Sys2Proof.Laws.Legal.Statement (.retReg h a) := fun ok => Sys2Proof.Laws.hdr_ok_inV ok

theorem Sys2Proof.Laws.Legal.loop (h : Hdr) (kc : BitVec 4) (off : BitVec 31) :
    Sys2Proof.Laws.Legal.Statement (.loop h kc off) := fun ok => Sys2Proof.Laws.hdr_ok_inV ok

theorem Sys2Proof.Laws.Legal.lds (h : Hdr) (d : Dest) (a : Src) (size : BitVec 2) (sgn : Bool) (off : BitVec 21) :
    Sys2Proof.Laws.Legal.Statement (.lds h d a size sgn off) := fun ok => ok

theorem Sys2Proof.Laws.Legal.sts (h : Hdr) (src a : Src) (size : BitVec 2) (off : BitVec 21) :
    Sys2Proof.Laws.Legal.Statement (.sts h src a size off) := fun ok => Sys2Proof.Laws.hdr_ok_inV ok

theorem Sys2Proof.Laws.Legal.qpush (h : Hdr) (x : BitVec 2) (a : Src) :
    Sys2Proof.Laws.Legal.Statement (.qpush h x a) := fun ok => ok

theorem Sys2Proof.Laws.Legal.qpop (h : Hdr) (d : Dest) (x : BitVec 2) :
    Sys2Proof.Laws.Legal.Statement (.qpop h d x) := fun ok => ok

theorem Sys2Proof.Laws.Legal.qlvl (h : Hdr) (d : Dest) (kind : LevelKind) (x : BitVec 2) :
    Sys2Proof.Laws.Legal.Statement (.qlvl h d kind x) := fun ok => ok

theorem Sys2Proof.Laws.Legal.stamp (h : Hdr) (d : Dest) :
    Sys2Proof.Laws.Legal.Statement (.stamp h d) := fun ok => ok

theorem Sys2Proof.Laws.Legal.stampSet (h : Hdr) (d : Dest) (a : Src) :
    Sys2Proof.Laws.Legal.Statement (.stampSet h d a) := fun ok => ok

theorem Sys2Proof.Laws.Legal.join (h : Hdr) :
    Sys2Proof.Laws.Legal.Statement (.join h) := fun ok => by
  simp only [Sys2Proof.Instr.wellFormed, Sys2Proof.Instr.legalIn, Bool.and_assoc] at ok ⊢
  exact Sys2Proof.Laws.hdr_and_inV ok

theorem Sys2Proof.Laws.Legal.csrr (h : Hdr) (d : Dest) (csr : BitVec 12) (sel : BitVec 3) :
    Sys2Proof.Laws.Legal.Statement (.csrr h d csr sel) := fun ok => ok

theorem Sys2Proof.Laws.Legal.csrw (h : Hdr) (d : Dest) (csr : BitVec 12) (sel : BitVec 3) (a : Src) :
    Sys2Proof.Laws.Legal.Statement (.csrw h d csr sel a) := fun ok => ok

theorem Sys2Proof.Laws.Legal.trap (h : Hdr) (code : BitVec 16) :
    Sys2Proof.Laws.Legal.Statement (.trap h code) := fun ok => ok

theorem Sys2Proof.Laws.Legal.idq (h : Hdr) (d : Dest) (sel : BitVec 8) :
    Sys2Proof.Laws.Legal.Statement (.idq h d sel) := fun ok => ok

theorem Sys2Proof.Laws.Legal.mul (h : Hdr) (d : Dest) (a b : Src) :
    Sys2Proof.Laws.Legal.Statement (.mul h d a b) := fun ok => ok

theorem Sys2Proof.Laws.Legal.mulh (h : Hdr) (d : Dest) (a b : Src) (mode : MulhMode) :
    Sys2Proof.Laws.Legal.Statement (.mulh h d a b mode) := fun ok => ok

theorem Sys2Proof.Laws.Legal.div (h : Hdr) (d : Dest) (a b : Src) (sgn : Bool) :
    Sys2Proof.Laws.Legal.Statement (.div h d a b sgn) := fun ok => ok

theorem Sys2Proof.Laws.Legal.rem (h : Hdr) (d : Dest) (a b : Src) (sgn : Bool) :
    Sys2Proof.Laws.Legal.Statement (.rem h d a b sgn) := fun ok => ok

theorem Sys2Proof.Laws.Legal.clz (h : Hdr) (d : Dest) (a : Src) :
    Sys2Proof.Laws.Legal.Statement (.clz h d a) := fun ok => ok

theorem Sys2Proof.Laws.Legal.ctz (h : Hdr) (d : Dest) (a : Src) :
    Sys2Proof.Laws.Legal.Statement (.ctz h d a) := fun ok => ok

theorem Sys2Proof.Laws.Legal.popc (h : Hdr) (d : Dest) (a : Src) :
    Sys2Proof.Laws.Legal.Statement (.popc h d a) := fun ok => ok

theorem Sys2Proof.Laws.Legal.bfx (h : Hdr) (d : Dest) (a : Src) (pos len : BitVec 6) (sx : Bool) :
    Sys2Proof.Laws.Legal.Statement (.bfx h d a pos len sx) := fun ok => ok

theorem Sys2Proof.Laws.Legal.bfi (h : Hdr) (d : Dest) (a b : Src) (pos len : BitVec 6) :
    Sys2Proof.Laws.Legal.Statement (.bfi h d a b pos len) := fun ok => ok

theorem Sys2Proof.Laws.Legal.fshl (h : Hdr) (d : Dest) (a b n : Src) :
    Sys2Proof.Laws.Legal.Statement (.fshl h d a b n) := fun ok => ok

theorem Sys2Proof.Laws.Legal.fshr (h : Hdr) (d : Dest) (a b n : Src) :
    Sys2Proof.Laws.Legal.Statement (.fshr h d a b n) := fun ok => ok

theorem Sys2Proof.Laws.Legal.ld (h : Hdr) (d : Dest) (a : Src) (size : BitVec 2) (sgn : Bool) (ord : MemOrd) :
    Sys2Proof.Laws.Legal.Statement (.ld h d a size sgn ord) := fun ok => ok

theorem Sys2Proof.Laws.Legal.st (h : Hdr) (src a : Src) (size : BitVec 2) (ord : MemOrd) :
    Sys2Proof.Laws.Legal.Statement (.st h src a size ord) := fun ok => Sys2Proof.Laws.hdr_ok_inV ok

theorem Sys2Proof.Laws.Legal.atom (h : Hdr) (d : Dest) (a b : Src) (op : AtomOp) (sgn : Bool) (ord : RmwOrd) (scope : Scope) (sz : Bool) :
    Sys2Proof.Laws.Legal.Statement (.atom h d a b op sgn ord scope sz) := fun ok => ok

theorem Sys2Proof.Laws.Legal.acas (h : Hdr) (d : Dest) (a b f : Src) (ord : RmwOrd) (scope : Scope) (sz : Bool) :
    Sys2Proof.Laws.Legal.Statement (.acas h d a b f ord scope sz) := fun ok => ok

theorem Sys2Proof.Laws.Legal.atomf (h : Hdr) (d : Dest) (a b : Src) (ft : AtomFmt) (ord : RmwOrd) (scope : Scope) :
    Sys2Proof.Laws.Legal.Statement (.atomf h d a b ft ord scope) := fun ok => ok

theorem Sys2Proof.Laws.Legal.fence (h : Hdr) (ord : FenceOrd) (scope : Scope) :
    Sys2Proof.Laws.Legal.Statement (.fence h ord scope) := fun ok => Sys2Proof.Laws.hdr_ok_inV ok

theorem Sys2Proof.Laws.Legal.dbar (h : Hdr) (d : Dest) :
    Sys2Proof.Laws.Legal.Statement (.dbar h d) := fun ok => ok

theorem Sys2Proof.Laws.Legal.launch (h : Hdr) (d : Dest) (a b : Src) :
    Sys2Proof.Laws.Legal.Statement (.launch h d a b) := fun ok => ok

theorem Sys2Proof.Laws.Legal.wqpush (h : Hdr) (d : Dest) (q k p : Src) :
    Sys2Proof.Laws.Legal.Statement (.wqpush h d q k p) := fun ok => ok

theorem Sys2Proof.Laws.Legal.wqpop (h : Hdr) (d : Dest) (kd : KeyDest) (q : Src) :
    Sys2Proof.Laws.Legal.Statement (.wqpop h d kd q) := fun ok => ok

theorem Sys2Proof.Laws.Legal.ploop (h : Hdr) (d : Dest) (a : Src) :
    Sys2Proof.Laws.Legal.Statement (.ploop h d a) := fun ok => ok

theorem Sys2Proof.Laws.Legal.pnext (h : Hdr) :
    Sys2Proof.Laws.Legal.Statement (.pnext h) := fun ok => Sys2Proof.Laws.hdr_and_inV ok

theorem Sys2Proof.Laws.Legal.pgend (h : Hdr) :
    Sys2Proof.Laws.Legal.Statement (.pgend h) := fun ok => Sys2Proof.Laws.hdr_and_inV ok

theorem Sys2Proof.Laws.Legal.pexit (h : Hdr) :
    Sys2Proof.Laws.Legal.Statement (.pexit h) := fun ok => Sys2Proof.Laws.hdr_and_inV ok

theorem Sys2Proof.Laws.Legal.pacc (h : Hdr) (kc : BitVec 4) (a : Src) :
    Sys2Proof.Laws.Legal.Statement (.pacc h kc a) := fun ok => Sys2Proof.Laws.hdr_ok_inV ok

theorem Sys2Proof.Laws.Legal.pstat (h : Hdr) (d : Dest) (sel : BitVec 8) :
    Sys2Proof.Laws.Legal.Statement (.pstat h d sel) := fun ok => ok

theorem Sys2Proof.Laws.Legal.apopen (h : Hdr) (slot : BitVec 2) (a : Src) :
    Sys2Proof.Laws.Legal.Statement (.apopen h slot a) := fun ok => Sys2Proof.Laws.hdr_ok_inV ok

theorem Sys2Proof.Laws.Legal.apnd (h : Hdr) (d : Dest) (slot : BitVec 2) (a b : Src) :
    Sys2Proof.Laws.Legal.Statement (.apnd h d slot a b) := fun ok => ok

theorem Sys2Proof.Laws.Legal.apcommit (h : Hdr) (d : Dest) (slot : BitVec 2) (b : Src) :
    Sys2Proof.Laws.Legal.Statement (.apcommit h d slot b) := fun ok => ok

theorem Sys2Proof.Laws.Legal.aptrunc (h : Hdr) (d : Dest) (slot : BitVec 2) :
    Sys2Proof.Laws.Legal.Statement (.aptrunc h d slot) := fun ok => ok

theorem Sys2Proof.Laws.Legal.apfork (h : Hdr) (d : Dest) (slot : BitVec 2) (a : Src) :
    Sys2Proof.Laws.Legal.Statement (.apfork h d slot a) := fun ok => ok

theorem Sys2Proof.Laws.Legal.apstat (h : Hdr) (d : Dest) (slot : BitVec 2) (sel : BitVec 8) :
    Sys2Proof.Laws.Legal.Statement (.apstat h d slot sel) := fun ok => ok

theorem Sys2Proof.Laws.Legal.discMark (h : Hdr) (a b : Src) (ts : Bool) :
    Sys2Proof.Laws.Legal.Statement (.discMark h a b ts) := fun ok => Sys2Proof.Laws.hdr_ok_inV ok

theorem Sys2Proof.Laws.Legal.discKeep (h : Hdr) (a b : Src) (ts : Bool) :
    Sys2Proof.Laws.Legal.Statement (.discKeep h a b ts) := fun ok => Sys2Proof.Laws.hdr_ok_inV ok

theorem Sys2Proof.Laws.Legal.discLost (h : Hdr) (d : Dest) (b : Src) :
    Sys2Proof.Laws.Legal.Statement (.discLost h d b) := fun ok => ok

theorem Sys2Proof.Laws.Legal.discAck (h : Hdr) :
    Sys2Proof.Laws.Legal.Statement (.discAck h) := fun ok => Sys2Proof.Laws.hdr_ok_inV ok

theorem Sys2Proof.Laws.Legal.ckpt (h : Hdr) (d : Dest) (a : Src) :
    Sys2Proof.Laws.Legal.Statement (.ckpt h d a) := fun ok => ok

theorem Sys2Proof.Laws.Legal.tretRetry (h : Hdr) :
    Sys2Proof.Laws.Legal.Statement (.tretRetry h) := fun ok => by
  simp only [Sys2Proof.Instr.wellFormed, Sys2Proof.Instr.legalIn, Bool.and_assoc] at ok ⊢
  exact Sys2Proof.Laws.hdr_and_inV ok

theorem Sys2Proof.Laws.Legal.tretNext (h : Hdr) :
    Sys2Proof.Laws.Legal.Statement (.tretNext h) := fun ok => by
  simp only [Sys2Proof.Instr.wellFormed, Sys2Proof.Instr.legalIn, Bool.and_assoc] at ok ⊢
  exact Sys2Proof.Laws.hdr_and_inV ok

theorem Sys2Proof.Laws.Legal.tretAbort (h : Hdr) :
    Sys2Proof.Laws.Legal.Statement (.tretAbort h) := fun ok => by
  simp only [Sys2Proof.Instr.wellFormed, Sys2Proof.Instr.legalIn, Bool.and_assoc] at ok ⊢
  exact Sys2Proof.Laws.hdr_and_inV ok

theorem Sys2Proof.Laws.Legal.yield (h : Hdr) (d : Dest) :
    Sys2Proof.Laws.Legal.Statement (.yield h d) := fun ok => ok

theorem Sys2Proof.Laws.Legal.vadd (h : VHdr) (vd va vb : BitVec 7) (ty : ElemTy) :
    Sys2Proof.Laws.Legal.Statement (.vadd h vd va vb ty) := fun ok => ok

theorem Sys2Proof.Laws.Legal.vsub (h : VHdr) (vd va vb : BitVec 7) (ty : ElemTy) :
    Sys2Proof.Laws.Legal.Statement (.vsub h vd va vb ty) := fun ok => ok

theorem Sys2Proof.Laws.Legal.vmul (h : VHdr) (vd va vb : BitVec 7) (ty : ElemTy) :
    Sys2Proof.Laws.Legal.Statement (.vmul h vd va vb ty) := fun ok => ok

theorem Sys2Proof.Laws.Legal.vfma (h : VHdr) (vd va vb vc : BitVec 7) (ty : ElemTy) :
    Sys2Proof.Laws.Legal.Statement (.vfma h vd va vb vc ty) := fun ok => ok

theorem Sys2Proof.Laws.Legal.vfms (h : VHdr) (vd va vb vc : BitVec 7) (ty : ElemTy) :
    Sys2Proof.Laws.Legal.Statement (.vfms h vd va vb vc ty) := fun ok => ok

theorem Sys2Proof.Laws.Legal.vfnma (h : VHdr) (vd va vb vc : BitVec 7) (ty : ElemTy) :
    Sys2Proof.Laws.Legal.Statement (.vfnma h vd va vb vc ty) := fun ok => ok

theorem Sys2Proof.Laws.Legal.vdiv (h : VHdr) (vd va vb : BitVec 7) (ty : ElemTy) :
    Sys2Proof.Laws.Legal.Statement (.vdiv h vd va vb ty) := fun ok => ok

theorem Sys2Proof.Laws.Legal.vsqrt (h : VHdr) (vd va : BitVec 7) (ty : ElemTy) :
    Sys2Proof.Laws.Legal.Statement (.vsqrt h vd va ty) := fun ok => ok

theorem Sys2Proof.Laws.Legal.vmin (h : VHdr) (vd va vb : BitVec 7) (ty : ElemTy) :
    Sys2Proof.Laws.Legal.Statement (.vmin h vd va vb ty) := fun ok => ok

theorem Sys2Proof.Laws.Legal.vmax (h : VHdr) (vd va vb : BitVec 7) (ty : ElemTy) :
    Sys2Proof.Laws.Legal.Statement (.vmax h vd va vb ty) := fun ok => ok

theorem Sys2Proof.Laws.Legal.vminn (h : VHdr) (vd va vb : BitVec 7) (ty : ElemTy) :
    Sys2Proof.Laws.Legal.Statement (.vminn h vd va vb ty) := fun ok => ok

theorem Sys2Proof.Laws.Legal.vmaxn (h : VHdr) (vd va vb : BitVec 7) (ty : ElemTy) :
    Sys2Proof.Laws.Legal.Statement (.vmaxn h vd va vb ty) := fun ok => ok

theorem Sys2Proof.Laws.Legal.vcmp (h : VHdr) (md : BitVec 3) (va vb : BitVec 7) (ty : ElemTy) (cc : VCond) :
    Sys2Proof.Laws.Legal.Statement (.vcmp h md va vb ty cc) := fun ok => ok

theorem Sys2Proof.Laws.Legal.vclass (h : VHdr) (vd va : BitVec 7) (ty : ElemTy) :
    Sys2Proof.Laws.Legal.Statement (.vclass h vd va ty) := fun ok => ok

theorem Sys2Proof.Laws.Legal.vrcpe (h : VHdr) (vd va : BitVec 7) (ty : ElemTy) :
    Sys2Proof.Laws.Legal.Statement (.vrcpe h vd va ty) := fun ok => ok

theorem Sys2Proof.Laws.Legal.vrsqe (h : VHdr) (vd va : BitVec 7) (ty : ElemTy) :
    Sys2Proof.Laws.Legal.Statement (.vrsqe h vd va ty) := fun ok => ok

theorem Sys2Proof.Laws.Legal.vrcps (h : VHdr) (vd va vb : BitVec 7) (ty : ElemTy) :
    Sys2Proof.Laws.Legal.Statement (.vrcps h vd va vb ty) := fun ok => ok

theorem Sys2Proof.Laws.Legal.vrsqs (h : VHdr) (vd va vb : BitVec 7) (ty : ElemTy) :
    Sys2Proof.Laws.Legal.Statement (.vrsqs h vd va vb ty) := fun ok => ok

theorem Sys2Proof.Laws.Legal.vexp2 (h : VHdr) (vd va : BitVec 7) (ty : ElemTy) :
    Sys2Proof.Laws.Legal.Statement (.vexp2 h vd va ty) := fun ok => ok

theorem Sys2Proof.Laws.Legal.vlog2 (h : VHdr) (vd va : BitVec 7) (ty : ElemTy) :
    Sys2Proof.Laws.Legal.Statement (.vlog2 h vd va ty) := fun ok => ok

theorem Sys2Proof.Laws.Legal.vsin (h : VHdr) (vd va : BitVec 7) (ty : ElemTy) :
    Sys2Proof.Laws.Legal.Statement (.vsin h vd va ty) := fun ok => ok

theorem Sys2Proof.Laws.Legal.vcos (h : VHdr) (vd va : BitVec 7) (ty : ElemTy) :
    Sys2Proof.Laws.Legal.Statement (.vcos h vd va ty) := fun ok => ok

theorem Sys2Proof.Laws.Legal.vcvt (h : VHdr) (vd va : BitVec 7) (dst src : ElemTy) (part : BitVec 3) :
    Sys2Proof.Laws.Legal.Statement (.vcvt h vd va dst src part) := fun ok => ok

theorem Sys2Proof.Laws.Legal.vqblk (h : VHdr) (vd va : BitVec 7) (ty src : ElemTy) (b : BitVec 3) :
    Sys2Proof.Laws.Legal.Statement (.vqblk h vd va ty src b) := fun ok => ok

theorem Sys2Proof.Laws.Legal.vqblkGiven (h : VHdr) (vd va vs : BitVec 7) (ty src : ElemTy) (b : BitVec 3) :
    Sys2Proof.Laws.Legal.Statement (.vqblkGiven h vd va vs ty src b) := fun ok => ok

theorem Sys2Proof.Laws.Legal.vdqblk (h : VHdr) (vd va vs : BitVec 7) (ty src : ElemTy) (b : BitVec 3) :
    Sys2Proof.Laws.Legal.Statement (.vdqblk h vd va vs ty src b) := fun ok => ok

theorem Sys2Proof.Laws.Legal.viadd (h : VHdr) (vd va vb : BitVec 7) (ty : ElemTy) :
    Sys2Proof.Laws.Legal.Statement (.viadd h vd va vb ty) := fun ok => ok

theorem Sys2Proof.Laws.Legal.visub (h : VHdr) (vd va vb : BitVec 7) (ty : ElemTy) :
    Sys2Proof.Laws.Legal.Statement (.visub h vd va vb ty) := fun ok => ok

theorem Sys2Proof.Laws.Legal.vimul (h : VHdr) (vd va vb : BitVec 7) (ty : ElemTy) :
    Sys2Proof.Laws.Legal.Statement (.vimul h vd va vb ty) := fun ok => ok

theorem Sys2Proof.Laws.Legal.vimulh (h : VHdr) (vd va vb : BitVec 7) (ty : ElemTy) :
    Sys2Proof.Laws.Legal.Statement (.vimulh h vd va vb ty) := fun ok => ok

theorem Sys2Proof.Laws.Legal.vimad (h : VHdr) (vd va vb vc : BitVec 7) (ty : ElemTy) :
    Sys2Proof.Laws.Legal.Statement (.vimad h vd va vb vc ty) := fun ok => ok

theorem Sys2Proof.Laws.Legal.vand (h : VHdr) (vd va vb : BitVec 7) (ty : ElemTy) :
    Sys2Proof.Laws.Legal.Statement (.vand h vd va vb ty) := fun ok => ok

theorem Sys2Proof.Laws.Legal.vor (h : VHdr) (vd va vb : BitVec 7) (ty : ElemTy) :
    Sys2Proof.Laws.Legal.Statement (.vor h vd va vb ty) := fun ok => ok

theorem Sys2Proof.Laws.Legal.vxor (h : VHdr) (vd va vb : BitVec 7) (ty : ElemTy) :
    Sys2Proof.Laws.Legal.Statement (.vxor h vd va vb ty) := fun ok => ok

theorem Sys2Proof.Laws.Legal.vandn (h : VHdr) (vd va vb : BitVec 7) (ty : ElemTy) :
    Sys2Proof.Laws.Legal.Statement (.vandn h vd va vb ty) := fun ok => ok

theorem Sys2Proof.Laws.Legal.vshl (h : VHdr) (vd va vb : BitVec 7) (ty : ElemTy) :
    Sys2Proof.Laws.Legal.Statement (.vshl h vd va vb ty) := fun ok => ok

theorem Sys2Proof.Laws.Legal.vshr (h : VHdr) (vd va vb : BitVec 7) (ty : ElemTy) :
    Sys2Proof.Laws.Legal.Statement (.vshr h vd va vb ty) := fun ok => ok

theorem Sys2Proof.Laws.Legal.vsar (h : VHdr) (vd va vb : BitVec 7) (ty : ElemTy) :
    Sys2Proof.Laws.Legal.Statement (.vsar h vd va vb ty) := fun ok => ok

theorem Sys2Proof.Laws.Legal.vrot (h : VHdr) (vd va vb : BitVec 7) (ty : ElemTy) :
    Sys2Proof.Laws.Legal.Statement (.vrot h vd va vb ty) := fun ok => ok

theorem Sys2Proof.Laws.Legal.vfshl (h : VHdr) (vd va vb vc : BitVec 7) (ty : ElemTy) :
    Sys2Proof.Laws.Legal.Statement (.vfshl h vd va vb vc ty) := fun ok => ok

theorem Sys2Proof.Laws.Legal.vfshr (h : VHdr) (vd va vb vc : BitVec 7) (ty : ElemTy) :
    Sys2Proof.Laws.Legal.Statement (.vfshr h vd va vb vc ty) := fun ok => ok

theorem Sys2Proof.Laws.Legal.vclz (h : VHdr) (vd va : BitVec 7) (ty : ElemTy) :
    Sys2Proof.Laws.Legal.Statement (.vclz h vd va ty) := fun ok => ok

theorem Sys2Proof.Laws.Legal.vpopc (h : VHdr) (vd va : BitVec 7) (ty : ElemTy) :
    Sys2Proof.Laws.Legal.Statement (.vpopc h vd va ty) := fun ok => ok

theorem Sys2Proof.Laws.Legal.vld (h : VHdr) (vd : BitVec 7) (ka : Src) (off : BitVec 14) (ty : ElemTy) (bm : Bool) :
    Sys2Proof.Laws.Legal.Statement (.vld h vd ka off ty bm) := fun ok => ok

theorem Sys2Proof.Laws.Legal.vst (h : VHdr) (vs : BitVec 7) (ka : Src) (off : BitVec 14) (ty : ElemTy) (bm : Bool) :
    Sys2Proof.Laws.Legal.Statement (.vst h vs ka off ty bm) := fun ok => ok

theorem Sys2Proof.Laws.Legal.vlds (h : VHdr) (vd : BitVec 7) (ka kb : Src) (ty : ElemTy) :
    Sys2Proof.Laws.Legal.Statement (.vlds h vd ka kb ty) := fun ok => ok

theorem Sys2Proof.Laws.Legal.vgats (h : VHdr) (vd : BitVec 7) (ka : Src) (vb : BitVec 7) (ty : ElemTy) :
    Sys2Proof.Laws.Legal.Statement (.vgats h vd ka vb ty) := fun ok => ok

theorem Sys2Proof.Laws.Legal.vscats (h : VHdr) (vs : BitVec 7) (ka : Src) (vb : BitVec 7) (ty : ElemTy) :
    Sys2Proof.Laws.Legal.Statement (.vscats h vs ka vb ty) := fun ok => ok

theorem Sys2Proof.Laws.Legal.vperm (h : VHdr) (vd va vb : BitVec 7) (ty : ElemTy) :
    Sys2Proof.Laws.Legal.Statement (.vperm h vd va vb ty) := fun ok => ok

theorem Sys2Proof.Laws.Legal.vshuf (h : VHdr) (vd va vb vc : BitVec 7) (ty : ElemTy) :
    Sys2Proof.Laws.Legal.Statement (.vshuf h vd va vb vc ty) := fun ok => ok

theorem Sys2Proof.Laws.Legal.vbcast (h : VHdr) (vd : BitVec 7) (ka : Src) (ty : ElemTy) :
    Sys2Proof.Laws.Legal.Statement (.vbcast h vd ka ty) := fun ok => ok

theorem Sys2Proof.Laws.Legal.vslideDn (h : VHdr) (vd va vb : BitVec 7) (kc : Src) (ty : ElemTy) :
    Sys2Proof.Laws.Legal.Statement (.vslideDn h vd va vb kc ty) := fun ok => ok

theorem Sys2Proof.Laws.Legal.vslideUp (h : VHdr) (vd va vb : BitVec 7) (kc : Src) (ty : ElemTy) :
    Sys2Proof.Laws.Legal.Statement (.vslideUp h vd va vb kc ty) := fun ok => ok

theorem Sys2Proof.Laws.Legal.vsel (h : VHdr) (vd va vb : BitVec 7) (mc : BitVec 3) (ty : ElemTy) :
    Sys2Proof.Laws.Legal.Statement (.vsel h vd va vb mc ty) := fun ok => ok

theorem Sys2Proof.Laws.Legal.vext (h : VHdr) (va : BitVec 7) (kb : Src) (ty : ElemTy) :
    Sys2Proof.Laws.Legal.Statement (.vext h va kb ty) := fun ok => ok

theorem Sys2Proof.Laws.Legal.vins (h : VHdr) (vd : BitVec 7) (ka kb : Src) (ty : ElemTy) :
    Sys2Proof.Laws.Legal.Statement (.vins h vd ka kb ty) := fun ok => ok

theorem Sys2Proof.Laws.Legal.vredsum (h : VHdr) (vd va : BitVec 7) (ty : ElemTy) :
    Sys2Proof.Laws.Legal.Statement (.vredsum h vd va ty) := fun ok => ok

theorem Sys2Proof.Laws.Legal.vredmax (h : VHdr) (vd va : BitVec 7) (ty : ElemTy) :
    Sys2Proof.Laws.Legal.Statement (.vredmax h vd va ty) := fun ok => ok

theorem Sys2Proof.Laws.Legal.vredmin (h : VHdr) (vd va : BitVec 7) (ty : ElemTy) :
    Sys2Proof.Laws.Legal.Statement (.vredmin h vd va ty) := fun ok => ok

theorem Sys2Proof.Laws.Legal.vredarg (h : VHdr) (vd va : BitVec 7) (ty : ElemTy) (least : Bool) :
    Sys2Proof.Laws.Legal.Statement (.vredarg h vd va ty least) := fun ok => ok

theorem Sys2Proof.Laws.Legal.vscan (h : VHdr) (vd va : BitVec 7) (ty : ElemTy) (exc : Bool) :
    Sys2Proof.Laws.Legal.Statement (.vscan h vd va ty exc) := fun ok => ok

theorem Sys2Proof.Laws.Legal.viota (h : VHdr) (vd : BitVec 7) (ty : ElemTy) (idx : Bool) :
    Sys2Proof.Laws.Legal.Statement (.viota h vd ty idx) := fun ok => ok

theorem Sys2Proof.Laws.Legal.vmpop (h : VHdr) (ma : BitVec 3) (ty : ElemTy) :
    Sys2Proof.Laws.Legal.Statement (.vmpop h ma ty) := fun ok => ok

theorem Sys2Proof.Laws.Legal.vmlog (h : VHdr) (md ma mb : BitVec 3) (tt : BitVec 4) :
    Sys2Proof.Laws.Legal.Statement (.vmlog h md ma mb tt) := fun ok => ok

theorem Sys2Proof.Laws.Legal.vtab (h : VHdr) (va : BitVec 7) (tl : BitVec 2) (kg : Src) (uns : Bool) :
    Sys2Proof.Laws.Legal.Statement (.vtab h va tl kg uns) := fun ok => ok

theorem Sys2Proof.Laws.Legal.vsnap (h : VHdr) (vd va : BitVec 7) :
    Sys2Proof.Laws.Legal.Statement (.vsnap h vd va) := fun ok => ok

theorem Sys2Proof.Laws.Legal.vprefeq (h : VHdr) (va vb : BitVec 7) (ty : ElemTy) :
    Sys2Proof.Laws.Legal.Statement (.vprefeq h va vb ty) := fun ok => ok

theorem Sys2Proof.Laws.Legal.vshort (h : VHdr) (vd va : BitVec 7) (kb : Src) (ty : ElemTy) :
    Sys2Proof.Laws.Legal.Statement (.vshort h vd va kb ty) := fun ok => ok

theorem Sys2Proof.Laws.Legal.vmass (h : VHdr) (md : BitVec 3) (va : BitVec 7) (kb kc : Src) :
    Sys2Proof.Laws.Legal.Statement (.vmass h md va kb kc) := fun ok => ok

theorem Sys2Proof.Laws.Legal.vnoise (h : VHdr) (vd : BitVec 7) (ka kb kc : Src) :
    Sys2Proof.Laws.Legal.Statement (.vnoise h vd ka kb kc) := fun ok => ok

theorem Sys2Proof.Laws.Legal.vbtest (h : VHdr) (md : BitVec 3) (va vb : BitVec 7) (ty : ElemTy) :
    Sys2Proof.Laws.Legal.Statement (.vbtest h md va vb ty) := fun ok => ok

theorem Sys2Proof.Laws.Legal.vbset (h : VHdr) (vd va vb : BitVec 7) (ty : ElemTy) :
    Sys2Proof.Laws.Legal.Statement (.vbset h vd va vb ty) := fun ok => ok

theorem Sys2Proof.Laws.Legal.vmod (wait : Wait) (sig : Sig) (neg abs : BitVec 3) (clamp : Clamp) (scale : BitVec 4) (rnd : Option RMode) :
    Sys2Proof.Laws.Legal.Statement (.vmod wait sig neg abs clamp scale rnd) := fun ok => ok

theorem Sys2Proof.Laws.Legal.tdecl (h : Hdr) (t : BitVec 2) (f32 disc : Bool) :
    Sys2Proof.Laws.Legal.Statement (.tdecl h t f32 disc) := fun ok => Sys2Proof.Laws.hdr_ok_inV ok

theorem Sys2Proof.Laws.Legal.cbload (h : Hdr) (cb : BitVec 3) (kc ka : Src) :
    Sys2Proof.Laws.Legal.Statement (.cbload h cb kc ka) := fun ok => Sys2Proof.Laws.hdr_ok_inV ok

theorem Sys2Proof.Laws.Legal.tlset (h : Hdr) (tl : BitVec 2) (kc : Src) :
    Sys2Proof.Laws.Legal.Statement (.tlset h tl kc) := fun ok => Sys2Proof.Laws.hdr_ok_inV ok

theorem Sys2Proof.Laws.Legal.lmm (h : Hdr) (t tl : BitVec 2) (kc ka : Src) (nb : BitVec 12) :
    Sys2Proof.Laws.Legal.Statement (.lmm h t tl kc ka nb) := fun ok => ok

theorem Sys2Proof.Laws.Legal.lmmFeed (h : Hdr) (t tl cf : BitVec 2) (kc : Src) (nb : BitVec 12) :
    Sys2Proof.Laws.Legal.Statement (.lmmFeed h t tl cf kc nb) := fun ok => ok

theorem Sys2Proof.Laws.Legal.cfeed (h : Hdr) (cf : BitVec 2) (ka : Src) :
    Sys2Proof.Laws.Legal.Statement (.cfeed h cf ka) := fun ok => Sys2Proof.Laws.hdr_ok_inV ok

theorem Sys2Proof.Laws.Legal.cunfeed (h : Hdr) (cf : BitVec 2) :
    Sys2Proof.Laws.Legal.Statement (.cunfeed h cf) := fun ok => Sys2Proof.Laws.hdr_ok_inV ok

theorem Sys2Proof.Laws.Legal.lspill (h : Hdr) (t : BitVec 2) (ka : Src) :
    Sys2Proof.Laws.Legal.Statement (.lspill h t ka) := fun ok => ok

theorem Sys2Proof.Laws.Legal.lfill (h : Hdr) (t : BitVec 2) (ka : Src) :
    Sys2Proof.Laws.Legal.Statement (.lfill h t ka) := fun ok => ok

theorem Sys2Proof.Laws.Legal.lzero (h : Hdr) (t : BitVec 2) :
    Sys2Proof.Laws.Legal.Statement (.lzero h t) := fun ok => ok

theorem Sys2Proof.Laws.Legal.lwake (h : Hdr) (mask : BitVec 4) :
    Sys2Proof.Laws.Legal.Statement (.lwake h mask) := fun ok => Sys2Proof.Laws.hdr_and_inV ok

theorem Sys2Proof.Laws.Legal.lstat (h : Hdr) (sel : BitVec 12) :
    Sys2Proof.Laws.Legal.Statement (.lstat h sel) := fun ok => ok

theorem Sys2Proof.Laws.Legal.tload (h : Hdr) (tl : BitVec 2) (kc ka : Src) :
    Sys2Proof.Laws.Legal.Statement (.tload h tl kc ka) := fun ok => ok

theorem Sys2Proof.Laws.Legal.tsave (h : Hdr) (tl : BitVec 2) (kc ka : Src) :
    Sys2Proof.Laws.Legal.Statement (.tsave h tl kc ka) := fun ok => ok

theorem Sys2Proof.Laws.Legal.shape (h : Hdr) (sh : BitVec 3) (ks : Src) :
    Sys2Proof.Laws.Legal.Statement (.shape h sh ks) := fun ok => Sys2Proof.Laws.hdr_ok_inV ok

theorem Sys2Proof.Laws.Legal.cpy (h : Hdr) (d : Dest) (sh : BitVec 3) (km ks kn : Src) :
    Sys2Proof.Laws.Legal.Statement (.cpy h d sh km ks kn) := fun ok => ok

theorem Sys2Proof.Laws.Legal.cpyo (h : Hdr) (d : Dest) (sh : BitVec 3) (km ks kn : Src) :
    Sys2Proof.Laws.Legal.Statement (.cpyo h d sh km ks kn) := fun ok => ok

theorem Sys2Proof.Laws.Legal.cpyoAppend (h : Hdr) (d : Dest) (sh : BitVec 3) (km ks kn : Src) :
    Sys2Proof.Laws.Legal.Statement (.cpyoAppend h d sh km ks kn) := fun ok => ok

theorem Sys2Proof.Laws.Legal.cpyc (h : Hdr) (d : Dest) (sh : BitVec 3) (km ks kc : Src) :
    Sys2Proof.Laws.Legal.Statement (.cpyc h d sh km ks kc) := fun ok => ok

theorem Sys2Proof.Laws.Legal.pref (h : Hdr) (d : Dest) (sh : BitVec 3) (km kn : Src) (l1 : Bool) :
    Sys2Proof.Laws.Legal.Statement (.pref h d sh km kn l1) := fun ok => ok

theorem Sys2Proof.Laws.Legal.cwait (h : Hdr) (kn : Src) :
    Sys2Proof.Laws.Legal.Statement (.cwait h kn) := fun ok => Sys2Proof.Laws.hdr_ok_inV ok

theorem Sys2Proof.Laws.Legal.cwaitAll (h : Hdr) :
    Sys2Proof.Laws.Legal.Statement (.cwaitAll h) := fun ok => Sys2Proof.Laws.hdr_ok_inV ok

theorem Sys2Proof.Laws.Legal.cflush (h : Hdr) (d : Dest) (sh : BitVec 3) (km kn : Src) (op : FlushOp) :
    Sys2Proof.Laws.Legal.Statement (.cflush h d sh km kn op) := fun ok => ok

theorem Sys2Proof.Laws.Legal.cstat (h : Hdr) (d : Dest) (sel : BitVec 5) :
    Sys2Proof.Laws.Legal.Statement (.cstat h d sel) := fun ok => ok

theorem Sys2Proof.Laws.Legal.gath (h : Hdr) (d : Dest) (sh : BitVec 3) (km ks kn : Src) :
    Sys2Proof.Laws.Legal.Statement (.gath h d sh km ks kn) := fun ok => ok

theorem Sys2Proof.Laws.Legal.gathp (h : Hdr) (d : Dest) (sh : BitVec 3) (km ks kn : Src) :
    Sys2Proof.Laws.Legal.Statement (.gathp h d sh km ks kn) := fun ok => ok

theorem Sys2Proof.Laws.Legal.scat (h : Hdr) (d : Dest) (sh : BitVec 3) (km ks kn : Src) :
    Sys2Proof.Laws.Legal.Statement (.scat h d sh km ks kn) := fun ok => ok

theorem Sys2Proof.Laws.Legal.powerOn (fail : BitVec 8) (bad : List Nat) :
    Sys2Proof.Laws.Legal.Statement (.powerOn fail bad) := fun ok => ok

theorem Sys2Proof.Laws.Legal.ringFetch (j : Nat) (x : StreamId) :
    Sys2Proof.Laws.Legal.Statement (.ringFetch j x) := fun ok => ok

theorem Sys2Proof.Laws.Legal.timedTargetMiss (j : Nat) (x : StreamId) :
    Sys2Proof.Laws.Legal.Statement (.timedTargetMiss j x) := fun ok => ok

theorem Sys2Proof.Laws.Legal.queueDeadlock (j : Nat) :
    Sys2Proof.Laws.Legal.Statement (.queueDeadlock j) := fun ok => ok

theorem Sys2Proof.Laws.Legal.budgetExpiry (j : Nat) :
    Sys2Proof.Laws.Legal.Statement (.budgetExpiry j) := fun ok => ok

theorem Sys2Proof.Laws.Legal.commandComplete (j cmd : Nat) :
    Sys2Proof.Laws.Legal.Statement (.commandComplete j cmd) := fun ok => ok

theorem Sys2Proof.Laws.Legal.commandAsyncFault (j cmd : Nat) :
    Sys2Proof.Laws.Legal.Statement (.commandAsyncFault j cmd) := fun ok => ok

theorem Sys2Proof.Laws.Legal.sluiceBatch (j cmd : Nat) :
    Sys2Proof.Laws.Legal.Statement (.sluiceBatch j cmd) := fun ok => ok

theorem Sys2Proof.Laws.Legal.lmeCommandStart (j : Nat) :
    Sys2Proof.Laws.Legal.Statement (.lmeCommandStart j) := fun ok => ok

theorem Sys2Proof.Laws.Legal.lmmKStepDone (j : Nat) :
    Sys2Proof.Laws.Legal.Statement (.lmmKStepDone j) := fun ok => ok

theorem Sys2Proof.Laws.Legal.lmeCommandComplete (j : Nat) :
    Sys2Proof.Laws.Legal.Statement (.lmeCommandComplete j) := fun ok => ok

theorem Sys2Proof.Laws.Legal.lmeAsyncFault (j : Nat) :
    Sys2Proof.Laws.Legal.Statement (.lmeAsyncFault j) := fun ok => ok

theorem Sys2Proof.Laws.Legal.subarrayGate (core : Nat) (sub : BitVec 2) :
    Sys2Proof.Laws.Legal.Statement (.subarrayGate core sub) := fun ok => ok

theorem Sys2Proof.Laws.Legal.subarrayWakeDone (core : Nat) (sub : BitVec 2) :
    Sys2Proof.Laws.Legal.Statement (.subarrayWakeDone core sub) := fun ok => ok

theorem Sys2Proof.Laws.Legal.feedFetch (j : Nat) (cf : BitVec 2) :
    Sys2Proof.Laws.Legal.Statement (.feedFetch j cf) := fun ok => ok

theorem Sys2Proof.Laws.Legal.tableWalk (j : Nat) (va : Word) (kind : AccessKind) :
    Sys2Proof.Laws.Legal.Statement (.tableWalk j va kind) := fun ok => ok

theorem Sys2Proof.Laws.Legal.resume (who : Agent) (part core : Nat) :
    Sys2Proof.Laws.Legal.Statement (.resume who part core) := fun ok => ok

theorem Sys2Proof.Laws.Legal.abort (who : Agent) (part core : Nat) :
    Sys2Proof.Laws.Legal.Statement (.abort who part core) := fun ok => ok

theorem Sys2Proof.Laws.Legal.invalidate (who : Agent) (part : Nat) (ctx : BitVec 16) (va len : Word) :
    Sys2Proof.Laws.Legal.Statement (.invalidate who part ctx va len) := fun ok => ok

theorem Sys2Proof.Laws.Legal.invalidationDone (part : Nat) :
    Sys2Proof.Laws.Legal.Statement (.invalidationDone part) := fun ok => ok

theorem Sys2Proof.Laws.Legal.frameCopy (src dst : Nat) :
    Sys2Proof.Laws.Legal.Statement (.frameCopy src dst) := fun ok => ok

theorem Sys2Proof.Laws.Legal.inletConsume (part : Nat) (inlet : BitVec 2) :
    Sys2Proof.Laws.Legal.Statement (.inletConsume part inlet) := fun ok => ok

theorem Sys2Proof.Laws.Legal.launchReady (part : Nat) (seq : Word) :
    Sys2Proof.Laws.Legal.Statement (.launchReady part seq) := fun ok => ok

theorem Sys2Proof.Laws.Legal.teamDispatch (part : Nat) (seq : Word) (cores : List Nat) (jstart : Nat) :
    Sys2Proof.Laws.Legal.Statement (.teamDispatch part seq cores jstart) := fun ok => ok

theorem Sys2Proof.Laws.Legal.jobStart (j : Nat) :
    Sys2Proof.Laws.Legal.Statement (.jobStart j) := fun ok => ok

theorem Sys2Proof.Laws.Legal.completionRecordWrite (part : Nat) (seq : Word) :
    Sys2Proof.Laws.Legal.Statement (.completionRecordWrite part seq) := fun ok => ok

theorem Sys2Proof.Laws.Legal.quantumExpiry (part : Nat) (seq : Word) (team : Nat) :
    Sys2Proof.Laws.Legal.Statement (.quantumExpiry part seq team) := fun ok => ok

theorem Sys2Proof.Laws.Legal.swapWindowExpiry (j : Nat) :
    Sys2Proof.Laws.Legal.Statement (.swapWindowExpiry j) := fun ok => ok

theorem Sys2Proof.Laws.Legal.swapOutSave (j : Nat) :
    Sys2Proof.Laws.Legal.Statement (.swapOutSave j) := fun ok => ok

theorem Sys2Proof.Laws.Legal.teamRestore (part : Nat) (seq : Word) (team : Nat) (cores : List Nat) :
    Sys2Proof.Laws.Legal.Statement (.teamRestore part seq team cores) := fun ok => ok

theorem Sys2Proof.Laws.Legal.urgentPlace (part : Nat) (seq : Word) (cores : List Nat) (jstart : Nat) :
    Sys2Proof.Laws.Legal.Statement (.urgentPlace part seq cores jstart) := fun ok => ok

theorem Sys2Proof.Laws.Legal.victimResume (core : Nat) :
    Sys2Proof.Laws.Legal.Statement (.victimResume core) := fun ok => ok

theorem Sys2Proof.Laws.Legal.bankPreload (part : Nat) (seq : Word) (core lin : Nat) :
    Sys2Proof.Laws.Legal.Statement (.bankPreload part seq core lin) := fun ok => ok

theorem Sys2Proof.Laws.Legal.l1FusionChange (stop : Nat) (fuse : Bool) :
    Sys2Proof.Laws.Legal.Statement (.l1FusionChange stop fuse) := fun ok => ok

theorem Sys2Proof.Laws.Legal.proofIterationStart (j slot : Nat) :
    Sys2Proof.Laws.Legal.Statement (.proofIterationStart j slot) := fun ok => ok

theorem Sys2Proof.Laws.Legal.proofCommit (j : Nat) :
    Sys2Proof.Laws.Legal.Statement (.proofCommit j) := fun ok => ok

theorem Sys2Proof.Laws.Legal.proofLoopEnd (j : Nat) :
    Sys2Proof.Laws.Legal.Statement (.proofLoopEnd j) := fun ok => ok

theorem Sys2Proof.Laws.Legal.hostMemRead (port : Bool) (addr : Nat) (bytes : Nat) :
    Sys2Proof.Laws.Legal.Statement (.hostMemRead port addr bytes) := fun ok => ok

theorem Sys2Proof.Laws.Legal.hostMemWrite (port : Bool) (addr : Nat) (data : List Byte) :
    Sys2Proof.Laws.Legal.Statement (.hostMemWrite port addr data) := fun ok => ok

theorem Sys2Proof.Laws.Legal.backInvalidateSnoop (port : Bool) (line : Nat) :
    Sys2Proof.Laws.Legal.Statement (.backInvalidateSnoop port line) := fun ok => ok

theorem Sys2Proof.Laws.Legal.peerRequest (port : Bool) (addr : Nat) (bytes : Nat) (data : Option (List Byte)) :
    Sys2Proof.Laws.Legal.Statement (.peerRequest port addr bytes data) := fun ok => ok

theorem Sys2Proof.Laws.Legal.semaphoreRead (who : Agent) (n : BitVec 4) :
    Sys2Proof.Laws.Legal.Statement (.semaphoreRead who n) := fun ok => ok

theorem Sys2Proof.Laws.Legal.semaphoreWrite (who : Agent) (n : BitVec 4) (value : Word) :
    Sys2Proof.Laws.Legal.Statement (.semaphoreWrite who n value) := fun ok => ok

theorem Sys2Proof.Laws.Legal.leaseExpiry (n : BitVec 4) :
    Sys2Proof.Laws.Legal.Statement (.leaseExpiry n) := fun ok => ok

theorem Sys2Proof.Laws.Legal.partcfgWrite (who : Agent) (part : Nat) (value : Word) :
    Sys2Proof.Laws.Legal.Statement (.partcfgWrite who part value) := fun ok => ok

theorem Sys2Proof.Laws.Legal.inletReset (who : Agent) (part : Nat) (mask : BitVec 4) :
    Sys2Proof.Laws.Legal.Statement (.inletReset who part mask) := fun ok => ok

theorem Sys2Proof.Laws.Legal.pqcfgClear (who : Agent) (part : Nat) (queue : BitVec 4) (value : Word) :
    Sys2Proof.Laws.Legal.Statement (.pqcfgClear who part queue value) := fun ok => ok

theorem Sys2Proof.Laws.Legal.registerWrite (who : Agent) (offset : Nat) (value : Word) :
    Sys2Proof.Laws.Legal.Statement (.registerWrite who offset value) := fun ok => ok

theorem Sys2Proof.Laws.Legal.partitionReset (who : Agent) (part : Nat) :
    Sys2Proof.Laws.Legal.Statement (.partitionReset who part) := fun ok => ok

theorem Sys2Proof.Laws.Legal.partitionResetDone (part : Nat) :
    Sys2Proof.Laws.Legal.Statement (.partitionResetDone part) := fun ok => ok

theorem Sys2Proof.Laws.Legal.fwUpdateImage (who : Agent) (stop : Nat) :
    Sys2Proof.Laws.Legal.Statement (.fwUpdateImage who stop) := fun ok => ok

theorem Sys2Proof.Laws.Legal.fwAttest (who : Agent) :
    Sys2Proof.Laws.Legal.Statement (.fwAttest who) := fun ok => ok

theorem Sys2Proof.Laws.Legal.fwChangeLayout (who : Agent) :
    Sys2Proof.Laws.Legal.Statement (.fwChangeLayout who) := fun ok => ok

theorem Sys2Proof.Laws.Legal.fwReadRecord (who : Agent) :
    Sys2Proof.Laws.Legal.Statement (.fwReadRecord who) := fun ok => ok

theorem Sys2Proof.Laws.Legal.fwExport (who : Agent) (stop : Nat) :
    Sys2Proof.Laws.Legal.Statement (.fwExport who stop) := fun ok => ok

theorem Sys2Proof.Laws.Legal.fwImport (who : Agent) (stop : Nat) (frames : List Nat) :
    Sys2Proof.Laws.Legal.Statement (.fwImport who stop frames) := fun ok => ok

theorem Sys2Proof.Laws.Legal.fwCommandComplete (ready : Bool) :
    Sys2Proof.Laws.Legal.Statement (.fwCommandComplete ready) := fun ok => ok

theorem Sys2Proof.Laws.Legal.patrolScrub (line : Nat) :
    Sys2Proof.Laws.Legal.Statement (.patrolScrub line) := fun ok => ok

theorem Sys2Proof.Laws.Legal.frameRetire (frame : Nat) :
    Sys2Proof.Laws.Legal.Statement (.frameRetire frame) := fun ok => ok

theorem Sys2Proof.Laws.Legal.spareCoreSubstitute (core : Nat) :
    Sys2Proof.Laws.Legal.Statement (.spareCoreSubstitute core) := fun ok => ok

theorem Sys2Proof.Laws.Legal.flitCrcRetry (link : Nat) :
    Sys2Proof.Laws.Legal.Statement (.flitCrcRetry link) := fun ok => ok

theorem Sys2Proof.Laws.Legal.ringLinkRetrain (link : Nat) (ok : Bool) :
    Sys2Proof.Laws.Legal.Statement (.ringLinkRetrain link ok) := fun ok => ok

theorem Sys2Proof.Laws.Legal.thermalWarningEnter :
    Sys2Proof.Laws.Legal.Statement (.thermalWarningEnter) := fun ok => ok

theorem Sys2Proof.Laws.Legal.thermalWarningExit :
    Sys2Proof.Laws.Legal.Statement (.thermalWarningExit) := fun ok => ok

theorem Sys2Proof.Laws.Legal.thermalEmergencyEnter :
    Sys2Proof.Laws.Legal.Statement (.thermalEmergencyEnter) := fun ok => ok

theorem Sys2Proof.Laws.Legal.thermalEmergencyExit :
    Sys2Proof.Laws.Legal.Statement (.thermalEmergencyExit) := fun ok => ok

theorem Sys2Proof.Laws.Legal.thermalTrip :
    Sys2Proof.Laws.Legal.Statement (.thermalTrip) := fun ok => ok

theorem Sys2Proof.Laws.Legal.issueGateUpdate (gates : List (Nat × Nat)) :
    Sys2Proof.Laws.Legal.Statement (.issueGateUpdate gates) := fun ok => ok

theorem Sys2Proof.Laws.Legal.telemetryRefresh (part : Nat) (partPower temp modPower : Word) :
    Sys2Proof.Laws.Legal.Statement (.telemetryRefresh part partPower temp modPower) := fun ok => ok

theorem Sys2Proof.Laws.Legal.cxlLinkReset (port : Bool) :
    Sys2Proof.Laws.Legal.Statement (.cxlLinkReset port) := fun ok => ok

theorem Sys2Proof.Laws.Legal.tickAdvance :
    Sys2Proof.Laws.Legal.Statement (.tickAdvance) := fun ok => ok

theorem Sys2Proof.Laws.Legal.powerRemoved :
    Sys2Proof.Laws.Legal.Statement (.powerRemoved) := fun ok => ok

theorem Sys2Proof.Laws.Legal.cxlCompletion (port : Bool) (addr : Nat) (data : Option (List Byte)) :
    Sys2Proof.Laws.Legal.Statement (.cxlCompletion port addr data) := fun ok => ok

theorem Sys2Proof.Laws.Legal.hostCoherenceSnoop (port : Bool) (line : Nat) :
    Sys2Proof.Laws.Legal.Statement (.hostCoherenceSnoop port line) := fun ok => ok

theorem Sys2Proof.Laws.Legal.faultService (part : Nat) (resume : Bool) (frame : Nat) :
    Sys2Proof.Laws.Legal.Statement (.faultService part resume frame) := fun ok => ok

theorem Sys2Proof.Laws.Legal.contextCreate (part : Nat) (ctx : BitVec 16) (root : Nat) (key : BitVec 4) :
    Sys2Proof.Laws.Legal.Statement (.contextCreate part ctx root key) := fun ok => ok
end

