-- ==== Sys2Proof/Tests/Slice0.lean ====
section
/-! SUPPORT. Tests: ill-formed words, words written out from the spec's encodings, single steps, and for each statement a
state and operands that meet what it assumes. -/

namespace Sys2Proof.Tests

set_option Elab.async false

open Sys2Proof.Machine

/-! ### Small states -/

/-- A record of `n` bits from its words of eight bytes, the lowest first; what is not listed is zero. -/
def ofWords (n : Nat) (l : List Nat) : BitVec n := BitVec.ofNat n (leNat (l.flatMap (leBytes 8)))

/-- An unguarded header without WAIT and SIG. -/
def hdr : Hdr := ⟨.tokens 0, Sig.zero, ⟨false, 7⟩⟩

/-- The same for a word of V, alone in its bundle, on all lanes. -/
def vhdr : VHdr := ⟨.tokens 0, Sig.zero, 7, false⟩

/-- Registers: `k i` holds `16 i`, a handler is set. -/
def regs : StreamSt :=
  { StreamSt.reset with k := Vector.ofFn fun i : Fin 16 => BitVec.ofNat 64 (16 * i.val), pc := 0x100, thandler := 0x1000 }

/-- A running job whose streams all hold `regs`, with windows of its scratchpad and table store. -/
def job : Job :=
  { Job.reset with phase := .running, c := regs, l := regs, vs := regs, m := regs, s := regs, w0 := (0, 0x1000), tsw := (0, 0x10000) }

/-- A state in which a word of stream `x` of job `j`, number 0, is about to run in cycle 64. -/
def atWord (x : StreamId) (j : Job) : State :=
  { State.reset with powered := true, tick := 64, jobs := [j], cursor := some (Cursor.start 0 x none j 1) }

/-- The cursor of that word. -/
abbrev cur (x : StreamId) (j : Job) : Cursor := Cursor.start 0 x none j 1

/-- A word without WAIT enters wherever no word of its bundle has stalled or trapped. -/
theorem enters_of {s : State} {c : Cursor} {j : Job} (cur : s.cursor = some c) (job : s.jobs[c.job]? = some j)
    (going : c.stalled = false) (clean : c.trap = none) : Enters s (.tokens 0) Sig.zero c j s :=
  .free c j cur job going clean ⟨fun _ _ => ⟨.inl rfl, rfl⟩, fun _ _ => ⟨rfl, rfl⟩⟩ (.inr (.inl rfl))

/-- A word of `atWord` enters. -/
theorem enters (x : StreamId) (j : Job) : Enters (atWord x j) (.tokens 0) Sig.zero (cur x j) j (atWord x j) :=
  enters_of rfl rfl rfl rfl

/-- An unguarded scalar word that enters runs, where no command owes a register it uses. -/
theorem runs_of {s s1 : State} {c : Cursor} {j : Job} {uses : List Src} {d : Option Dest}
    (enters : Enters s (.tokens 0) Sig.zero c j s1) (free : destPending (j.regs c.stream c.slot) uses d = false) :
    Runs s hdr uses d c j s1 := ⟨enters, by simp [StreamSt.guardTrue, hdr, StreamSt.pred], free⟩

/-- It does so where nothing older is unretired. -/
theorem runs (x : StreamId) (j : Job) (uses : List Src) (d : Option Dest) (free : (j.stream x).retireQ = []) :
    Runs (atWord x j) hdr uses d (cur x j) j (atWord x j) := by
  refine runs_of (enters x j) ?_
  cases x <;> simp_all [destPending, Cursor.start, Job.regs, Job.stream]

/-- The job a step leaves as number 0, seen through `f`. -/
def after {α : Type} (r : Host.Outcome State Fault Refusal) (f : Job → α) : Option α :=
  match r with
  | .next t => (t.jobs[0]?).map f
  | _ => none

/-! ### Ill-formed words: one for each kind of check -/

theorem test_illformed_reply : (Instr.add ⟨.tokens 0, ⟨5, 0⟩, ⟨false, 7⟩⟩ (.k 1) (.k 2) (.k 3)).wellFormed = false := by decide
theorem test_illformed_reply_of_no_value : (Instr.nop ⟨.tokens 0, ⟨1, 0⟩, ⟨false, 7⟩⟩).wellFormed = false := by decide
theorem test_illformed_guard : (Instr.add ⟨.tokens 0, ⟨0, 0⟩, ⟨true, 7⟩⟩ (.k 1) (.k 2) (.k 3)).wellFormed = false := by decide
theorem test_illformed_join_guard : (Instr.join ⟨.tokens 0, ⟨0, 0⟩, ⟨false, 1⟩⟩).wellFormed = false := by decide
theorem test_illformed_join_sig : (Instr.join ⟨.tokens 0, ⟨0, 1⟩, ⟨false, 7⟩⟩).wellFormed = false := by decide
theorem test_illformed_mask_m7 : (Instr.vsnap ⟨.tokens 0, ⟨0, 0⟩, 0, false⟩ 1 2).wellFormed = false := by decide
theorem test_illformed_lds_sign : (Instr.lds hdr (.k 1) (.k 2) 3 true 0).wellFormed = false := by decide
theorem test_illformed_atom_sign : (Instr.atom hdr (.k 1) (.k 2) (.k 3) .add true .rlx .team true).wellFormed = false := by decide
theorem test_illformed_csr_number : (Instr.csrr hdr (.k 1) 0x008 7).wellFormed = false := by decide
theorem test_illformed_csr_stream : (Instr.csrr hdr (.k 1) 0x000 5).wellFormed = false := by decide
theorem test_illformed_csr_read_only : (Instr.csrw hdr (.k 1) 0x007 7 (.k 2)).wellFormed = false := by decide
theorem test_illformed_idq : (Instr.idq hdr (.k 1) 0x07).wellFormed = false := by decide
theorem test_illformed_bfx : (Instr.bfx hdr (.k 1) (.k 2) 32 32 false).wellFormed = false := by decide
theorem test_illformed_pstat : (Instr.pstat hdr (.k 1) 4).wellFormed = false := by decide
theorem test_illformed_apstat : (Instr.apstat hdr (.k 1) 0 3).wellFormed = false := by decide
theorem test_illformed_lstat : (Instr.lstat hdr 0x002).wellFormed = false := by decide
theorem test_illformed_cstat : (Instr.cstat hdr (.k 1) 4).wellFormed = false := by decide
theorem test_illformed_lmm_records : (Instr.lmm hdr 0 0 (.k 1) (.k 2) 0).wellFormed = false := by decide
theorem test_illformed_lwake : (Instr.lwake hdr 0).wellFormed = false := by decide
theorem test_illformed_float_type : (Instr.vadd vhdr 1 2 3 .s32).wellFormed = false := by decide
theorem test_illformed_int_type : (Instr.viadd vhdr 1 2 3 .f32).wellFormed = false := by decide
theorem test_illformed_transcendental_type : (Instr.vexp2 vhdr 1 2 .f16).wellFormed = false := by decide
theorem test_illformed_unordered_int : (Instr.vcmp vhdr 1 2 3 .s32 .un).wellFormed = false := by decide
theorem test_illformed_cvt_pair : (Instr.vcvt vhdr 1 2 .s8 .f8 0).wellFormed = false := by decide
theorem test_illformed_cvt_part : (Instr.vcvt vhdr 1 2 .bf16 .f32 2).wellFormed = false := by decide
theorem test_illformed_qblk_block : (Instr.vqblk vhdr 1 2 .s8 .f32 4).wellFormed = false := by decide
theorem test_illformed_shuffle_bytes : (Instr.vshuf vhdr 1 2 3 4 .n8).wellFormed = false := by decide
theorem test_illformed_gather_width : (Instr.vgats vhdr 1 (.k 2) 3 .n16).wellFormed = false := by decide
theorem test_illformed_shortlist_odd : (Instr.vshort vhdr 1 2 (.k 3) .f32).wellFormed = false := by decide

/-! ### Words of the spec's own examples -/

theorem test_word_add : decode .l 0x0A04_0471_8640_0000#64 =
    some (.add ⟨.tokens 10, ⟨0, 4⟩, ⟨false, 7⟩⟩ (.k 3) (.k 1) (.h 2)) := by decide
theorem test_word_movi : decode .v 0x0211_0170_8000_0005#64 =
    some (.movi ⟨.tokens 2, ⟨1, 1⟩, ⟨false, 7⟩⟩ (.k 1) 5) := by decide
theorem test_word_loop : decode .c 0x0000_1870_FFFF_FFFD#64 = some (.loop hdr 1 0x7FFF_FFFD) := by decide
theorem test_word_ld : decode .c 0x0000_5078_1B28_0040#64 =
    some (.ld hdr .push (.k 6) 3 false (.ordered .team 0x40)) := by decide
theorem test_word_cmpi : decode .s 0x0000_1170_8840_000A#64 = some (.cmpi hdr 1 (.k 2) 10 .lt) := by decide
theorem test_word_addi : decode .s 0x0000_0618_0800_0001#64 =
    some (.addi ⟨.tokens 0, ⟨0, 0⟩, ⟨false, 1⟩⟩ .push (.k 2) 1) := by decide
theorem test_word_sub : decode .s 0x0000_0598_0860_0000#64 =
    some (.sub ⟨.tokens 0, ⟨0, 0⟩, ⟨true, 1⟩⟩ .push (.k 2) (.k 3)) := by decide
theorem test_word_sel : decode .s 0x0000_1272_C601_0000#64 = some (.sel hdr (.k 5) 1 (.h 1) (.h 0)) := by decide
theorem test_word_vfma : decode .v 0x0100_8330_2081_84B0#64 =
    some (.vfma ⟨.tokens 1, ⟨0, 0⟩, 1, true⟩ 1 2 3 4 .f32) := by decide
theorem test_word_vadd : decode .v 0x0000_80F0_A043_00B0#64 =
    some (.vadd ⟨.tokens 0, ⟨0, 0⟩, 7, true⟩ 5 1 6 .f32) := by decide
theorem test_word_vcvt : decode .v 0x0000_98E0_C080_0B91#64 = some (.vcvt vhdr 6 2 .bf16 .f32 1) := by decide
theorem test_word_vqblk : decode .v 0x0000_99E1_40C0_0B00#64 = some (.vqblk vhdr 10 3 .s8 .f32 0) := by decide
theorem test_word_vmod : decode .v 0x0000_F010_3000_0000#64 = some (.vmod (.tokens 0) Sig.zero 0 0 .sat 0 none) := by decide
theorem test_word_viadd : decode .v 0x0000_A0E0_8102_8000#64 = some (.viadd vhdr 4 4 5 .s8) := by decide
theorem test_word_vst : decode .v 0x0000_C161_4080_1311#64 =
    some (.vst ⟨.tokens 0, ⟨0, 0⟩, 3, false⟩ 10 (.k 2) 19 .n8 true) := by decide
theorem test_word_vtab : decode .v 0x0000_D8E0_0A00_0300#64 = some (.vtab vhdr 40 0 (.k 3) false) := by decide
theorem test_word_lmm : decode .m 0x0000_8372_0290_0001#64 = some (.lmm hdr 1 0 (.k 5) (.k 4) 1) := by decide
theorem test_word_cpyc : decode .l 0x0000_8372_2190_0500#64 = some (.cpyc hdr (.k 5) 1 (.k 2) (.k 3) (.k 4)) := by decide
theorem test_word_atom : decode .c 0x0000_5278_0860_9400#64 =
    some (.atom hdr .push (.k 2) (.k 3) .add false .rel .team true) := by decide
theorem test_word_csrr : decode .c 0x0000_2074_0000_2012#64 = some (.csrr hdr (.k 8) 0x012 2) := by decide

/-! ### Words written out field by field from the tables of each map -/

-- the words of PLOOP k9, [k2] and of the VEXT with reply=L that the spec's examples give
theorem test_word_ploop : decode .c 0x0000_6074_8800_0000#64 = some (.ploop hdr (.k 9) (.k 2)) := by decide
theorem test_word_vext : decode .v 0x0020_CAE0_0442_0050#64 = some (.vext ⟨.tokens 0, ⟨2, 0⟩, 7, false⟩ 17 (.k 4) .n32) := by decide
-- S3 (R62) with R75 and the table of the C words: the slot of APND and the key destination of WQPOP stand in F
theorem test_word_apnd :
    decode .c (0x00#8 ++ 0x00#8 ++ 0x69#8 ++ 0b0111#4 ++ 3#5 ++ 1#5 ++ 2#5 ++ 2#5 ++ 0#16) = some (.apnd hdr (.k 3) 2 (.k 1) (.k 2)) := by
  decide
theorem test_word_wqpop :
    decode .c (0x00#8 ++ 0x00#8 ++ 0x59#8 ++ 0b0111#4 ++ 3#5 ++ 1#5 ++ 0#5 ++ 6#5 ++ 0#16) = some (.wqpop hdr (.k 3) (.k 6) (.k 1)) := by
  decide
-- R73 and R78: SH, KM, KS, KN, FN, D
theorem test_word_gath :
    decode .l (0x00#8 ++ 0x00#8 ++ 0x88#8 ++ 0b0111#4 ++ 2#3 ++ 1#5 ++ 6#5 ++ 4#5 ++ 0#5 ++ 0x1F#5 ++ 0#8) =
      some (.gath hdr .discard 2 (.k 1) (.k 6) (.k 4)) := by decide
-- QLVL of tokens held from stream 1: KIND in [19:18], X in [17:16] (R205, R209)
theorem test_word_qlvl :
    decode .s (0x00#8 ++ 0x00#8 ++ 0x1D#8 ++ 0b0111#4 ++ 3#5 ++ 0#5 ++ 0#5 ++ 0#1 ++ 2#2 ++ 1#2 ++ 0#16) =
      some (.qlvl hdr (.k 3) .tIn 1) := by decide
theorem test_word_bfx :
    decode .c (0x00#8 ++ 0x00#8 ++ 0x47#8 ++ 0b0111#4 ++ 3#5 ++ 2#5 ++ 0#5 ++ 0#5 ++ 8#6 ++ 7#6 ++ 1#1 ++ 0#3) =
      some (.bfx hdr (.k 3) (.k 2) 8 7 true) := by decide
theorem test_word_unassigned : decode .c (0x00#8 ++ 0x00#8 ++ 0x2F#8 ++ 0b0111#4 ++ 0#36) = none := by decide
theorem test_word_other_map : decode .l (0x00#8 ++ 0x00#8 ++ 0x47#8 ++ 0b0111#4 ++ 3#5 ++ 2#5 ++ 0#5 ++ 0#5 ++ 0#16) = none := by
  decide

/-! ### Single steps -/

theorem test_add_wraps :
    after (exec (.add hdr (.k 1) (.k 2) (.k 3))
      (atWord .c { job with c := { regs with k := (regs.k.set 2 0xFFFF_FFFF_FFFF_FFFF).set 3 2 } })) (fun j => j.c.k[1]) = some 1 := by
  decide
theorem test_pc_moves_on : after (exec (.nop hdr) (atWord .l job)) (fun j => j.l.pc) = some 0x108 := by decide
theorem test_push_moves_history :
    after (exec (.movi hdr .push 7) (atWord .s job)) (fun j => (j.s.h[0], j.s.h[1])) = some (7, 0) := by decide
theorem test_movk_third_half :
    after (exec (.movk hdr (.k 1) (.k 1) 2 0x5678) (atWord .c { job with c := { regs with k := regs.k.set 1 0x9ABC_DEF0 } }))
      (fun j => j.c.k[1]) = some 0x5678_9ABC_DEF0 := by decide
theorem test_shl_by_64 :
    after (exec (.shl hdr (.k 1) (.k 2) (.k 4)) (atWord .c job)) (fun j => j.c.k[1]) = some 0 := by decide
theorem test_div_by_zero :
    after (exec (.div hdr (.k 1) (.k 2) (.k 0) false) (atWord .c job)) (fun j => j.c.k[1]) = some 0xFFFF_FFFF_FFFF_FFFF := by decide
theorem test_rem_most_negative :
    after (exec (.rem hdr (.k 1) (.k 2) (.k 3) true)
      (atWord .c { job with c := { regs with k := (regs.k.set 2 0x8000_0000_0000_0000).set 3 0xFFFF_FFFF_FFFF_FFFF } }))
      (fun j => j.c.k[1]) = some 0 := by decide
theorem test_clz_zero : after (exec (.clz hdr (.k 1) (.k 0)) (atWord .c job)) (fun j => j.c.k[1]) = some 64 := by decide
theorem test_fshr_amount_128 :
    after (exec (.fshr hdr (.k 1) (.k 2) (.k 3) (.k 8)) (atWord .c job)) (fun j => j.c.k[1]) = some 0 := by decide
theorem test_cmpi_unsigned_immediate :
    after (exec (.cmpi hdr 1 (.k 2) 0x1F_FFFF .ltu) (atWord .c job)) (fun j => j.c.p.getLsbD 1) = some true := by decide
theorem test_p7_ignores_write :
    after (exec (.cmpi hdr 7 (.k 2) 0 .eq) (atWord .c job)) (fun j => j.c.p) = some 0 := by decide
theorem test_loop_counts_down :
    after (exec (.loop hdr 1 0x7FFF_FFFD) (atWord .c job)) (fun j => (j.c.k[1], j.c.pc)) = some (15, 0xE8) := by decide
theorem test_loop_ends :
    after (exec (.loop hdr 1 0x7FFF_FFFD) (atWord .c { job with c := { regs with k := regs.k.set 1 1 } }))
      (fun j => (j.c.k[1], j.c.pc)) = some (0, 0x108) := by decide
theorem test_ret_empty_traps :
    after (exec (.ret hdr) (atWord .c job)) (fun j => (j.c.tcause, j.c.tinfo, j.c.pc, j.c.tresume)) =
      some (0x12, 1, 0x1000, 0x100) := by decide
theorem test_lds_sign_extends :
    after (exec (.lds hdr (.k 1) (.k 2) 0 true 0) (atWord .c { job with sp := [(32, 0x80)] })) (fun j => j.c.k[1]) =
      some 0xFFFF_FFFF_FFFF_FF80 := by decide
theorem test_sts_little_endian :
    after (exec (.sts hdr (.k 1) (.k 2) 1 0) (atWord .c { job with c := { regs with k := regs.k.set 1 0x1234 } }))
      (fun j => j.sp) = some [(32, 0x34), (33, 0x12)] := by decide
theorem test_lds_bound :
    after (exec (.lds hdr (.k 1) (.k 2) 3 false 0x1000) (atWord .c job)) (fun j => (j.c.tcause, j.c.k[1])) = some (3, 16) := by decide
theorem test_stamp_set :
    after (exec (.stampSet hdr (.k 1) (.k 2)) (atWord .l job)) (fun j => (j.l.k[1], j.l.stamp)) = some (64, 32) := by decide
theorem test_trap_done :
    after (exec (.trap hdr 0xBEEF) (atWord .v job)) (fun j => (j.vs.tcause, j.vs.tinfo, j.c.pc)) =
      some (0x10, 0xBEEF_0000_0008, 0x1000) := by decide
theorem test_csrw_yields_old :
    after (exec (.csrw hdr (.k 1) 0x003 7 (.k 2)) (atWord .l job)) (fun j => (j.l.k[1], j.l.age)) = some (256, 32) := by decide

-- the example of R138: with clamp=sat, 100 + 50 and −100 + −50 in s8 lanes give 127 and −128; without it they wrap
theorem test_viadd_wraps :
    after (exec (.viadd vhdr 4 4 5 .s8) (atWord .v { job with v := (job.v.set 4 0x9C64).set 5 0xCE32 }))
      (fun j => (j.v[4]).extractLsb' 0 16) = some 0x6A96 := by decide +kernel


/-! ### What the statements assume can be met: the step, scalar words, memory -/

/-- Whether an access succeeds, with `p` of what it leaves. -/
def okWith {α : Type} (r : MRes α) (p : State → α → Bool) : Bool :=
  match r with
  | .ok s x => p s x
  | _ => false

theorem of_okWith {α : Type} {r : MRes α} {p : State → α → Bool} (h : okWith r p = true) : ∃ s x, r = .ok s x ∧ p s x = true := by
  cases r with
  | ok s x => exact ⟨s, x, rfl, h⟩
  | fault | susp | hold => simp [okWith] at h

/-- Job 0 with `words` in the ring of stream `x` at its PC, and that stream's turn next. -/
def offered (x : StreamId) (words : List Word) (job : Job := job) : State :=
  let t := { regs with ring := ((List.range words.length).map fun i => (0x100 + 8 * BitVec.ofNat 64 i : Word)).zip words }
  { atWord x (job.setStream x t) with cursor := none, agenda := [.issue 0 x none] }

theorem witness_StepRunsDecodedInstruction :
    let s := offered .l [0x0000_0678_0800_0001]
    ∃ j i, s.agenda = .issue 0 .l none :: [] ∧ s.jobs[0]? = some j ∧ mayIssue { s with agenda := [] } j .l none = true ∧
      (j.stream .l).skip = false ∧ (j.stream .l).held (j.stream .l).pc = some 0x0000_0678_0800_0001 ∧
      ({ s with agenda := [] } : State).interlocked j .l [0x0000_0678_0800_0001] = false ∧
      decode .l 0x0000_0678_0800_0001 = some i :=
  ⟨_, .addi hdr .push (.k 2) 1, rfl, rfl, by decide +kernel, by decide, by decide, by decide +kernel, by decide⟩

theorem witness_StepRunsDecodedInstruction_v :
    let s := offered .v [0x0000_80E0_A043_00B0]
    ∃ j i, s.jobs[0]? = some j ∧ mayIssue { s with agenda := [] } j .v none = true ∧
      (j.stream .v).held (j.stream .v).pc = some 0x0000_80E0_A043_00B0 ∧ moreBit 0x0000_80E0_A043_00B0 = false ∧
      bundleIllegal .v [0x0000_80E0_A043_00B0] = none ∧
      ({ s with agenda := [] } : State).interlocked j .v [0x0000_80E0_A043_00B0] = false ∧
      decode .v 0x0000_80E0_A043_00B0 = some i :=
  ⟨_, .vadd vhdr 5 1 6 .f32, rfl, by decide +kernel, by decide, by decide, by decide, by decide +kernel, by decide⟩

/-- A job whose arithmetic slots take no word before cycle 100. -/
def slotsBusy : Job := { job with board := { job.board with slots := Vector.replicate 3 100 } }

theorem witness_StepRunsBundlesAndTurns :
    let ws : List Word := [0x0000_F010_3000_0000, 0x0000_A0E0_8102_8000]
    let s := offered .v ws
    (∃ j, s.agenda = .issue 0 .v none :: [] ∧ s.jobs[0]? = some j ∧ mayIssue { s with agenda := [] } j .v none = true ∧
      j.vs.skip = false ∧ bundleAt j.vs .v 4 j.vs.pc = .inl ws ∧ bundleIllegal .v ws = none ∧
      ({ s with agenda := [] } : State).interlocked j .v ws = false) ∧
    (let b := offered .v ws slotsBusy
     ∃ j, b.jobs[0]? = some j ∧ mayIssue { b with agenda := [] } j .v none = true ∧ j.vs.skip = false ∧
       bundleAt j.vs .v 4 j.vs.pc = .inl ws ∧ ({ b with agenda := [] } : State).interlocked j .v ws = true ∧ j.timed = false) ∧
    encode (.jobStart 0) = none ∧ (atWord .c job).agenda = [.event (.powerOn 0 []), .boot, .boot, .boot] ∧
    ({ State.reset with agenda := [] }).agenda = [] :=
  ⟨⟨_, rfl, rfl, by decide +kernel, by decide, rfl, by decide, by decide +kernel⟩,
    ⟨_, rfl, by decide +kernel, by decide, rfl, by decide +kernel, rfl⟩, rfl, rfl, rfl⟩

-- a bundle that the interlock holds at its target; one whose second word no map has; a missed cycle; two turns
theorem witness_StepRunsBundlesAndTurns_late :
    let w : Word := 0x8500_A0E0_8102_8000
    let missed := { slotsBusy with timed := true }
    let b := { offered .v [w] missed with agenda := [] }
    let bad : List Word := [0x0000_80F0_A043_00B0, 0x0000_2F70_0000_0000]
    (∃ j, b.jobs[0]? = some j ∧ mayIssue b j .v none = true ∧ j.vs.inside = false ∧ bundleAt j.vs .v 4 j.vs.pc = .inl [w] ∧
      bundleIllegal .v [w] = none ∧ b.interlocked j .v [w] = true ∧ j.timed = true ∧ j.targetCome b.tick .v w = true) ∧
    (∃ j, (offered .v bad).jobs[0]? = some j ∧ bundleAt j.vs .v 4 j.vs.pc = .inl bad ∧ bundleIllegal .v bad = some (0 + 1)) ∧
    (∃ t, exec (.timedTargetMiss 0 .l) { b with agenda := [] } = .next t) ∧
    (∃ t, step { b with agenda := [.both (.event (.jobStart 0)) .boot] } = .next t) :=
  ⟨⟨_, rfl, by decide +kernel, rfl, rfl, by decide, by decide +kernel, rfl, by decide⟩, ⟨_, rfl, rfl, by decide⟩, ⟨_, rfl⟩, ⟨_, rfl⟩⟩

/-- A job whose C is to store 8 bytes at offset 36 while its L is to load the same ones. -/
def racing : State :=
  let at' (i : Instr) : StreamSt :=
    { regs with ring := [(0x100, (encode i).getD 0)], k := regs.k.set 15 0x1111_1111_2222_2222 }
  let j := { job with c := at' (.sts hdr (.k 15) (.k 2) 3 4), l := at' (.lds hdr (.k 9) (.k 2) 3 false 4) }
  { atWord .c j with cursor := none, agenda := [] }
@[inherit_doc racing]
def store : Turn := .issue 0 .c none
@[inherit_doc racing]
def load : Turn := .issue 0 .l none

/-- What L has loaded, and what then stands in the scratchpad, once a turn has been made. -/
def raced (u : Turn) : Option (Word × Nat) :=
  match step { racing with agenda := [u] } with
  | .next t => (t.jobs[0]?).map fun j => (j.l.k.get 9, leNat (cellGetN j.sp 36 8))
  | _ => none

-- R112: of the two parts of an access that is not aligned a racing load returns each as old or new, and the store is whole in the end
theorem test_store_in_parts : raced (.amid store [32] load) = some (0x2222_2222, 0x1111_1111_2222_2222) := by decide +kernel

theorem test_load_in_parts : raced (.amid load [32] store) = some (0x1111_1111_0000_0000, 0x1111_1111_2222_2222) := by decide +kernel

theorem witness_StepRunsBundlesAndTurns_parts :
    racing.writesByUnit store = true ∧ racing.readsByUnit store = false ∧ racing.readsByUnit load = true ∧
    racing.writesByUnit .boot = false ∧ racing.readsByUnit .boot = false ∧
    (match step { racing with agenda := [store] } with
     | .next r =>
       let mid := State.mixAll [32] racing r
       store.made racing r && match step { mid with agenda := [load] } with
       | .next m => store.stands racing m && linesKept [32] mid m && decide (m.agenda = []) &&
          (match step { m with agenda := [store] } with | .next t => store.made m t && linesKept [32] m t | _ => false)
       | _ => false
     | _ => false) = true ∧
    (match step { racing with agenda := [load] }, step { racing with agenda := [store] } with
     | .next r, .next m => load.made racing r && load.stands racing m && decide (m.agenda = []) &&
        (match step { State.mixOwn [32] m racing with agenda := [load] } with | .next t => load.made m t | _ => false)
     | _, _ => false) = true ∧
    (match step { racing with agenda := [.boot] } with | .next r => !Turn.boot.made racing r | _ => false) = true := by decide +kernel

theorem witness_StepIllegalWordTraps :
    let s := offered .c [0x0000_2F70_0000_0000]
    ∃ j, s.agenda = .issue 0 .c none :: [] ∧ s.jobs[0]? = some j ∧ mayIssue { s with agenda := [] } j .c none = true ∧
      (j.stream .c).skip = false ∧ (j.stream .c).held (j.stream .c).pc = some 0x0000_2F70_0000_0000 ∧
      decode .c 0x0000_2F70_0000_0000 = none ∧ (j.stream .c).thandler ≠ 0 ∧ j.handler = none :=
  ⟨_, rfl, rfl, by decide +kernel, by decide, by decide, by decide, by decide, rfl⟩

theorem witness_StepKeepsMemoryCanonical : State.reset.Inv ∧ ∃ t, step State.reset = .next t := ⟨rfl, _, rfl⟩

theorem witness_DecodeOfEncode : (Instr.add hdr (.k 1) (.k 2) (.k 3)).stream .c = true ∧
    (Instr.add hdr (.k 1) (.k 2) (.k 3)).legalIn false = true ∧ encode (.add hdr (.k 1) (.k 2) (.k 3)) = some 0x0000_0470_8860_0000 := by
  decide

theorem witness_EncodeOfDecode : decode .c 0x0000_0470_8860_0000 = some (.add hdr (.k 1) (.k 2) (.k 3)) := by decide

/-- Scalar words of no, one, two and three sources run. -/
theorem witness_ArithmeticAndLogicResults :
    Runs (atWord .l job) hdr [] none (cur .l job) job (atWord .l job) ∧
    Runs (atWord .l job) hdr [] (some .push) (cur .l job) job (atWord .l job) ∧
    Runs (atWord .l job) hdr [.k 2] (some (.k 1)) (cur .l job) job (atWord .l job) ∧
    Runs (atWord .l job) hdr [.k 2, .h 0] (some .push) (cur .l job) job (atWord .l job) :=
  ⟨runs _ _ _ _ rfl, runs _ _ _ _ rfl, runs _ _ _ _ rfl, runs _ _ _ _ rfl⟩

/-- A header whose guard, p0, is false. -/
def guarded : Hdr := ⟨.tokens 0, Sig.zero, ⟨false, 0⟩⟩

theorem witness_ShiftResults :
    Runs (atWord .c job) hdr [.k 1, .k 2] (some (.k 3)) (cur .c job) job (atWord .c job) ∧
    Runs (atWord .c job) hdr [.k 1, .k 2, .k 4] (some (.k 3)) (cur .c job) job (atWord .c job) ∧
    Enters (atWord .c job) guarded.wait guarded.sig (cur .c job) job (atWord .c job) ∧
    (cur .c job).regs.guardTrue guarded.guard = false ∧
    destPending (job.regs .c none) [.k 1, .k 2, .k 4] (some .push) = false ∧
    encode (.fshl hdr (.k 3) (.k 1) (.k 2) (.k 4)) = some 0x0000_4971_8444_0000 :=
  ⟨runs _ _ _ _ rfl, runs _ _ _ _ rfl, enters _ _, by decide, by decide, by decide⟩

theorem witness_MinMaxSelectResults : Runs (atWord .s job) hdr [.k 1, .k 2] (some .discard) (cur .s job) job (atWord .s job) :=
  runs _ _ _ _ rfl

theorem witness_ProductsQuotientsAndFields :
    Runs (atWord .c job) hdr [.k 1, .k 2] (some (.k 3)) (cur .c job) job (atWord .c job) ∧
    Runs (atWord .c job) hdr [.k 1] (some (.k 3)) (cur .c job) job (atWord .c job) ∧
    (63#6).toNat + ((0#6).toNat + 1) ≤ 64 ∧ 64 < (63#6).toNat + ((1#6).toNat + 1) ∧
    (encode (.bfx hdr (.k 1) (.k 2) 63 1 false)).isSome = true ∧ (encode (.clz hdr (.k 1) (.k 2))).isSome = true ∧
    (encode (.ctz hdr (.k 1) (.k 2))).isSome = true ∧ (encode (.popc hdr (.k 1) (.k 2))).isSome = true :=
  ⟨runs _ _ _ _ rfl, runs _ _ _ _ rfl, by decide, by decide, by decide, by decide, by decide, by decide⟩

theorem witness_PredicateWords :
    Runs (atWord .v job) hdr [.k 1, .k 2] none (cur .v job) job (atWord .v job) ∧
    Runs (atWord .v job) hdr [.k 1] none (cur .v job) job (atWord .v job) ∧
    Runs (atWord .v job) hdr [] none (cur .v job) job (atWord .v job) :=
  ⟨runs _ _ _ _ rfl, runs _ _ _ _ rfl, runs _ _ _ _ rfl⟩

/-- A job whose C has two entries in its return stack; and one with the most it may have. -/
def called : Job := { job with c := { regs with rstack := [0x200, 0x300] } }
@[inherit_doc called]
def calledFull : Job := { job with c := { regs with rstack := List.replicate 32 0x200 } }

theorem witness_BranchWords :
    Runs (atWord .c called) hdr [] none (cur .c called) called (atWord .c called) ∧
    Runs (atWord .c called) hdr [.k 1] none (cur .c called) called (atWord .c called) ∧
    Runs (atWord .c called) hdr [.h 0] none (cur .c called) called (atWord .c called) ∧
    ((cur .c called).regs.src (.k 1)).toNat % 8 = 0 ∧ (cur .c called).regs.rstack = 0x200 :: [0x300] ∧
    (cur .c called).regs.rstack.length < 32 :=
  ⟨runs _ _ _ _ rfl, runs _ _ _ _ rfl, runs _ _ _ _ rfl, by decide, rfl, by decide⟩

/-- A job whose k1 is no multiple of 8. -/
def odd : Job := { called with c := { called.c with k := regs.k.set 1 0x101 } }

/-- A trap of a word of these jobs can be handled. -/
theorem handlerReady (x : StreamId) (j : Job) (idle : j.handler = none) (set : (j.stream x).thandler ≠ 0) :
    HandlerReady (cur x j) := ⟨rfl, idle, set⟩

theorem witness_BranchWords_traps :
    HandlerReady (cur .c odd) ∧ Runs (atWord .c odd) hdr [.k 1] none (cur .c odd) odd (atWord .c odd) ∧
    ((cur .c odd).regs.src (.k 1)).toNat % 8 ≠ 0 ∧ (cur .c odd).regs.rstack ≠ [] ∧
    HandlerReady (cur .c calledFull) ∧ Runs (atWord .c calledFull) hdr [] none (cur .c calledFull) calledFull (atWord .c calledFull) ∧
    32 ≤ (cur .c calledFull).regs.rstack.length ∧
    HandlerReady (cur .c job) ∧ Runs (atWord .c job) hdr [] none (cur .c job) job (atWord .c job) ∧
    Runs (atWord .c job) hdr [.k 1] none (cur .c job) job (atWord .c job) ∧ (cur .c job).regs.rstack = [] :=
  ⟨handlerReady _ _ rfl (by decide), runs _ _ _ _ rfl, by decide, by decide, handlerReady _ _ rfl (by decide),
    runs _ _ _ _ rfl, by decide, handlerReady _ _ rfl (by decide), runs _ _ _ _ rfl, runs _ _ _ _ rfl, rfl⟩

theorem witness_FalseGuardDoesNothing :
    Enters (atWord .c job) guarded.wait guarded.sig (cur .c job) job (atWord .c job) ∧
    (cur .c job).regs.guardTrue guarded.guard = false ∧
    (∀ uses ∈ [[], [Src.k 1], [.k 1, .k 2], [.k 1, .k 2, .h 3]], ∀ d ∈ [none, some (Dest.k 1), some .push],
      destPending (job.regs .c none) uses d = false) := ⟨enters _ _, by decide, by decide⟩

theorem witness_ScratchpadLoadAndStore :
    Runs (atWord .c job) hdr [.k 2] (some (.k 1)) (cur .c job) job (atWord .c job) ∧
    Runs (atWord .c job) hdr [.k 1, .k 2] none (cur .c job) job (atWord .c job) ∧
    job.spanOk ((cur .c job).regs.src (.k 2) + (0xFD8#21).signExtend 64).toNat 8 = true ∧
    unitsTouch job.spBad ((cur .c job).regs.src (.k 2) + (0xFD8#21).signExtend 64).toNat 8 = false :=
  ⟨runs _ _ _ _ rfl, runs _ _ _ _ rfl, by decide, by decide⟩

theorem witness_StoredBytesReadBack : Memory.wf [(3, 1), (5, 2)] ∧
    (∀ x, cellGet [(3, 1)] x = cellGet [(3, (1 : Byte))] x) := ⟨by decide, fun _ => rfl⟩

/-! Device memory: partition 0 is stop 0; context 5, of KEY 3 and root frame 0x10, maps its first 64 MiB, as in the example of
R377, to 0x8_0000_0000. -/

/-- The tables and the context's descriptor. -/
def tables : List Host.Cell :=
  cellPutN (cellPutN (cellPutN (cellPutN [] 0x10_0000 (leBytes 8 0x20_0001)) 0x20_0000 (leBytes 8 0x30_0001)) 0x30_0000
    (leBytes 8 0x0000_0008_0000_3253)) 0x40_0050 (leBytes 16 0x10_3001)

/-- The partition, with an Inlet of 16 slots and a Pond queue enabled. -/
def part : Part :=
  { Part.create [0] false with
    resetting := false, epoch := 1, pondways := 4, ctxbase := 0x40_0000, contexts := [5], inlets := Vector.replicate 4 0x50_0000
    pqcfg := (Vector.replicate 16 0).set 1 0x83 }

/-- Job 0 in that context; its `k14` and `k15` hold addresses of path 0x0, and of path 0x2. -/
def memJob : Job :=
  { job with
    mem := { job.mem with ctx := 5, seq := 0x0001_0000_0000_0001 }
    c := { regs with k := (regs.k.set 14 0x1000).set 15 0x0200_0000_0000_1000 } }

/-- A word of C of that job about to run. -/
def memState (j : Job) : State :=
  { atWord .c j with parts := [part], mem := cellPutN tables 0x50_0010 (leBytes 4 16), flash := State.reset.flash }

theorem mem_runs (j : Job) (uses : List Src) (d : Option Dest) (free : j.c.retireQ = []) :
    Runs (memState j) hdr uses d (cur .c j) j (memState j) :=
  runs_of (enters_of rfl rfl rfl rfl) (by simp_all [destPending, Cursor.start, Job.regs, Job.stream])

/-- Who accesses memory there. -/
abbrev memWho (j : Job) : Who := whoOf 0 j .c none (cur .c j).pc

theorem witness_LoadStoreTraps :
    HandlerReady (cur .c job) ∧ job.spanOk ((cur .c job).regs.src (.k 2) + (0x1000#21).signExtend 64).toNat (2 ^ (3#2).toNat) = false ∧
    Runs (atWord .c job) hdr [.k 2] (some (.k 1)) (cur .c job) job (atWord .c job) ∧
    Runs (atWord .c job) hdr [.k 1, .k 2] none (cur .c job) job (atWord .c job) ∧
    HandlerReady (cur .c odd) ∧ Runs (atWord .c odd) hdr [.k 1] (some (.k 2)) (cur .c odd) odd (atWord .c odd) ∧
    Runs (atWord .c odd) hdr [.k 2, .k 1] none (cur .c odd) odd (atWord .c odd) ∧
    ((cur .c odd).regs.src (.k 1) + (0#18).signExtend 64).toNat % 2 ^ (3#2).toNat ≠ 0 :=
  ⟨handlerReady _ _ rfl (by decide), by decide, runs _ _ _ _ rfl, runs _ _ _ _ rfl, handlerReady _ _ rfl (by decide),
    runs _ _ _ _ rfl, runs _ _ _ _ rfl, by decide⟩

/-- A job with an uncorrectable unit at the offset k2 holds. -/
def unsound : Job := { job with spBad := [4] }

theorem witness_LoadStoreTraps_unsound :
    HandlerReady (cur .c unsound) ∧ unsound.spanOk ((cur .c unsound).regs.src (.k 2) + (0#21).signExtend 64).toNat (2 ^ (3#2).toNat) = true ∧
    unitsTouch unsound.spBad ((cur .c unsound).regs.src (.k 2) + (0#21).signExtend 64).toNat (2 ^ (3#2).toNat) = true ∧
    Runs (atWord .c unsound) hdr [.k 2] (some (.k 1)) (cur .c unsound) unsound (atWord .c unsound) :=
  ⟨handlerReady _ _ rfl (by decide), by decide, by decide, runs _ _ _ _ rfl⟩

/-- A job whose `k13` holds an address of path 0x1. -/
def streaming : Job := { memJob with c := { memJob.c with k := memJob.c.k.set 13 0x0100_0000_0000_1000 } }

theorem witness_LoadStoreTraps_stream :
    let va := (cur .c streaming).regs.src (.k 13) + (0#21).signExtend 64
    HandlerReady (cur .c streaming) ∧ va.toNat / 2 ^ 56 = 1 ∧ va.toNat % 2 ^ (3#2).toNat = 0 ∧
    (∃ t l, (memState streaming).partsOf (memWho streaming) va (2 ^ (3#2).toNat) .read = .ok t l ∧ true = true) ∧
    Runs (memState streaming) hdr [.k 3, .k 13] none (cur .c streaming) streaming (memState streaming) :=
  ⟨handlerReady _ _ rfl (by decide), by decide, by decide, of_okWith (p := fun _ _ => true) (by decide +kernel), mem_runs _ _ _ rfl⟩

/-- A job whose k1 names path 0x7, k2 path 0x1, k3 path 0x6 where nothing answers, and k4 its capability block. -/
def badPath : Job :=
  { job with c := { regs with
      k := (((regs.k.set 1 0x0700_0000_0000_0000).set 2 0x0100_0000_0000_0000).set 3 0x0600_0000_00F0_0000).set 4 0x0600_0000_0000_0008 } }

theorem witness_LoadStoreTraps_control :
    let at' (k : Src) : Nat := ((cur .c badPath).regs.src k + (0#21).signExtend 64).toNat
    (∀ k ∈ [Src.k 3, .k 4], at' k / 2 ^ 56 = 6 ∧ 2 ^ (3#2).toNat = 8 ∧ at' k % 8 = 0 ∧ 6 * 2 ^ 56 ≤ at' k ∧
      Runs (atWord .c badPath) hdr [k] (some (.k 5)) (cur .c badPath) badPath (atWord .c badPath) ∧
      Runs (atWord .c badPath) hdr [.k 5, k] none (cur .c badPath) badPath (atWord .c badPath)) ∧
    (atWord .c badPath).controlRead badPath none (at' (.k 3) % 2 ^ 56) = none ∧
    ((atWord .c badPath).controlRead badPath none (at' (.k 4) % 2 ^ 56)).isSome = true ∧ 2 ^ (2#2).toNat ≠ 8 :=
  ⟨fun k h => by
    simp only [List.mem_cons, List.not_mem_nil, or_false] at h
    rcases h with rfl | rfl <;> exact ⟨by decide, by decide, by decide, by decide, runs _ _ _ _ rfl, runs _ _ _ _ rfl⟩,
    by decide, by decide, by decide⟩

theorem witness_LoadStoreTraps_paths :
    HandlerReady (cur .c badPath) ∧ 7 * 2 ^ 56 ≤ ((cur .c badPath).regs.src (.k 1) + (0#21).signExtend 64).toNat ∧
    (((cur .c badPath).regs.src (.k 1) + (0#21).signExtend 64).toNat < 2 ^ 60) ∧
    ((cur .c badPath).regs.src (.k 2) + (0#21).signExtend 64).toNat / 2 ^ 56 = 1 ∧
    Runs (atWord .c badPath) hdr [.k 1] (some (.k 3)) (cur .c badPath) badPath (atWord .c badPath) ∧
    Runs (atWord .c badPath) hdr [.k 3, .k 1] none (cur .c badPath) badPath (atWord .c badPath) ∧
    Runs (atWord .c badPath) hdr [.k 3, .k 2] none (cur .c badPath) badPath (atWord .c badPath) :=
  ⟨handlerReady _ _ rfl (by decide), by decide, by decide, by decide, runs _ _ _ _ rfl, runs _ _ _ _ rfl,
    runs _ _ _ _ rfl⟩

theorem witness_LoadYieldsBytesRead :
    Runs (memState memJob) hdr [.k 14] (some (.k 1)) (cur .c memJob) memJob (memState memJob) ∧
    ((cur .c memJob).regs.src (.k 14) + (0#18).signExtend 64).toNat % 2 ^ (3#2).toNat = 0 ∧
    ((cur .c memJob).regs.src (.k 14) + (0#18).signExtend 64).toNat < 6 * 2 ^ 56 ∧ (memState memJob).l1Held memJob.core = false ∧
    ∃ (s2 : State) (b : List Byte), (memState memJob).readVia (memWho memJob) ((cur .c memJob).regs.src (.k 14) + (0#18).signExtend 64) 8 true = .ok s2 b ∧
      (b.length == 8) = true :=
  ⟨mem_runs _ _ _ rfl, by decide, by decide, by decide +kernel, of_okWith (p := fun _ (b : List Byte) => b.length == 8) (by decide +kernel)⟩

theorem witness_StoresGoWhereTheirPathSays :
    Runs (memState memJob) hdr [.k 1, .k 15] none (cur .c memJob) memJob (memState memJob) ∧
    ((cur .c memJob).regs.src (.k 15) + (0#21).signExtend 64).toNat / 2 ^ 56 = 2 ∧
    ((cur .c memJob).regs.src (.k 15) + (0#21).signExtend 64).toNat % 64 + 2 ^ (3#2).toNat ≤ 64 ∧ (memJob.stream .c).out = none :=
  ⟨mem_runs _ _ _ rfl, by decide, by decide, rfl⟩

theorem witness_StoresGoWhereTheirPathSays_home :
    okWith ((memState memJob).translate (memWho memJob) 0x0200_0000_0000_1000 .write) (fun s2 p => !pteHost p.leaf && !s2.noHome p.pa &&
      !s2.flash.retired.contains (p.pa / 2 ^ 16) && (s2.l1Find 0 p.pa).isNone && !s2.hostHolds p.pa 8) = true := by decide +kernel

/-- The line at 0x1000 of that context as core 0's L1 holds it. -/
def cached (uo : Bool) : L1Line := { line := 0x8_0000_1000 / 64, data := 0, dirty := 0, uo := uo, part := 0, seq := memJob.mem.seq }

-- a release across two lines on path 0x0; the job's own scratchpad; a line in the L1
theorem witness_StoresGoWhereTheirPathSays_paths :
    let s := memState memJob
    let mine := { job with c := { regs with k := regs.k.set 5 0x0300_0000_0000_0010 } }
    let at' := ((cur .c mine).regs.src (.k 5) + (0#21).signExtend 64).toNat
    s.l1Held memJob.core = false ∧
    okWith ((s.l1Release 0).writeVia (memWho memJob) 0x103C (leBytes 8 0) true) (fun s2 _ => (s2.jobs[0]?).isSome) = true ∧
    (at' / 2 ^ 56 = 3 ∧ at' % 2 ^ 56 < 2 ^ 22 ∧ mine.spanOk (at' % 2 ^ 56) 8 = true) ∧
    (let held := s.modCore 0 fun k => { k with l1 := [cached false] }
     okWith (held.translate (memWho memJob) 0x1000 .write) (fun s2 p =>
       (s2.l1Find 0 p.pa).any (fun l => !l.uo) && cacheable p.leaf && !pteHost p.leaf && !s2.noHome p.pa && !s2.hostHolds p.pa 8) = true) := by
  decide +kernel

-- the example of R377: the store sets D of the leaf, whose entry becomes 0x…3653
theorem test_store_sets_dirty :
    okWith ((memState memJob).translate (memWho memJob) 0x1000 .write)
      (fun s p => decide (p.pa = 0x8_0000_1000) && decide (leNat (s.readPhys 0x30_0000 8) = 0x0000_0008_0000_3653)) = true := by
  decide +kernel

theorem witness_AtomicsYieldOldValue :
    ((cur .c memJob).regs.src (.k 14)).toNat / 2 ^ 56 ∈ [0, 2, 3, 4, 5] ∧ ((cur .c memJob).regs.src (.k 14)).toNat % 8 = 0 ∧
    Runs (memState memJob) hdr [.k 14, .k 1] (some (.k 2)) (cur .c memJob) memJob (memState memJob) ∧
    Runs (memState memJob) hdr [.k 14, .k 1, .k 3] (some (.k 2)) (cur .c memJob) memJob (memState memJob) ∧
    memJob.det = false ∧ ((cur .c memJob).regs.src (.k 14)).toNat % ((atomFmt .f32).width / 8) = 0 ∧
    (memState memJob).l1Held memJob.core = false ∧
    ∀ f : Nat → Option Nat × BitVec 5, ∀ n, (n, f) ∈ [(8, fun o => ((some (o + 1) : Option Nat), (0 : BitVec 5))), (4, fun _ => (none, 0))] →
      ∃ s2 x, (memState memJob).rmw (memWho memJob) ((cur .c memJob).regs.src (.k 14)) n f = .ok s2 x ∧ true = true := by
  refine ⟨by decide, by decide, mem_runs _ _ _ rfl, mem_runs _ _ _ rfl, rfl, by decide, by decide +kernel, fun f n h => ?_⟩
  simp only [List.mem_cons, List.not_mem_nil, or_false, Prod.mk.injEq] at h
  rcases h with ⟨rfl, rfl⟩ | ⟨rfl, rfl⟩
  · exact of_okWith (p := fun _ _ => true) (by decide +kernel)
  · exact of_okWith (p := fun _ _ => true) (by decide +kernel)

/-! ### What the statements about streams, traps and delivery points assume -/

/-- A job with a token and an entry from L to C, pushed in cycle 10, and a held retire in S. -/
def queued : Job :=
  { job with
    tokens := job.tokens.set (pairIdx .l .c) [10] (by decide), queues := job.queues.set (pairIdx .l .c) [(10, 9)] (by decide)
    s := { regs with retireQ := [⟨0x100, some 3, .k 1, 0, 0, 0, false, false, 0⟩] } }

/-- An entry that pushes a token to two streams and a value to one. -/
def pushing : RetEntry := ⟨0x100, none, .discard, 5, 1, 3, false, false, 64⟩

theorem witness_SigPushesAtRetire :
    pushing.cmd = none ∧ pushing.copy = false ∧ pushing.tokens ≠ 0 ∧ (queued.stream .c).retireQ = [] ∧ pushing.ready ≤ 64 ∧ 63 < pushing.ready ∧
    queued.retireRoom 64 .c pushing.tokens pushing.reply = true ∧ (queued.stream .s).retireQ ≠ [] := by decide

theorem witness_QueueWords :
    (cur .c queued).slot = none ∧ Runs (atWord .c queued) hdr [.k 1] none (cur .c queued) queued (atWord .c queued) ∧
    Runs (atWord .c queued) hdr [] (some (.k 1)) (cur .c queued) queued (atWord .c queued) ∧ queued.handler = none ∧
    queued.queues.get (pairIdx (otherOf .c 0) .c) = (10, 9) :: [] ∧ 10 + 2 ≤ (atWord .c queued).tick :=
  ⟨rfl, runs _ _ _ _ rfl, runs _ _ _ _ rfl, rfl, by decide, by decide⟩

theorem witness_LevelAndStampWords :
    Runs (atWord .c queued) hdr [] (some .push) (cur .c queued) queued (atWord .c queued) ∧
    Runs (atWord .c queued) hdr [.k 1] (some (.k 2)) (cur .c queued) queued (atWord .c queued) ∧
    (encode (.qlvl hdr (.k 3) .tOut 3)).isSome = true := ⟨runs _ _ _ _ rfl, runs _ _ _ _ rfl, by decide⟩

/-- A job whose C holds values at the ends of what its CSRs take. -/
def csrJob : Job :=
  { job with c := { regs with
      k := (((((((regs.k.set 1 0x000D_0004).set 2 31).set 3 16).set 4 65535).set 5 64).set 6 0x10_0000).set 7 255)}
             m := { regs with k := (regs.k.set 5 64).set 6 0x10_0000 } }

/-- The same in the handler of a trap of L. -/
def handling : Job := { csrJob with handler := some ⟨.l, none, 0, Vector.replicate 16 0, 0x180, false, false, none, none⟩ }

theorem witness_ControlRegisters :
    Runs (atWord .c csrJob) hdr [] (some (.k 8)) (cur .c csrJob) csrJob (atWord .c csrJob) ∧
    Runs (atWord .m csrJob) hdr [] (some (.k 8)) (cur .m csrJob) csrJob (atWord .m csrJob) ∧
    Runs (atWord .m csrJob) hdr [.k 5] (some (.k 8)) (cur .m csrJob) csrJob (atWord .m csrJob) ∧
    (∀ a ∈ [Src.k 1, .k 2, .k 3, .k 4, .k 7],
      Runs (atWord .c csrJob) hdr [a] (some (.k 8)) (cur .c csrJob) csrJob (atWord .c csrJob)) ∧
    (let v (a : Src) : Word := (cur .c csrJob).regs.src a
     (v (.k 1) &&& 0xFFFF_FFFF_FFF0_00F8 = 0 ∧ ((v (.k 1)).extractLsb' 0 3).toNat ≤ 4 ∧ (v (.k 1)).extractLsb' 14 3 ≠ 0) ∧
     (v (.k 2)).toNat < 32 ∧ (∀ a ∈ [Src.k 3, .k 4], 16 ≤ (v a).toNat ∧ (v a).toNat ≤ 65535) ∧
     (∀ a ∈ [Src.k 5, .k 6], 64 ≤ (v a).toNat ∧ (v a).toNat ≤ 1048576) ∧ (v (.k 7)).toNat < 256) :=
  ⟨runs _ _ _ _ rfl, runs _ _ _ _ rfl, runs _ _ _ _ rfl, fun _ _ => runs _ _ _ _ rfl, by decide⟩

theorem witness_ControlRegisters_other :
    StreamId.l ≠ (cur .c csrJob).stream ∧ HandlerReady (cur .c csrJob) ∧
    Runs (atWord .c csrJob) hdr [] (some (.k 8)) (cur .c csrJob) csrJob (atWord .c csrJob) ∧
    handling.handler.isSome = true ∧ Runs (atWord .c handling) hdr [] (some (.k 8)) (cur .c handling) handling (atWord .c handling) ∧
    Runs (atWord .c handling) hdr [.k 1] (some (.k 8)) (cur .c handling) handling (atWord .c handling) :=
  ⟨by decide, handlerReady _ _ rfl (by decide), runs _ _ _ _ rfl, by decide, runs _ _ _ _ rfl, runs _ _ _ _ rfl⟩

/-- A job of a deterministic launch. -/
def detJob : Job := { job with det := true }

theorem witness_PlacementFacts :
    Runs (memState memJob) hdr [] (some (.k 1)) (cur .c memJob) memJob (memState memJob) ∧ memJob.det = false ∧
    (memState memJob).parts[memJob.mem.part]? = some part ∧
    Runs (atWord .c detJob) hdr [] (some (.k 1)) (cur .c detJob) detJob (atWord .c detJob) ∧ detJob.det = true ∧
    HandlerReady (cur .c detJob) :=
  ⟨mem_runs _ _ _ rfl, rfl, rfl, runs _ _ _ _ rfl, rfl, handlerReady _ _ rfl (by decide)⟩

/-- A job without a trap handler. -/
def unhandled : Job := { job with c := { regs with thandler := 0 } }

theorem witness_TrapsEnterHandlerOrAbort :
    Runs (atWord .c job) hdr [] none (cur .c job) job (atWord .c job) ∧ HandlerReady (cur .c job) ∧
    Runs (atWord .c unhandled) hdr [] none (cur .c unhandled) unhandled (atWord .c unhandled) ∧
    ((cur .c unhandled).pre.stream .c).thandler = 0 ∧ (cur .c unhandled).pre.phase = .running ∧
    Runs (atWord .c handling) hdr [] none (cur .c handling) handling (atWord .c handling) ∧
    (cur .c handling).pre.handler.isSome = true ∧ (cur .c handling).pre.phase = .running :=
  ⟨runs _ _ _ _ rfl, handlerReady _ _ rfl (by decide), runs _ _ _ _ rfl, rfl, rfl, runs _ _ _ _ rfl, rfl, rfl⟩

theorem witness_TrapReturn :
    Runs (atWord .c handling) hdr [] none (cur .c handling) handling (atWord .c handling) ∧ (cur .c handling).slot = none ∧
    (∃ hd, handling.handler = some hd ∧ hd.slot = (cur .c handling).slot ∧ (handling.regs hd.stream hd.slot).tinfo.getLsbD 15 = false) ∧
    handling.phase = .running ∧ ((handling.regs .c none).retireQ.any fun e => !handling.entryDone 64 e) = false ∧
    Runs (atWord .c job) hdr [] none (cur .c job) job (atWord .c job) ∧ job.handler = none ∧ HandlerReady (cur .c job) :=
  ⟨runs _ _ _ _ rfl, rfl, ⟨_, rfl, rfl, by decide⟩, rfl, rfl, runs _ _ _ _ rfl, rfl, handlerReady _ _ rfl (by decide)⟩

/-- The same where L's trap was asynchronous; and where an older word of C is not complete. -/
def handlingAsync : Job := { handling with l := { regs with tinfo := 0x8000 } }
@[inherit_doc handlingAsync]
def handlingLate : Job :=
  { handling with c := { handling.c with retireQ := [⟨0x100, some 3, .k 1, 0, 0, 0, false, false, 0⟩] }, waits := [3] }

theorem witness_TrapReturn_later :
    Runs (atWord .c handlingAsync) hdr [] none (cur .c handlingAsync) handlingAsync (atWord .c handlingAsync) ∧
    (handlingAsync.regs .l none).tinfo.getLsbD 15 = true ∧ handlingAsync.phase = .running ∧
    Runs (atWord .c handlingLate) hdr [] none (cur .c handlingLate) handlingLate (atWord .c handlingLate) ∧
    ((handlingLate.regs .c none).retireQ.any fun e => !handlingLate.entryDone 64 e) = true ∧ (cur .c handlingLate).late = false :=
  ⟨runs _ _ _ _ rfl, by decide, rfl, runs_of (enters_of rfl rfl rfl rfl) rfl, by decide, rfl⟩

/-- A launch record of class `cls`, one team of `team` jobs of context 5, with an Outlet at 0x1_0000 and C's entry only; a timed
one asks for one core for 1,000 cycles until cycle 1,000,000. -/
def recordOf (cls team : Nat) : BitVec 2048 :=
  let none' := 0xFFFF_FFFF
  let timed := if cls = 1 then 1 else 0
  ofWords 2048 [0x0001_4F56_4C52, cls + team * 2 ^ 32, 0, timed * 1000000, timed * (1000 + 2 ^ 32), 0, 0, none' * 2 ^ 32,
    none' * 2 ^ 32 + none', none', 0, 0, team + 2 ^ 32, 1 + 2 ^ 32, 0, 0, 5 * 2 ^ 16, 0x1_0000]

/-- That launch as number 1 of epoch 1, just consumed. -/
def launchOf (cls team : Nat) : Launch := Launch.fresh 0x0001_0000_0000_0001 0 (recordOf cls team)

/-- Its team 0 of jobs 0 and 1, resident, or swapped out, since cycle 0. -/
def teamOf (ph : TeamPhase) : Team := ⟨0, ph, [0, 1], 0, 0, 0, none, none⟩

/-- A job of a team of two, and its teammate, which runs. -/
def teamed : Job := { memJob with mem := { memJob.mem with teamSize := 2 } }
@[inherit_doc teamed]
def teammate : Job := { teamed with core := 1, mem := { teamed.mem with index := 1, linear := 1 } }

/-- A job whose V, L, M and S have joined, and whose C then has an enabled flag standing. -/
def joining : Job :=
  let at' (t : StreamSt) : StreamSt := { t with atJoin := true }
  { memJob with l := at' regs, vs := at' regs, m := at' regs, s := at' regs }
@[inherit_doc joining]
def flagged : Job := { job with c := { regs with fpflg := 1, fpctl := 0x000D_1F00 } }

theorem witness_DeliveryPointWords :
    Delivered (cur .c memJob) memJob ∧ Runs (memState memJob) hdr [] none (cur .c memJob) memJob (memState memJob) ∧
    memJob.handler = none ∧ memJob.loop = none ∧ (memState memJob).l1Held memJob.core = false ∧ ((othersOf .c).any fun y => !(memJob.stream y).atJoin) = true ∧
    Runs (memState memJob) hdr [] (some (.k 1)) (cur .c memJob) memJob (memState memJob) ∧ (cur .c memJob).regs.bar = none ∧
    (memState memJob).teamJobs 0 memJob = [0] := by
  refine ⟨⟨rfl, rfl, by decide⟩, mem_runs _ _ _ rfl, rfl, rfl, by decide +kernel, by decide, mem_runs _ _ _ rfl, rfl, by decide⟩

/-- That team, job 0's C at a DBAR, arrived at it or not, and job 1 there at generation `g`. -/
def atBarrier (arrived : Bool) (g : Nat) : Job × State :=
  let j := { teamed with barAt := if arrived then 1 else 0, c := { teamed.c with bar := if arrived then some 0x100 else none } }
  (j, { memState j with
    jobs := [j, { teammate with barAt := g }]
    parts := [{ part with launches := [{ launchOf 0 2 with phase := .running, teams := [teamOf .resident] }] }] })

-- the first of the team to arrive, the last, and a turn after the arrival before and after the others'
theorem witness_DeliveryPointWords_team : ∀ arrived : Bool, ∀ g ∈ [0, 1],
    let j := (atBarrier arrived g).1
    let s := (atBarrier arrived g).2
    Delivered (cur .c j) j ∧ Runs s hdr [] (some (.k 1)) (cur .c j) j s ∧ j.handler = none ∧ s.l1Held j.core = false ∧
    s.teamJobs 0 j = [0, 1] ∧ (∃ k, s.jobs[1]? = some k ∧ k.phase ≠ .retired ∧ (j.barGen + 1 ≤ k.barAt ↔ g = 1)) ∧
    (cur .c j).regs.bar = (if arrived then some (cur .c j).pc.toNat else none) ∧ (j.barGen + 1 ≤ j.barAt ↔ arrived = true) :=
  fun arrived g h => by
    simp only [List.mem_cons, List.not_mem_nil, or_false] at h
    rcases h with rfl | rfl <;> cases arrived <;>
      exact ⟨⟨rfl, rfl, by decide⟩, runs_of (enters_of rfl rfl rfl rfl) rfl, rfl, by decide +kernel, by decide +kernel,
        ⟨_, rfl, by decide, by decide⟩, by decide, by decide⟩

theorem witness_DeliveryPointWords_flag :
    HandlerReady (cur .c flagged) ∧ (flagged.stream .c).retireQ = [] ∧ flagged.handler = none ∧ flagged.loop = none ∧
    (((flagged.stream .c).fpflg ||| (cur .c flagged).raised.setWidth 64).extractLsb' 0 5 &&&
      (flagged.stream .c).fpctl.extractLsb' 8 5) ≠ 0 ∧ Runs (atWord .c flagged) hdr [] none (cur .c flagged) flagged (atWord .c flagged) ∧
    Runs (atWord .c flagged) hdr [] (some (.k 1)) (cur .c flagged) flagged (atWord .c flagged) ∧ (cur .c flagged).regs.bar = none :=
  ⟨handlerReady _ _ rfl (by decide), rfl, rfl, rfl, by decide, runs _ _ _ _ rfl, runs _ _ _ _ rfl, rfl⟩

theorem witness_LastJoinRetiresJob :
    Runs (memState joining) hdr [] none (cur .c joining) joining (memState joining) ∧ Delivered (cur .c joining) joining ∧
    (∀ y ∈ othersOf .c, (joining.stream y).atJoin = true) ∧ joining.phase = .running ∧ joining.handler = none ∧
    joining.loop = none ∧ joining.owed = [] ∧ joining.jstart ≤ (memState joining).tick ∧ (memState joining).l1Held joining.core = false :=
  ⟨mem_runs _ _ _ rfl, ⟨rfl, rfl, by decide⟩, by decide, rfl, rfl, rfl, rfl, by decide, by decide +kernel⟩

/-- A job whose `k1` is page-aligned and whose `k2` holds one page; and one with a swap pending. -/
def paged : Job := { job with w0 := (0x1000, 0x3000), c := { regs with k := ((regs.k.set 1 0x2000).set 2 0x1000).set 3 15 } }
@[inherit_doc paged]
def swapping : Job := { job with swapAt := some 100 }

theorem witness_DiscardAndYieldWords :
    Runs (atWord .c paged) hdr [.k 1, .k 2] none (cur .c paged) paged (atWord .c paged) ∧
    (let x := ((cur .c paged).regs.src (.k 1)).toNat
     let n := ((cur .c paged).regs.src (.k 2)).toNat
     x % 4096 = 0 ∧ n % 4096 = 0 ∧ 0 < n ∧ paged.spanOk x n = true ∧ x + n ≤ 0x30_0000 ∧ inWindow paged.tsw x n = true ∧
       x + n ≤ 0x10_0000) ∧
    Runs (atWord .c paged) hdr [.k 3] (some (.k 1)) (cur .c paged) paged (atWord .c paged) ∧
    ((cur .c paged).regs.src (.k 3)).toNat < 16 ∧ Runs (atWord .c paged) hdr [] none (cur .c paged) paged (atWord .c paged) ∧
    Runs (atWord .c swapping) hdr [] (some .push) (cur .c swapping) swapping (atWord .c swapping) ∧ swapping.swapAt = some 100 ∧
    paged.swapAt = none :=
  ⟨runs _ _ _ _ rfl, by decide, runs _ _ _ _ rfl, by decide, runs _ _ _ _ rfl, runs _ _ _ _ rfl, rfl, rfl⟩

/-! ### What the statements about vector words assume -/

/-- Any registers of `job` are ready: each tile is there, none is owned, and no unit is bad. -/
theorem ready (srcs : List Touch) (dsts : List (BitVec 7)) : VecReady (atWord .v job) job srcs dsts :=
  ⟨fun _ _ => by simp [State.absent, tileAbsent, atWord, State.reset, job, Job.reset, Member.blank],
    fun _ _ => by simp [Job.tileOwned, job, Job.reset], by simp [Job.rowsBad, job, Job.reset]⟩

/-- It enables no exception. -/
theorem notPrecise (n : Nat) (e : Nat → BitVec 5) : NoPrecise (cur .v job) n e := fun h => absurd h (by decide)

/-- What `LaneYields` assumes, for any operands and any results. -/
def LaneYieldsMet : Prop :=
  Enters (atWord .v job) vhdr.wait vhdr.sig (cur .v job) job (atWord .v job) ∧
    (∀ srcs dsts, VecReady (atWord .v job) job srcs dsts) ∧ ∀ n e, NoPrecise (cur .v job) n e
theorem laneYieldsMet : LaneYieldsMet := ⟨enters _ _, ready, notPrecise⟩

theorem witness_VectorIntegerResults : LaneYieldsMet := laneYieldsMet
theorem witness_VectorFloatArithmetic : LaneYieldsMet := laneYieldsMet
theorem witness_VectorCompareResults : LaneYieldsMet := laneYieldsMet
theorem witness_VectorFunctionResults : LaneYieldsMet := laneYieldsMet

-- VCVT of f32 to the second half of bf16 and back; VQBLK of blocks as long as f32 has lanes, and of 256
theorem witness_VectorConversions : LaneYieldsMet ∧ 1 * 64 + 64 ≤ 256 / ElemTy.bf16.bytes ∧ 0 + 64 ≤ 256 / ElemTy.f32.bytes ∧
    ElemTy.f32 ∈ [ElemTy.bf16, .f16, .f32] ∧ (3#3).toNat ≤ 5 ∧ (5#3).toNat ≤ 5 ∧ 2 ^ ((3#3).toNat + 3) ≤ ElemTy.f32.lanes :=
  ⟨laneYieldsMet, by decide⟩

-- lane 32, the last, and past it
theorem witness_VectorMoves : LaneYieldsMet ∧ ((cur .v job).regs.src (.k 2)).toNat < ElemTy.f32.lanes ∧
    ElemTy.f32.lanes ≤ ((cur .v job).regs.src (.k 4)).toNat := ⟨laneYieldsMet, by decide, by decide⟩

theorem witness_VectorLoadsAndStores :
    let act := laneActive (cur .v job) vhdr
    let a := (cur .v job).regs.src (.k 1)
    let fits (load : Bool) (at' : Nat → Nat) : Bool := spanCauses job load (((List.range 64).filter act).map fun i => (at' i, 4)) == []
    Enters (atWord .v job) vhdr.wait vhdr.sig (cur .v job) job (atWord .v job) ∧
    fits true (fun i => (a + (4#14).signExtend 64).toNat + i * 4) = true ∧
    fits false (fun i => (a + (4#14).signExtend 64).toNat + i * 4) = true ∧
    fits true (fun i => (a + BitVec.ofNat 64 i * a).toNat) = true ∧
    fits true (fun i => (a + BitVec.ofNat 64 (lane ((cur .v job).pre.vreg 3) 32 i)).toNat) = true ∧
    fits false (fun i => (a + BitVec.ofNat 64 (lane ((cur .v job).pre.vreg 3) 32 i)).toNat) = true :=
  ⟨enters _ _, by decide +kernel, by decide +kernel, by decide +kernel, by decide +kernel, by decide +kernel⟩

theorem witness_VectorReductions : LaneYieldsMet := laneYieldsMet

/-- A feed of 768 bytes from 0x1000 on, in one run. -/
def feedDesc : BitVec 512 := ofWords 512 [0x1000, 768, 0x0001_0001_0001_0001]

/-- A codebook of two values; a layout of sixteen slots over it, groups of two, codes of four bits; tile 0 holding sums. -/
def layWord : Word := 0x0000_1000_0000_4020
@[inherit_doc layWord]
def lmJob : Job :=
  { job with
    w0 := (0, 0x8000), books := job.books.set 0 ⟨true, 2, false, 0⟩
    layouts := job.layouts.set 0 ⟨true, layWord, (List.range 16).map fun i => (i, false)⟩, tiles := job.tiles.set 0 ⟨true, false⟩
    m := { regs with k := ((((((regs.k.set 2 0x40).set 3 0x0000_00F0_0000_0000).set 4 0x0010_0000).set 5 0x102).set 6 0x10).set 7 layWord) }
    sp := cellPutN [] 0x40 (leBytes 64 feedDesc.toNat)
    feeds := job.feeds.set 0 (some ⟨feedDesc, 0, 0, []⟩) }

theorem witness_VectorTablesAndSampling :
    let lay := lmJob.layout 0
    let entries := tabEntries (lmJob.bookOf lay.word) lay.word false ((cur .v lmJob).pre.vreg 1)
    Enters (atWord .v lmJob) vhdr.wait vhdr.sig (cur .v lmJob) lmJob (atWord .v lmJob) ∧
    lay.set = true ∧ 15 < layS lay.word ∧ entries.all (entryFits lay.word) = true ∧
    (∀ v ∈ [(1 : BitVec 7), 2, 4, 5], (atWord .v lmJob).absent lmJob v = false ∧ lmJob.tileOwned (tileOf v.toNat) = false) ∧
    lmJob.tileBad = [] ∧ LaneYieldsMet :=
  ⟨enters _ _, by decide, by decide, by decide +kernel, by decide +kernel, rfl, laneYieldsMet⟩

/-- A job of an urgent partition's core, which lacks tile 3; one whose tile 0 a command owns; and one that adds infinities of
opposite signs in lane 1, in precise mode with NV enabled. -/
def urgentJob : Job := { memJob with vs := regs }
@[inherit_doc urgentJob]
def ownedJob : Job := { job with lme := [⟨0, 0x100, .zero 0, 0, true, false, 0⟩] }
@[inherit_doc urgentJob]
def preciseJob : Job :=
  { job with vs := { regs with fpctl := 0x000D_3000 }, v := (job.v.set 1 0x7F80_0000_0000_0000).set 2 0xFF80_0000_0000_0000 }

theorem witness_VectorWordTraps :
    (let s := { atWord .v urgentJob with parts := [{ part with urgent := true }] }
     Enters s vhdr.wait vhdr.sig (cur .v urgentJob) urgentJob s ∧ HandlerReady (cur .v urgentJob) ∧ s.absent urgentJob 96 = true) ∧
    Enters (atWord .v ownedJob) vhdr.wait vhdr.sig (cur .v ownedJob) ownedJob (atWord .v ownedJob) ∧ HandlerReady (cur .v ownedJob) ∧
    (∀ v ∈ [(1 : BitVec 7), 2, 3], (atWord .v ownedJob).absent ownedJob v = false) ∧ ownedJob.tileOwned 0 = true ∧
    (let s := atWord .v preciseJob
     let c := cur .v preciseJob
     let r (i : Nat) : BitVec 5 :=
       let e := exactAdd (modeOf c) (vmodOperand none 0 (decodeFloat fmtF32 (lane (c.pre.vreg 1) 32 i)))
         (vmodOperand none 1 (decodeFloat fmtF32 (lane (c.pre.vreg 2) 32 i)))
       (finishFloat fmtF32 (modeOf c) none e.1 e.2).2
     Enters s vhdr.wait vhdr.sig c preciseJob s ∧ HandlerReady c ∧ preciseOf c.regs.fpctl = true ∧
       (∀ v ∈ [(1 : BitVec 7), 2, 3], s.absent preciseJob v = false) ∧ preciseJob.tileBad = [] ∧ preciseJob.lme = [] ∧
       laneActive c vhdr 1 = true ∧ r 1 &&& enabledOf c.regs.fpctl ≠ 0 ∧ r 0 &&& enabledOf c.regs.fpctl = 0) :=
  ⟨⟨enters_of rfl rfl rfl rfl, handlerReady _ _ rfl (by decide), by decide +kernel⟩, enters _ _, handlerReady _ _ rfl (by decide),
    by decide +kernel, by decide, enters _ _, handlerReady _ _ rfl (by decide), by decide, by decide +kernel, rfl, rfl,
    by decide +kernel, by decide +kernel, by decide +kernel⟩

/-! ### What the statements about launches, loops, regions, the engine and copies assume -/

/-- Bytes of the world of `memState`: an executable page at 0x400_0000; an empty Outlet; and a region of 8 committed and 16 tentative bytes in page 0 of a pool of two
pages, page 1 free, an empty descriptor for its child, and the region before it committed anything. -/
def worldMem : List Host.Cell :=
  let put (m : List Host.Cell) (va : Nat) (b : List Byte) : List Host.Cell := cellPutN m (0x8_0000_0000 + va) b
  let m1 := put (put (cellPutN (cellPutN tables 0x50_0010 (leBytes 4 16)) 0x30_0008 (leBytes 8 0x0000_0008_0000_3263)) 0x1_0010 (leBytes 4 16)) 0x3000 (leBytes 256 0x0001_4F56_4C52)
  let m2 := put (put m1 0x4000 (leBytes 64 (ofWords 512 [2, 0x10_0000, 1 + 2 * 2 ^ 32, 0x7000]).toNat)) 0x7000 (leBytes 4 1)
  put (put (put m2 0x6000 (apDescBytes ⟨0x4000, 0x5000, 4, 1, 8, 16, 0⟩)) 0x6040 (apDescBytes ⟨0x4000, 0x5800, 4, 0, 0, 0, 0⟩)) 0x6080
    (apDescBytes ⟨0x4000, 0x5000, 4, 1, 0, 16, 0⟩)

/-- A word of stream `x` of that job about to run in it, or (`world`) nothing. -/
def inWorld (x : StreamId) (j : Job) : State := { atWord x j with parts := [part], mem := worldMem }
@[inherit_doc inWorld]
def world (parts : List Part) (jobs : List Job) : State :=
  { inWorld .c memJob with cursor := none, parts := parts, jobs := jobs }

theorem world_runs (x : StreamId) (j : Job) (uses : List Src) (d : Option Dest) (free : (j.stream x).retireQ = []) :
    Runs (inWorld x j) hdr uses d (cur x j) j (inWorld x j) := by
  refine runs_of (enters_of rfl rfl rfl rfl) ?_
  cases x <;> simp_all [destPending, Cursor.start, Job.regs, Job.stream]

/-- A job that launches from 0x3000 into Inlet 0, and uses Pond queue 1, which is enabled, and 2, which is not. -/
def launcher : Job := { memJob with c := { regs with k := (((regs.k.set 1 0x3000).set 2 0).set 3 1).set 4 2 } }

/-- Whether Inlet 0 there has room for slot `n`, and core 0's L1 may go home. -/
def inletRoom (s : State) (n : Nat) : Bool :=
  decide (n - leNat (s.readPhys 0x50_0008 8) < leNat (s.readPhys 0x50_0010 4)) &&
    !s.hostHolds (inletSlot 0x50_0000 (leNat (s.readPhys 0x50_0010 4)) n) 256 && !s.l1Held 0

theorem witness_LaunchPondAndCheckpoint :
    Runs (inWorld .c launcher) hdr [.k 1, .k 2] (some (.k 5)) (cur .c launcher) launcher (inWorld .c launcher) ∧
    launcher.handler = none ∧ ((cur .c launcher).regs.src (.k 1)).toNat % 64 = 0 ∧ ((cur .c launcher).regs.src (.k 2)).toNat < 4 ∧
    ((cur .c launcher).regs.src (.k 1)).toNat < 2 ^ 56 ∧
    okWith ((inWorld .c launcher).memRead (whoOf 0 launcher .c none (cur .c launcher).pc) 0x3000 256 false)
      (fun s2 _ => inletRoom s2 (leNat (s2.readPhys 0x50_0000 8)) && inletRoom s2 3 && !s2.unreadable 0x50_0000 64 &&
        !s2.hostHolds 0x50_0000 64) = true ∧
    (inWorld .c launcher).inletBase 0 0 = 0x50_0000 ∧ launcher.c.claim = none :=
  ⟨world_runs _ _ _ _ rfl, rfl, by decide, by decide, by decide, by decide +kernel, by decide +kernel, rfl⟩

/-- That job where the Inlet is full; and having claimed slot 3, or 16, of it. -/
def fullInlet (j : Job) : State := { inWorld .c j with mem := cellPutN worldMem 0x50_0000 (leBytes 8 16) }
@[inherit_doc fullInlet]
def claimed (n : Nat) : Job := { launcher with c := { launcher.c with claim := some (0, n) } }

theorem witness_LaunchPondAndCheckpoint_full_inlet :
    okWith ((fullInlet launcher).memRead (whoOf 0 launcher .c none (cur .c launcher).pc) 0x3000 256 false)
      (fun s2 _ => !inletRoom s2 (leNat (s2.readPhys 0x50_0000 8)) && inletRoom s2 3 && !inletRoom s2 16) = true ∧
    (∀ n ∈ [3, 16], Runs (fullInlet (claimed n)) hdr [.k 1, .k 2] (some (.k 5)) (cur .c (claimed n)) (claimed n) (fullInlet (claimed n)) ∧
      (claimed n).handler = none ∧ (claimed n).c.claim = some ((((cur .c (claimed n)).regs.src (.k 2)).setWidth 2), n) ∧
      (cur .c (claimed n)).late = false) ∧
    Runs (fullInlet launcher) hdr [.k 1, .k 2] (some (.k 5)) (cur .c launcher) launcher (fullInlet launcher) :=
  ⟨by decide +kernel, fun _ _ => ⟨runs_of (enters_of rfl rfl rfl rfl) rfl, rfl, by decide +revert, rfl⟩,
    runs_of (enters_of rfl rfl rfl rfl) rfl⟩

/-- The world whose queue 1 holds an item. -/
def pondPart : Part := { part with pond := (Vector.replicate 16 []).set 1 [⟨7, 9, 0⟩] }

theorem witness_LaunchPondAndCheckpoint_pond :
    let s := { inWorld .c launcher with parts := [pondPart] }
    Runs (inWorld .c launcher) hdr [.k 3, .k 1, .k 2] (some (.k 5)) (cur .c launcher) launcher (inWorld .c launcher) ∧
    Runs s hdr [.k 3, .k 6] (some (.k 6)) (cur .c launcher) launcher s ∧ Runs s hdr [.k 3] (some (.k 5)) (cur .c launcher) launcher s ∧
    ((cur .c launcher).regs.src (.k 3)).toNat = 1 ∧ ((cur .c launcher).regs.src (.k 4)).toNat = 2 ∧
    (part.pqcfg.get 1).getLsbD 7 = true ∧ (part.pqcfg.get 2).getLsbD 7 = false ∧
    ¬(65536 ≤ (part.pond.get 1).length ∨ part.pondways * 65536 * part.stops.length ≤ (part.pond.toList.map List.length).sum) ∧
    part.pond.get 1 = [] ∧ pondPart.pond.get 1 ≠ [] ∧ s.l1Held 0 = false :=
  ⟨world_runs _ _ _ _ rfl, runs_of (enters_of rfl rfl rfl rfl) rfl, runs_of (enters_of rfl rfl rfl rfl) rfl, by decide,
    by decide, by decide, by decide, by decide +kernel, by decide, by decide, by decide +kernel⟩

-- a queue of 65,536 items is full
theorem witness_LaunchPondAndCheckpoint_full : 65536 ≤ (List.replicate 65536 (⟨7, 9, 0⟩ : PondItem)).length ∧
    Runs (inWorld .c launcher) hdr [.k 1] (some (.k 5)) (cur .c launcher) launcher (inWorld .c launcher) ∧ launcher.c.retireQ = [] ∧
    (inWorld .c launcher).ckptWaits 0 5 = false := ⟨Nat.le_of_eq List.length_replicate.symm, world_runs _ _ _ _ rfl, rfl, by decide +kernel⟩

/-- A sound loop record: k1 carried, two slots, a guess, one trip, one private page. -/
def loopRecord (guess trip : Nat) : BitVec 512 :=
  ofWords 512 [2 + 2 * 2 ^ 16 + 256 * 2 ^ 32 + 2 ^ 48, 0, guess + 0x40 * 2 ^ 32, trip, 0x1000 + 2 ^ 32]

/-- A job of a proof group of two whose k1 names that record; and in that loop, slot 0 running `it`, slot 1 holding `fin`. -/
def provable : Job :=
  { job with
    w0 := (0, 0x2_0000), helpers := [1], c := { regs with k := regs.k.set 1 0x40 }
    sp := cellPutN [] 0x40 (leBytes 64 (loopRecord 8 1).toNat) }
@[inherit_doc provable]
def proving (guess trip : Nat) (run fin : Option Iter) : Job :=
  { provable with
    loop := some { Loop.start (loopRecord guess trip) provable .push Sig.zero with
      slots := [⟨0, regs, [], [], run, fin, false⟩, ⟨1, regs, [], [], run, fin, false⟩] } }

/-- A word of slot 0 of such a job about to run. -/
def inSlot (st : IterState) : State :=
  let j := proving 8 1 (some (Iter.fresh 0 st regs.k)) none
  { atWord .c j with cursor := some (Cursor.start 0 .c (some 0) j 1) }

theorem witness_ProofLoopWords :
    let off := ((cur .c provable).regs.src (.k 1)).toNat
    let r : BitVec 512 := BitVec.ofNat 512 (leNat (cellGetN provable.sp off 64))
    let carved := { provable with loop := some (Loop.start 0 provable .push Sig.zero) }
    Runs (atWord .c provable) hdr [.k 1] (some .push) (cur .c provable) provable (atWord .c provable) ∧ provable.handler = none ∧
    provable.loop = none ∧ provable.c.retireQ = [] ∧ off % 64 = 0 ∧
    provable.topWindow.1 + 32768 ≤ provable.topWindow.2 ∧ carved.spanOk off 64 = true ∧ unitsTouch provable.spBad off 64 = false ∧
    proofBad r (1 + provable.helpers.length) = false ∧ carved.spanOk (privArea r).1 (privArea r).2 = true ∧
    Runs (atWord .c provable) hdr [.k 1] none (cur .c provable) provable (atWord .c provable) ∧
    Runs (atWord .c provable) hdr [] (some .push) (cur .c provable) provable (atWord .c provable) ∧
    (atWord .c provable).l1HeldAny (provable.core :: provable.helpers) = false :=
  ⟨runs _ _ _ _ rfl, rfl, rfl, rfl, by decide, by decide, by decide +kernel, by decide, by decide +kernel, by decide +kernel,
    runs _ _ _ _ rfl, runs _ _ _ _ rfl, by decide +kernel⟩

theorem witness_ProofLoopWords_slot (st : IterState) :
    let j := proving 8 1 (some (Iter.fresh 0 st regs.k)) none
    let c := Cursor.start 0 .c (some 0) j 1
    ∃ lp sl, Runs (inSlot st) hdr [] none c j (inSlot st) ∧ Runs (inSlot st) hdr [] (some .push) c j (inSlot st) ∧ c.slot = some 0 ∧
      j.handler = none ∧ j.loop = some lp ∧ lp.slots[0]? = some sl ∧ sl.running = some (Iter.fresh 0 st regs.k) ∧
      j.iter? c.slot = some (Iter.fresh 0 st regs.k) ∧ sl.finished = none ∧ sl.regs.retireQ = [] :=
  ⟨_, _, runs_of (enters_of rfl rfl rfl rfl) rfl, runs_of (enters_of rfl rfl rfl rfl) rfl, rfl, rfl, rfl, rfl, rfl, rfl, rfl, rfl⟩

/-- Slot 0's C in the handler of its own trap. -/
def slotHandling : Job :=
  { proving 8 1 (some (Iter.fresh 0 .confirmed regs.k)) none with
    handler := some ⟨.c, some 0, 0, Vector.replicate 16 0, 0x180, false, false, none, none⟩ }

-- a confirmed slot's own trap, and the return from it
theorem witness_TrapsEnterHandlerOrAbort_slot :
    let j := proving 8 1 (some (Iter.fresh 0 .confirmed regs.k)) none
    let c := Cursor.start 0 .c (some 0) j 1
    ∃ sl it, Runs (inSlot .confirmed) hdr [] none c j (inSlot .confirmed) ∧ c.stream = .c ∧ c.slot = some 0 ∧
      j.speculative (some 0) = false ∧ c.pre.slot? 0 = some sl ∧ sl.running = some it ∧ it.st = .confirmed ∧ c.pre.handler = none ∧
      c.regs.thandler ≠ 0 :=
  ⟨_, _, runs_of (enters_of rfl rfl rfl rfl) rfl, rfl, rfl, rfl, rfl, rfl, rfl, rfl, by decide⟩

theorem witness_TrapReturn_slot :
    let c := Cursor.start 0 .c (some 0) slotHandling 1
    let s := { atWord .c slotHandling with cursor := some c }
    ∃ hd, Runs s hdr [] none c slotHandling s ∧ slotHandling.handler = some hd ∧ hd.slot = c.slot ∧
      ((slotHandling.regs .c c.slot).retireQ.any fun e => !slotHandling.entryDone 64 e) = false ∧
      (slotHandling.regs hd.stream hd.slot).tinfo.getLsbD 15 = false :=
  ⟨_, runs_of (.free _ _ rfl rfl rfl rfl ⟨fun _ _ => ⟨.inl rfl, rfl⟩, fun _ _ => ⟨rfl, rfl⟩⟩ (.inr (.inl rfl))) rfl, rfl, rfl, rfl, by decide⟩

-- number 0 starts confirmed; number 1, where no number has committed, on a guess or waiting
theorem witness_ProofLoopSteps_start : ∀ guess ∈ [8, 0xFFFF_FFFF], ∀ slot < 2,
    let j := proving guess 2 none none
    ∃ lp, j.loop = some lp ∧ j.moves = true ∧ lp.ended = false ∧ (lp.slots[slot]?).isSome = true ∧ lp.nextFor slot = some slot ∧
      slot < prTrip lp.record ∧ lp.committed = 0 := by
  intro guess h slot hs
  refine ⟨_, rfl, rfl, rfl, ?_⟩
  revert guess slot
  decide +kernel

-- the last of one trip, one of two, and one of two that exits
theorem witness_ProofLoopSteps_commit : ∀ trip ∈ [1, 2], ∀ exit,
    let it := { Iter.fresh 0 .confirmed regs.k with cout := regs.k.set 1 5, exit := exit }
    let j := proving 8 trip none (some it)
    ∃ lp sl, j.loop = some lp ∧ j.moves = true ∧ lp.ended = false ∧ lp.slots[lp.committed % lp.slots.length]? = some sl ∧
      sl.finished = some it ∧ it.n = lp.committed ∧ it.st = .confirmed ∧ lp.commitAt ≤ 64 ∧ it.stores = [] ∧
      (atWord .c j).l1Held sl.core = false ∧
      (prTrip lp.record ≠ 0 ∧ prTrip lp.record ≤ lp.committed + 1 ↔ trip = 1) :=
  fun trip h exit => ⟨_, _, rfl, rfl, rfl, rfl, rfl, rfl, rfl, Nat.zero_le _, rfl, rfl, by
    simp only [List.mem_cons, List.not_mem_nil, or_false] at h
    rcases h with rfl | rfl <;> cases exit <;> decide +kernel⟩

/-- A number finished on `v` in k1; and its job, where PACC compares all but bit 0. -/
def finishedOn (v : Word) : Iter := { Iter.fresh 0 .finished (regs.k.set 1 v) with cout := regs.k }
@[inherit_doc finishedOn]
def comparing (v : Word) : Job :=
  { proving 8 2 none (some (finishedOn v)) with pacc := (Vector.replicate 16 (BitVec.allOnes 64)).set 1 0xFFFF_FFFE }
@[inherit_doc finishedOn]
def accepts (acc : Bool) (v : Word) : Bool :=
  let lp := Loop.start (loopRecord 8 2 ||| if acc then 2 ^ 20 else 0) provable .push Sig.zero
  (carriedOf lp.record).all fun r =>
    if prAcc lp.record then (lp.carries.get r ^^^ (finishedOn v).cin.get r) &&& (comparing v).pacc.get r == 0
    else lp.carries.get r == (finishedOn v).cin.get r

-- an iteration that finished on the carries that became true, one on others, and one that PACC's mask accepts all the same
theorem witness_ProofLoopSteps_compare : (comparing 0x40).moves = true ∧ (finishedOn 0x41).stores = [] ∧ (finishedOn 0x41).st ≠ .confirmed ∧
    accepts false 0x40 = true ∧ accepts false 0x41 = false ∧ accepts true 0x41 = true ∧ accepts true 0x42 = false :=
  ⟨rfl, rfl, by decide, by decide +kernel, by decide +kernel, by decide +kernel, by decide +kernel⟩

theorem witness_ProofLoopSteps_end :
    let j := { proving 8 1 none none with loop := some { Loop.start (loopRecord 8 1) provable .push Sig.zero with ended := true } }
    ∃ lp, j.loop = some lp ∧ j.moves = true ∧ lp.ended = true ∧ (atWord .c j).l1HeldAny (j.core :: j.helpers) = false :=
  ⟨_, rfl, rfl, rfl, by decide +kernel⟩

/-- A job with append slot 0 bound to the region: `k1` names the descriptor, `k2` the child's, `k3` 16 bytes. -/
def appender : Job :=
  { memJob with
    append := memJob.append.set 0 (some 0x6000)
    c := { regs with k := ((((regs.k.set 1 0x6000).set 2 0x6040).set 3 16).set 4 64).set 5 8 } }
@[inherit_doc appender]
def apWho : Who := whoOf 0 appender .c none (cur .c appender).pc

theorem witness_AppendWords :
    Runs (inWorld .c appender) hdr [.k 1] none (cur .c appender) appender (inWorld .c appender) ∧
    ((cur .c appender).regs.src (.k 1)).toNat % 64 = 0 ∧
    okWith ((inWorld .c appender).apDesc apWho 0x6000) (fun s2 x => !apDescBad x && decide (16 ≤ x.tlen) &&
      okWith (s2.apPool apWho x.pool) fun _ p => !apPoolBad p) = true ∧
    appender.append.get 0 = some 0x6000 ∧
    (∀ a ∈ [Src.k 4, .k 5], ∀ b ∈ [Src.k 3, .k 4],
      Runs (inWorld .c appender) hdr [a, b] (some (.k 7)) (cur .c appender) appender (inWorld .c appender) ∧
      0 < ((cur .c appender).regs.src b).toNat ∧ ((cur .c appender).regs.src b).toNat ≤ 64 ∧
      appender.spanOk ((cur .c appender).regs.src a).toNat ((cur .c appender).regs.src b).toNat = true ∧
      unitsTouch appender.spBad ((cur .c appender).regs.src a).toNat ((cur .c appender).regs.src b).toNat = false) ∧
    okWith ((inWorld .c appender).apAppend apWho 0x6000 (List.replicate 64 1) []) (fun _ r => r.isLeft) = true :=
  ⟨world_runs _ _ _ _ rfl, by decide, by decide +kernel, by decide, fun a ha b hb => ⟨world_runs _ _ _ _ rfl, by
    simp only [List.mem_cons, List.not_mem_nil, or_false] at ha hb
    rcases ha with rfl | rfl <;> rcases hb with rfl | rfl <;> decide⟩, by decide +kernel⟩

theorem witness_AppendWords_lengths :
    Runs (inWorld .c appender) hdr [.k 3] (some (.k 7)) (cur .c appender) appender (inWorld .c appender) ∧
    Runs (inWorld .c appender) hdr [] (some (.k 7)) (cur .c appender) appender (inWorld .c appender) ∧
    Runs (inWorld .c appender) hdr [.k 2] (some (.k 7)) (cur .c appender) appender (inWorld .c appender) ∧
    ((cur .c appender).regs.src (.k 2)).toNat % 64 = 0 ∧
    okWith (((inWorld .c appender).l1Release 0).apDesc apWho 0x6000) (fun s2 x =>
      okWith (s2.apWrite apWho 0x6000 (apDescBytes { x with clen := x.clen + 16, tlen := x.tlen - 16 })) fun _ _ => true) = true ∧
    okWith ((inWorld .c appender).apDesc apWho 0x6000) (fun s2 x =>
      okWith (State.apDropFrom apWho x.plist x.pool (x.npg - apPages x.clen) (apPages x.clen) s2) fun t _ =>
        okWith (t.apWrite apWho 0x6000 (apDescBytes { x with tlen := 0, npg := apPages x.clen })) fun _ _ => true) = true ∧
    okWith ((inWorld .c appender).apFork apWho 0x6080 0x6040) (fun _ r => r.isLeft) = true ∧ (inWorld .c appender).l1Held 0 = false :=
  ⟨world_runs _ _ _ _ rfl, world_runs _ _ _ _ rfl, world_runs _ _ _ _ rfl, by decide, by decide +kernel, by decide +kernel,
    by decide +kernel, by decide +kernel⟩

theorem witness_AppendWords_unbound : memJob.append.get 0 = none ∧ HandlerReady (cur .c memJob) ∧
    Runs (memState memJob) hdr [.k 1, .k 2] (some .push) (cur .c memJob) memJob (memState memJob) ∧
    Runs (memState memJob) hdr [] (some .push) (cur .c memJob) memJob (memState memJob) :=
  ⟨by decide, handlerReady _ _ rfl (by decide), mem_runs _ _ _ rfl, mem_runs _ _ _ rfl⟩

theorem witness_MatrixSetupWords :
    let s := atWord .m lmJob
    let c := cur .m lmJob
    let v (a : Src) : Word := c.regs.src a
    (∀ uses, Runs s hdr uses none c lmJob s ∧ Runs s hdr uses (some .push) c lmJob s) ∧
    s.noTile lmJob 0 = false ∧ lmJob.tileOwned 0 = false ∧
    -- CBLOAD of 2 values, symmetric, and of 16
    (∀ x ∈ lmJob.layoutsOf 0, lmJob.layoutBusy x = false) ∧
    (∀ k ∈ [Src.k 5, .k 6], v k &&& 0xFFFF_FFFF_FFFF_FEE0 = 0 ∧ 2 ≤ ((v k).extractLsb' 0 5).toNat ∧ ((v k).extractLsb' 0 5).toNat ≤ 16) ∧
    lmJob.spanOk 0x100 16 = true ∧ unitsTouch lmJob.spBad 0x100 16 = false ∧
    (∀ i < 2, (⟨true, 2, true, 0⟩ : Codebook).entry (2 - 1 - i) = -((⟨true, 2, true, 0⟩ : Codebook).entry i)) ∧
    -- TLSET, CFEED, LSTAT
    lmJob.layoutBusy 0 = false ∧ tlsetCauses lmJob (v (.k 7)) = [] ∧ lmJob.feedBusy 0 = false ∧ (v (.k 2)).toNat % 64 = 0 ∧
    lmJob.spanOk (v (.k 2)).toNat 64 = true ∧ unitsTouch lmJob.spBad (v (.k 2)).toNat 64 = false ∧
    (let d : BitVec 512 := BitVec.ofNat 512 (leNat (cellGetN lmJob.sp (v (.k 2)).toNat 64))
     fdBad d = false ∧ (d.extractLsb' 56 4).toNat ≤ 1) ∧
    (lstatValue s lmJob 0).isSome = true := by
  refine ⟨fun _ => ⟨runs _ _ _ _ rfl, runs _ _ _ _ rfl⟩, ?_⟩
  decide +kernel

theorem witness_MatrixCommandWords :
    let s := atWord .m lmJob
    let c := cur .m lmJob
    let v (a : Src) : Word := c.regs.src a
    let lay := lmJob.layout 0
    let ctl := v (.k 3)
    let tc := v (.k 4)
    (∀ uses, Runs s hdr uses none c lmJob s) ∧ lmJob.lme.length < 2 ∧
    -- four blocks of eight: as many groups as the layout has slots
    lmCtlBad ctl = false ∧ s.noTile lmJob 0 = false ∧ (lmJob.tiles.get 0).f32 = true ∧
    (∀ r < 32, lmJob.board.v.getD (32 * 0 + r) 0 ≤ s.tick) ∧ lmJob.spanOk (lmAsc ctl) (32 * 4) = true ∧
    lay.set = true ∧ lmSlot0 ctl + 4 * lmGpb ctl lay.word ≤ layS lay.word ∧
    slotsOk lay (lmSlot0 ctl) (4 * lmGpb ctl lay.word) (some (lmAsgn ctl)) = true ∧ (v (.k 2)).toNat % 8 = 0 ∧
    lmJob.spanOk (v (.k 2)).toNat (4 * lmLen ctl lay.word) = true ∧
    -- sixteen slots of the table
    tcCount tc ≠ 0 ∧ (v (.k 2)).toNat % 64 = 0 ∧ tcFirst tc + tcCount tc ≤ layS lay.word ∧
    lmJob.spanOk (v (.k 2)).toNat (tcCount tc * laySlotBytes (lmJob.bookOf lay.word).k lay.word) = true ∧
    tc &&& 0xFFFF_FFFE_E000_E000 = 0 ∧ tc &&& 0xFFFF_FFFF_E000_E000 = 0 ∧ slotsOk lay (tcFirst tc) (tcCount tc) none = true ∧
    (∃ f, lmJob.feed 0 = some f ∧ 4 * lmLen ctl lay.word ≤ fdLen f.desc - f.issued) ∧ lmJob.spanOk (v (.k 2)).toNat 8192 = true := by
  refine ⟨fun _ => runs _ _ _ _ rfl, ?_⟩
  refine ⟨by decide, by decide, by decide, by decide, by decide +kernel, by decide, by decide +kernel, by decide +kernel, by decide +kernel, by decide,
    by decide +kernel, by decide, by decide, by decide, by decide +kernel, by decide, by decide, by decide +kernel, ⟨_, rfl, by decide +kernel⟩,
    by decide⟩

/-- The engine's states: a command at the head of the queue, its LMM ready for a K step, over, or meeting a bad unit. -/
def engineOf (op : LmeOp) (started : Bool) (bad : List Nat) : Job :=
  { lmJob with lme := [⟨0, 0x100, op, 0, started, false, 0⟩], spBad := bad }
@[inherit_doc engineOf]
def lmmOp : LmeOp := .lmm 0 0 (.scratch 0x40) 0x0000_00F0_0000_0000 4 0

/-- A core whose first sub-array is awake or asleep. -/
def sleepy (awake : Bool) : State :=
  (atWord .m job).modCore 0 fun k => { k with subs := (Vector.replicate 4 ⟨true, none, 0⟩).set 0 ⟨awake, none, 0⟩ }

theorem witness_MatrixEngineSteps :
    (let j := engineOf (.zero 0) false []
     j.enginesMove = true ∧ j.lme = ⟨0, 0x100, .zero 0, 0, false, false, 0⟩ :: []) ∧
    (atWord .m lmJob).gateOpen 0 = true ∧
    (match (engineOf lmmOp true []).nextStep with | .ready _ _ => true | _ => false) = true ∧
    (engineOf (.zero 0) true []).lmeOver ⟨0, 0x100, .zero 0, 0, true, false, 0⟩ = true ∧
    (match (engineOf lmmOp true [8]).nextStep with | .ue _ => true | _ => false) = true ∧ (engineOf lmmOp true [8]).enginesMove = true ∧
    -- a fill of a tile from an uncorrectable unit, in a job that runs and in one that is being frozen
    ((engineOf (.fill 0 0x1000) true [0x200]).wholeUe (.fill 0 0x1000)).isSome = true ∧
    ({ engineOf (.fill 0 0x1000) true [0x200] with victim := true }).drains = true ∧
    -- the sub-arrays of an LMM awake, and one asleep
    (∀ awake, ((List.finRange 4).all fun i => !lmmOp.subs.getLsbD i.val || (((sleepy awake).core 0).subs.get i).awake) = awake) := by
  refine ⟨⟨by decide, rfl⟩, by decide +kernel, by decide +kernel, by decide +kernel, by decide +kernel, by decide +kernel,
    by decide +kernel, by decide +kernel, by decide +kernel⟩

/-- A core that job 0 occupies, its sub-arrays idle for 4,096 cycles, or waking by cycle 60. -/
def idleCore (waking : Bool) : State :=
  (atWord .m job).modCore 0 fun k =>
    { k with normal := some 0, subs := Vector.replicate 4 (if waking then ⟨false, some 60, 0⟩ else ⟨true, none, 4096⟩) }

/-- A job that feeds from 0x1000 of the world. -/
def feeder : Job := { memJob with feeds := lmJob.feeds }

theorem witness_MatrixEngineSteps_power :
    (idleCore false).gateDue 64 0 2 (((idleCore false).core 0).subs.get 2) = true ∧
    (((idleCore true).core 0).subs.get 3).wakeAt = some 60 ∧ 60 ≤ (idleCore true).tick := by decide +kernel

theorem witness_MatrixEngineSteps_feed : ∃ q, feeder.feed 0 = some q ∧ feeder.enginesMove = true ∧ feeder.feedHeld = false ∧
    q.consumed + q.buf.length < fdLen q.desc ∧ q.buf.length + 8 ≤ 32768 ∧
    okWith ((world [part] [feeder]).agentRead (whoOf 0 feeder .m none 0) (fdAddr q.desc (q.consumed + q.buf.length)) 8 false false)
      (fun _ _ => true) = true := ⟨_, rfl, by decide, by decide, by decide +kernel, by decide, by decide +kernel⟩

/-- Shapes of L: a strided copy of 4 words with acquire and release; the same without; rows of 8 bytes by 32-bit indices, pooled. -/
def shapes : Vector (BitVec 512) 8 :=
  let ext (d : Nat) : Nat := (1 + 2 ^ 16 + d * 2 ^ 32) * 2 ^ 48
  -- [255:192]: STRIDE3 in [223:184], EXT0 and EXT1 in [255:224]; [319:256]: EXT2, EXT3, PITCH, ESZ, PATH, ACQ, REL, SCOPE
  let a := [0, 0, 0, 0x0001_0001_0000_0000, 1 + 4 * 2 ^ 16 + 3 * 2 ^ 54 + 3 * 2 ^ 60]
  let b := [0, 0, 0, 0x0001_0001_0000_0000, 1 + 4 * 2 ^ 16 + 3 * 2 ^ 54]
  -- [383:320]: IDXT 1, POOL 1, ROWSZ 8; [447:384]: BAGS 0x200; [511:448]: NBAG 1
  let c := [0, 0, 0, 0x0001_0001_0000_0000, 1 + 4 * 2 ^ 16 + 3 * 2 ^ 54, 2 ^ 4 + 2 ^ 6 + 8 * 2 ^ 12 + ext 0 * 0, 0x200 * 2 ^ 42, 1]
  (((Vector.replicate 8 0).set 0 (ofWords 512 a)).set 1 (ofWords 512 b)).set 2 (ofWords 512 c)

/-- A job of L with these shapes: `k1` a memory address, `k2` an offset, `k3` 4, `k4` 2, `k5` a CPYC descriptor, `k6` rows and a
vector, and append slot 0 bound to the region. -/
def copier : Job :=
  { memJob with
    shL := shapes, append := memJob.append.set 0 (some 0x6000)
    l := { regs with
      k := ((((((regs.k.set 1 0x1000).set 2 0x100).set 3 4).set 4 2).set 5 0x300).set 6 0x0000_0140_0000_0100).set 7 0 }
    sp := cellPutN (cellPutN [] 0x204 (leBytes 4 2)) 0x300
      (leBytes 72 (leNat ([0x0001_0001_0001_0001, 0x0000_0101_0101_0001, 0, 0, 0x100, 0, 0, 0, 1].flatMap (leBytes 8)))) }

theorem witness_CopyCommandWords :
    let s := inWorld .l copier
    let c := cur .l copier
    let v (a : Src) : Word := c.regs.src a
    let r := copier.shapeReg .l 0
    let n := (v (.k 3)).toNat
    let sp := (v (.k 2)).toNat
    let base := effBase r (v (.k 1))
    let last := elemAt r (copyElems r n - 1)
    (∀ uses, Runs s hdr uses (some (.k 8)) c copier s) ∧ s.coreInflight copier.core < 128 ∧ copier.cmds.length < 128 ∧
    (∀ out, pathCauses ⟨out, none⟩ r (v (.k 1)) = []) ∧ n ≤ shExt r 3 ∧ copier.spanOk sp (copySpan r n) = true ∧
    ownSpanBad copier r (v (.k 1)) (dispRange r n).1 ((dispRange r n).2 + shEsz r) n = false ∧ n ≠ 0 ∧
    shAcq r = true ∧ shRel r = true ∧ base.toNat % shEsz r = 0 ∧ (sp + last.2) % shEsz r = 0 ∧ sp % shEsz r = 0 ∧
    (displace base last.1).toNat % shEsz r = 0 ∧
    (v (.k 7)).toNat < 4 ∧ copier.append.get ((v (.k 7)).extractLsb' 0 2).toFin = some 0x6000 ∧
    okWith (s.apReserve (whoOf c.job copier .l none c.pc) 0x6000 (copyElems r n * shEsz r)) (fun _ x => x.isLeft) = true ∧
    pathCauses ⟨false, some causeIllegal⟩ (copier.shapeReg .l 1) (v (.k 1)) = [] ∧ shAcq (copier.shapeReg .l 1) = false ∧
    shRel (copier.shapeReg .l 1) = false := by
  refine ⟨fun _ => world_runs _ _ _ _ rfl, ?_⟩
  decide +kernel

theorem witness_CopyCommandWords_columns :
    let c := cur .l copier
    let v (a : Src) : Word := c.regs.src a
    let r := copier.shapeReg .l 0
    let n := (v (.k 5)).toNat
    let sp := (v (.k 2)).toNat
    let base := effBase r (v (.k 1))
    let head := leNat (cellGetN copier.sp n 64)
    let len := 64 + 8 * cvNops head
    let desc := (List.range (len / 8)).map fun i => (BitVec.ofNat 64 (leNat (cellGetN copier.sp (n + 8 * i) 8)) : Word)
    n % 64 = 0 ∧ copier.spanOk n 64 = true ∧ copier.spanOk n len = true ∧ unitsTouch copier.spBad n len = false ∧
    cvHeadBad head = false ∧ (cvOps desc).any cvOpBad = false ∧
    orderCauses r (match cvPixel desc (shEsz r) 0 with
      | .image x => some (displace base x).toNat
      | _ => none) (some sp) = [] ∧
    0 ≤ (cvRange desc 5).1 ∧ (cvRange desc 5).2 < cvNg head ∧ copier.spanOk sp (cvPixels desc * cvCg head * shEsz r) = true ∧
    shStrict r = false ∧ shPath r ≠ 3 := by decide +kernel

theorem witness_CopyCommandWords_sluice :
    let c := cur .l copier
    let v (a : Src) : Word := c.regs.src a
    let r := copier.shapeReg .l 2
    let x := v (.k 6)
    let n := (v (.k 4)).toNat
    let rows := (x.extractLsb' 0 22).toNat
    let vec := (x.extractLsb' 32 22).toNat
    shRowsz r ≠ 0 ∧ x &&& 0xFFC0_0000_FFC0_0000 = 0 ∧
    (∀ scat, pathCauses ⟨scat, some causeProtection⟩ r (v (.k 1)) = []) ∧ (v (.k 1)).toNat % 8 = 0 ∧ shStride r 0 % 8 = 0 ∧
    rows % 8 = 0 ∧ vec % slWidth r = 0 ∧ n < 2 ^ 24 ∧ copier.spanOk vec (n * slWidth r) = true ∧
    copier.spanOk rows (n * shRowsz r) = true ∧ copier.spanOk (shFvec r) (8 * shFvcap r) = true ∧ shNbag r = 1 ∧
    shPool r ≠ 0 ∧ copier.spanOk (shBags r) (4 * (shNbag r + 1)) = true ∧ bagsBad (bagOffsets copier r) n = false ∧
    unitsTouch copier.spBad (shBags r) (4 * (shNbag r + 1)) = false := by decide +kernel

/-- A command of `copier` in flight: of operands `a` and `x`, its work done or not. -/
def command (op : CopyOp) (sh : BitVec 3) (a x n : Word) (spent : Bool) : Cmd :=
  { Cmd.fresh (cur .l copier) 0 op (copier.shapeReg .l sh) a x n with spent := spent }
@[inherit_doc command]
def commanding (x : Cmd) : Job := { copier with cmds := [x], nextCmd := 1 }

theorem witness_CopyControlAndSteps :
    let j := { copier with sp := cellPutN [] 0x300 (leBytes 64 (shapes.get 0).toNat) }
    let at' := ((cur .l j).regs.src (.k 5)).toNat
    let busy := commanding (command .cpy 1 0x1000 0x100 4 false)
    at' % 64 = 0 ∧ j.spanOk at' 64 = true ∧ unitsTouch j.spBad at' 64 = false ∧
    shapeBad (BitVec.ofNat 512 (leNat (cellGetN j.sp at' 64))) = false ∧
    (busy.cmds.filter fun x => x.stream == .l).length ≤ ((cur .l busy).regs.src (.k 4)).toNat ∧
    (j.cmds.filter fun x => x.stream == .l).length = 0 := by decide +kernel

theorem witness_CopyControlAndSteps_runs (j : Job) (h : j ∈ [copier, commanding (command .cpy 1 0x1000 0x100 4 false)]) :
    Runs (inWorld .l j) hdr [.k 5] none (cur .l j) j (inWorld .l j) ∧ Runs (inWorld .l j) hdr [] none (cur .l j) j (inWorld .l j) ∧
    Runs (inWorld .l j) hdr [] (some (.k 8)) (cur .l j) j (inWorld .l j) := by
  have free : (j.stream .l).retireQ = [] := by
    simp only [List.mem_cons, List.not_mem_nil, or_false] at h
    rcases h with rfl | rfl <;> rfl
  exact ⟨world_runs _ _ _ _ free, world_runs _ _ _ _ free, world_runs _ _ _ _ free⟩

-- a batch that runs; a segment whose address no page maps; a copy whose work is done
theorem witness_CopyControlAndSteps_steps :
    let gath := commanding (command .gath 2 0x1000 0x0000_0140_0000_0100 2 false)
    let bad := commanding (command .cpy 1 0x1000_0000_0000 0x100 4 false)
    let ended := commanding (command .cpy 1 0x1000 0x100 4 true)
    (∃ x, gath.cmd? 0 = some x ∧ gath.enginesMove = true ∧ x.works = true ∧ gath.cmdHeld x = false ∧ x.op.isSluice = true ∧
      okWith ((world [part] [gath]).runUnit 0 gath x) (fun _ _ => true) = true) ∧
    (∃ x, ended.cmd? 0 = some x ∧ ended.enginesMove = true ∧ x.spent = true ∧ x.done = false ∧ x.stopped = false ∧
      (world [part] [ended]).prefAsks (x.who 0 ended) x = []) ∧
    ∃ x, bad.cmd? 0 = some x ∧ bad.enginesMove = true ∧ x.works = true ∧ bad.cmdHeld x = false :=
  ⟨⟨command .gath 2 0x1000 0x0000_0140_0000_0100 2 false, by decide +kernel, by decide +kernel, by decide +kernel, by decide +kernel,
      by decide +kernel, by decide +kernel⟩,
    ⟨command .cpy 1 0x1000 0x100 4 true, by decide +kernel, by decide +kernel, by decide +kernel, by decide +kernel, by decide +kernel,
      by decide +kernel⟩,
    ⟨command .cpy 1 0x1000_0000_0000 0x100 4 false, by decide +kernel, by decide +kernel, by decide +kernel, by decide +kernel⟩⟩

/-- The tables with the first page, of kind SO, in a frame of host memory. -/
def hostTables : List Host.Cell := cellPutN tables 0x30_0000 (leBytes 8 0x0000_0008_0000_3A53)

-- a walk of a job that is being frozen; a PREF of lines of host memory that the device does not hold
theorem witness_CopyControlAndSteps_walk :
    let walk := command (.pref false) 1 0x1000 0 4 true
    let j := { commanding walk with victim := true }
    j.drains = true ∧ walk.op.isWalk = true ∧
    ({ world [part] [j] with mem := hostTables, linkUp := (true, true) }.prefAsks (walk.who 0 j) walk) ≠ [] := by decide +kernel

/-- An access that faults with a cause other than 0. -/
def faultsWith {α : Type} (r : MRes α) : Bool := match r with | .fault _ c => c != 0 | _ => false

-- a copy into a page whose line is uncorrectable
theorem witness_CopyControlAndSteps_fault :
    let j := commanding (command .cpy 1 0x1000 0x100 4 false)
    faultsWith ({ world [part] [j] with memBad := [(0x8_0000_1000 / 64, 0)] }.runUnit 0 j (command .cpy 1 0x1000 0x100 4 false)) = true := by
  decide +kernel

/-! ### What the statements about the machine's own steps assume -/

/-- A timed job whose L waits to cycle 20 and has missed it; and one past its budget of 10 cycles. -/
def late : Job :=
  { job with timed := true, budget := 10, l := { regs with ring := [(0x100, 0x8500_0070_0000_0000)], stamp := 0 } }

theorem witness_StreamAndTranslationSteps_timed :
    let w : Word := 0x8500_0070_0000_0000
    late.timed = true ∧ late.phase = .running ∧ late.handler = none ∧ late.susp = none ∧ late.draining = false ∧
    (late.stream .l).atJoin = false ∧ (late.stream .l).skip = false ∧ (late.stream .l).inside = false ∧ late.jstart ≤ 64 ∧ judgedAtIssue w = false ∧
    bundleAt (late.stream .l) .l 4 (late.stream .l).pc = .inl [w] ∧ bundleIllegal .l [w] = none ∧
    Wait.ofByte (fld w 56 8) = some (.timed 5) ∧ (∃ r, applyWait (.timed 5) late 64 .l = r ∧ r = .miss) ∧ (late.stream .l).thandler ≠ 0 ∧
    late.jstart + late.budget ≤ 64 ∧ late.loop = none :=
  ⟨rfl, rfl, rfl, rfl, rfl, rfl, rfl, rfl, by decide, by decide, rfl, by decide, by decide, ⟨_, rfl, rfl⟩, by decide, by decide, rfl⟩

/-- A job whose streams all wait for a token that none will send. -/
def stuck : Job :=
  let t : StreamSt := { regs with ring := [(0x100, 0x0F00_0070_0000_0000)] }
  { job with c := t, l := t, vs := t, m := t, s := t }

theorem witness_StreamAndTranslationSteps :
    (∃ a, firstMissing regs (ringWords - 512) 0x400_0000 = some a ∧
      okWith ((world [part] [memJob]).fetchAt (whoOf 0 memJob .l none a) a) (fun _ _ => true) = true) ∧
    memJob.phase = .running ∧ (memJob.stream .l).atJoin = false ∧
    stuck.deadlocked 64 = true ∧ stuck.c.thandler ≠ 0 ∧ (0x1000 : Word).toNat / 2 ^ 56 ≤ 2 ∧
    okWith ((world [part] [memJob]).translate (whoOf 0 memJob .c none 0) 0x1000 .read) (fun _ _ => true) = true :=
  ⟨⟨_, rfl, by decide +kernel⟩, rfl, rfl, by decide +kernel, by decide, by decide, by decide +kernel⟩

/-- A suspension of job 0 on core 0 that stands in the fault queue; its job; and a partition that serves no fault itself, has a record
waiting and an invalidation under way. -/
def suspended : Job := { memJob with susp := some ⟨0x1000, .read, 3, 0, .l, 0x100, none, true⟩ }
@[inherit_doc suspended]
def serving : Part := { part with faultq := 0x60_0000, faulthead := 0, faulttail := 1, invdone := false, invctx := 5 }

theorem witness_StreamAndTranslationSteps_service :
    let s := { world [serving] [suspended] with linkUp := (true, true) }
    s.parts[0]? = some serving ∧ s.hears (.crumb 0) = true ∧ s.hears .port0 = true ∧ serving.services 0 (.crumb 0) = true ∧ serving.writable 0 .port0 = true ∧
    s.jobs[0]? = some suspended ∧ (suspended.suspAt 0 0).isSome = true ∧ suspended.phase = .running ∧
    (∀ (m : Nat) (k : Job), m ≠ 0 → s.jobs[m]? = some k → k.suspAt 0 0 = none) ∧ serving.fsvc = false ∧ s.crumbDown 0 = false ∧
    serving.faulthead ≠ serving.faulttail ∧ serving.invdone = false ∧ serving.invlen = 0 ∧ s.inFlight 0 5 = false ∧
    s.ownerOf (serving.faultq.toNat + 32 * (serving.faulthead.toNat % Config.faultQueueSize)) = some 0 ∧
    (s.hostHolds 0x60_0000 32 = false ∧ s.serviceWaits 0 (leNat (s.readPhys 0x60_0000 32)) 0x7_0001 = false) ∧
    serving.invctx.setWidth 16 = (5 : BitVec 16) ∧ s.ctxValid 0 6 = false ∧
    areaBytes * 8 * serving.stops.length ≤ s.partMem 0 ∧ s.ownerOf (serving.ctxbase.toNat + 16 * 6) = some 0 := by
  refine ⟨rfl, by decide, by decide, by decide, by decide, rfl, by decide, rfl, ?_, by decide, by decide, by decide, rfl, rfl,
    by decide +kernel, by decide +kernel, by decide +kernel, by decide, by decide +kernel, by decide +kernel, by decide +kernel⟩
  intro m k hm hk
  match m with
  | m + 1 => simp [world] at hk

-- a write to a page that an image holds: its record asks for the copy of its frames
theorem witness_StreamAndTranslationSteps_copy :
    let rec' := 3 * 2 ^ 164 + 2 * 2 ^ 162 + 5 * 2 ^ 176 + 0x1000 * 2 ^ 192
    let s := { world [serving] [suspended] with mem := cellPutN worldMem 0x60_0000 (leBytes 32 rec') }
    cellsWf s.mem = true ∧ s.ownerOf (0x8_0000 * 2 ^ 16) = some 0 ∧ s.ownerOf (0x7_0001 * 2 ^ 16) = some 0 ∧ s.crumbDown 0 = false ∧
    (∃ r ∈ s.faultRecords serving, s.copiesFrame 0 r 0x8_0000 = true) ∧ serving.holdsFrame 0x7_0001 1 = false ∧
    s.hostHolds (0x8_0000 * 2 ^ 16) (2 ^ 16) = false ∧ s.hostHolds (0x7_0001 * 2 ^ 16) (2 ^ 16) = false := by decide +kernel

/-- The result of an access of the Launch Unit: a value, or `none` for one that waits, and whether it failed. -/
def luOk {α : Type} (r : LuRes α) (p : α → Bool) : Bool := match r with | .ok _ x => p x | _ => false
@[inherit_doc luOk]
def luFails {α : Type} (r : LuRes α) : Bool := match r with | .fail _ _ => true | _ => false
@[inherit_doc luOk]
def luWaits {α : Type} (r : LuRes α) : Bool := match r with | .wait _ => true | _ => false

/-- A record of one job with PREDOK and a predecessor, number 1; the launch of it as number 2, and number 1 complete with `status`. -/
def predRecord : BitVec 2048 :=
  recordOf 0 1 ||| ofWords 2048 [0, 2 ^ 15, 0, 0, 0, 0, 0, 0, 0, 0, 0, 0, 0, 0, 0, 0, 0, 0, 0x0001_0000_0000_0001]
@[inherit_doc predRecord]
def second : Launch := { Launch.fresh 0x0001_0000_0000_0002 0 predRecord with phase := .waiting }
@[inherit_doc predRecord]
def unnumbered : Launch := { second with seqDue := true }
@[inherit_doc predRecord]
def after1 (status : BitVec 8) : Part :=
  { part with launches := [{ launchOf 0 1 with phase := .complete, status := status }, second] }

/-- The world with launch `l` alone, and with `jobs`. -/
def launched (l : Launch) (jobs : List Job) : State := world [{ part with launches := [l] }] jobs

theorem witness_LaunchSteps_consume :
    let s := { world [part] [] with mem := cellPutN worldMem (inletSlot 0x50_0000 16 0) (leBytes 256 (recordOf 0 1).toNat) }
    s.parts[0]? = some part ∧
    (part.resetting = false ∧ part.consumeAt ≤ s.tick ∧ s.inletHolds 0 0 = true ∧
    part.posted.find? (fun q => q.inlet == 0 && q.n == s.inletHead (s.inletBase 0 0)) = none ∧
    (let r : BitVec 2048 := BitVec.ofNat 2048 (leNat (s.readPhys (inletSlot 0x50_0000 16 0) 256))
     lrSeqptr r = 0 ∧ s.malformed part r 0x0001_0000_0000_0001 none = none)) := ⟨rfl, by decide +kernel⟩

theorem witness_LaunchSteps_ready :
    let prior := (List.range 4).map (lrPred predRecord)
    second.seqDue = false ∧
    ((launched unnumbered []).launch? 0 0x0001_0000_0000_0002).any (fun l => l.phase == .waiting && l.seqDue) = true ∧
    ([(0 : BitVec 8), 1].all fun st => ((world [after1 st] []).launch? 0 0x0001_0000_0000_0002).any fun l => l.phase == .waiting &&
      lrPredok l.record && lrClass l.record != 1) = true ∧ prior.any (after1 1).predFailed = true ∧
    (prior.all fun q => (after1 0).predDone q && !(after1 0).predFailed q) = true := by decide +kernel

theorem witness_LaunchSteps_admit :
    let l := launchOf 1 1
    let p := { part with launches := [l] }
    lrClass l.record = 1 ∧ ((launched l []).launch? 0 l.seq).any (fun q => q.phase == .waiting && lrClass q.record == 1) ∧
    ((List.range 4).map (lrPred l.record)).all part.predDone = true ∧ ((launched l []).admission p l.record).isSome = true ∧
    ({ launched l [] with therm := 2 }.admission p l.record).isNone = true := by decide +kernel

/-- A launch whose next team may be placed on core 0: best-effort, or timed with that core. -/
def placeable (cls : Nat) (ph : LaunchPhase) : Launch := { launchOf cls 1 with phase := ph, cores := if cls = 1 then [0] else [] }

theorem witness_LaunchSteps_dispatch : ∀ cls ∈ [0, 1], ∀ ph ∈ [LaunchPhase.ready, .running],
    let l := placeable cls ph
    let p := { part with launches := [l] }
    l.nextRun = some 0 ∧ (l.teams.any fun q => q.index == 0 && q.phase == .swapped) = false ∧ l.wants = true ∧ lrClass l.record ≠ 2 ∧
    p.heads l = true ∧ (launched l []).tick ≤ 160 ∧ (launched l []).timedStart l [0] 160 = true ∧ p.resetting = false ∧
    placementOk ((launched l []).mayTake p l) (lrProof l.record) (lrTeam l.record) [0] = true ∧
    (launched l []).rerunCoresOk p l 0 [0] = true ∧ (launched l []).l1HeldAny [0] = false ∧ luOk ((launched l []).readArgs 0 l) (fun _ => true) = true := by decide +kernel

theorem witness_LaunchSteps_record :
    let l := { launchOf 0 1 with phase := .draining }
    let lost := { l with record := l.record ||| ofWords 2048 [0, 0, 0, 0, 0, 0, 0, 0, 0, 0, 0, 0, 0, 0, 0, 0, 0, 0x1000_0000_0000] }
    let stray := { l with status := 3, record := l.record ||| ofWords 2048 [0, 0, 0, 0, 0, 0, 0, 0, 0, 0, 0, 0, 0, 0, 0, 0, 0, 1] }
    (∀ q ∈ [l, lost, stray], q.phase = .draining ∧ (launched q []).writesOut 0 q.seq = false ∧ (launched q []).drainHeld 0 = false ∧
      q.seqDue = false) ∧
    (stray.judged.status = 3 ∧ outletBad stray.judged.record = true) ∧
    ¬(l.judged.status = 3 ∧ outletBad l.judged.record = true) ∧
    luOk (((launched l []).drainLaunch 0 l.seq).postRecord 0 l.judged) Option.isSome = true ∧
    luOk (({ launched l [] with mem := cellPutN worldMem 0x8_0001_0000 (leBytes 8 16) }.drainLaunch 0 l.seq).postRecord 0 l.judged)
      Option.isNone = true ∧
    ¬(lost.judged.status = 3 ∧ outletBad lost.judged.record = true) ∧
    luFails (((launched lost []).drainLaunch 0 l.seq).postRecord 0 lost.judged) = true ∧
    -- an Outlet in host memory, which has to answer first
    luWaits (({ launched l [] with mem := cellPutN worldMem 0x30_0000 (leBytes 8 0x0000_0008_0000_3A53), linkUp := (true, true) }.drainLaunch 0
      l.seq).postRecord 0 l.judged) = true := by decide +kernel

/-- A job placed and about to start, urgent or not. -/
def placed (urgent : Bool) : Job := { memJob with phase := .loading, urgent := urgent }

theorem witness_LaunchSteps_start :
    (placed false).phase = .loading ∧ (placed false).jstart ≤ 64 ∧ (placed false).urgent = false ∧
    (let s := { atWord .c (placed true) with cursor := none }
     (placed true).phase = .loading ∧ (placed true).jstart ≤ s.tick ∧ (placed true).urgent = true ∧ 0 ∈ s.teamJobs 0 (placed true) ∧
     s.victimsStill (s.teamJobs 0 (placed true)) = true) := by decide +kernel

theorem witness_FirstWordValuesAndRecord :
    placementOk (fun _ => true) (lrProof (recordOf 0 1)) (lrTeam (recordOf 0 1)) [95] = true ∧ 0 < lrTeam (recordOf 0 1) ∧
    placementOk (fun _ => true) (lrProof (recordOf 0 2)) (lrTeam (recordOf 0 2)) [0, 95] = true ∧ 1 < lrTeam (recordOf 0 2) ∧
    lrEntry (recordOf 0 1) 0 ≠ 0xFFFF_FFFF ∧ lrEntry (recordOf 0 1) 4 = 0xFFFF_FFFF ∧
    (launchOf 0 1).start < 2 ^ 64 ∧ (launchOf 0 1).finish < 2 ^ 64 ∧ lrClass (recordOf 0 1) ≠ 2 ∧ (world [part] []).tick ≤ 65 := by
  decide +kernel

/-- A partition of a quantum of 10 cycles with a launch of two running jobs, and another that waits for cores. -/
def sharing : Part :=
  { part with
    quantum := 10
    launches := [{ launchOf 0 2 with phase := .running, nextTeam := 1, teams := [teamOf .resident] },
      { launchOf 0 1 with seq := 0x0001_0000_0000_0002, phase := .ready }] }

theorem witness_SchedulingSteps_quantum :
    let s := (List.range 8).foldl (fun t c => t.modCore c fun k => { k with normal := some (if c = 1 then 1 else 0) })
      (world [sharing] [teamed, teammate])
    ∃ l, s.launch? 0 0x0001_0000_0000_0001 = some l ∧ l.teams.find? (fun z => z.index == 0) = some (teamOf .resident) ∧
      s.sliceDue sharing l (teamOf .resident) = true ∧
      (∀ o ∈ sharing.launches, ∀ z ∈ o.teams, s.sliceDue sharing o z = true → (teamOf .resident).since ≤ z.since) :=
  ⟨_, rfl, rfl, by decide +kernel, by decide +kernel⟩

/-- A swapped team of two jobs, which waits. -/
def swappedOut : Launch := { launchOf 0 2 with phase := .running, nextTeam := 1, queue := [0], teams := [teamOf .swapped] }

theorem witness_SchedulingSteps_restore :
    let p := { part with launches := [swappedOut] }
    let s := world [p] [{ teamed with phase := .swapped }, { teammate with phase := .swapped }]
    (s.launch? 0 swappedOut.seq = some swappedOut ∧ swappedOut.teams.find? (fun z => z.index == 0) = some (teamOf .swapped)) ∧
    (teamOf .swapped).phase = .swapped ∧ swappedOut.nextRun = some 0 ∧ p.resetting = false ∧ p.heads swappedOut = true ∧ (teamOf .swapped).jobs.Nodup ∧
    (∀ n ∈ (teamOf .swapped).jobs, ((s.jobs[n]?).any fun j => j.phase == .swapped && j.pendTrap.isEmpty) = true) ∧
    placementOk (s.mayTake p swappedOut) (lrProof swappedOut.record) (teamOf .swapped).jobs.length [3, 6] = true ∧ s.l1HeldAny [3, 6] = false :=
  ⟨⟨rfl, rfl⟩, by decide +kernel⟩

theorem witness_SchedulingSteps_urgent : ∀ ph ∈ [LaunchPhase.ready, .running],
    let l := placeable 2 ph
    let p := { part with launches := [l], urgent := true }
    let s := world [p] []
    l.nextRun = some 0 ∧ p.resetting = false ∧ l.wants = true ∧ lrClass l.record = 2 ∧ p.heads l = true ∧ s.tick + 64 ≤ 128 ∧
    s.helpersFree (lrProof l.record) [0] = true ∧
    placementOk (s.mayPreempt p) (lrProof l.record) (lrTeam l.record) [0] = true ∧ s.rerunCoresOk p l 0 [0] = true ∧
    luOk (s.readArgs 0 l) (fun _ => true) = true := by decide +kernel

theorem witness_SchedulingSteps_bank :
    let l := { placeable 0 .running with record := recordOf 0 1 ||| ofWords 2048 [0, 2 ^ 7], nextTeam := 0 }
    let s := ({ launched l [{ memJob with bank := some false }] with tick := 64 }).modCore 0 fun k => { k with normal := some 0 }
    part.stops.contains (stopOf 0) = true ∧ lrBank l.record = true ∧ lrClass l.record ≠ 2 ∧ l.wants = true ∧
    (s.core 0).normal = some 0 ∧ (s.core 0).preload = none ∧ l.queue = [] ∧ l.nextRun = some (0 / lrTeam l.record) := by decide +kernel

theorem witness_SchedulingSteps_jobs :
    let due := { job with swapAt := some 64 }
    let drained := { job with draining := true }
    let s := atWord .c drained
    due.phase = .running ∧ (64 : Nat) ≤ (atWord .c due).tick ∧ drained.phase = .running ∧ (s.flushCmds 0).jobs[0]? = some drained ∧
    (s.flushCmds 0).drained 0 drained = true ∧ (s.flushCmds 0).l1HeldAny (drained.core :: drained.helpers) = false ∧ drained.loop = none := by
  decide +kernel

theorem witness_SchedulingSteps_victim :
    let j := { job with victim := true }
    let s := (atWord .c j).modCore 7 fun k => { k with normal := some 0 }
    (s.core 7).holder = some 0 ∧ j.victim = true ∧ j.pendTrap = [] ∧
      ∀ c ∈ j.core :: j.helpers, s.heldUrgent c = false ∧ s.urgentWaits c = false := by decide +kernel

theorem witness_SchedulingSteps_fusion :
    let s := (world [part] []).modCore 88 fun k => { k with fused := true }
    (11 : Nat) < 12 ∧ s.fusionWanted 11 = false ∧ (s.core (8 * 11)).fused ≠ false ∧
      s.l1HeldAny ((List.range 8).map (8 * 11 + ·)) = false := by decide +kernel

/-- A module that is ready, with both links up, DBASE 0 and the partition of `part` alone. -/
def ready' : State := { world [part] [] with linkUp := (true, true), bootstat := 0x1_0000 }

theorem witness_HostPortSteps :
    let s := { ready' with memBad := [(0x8_0000_0040 / 64, 0)] }
    s.linkIsUp false = true ∧ s.hostToDevice false 0x8_0000_0000 = some 0x8_0000_0000 ∧ s.portReaches false 0x8_0000_0000 = true ∧
    oneLine 0x8_0000_0000 64 = true ∧ oneLine 0x8_0000_003F 1 = true ∧ s.memPoisoned 0x8_0000_0000 64 = false ∧
    s.hostToDevice false 0x8_0000_0040 = some 0x8_0000_0040 ∧ s.portReaches false 0x8_0000_0040 = true ∧
    oneLine 0x8_0000_0040 64 = true ∧ s.memPoisoned 0x8_0000_0040 64 = true ∧
    -- a line that port 1 holds exclusively, and one nobody does
    s.portHolds true (lineOf 0x8_0000_0000) true = false ∧
    { s with snoop := [⟨true, lineOf 0x8_0000_0000, true⟩] }.portHolds true (lineOf 0x8_0000_0000) true = true ∧
    -- port 1 owns nothing
    s.linkIsUp true = true ∧ s.portReaches true 0x8_0000_0000 = false := by decide +kernel

theorem witness_HostPortSteps_answers :
    let r : CxlReq := ⟨true, 0, .c, 0x1000, 8, none, none, false, false, 60⟩
    let s := { ready' with cxl := [r], hostLines := [⟨true, 9, 5, 0⟩] }
    s.cxl = r :: [] ∧ s.hostLines.find? (fun (q : HostLine) => q.port == true && q.line == 9) = some ⟨true, 9, 5, 0⟩ ∧
    (s.l1Recall true 9).hostLines.find? (fun q => q.port == true && q.line == 9) = some ⟨true, 9, 5, 0⟩ ∧
    (∀ c : Fin 96, (s.cores.get c).l1 = []) ∧ r.done = false ∧ r.data = none ∧ (leBytes 8 7).length = r.bytes ∧
    -- a link that goes down with a write on its way; one that is down
    (([{ r with data := some (leBytes 8 7) }] : List CxlReq).filter fun q => q.port == true && !q.done && q.data.isSome).length = 1 ∧
    s.errTail.toNat + 1 ≤ s.errHead.toNat + Config.errLogSize ∧ (world [part] []).linkIsUp true = false :=
  ⟨rfl, rfl, rfl, by decide +kernel, rfl, rfl, by decide +kernel, by decide +kernel, by decide +kernel, rfl⟩

theorem witness_ControlSpaceSteps :
    let taken := { ready' with sems := ready'.sems.set 3 ⟨0, 1, some 60⟩ }
    ready'.hears .port0 = true ∧ ready'.hears .port1 = true ∧ ready'.hears (.crumb 0) = true ∧ (ready'.sems.get 3).holder = 0 ∧
    (taken.sems.get 3).holder = agentNum .port0 ∧ (taken.sems.get 3).holder ≠ agentNum .port1 ∧ (taken.sems.get 3).due = some 60 ∧
    60 ≤ taken.tick := by decide +kernel

theorem witness_ControlSpaceSteps_registers :
    let held := { ready' with sems := ready'.sems.set 0 ⟨0, 1, none⟩ }
    held.parts[0]? = some part ∧
    (held.holdsSem 0 .port0 = true ∧ ready'.holdsSem 0 .port0 = false ∧ ready'.holdsSem 2 .port0 = false ∧ agentReaches .port0 0 = true ∧
    agentReaches (.crumb 1) 0 = false ∧ part.writable 0 .port0 = true ∧ part.inletRst = 0 ∧
    ready'.unreadable (part.inlets.get 2).toNat 32 = false ∧ ready'.inletHeld (part.inlets.get 2).toNat = false ∧
    part.writable 0 .port1 = false ∧ (part.inlets.get 2).toNat ≠ 0 ∧ ringSizeOk (ready'.inletSize (part.inlets.get 2).toNat) = true ∧
    cellsWf ready'.mem = true ∧ ready'.blockPart part.block = some 0) := ⟨rfl, by decide +kernel⟩

/-- The partition while it is reset. -/
def resetting : Part := { part with resetting := true, outstanding := [{ launchOf 0 1 with status := 5 }] }

theorem witness_RepairSteps_partition :
    part.writable 0 .port0 = true ∧ part.writable 0 .port1 = false ∧ part.resetting = false ∧ ready'.hears .port1 = true ∧
    resetting.resetting = true ∧ ready'.ringDown = false ∧ part.stops ≠ [] ∧ resetting.stops ≠ [] := by decide

theorem witness_RepairSteps_memory :
    let s := { ready' with memBad := [(0x8_0000_0000 / 64, 0)], badLines := [0x8_0000_0000 / 64] }
    let full := { s with nextSpare := Vector.replicate 12 Config.spareFrames }
    (∃ b ∈ s.memBad, b.1 = 0x8_0000_0000 / 64) ∧ (∃ pkg : Fin 12, s.frameStop 0x8_0000 = some pkg.val) ∧ s.ownerOf (0x8_0000 * 2 ^ 16) = some 0 ∧
    s.frameFails 0x8_0000 = true ∧ s.retireHeld 0x8_0000 = false ∧ full.frameFails 0x8_0000 = true ∧ full.retireHeld 0x8_0000 = false ∧
    (∀ pkg, Config.spareFrames ≤ full.nextSpare.get pkg) ∧ s.flash.retired.contains 0x8_0000 = false ∧
    (s.flash.remap.any fun z => z.1 == 0x8_0000) = false ∧ (∀ pkg, s.nextSpare.get pkg < Config.spareFrames) := by decide +kernel

theorem witness_RepairSteps_core :
    let s := ready'.modCore 5 fun k => { k with failing := true }
    (s.core 5).failing = true ∧ (s.core 5).disabled = false ∧ (s.core 5).empty = true ∧
    s.flash.spares.get ⟨5 / 8 % 12, Nat.mod_lt _ (by decide)⟩ = 0xF ∧ s.badSpares.contains (5 / 8) = false ∧
    { s with badSpares := [0] }.badSpares.contains (5 / 8) = true ∧
    ({ s.flash.record with spares := s.flash.spares.set 0 7 }.spares.get ⟨5 / 8 % 12, Nat.mod_lt _ (by decide)⟩) ≠ 0xF := by decide +kernel

-- a link that has failed no retry, and one that has failed eight in a row
theorem witness_RepairSteps_link :
    (ready'.retriesOf 3).1 < 8 ∧ 8 ≤ ({ ready' with retries := [(3, 8, 60)] }.retriesOf 3).1 := by decide

/-- A mailbox command under way, of number `cmd`, with the status of a check that failed at its start. -/
def mailed (cmd fail : BitVec 8) : FwBusy := ⟨cmd, none, .port0, 0x8_0000_0000, fail, 2, 9, [], []⟩

theorem witness_MailboxSteps :
    let s := { ready' with sems := ready'.sems.set 1 ⟨0, 1, none⟩, fwbuf := 0x8_0000_0000 }
    s.hears .port0 = true ∧ s.holdsSem 1 .port0 = true ∧ s.fwbusy = none ∧
    (∀ n ∈ [16, 256, 4096, 4397], s.mayUse .port0 s.fwbuf.toNat n = true ∧ s.hostHolds s.fwbuf.toNat n = false) ∧
    { s with fwbuf := 0x1000_0000_0000 }.mayUse .port0 0x1000_0000_0000 16 = false ∧ s.seed = none ∧ s.memPoisoned 0x8_0000_0000 32 = false ∧
    (∀ cmd ∈ [1, 2, 3], s.fwWaits (mailed cmd 0) = false) ∧
    { s with snoop := [⟨false, 0x8_0000_0000 / 64, true⟩] }.fwWaits (mailed 2 0) = true ∧
    (mailed 1 0).cmd = 1 ∧ (mailed 1 0).fail = 0 ∧ (mailed 1 0).kind = (1 : Fin 3).val + 1 ∧ (mailed 2 7).fail ≠ 0 ∧ (mailed 4 0).cmd = 4 := by
  decide +kernel

/-- A module in thermal state `n` whose hottest sensor reads `temp` degrees, all below 100 since cycle 0 or not; and one whose core 3 holds
a timed job. -/
def warm (n : Word) (temp : Nat) : State :=
  { ready' with
    therm := n, tick := 23000000
    sensors := ⟨(Vector.replicate 12 0).set 4 (8 * temp), if temp < 100 then some 0 else none, if 115 ≤ temp then some 25300000 else none⟩ }
@[inherit_doc warm]
def timedHeld : State :=
  (world [part] [{ memJob with timed := true }]).modCore 3 fun k => { k with normal := some 0, gate := 8 }

theorem witness_PowerSteps : ready'.parts[0]? = some part ∧ State.reset.powered = false := ⟨rfl, rfl⟩

theorem witness_PowerSteps_powered : (warm 0 20).powered = true := by decide +kernel

theorem witness_PowerSteps_states :
    ∀ n ∈ [(0 : Word), 1, 2], ∀ temp, (warm n temp).therm.extractLsb' 0 2 = n.setWidth 2 :=
  fun n hn temp => by
    simp only [List.mem_cons, List.not_mem_nil, or_false] at hn
    rcases hn with rfl | rfl | rfl <;> rfl

theorem witness_PowerSteps_temperatures :
    (∀ temp ∈ [20, 91], (warm 0 temp).hottest < 8 * 92) ∧ 8 * 95 ≤ (warm 0 95).hottest ∧ 8 * 105 ≤ (warm 0 105).hottest := by decide +kernel

theorem witness_PowerSteps_sensors :
    (warm 2 99).sensors.coolSince = some 0 ∧ 0 + 23_000_000 ≤ (warm 2 99).tick ∧ (warm 2 100).sensors.coolSince = none ∧
    (warm 2 115).sensors.tripBy = some 25300000 ∧ (warm 2 114).sensors.tripBy = none ∧ (warm 2 115).tick < 25300000 ∧
    25300000 ≤ { warm 2 115 with tick := 25300000 }.tick := by decide +kernel

/-- A bring-up in phase `n`, which fails with `code`, or, in phase 6, finds the record replaced. -/
def rising (n : Word) (code : BitVec 8) (replaced : Bool) : State :=
  { world [] [] with bootstat := n, bringUp := some ⟨code, [], replaced⟩ }

theorem witness_PowerSteps_bringUp :
    State.reset.flash.damaged = false ∧ State.reset.flash.crustOk = true ∧ (0xFF : BitVec 8) ≠ 0 ∧ (0xFF : BitVec 8) ≠ 4 ∧
    { State.reset.flash with damaged := true }.crustOk = true ∧ { State.reset.flash with crust := some [] }.crustOk = false ∧
    (∀ n code, (rising n code false).bringUp = some ⟨code, [], false⟩ ∧ (rising n code false).bootstat = n) ∧
    (rising 6 0 false).flash.layout ≠ [] ∧ (rising 6 0 false).errTail = 0 ∧ (rising 6 0 false).errHead = 0 ∧
    (rising 6 0 false).flash.tripped = false ∧ { (rising 6 0 false).flash with tripped := true }.tripped = true :=
  ⟨rfl, by decide +kernel, by decide, by decide, by decide +kernel, by decide +kernel, fun _ _ => ⟨rfl, rfl⟩, by decide +kernel, rfl, rfl, rfl, rfl⟩

theorem witness_PowerSteps_timed : timedHeld.timedCore 3 = true ∧ timedHeld.timedCore 4 = false := by decide +kernel

-- bring-up from the state after reset: the links are up in phase 4, and the module is not yet ready
theorem test_power_on : (match step State.reset with | .next t => t.linkIsUp true && decide (t.bootstat = 4) && !t.ready | _ => false) = true := by
  decide +kernel

-- R67: under `clamp=sat` the sum 100 + 100 of s8 lanes is 127, and without it −56
theorem test_clamp_sat :
    let j := { job with v := (job.v.set 1 100).set 2 100 }
    let s := { atWord .v j with cursor := some { cur .v j with vmod := some ⟨0, 0, .sat, 0, none⟩ } }
    (after (exec (.viadd vhdr 3 1 2 .s8) s) fun k => lane (k.vreg 3) 8 0) = some 127 ∧
    (after (exec (.viadd vhdr 3 1 2 .s8) (atWord .v j)) fun k => lane (k.vreg 3) 8 0) = some 200 := by decide +kernel

end Sys2Proof.Tests
end

section
/-! SUPPORT. What a step comes to by the first turn of the agenda: an offer to V, by what the bundle at its PC is; an engine's turn;
two turns made as one. -/

namespace Sys2Proof.Machine

/-! ### The turn a step takes -/

theorem step_of_agenda {s : State} {u : Turn} {rest : List Turn} (h : s.agenda = u :: rest) :
    step s = runTurn u { s with agenda := rest } := by
  unfold step stepTurn
  rw [h]

theorem step_of_agenda_nil {s : State} (h : s.agenda = []) : step s = exec .tickAdvance s := by
  unfold step stepTurn
  rw [h]

/-- A turn put before what a state's agenda holds is the turn made in that state. -/
theorem step_turn_first {s : State} {rest : List Turn} (u : Turn) (h : s.agenda = rest) :
    step { s with agenda := u :: rest } = runTurn u s := by
  subst h; rfl

/-! ### An offer to a stream -/

/-- Where an offer has words run, the turn is the run of those words, and what follows an issue. -/
theorem issueTurn_run {s s1 : State} {n : Nat} {x : StreamId} {slot : Option Nat} {ws : List Instr}
    (h : s.tryIssue n x slot = .run s1 ws) :
    issueTurn n x slot s =
      (match runWords ws s1 with
       | .next t => .next (precedence n x s ((t.close Sig.zero).afterIssue n slot (s.bundleOf n x)))
       | .fault r => .fault r
       | .refused r => .refused r) := by
  unfold issueTurn offer
  simp only [h]
  cases runWords ws s1 <;> rfl

/-- Where nothing issues, what is complete retires all the same. -/
theorem issueTurn_idle {s s1 : State} {n : Nat} {x : StreamId} {slot : Option Nat} (h : s.tryIssue n x slot = .idle s1) :
    issueTurn n x slot s = .next (precedence n x s ((s1.settle n).tryRetire n)) := by
  unfold issueTurn offer
  simp only [h]

section VBundle

variable {s : State} {n : Nat} {j : Job} {ws : List Word}

/-- A stream's own words are in no proof slot, so GLIM ends no guess at them. -/
theorem guessEnds_stream (j : Job) (w : Word) : guessEnds j none w = false := rfl

/-- What an offer to V comes to, where V may issue and the ring holds the bundle `ws` at its PC: the first word illegal by itself
decides, then the interlock. -/
theorem tryIssue_v (job : s.jobs[n]? = some j) (may : mayIssue s j .v none = true) (skip : j.vs.skip = false)
    (ring : bundleAt j.vs .v 4 j.vs.pc = .inl ws) :
    s.tryIssue n .v none =
      let c := Cursor.start n .v none j ws.length
      match bundleIllegal .v ws with
      | some 0 => .idle (s.raiseAt c ⟨causeIllegal, j.vs.pc, 0, 0⟩)
      | some (k + 1) => .run { s with cursor := some (c.illegalAt (k + 1)) } ((ws.take (k + 1)).filterMap (decode .v))
      | none =>
        if s.interlocked j .v ws && !j.vs.inside then
          if j.timed && j.targetCome s.tick .v (ws.headD 0) then .run { s with cursor := some c.missed } (ws.filterMap (decode .v))
          else .idle s
        else
          .run { s with cursor := some { c with done := bundleDone j (preciseOf j.vs.fpctl) s.tick (bundlePairs .v ws) } }
            (ws.filterMap (decode .v)) := by
  have regs : j.regs .v none = j.vs := rfl
  unfold State.tryIssue
  rcases legal : bundleIllegal .v ws with _ | _ | k <;>
    simp only [job, may, regs, ring, skip, legal, guessEnds_stream, Bool.not_true, Bool.false_eq_true, if_false, if_true]

end VBundle

/-! ### An engine's turn -/

theorem isStep_of_encode_none {i : Instr} (h : encode i = none) : isStep i = true := by
  simp [isStep, h]

/-- A step of an engine or an agent is its instruction; only a stream's SCHEDULE_MISS may give way. -/
theorem eventTurn_eq_exec {i : Instr} (h : ∀ n x, i ≠ .timedTargetMiss n x) (s : State) : eventTurn i s = exec i s := by
  unfold eventTurn
  cases exec i s with
  | next t =>
    cases i with
    | timedTargetMiss n x => exact absurd rfl (h n x)
    | _ => rfl
  | fault r | refused r => rfl

theorem eventTurn_timedTargetMiss {n : Nat} {x : StreamId} {s t : State} (h : exec (.timedTargetMiss n x) s = .next t) :
    eventTurn (.timedTargetMiss n x) s = .next (precedence n x s t) := by
  unfold eventTurn
  rw [h]

/-! ### Two turns as one -/

section Amid

variable {s r m t : State} {u v : Turn} {units : List Nat}

theorem runTurn_both (h : runTurn u s = .next r) : runTurn (.both u v) s = runTurn v r := by
  rw [runTurn, h]

/-- A turn that could not be made before the other is not made at all. -/
theorem runTurn_amid_unmade (first : runTurn u s = .next r) (made : u.made s r = false) :
    runTurn (.amid u units v) s = .next s := by
  rw [runTurn, first]
  simp [made]

/-- A reader: the listed units are read before the other turn, the rest after it. -/
theorem runTurn_amid_reader (first : runTurn u s = .next r) (made : u.made s r = true) (reads : s.readsByUnit u = true)
    (other : runTurn v s = .next m) (last : runTurn u (State.mixOwn units m s) = .next t) (stands : u.stands s m = true)
    (madeLast : u.made m t = true) : runTurn (.amid u units v) s = .next (State.ownOf t m) := by
  rw [runTurn, first]
  simp [made, reads, other, last, stands, madeLast]

/-- A writer: the listed units are written before the other turn, the rest after it. -/
theorem runTurn_amid_writer (first : runTurn u s = .next r) (made : u.made s r = true) (reads : s.readsByUnit u = false)
    (writes : s.writesByUnit u = true) (other : runTurn v (State.mixAll units s r) = .next m) (last : runTurn u m = .next t)
    (stands : u.stands s m = true) (madeLast : u.made m t = true) (kept : linesKept units (State.mixAll units s r) m = true)
    (keptLast : linesKept units m t = true) : runTurn (.amid u units v) s = .next (State.mixAll units t m) := by
  rw [runTurn, first]
  simp [made, reads, writes, other, last, stands, madeLast, kept, keptLast]

/-- A turn that neither reads nor writes by units has nothing in its midst. -/
theorem runTurn_amid_neither (first : runTurn u s = .next r) (reads : s.readsByUnit u = false) (writes : s.writesByUnit u = false) :
    runTurn (.amid u units v) s = .next s := by
  rw [runTurn, first]
  simp [reads, writes]

end Amid

/-- Settles O5: a step is the turn at the head of the agenda, and an offer to V comes to what its bundle and the interlock say. -/
theorem stepRunsBundlesAndTurns : Obligations.StepRunsBundlesAndTurns := by
  unfold Obligations.StepRunsBundlesAndTurns
  refine ⟨?bundle, ?engine, ?miss, ?both, ?amid, ?unmade, fun s h => step_of_agenda_nil h⟩
  case bundle =>
    intro s n rest j ws agenda job may skip ring u c held late runs
    have offered := tryIssue_v (s := u) job may skip ring
    have runs_of {l : List Instr} {k : Cursor} (h : u.tryIssue n .v none = .run { u with cursor := some k } l) : runs l k :=
      (step_of_agenda agenda).trans (issueTurn_run h)
    refine ⟨fun legal => ?legal, fun k illegal => runs_of ?illegal⟩
    case legal =>
      rw [legal] at offered
      refine ⟨fun free => runs_of (offered.trans ?_), fun holds inTime => ?_, fun holds missed => runs_of (offered.trans ?_)⟩
      · exact if_neg (Bool.eq_false_iff.1 free)
      · have idle : u.tryIssue n .v none = .idle u := offered.trans ((if_pos holds).trans (if_neg (Bool.eq_false_iff.1 inTime)))
        exact (step_of_agenda agenda).trans (issueTurn_idle idle)
      · exact (if_pos holds).trans (if_pos missed)
    case illegal =>
      rw [offered, illegal]
  case engine =>
    intro s i rest agenda step other
    rw [step_of_agenda agenda, ← eventTurn_eq_exec other]
    simp only [runTurn, isStep_of_encode_none step, if_true]
  case miss =>
    intro s t n x rest agenda missed
    rw [step_of_agenda agenda, ← eventTurn_timedTargetMiss missed]
    rfl
  case both =>
    intro s r u v rest agenda first left
    rw [step_of_agenda agenda, runTurn_both first, step_turn_first v left]
  case amid =>
    intro s r m t u v units rest a agenda first made left
    refine ⟨?reader, ?writer, ?neither⟩
    case reader =>
      intro reads other last stands madeLast
      rw [step_turn_first u (s := State.mixOwn units m a) left] at last
      exact (step_of_agenda agenda).trans (runTurn_amid_reader first made reads other last stands madeLast)
    case writer =>
      intro reads writes mid other last stands madeLast kept keptLast
      rw [step_turn_first u left] at last
      exact (step_of_agenda agenda).trans (runTurn_amid_writer first made reads writes other last stands madeLast kept keptLast)
    case neither =>
      intro reads writes
      exact (step_of_agenda agenda).trans (runTurn_amid_neither first reads writes)
  case unmade =>
    intro s r u v units rest agenda first made
    exact (step_of_agenda agenda).trans (runTurn_amid_unmade first made)

end Sys2Proof.Machine
end

section
/-! SUPPORT. What a record in the error log, a new partition, a substituted core and a job's start leave of the state, and the issue
gates as one function of their old settings. -/

namespace Sys2Proof.Machine

/-! ### A record in the error log -/

@[simp] theorem State.logError_tick (s : State) (r : ErrRec) : (s.logError r).tick = s.tick := (logError_accessed s r).tick
@[simp] theorem State.logError_jobs (s : State) (r : ErrRec) : (s.logError r).jobs = s.jobs := (logError_accessed s r).jobs
@[simp] theorem State.logError_parts (s : State) (r : ErrRec) : (s.logError r).parts = s.parts := (logError_accessed s r).parts
@[simp] theorem State.logError_flash (s : State) (r : ErrRec) : (s.logError r).flash = s.flash := by
  unfold State.logError; split <;> simp
@[simp] theorem State.logError_bootstat (s : State) (r : ErrRec) : (s.logError r).bootstat = s.bootstat := by
  unfold State.logError; split <;> simp
@[simp] theorem State.logError_bringUp (s : State) (r : ErrRec) : (s.logError r).bringUp = s.bringUp := by
  unfold State.logError; split <;> simp

/-- The first record of an empty log stands at its base (R415). -/
theorem State.logError_first {s : State} (r : ErrRec) (tail : s.errTail = 0) (head : s.errHead = 0) :
    (s.logError r).errTail = 1 ∧
      (s.logError r).mem = (s.writePhys s.errBase (errBytes r (s.correctedAt r.unit r.place) s.tick)).mem := by
  have room : ¬ s.errTail.toNat - s.errHead.toNat = Config.errLogSize := by simp [tail, head, Config.errLogSize]
  unfold State.logError
  rw [if_neg room]
  simp [tail]

/-! ### Plain updates -/

@[simp] theorem State.modCore_tick (s : State) (c : Nat) (f : Core → Core) : (s.modCore c f).tick = s.tick :=
  (modCore_accessed s c f).tick
@[simp] theorem State.modCore_bringUp (s : State) (c : Nat) (f : Core → Core) : (s.modCore c f).bringUp = s.bringUp := by
  unfold State.modCore; split <;> rfl
@[simp] theorem State.modPart_tick (s : State) (p : Nat) (f : Part → Part) : (s.modPart p f).tick = s.tick := by
  unfold State.modPart; split <;> rfl
@[simp] theorem State.modPart_bringUp (s : State) (p : Nat) (f : Part → Part) : (s.modPart p f).bringUp = s.bringUp := by
  unfold State.modPart; split <;> rfl
@[simp] theorem State.modJob_tick (s : State) (n : Nat) (f : Job → Job) : (s.modJob n f).tick = s.tick := by
  unfold State.modJob; split <;> rfl
@[simp] theorem State.setRecord_bringUp (s : State) (r : Record) : (s.setRecord r).bringUp = s.bringUp := rfl

/-! ### Phases of a bring-up (R434) -/

/-- A field that no element's step changes is as it was after all of them. -/
theorem State.foldl_keeps {α β : Type} (field : State → β) (f : State → α → State) (h : ∀ t a, field (f t a) = field t)
    (l : List α) (s : State) : field (l.foldl f s) = field s :=
  List.foldlRecOn (motive := fun t => field t = field s) l f rfl fun t kept a _ => (h t a).trans kept

theorem State.writeBackLine_bringUp (s : State) (l : L1Line) : (s.writeBackLine l).bringUp = s.bringUp := by
  unfold State.writeBackLine
  split
  · rfl
  · split
    · rfl
    · exact State.foldl_keeps State.bringUp _ (fun t i => by split <;> rfl) _ s

theorem State.l1Flush_bringUp (s : State) (core : Nat) : (s.l1Flush core).bringUp = s.bringUp := by
  unfold State.l1Flush
  rw [State.modCore_bringUp]
  exact State.foldl_keeps State.bringUp _ State.writeBackLine_bringUp _ s

theorem State.dropUnfit_bringUp (s : State) (part : Nat) : (s.dropUnfit part).bringUp = s.bringUp := by
  unfold State.dropUnfit
  split
  · rfl
  · exact State.modPart_bringUp ..

theorem execSpareCoreSubstitute_bringUp (core : Nat) (s : State) :
    (stateOf s (execSpareCoreSubstitute core s)).bringUp = s.bringUp := by
  unfold execSpareCoreSubstitute
  simp only [stateOf]
  split
  · rfl
  · split
    · split
      · simp [State.l1Flush_bringUp]
      · split <;> simp [State.l1Flush_bringUp, State.dropUnfit_bringUp]
    · rfl

/-- A core or spare that fails its scan test does not end a bring-up. -/
theorem State.scanFail_bringUp (s : State) (core : Nat) : (s.scanFail core).bringUp = s.bringUp := by
  have fails (c : Nat) (f : Core → Core) :
      (stateOf s (execSpareCoreSubstitute c (s.modCore c f))).bringUp = s.bringUp :=
    (execSpareCoreSubstitute_bringUp c (s.modCore c f)).trans (State.modCore_bringUp ..)
  unfold State.scanFail
  dsimp only
  split
  · exact fails ..
  · split
    · split
      · exact State.logError_bringUp ..
      · exact fails ..
    · rfl

/-- A partition as a bring-up leaves it: new, serving, with its epoch (R335, R434). -/
def Part.broughtUp (q : List Nat × Bool) (epoch : BitVec 16) : Part :=
  { Part.create q.1 q.2 with resetting := false, epoch := epoch }

/-- The partitions of a layout come after those there are, each with the next epoch; besides them only the Crumbs' measurements and
the epoch counter change. -/
theorem State.createParts_eq (lay : List (List Nat × Bool)) (s : State) :
    ∃ crumbs, State.createParts lay s = { s with
      parts := s.parts ++ lay.mapIdx fun i q => Part.broughtUp q (s.flash.epoch + BitVec.ofNat 16 (i + 1))
      flash := { s.flash with epoch := s.flash.epoch + BitVec.ofNat 16 lay.length }
      crumbs := crumbs } := by
  induction lay generalizing s with
  | nil => exact ⟨s.crumbs, by simp [State.createParts]⟩
  | cons q lay ih =>
    have next (i : Nat) : s.flash.epoch + 1#16 + BitVec.ofNat 16 i = s.flash.epoch + BitVec.ofNat 16 (i + 1) := by
      rw [BitVec.add_assoc, Nat.add_comm i 1, BitVec.ofNat_add]
    obtain ⟨crumbs, eq⟩ := ih _
    refine ⟨crumbs, eq.trans ?_⟩
    simp [State.nextEpoch, next, List.mapIdx_cons, Part.broughtUp]

/-- The state in which phase 7 has what is to be logged written. -/
def State.risen (s : State) : State :=
  State.createParts s.flash.layout { s with
    capblock := capBlock, bootstat := 0x1_0007, bringUp := none, flash := { s.flash with tripped := false } }

theorem State.risen_eq (s : State) :
    ∃ crumbs, s.risen = { s with
      capblock := capBlock, bootstat := 0x1_0007, bringUp := none, crumbs := crumbs
      parts := s.parts ++ s.flash.layout.mapIdx fun i q => Part.broughtUp q (s.flash.epoch + BitVec.ofNat 16 (i + 1))
      flash := { s.flash with tripped := false, epoch := s.flash.epoch + BitVec.ofNat 16 s.flash.layout.length } } :=
  State.createParts_eq ..

/-- What logging does not touch stands after phase 7 as before the log is written. -/
theorem State.phaseSeven_keeps {β : Type} (field : State → β) (log : ∀ t r, field (t.logError r) = field t)
    (free : ∀ (t : State) n, field { t with free := n } = field t) (s : State) (replaced : Bool) :
    field (s.phaseSeven replaced) = field s.risen := by
  unfold State.phaseSeven
  cases replaced <;> cases s.flash.tripped <;> simp [log, free, State.risen]

/-- With the record sound and no trip noted, phase 7 logs nothing. -/
theorem State.phaseSeven_unlogged {s : State} (calm : s.flash.tripped = false) : s.phaseSeven false = s.risen := by
  simp [State.phaseSeven, State.risen, calm]

/-- A trip that flash has noted is logged (R437). -/
theorem State.phaseSeven_tripped {s : State} (tripped : s.flash.tripped = true) :
    s.phaseSeven false = s.risen.logError { ErrRec.blank with kind := 0xD } := by
  simp [State.phaseSeven, State.risen, tripped]

/-- Phase 6 comes after the scan, whatever it found. -/
theorem State.nextPhase_scan {s : State} {b : BringUp} (rising : s.bringUp = some b) (five : s.bootstat = 5) :
    s.nextPhase =
      { (b.bad.filter (96 ≤ ·) ++ b.bad.filter (· < 96)).foldl State.scanFail s with bootstat := 6 } := by
  simp [State.nextPhase, rising, five]

theorem State.nextPhase_ready {s : State} {b : BringUp} (rising : s.bringUp = some b) (six : s.bootstat = 6) :
    s.nextPhase = s.phaseSeven b.replaced := by
  simp [State.nextPhase, rising, six]

/-- With rails, Crust and record in order, power brings up the first phases. -/
theorem execPowerOn_rises {s : State} {fail : BitVec 8} (bad : List Nat) (off : s.powered = false) (crust : s.flash.crustOk = true)
    (sound : fail = 0 ∨ fail = 4) : execPowerOn fail bad s = .next (s.phaseFour fail bad) := by
  rcases sound with rfl | rfl <;> simp [execPowerOn, off, crust]

/-! ### Issue gates (R436, R437) -/

/-- The state with each core's D a function of the core and of the D it had. -/
def State.setGates (s : State) (f : Fin 96 → Nat → Nat) : State :=
  { s with cores := Vector.ofFn fun c : Fin 96 => { s.cores.get c with gate := f c (s.cores.get c).gate } }

theorem State.setGates_self {s : State} {f : Fin 96 → Nat → Nat} (same : ∀ c g, f c g = g) : s.setGates f = s := by
  have cores : (Vector.ofFn fun c : Fin 96 => { s.cores.get c with gate := f c (s.cores.get c).gate }) = s.cores := by
    ext c h
    simp [same, Vector.get_eq_getElem]
  unfold State.setGates
  rw [cores]

theorem State.setGates_setGates (s : State) (f g : Fin 96 → Nat → Nat) :
    (s.setGates f).setGates g = s.setGates fun c d => g c (f c d) := by
  simp [State.setGates, Vector.get_eq_getElem]

theorem State.modCore_gate (s : State) (n d : Nat) :
    (s.modCore n fun k => { k with gate := d }) = s.setGates fun c g => if n = c.val then d else g := by
  by_cases lt : n < 96
  · have cores : s.cores.set n { s.cores[n] with gate := d } =
        Vector.ofFn fun c : Fin 96 => { s.cores.get c with gate := if n = c.val then d else (s.cores.get c).gate } := by
      ext c h
      by_cases at_n : n = c
      · subst at_n; simp [Vector.get_eq_getElem]
      · simp [at_n, Vector.get_eq_getElem]
    unfold State.modCore State.setGates
    rw [dif_pos lt, cores]
  · unfold State.modCore
    rw [dif_neg lt]
    exact (State.setGates_self fun c g => if_neg (by omega)).symm

/-- No gate says what a core holds. -/
theorem State.setGates_timedCore (s : State) (f : Fin 96 → Nat → Nat) (c : Nat) : (s.setGates f).timedCore c = s.timedCore c := by
  have holder : ((s.setGates f).core c).holder = (s.core c).holder := by
    unfold State.core
    split
    · simp [State.setGates, Core.holder, Vector.get_eq_getElem]
    · rfl
  have jobs : (s.setGates f).jobs = s.jobs := by simp only [State.setGates]
  simp only [State.timedCore, holder, jobs]

/-- Cores with a timed job are open, and the others keep their D. -/
theorem State.openTimed_eq (s : State) : s.openTimed = s.setGates fun c g => if s.timedCore c.val then 16 else g := by
  have upTo (n : Nat) : (List.range n).foldl (fun t c => if s.timedCore c then t.modCore c fun k => { k with gate := 16 } else t) s =
      s.setGates fun c g => if c.val < n ∧ s.timedCore c.val = true then 16 else g := by
    induction n with
    | zero => exact (State.setGates_self fun c g => if_neg (by omega)).symm
    | succ n ih =>
      rw [List.range_succ, List.foldl_append, ih]
      simp only [List.foldl_cons, List.foldl_nil]
      have below (c : Fin 96) : c.val < n + 1 ↔ c.val < n ∨ n = c.val := by omega
      split
      case isTrue timed =>
        rw [State.modCore_gate, State.setGates_setGates]
        congr 1; funext c g
        by_cases at_n : n = c.val
        · rw [at_n] at timed; simp [at_n, timed]
        · simp [below, at_n]
      case isFalse free =>
        congr 1; funext c g
        by_cases at_n : n = c.val
        · rw [at_n] at free; simp [at_n, free]
        · simp [below, at_n]
  unfold State.openTimed
  rw [upTo]
  congr 1; funext c g
  simp only [c.isLt, true_and]

/-- The last D asked for of each core is in force; a pair that `ok` refuses asks for none. -/
theorem State.foldl_gates (ok : Nat × Nat → Prop) [DecidablePred ok] (gates : List (Nat × Nat)) (s : State) :
    gates.foldl (fun t g => if ok g then t.modCore g.1 fun k => { k with gate := g.2 } else t) s =
      s.setGates fun c d => (((gates.filter fun g => decide (g.1 = c.val) && decide (ok g)).getLast?).map Prod.snd).getD d := by
  induction gates using List.reverseRecOn with
  | nil => exact (State.setGates_self fun c g => rfl).symm
  | append_singleton gates g ih =>
    rw [List.foldl_append, ih]
    simp only [List.foldl_cons, List.foldl_nil]
    split
    case isTrue asks =>
      rw [State.modCore_gate, State.setGates_setGates]
      congr 1; funext c d
      by_cases named : g.1 = c.val <;> simp [named, asks]
    case isFalse refused => simp [refused]

/-! ### Thermal states (R437, R438) -/

theorem Launch.heated_eq (l : Launch) :
    l.heated = if l.admitted.isSome = true ∧ (l.phase = .ready ∨ l.phase = .running) then { l with voided := true } else l := by
  simp [Launch.heated]

/-- A warning begins with power on, from the normal state, at 95 °C. -/
theorem execThermalWarningEnter_eq (s : State) :
    execThermalWarningEnter s = .next (if s.powered = true ∧ s.heat = 0 ∧ 8 * 95 ≤ s.hottest then s.setHeat 1 else s) := by
  simp [execThermalWarningEnter, and_assoc]

/-- A warning ends with every sensor below 92 °C. -/
theorem execThermalWarningExit_eq (s : State) :
    execThermalWarningExit s = .next (if s.heat = 1 ∧ s.hottest < 8 * 92 then s.setHeat 0 else s) := by
  simp [execThermalWarningExit]

/-- An emergency begins from either other state, at 105 °C. -/
theorem execThermalEmergencyEnter_eq (s : State) :
    execThermalEmergencyEnter s = .next (if s.powered = true ∧ s.heat ≠ 2 ∧ 8 * 105 ≤ s.hottest then
      ({ s with
        therm := BitVec.ofNat 64 (2 + 256 * min 255 ((s.therm.extractLsb' 8 8).toNat + 1))
        cores := s.cores.map fun (k : Core) => { k with gate := 8 }
        parts := s.parts.map fun (p : Part) => { p with launches := p.launches.map Launch.heated } } : State).logError
          { ErrRec.blank with kind := 0xE }
      else s) := by
  have stays : (!s.powered || s.heat == 2 || decide (s.hottest < 8 * 105)) = true ↔
      ¬(s.powered = true ∧ s.heat ≠ 2 ∧ 8 * 105 ≤ s.hottest) := by
    simp [or_assoc, imp_iff_not_or]
  simp only [execThermalEmergencyEnter, stays, ite_not, Nat.mul_comm 256]

/-- An emergency is over with every sensor below 100 °C for 10 ms. -/
theorem execThermalEmergencyExit_eq (s : State) :
    execThermalEmergencyExit s = .next
      (if s.heat = 2 ∧ ∃ since, s.sensors.coolSince = some since ∧ since + coolCycles ≤ s.tick then (s.setHeat 1).openTimed
       else s) := by
  unfold execThermalEmergencyExit
  cases s.sensors.coolSince <;> simp

/-- Outside an emergency the last D asked for of each core is in force, but for the cores that keep theirs. -/
theorem execIssueGateUpdate_eq (gates : List (Nat × Nat)) (s : State) :
    execIssueGateUpdate gates s = .next (if s.heat = 2 then s else s.setGates fun c d =>
      if s.timedCore c.val then 16 else
        (((gates.filter fun g => decide (g.1 = c.val) && decide (1 ≤ g.2 ∧ g.2 ≤ 16 ∧ s.gateHeld g.1 = false)).getLast?).map
          Prod.snd).getD d) := by
  simp only [execIssueGateUpdate, beq_iff_eq, State.openTimed_eq, State.setGates_setGates, State.setGates_timedCore,
    State.foldl_gates fun g : Nat × Nat => 1 ≤ g.2 ∧ g.2 ≤ 16 ∧ s.gateHeld g.1 = false]

/-- A sample of a partition is taken whole, with the temperature its sensors read. -/
theorem execTelemetryRefresh_eq {s : State} {part : Nat} {p : Part} (at_part : s.parts[part]? = some p) (pw temp mp : Word) :
    execTelemetryRefresh part pw temp mp s = .next (if s.powered = true ∧ temp = BitVec.ofNat 64 (s.partTemp p) then
      { s with modpwr := mp, parts := s.parts.set part { p with pwrnow := pw, tempmax := temp } } else s) := by
  simp [execTelemetryRefresh, State.modPart, at_part]

/-- Where a trip is due, flash notes it and power goes (R437). -/
theorem execThermalTrip_due {s : State} (power : s.powered = true) (due : s.sensors.tripBy ≠ none) :
    execThermalTrip s = .next { s with flash := { s.flash with tripped := true } }.dark := by
  simp [execThermalTrip, power, Option.isSome_iff_ne_none, due]

theorem execThermalTrip_not_due {s : State} (h : s.powered = false ∨ s.sensors.tripBy = none) : execThermalTrip s = .next s := by
  rcases h with off | untripped
  · simp [execThermalTrip, off]
  · simp [execThermalTrip, untripped]

/-! ### A cycle passes (R9) -/

theorem State.begins_tick (s : State) (n : Nat) : (s.begins n).tick = s.tick := by
  unfold State.begins
  split
  · rfl
  · exact State.modCore_tick ..

theorem execJobStart_tick (n : Nat) (s : State) : (stateOf s (execJobStart n s)).tick = s.tick := by
  unfold execJobStart State.modLaunch
  simp only [stateOf]
  split
  · rfl
  · split
    · rfl
    · split
      · simp [State.begins_tick]
      · split
        · rfl
        · rw [State.modPart_tick]
          exact State.foldl_keeps State.tick _ (fun t i => by rw [State.begins_tick, State.modJob_tick]) _ s

theorem State.startDue_tick (s : State) : s.startDue.tick = s.tick :=
  State.foldl_keeps State.tick _ (fun t n => execJobStart_tick n t) _ s

/-- Where the time for a trip has not come, a cycle passes: what falls due in it happens, and TICK moves by one. -/
theorem execTickAdvance_on {s : State} (on : s.powered = true) (early : ∀ due, s.sensors.tripBy = some due → s.tick < due) :
    execTickAdvance s = .next (State.startDue { s.fallDue with tick := s.tick + 1 }) := by
  have notDue : s.tripDue = false := by
    unfold State.tripDue
    split
    case h_1 due at_due => exact decide_eq_false (Nat.not_le.2 (early due at_due))
    case h_2 => rfl
  simp only [execTickAdvance, notDue, on, Bool.false_eq_true, if_false, if_true]

theorem execTickAdvance_tripped {s : State} {due : Nat} (at_due : s.sensors.tripBy = some due) (passed : due ≤ s.tick) :
    execTickAdvance s = execThermalTrip s := by
  simp [execTickAdvance, State.tripDue, at_due, passed]

theorem execTickAdvance_off {s : State} (off : s.powered = false) : execTickAdvance s = .next s := by
  simp [execTickAdvance, execThermalTrip_not_due (.inl off), off]

/-- Settles O60, by what each phase of a bring-up and each step of heat, power and time comes to. -/
theorem powerSteps : Obligations.PowerSteps := by
  unfold Obligations.PowerSteps
  refine ⟨fun s fail bad => ⟨fun off => ⟨?rises, ?restored, ?short⟩, ?already⟩, fun s b rising => ?phases, fun s => ?power⟩
  case rises =>
    intro sound crust ok
    refine ⟨_, execPowerOn_rises bad off crust ok, ?_⟩
    simp [State.phaseFour, Flash.checked, sound, State.reset]
  case restored =>
    intro damaged crust ok
    refine ⟨_, execPowerOn_rises bad off crust ok, ?_⟩
    simp [State.phaseFour, Flash.checked, damaged]
  case short =>
    intro failed
    have refused : (s.flash.crustOk && (fail == 0 || fail == 4)) = false := by
      rcases failed with crust | ⟨nonzero, nonfour⟩
      · rw [crust, Bool.false_and]
      · rw [beq_false_of_ne nonzero, beq_false_of_ne nonfour, Bool.or_self, Bool.and_false]
    simp only [exec, execPowerOn, off, refused, Bool.false_eq_true, if_false]
  case already =>
    intro on
    simp [exec, execPowerOn, on]
  case phases =>
    intro lay
    refine ⟨fun four sound => ?_, fun four failed => ?_, fun five good => ?_, fun five => ?_, fun six => ?seven⟩
    · simp only [State.nextPhase, rising, four, if_true, sound, if_false]
    · simp only [State.nextPhase, rising, four, if_true, failed]
    · simp [State.nextPhase_scan rising five, good]
    · rw [State.nextPhase_scan rising five]
      exact ⟨rfl, (State.foldl_keeps State.bringUp _ State.scanFail_bringUp _ s).trans rising⟩
    case seven =>
      rw [State.nextPhase_ready rising six]
      obtain ⟨crumbs, risen⟩ := s.risen_eq
      have keeps {β : Type} (field : State → β) (log free) := State.phaseSeven_keeps field log free s b.replaced
      have flash := keeps State.flash State.logError_flash fun _ _ => rfl
      have parts := keeps State.parts State.logError_parts fun _ _ => rfl
      rw [risen] at keeps flash parts
      refine ⟨keeps State.bootstat State.logError_bootstat fun _ _ => rfl, keeps State.bringUp State.logError_bringUp fun _ _ => rfl,
        by rw [flash], by rw [flash], by rw [parts, List.length_append, List.length_mapIdx],
        keeps State.jobs State.logError_jobs fun _ _ => rfl, keeps State.tick State.logError_tick fun _ _ => rfl,
        fun i q at_i => ?_, fun sound calm => ?_, fun sound tripped tail head => ?_⟩
      · rw [parts, List.getElem?_append_right (Nat.le_add_right ..), Nat.add_sub_cancel_left, List.getElem?_mapIdx, at_i]
        rfl
      · rw [sound, State.phaseSeven_unlogged calm, risen]
        exact ⟨rfl, rfl⟩
      · rw [sound, State.phaseSeven_tripped tripped, risen]
        exact State.logError_first _ tail head
  case power =>
    refine ⟨rfl, execThermalTrip_due, fun safe => execThermalTrip_not_due (.inr safe), ?thermal, ?telemetry, ?cycle, ?trip, ?dark⟩
    case thermal =>
      intro heat hottest setHeat
      refine ⟨?warns, ?noWarning, ?ends, ?noEnd, ?emergency, ?noEmergency, ?cools, ?notCool, fun gates => ⟨?gates, ?kept⟩⟩
      case warns =>
        exact fun on normal hot => (execThermalWarningEnter_eq s).trans (congrArg _ (if_pos ⟨on, normal, hot⟩))
      case noWarning =>
        refine fun stays => (execThermalWarningEnter_eq s).trans (congrArg _ (if_neg ?_))
        rintro ⟨-, normal, hot⟩
        exact stays.elim (· normal) (Nat.not_lt.2 hot)
      case ends =>
        exact fun warning cool => (execThermalWarningExit_eq s).trans (congrArg _ (if_pos ⟨warning, cool⟩))
      case noEnd =>
        refine fun stays => (execThermalWarningExit_eq s).trans (congrArg _ (if_neg ?_))
        rintro ⟨warning, cool⟩
        exact stays.elim (· warning) (Nat.not_le.2 cool)
      case emergency =>
        intro on calm hot
        simp only [← Launch.heated_eq]
        exact (execThermalEmergencyEnter_eq s).trans (congrArg _ (if_pos ⟨on, calm, hot⟩))
      case noEmergency =>
        refine fun stays => (execThermalEmergencyEnter_eq s).trans (congrArg _ (if_neg ?_))
        rintro ⟨-, calm, hot⟩
        exact stays.elim calm (Nat.not_lt.2 hot)
      case cools =>
        intro since cool long emergency
        refine (execThermalEmergencyExit_eq s).trans (congrArg _ ((if_pos ⟨emergency, since, cool, long⟩).trans ?_))
        exact State.openTimed_eq _
      case notCool =>
        refine fun stays => (execThermalEmergencyExit_eq s).trans (congrArg _ (if_neg ?_))
        rintro ⟨emergency, since, cool, -⟩
        exact stays.elim (· emergency) fun warm => by simp [warm] at cool
      case gates =>
        intro calm
        refine (execIssueGateUpdate_eq gates s).trans (congrArg _ ((if_neg calm).trans ?_))
        simp only [State.setGates, Bool.decide_and, Bool.decide_eq_false, Bool.and_assoc]
      case kept =>
        exact fun emergency => (execIssueGateUpdate_eq gates s).trans (congrArg _ (if_pos emergency))
    case telemetry =>
      intro part p pw mp on at_part temp
      exact ⟨(execTelemetryRefresh_eq at_part ..).trans (congrArg _ (if_pos ⟨on, rfl⟩)),
        fun other wrong => (execTelemetryRefresh_eq at_part ..).trans (congrArg _ (if_neg fun h => wrong h.2))⟩
    case cycle =>
      intro on early
      exact ⟨_, execTickAdvance_on on early, State.startDue_tick _⟩
    case trip =>
      intro due on at_due passed
      exact (execTickAdvance_tripped at_due passed).trans (execThermalTrip_due on (by simp [at_due]))
    case dark =>
      exact execTickAdvance_off

end Sys2Proof.Machine
end

section
/-! SUPPORT. Words that compute their active lanes from integers and bits, lane by lane; and the integer words. -/

namespace Sys2Proof.Machine

/-! ### A word lane by lane -/

section Lanes

variable {s : State} {h : VHdr} {vd : BitVec 7} {ty : ElemTy}

/-- What a lane takes is its width of bits of a value: values that agree there are the same result. -/
theorem LaneYields.congr {srcs : Cursor → List Touch} {o : Host.Outcome State Fault Refusal} {f g : Cursor → Nat → Nat × BitVec 5}
    (yields : LaneYields s h vd srcs ty o f) (vals : ∀ c i, (f c i).1 % 2 ^ ty.bits = (g c i).1 % 2 ^ ty.bits)
    (flags : ∀ c i, (f c i).2 = (g c i).2) : LaneYields s h vd srcs ty o g := by
  intro c j s1 e enters ready quiet
  have same : e = fun i => if laneActive c h i then (f c i).2 else 0 := by
    funext i; simp only [e, flags]
  rw [same] at quiet ⊢
  obtain ⟨x, is, lanes⟩ := yields c j s1 enters ready quiet
  refine ⟨x, is, fun i hi => ?_⟩
  rw [lanes i hi]
  exact if_congr Iff.rfl (vals c i) rfl

/-- A word that raises nothing yields any values that agree with its own in the lanes' bits. -/
theorem laneWord_quiet {srcs : List (BitVec 7)} {f g : Cursor → Nat → Nat} (is : ∀ c i, f c i % 2 ^ ty.bits = g c i % 2 ^ ty.bits) :
    LaneYields s h vd (fun c => srcs.map fun v => (v, activeBytes (laneActive c h) ty.bytes)) ty
      (laneWord h vd srcs ty (fun c i => (f c i, 0)) s) fun c i => (g c i, 0) :=
  (laneWord_yields s h vd srcs ty _).congr is fun _ _ => rfl

theorem srcLane_lt (c : Cursor) (v : BitVec 7) (ty : ElemTy) (i : Nat) : srcLane c v ty i < 2 ^ ty.bits :=
  Nat.mod_lt _ (Nat.two_pow_pos _)

theorem elemBits_pos (ty : ElemTy) : 0 < ty.bits := by cases ty <;> decide

/-! ### Integer words (R135) -/

theorem intOf_eq (sgn : Bool) (w x : Nat) :
    intOf sgn w x = if sgn = true ∧ 2 ^ (w - 1) ≤ x then (x : Int) - 2 ^ w else x := by
  simp [intOf]

/-- An integer word yields its exact result `g`, wrapped, or saturated under `clamp=sat`. -/
theorem intWord_yields {srcs : List (BitVec 7)} {f : List Int → Int} (g : Cursor → Nat → Int)
    (is : ∀ c i, f (srcs.map fun v => intOf ty.isSigned ty.bits (srcLane c v ty i)) = g c i) :
    LaneYields s h vd (fun c => srcs.map fun v => (v, activeBytes (laneActive c h) ty.bytes)) ty (intWord h vd srcs ty f s)
      fun c i => (wrapInt ty.bits (if vmodClamp c.vmod = .sat then satInt ty.isSigned ty.bits (g c i) else g c i), 0) :=
  laneWord_quiet fun c i => by rw [is]

/-! ### Logic, shifts and counts (R49, R136) -/

theorem bits2_yields {va vb : BitVec 7} {f : Nat → Nat → Nat → Nat} {g : Cursor → Nat → Nat}
    (is : ∀ c i, f ty.bits (srcLane c va ty i) (srcLane c vb ty i) % 2 ^ ty.bits = g c i % 2 ^ ty.bits) :
    LaneYields s h vd (fun c => [va, vb].map fun v => (v, activeBytes (laneActive c h) ty.bytes)) ty (bits2 h vd va vb ty f s)
      fun c i => (g c i, 0) :=
  laneWord_quiet fun c i => (Nat.mod_mod _ _).trans (is c i)

theorem laneShr_eq {w a : Nat} (lt : a < 2 ^ w) (b : Nat) :
    laneShr a b = if b % 256 < w then a / 2 ^ (b % 256) else 0 := by
  unfold laneShr
  split
  · rfl
  · exact Nat.div_eq_of_lt (lt_of_lt_of_le lt (Nat.pow_le_pow_right (by omega) (by omega)))

theorem intOf_signed {w a : Nat} (pos : 0 < w) (lt : a < 2 ^ w) : intOf true w a = (BitVec.ofNat w a).toInt := by
  have half : 2 ^ w = 2 * 2 ^ (w - 1) := by rw [← Nat.pow_succ', Nat.succ_eq_add_one, Nat.sub_add_cancel pos]
  rw [intOf_eq, BitVec.toInt_eq_toNat_cond, BitVec.toNat_ofNat, Nat.mod_eq_of_lt lt]
  by_cases big : 2 ^ (w - 1) ≤ a
  · rw [if_pos ⟨rfl, big⟩, if_neg (by omega)]; push_cast; rfl
  · rw [if_neg (fun h => big h.2), if_pos (by omega)]

theorem laneSar_eq {w a : Nat} (pos : 0 < w) (lt : a < 2 ^ w) (b : Nat) :
    laneSar w a b = ((BitVec.ofNat w a).sshiftRight (b % 256)).toNat := by
  rw [laneSar, wrapInt, intOf_signed pos lt, BitVec.sshiftRight, BitVec.toNat_ofInt, Int.shiftRight_eq_div_pow]
  push_cast; rfl

theorem laneRot_eq {w a : Nat} (pos : 0 < w) (lt : a < 2 ^ w) (b : Nat) :
    laneRot w a b % 2 ^ w = ((BitVec.ofNat w a).rotateLeft (b % 256 % w)).toNat := by
  have small : b % 256 % w < w := Nat.mod_lt _ pos
  unfold laneRot
  generalize b % 256 % w = n at *
  have parts : 2 ^ w = 2 ^ (w - n) * 2 ^ n := by rw [← Nat.pow_add, Nat.sub_add_cancel small.le]
  have low : a / 2 ^ (w - n) < 2 ^ n := Nat.div_lt_of_lt_mul (parts ▸ lt)
  have high : a * 2 ^ n % 2 ^ w = (a % 2 ^ (w - n)) <<< n := by rw [parts, Nat.mul_mod_mul_right, Nat.shiftLeft_eq]
  have whole : (a % 2 ^ (w - n)) <<< n + a / 2 ^ (w - n) < 2 ^ w := by
    have below : (a % 2 ^ (w - n) + 1) * 2 ^ n ≤ 2 ^ (w - n) * 2 ^ n :=
      Nat.mul_le_mul_right _ (Nat.mod_lt _ (Nat.two_pow_pos _))
    rw [Nat.shiftLeft_eq, parts]
    rw [Nat.add_mul] at below
    omega
  have fits : a / 2 ^ (w - n) < 2 ^ w := lt_of_le_of_lt (Nat.div_le_self ..) lt
  rw [BitVec.toNat_rotateLeft, BitVec.toNat_ofNat, Nat.mod_eq_of_lt lt, Nat.mod_eq_of_lt small, Nat.shiftLeft_eq a, high,
    Nat.shiftRight_eq_div_pow, ← Nat.shiftLeft_add_eq_or_of_lt low, Nat.add_mod, high, Nat.mod_eq_of_lt fits,
    Nat.mod_eq_of_lt whole]

theorem leadZeros_eq (a w : Nat) :
    leadZeros a w = ((List.range w).takeWhile fun k => !a.testBit (w - 1 - k)).length := by
  induction w with
  | zero => rfl
  | succ w ih =>
    have shift : ((fun k => !a.testBit (w + 1 - 1 - k)) ∘ Nat.succ) = fun k => !a.testBit (w - 1 - k) := by
      funext k; simp only [Function.comp_apply]; congr 2; omega
    rw [leadZeros, ih, List.range_succ_eq_map, List.takeWhile_cons, List.takeWhile_map, shift]
    rcases top : a.testBit w
    · simp [top, Nat.add_comm]
    · simp [top]

theorem popBits_eq (a w : Nat) : popBits a w = ((List.range w).filter a.testBit).length := by
  induction w with
  | zero => rfl
  | succ w ih =>
    rw [popBits, ih, List.range_succ, List.filter_append, List.length_append, Nat.add_comm]
    rcases top : a.testBit w <;> simp [top]

end Lanes
/-- Settles O33: each word's lane function agrees with the stated one in the lane's bits. -/
theorem vectorIntegerResults : Obligations.VectorIntegerResults := by
  unfold Obligations.VectorIntegerResults
  intro s h vd va vb vc ty w on x z lo hi wrap fin n joined
  have signed (v : BitVec 7) (c : Cursor) (i : Nat) : intOf ty.isSigned w (srcLane c v ty i) = z v c i := intOf_eq ..
  have fits (v : BitVec 7) (c : Cursor) (i : Nat) : x v c i < 2 ^ w := srcLane_lt c v ty i
  have pos : 0 < w := elemBits_pos ty
  simp only [exec]
  refine ⟨?add, ?sub, ?mul, ?mulh, ?mad, ?and, ?or, ?xor, ?andn, ?shl, ?shr, ?sar, ?rot, ?fshl, ?fshr, ?clz, ?popc⟩
  case add =>
    refine intWord_yields (fun c i => z va c i + z vb c i) fun c i => ?_
    exact congrArg₂ (· + ·) (signed va c i) (signed vb c i)
  case sub =>
    refine intWord_yields (fun c i => z va c i - z vb c i) fun c i => ?_
    exact congrArg₂ (· - ·) (signed va c i) (signed vb c i)
  case mul =>
    refine intWord_yields (fun c i => z va c i * z vb c i) fun c i => ?_
    exact congrArg₂ (· * ·) (signed va c i) (signed vb c i)
  case mulh =>
    refine laneWord_quiet fun c i => ?_
    rw [signed va, signed vb]
    rfl
  case mad =>
    refine intWord_yields (fun c i => z va c i * z vb c i + z vc c i) fun c i => ?_
    exact congrArg₂ (· + ·) (congrArg₂ (· * ·) (signed va c i) (signed vb c i)) (signed vc c i)
  case and | or | xor | andn | shl => exact bits2_yields fun c i => rfl
  case shr => exact bits2_yields fun c i => congrArg (· % 2 ^ w) (laneShr_eq (fits va c i) _)
  case sar => exact bits2_yields fun c i => congrArg (· % 2 ^ w) (laneSar_eq pos (fits va c i) _)
  case rot =>
    exact bits2_yields fun c i => (laneRot_eq pos (fits va c i) _).trans (Nat.mod_eq_of_lt (BitVec.isLt _)).symm
  case fshl => exact laneWord_quiet fun c i => rfl
  case fshr => exact laneWord_quiet fun c i => Nat.mod_mod _ _
  case clz => exact laneWord_quiet fun c i => congrArg (· % 2 ^ w) (leadZeros_eq ..)
  case popc => exact laneWord_quiet fun c i => congrArg (· % 2 ^ w) (popBits_eq ..)

end Sys2Proof.Machine
end

section
/-! SUPPORT. Floating-point words of one, two and three operands, lane by lane; and the words made of them. -/

namespace Sys2Proof.Machine

/-- What a floating-point word leaves of an operation's exact result: scaled, rounded once and clamped (R46, R67). -/
def finished (c : Cursor) (ty : ElemTy) (e : FVal × BitVec 5) : Nat × BitVec 5 :=
  finishFloat (fmtOf ty) (modeOf c) c.vmod e.1 e.2

section Float

variable (s : State) (h : VHdr) (vd va vb vc : BitVec 7) (ty : ElemTy)

theorem float1_yields (op : RMode → FVal → FVal × BitVec 5) :
    LaneYields s h vd (fun c => [va].map fun v => (v, activeBytes (laneActive c h) ty.bytes)) ty (float1 h vd va ty op s)
      fun c i => finished c ty (op (modeOf c) (fltLane c va ty 0 i)) :=
  laneWord_yields s h vd [va] ty _

theorem float2_yields (op : RMode → FVal → FVal → FVal × BitVec 5) :
    LaneYields s h vd (fun c => [va, vb].map fun v => (v, activeBytes (laneActive c h) ty.bytes)) ty (float2 h vd va vb ty op s)
      fun c i => finished c ty (op (modeOf c) (fltLane c va ty 0 i) (fltLane c vb ty 1 i)) :=
  laneWord_yields s h vd [va, vb] ty _

theorem float3_yields (op : RMode → FVal → FVal → FVal → FVal × BitVec 5) :
    LaneYields s h vd (fun c => [va, vb, vc].map fun v => (v, activeBytes (laneActive c h) ty.bytes)) ty
      (float3 h vd va vb vc ty op s)
      fun c i => finished c ty (op (modeOf c) (fltLane c va ty 0 i) (fltLane c vb ty 1 i) (fltLane c vc ty 2 i)) :=
  laneWord_yields s h vd [va, vb, vc] ty _

/-- A transcendental word yields its function's result, always rounded to nearest even (R37, R129). -/
theorem transWord_yields (op : FVal → FVal × BitVec 5) :
    LaneYields s h vd (fun c => [va].map fun v => (v, activeBytes (laneActive c h) ty.bytes)) ty (transWord h vd va ty op s)
      fun c i =>
        let e := op (fltLane c va ty 0 i)
        finishFloat (fmtOf ty) .rne c.vmod e.1 e.2 :=
  laneWord_yields s h vd [va] ty _

end Float

/-- Settles O34: each word is an exact operation on its lanes' operands, finished. -/
theorem vectorFloatArithmetic : Obligations.VectorFloatArithmetic := by
  unfold Obligations.VectorFloatArithmetic
  intro s h vd va vb vc ty f on x r
  simp only [exec]
  refine ⟨?add, ?sub, ?mul, ?fma, ?fms, ?fnma, ?div, ?sqrt⟩
  case add => exact float2_yields s h vd va vb ty exactAdd
  case sub => exact float2_yields s h vd va vb ty fun m a b => exactAdd m a b.negate
  case mul => exact float2_yields s h vd va vb ty fun _ a b => exactMul a b
  case fma => exact float3_yields s h vd va vb vc ty exactFma
  case fms => exact float3_yields s h vd va vb vc ty fun m a b c => exactFma m a b c.negate
  case fnma => exact float3_yields s h vd va vb vc ty fun m a b c => exactFma m a.negate b c
  case div => exact float2_yields s h vd va vb ty fun _ a b => exactDiv a b
  case sqrt => exact float1_yields s h vd va ty fun _ a => exactSqrt a

/-- Settles O36: an estimate is finished where its operand is special and rounded as one elsewhere; a refinement step is an
operation of two operands; a transcendental is rounded RNE. -/
theorem vectorFunctionResults : Obligations.VectorFunctionResults := by
  unfold Obligations.VectorFunctionResults
  intro s h vd va vb ty f on a b r estimate
  simp only [exec]
  have estimated (rsq : Bool) : (fun c i => estLane rsq c va ty i) = estimate rsq := by
    funext c i
    have operand : fltLane c va ty 0 i = a c i := rfl
    simp only [estLane, estimate, operand]
    rcases estimateOf rsq (a c i) with special | exact <;> rfl
  refine ⟨?rcpe, ?rsqe, ?rcps, ?rsqs, ?exp2, ?log2, ?sin, ?cos⟩
  case rcpe => exact estimated false ▸ laneWord_yields s h vd [va] ty _
  case rsqe => exact estimated true ▸ laneWord_yields s h vd [va] ty _
  case rcps => exact float2_yields s h vd va vb ty rcpsVal
  case rsqs => exact float2_yields s h vd va vb ty rsqsVal
  case exp2 => exact transWord_yields s h vd va ty exp2Val
  case log2 => exact transWord_yields s h vd va ty log2Val
  case sin => exact transWord_yields s h vd va ty sinVal
  case cos => exact transWord_yields s h vd va ty cosVal

end Sys2Proof.Machine
end

section
/-! SUPPORT. Masks as functions of the lane, and the exceptions of a word's active lanes; what comparing words make of them. -/

namespace Sys2Proof.Machine

/-! ### Masks -/

/-- A number packed of single bits has those bits. -/
theorem testBit_packNat (l : List Bool) (i : Nat) : (packNat 1 (l.map Bool.toNat)).testBit i = l.getD i false := by
  induction l generalizing i with
  | nil => simp [packNat]
  | cons b t ih =>
    rw [List.map_cons, packNat]
    cases i with
    | zero => cases b <;> simp [Nat.testBit_zero]
    | succ i =>
      have rest : (b.toNat % 2 ^ 1 + 2 ^ 1 * packNat 1 (t.map Bool.toNat)) / 2 = packNat 1 (t.map Bool.toNat) := by
        have := b.toNat_lt
        omega
      rw [Nat.testBit_add_one, rest, ih, List.getD_cons_succ]

/-- A mask written by lanes: active lanes take `f`, inactive ones keep their bits, the rest are clear. -/
theorem maskPut_eq (old : Mask) (act : Nat → Bool) (lanes : Nat) (f : Nat → Bool) :
    maskPut old act lanes f =
      BitVec.ofFnLE fun k : Fin 256 => if k.val < lanes then (if act k.val then f k.val else old.getLsbD k.val) else false := by
  have bits : ((List.range lanes).map fun i => if act i then (f i).toNat else (old.getLsbD i).toNat) =
      ((List.range lanes).map fun i => if act i then f i else old.getLsbD i).map Bool.toNat := by
    rw [List.map_map]
    exact List.map_congr_left fun i _ => (apply_ite Bool.toNat ..).symm
  refine BitVec.eq_of_getLsbD_eq fun i hi => ?_
  rw [maskPut, bits, BitVec.getLsbD_ofNat, testBit_packNat, BitVec.getLsbD_ofFnLE]
  by_cases lt : i < lanes <;> simp [lt, hi, List.getD_eq_getElem?_getD]

/-! ### Exceptions of active lanes -/

/-- Collecting the exceptions of active lanes none of which is precise. -/
theorem raiseLanes_active {c : Cursor} {s1 : State} {j : Job} {n : Nat} {act : Nat → Bool} {g : Nat → Nat × BitVec 5} {v : Word}
    {f : Job → Job} {res : List (Option (Nat × BitVec 5))}
    (lanes : res = (List.range n).map fun i => if act i then some (g i) else none)
    (cur : s1.cursor = some c) (job : s1.jobs[c.job]? = some j) (quiet : NoPrecise c n fun i => if act i then (g i).2 else 0) :
    raiseLanes c s1 (laneFlags res) v f =
      .ok { s1 with
        jobs := s1.jobs.set c.job (f j)
        cursor := some { c with raised := c.raised ||| raisedBy n fun i => if act i then (g i).2 else 0 } } v none := by
  have flags : (fun i => ((if act i then some (g i) else none).map Prod.snd).getD 0#5) = fun i => if act i then (g i).2 else 0 := by
    funext i; rcases act i <;> simp
  rw [← flags, ← joinFlags_lanes, lanes]
  refine raiseLanes_ok cur job fun precise p mem => ?_
  obtain ⟨lt, x, hx, is⟩ := mem_laneFlags mem
  have none := quiet precise p.1 lt
  split at hx
  · next on =>
    obtain rfl := Option.some.inj hx
    simpa [on, is] using none
  · cases hx

/-! ### Minimum, maximum, comparison (R45, R125, R126) -/

theorem minMaxVal_eq (max num : Bool) (a b : FVal) :
    minMaxVal max num a b =
      (if a.isNan && b.isNan then .nan false
       else if a.isNan then (if num then b else .nan false)
       else if b.isNan then (if num then a else .nan false)
       else if max then (if totalLess a b then b else a)
       else (if totalLess b a then b else a), snanFlag a ||| snanFlag b) := by
  unfold minMaxVal
  split_ifs <;> rfl

/-- A comparison is done: its mask takes the lanes' outcomes, and what the active lanes raised is collected. -/
theorem execVcmp_done {s s1 : State} {h : VHdr} {md : BitVec 3} {va vb : BitVec 7} {ty : ElemTy} {cc : VCond} {c : Cursor} {j : Job}
    (enters : Enters s h.wait h.sig c j s1)
    (ready : VecReady s1 j ([va, vb].map fun v => (v, activeBytes (laneActive c h) ty.bytes)) [])
    (quiet : NoPrecise c ty.lanes fun i => if laneActive c h i then (cmpLane c va vb ty cc i).2 else 0) :
    execVcmp h md va vb ty cc s = .next (wordDone s1 c h
      (j.setMask md (BitVec.ofFnLE fun k : Fin 256 =>
        if k.val < ty.lanes then (if laneActive c h k.val then (cmpLane c va vb ty cc k.val).1 else (j.mask md).getLsbD k.val)
        else false))
      c.value (raisedBy ty.lanes fun i => if laneActive c h i then (cmpLane c va vb ty cc i).2 else 0)) := by
  let res := (List.range ty.lanes).map fun i => if laneActive c h i then some (cmpLane c va vb ty cc i) else none
  let put (k : Job) : Job := k.setMask md (maskPut (k.mask md) (laneActive c h) ty.lanes fun i =>
    ((res.getD i none).map Prod.fst).getD false)
  have flags : (res.map fun r => r.map fun p => (p.1.toNat, p.2)) = (List.range ty.lanes).map fun i =>
      if laneActive c h i then some ((cmpLane c va vb ty cc i).1.toNat, (cmpLane c va vb ty cc i).2) else none := by
    rw [List.map_map]
    refine List.map_congr_left fun i _ => ?_
    rw [Function.comp_apply]
    split <;> rfl
  have mask : put j = j.setMask md (BitVec.ofFnLE fun k : Fin 256 =>
      if k.val < ty.lanes then (if laneActive c h k.val then (cmpLane c va vb ty cc k.val).1 else (j.mask md).getLsbD k.val)
      else false) := by
    simp only [put, maskPut_eq]
    refine congrArg (fun f => j.setMask md (BitVec.ofFnLE f)) (funext fun k => ?_)
    by_cases lt : k.val < ty.lanes <;> by_cases on : laneActive c h k.val <;>
      simp [res, List.getD_eq_getElem?_getD, lt, on]
  rw [← mask]
  exact vecWord_ok enters ready rfl (raiseLanes_active (f := put) flags enters.cursor enters.job quiet) rfl

/-- Settles O35: an extremum is `minMaxVal`'s or by signedness, a class one bit, and a comparison a mask of its lanes' outcomes. -/
theorem vectorCompareResults : Obligations.VectorCompareResults := by
  unfold Obligations.VectorCompareResults
  intro s h vd va vb md ty cc f w on x z a b nv pick
  have signed (v : BitVec 7) (c : Cursor) (i : Nat) : intOf ty.isSigned ty.bits (srcLane c v ty i) = z v c i := intOf_eq ..
  have extremum (big num : Bool) : LaneYields s h vd (on [va, vb]) ty (minMaxWordV h vd va vb ty big num s) (pick big num) := by
    unfold minMaxWordV
    rcases int : ty.isInt
    · have extremes : pick big num = fun c i => finished c ty (minMaxVal big num (fltLane c va ty 0 i) (fltLane c vb ty 1 i)) := by
        funext c i
        simp only [finished, minMaxVal_eq, pick, int, Bool.false_eq_true, if_false]
        rfl
      rw [if_neg Bool.false_ne_true, extremes]
      exact float2_yields s h vd va vb ty fun _ a b => minMaxVal big num a b
    · rw [if_pos rfl]
      simp only [signed, decide_eq_true_eq, pick, int, if_true]
      exact laneWord_yields s h vd [va, vb] ty _
  refine ⟨extremum false false, extremum true false, extremum false true, extremum true true, ?classes, ?compares⟩
  case classes =>
    refine laneWord_quiet (f := fun c i => 2 ^ classBit f (srcLane c va ty i)) fun c i => congrArg (· % 2 ^ w) ?_
    show 2 ^ classBit f (x va c i) = _
    unfold classBit
    rcases decodeFloat f (x va c i) with (_ | _) | (_ | _) | ⟨neg, m, q⟩
    case fin => simp only [apply_ite (2 ^ ·)]; rfl
    all_goals rfl
  case compares =>
    intro c j s1 ord holds e enters ready quiet
    have held (i : Nat) : (cmpLane c va vb ty cc i).1 = holds i := by
      have tests (o : Option Ordering) (is : ord i = o) : vcondTest cc o = holds i := by
        simp only [holds, is]
        cases cc <;> rcases o with _ | _ | _ | _ <;> rfl
      unfold cmpLane
      rcases int : ty.isInt
      · exact tests _ (by simp only [ord, int]; rfl)
      · exact tests _ (by simp only [ord, int, signed]; rfl)
    have raised : e = fun i => if laneActive c h i then (cmpLane c va vb ty cc i).2 else 0 := by
      funext i
      simp only [e, cmpLane]
      rcases ty.isInt <;> rcases laneActive c h i <;> simp [cmpFlags]
      cases cc <;> rfl
    rw [raised] at quiet ⊢
    simp only [← held]
    exact execVcmp_done enters ready quiet

end Sys2Proof.Machine
end

section
/-! SUPPORT. Words that write lane 0, sums modulo a width, what a scan leaves in each lane, and words that raise nothing. -/

namespace Sys2Proof.Machine

/-! ### Words that raise nothing -/

/-- A V word that is ready and changes only its job. -/
theorem vecWord_quiet {s s1 : State} {h : VHdr} {srcs : Cursor → List Touch} {dsts : List (BitVec 7)}
    {op : Cursor → Job → State → WRes} {c : Cursor} {j j2 : Job} {v : Word} (enters : Enters s h.wait h.sig c j s1)
    (ready : VecReady s1 j (srcs c) dsts) (res : op c j s1 = .ok { s1 with jobs := s1.jobs.set c.job j2 } v none) :
    vecWord h srcs dsts (fun _ _ _ => []) op s = .next (wordDone s1 c h j2 v 0) := by
  refine vecWord_ok enters ready rfl res ?_
  have calm : c.raised ||| 0 = c.raised := BitVec.or_zero
  rw [calm, ← enters.cursor]

/-- A word that touches no register needs none. -/
theorem vecReady_none (s1 : State) (j : Job) : VecReady s1 j [] [] :=
  ⟨by simp, by simp, List.any_eq_false.2 fun _ _ => by simp⟩

/-! ### Words that write lane 0 (R146, R147) -/

/-- Lane 0 is the bytes below its width. -/
theorem firstLane_bytes (ty : ElemTy) : (fun b => decide (b < ty.bytes)) = fun b => decide (b / ty.bytes = 0) := by
  have pos : ty.bytes ≠ 0 := by cases ty <;> decide
  funext b
  simp [Nat.div_eq_zero_iff, pos]

/-- A word that collects one result's exceptions and puts the result in lane 0 is done. -/
theorem firstLane_done {s s1 : State} {h : VHdr} {srcs : Cursor → List Touch} {op : Cursor → Job → State → WRes} {c : Cursor}
    {j j2 : Job} {vd : BitVec 7} {ty : ElemTy} {x : Nat} {v : Word} {fl : BitVec 5} {f : Job → Job}
    (enters : Enters s h.wait h.sig c j s1) (ready : VecReady s1 j (srcs c) [vd]) (quiet : NoPrecise c 1 fun _ => fl)
    (res : op c j s1 = raiseLanes c s1 [(0, fl)] v f) (put : f j = putLane0 j2 vd ty x) :
    VecDone s1 c h j2 (vecWord h srcs [vd] (fun _ _ _ => []) op s) vd ty.bytes (fun i => decide (i = 0)) (fun _ => x) v fl := by
  have collected : op c j s1 = .ok { s1 with
      jobs := s1.jobs.set c.job (f j), cursor := some { c with raised := c.raised ||| joinFlags [(0, fl)] } } v none :=
    res.trans (raiseLanes_ok enters.cursor enters.job fun precise p mem => by
      obtain rfl := List.mem_singleton.1 mem
      exact quiet precise 0 Nat.one_pos)
  have one : joinFlags [(0, fl)] = fl := BitVec.zero_or
  rw [put, one] at collected
  refine vecDone_of (x := mapLanes (j2.vreg vd) ty.bits fun i => if decide (i = 0) then some x else none) ?_ fun i hi =>
    lane_mapLanes_if _ _ _ _ _ hi
  simp only [decide_eq_true_eq, ← firstLane_bytes]
  exact vecWord_ok enters ready rfl collected rfl

theorem Job.setSlot_vecPut (j : Job) (n : Nat) (sl : Slot) (t : Touch) (v : VReg) :
    (j.vecPut t v).setSlot n sl = (j.setSlot n sl).vecPut t v := by
  have same : (j.vecPut t v).loop = j.loop := rfl
  unfold Job.setSlot
  rw [same]
  cases j.loop <;> rfl

/-- Replacing registers and writing a vector register do not meet. -/
theorem Job.setRegs_vecPut (j : Job) (x : StreamId) (slot : Option Nat) (r : StreamSt) (t : Touch) (v : VReg) :
    (j.vecPut t v).setRegs x slot r = (j.setRegs x slot r).vecPut t v := by
  rcases slot with _ | _ | n
  · cases x <;> rfl
  · rfl
  · have same : (j.vecPut t v).slot? (n + 1) = j.slot? (n + 1) := rfl
    rcases found : j.slot? (n + 1) with _ | sl
    · simp only [Job.setRegs, same, found]
    · simp only [Job.setRegs, same, found, Job.setSlot_vecPut]

theorem Job.setRegs_v (j : Job) (x : StreamId) (slot : Option Nat) (r : StreamSt) : (j.setRegs x slot r).v = j.v := by
  rcases slot with _ | _ | n
  · cases x <;> rfl
  · rfl
  · unfold Job.setRegs Job.setSlot
    dsimp only
    split
    · rfl
    · split <;> rfl

/-- Writing a scalar destination and lane 0 of a vector register do not meet. -/
theorem Job.put_putLane0 (j : Job) (c : Cursor) (d : Dest) (v : Word) (vd : BitVec 7) (ty : ElemTy) (x : Nat) :
    (putLane0 j vd ty x).put c d v = putLane0 (j.put c d v) vd ty x := by
  unfold putLane0 Job.put
  rw [Job.setRegs_vecPut, Job.vreg, Job.vreg, Job.setRegs_v]
  rfl

/-! ### Integer sums -/

theorem intOf_emod (sgn : Bool) (w x : Nat) : intOf sgn w x % 2 ^ w = (x : Int) % 2 ^ w := by
  unfold intOf
  split
  · exact Int.sub_emod_right _ _
  · rfl

/-- A sum of signed lanes and one of unsigned lanes are the same modulo their width. -/
theorem wrapInt_sum (sgn : Bool) (w : Nat) (l : List Nat) : wrapInt w (l.map (intOf sgn w)).sum = l.sum % 2 ^ w := by
  have same : (l.map (intOf sgn w)).sum % 2 ^ w = (l.sum : Int) % 2 ^ w := by
    induction l with
    | nil => rfl
    | cons x t ih =>
      rw [List.map_cons, List.sum_cons, List.sum_cons, Nat.cast_add, Int.add_emod, intOf_emod, ih, ← Int.add_emod]
  rw [wrapInt, same]
  norm_cast

/-! ### Scans (R148) -/

/-- A scan gives a value to each lane that has one. -/
theorem scanLanes_isSome (add : Nat → Nat → Nat × BitVec 5) (first : Nat → Nat × BitVec 5) (exc : Bool) (i : Nat)
    (run : Option Nat) (l : List (Option Nat)) :
    (scanLanes add first exc i run l).1.map Option.isSome = l.map Option.isSome := by
  induction l generalizing i run with
  | nil => rfl
  | cons x t ih => cases x <;> simp [scanLanes, ih]

theorem scanLanes_length (add : Nat → Nat → Nat × BitVec 5) (first : Nat → Nat × BitVec 5) (exc : Bool) (i : Nat)
    (run : Option Nat) (l : List (Option Nat)) : (scanLanes add first exc i run l).1.length = l.length := by
  rw [← List.length_map Option.isSome, scanLanes_isSome, List.length_map]

/-- A scan over active lanes gives those lanes their values. -/
theorem scanLanes_given (add : Nat → Nat → Nat × BitVec 5) (first : Nat → Nat × BitVec 5) (exc : Bool) (k : Nat)
    (run : Option Nat) (act : Nat → Bool) (x : Nat → Nat) {n i : Nat} (h : i < n) :
    ((scanLanes add first exc k run ((List.range n).map fun i => if act i then some (x i) else none)).1.getD i none).isSome = act i := by
  have at_i := congrArg (·[i]?)
    (scanLanes_isSome add first exc k run ((List.range n).map fun i => if act i then some (x i) else none))
  simp only [List.getElem?_map, List.getElem?_range h, Option.map_some] at at_i
  obtain ⟨o, found, is⟩ := Option.map_eq_some_iff.1 at_i
  rw [List.getD_eq_getElem?_getD, found, Option.getD_some, is]
  rcases act i <;> rfl

theorem lane_putLanes (r : VReg) (w i : Nat) (res : List (Option Nat)) (len : res.length = 2048 / w) (h : i < 2048 / w) :
    lane (putLanes r w res) w i = ((res.getD i none).map (· % 2 ^ w)).getD (lane r w i) := by
  have all : res = (List.range (2048 / w)).map fun i => res.getD i none := by
    refine List.ext_getElem (by simp [len]) fun k hk _ => ?_
    simp [List.getD_eq_getElem?_getD, hk]
  rw [all, putLanes_eq, lane_mapLanes _ _ _ _ h, ← all]
  cases res.getD i none <;> rfl

/-- Exceptions joined, by their place in the list. -/
theorem joinFlags_eq_raisedBy (l : List (Nat × BitVec 5)) : joinFlags l = raisedBy l.length fun i => (l.getD i (0, 0)).2 := by
  have all : l = (List.range l.length).map fun i => l.getD i (0, 0) := by
    refine List.ext_getElem (by simp) fun k hk _ => ?_
    simp [List.getD_eq_getElem?_getD, hk]
  conv_lhs => rw [all]
  rw [joinFlags, List.foldl_map, raisedBy]

/-- A word that puts a list of values, one for each active lane, and collects a list of exceptions is done. -/
theorem putLanes_done {s s1 : State} {h : VHdr} {srcs : Cursor → List Touch} {op : Cursor → Job → State → WRes} {c : Cursor}
    {j : Job} {vd : BitVec 7} {ty : ElemTy} {v : Word} {res : List (Option Nat)} {fl : List (Nat × BitVec 5)}
    (enters : Enters s h.wait h.sig c j s1) (ready : VecReady s1 j (srcs c) [vd])
    (quiet : NoPrecise c fl.length fun i => (fl.getD i (0, 0)).2) (len : res.length = ty.lanes)
    (given : ∀ i < ty.lanes, (res.getD i none).isSome = laneActive c h i)
    (is : op c j s1 = raiseLanes c s1 fl v fun k =>
      k.vecPut (vd, activeBytes (laneActive c h) ty.bytes) (putLanes (k.vreg vd) ty.bits res)) :
    VecDone s1 c h j (vecWord h srcs [vd] (fun _ _ _ => []) op s) vd ty.bytes (laneActive c h)
      (fun i => (res.getD i none).getD 0) v (raisedBy fl.length fun i => (fl.getD i (0, 0)).2) := by
  have lanes : ty.lanes = 2048 / ty.bits := (lanes_bits _).symm
  rw [← joinFlags_eq_raisedBy]
  refine vecDone_of (x := putLanes (j.vreg vd) ty.bits res)
    (vecWord_ok enters ready rfl (is.trans (raiseLanes_ok enters.cursor enters.job fun precise p mem => ?_)) rfl) fun i hi => ?_
  · obtain ⟨i, at_i, rfl⟩ := List.mem_iff_getElem.1 mem
    simpa [List.getD_eq_getElem?_getD, at_i] using quiet precise i at_i
  · refine (lane_putLanes _ _ _ _ (len.trans lanes) (lanes ▸ hi)).trans ?_
    rw [← given i hi]
    cases res.getD i none <;> rfl

/-- Settles O40: what a reduction consumes, adds and ranks by is as stated, and each word puts and pushes what it finds. -/
theorem vectorReductions : Obligations.VectorReductions := by
  unfold Obligations.VectorReductions
  intro s h vd va ty least exc md ma mb tt c j s1 enters act on w x l add first quiet
  have added : (if ty.isInt then fun a b => ((a + b) % 2 ^ ty.bits, 0) else addBits (fmtOf ty) (rmOf c.regs.fpctl)) = add := by
    funext a b
    simp only [add]
    split <;> rfl
  have quieted : (fun a => if ty.isInt then (a, 0) else quietBits (fmtOf ty) a) = quiet := by
    funext a
    simp only [quiet, quietBits]
    rcases ty.isInt <;> simp
  refine ⟨fun ready => ⟨?sum, ?max, ?min, ?arg, ?scan⟩, ?count, ?combine⟩
  case sum =>
    intro t silent
    have total : sumLanes c h va ty = (t.1.getD 0, t.2) := by
      rcases int : ty.isInt
      · simp only [int, Bool.false_eq_true, if_false] at added quieted
        simp only [t, sumLanes, int, Bool.false_eq_true, if_false, added, quieted]
        rfl
      · simp only [t, sumLanes, int, if_true, wrapInt_sum]
        rfl
    change VecDone s1 c h j (execVredsum h vd va ty s) vd ty.bytes first _ c.value t.2
    exact firstLane_done (f := fun k => putLane0 k vd ty (sumLanes c h va ty).1) enters ready silent (by simp only [total])
      (by simp only [total])
  case max | min =>
    intro b silent
    change VecDone s1 c h j (redWord h vd va ty _ s) vd ty.bytes first _ c.value b.2.2
    exact firstLane_done (f := fun k => putLane0 k vd ty b.1) enters ready silent rfl rfl
  case arg =>
    intro b i silent
    change VecDone s1 c h (j.put c .push i) (execVredarg h vd va ty least s) vd ty.bytes first _ i b.2.2
    exact firstLane_done (f := fun k => (putLane0 k vd ty b.1).put c .push i) enters ready silent rfl (Job.put_putLane0 ..)
  case scan =>
    intro r silent
    change VecDone s1 c h j (execVscan h vd va ty exc s) vd ty.bytes act _ c.value _
    refine putLanes_done enters ready silent ((scanLanes_length ..).trans (by simp [l]))
      (fun i hi => scanLanes_given _ _ _ _ _ act _ hi) ?_
    simp only [added, quieted]
    rfl
  case count =>
    intro n
    change execVmpop h ma ty s = _
    exact vecWord_quiet enters (vecReady_none s1 j) (congrArg (WRes.ok · n none) (State.modRegs_eq enters.job _))
  case combine =>
    change execVmlog h md ma mb tt s = _
    refine vecWord_quiet enters (vecReady_none s1 j) ?_
    rw [State.modJob_eq enters.job, maskPut_eq]
    refine congrArg (fun m => WRes.ok { s1 with jobs := s1.jobs.set c.job (j.setMask md (BitVec.ofFnLE m)) } c.value none)
      (funext fun k => ?_)
    rw [if_pos k.isLt, if_pos rfl]

end Sys2Proof.Machine
end

section
/-! SUPPORT. What stops a V word: the causes common to V words by rank, and the lowest lane with an enabled exception. -/

namespace Sys2Proof.Machine

/-! ### Causes common to V words (R66, R80, R118, R256) -/

/-- A register that is absent ranks before the other causes. -/
theorem firstCause_absent {s : State} {j : Job} {srcs : List Touch} {dsts : List (BitVec 7)}
    (absent : ∃ v ∈ srcs.map Prod.fst ++ dsts, s.absent j v = true) : firstCause (s.vecCauses j srcs dsts) = some causeIllegal := by
  unfold State.vecCauses
  rw [if_pos (List.any_eq_true.2 absent)]
  split <;> split <;> rfl

/-- With every register present, a destination in an owned tile ranks next. -/
theorem firstCause_owned {s : State} {j : Job} {srcs : List Touch} {dsts : List (BitVec 7)}
    (there : ∀ v ∈ srcs.map Prod.fst ++ dsts, s.absent j v = false) (owned : ∃ v ∈ dsts, j.tileOwned (tileOf v.toNat) = true) :
    firstCause (s.vecCauses j srcs dsts) = some causeTileOwned := by
  unfold State.vecCauses
  rw [if_neg fun absent => ?_, if_pos (List.any_eq_true.2 owned)]
  · split <;> rfl
  · obtain ⟨v, mem, is⟩ := List.any_eq_true.1 absent
    exact Bool.false_ne_true ((there v mem).symm.trans is)

section Traps

variable {s s1 : State} {h : VHdr} {srcs : Cursor → List Touch} {dsts : List (BitVec 7)} {op : Cursor → Job → State → WRes}
  {c : Cursor} {j : Job} {e : BitVec 8}

/-- The last word of a bundle whose body traps, with a handler ready. -/
theorem runWord_trapTaken {w : Wait} {g : Sig} {body : Cursor → Job → State → WRes} {lane info : Word}
    (enters : Enters s w g c j s1) (handler : HandlerReady c) (res : body c j s1 = .trap e lane info) (other : e ≠ causeMemUe) :
    runWord w g true body s = .next (trapTaken s1 c ⟨e, c.pc, lane, info ||| (BitVec.ofNat 64 c.index <<< 8)⟩) := by
  obtain ⟨slot, idle, set⟩ := handler
  rw [runWord_trap enters res, raiseAt_taken enters.job slot idle set other]

/-- A V word stopped by a cause common to V words. -/
theorem vecWord_stopped (enters : Enters s h.wait h.sig c j s1) (alone : h.more = false) (handler : HandlerReady c)
    (cause : firstCause (s1.vecCauses j (srcs c) dsts) = some e) (other : e ≠ causeMemUe) :
    vecWord h srcs dsts (fun _ _ _ => []) op s = .next (trapTaken s1 c ⟨e, c.pc, 0, BitVec.ofNat 64 c.index <<< 8⟩) := by
  unfold vecWord vecWordAt
  rw [alone]
  refine (runWord_trapTaken (e := e) (lane := 0) (info := 0) enters handler ?_ other).trans ?_
  · simp only [List.append_nil, cause, State.raiseOwn, if_neg other]
    rfl
  · simp

/-- A V word that is ready and traps by itself. -/
theorem vecWord_trapped {lane info : Word} (enters : Enters s h.wait h.sig c j s1) (alone : h.more = false)
    (handler : HandlerReady c) (ready : VecReady s1 j (srcs c) dsts) (res : op c j s1 = .trap e lane info)
    (other : e ≠ causeMemUe) :
    vecWord h srcs dsts (fun _ _ _ => []) op s =
      .next (trapTaken s1 c ⟨e, c.pc, lane, info ||| (BitVec.ofNat 64 c.index <<< 8)⟩) := by
  unfold vecWord vecWordAt
  rw [alone]
  refine runWord_trapTaken enters handler ?_ other
  simp only [vecCauses_ready ready, List.append_nil, firstCause, res]
  rfl

end Traps

/-! ### The lowest faulting lane (R44) -/

/-- The lower of a pair found so far and the next. -/
def lowerLane (a : Option (Nat × BitVec 5)) (p : Nat × BitVec 5) : Option (Nat × BitVec 5) :=
  match a with
  | none => some p
  | some q => some (if p.1 < q.1 then p else q)

theorem firstFault_eq_foldl (en : BitVec 5) (l : List (Nat × BitVec 5)) :
    firstFault en l = (l.filter fun p => p.2 &&& en != 0).foldl lowerLane none := rfl

/-- Once found, a pair below all that follow stays; until then, what is found is above it. -/
theorem foldl_lowerLane {p : Nat × BitVec 5} (l : List (Nat × BitVec 5)) (a : Option (Nat × BitVec 5))
    (least : ∀ q ∈ l, q = p ∨ p.1 < q.1) (found : a = some p ∨ (p ∈ l ∧ ∀ q, a = some q → p.1 < q.1)) :
    l.foldl lowerLane a = some p := by
  induction l generalizing a with
  | nil => simpa using found
  | cons x t ih =>
    have rest : ∀ q ∈ t, q = p ∨ p.1 < q.1 := fun q mem => least q (List.mem_cons_of_mem _ mem)
    refine ih (lowerLane a x) rest ?_
    rcases found with rfl | ⟨mem, above⟩
    · rcases least x (List.mem_cons_self ..) with rfl | lt
      · exact .inl (by simp [lowerLane])
      · exact .inl (by simp [lowerLane, Nat.not_lt.2 lt.le])
    · rcases least x (List.mem_cons_self ..) with rfl | lt
      · rcases a with _ | q
        · exact .inl rfl
        · exact .inl (by simp [lowerLane, above q rfl])
      · have later : p ∈ t := (List.mem_cons.1 mem).resolve_left fun same => Nat.lt_irrefl _ (same ▸ lt)
        refine .inr ⟨later, fun q is => ?_⟩
        rcases a with _ | r
        · obtain rfl := Option.some.inj is
          exact lt
        · obtain rfl := Option.some.inj is
          have := above r rfl
          split <;> assumption

/-- A lane with an enabled exception, and none below it, is where a precise word traps. -/
theorem raiseLanes_precise {c : Cursor} {s1 : State} {n i : Nat} {act : Nat → Bool} {g : Nat → Nat × BitVec 5} {v : Word}
    {f : Job → Job} (precise : preciseOf c.regs.fpctl = true) (lt : i < n) (on : act i = true)
    (enabled : (g i).2 &&& enabledOf c.regs.fpctl ≠ 0)
    (first : ∀ k < i, act k = true → (g k).2 &&& enabledOf c.regs.fpctl = 0) :
    raiseLanes c s1 (laneFlags ((List.range n).map fun i => if act i then some (g i) else none)) v f =
      .trap causeFpPrecise (BitVec.ofNat 64 i) ((g i).2.setWidth 64 <<< 10) := by
  have found : firstFault (enabledOf c.regs.fpctl)
      (laneFlags ((List.range n).map fun i => if act i then some (g i) else none)) = some (i, (g i).2) := by
    rw [firstFault_eq_foldl]
    refine foldl_lowerLane _ _ (fun q mem => ?_) (.inr ⟨?_, fun q is => nomatch is⟩)
    · obtain ⟨mem, faults⟩ := List.mem_filter.1 mem
      obtain ⟨-, x, at_q, is⟩ := mem_laneFlags mem
      rcases active : act q.1
      · simp [active] at at_q
      · obtain rfl : g q.1 = x := by simpa [active] using at_q
        rcases Nat.lt_trichotomy q.1 i with below | same | above
        · exact absurd (first _ below active) (by simpa [is] using faults)
        · exact .inl (Prod.ext same (same ▸ is))
        · exact .inr above
    · rw [laneFlags_eq]
      refine List.mem_filter.2 ⟨List.mem_filterMap.2 ⟨i, List.mem_range.2 lt, by simp [on]⟩, by simpa using enabled⟩
  unfold raiseLanes
  simp only [precise, if_true, found]

/-- A word that computes its active lanes traps, in precise mode, at the lowest of them with an enabled exception (R44). -/
theorem laneWord_precise {s s1 : State} {h : VHdr} {vd : BitVec 7} {srcs : List (BitVec 7)} {ty : ElemTy}
    {f : Cursor → Nat → Nat × BitVec 5} {c : Cursor} {j : Job} {i : Nat} (enters : Enters s h.wait h.sig c j s1)
    (alone : h.more = false) (handler : HandlerReady c)
    (ready : VecReady s1 j (srcs.map fun v => (v, activeBytes (laneActive c h) ty.bytes)) [vd])
    (precise : preciseOf c.regs.fpctl = true) (lt : i < ty.lanes) (on : laneActive c h i = true)
    (enabled : (f c i).2 &&& enabledOf c.regs.fpctl ≠ 0)
    (first : ∀ k < i, laneActive c h k = true → (f c k).2 &&& enabledOf c.regs.fpctl = 0) :
    laneWord h vd srcs ty f s = .next (trapTaken s1 c
      ⟨causeFpPrecise, c.pc, BitVec.ofNat 64 i, ((f c i).2.setWidth 64 <<< 10) ||| (BitVec.ofNat 64 c.index <<< 8)⟩) :=
  vecWord_trapped enters alone handler ready (raiseLanes_precise precise lt on enabled first) (by decide)

/-- A word that computes its active lanes is stopped by a cause common to V words. -/
theorem laneWord_stopped {s s1 : State} {h : VHdr} {vd : BitVec 7} {srcs : List (BitVec 7)} {ty : ElemTy}
    {f : Cursor → Nat → Nat × BitVec 5} {c : Cursor} {j : Job} {e : BitVec 8} (enters : Enters s h.wait h.sig c j s1)
    (alone : h.more = false) (handler : HandlerReady c)
    (cause : firstCause (s1.vecCauses j (srcs.map fun v => (v, activeBytes (laneActive c h) ty.bytes)) [vd]) = some e)
    (other : e ≠ causeMemUe) :
    laneWord h vd srcs ty f s = .next (trapTaken s1 c ⟨e, c.pc, 0, BitVec.ofNat 64 c.index <<< 8⟩) :=
  vecWord_stopped enters alone handler cause other

/-- Settles O42: VADD computes its active lanes, so what stops such a word stops it. -/
theorem vectorWordTraps : Obligations.VectorWordTraps := by
  unfold Obligations.VectorWordTraps
  intro s h vd va vb ty c j s1 enters alone handler at' o r
  have word : o = laneWord h vd [va, vb] ty
      (fun c i => finished c ty (exactAdd (modeOf c) (fltLane c va ty 0 i) (fltLane c vb ty 1 i))) s := rfl
  rw [word]
  refine ⟨fun absent => ?absent, fun there owned => ?owned, fun i lt ready precise on enabled first => ?precise⟩
  case absent => exact laneWord_stopped enters alone handler (firstCause_absent absent) (by decide)
  case owned =>
    exact laneWord_stopped enters alone handler (firstCause_owned there ⟨vd, List.mem_singleton.2 rfl, owned⟩) (by decide)
  case precise => exact laneWord_precise enters alone handler ready precise lt on enabled first

end Sys2Proof.Machine
end

section
/-! SUPPORT. The L1's orderings beside changes of jobs, what a delivery point comes to, who has arrived at a barrier, and the words
made of them. -/

namespace Sys2Proof.Machine

/-! ### Orderings of the L1 and the jobs (R262) -/

/-- The state with other jobs. -/
def State.withJobs (s : State) (l : List Job) : State := { s with jobs := l }

theorem State.withJobs_self (s : State) {n : Nat} {j : Job} (job : s.jobs[n]? = some j) : s.withJobs (s.jobs.set n j) = s := by
  obtain ⟨lt, rfl⟩ := List.getElem?_eq_some_iff.1 job
  rw [List.set_getElem_self]
  rfl

section Orderings

variable (s : State) (l : List Job)

theorem State.modCore_withJobs (c : Nat) (f : Core → Core) : (s.withJobs l).modCore c f = (s.modCore c f).withJobs l := by
  unfold State.modCore
  split <;> rfl

theorem State.writeBackLine_withJobs (x : L1Line) : (s.withJobs l).writeBackLine x = (s.writeBackLine x).withJobs l := by
  unfold State.writeBackLine
  split
  · rfl
  · split
    · rfl
    · let byte (t : State) (i : Nat) : State :=
        if x.dirty.getLsbD i then t.writePhys (64 * x.line + i) (lineBytes x.data i 1) else t
      have bytes : (List.range 64).foldl byte (s.withJobs l) = ((List.range 64).foldl byte s).withJobs l :=
        List.foldl_hom (fun t => State.withJobs t l) fun t i => by simp only [byte]; split <;> rfl
      exact congrArg (fun t => { t with replicas := t.replicas.filter fun r => r.line ≠ x.line }) bytes

theorem State.l1Settle_withJobs (p : L1Line → Bool) (core : Nat) :
    (s.withJobs l).l1Settle p core = (s.l1Settle p core).withJobs l := by
  have same : (s.withJobs l).core core = s.core core := rfl
  unfold State.l1Settle
  rw [same, List.foldl_hom (fun t => State.withJobs t l) fun t x => t.writeBackLine_withJobs l x, State.modCore_withJobs]

theorem State.l1Release_withJobs (core : Nat) : (s.withJobs l).l1Release core = (s.l1Release core).withJobs l :=
  List.foldl_hom (fun t => State.withJobs t l) fun t c => t.l1Settle_withJobs l _ c

/-- An acquire acts on the L1 whatever the jobs are. -/
theorem State.l1Acquire_withJobs (core : Nat) : (s.withJobs l).l1Acquire core = (s.l1Acquire core).withJobs l := by
  have same : (s.withJobs l).l1Group core = s.l1Group core := rfl
  unfold State.l1Acquire
  rw [same, State.l1Release_withJobs]
  exact List.foldl_hom (fun t => State.withJobs t l) fun t c => t.modCore_withJobs l c _

end Orderings

/-- Changing a job after an ordering, which leaves the jobs. -/
theorem Accessed.modJob {s t : State} (acc : Accessed s t) {n : Nat} {j : Job} (job : s.jobs[n]? = some j) (f : Job → Job) :
    t.modJob n f = t.withJobs (s.jobs.set n (f j)) := by
  rw [State.modJob_eq (acc.jobs.symm ▸ job), acc.jobs]
  rfl

/-- What a fence does to the L1, by its ordering and scope (R213, R262). -/
theorem fence_orderings (s : State) (core : Nat) (ord : FenceOrd) (sc : Scope) :
    (if fenceAcq ord then (if fenceRel ord then s.releaseAt core sc else s).acquireAt core sc
      else if fenceRel ord then s.releaseAt core sc else s) =
      let rel := if ord ≠ .acq ∧ scopeWide sc = true then s.l1Release core else s
      if ord ≠ .rel ∧ scopeWide sc = true then rel.l1Acquire core else rel := by
  unfold State.releaseAt State.acquireAt
  cases ord <;> simp [fenceAcq, fenceRel]

/-! ### Delivery points (R43) -/

theorem Job.mustWait_stream (j : Job) : j.mustWait none = false := rfl

theorem deliveryPoint_stream {c : Cursor} {j : Job} (slot : c.slot = none) (retired : (j.stream c.stream).retireQ = []) :
    deliveryPoint c j = deliver (j.stream c.stream).fpctl ((j.stream c.stream).fpflg ||| c.raised.setWidth 64) := by
  have regs : j.regs c.stream none = j.stream c.stream := rfl
  simp [deliveryPoint, slot, regs, retired]

theorem deliveryPoint_delivered {c : Cursor} {j : Job} (passes : Delivered c j) : deliveryPoint c j = none := by
  obtain ⟨slot, retired, calm⟩ := passes
  rw [deliveryPoint_stream slot retired, deliver, enabledFlags, BitVec.and_comm, if_pos calm]

theorem deliveryPoint_flagged {c : Cursor} {j : Job} {set : BitVec 5} (slot : c.slot = none)
    (retired : (j.stream c.stream).retireQ = [])
    (is : ((j.stream c.stream).fpflg ||| c.raised.setWidth 64).extractLsb' 0 5 &&& (j.stream c.stream).fpctl.extractLsb' 8 5 = set)
    (stands : set ≠ 0) :
    deliveryPoint c j = some (.trap causeFpPrecise 0xFF ((set.setWidth 64 <<< 10) ||| 4)) := by
  rw [deliveryPoint_stream slot retired, deliver, enabledFlags, BitVec.and_comm, is, if_neg stands]
  rfl

/-- A scalar word that runs and traps, with a handler ready. -/
theorem scalarWord_trapTaken {s s1 : State} {h : Hdr} {uses : List Src} {first : Option Src} {d : Option Dest} {c : Cursor}
    {j : Job} {op : Cursor → Job → State → WRes} {cause : BitVec 8} {lane info : Word} (run : Runs s h uses d c j s1)
    (handler : HandlerReady c) (res : op c j s1 = .trap cause lane info) (other : cause ≠ causeMemUe) :
    scalarWord h uses first d op s =
      .next (trapTaken s1 c ⟨cause, c.pc, lane, info ||| (BitVec.ofNat 64 c.index <<< 8)⟩) := by
  obtain ⟨slot, idle, set⟩ := handler
  rw [scalarWord_trap run res, raiseAt_taken run.1.job slot idle set other]

/-! ### FENCE (R213) -/

/-- A FENCE at a delivery point, whose lines no host holds, orders the L1 and issues. -/
theorem execFence_delivered {s s1 : State} {h : Hdr} {ord : FenceOrd} {sc : Scope} {c : Cursor} {j : Job}
    (run : Runs s h [] none c j s1) (delivered : Delivered c j) (free : scopeWide sc = true → s1.l1Held j.core = false) :
    let rel := if ord ≠ .acq ∧ scopeWide sc = true then s1.l1Release j.core else s1
    let acq := if ord ≠ .rel ∧ scopeWide sc = true then rel.l1Acquire j.core else rel
    execFence h ord sc s = .next (issued acq c h.sig j c.value none) := by
  intro rel acq
  have ordered : Accessed s1 acq :=
    (Accessed.ite (l1Release_accessed ..) (.refl s1)).trans (.ite (l1Acquire_accessed ..) (.refl rel))
  have unheld : s1.ordHeld j.core sc = false := by
    unfold State.ordHeld
    rcases wide : scopeWide sc
    · rfl
    · exact free wide
  refine scalarWord_ok run (s2 := acq) ?_ (ordered.cursor.trans run.1.cursor) (ordered.jobs ▸ run.1.job)
  simp only [delivered.1, Job.mustWait_stream, deliveryPoint_delivered delivered, Job.coreOf, unheld, Bool.false_eq_true, if_false]
  rw [fence_orderings]

/-! ### JOIN (R211) -/

theorem State.tryRetire_waits {s : State} {n : Nat} {j : Job} (job : s.jobs[n]? = some j) (waits : j.allAtJoin = false) :
    s.tryRetire n = s := by
  unfold State.tryRetire
  simp [job, waits]

theorem stream_setStream_of_mem {j : Job} {x y : StreamId} (other : y ∈ othersOf x) (t : StreamSt) :
    (j.setStream x t).stream y = j.stream y := by
  cases x <;> simp only [othersOf, List.mem_cons, List.not_mem_nil, or_false] at other <;>
    rcases other with rfl | rfl | rfl | rfl <;> rfl

theorem allAtJoin_stream {j : Job} (all : j.allAtJoin = true) (y : StreamId) : (j.stream y).atJoin = true := by
  simp only [Job.allAtJoin, Bool.and_eq_true, and_assoc] at all
  obtain ⟨c, l, v, m, s⟩ := all
  cases y <;> assumption

/-- While another stream is not at JOIN, not all are. -/
theorem allAtJoin_setStream {j : Job} {x : StreamId} (other : (othersOf x).any (fun y => !(j.stream y).atJoin) = true)
    (t : StreamSt) : (j.setStream x t).allAtJoin = false := by
  obtain ⟨y, mem, waits⟩ := List.any_eq_true.1 other
  refine Bool.eq_false_iff.2 fun all => ?_
  have joined := allAtJoin_stream all y
  rw [stream_setStream_of_mem mem] at joined
  simp [joined] at waits

/-- A JOIN at a delivery point marks its stream, while another stream has yet to join. -/
theorem execJoin_delivered {s s1 : State} {h : Hdr} {c : Cursor} {j : Job} (run : Runs s h [] none c j s1)
    (delivered : Delivered c j) (inC : c.stream = .c → j.handler = none ∧ j.loop = none)
    (other : (othersOf c.stream).any (fun y => !(j.stream y).atJoin) = true) :
    execJoin h s = .next { s1 with
      jobs := s1.jobs.set c.job (j.modRegs c fun t => { t with atJoin := true, fpflg := t.fpflg ||| c.raised.setWidth 64 })
      cursor := none } := by
  let mark (t : StreamSt) : StreamSt := { t with atJoin := true, fpflg := t.fpflg ||| c.raised.setWidth 64 }
  obtain ⟨lt, -⟩ := List.getElem?_eq_some_iff.1 run.1.job
  have allowed : (c.stream == .c && (j.handler.isSome || j.loop.isSome)) = false := by
    by_cases stream : c.stream = .c
    · simp [inC stream]
    · simp [stream]
  have waits : (j.modRegs c mark).allAtJoin = false := by
    unfold Job.modRegs
    rw [delivered.1]
    exact allAtJoin_setStream other _
  have stays := State.tryRetire_waits (s := { s1 with jobs := s1.jobs.set c.job (j.modRegs c mark) }) (n := c.job)
    (by simp [lt]) waits
  refine scalarWord_stop run (s2 := { s1 with jobs := s1.jobs.set c.job (j.modRegs c mark) }) ?_
  simp only [allowed, deliveryPoint_delivered delivered, Bool.false_eq_true, if_false]
  rw [State.modRegs_eq run.1.job, stays]

/-! ### DBAR (R212) -/

/-- The word's registers are those of the cursor it meets. -/
theorem Enters.cursor_before {s s1 : State} {w : Wait} {g : Sig} {c : Cursor} {j : Job} (h : Enters s w g c j s1) :
    ∃ c0, s.cursor = some c0 ∧ c0.regs = c.regs := by
  cases h with
  | free _ _ cur => exact ⟨_, cur, rfl⟩
  | waited c0 _ _ _ cur => exact ⟨c0, cur, rfl⟩
  | begun _ _ cur => exact ⟨_, cur, rfl⟩

/-- A DBAR that has not arrived applies its WAIT. -/
theorem dbarWait_arriving {s s1 : State} {h : Hdr} {w : Wait} {g : Sig} {c : Cursor} {j : Job} (enters : Enters s w g c j s1)
    (bar : c.regs.bar = none) : dbarWait h s = h.wait := by
  obtain ⟨c0, cur, regs⟩ := enters.cursor_before
  simp [dbarWait, cur, regs, bar]

/-- A DBAR that has arrived applies none. -/
theorem dbarWait_arrived {s s1 : State} {h : Hdr} {w : Wait} {g : Sig} {c : Cursor} {j : Job} (enters : Enters s w g c j s1)
    (bar : c.regs.bar = some c.pc.toNat) : dbarWait h s = .tokens 0 := by
  obtain ⟨c0, cur, regs⟩ := enters.cursor_before
  have pc : c0.pc = c.pc := congrArg StreamSt.pc regs
  simp [dbarWait, cur, regs, pc, bar]

/-- Every member of job `n`'s team but `n` has arrived at generation `g`, or has retired. -/
def TeamArrived (s : State) (n : Nat) (j : Job) (g : Nat) : Prop :=
  ∀ i k, i ∈ s.teamJobs n j → i ≠ n → s.jobs[i]? = some k → k.phase = .retired ∨ g ≤ k.barAt

/-- With its own job arrived, a team has arrived when its other members have, or have retired. -/
theorem allArrived_iff {s t : State} {n g : Nat} {j k : Job} (parts : t.parts = s.parts) (own : t.jobs[n]? = some k)
    (arrived : g ≤ k.barAt) (rest : ∀ i, i ≠ n → t.jobs[i]? = s.jobs[i]?) :
    t.allArrived n j g = true ↔ TeamArrived s n j g := by
  have team : t.teamJobs n j = s.teamJobs n j := by
    simp only [State.teamJobs, State.teamOf, State.launch?, parts]
  unfold State.allArrived
  rw [team, List.all_eq_true]
  constructor
  · intro all i k mem other at_i
    have := all i mem
    rw [rest i other, at_i] at this
    simpa using this
  · intro all i mem
    by_cases other : i = n
    · subst other
      rw [own]
      simp [arrived]
    · rw [rest i other]
      rcases at_i : s.jobs[i]? with _ | k
      · rfl
      · simpa using all i k mem other at_i

/-- An issue puts its own job in place of what stood there. -/
theorem issued_withJobs_set (s : State) (c : Cursor) (g : Sig) (j k : Job) (v : Word) (nx : Option Word) :
    issued (s.withJobs (s.jobs.set c.job k)) c g j v nx = issued s c g j v nx := by
  simp [issued, State.withJobs, List.set_set]

/-- An issue of C ends what its word has begun outside. -/
theorem issued_put_out {s : State} {c : Cursor} (g : Sig) (j : Job) (d : Dest) (v w : Word) (o : Option OutAcc)
    (stream : c.stream = .c) (slot : c.slot = none) :
    issued s c g (({ j with c := { j.c with out := o } } : Job).put c d v) w none = issued s c g (j.put c d v) w none := by
  unfold issued Job.put
  rw [stream, slot]
  cases d <;> rfl

/-- What a DBAR comes to at a delivery point, its arrival recorded in job `k` over the state `t` its release left: with the team
arrived it departs as an acquire, else it waits. -/
theorem execDbar_team {s s1 t : State} {h : Hdr} {d : Dest} {c : Cursor} {j k : Job}
    (run : Runs s { h with wait := dbarWait h s } [] (some d) c j s1) (delivered : Delivered c j) (idle : j.handler = none)
    (unheld : s1.l1Held j.core = false) (released : Accessed s1 t)
    (is : (if c.regs.bar = some c.pc.toNat then s1
      else (s1.l1Release j.core).modJob c.job fun k =>
        { k with barAt := j.barGen + 1, c := { k.c with bar := some c.pc.toNat, out := none } }) =
      t.withJobs (s1.jobs.set c.job k)) (arrived : j.barGen + 1 ≤ k.barAt) :
    let g := BitVec.ofNat 64 (j.barGen + 1)
    (TeamArrived s1 c.job j (j.barGen + 1) →
      execDbar h d s = .next (issued (t.l1Acquire j.core) c h.sig
        (({ k with barGen := j.barGen + 1, c := { k.c with bar := none } } : Job).put c d g) g none)) ∧
    (¬TeamArrived s1 c.job j (j.barGen + 1) →
      execDbar h d s = .next { t.withJobs (s1.jobs.set c.job k) with cursor := none }) := by
  have point := deliveryPoint_delivered delivered
  obtain ⟨lt, -⟩ := List.getElem?_eq_some_iff.1 run.1.job
  have own : (t.withJobs (s1.jobs.set c.job k)).jobs[c.job]? = some k := by simp [State.withJobs, lt]
  have all := allArrived_iff (t := t.withJobs (s1.jobs.set c.job k)) (j := j) released.parts own arrived fun i other => by
    simp [State.withJobs, other.symm]
  have acquired := l1Acquire_accessed t j.core
  have kept : (t.l1Acquire j.core).jobs = s1.jobs := acquired.jobs.trans released.jobs
  refine ⟨fun others => ?departs, fun others => ?waits⟩
  case departs =>
    change scalarWord { h with wait := dbarWait h s } [] none (some d) _ s = _
    let k1 : Job := { k with barGen := j.barGen + 1, c := { k.c with bar := none } }
    refine (scalarWord_ok run (s2 := (t.l1Acquire j.core).withJobs (s1.jobs.set c.job k1)) (j2 := k1)
      (v := BitVec.ofNat 64 (j.barGen + 1)) (nx := none) ?_ ?_ ?_).trans ?_
    · simp only [inHandlerC, idle, inBody, delivered.1, point, unheld, is, all.2 others, Option.isSome_none,
        Bool.false_and, Bool.or_self, Bool.false_eq_true, if_false, if_true]
      rw [State.l1Acquire_withJobs, State.modJob_eq (j := k) (by simp [State.withJobs, lt])]
      simp [State.withJobs, k1]
    · exact acquired.cursor.trans (released.cursor.trans run.1.cursor)
    · simp [State.withJobs, lt]
    · rw [← kept]
      exact congrArg _ (issued_withJobs_set ..)
  case waits =>
    change scalarWord { h with wait := dbarWait h s } [] none (some d) _ s = _
    refine scalarWord_stop run (s2 := { t.withJobs (s1.jobs.set c.job k) with cursor := none }) ?_
    simp only [inHandlerC, idle, inBody, delivered.1, point, unheld, is, Bool.eq_false_iff.2 (mt all.1 others),
      Option.isSome_none, Bool.false_and, Bool.or_self, Bool.false_eq_true, if_false]

/-- Settles O30: at a delivery point that passes, each word's own effect; at one with an enabled flag, its trap. -/
theorem deliveryPointWords : Obligations.DeliveryPointWords := by
  unfold Obligations.DeliveryPointWords
  refine ⟨?passes, ?traps⟩
  case passes =>
    intro s h d ord sc c j s1 delivered
    have slot := delivered.1
    refine ⟨?fence, ?join, ?dbar⟩
    case fence =>
      intro run free rel acq
      exact execFence_delivered run delivered free
    case join =>
      intro run inC other
      exact execJoin_delivered run delivered inC other
    case dbar =>
      intro stream idle unheld g others
      refine ⟨fun run bar => ?first, fun run bar arrived => ?later⟩
      case first =>
        have run : Runs s { h with wait := dbarWait h s } [] (some d) c j s1 := by rwa [dbarWait_arriving run.1 bar]
        have team := execDbar_team run delivered idle unheld (l1Release_accessed s1 j.core)
          ((if_neg (by simp [bar])).trans ((l1Release_accessed s1 j.core).modJob run.1.job _)) (Nat.le_refl _)
        refine ⟨fun all => (team.1 all).trans (congrArg _ ?_), team.2⟩
        exact issued_put_out h.sig { j with barAt := j.barGen + 1, barGen := j.barGen + 1, c := { j.c with bar := none } } d g g none
          stream slot
      case later =>
        have run : Runs s { h with wait := dbarWait h s } [] (some d) c j s1 := by rwa [dbarWait_arrived run.1 bar]
        have same := s1.withJobs_self run.1.job
        have team := execDbar_team run delivered idle unheld (.refl s1) ((if_pos bar).trans same.symm) arrived
        rw [same] at team
        exact team
  case traps =>
    intro s h d ord sc c j s1 set out handler retired stands idle noLoop
    have point := deliveryPoint_flagged handler.1 retired rfl stands
    refine ⟨fun run => ⟨?fence, ?join⟩, fun run stream bar => ?dbar⟩
    case fence =>
      change execFence h ord sc s = _
      refine scalarWord_trapTaken run handler ?_ (by decide)
      simp only [handler.1, Job.mustWait_stream, point, Bool.false_eq_true, if_false]
      rfl
    case join =>
      change execJoin h s = _
      refine scalarWord_trapTaken run handler ?_ (by decide)
      simp only [idle, noLoop, point, Option.isSome_none, Bool.or_self, Bool.and_false, Bool.false_eq_true, if_false]
      rfl
    case dbar =>
      change scalarWord { h with wait := dbarWait h s } [] none (some d) _ s = _
      rw [dbarWait_arriving run.1 bar]
      refine scalarWord_trapTaken run handler ?_ (by decide)
      simp only [inHandlerC, inBody, idle, handler.1, point, Option.isSome_none, Bool.or_self, Bool.false_and,
        Bool.false_eq_true, if_false]
      rfl

end Sys2Proof.Machine
end

section
/-! SUPPORT. The codes of operands in the fields of a word: a code reads as the operand it is the code of, and as no other. -/

namespace Sys2Proof

/-! ### Codes (R20, R55, R58, R61, R63, R66) -/

@[simp] theorem bitB_bBit (b : Bool) : bitB (bBit b) = b := by cases b <;> rfl
@[simp] theorem bBit_bitB (b : BitVec 1) : bBit (bitB b) = b := by revert b; decide

@[simp] theorem Src.ofCode_code (a : Src) : Src.ofCode a.code = a := by cases a <;> rename_i i <;> revert i <;> decide
@[simp] theorem Src.code_ofCode (c : BitVec 5) : (Src.ofCode c).code = c := by revert c; decide

@[simp] theorem Dest.ofCode_code (d : Dest) : Dest.ofCode d.code = some d := by
  cases d with
  | k i => revert i; decide
  | push | discard => rfl

@[simp] theorem KeyDest.ofCode_code (d : KeyDest) : KeyDest.ofCode d.code = some d := by
  cases d with
  | k i => revert i; decide
  | discard => rfl

@[simp] theorem predOf_p5 (p : BitVec 3) : predOf (p5 p) = some p := by revert p; decide
@[simp] theorem keptOf_append (k : BitVec 4) : keptOf (0#1 ++ k) = some k := by revert k; decide
@[simp] theorem vsrc_vk (a : Src) : vsrc (vk a) = some a := by cases a <;> rename_i i <;> revert i <;> decide
@[simp] theorem vmask_vm (m : BitVec 3) : vmask (vm m) = some m := by revert m; decide
@[simp] theorem idx2_append (i : BitVec 2) : idx2 (0#1 ++ i) = some i := by revert i; decide
@[simp] theorem ElemTy.ofCode_code (t : ElemTy) : ElemTy.ofCode t.code = some t := by cases t <;> rfl
@[simp] theorem Cond.ofCode_code (c : Cond) : Cond.ofCode c.code = some c := by cases c <;> rfl
@[simp] theorem VCond.ofCode_code (c : VCond) : VCond.ofCode c.code = some c := by cases c <;> rfl
@[simp] theorem MulhMode.ofCode_code (m : MulhMode) : MulhMode.ofCode m.code = some m := by cases m <;> rfl
@[simp] theorem AtomOp.ofCode_code (o : AtomOp) : AtomOp.ofCode o.code = some o := by cases o <;> rfl
@[simp] theorem Scope.ofCode_code (s : Scope) : Scope.ofCode s.code = some s := by cases s <;> rfl
@[simp] theorem RmwOrd.ofCode_code (o : RmwOrd) : RmwOrd.ofCode o.code = o := by cases o <;> rfl
@[simp] theorem RmwOrd.code_ofCode (c : BitVec 2) : (RmwOrd.ofCode c).code = c := by revert c; decide
@[simp] theorem FenceOrd.ofCode_code (o : FenceOrd) : FenceOrd.ofCode o.code = some o := by cases o <;> rfl
@[simp] theorem LevelKind.ofCode_code (k : LevelKind) : LevelKind.ofCode k.code = k := by cases k <;> rfl
@[simp] theorem LevelKind.code_ofCode (c : BitVec 2) : (LevelKind.ofCode c).code = c := by revert c; decide
@[simp] theorem FlushOp.ofCode_code (o : FlushOp) : FlushOp.ofCode o.code = some o := by cases o <;> rfl
@[simp] theorem Clamp.ofCode_code (c : Clamp) : Clamp.ofCode c.code = c := by cases c <;> rfl
@[simp] theorem Clamp.code_ofCode (c : BitVec 2) : (Clamp.ofCode c).code = c := by revert c; decide

@[simp] theorem rndOf_rndCode (r : Option RMode) : rndOf (rndCode r) = some r := by
  cases r with
  | none => rfl
  | some r => cases r <;> rfl

/-- A code that reads as an operand is the operand's own, where every code that reads as something is that thing's: the check is over
the codes alone. -/
theorem code_of_read {α : Type} {n : Nat} {read : BitVec n → Option α} {code : α → BitVec n}
    (all : ∀ c, (read c).all (fun a => code a == c) = true) {c : BitVec n} {a : α} (h : read c = some a) : code a = c := by
  simpa [h] using all c

theorem Dest.code_of_ofCode {c : BitVec 5} {d : Dest} (h : Dest.ofCode c = some d) : d.code = c := code_of_read (by decide) h
theorem KeyDest.code_of_ofCode {c : BitVec 5} {d : KeyDest} (h : KeyDest.ofCode c = some d) : d.code = c :=
  code_of_read (by decide) h
theorem p5_of_predOf {c : BitVec 5} {p : BitVec 3} (h : predOf c = some p) : p5 p = c := code_of_read (by decide) h
theorem append_of_keptOf {c : BitVec 5} {k : BitVec 4} (h : keptOf c = some k) : 0#1 ++ k = c :=
  code_of_read (code := fun k => 0#1 ++ k) (by decide) h
theorem vk_of_vsrc {c : BitVec 7} {a : Src} (h : vsrc c = some a) : vk a = c := code_of_read (by decide) h
theorem vm_of_vmask {c : BitVec 7} {m : BitVec 3} (h : vmask c = some m) : vm m = c := code_of_read (by decide) h
theorem append_of_idx2 {c : BitVec 3} {i : BitVec 2} (h : idx2 c = some i) : 0#1 ++ i = c :=
  code_of_read (code := fun i => 0#1 ++ i) (by decide) h
theorem ElemTy.code_of_ofCode {c : BitVec 4} {t : ElemTy} (h : ElemTy.ofCode c = some t) : t.code = c :=
  code_of_read (by decide) h
theorem Cond.code_of_ofCode {c : BitVec 5} {x : Cond} (h : Cond.ofCode c = some x) : x.code = c := code_of_read (by decide) h
theorem VCond.code_of_ofCode {c : BitVec 4} {x : VCond} (h : VCond.ofCode c = some x) : x.code = c := code_of_read (by decide) h
theorem MulhMode.code_of_ofCode {c : BitVec 5} {x : MulhMode} (h : MulhMode.ofCode c = some x) : x.code = c :=
  code_of_read (by decide) h
theorem AtomOp.code_of_ofCode {c : BitVec 3} {x : AtomOp} (h : AtomOp.ofCode c = some x) : x.code = c := code_of_read (by decide) h
theorem Scope.code_of_ofCode {c : BitVec 3} {x : Scope} (h : Scope.ofCode c = some x) : x.code = c := code_of_read (by decide) h
theorem FenceOrd.code_of_ofCode {c : BitVec 2} {x : FenceOrd} (h : FenceOrd.ofCode c = some x) : x.code = c :=
  code_of_read (by decide) h
theorem FlushOp.code_of_ofCode {c : BitVec 5} {x : FlushOp} (h : FlushOp.ofCode c = some x) : x.code = c :=
  code_of_read (by decide) h
theorem rndCode_of_rndOf {c : BitVec 3} {r : Option RMode} (h : rndOf c = some r) : rndCode r = c := code_of_read (by decide) h
theorem Wait.byte_of_ofByte {b : BitVec 8} {wt : Wait} (h : Wait.ofByte b = some wt) : wt.byte = b := code_of_read (by decide) h
theorem Sig.byte_of_ofByte {b : BitVec 8} {g : Sig} (h : Sig.ofByte b = some g) : g.byte = b := code_of_read (by decide) h
@[simp] theorem Guard.code_ofCode (c : BitVec 4) : (Guard.ofCode c).code = c := by revert c; decide

end Sys2Proof
end

section
/-! SUPPORT. The fields of an encoded word read back, format by format, and a word put together from its own fields. -/

namespace Sys2Proof

/-! ### Two fields side by side -/

/-- A field inside the low part. -/
theorem extract_of_low {v m lo n : Nat} {x : BitVec v} {y : BitVec m} (h : lo + n ≤ m) :
    (x ++ y).extractLsb' lo n = y.extractLsb' lo n := BitVec.extractLsb'_append_eq_of_add_le h

/-- A field inside the high part. -/
theorem extract_of_high {v m lo n : Nat} {x : BitVec v} {y : BitVec m} (h : m ≤ lo) :
    (x ++ y).extractLsb' lo n = x.extractLsb' (lo - m) n := BitVec.extractLsb'_append_eq_of_le h

/-- Two neighbouring fields of a word are one. -/
theorem fld_append {w : Word} {hi lo m n : Nat} (h : hi = lo + n) : fld w hi m ++ fld w lo n = fld w lo (m + n) :=
  BitVec.extractLsb'_append_extractLsb'_eq_extractLsb' h

theorem fld_all (w : Word) : fld w 0 64 = w := BitVec.extractLsb'_eq_self

/-! ### Headers (R53, R61, R65) -/

@[simp] theorem Wait.ofByte_byte (wt : Wait) : Wait.ofByte wt.byte = some wt := by
  cases wt <;>
    simp (disch := omega) only [Wait.ofByte, Wait.byte, extract_of_high, extract_of_low, BitVec.extractLsb'_eq_self,
      Nat.reduceSub] <;>
    rfl

@[simp] theorem Sig.ofByte_byte (g : Sig) : Sig.ofByte g.byte = some g := by
  simp (disch := omega) only [Sig.ofByte, Sig.byte, extract_of_high, extract_of_low, BitVec.extractLsb'_eq_self, Nat.reduceSub]
  rfl

@[simp] theorem Guard.ofCode_code (g : Guard) : Guard.ofCode g.code = g := by
  simp (disch := omega) only [Guard.ofCode, Guard.code, extract_of_high, extract_of_low, BitVec.extractLsb'_eq_self,
    Nat.reduceSub, bitB_bBit]

theorem Hdr.ofWord_eq_some {w : Word} {h : Hdr} (hdr : Hdr.ofWord w = some h) :
    h.wait.byte = fld w 56 8 ∧ h.sig.byte = fld w 48 8 ∧ h.guard.code = fld w 36 4 := by
  unfold Hdr.ofWord at hdr
  split at hdr
  case h_1 wt g hw hg =>
    obtain rfl := Option.some.inj hdr
    exact ⟨Wait.byte_of_ofByte hw, Sig.byte_of_ofByte hg, Guard.code_ofCode _⟩
  case h_2 => cases hdr

theorem VHdr.ofWord_eq_some {w : Word} {h : VHdr} (hdr : VHdr.ofWord w = some h) :
    h.wait.byte = fld w 56 8 ∧ h.sig.byte = fld w 48 8 ∧ h.mask = fld w 37 3 ∧ bBit h.more = fld w 36 1 := by
  unfold VHdr.ofWord at hdr
  split at hdr
  case h_1 wt g hw hg =>
    obtain rfl := Option.some.inj hdr
    exact ⟨Wait.byte_of_ofByte hw, Sig.byte_of_ofByte hg, rfl, bBit_bitB _⟩
  case h_2 => cases hdr

/-- The first 28 bits of a word outside V, from its own fields. -/
theorem Hdr.head_of_fields {w : Word} {h : Hdr} (hdr : Hdr.ofWord w = some h) : h.head (fOpc w) = fld w 36 28 := by
  obtain ⟨hw, hg, hp⟩ := Hdr.ofWord_eq_some hdr
  simp (disch := omega) only [Hdr.head, hw, hg, hp, fOpc, fld_append]

/-! ### Format by format (R62, R65, R72, R73) -/

/-- What the fields of an S3 word hold. -/
theorem encS3_fields (h : Hdr) (opc : BitVec 8) (d a b f : BitVec 5) (low : BitVec 16) :
    let w := encS3 h opc d a b f low
    Hdr.ofWord w = some h ∧ fOpc w = opc ∧ fD w = d ∧ fA w = a ∧ fB w = b ∧ fF w = f ∧ fLow w = low ∧
      (∀ lo n, 16 ≤ lo → lo + n ≤ 21 → fld w lo n = f.extractLsb' (lo - 16) n) ∧
      ∀ lo n, lo + n ≤ 16 → fld w lo n = low.extractLsb' lo n := by
  refine ⟨?_, ?_, ?_, ?_, ?_, ?_, ?_, fun lo n ge le => ?_, fun lo n le => ?_⟩ <;>
  simp (disch := omega) only [Hdr.ofWord, fOpc, fD, fA, fB, fF, fLow, fld, encS3, Hdr.head, extract_of_high, extract_of_low,
    BitVec.extractLsb'_eq_self, Nat.reduceSub, Wait.ofByte_byte, Sig.ofByte_byte, Guard.ofCode_code]

/-- A word is the S3 word of its own fields. -/
theorem encS3_of_fields {h : Hdr} {w : Word} (hdr : Hdr.ofWord w = some h) :
    encS3 h (fOpc w) (fD w) (fA w) (fB w) (fF w) (fLow w) = w := by
  simp (disch := omega) only [encS3, Hdr.head_of_fields hdr, fD, fA, fB, fF, fLow, fld_append]
  exact fld_all w

/-- What the fields of an SI word hold. -/
theorem encSI_fields (h : Hdr) (opc : BitVec 8) (d a : BitVec 5) (i : BitVec 26) :
    let w := encSI h opc d a i
    Hdr.ofWord w = some h ∧ fOpc w = opc ∧ fD w = d ∧ fA w = a ∧ fI26 w = i ∧
      ∀ lo n, lo + n ≤ 26 → fld w lo n = i.extractLsb' lo n := by
  refine ⟨?_, ?_, ?_, ?_, ?_, fun lo n le => ?_⟩ <;>
  simp (disch := omega) only [Hdr.ofWord, fOpc, fD, fA, fI26, fld, encSI, Hdr.head, extract_of_high, extract_of_low,
    BitVec.extractLsb'_eq_self, Nat.reduceSub, Wait.ofByte_byte, Sig.ofByte_byte, Guard.ofCode_code]

/-- A word is the SI word of its own fields. -/
theorem encSI_of_fields {h : Hdr} {w : Word} (hdr : Hdr.ofWord w = some h) : encSI h (fOpc w) (fD w) (fA w) (fI26 w) = w := by
  simp (disch := omega) only [encSI, Hdr.head_of_fields hdr, fD, fA, fI26, fld_append]
  exact fld_all w

/-- What the fields of an SL word hold. -/
theorem encSL_fields (h : Hdr) (opc : BitVec 8) (d : BitVec 5) (i : BitVec 31) :
    let w := encSL h opc d i
    Hdr.ofWord w = some h ∧ fOpc w = opc ∧ fD w = d ∧ fI31 w = i := by
  refine ⟨?_, ?_, ?_, ?_⟩ <;>
  simp (disch := omega) only [Hdr.ofWord, fOpc, fD, fI31, fld, encSL, Hdr.head, extract_of_high, extract_of_low,
    BitVec.extractLsb'_eq_self, Nat.reduceSub, Wait.ofByte_byte, Sig.ofByte_byte, Guard.ofCode_code]

/-- A word is the SL word of its own fields. -/
theorem encSL_of_fields {h : Hdr} {w : Word} (hdr : Hdr.ofWord w = some h) : encSL h (fOpc w) (fD w) (fI31 w) = w := by
  simp (disch := omega) only [encSL, Hdr.head_of_fields hdr, fD, fI31, fld_append]
  exact fld_all w

/-- What the fields of an SB word hold. -/
theorem encSB_fields (h : Hdr) (opc : BitVec 8) (i : BitVec 36) :
    let w := encSB h opc i
    Hdr.ofWord w = some h ∧ fOpc w = opc ∧ fI36 w = i ∧ ∀ lo n, lo + n ≤ 36 → fld w lo n = i.extractLsb' lo n := by
  refine ⟨?_, ?_, ?_, fun lo n le => ?_⟩ <;>
  simp (disch := omega) only [Hdr.ofWord, fOpc, fI36, fld, encSB, Hdr.head, extract_of_high, extract_of_low,
    BitVec.extractLsb'_eq_self, Nat.reduceSub, Wait.ofByte_byte, Sig.ofByte_byte, Guard.ofCode_code]

/-- A word is the SB word of its own fields. -/
theorem encSB_of_fields {h : Hdr} {w : Word} (hdr : Hdr.ofWord w = some h) : encSB h (fOpc w) (fI36 w) = w := by
  simp (disch := omega) only [encSB, Hdr.head_of_fields hdr, fI36, fld_append]
  exact fld_all w

/-- What the fields of an SM word hold. -/
theorem encSM_fields (h : Hdr) (opc : BitVec 8) (d a f : BitVec 5) (i : BitVec 21) :
    let w := encSM h opc d a f i
    Hdr.ofWord w = some h ∧ fOpc w = opc ∧ fD w = d ∧ fA w = a ∧ fSM w = f ∧ fI21 w = i ∧
      ∀ lo n, 21 ≤ lo → lo + n ≤ 26 → fld w lo n = f.extractLsb' (lo - 21) n := by
  refine ⟨?_, ?_, ?_, ?_, ?_, ?_, fun lo n ge le => ?_⟩ <;>
  simp (disch := omega) only [Hdr.ofWord, fOpc, fD, fA, fSM, fI21, fld, encSM, Hdr.head, extract_of_high, extract_of_low,
    BitVec.extractLsb'_eq_self, Nat.reduceSub, Wait.ofByte_byte, Sig.ofByte_byte, Guard.ofCode_code]

/-- A word is the SM word of its own fields. -/
theorem encSM_of_fields {h : Hdr} {w : Word} (hdr : Hdr.ofWord w = some h) :
    encSM h (fOpc w) (fD w) (fA w) (fSM w) (fI21 w) = w := by
  simp (disch := omega) only [encSM, Hdr.head_of_fields hdr, fD, fA, fSM, fI21, fld_append]
  exact fld_all w

/-- What the fields of a V-map word hold. -/
theorem encV_fields (h : VHdr) (opc : BitVec 8) (vd va vb vc : BitVec 7) (ty fn : BitVec 4) :
    let w := encV h opc vd va vb vc ty fn
    VHdr.ofWord w = some h ∧ fOpc w = opc ∧ fVD w = vd ∧ fVA w = va ∧ fVB w = vb ∧ fVC w = vc ∧ fTY w = ty ∧ fFN w = fn ∧
      fld w 17 5 = vb.extractLsb' 2 5 ∧ fld w 15 2 = vb.extractLsb' 0 2 ∧ fld w 12 3 = vc.extractLsb' 4 3 ∧
      fld w 8 4 = vc.extractLsb' 0 4 ∧ ∀ lo n, lo + n ≤ 4 → fld w lo n = fn.extractLsb' lo n := by
  refine ⟨?_, ?_, ?_, ?_, ?_, ?_, ?_, ?_, ?_, ?_, ?_, ?_, fun lo n le => ?_⟩ <;>
  simp (disch := omega) only [VHdr.ofWord, fOpc, fVD, fVA, fVB, fVC, fTY, fFN, fld, encV, extract_of_high, extract_of_low,
    BitVec.extractLsb'_eq_self, Nat.reduceSub, Wait.ofByte_byte, Sig.ofByte_byte, bitB_bBit]

/-- The offset of `VLD` and `VST` is VB and VC together. -/
theorem fld_offset (w : Word) : fld w 8 14 = fVB w ++ fVC w := by
  simp (disch := omega) only [fVB, fVC, fld_append]

/-- A word is the V-map word of its own fields. -/
theorem encV_of_fields {h : VHdr} {w : Word} (hdr : VHdr.ofWord w = some h) :
    encV h (fOpc w) (fVD w) (fVA w) (fVB w) (fVC w) (fTY w) (fFN w) = w := by
  obtain ⟨hw, hg, hm, ho⟩ := VHdr.ofWord_eq_some hdr
  simp (disch := omega) only [encV, hw, hg, hm, ho, fOpc, fVD, fVA, fVB, fVC, fTY, fFN, fld_append]
  exact fld_all w

/-- What the fields of an M-map word hold. -/
theorem encM_fields (h : Hdr) (opc : BitVec 8) (idx : BitVec 3) (tl : BitVec 2) (src : BitVec 3) (kc ka : BitVec 5)
    (nb : BitVec 12) :
    let w := encM h opc idx tl src kc ka nb
    Hdr.ofWord w = some h ∧ fOpc w = opc ∧ fIDX w = idx ∧ fTL w = tl ∧ fSRC w = src ∧ fKC w = kc ∧ fKA w = ka ∧ fMZ w = 0#6 ∧
      fNB w = nb ∧ fld w 30 1 = src.extractLsb' 2 1 ∧ fld w 28 2 = src.extractLsb' 0 2 ∧
      ∀ lo n, lo + n ≤ 12 → fld w lo n = nb.extractLsb' lo n := by
  refine ⟨?_, ?_, ?_, ?_, ?_, ?_, ?_, ?_, ?_, ?_, ?_, fun lo n le => ?_⟩ <;>
  simp (disch := omega) only [Hdr.ofWord, fOpc, fIDX, fTL, fSRC, fKC, fKA, fMZ, fNB, fld, encM, Hdr.head, extract_of_high,
    extract_of_low, BitVec.extractLsb'_eq_self, Nat.reduceSub, Wait.ofByte_byte, Sig.ofByte_byte, Guard.ofCode_code]

/-- A word whose bits [17:12] are zero is the M-map word of its own fields. -/
theorem encM_of_fields {h : Hdr} {w : Word} (hdr : Hdr.ofWord w = some h) (zero : fMZ w = 0#6) :
    encM h (fOpc w) (fIDX w) (fTL w) (fSRC w) (fKC w) (fKA w) (fNB w) = w := by
  rw [encM, ← zero]
  simp (disch := omega) only [Hdr.head_of_fields hdr, fIDX, fTL, fSRC, fKC, fKA, fMZ, fNB, fld_append]
  exact fld_all w

/-- What the fields of a copy word hold. -/
theorem encX_fields (h : Hdr) (opc : BitVec 8) (sh : BitVec 3) (km ks kn fn d : BitVec 5) :
    let w := encX h opc sh km ks kn fn d
    Hdr.ofWord w = some h ∧ fOpc w = opc ∧ fSH w = sh ∧ fKM w = km ∧ fKS w = ks ∧ fKN w = kn ∧ fXFN w = fn ∧ fXD w = d ∧
      fXZ w = 0#8 ∧ fld w 14 4 = fn.extractLsb' 1 4 ∧ fld w 13 1 = fn.extractLsb' 0 1 := by
  refine ⟨?_, ?_, ?_, ?_, ?_, ?_, ?_, ?_, ?_, ?_, ?_⟩ <;>
  simp (disch := omega) only [Hdr.ofWord, fOpc, fSH, fKM, fKS, fKN, fXFN, fXD, fXZ, fld, encX, Hdr.head, extract_of_high,
    extract_of_low, BitVec.extractLsb'_eq_self, Nat.reduceSub, Wait.ofByte_byte, Sig.ofByte_byte, Guard.ofCode_code]

/-- A word whose bits [7:0] are zero is the copy word of its own fields. -/
theorem encX_of_fields {h : Hdr} {w : Word} (hdr : Hdr.ofWord w = some h) (zero : fXZ w = 0#8) :
    encX h (fOpc w) (fSH w) (fKM w) (fKS w) (fKN w) (fXFN w) (fXD w) = w := by
  rw [encX, ← zero]
  simp (disch := omega) only [Hdr.head_of_fields hdr, fSH, fKM, fKS, fKN, fXFN, fXD, fXZ, fld_append]
  exact fld_all w

end Sys2Proof
end

section
/-! SUPPORT. Decoding the word that an instruction is encoded as, map by map; and O2. -/

namespace Sys2Proof

/-! ### The map a word is read by (R54) -/

theorem decodeRaw_common {x : StreamId} {h : Hdr} {w : Word} (hdr : Hdr.ofWord w = some h) (low : (fOpc w).toNat < 0x40) :
    decodeRaw x w = decodeCommon h w := by
  simp [decodeRaw, hdr, low]

theorem decodeRaw_cOnly {h : Hdr} {w : Word} (hdr : Hdr.ofWord w = some h) (ge : 0x40 ≤ (fOpc w).toNat)
    (lt : (fOpc w).toNat < 0x80) : decodeRaw .c w = decodeCOnly h w := by
  simp [decodeRaw, hdr, Nat.not_lt.2 ge, lt]

theorem decodeRaw_v {h : VHdr} {w : Word} (hdr : VHdr.ofWord w = some h) (ge : 0x80 ≤ (fOpc w).toNat) :
    decodeRaw .v w = decodeV h w := by
  simp [decodeRaw, hdr, Nat.not_lt.2 ge, show ¬ (fOpc w).toNat < 0x40 by omega]

theorem decodeRaw_m {h : Hdr} {w : Word} (hdr : Hdr.ofWord w = some h) (ge : 0x80 ≤ (fOpc w).toNat) :
    decodeRaw .m w = decodeM h w := by
  simp [decodeRaw, hdr, Nat.not_lt.2 ge, show ¬ (fOpc w).toNat < 0x40 by omega]

theorem decodeRaw_x {x : StreamId} {h : Hdr} {w : Word} (copies : x = .l ∨ x = .s) (hdr : Hdr.ofWord w = some h)
    (ge : 0x80 ≤ (fOpc w).toNat) : decodeRaw x w = decodeX h w := by
  rcases copies with rfl | rfl <;>
  simp [decodeRaw, hdr, Nat.not_lt.2 ge, show ¬ (fOpc w).toNat < 0x40 by omega]

/-! ### Shapes shared by several words -/

theorem decZ_encSB (h : Hdr) (opc : BitVec 8) (i : Instr) : decZ (encSB h opc 0) i = some i := by
  simp [decZ, encSB_fields, req]

theorem decD_encS3 (h : Hdr) (opc : BitVec 8) (d : Dest) (mk : Dest → Instr) :
    decD (encS3 h opc d.code 0 0 0 0) mk = some (mk d) := by
  simp [decD, encS3_fields, req]

theorem decDA_encDA (h : Hdr) (opc : BitVec 8) (d : Dest) (a : Src) (mk : Dest → Src → Instr) :
    decDA (encDA h opc d a) mk = some (mk d a) := by
  simp [decDA, encDA, encS3_fields, req]

theorem decDAB_encDAB (h : Hdr) (opc : BitVec 8) (d : Dest) (a b : Src) (mk : Dest → Src → Src → Instr) :
    decDAB (encDAB h opc d a b) mk = some (mk d a b) := by
  simp [decDAB, encDAB, encS3_fields, req]

theorem decDABs_encDABs (h : Hdr) (opc : BitVec 8) (d : Dest) (a b : Src) (s : Bool) (mk : Dest → Src → Src → Bool → Instr) :
    decDABs (encDABs h opc d a b s) mk = some (mk d a b s) := by
  cases s <;> simp [decDABs, encDABs, encS3_fields, req, bBit]

theorem decDABF_encS3 (h : Hdr) (opc : BitVec 8) (d : Dest) (a b n : Src) (mk : Dest → Src → Src → Src → Instr) :
    decDABF (encS3 h opc d.code a.code b.code n.code 0) mk = some (mk d a b n) := by
  simp [decDABF, encS3_fields, req]

theorem decV1_encV (h : VHdr) (opc : BitVec 8) (vd va : BitVec 7) (t : ElemTy) (mk : BitVec 7 → BitVec 7 → ElemTy → Instr) :
    decV1 (encV h opc vd va 0 0 t.code 0) mk = some (mk vd va t) := by
  simp [decV1, encV_fields, req]

theorem decV2_encV (h : VHdr) (opc : BitVec 8) (vd va vb : BitVec 7) (t : ElemTy)
    (mk : BitVec 7 → BitVec 7 → BitVec 7 → ElemTy → Instr) : decV2 (encV h opc vd va vb 0 t.code 0) mk = some (mk vd va vb t) := by
  simp [decV2, encV_fields, req]

theorem decV3_encV (h : VHdr) (opc : BitVec 8) (vd va vb vc : BitVec 7) (t : ElemTy)
    (mk : BitVec 7 → BitVec 7 → BitVec 7 → BitVec 7 → ElemTy → Instr) :
    decV3 (encV h opc vd va vb vc t.code 0) mk = some (mk vd va vb vc t) := by
  simp [decV3, encV_fields, req]

theorem decCopy_encX (h : Hdr) (opc : BitVec 8) (d : Dest) (sh : BitVec 3) (km ks kn : Src)
    (mk : Dest → BitVec 3 → Src → Src → Src → Instr) :
    decCopy (encX h opc sh km.code ks.code kn.code 0 d.code) mk = some (mk d sh km ks kn) := by
  simp [decCopy, encX_fields, req]

/-! ### The map and the opcode of an encoded word -/

section Rows

variable {x : StreamId} {h : Hdr} {opc : BitVec 8}

theorem fOpc_encS3 {d a b f : BitVec 5} {low : BitVec 16} : fOpc (encS3 h opc d a b f low) = opc := (encS3_fields ..).2.1
theorem fOpc_encSI {d a : BitVec 5} {i : BitVec 26} : fOpc (encSI h opc d a i) = opc := (encSI_fields ..).2.1
theorem fOpc_encSL {d : BitVec 5} {i : BitVec 31} : fOpc (encSL h opc d i) = opc := (encSL_fields ..).2.1
theorem fOpc_encSB {i : BitVec 36} : fOpc (encSB h opc i) = opc := (encSB_fields ..).2.1
theorem fOpc_encSM {d a f : BitVec 5} {i : BitVec 21} : fOpc (encSM h opc d a f i) = opc := (encSM_fields ..).2.1
theorem fOpc_encV {h : VHdr} {vd va vb vc : BitVec 7} {ty fn : BitVec 4} : fOpc (encV h opc vd va vb vc ty fn) = opc :=
  (encV_fields ..).2.1
theorem fOpc_encM {idx src : BitVec 3} {tl : BitVec 2} {kc ka : BitVec 5} {nb : BitVec 12} :
    fOpc (encM h opc idx tl src kc ka nb) = opc := (encM_fields ..).2.1
theorem fOpc_encX {sh : BitVec 3} {km ks kn fn d : BitVec 5} : fOpc (encX h opc sh km ks kn fn d) = opc := (encX_fields ..).2.1

theorem decodeRaw_encS3_common {d a b f : BitVec 5} {low : BitVec 16} (lt : opc.toNat < 0x40) :
    decodeRaw x (encS3 h opc d a b f low) = decodeCommon h (encS3 h opc d a b f low) :=
  decodeRaw_common (encS3_fields ..).1 (by rwa [fOpc_encS3])

theorem decodeRaw_encSI {d a : BitVec 5} {i : BitVec 26} (lt : opc.toNat < 0x40) :
    decodeRaw x (encSI h opc d a i) = decodeCommon h (encSI h opc d a i) :=
  decodeRaw_common (encSI_fields ..).1 (by rwa [fOpc_encSI])

theorem decodeRaw_encSL {d : BitVec 5} {i : BitVec 31} (lt : opc.toNat < 0x40) :
    decodeRaw x (encSL h opc d i) = decodeCommon h (encSL h opc d i) :=
  decodeRaw_common (encSL_fields ..).1 (by rwa [fOpc_encSL])

theorem decodeRaw_encSB_common {i : BitVec 36} (lt : opc.toNat < 0x40) :
    decodeRaw x (encSB h opc i) = decodeCommon h (encSB h opc i) :=
  decodeRaw_common (encSB_fields ..).1 (by rwa [fOpc_encSB])

theorem decodeRaw_encSM_common {d a f : BitVec 5} {i : BitVec 21} (lt : opc.toNat < 0x40) :
    decodeRaw x (encSM h opc d a f i) = decodeCommon h (encSM h opc d a f i) :=
  decodeRaw_common (encSM_fields ..).1 (by rwa [fOpc_encSM])

theorem decodeRaw_encS3_cOnly {d a b f : BitVec 5} {low : BitVec 16} (ge : 0x40 ≤ opc.toNat) (lt : opc.toNat < 0x80) :
    decodeRaw .c (encS3 h opc d a b f low) = decodeCOnly h (encS3 h opc d a b f low) :=
  decodeRaw_cOnly (encS3_fields ..).1 (by rwa [fOpc_encS3]) (by rwa [fOpc_encS3])

theorem decodeRaw_encSB_cOnly {i : BitVec 36} (ge : 0x40 ≤ opc.toNat) (lt : opc.toNat < 0x80) :
    decodeRaw .c (encSB h opc i) = decodeCOnly h (encSB h opc i) :=
  decodeRaw_cOnly (encSB_fields ..).1 (by rwa [fOpc_encSB]) (by rwa [fOpc_encSB])

theorem decodeRaw_encSM_cOnly {d a f : BitVec 5} {i : BitVec 21} (ge : 0x40 ≤ opc.toNat) (lt : opc.toNat < 0x80) :
    decodeRaw .c (encSM h opc d a f i) = decodeCOnly h (encSM h opc d a f i) :=
  decodeRaw_cOnly (encSM_fields ..).1 (by rwa [fOpc_encSM]) (by rwa [fOpc_encSM])

theorem decodeRaw_encV {h : VHdr} {vd va vb vc : BitVec 7} {ty fn : BitVec 4} (ge : 0x80 ≤ opc.toNat) :
    decodeRaw .v (encV h opc vd va vb vc ty fn) = decodeV h (encV h opc vd va vb vc ty fn) :=
  decodeRaw_v (encV_fields ..).1 (by rwa [fOpc_encV])

theorem decodeRaw_encM {idx src : BitVec 3} {tl : BitVec 2} {kc ka : BitVec 5} {nb : BitVec 12} (ge : 0x80 ≤ opc.toNat) :
    decodeRaw .m (encM h opc idx tl src kc ka nb) = decodeM h (encM h opc idx tl src kc ka nb) :=
  decodeRaw_m (encM_fields ..).1 (by rwa [fOpc_encM])

theorem decodeRaw_encX {sh : BitVec 3} {km ks kn fn d : BitVec 5} (copies : (x == .l || x == .s) = true) (ge : 0x80 ≤ opc.toNat) :
    decodeRaw x (encX h opc sh km ks kn fn d) = decodeX h (encX h opc sh km ks kn fn d) :=
  decodeRaw_x (by simpa using copies) (encX_fields ..).1 (by rwa [fOpc_encX])

end Rows

/-! ### Every word -/

theorem ldOrdOf_code (o : MemOrd) : ldOrdOf o.ldCode o.imm = some o := by
  cases o <;>
    simp (disch := omega) [ldOrdOf, MemOrd.ldCode, MemOrd.imm, extract_of_high, extract_of_low, -Nat.reduceAdd]

theorem stOrdOf_code (o : MemOrd) : stOrdOf o.stCode o.imm = some o := by
  cases o <;>
    simp (disch := omega) [stOrdOf, MemOrd.stCode, MemOrd.imm, extract_of_high, extract_of_low, -Nat.reduceAdd]

/-- A word that C executes is read as its instruction. -/
theorem decodeRaw_of_encode_scalar {x : StreamId} {i : Instr} {w : Word} (mine : (i.stream .c && i.stream x) = true)
    (word : encode i = some w) : decodeRaw x w = some i := by
  cases i
  -- the common map
  case nop | join =>
    obtain rfl := Option.some.inj word
    rw [decodeRaw_encSB_common (by decide), decodeCommon, fOpc_encSB]
    exact decZ_encSB ..
  case br | call =>
    obtain rfl := Option.some.inj word
    rw [decodeRaw_encSB_common (by decide), decodeCommon, fOpc_encSB]
    simp [encSB_fields]
  case ret =>
    obtain rfl := Option.some.inj word
    rw [decodeRaw_encSB_common (by decide), decodeCommon, fOpc_encSB]
    simp [encSB_fields, fD, fA, fB, fF, fLow, req]
  case movi | loop =>
    obtain rfl := Option.some.inj word
    rw [decodeRaw_encSL (by decide), decodeCommon, fOpc_encSL]
    simp [encSL_fields]
  case movk | addi | csrr | csrw =>
    obtain rfl := Option.some.inj word
    rw [decodeRaw_encSI (by decide), decodeCommon, fOpc_encSI]
    simp (disch := omega) [encSI_fields, fLow, req, extract_of_high, extract_of_low, -Nat.reduceAdd]
  case cmpi | lds | sts =>
    obtain rfl := Option.some.inj word
    rw [decodeRaw_encSM_common (by decide), decodeCommon, fOpc_encSM]
    simp (disch := omega) [encSM_fields, req, extract_of_high, extract_of_low, -Nat.reduceAdd]
  case mov =>
    obtain rfl := Option.some.inj word
    rw [encDA, decodeRaw_encS3_common (by decide), decodeCommon, fOpc_encS3]
    exact decDA_encDA ..
  case add | sub | and | or | xor | andn | shl | shr | sar =>
    obtain rfl := Option.some.inj word
    rw [encDAB, decodeRaw_encS3_common (by decide), decodeCommon, fOpc_encS3]
    exact decDAB_encDAB ..
  case min | max =>
    obtain rfl := Option.some.inj word
    rw [encDABs, decodeRaw_encS3_common (by decide), decodeCommon, fOpc_encS3]
    exact decDABs_encDABs ..
  case cmp | sel | pset | jmp | retReg | qpush | qpop | qlvl | stamp | stampSet | trap | idq =>
    obtain rfl := Option.some.inj word
    rw [decodeRaw_encS3_common (by decide), decodeCommon, fOpc_encS3]
    simp (disch := omega) [encS3_fields, req, extract_of_high, extract_of_low, -Nat.reduceAdd]
  -- the C-only map
  case clz | ctz | popc | ploop | ckpt =>
    obtain rfl := Option.some.inj word
    obtain rfl := eq_of_beq mine
    rw [encDA, decodeRaw_encS3_cOnly (by decide) (by decide), decodeCOnly, fOpc_encS3]
    exact decDA_encDA ..
  case mul | launch =>
    obtain rfl := Option.some.inj word
    obtain rfl := eq_of_beq mine
    rw [encDAB, decodeRaw_encS3_cOnly (by decide) (by decide), decodeCOnly, fOpc_encS3]
    exact decDAB_encDAB ..
  case div | rem =>
    obtain rfl := Option.some.inj word
    obtain rfl := eq_of_beq mine
    rw [encDABs, decodeRaw_encS3_cOnly (by decide) (by decide), decodeCOnly, fOpc_encS3]
    exact decDABs_encDABs ..
  case fshl | fshr | wqpush =>
    obtain rfl := Option.some.inj word
    obtain rfl := eq_of_beq mine
    rw [decodeRaw_encS3_cOnly (by decide) (by decide), decodeCOnly, fOpc_encS3]
    exact decDABF_encS3 ..
  case dbar | yield =>
    obtain rfl := Option.some.inj word
    obtain rfl := eq_of_beq mine
    rw [decodeRaw_encS3_cOnly (by decide) (by decide), decodeCOnly, fOpc_encS3]
    exact decD_encS3 ..
  case pnext | pgend | pexit =>
    obtain rfl := Option.some.inj word
    obtain rfl := eq_of_beq mine
    rw [decodeRaw_encSB_cOnly (by decide) (by decide), decodeCOnly, fOpc_encSB]
    exact decZ_encSB ..
  case ld =>
    obtain rfl := Option.some.inj word
    obtain rfl := eq_of_beq mine
    rw [decodeRaw_encSM_cOnly (by decide) (by decide), decodeCOnly, fOpc_encSM]
    simp (disch := omega) [encSM_fields, extract_of_high, extract_of_low, ldOrdOf_code, -Nat.reduceAdd]
  case st =>
    obtain rfl := Option.some.inj word
    obtain rfl := eq_of_beq mine
    rw [decodeRaw_encSM_cOnly (by decide) (by decide), decodeCOnly, fOpc_encSM]
    simp (disch := omega) [encSM_fields, req, extract_of_high, extract_of_low, stOrdOf_code, -Nat.reduceAdd]
  case atomf h d a b ft o sc =>
    obtain rfl := Option.some.inj word
    obtain rfl := eq_of_beq mine
    rw [decodeRaw_encS3_cOnly (by decide) (by decide), decodeCOnly, fOpc_encS3]
    cases ft <;>
    simp (disch := omega) [encS3_fields, req, extract_of_high, extract_of_low, bBit, -Nat.reduceAdd]
  case mulh | bfx | bfi | atom | acas | fence | wqpop | pacc | pstat | apopen | apnd | apcommit | aptrunc | apfork | apstat |
      discMark | discKeep | discLost | discAck | tretRetry | tretNext | tretAbort =>
    obtain rfl := Option.some.inj word
    obtain rfl := eq_of_beq mine
    rw [decodeRaw_encS3_cOnly (by decide) (by decide), decodeCOnly, fOpc_encS3]
    simp (disch := omega) [encS3_fields, req, slotOf, extract_of_high, extract_of_low, -Nat.reduceAdd]
  -- other words, and the steps of engines and agents
  all_goals exact absurd mine Bool.false_ne_true

/-- What the fields of VMOD's word hold (R67). -/
theorem vmod_fields {wt : Wait} {g : Sig} {neg abs : BitVec 3} {cl : Clamp} {sc : BitVec 4} {rnd : Option RMode} {w : Word}
    (word : encode (.vmod wt g neg abs cl sc rnd) = some w) :
    VHdr.ofWord w = some ⟨wt, g, 0, true⟩ ∧ fOpc w = 0xF0 ∧ fld w 33 3 = neg ∧ fld w 30 3 = abs ∧ fld w 28 2 = cl.code ∧
      fld w 24 4 = sc ∧ fld w 21 3 = rndCode rnd ∧ fld w 0 21 = 0#21 := by
  obtain rfl := Option.some.inj word
  refine ⟨?_, ?_, ?_, ?_, ?_, ?_, ?_, ?_⟩ <;>
  simp (disch := omega) only [VHdr.ofWord, fOpc, fld, extract_of_high, extract_of_low, BitVec.extractLsb'_eq_self, Nat.reduceSub,
    Wait.ofByte_byte, Sig.ofByte_byte] <;>
  rfl

/-- A word of the V map is read as its instruction. -/
theorem decodeRaw_of_encode_v {x : StreamId} {i : Instr} {w : Word} (mine : (!i.stream .c && i.stream .v && i.stream x) = true)
    (word : encode i = some w) : decodeRaw x w = some i := by
  cases i
  case vsqrt | vclass | vrcpe | vrsqe | vexp2 | vlog2 | vsin | vcos | vclz | vpopc | vredsum | vredmax | vredmin =>
    obtain rfl := Option.some.inj word
    obtain rfl := eq_of_beq mine
    rw [decodeRaw_encV (by decide), decodeV, fOpc_encV]
    exact decV1_encV ..
  case vadd | vsub | vmul | vdiv | vmin | vmax | vminn | vmaxn | vrcps | vrsqs | viadd | visub | vimul | vimulh | vand | vor |
      vxor | vandn | vshl | vshr | vsar | vrot | vperm | vbset =>
    obtain rfl := Option.some.inj word
    obtain rfl := eq_of_beq mine
    rw [decodeRaw_encV (by decide), decodeV, fOpc_encV]
    exact decV2_encV ..
  case vfma | vfms | vfnma | vimad | vfshl | vfshr | vshuf =>
    obtain rfl := Option.some.inj word
    obtain rfl := eq_of_beq mine
    rw [decodeRaw_encV (by decide), decodeV, fOpc_encV]
    exact decV3_encV ..
  case vld h vd ka off t bm | vst h vd ka off t bm =>
    obtain rfl := Option.some.inj word
    have halves : BitVec.extractLsb' 7 7 off ++ BitVec.extractLsb' 0 7 off = off := BitVec.extractLsb'_append_extractLsb'
    obtain rfl := eq_of_beq mine
    rw [decodeRaw_encV (by decide), decodeV, fOpc_encV]
    simp (disch := omega) [encV_fields, fld_offset, halves, req, extract_of_high, extract_of_low, -Nat.reduceAdd]
  case vtab h va tl kg uns =>
    obtain rfl := Option.some.inj word
    obtain rfl := eq_of_beq mine
    rw [decodeRaw_encV (by decide), decodeV, fOpc_encV]
    cases uns <;>
    simp (disch := omega) [encV_fields, req, extract_of_high, extract_of_low, bBit, -Nat.reduceAdd]
  case vcmp | vcvt | vqblk | vqblkGiven | vdqblk | vlds | vgats | vscats | vbcast | vslideDn | vslideUp | vsel | vext | vins |
      vredarg | vscan | viota | vmpop | vmlog | vsnap | vprefeq | vshort | vmass | vnoise | vbtest =>
    obtain rfl := Option.some.inj word
    obtain rfl := eq_of_beq mine
    rw [decodeRaw_encV (by decide), decodeV, fOpc_encV]
    simp (disch := omega) [encV_fields, req, extract_of_high, extract_of_low, -Nat.reduceAdd]
  case vmod wt g neg abs cl sc rnd =>
    obtain ⟨hdr, opc, fields⟩ := vmod_fields word
    obtain rfl := eq_of_beq mine
    rw [decodeRaw_v hdr (by simp [opc]), decodeV, opc]
    simp [req, fields]
  -- other words, and the steps of engines and agents
  all_goals exact absurd mine Bool.false_ne_true

/-- A word of the M map, or a copy or Sluice word, is read as its instruction. -/
theorem decodeRaw_of_encode_engine {x : StreamId} {i : Instr} {w : Word}
    (mine : (!i.stream .c && !i.stream .v && i.stream x) = true) (word : encode i = some w) : decodeRaw x w = some i := by
  cases i
  -- the M map
  case tdecl h t f d =>
    obtain rfl := Option.some.inj word
    obtain rfl := eq_of_beq mine
    rw [decodeRaw_encM (by decide), decodeM, fOpc_encM]
    cases f <;>
    simp (disch := omega) [encM_fields, req, extract_of_high, extract_of_low, -Nat.reduceAdd]
  case cbload | tlset | lmm | cfeed | cunfeed | lspill | lfill | lzero | lwake | lstat | tload | tsave =>
    obtain rfl := Option.some.inj word
    obtain rfl := eq_of_beq mine
    rw [decodeRaw_encM (by decide), decodeM, fOpc_encM]
    simp (disch := omega) [encM_fields, req, extract_of_high, extract_of_low, -Nat.reduceAdd]
  case lmmFeed h t tl cf kc nb =>
    obtain rfl := Option.some.inj word
    obtain rfl := eq_of_beq mine
    have feed : ∀ f : BitVec 2, 1#1 ++ f ≠ 0#3 := by decide
    rw [decodeRaw_encM (by decide), decodeM, fOpc_encM]
    simp (disch := omega) [encM_fields, req, feed, extract_of_high, extract_of_low, -Nat.reduceAdd]
  -- the copy and Sluice map
  case cpy | cpyc | gath | gathp | scat =>
    obtain rfl := Option.some.inj word
    rw [decodeRaw_encX mine (by decide), decodeX, fOpc_encX]
    exact decCopy_encX ..
  case shape | cpyo | cpyoAppend | pref | cwait | cwaitAll | cflush | cstat =>
    obtain rfl := Option.some.inj word
    rw [decodeRaw_encX mine (by decide), decodeX, fOpc_encX]
    simp (disch := omega) [encX_fields, req, decCopy, extract_of_high, extract_of_low, -Nat.reduceAdd]
  -- other words, and the steps of engines and agents
  all_goals exact absurd mine Bool.false_ne_true

/-- Whatever stream executes an instruction's word reads the instruction from it. -/
theorem decodeRaw_of_encode {x : StreamId} {i : Instr} {w : Word} (mine : i.stream x = true) (word : encode i = some w) :
    decodeRaw x w = some i := by
  rcases onC : i.stream .c with _ | _
  · rcases onV : i.stream .v with _ | _
    · exact decodeRaw_of_encode_engine (by simp [onC, onV, mine]) word
    · exact decodeRaw_of_encode_v (by simp [onC, onV, mine]) word
  · exact decodeRaw_of_encode_scalar (by simp [onC, mine]) word

end Sys2Proof
end

section
/-! SUPPORT. A word that decodes is the word of what it decodes to, map by map; and O3. -/

namespace Sys2Proof

/-- A reading `o` of the word `w` in stream `x`, where it reads an instruction, reads one whose word is `w` and which `x` executes. -/
def Reads (x : StreamId) (w : Word) (o : Option Instr) : Prop := ∀ i, o = some i → encode i = some w ∧ i.stream x = true

section Parts

variable {x : StreamId} {w : Word}

theorem Reads.none : Reads x w none := fun _ h => nomatch h

theorem Reads.some {i : Instr} (word : encode i = some w) (mine : i.stream x = true) : Reads x w (some i) := by
  rintro _ ⟨⟩
  exact ⟨word, mine⟩

theorem Reads.req {b : Bool} {o : Option Instr} (h : b = true → Reads x w o) : Reads x w (req b o) := by
  cases b
  · exact Reads.none
  · exact h rfl

theorem Reads.ite {p : Prop} [Decidable p] {o o' : Option Instr} (h : p → Reads x w o) (h' : ¬p → Reads x w o') :
    Reads x w (if p then o else o') := by
  split
  · exact h ‹_›
  · exact h' ‹_›

/-- An operand read from a field by `read`. -/
theorem Reads.map {α : Type} {o : Option α} {mk : α → Instr} (h : ∀ a, o = Option.some a → encode (mk a) = Option.some w ∧ (mk a).stream x = true) :
    Reads x w (o.map mk) := by
  intro i hi
  obtain ⟨a, ha, rfl⟩ := Option.map_eq_some_iff.1 hi
  exact h a ha

theorem Reads.bind {α : Type} {o : Option α} {f : α → Option Instr} (h : ∀ a, o = Option.some a → Reads x w (f a)) :
    Reads x w (o.bind f) := by
  intro i hi
  obtain ⟨a, ha, hi⟩ := Option.bind_eq_some_iff.1 hi
  exact h a ha i hi

end Parts

/-! ### A word whose fields are those an instruction is encoded with -/

section Words

variable {h : Hdr} {w : Word} {n : Nat}

theorem opcode_eq (op : (fOpc w).toNat = n) : fOpc w = BitVec.ofNat 8 n := by
  rw [← op, BitVec.ofNat_toNat, BitVec.setWidth_eq]

theorem wordS3 {d a b f : BitVec 5} {low : BitVec 16} (hdr : Hdr.ofWord w = some h) (op : (fOpc w).toNat = n)
    (fields : d = fD w ∧ a = fA w ∧ b = fB w ∧ f = fF w ∧ low = fLow w) : some (encS3 h (BitVec.ofNat 8 n) d a b f low) = some w := by
  obtain ⟨rfl, rfl, rfl, rfl, rfl⟩ := fields
  rw [← opcode_eq op, encS3_of_fields hdr]

theorem wordSI {d a : BitVec 5} {i : BitVec 26} (hdr : Hdr.ofWord w = some h) (op : (fOpc w).toNat = n)
    (fields : d = fD w ∧ a = fA w ∧ i = fI26 w) : some (encSI h (BitVec.ofNat 8 n) d a i) = some w := by
  obtain ⟨rfl, rfl, rfl⟩ := fields
  rw [← opcode_eq op, encSI_of_fields hdr]

theorem wordSL {d : BitVec 5} (hdr : Hdr.ofWord w = some h) (op : (fOpc w).toNat = n) (field : d = fD w) :
    some (encSL h (BitVec.ofNat 8 n) d (fI31 w)) = some w := by
  rw [← opcode_eq op, field, encSL_of_fields hdr]

theorem wordSB {i : BitVec 36} (hdr : Hdr.ofWord w = some h) (op : (fOpc w).toNat = n) (field : i = fI36 w) :
    some (encSB h (BitVec.ofNat 8 n) i) = some w := by
  rw [← opcode_eq op, field, encSB_of_fields hdr]

theorem wordSM {d a f : BitVec 5} {i : BitVec 21} (hdr : Hdr.ofWord w = some h) (op : (fOpc w).toNat = n)
    (fields : d = fD w ∧ a = fA w ∧ f = fSM w ∧ i = fI21 w) : some (encSM h (BitVec.ofNat 8 n) d a f i) = some w := by
  obtain ⟨rfl, rfl, rfl, rfl⟩ := fields
  rw [← opcode_eq op, encSM_of_fields hdr]

theorem wordV {h : VHdr} {vd va vb vc : BitVec 7} {ty fn : BitVec 4} (hdr : VHdr.ofWord w = some h) (op : (fOpc w).toNat = n)
    (fields : vd = fVD w ∧ va = fVA w ∧ vb = fVB w ∧ vc = fVC w ∧ ty = fTY w ∧ fn = fFN w) :
    some (encV h (BitVec.ofNat 8 n) vd va vb vc ty fn) = some w := by
  obtain ⟨rfl, rfl, rfl, rfl, rfl, rfl⟩ := fields
  rw [← opcode_eq op, encV_of_fields hdr]

theorem wordM {idx src : BitVec 3} {tl : BitVec 2} {kc ka : BitVec 5} {nb : BitVec 12} (hdr : Hdr.ofWord w = some h)
    (op : (fOpc w).toNat = n) (zero : fMZ w = 0#6)
    (fields : idx = fIDX w ∧ tl = fTL w ∧ src = fSRC w ∧ kc = fKC w ∧ ka = fKA w ∧ nb = fNB w) :
    some (encM h (BitVec.ofNat 8 n) idx tl src kc ka nb) = some w := by
  obtain ⟨rfl, rfl, rfl, rfl, rfl, rfl⟩ := fields
  rw [← opcode_eq op, encM_of_fields hdr zero]

theorem wordX {sh : BitVec 3} {km ks kn fn d : BitVec 5} (hdr : Hdr.ofWord w = some h) (op : (fOpc w).toNat = n)
    (fields : sh = fSH w ∧ km = fKM w ∧ ks = fKS w ∧ kn = fKN w ∧ fn = fXFN w ∧ d = fXD w ∧ fXZ w = 0#8) :
    some (encX h (BitVec.ofNat 8 n) sh km ks kn fn d) = some w := by
  obtain ⟨rfl, rfl, rfl, rfl, rfl, rfl, zero⟩ := fields
  rw [← opcode_eq op, encX_of_fields hdr zero]

end Words

/-! ### Fields in parts -/

section Splits

variable (w : Word)

theorem fI26_movk : fld w 18 8 ++ fld w 16 2 ++ fLow w = fI26 w := by simp (disch := omega) only [fLow, fI26, fld_append]
theorem fI26_csr : fld w 15 11 ++ fld w 12 3 ++ fld w 0 12 = fI26 w := by simp (disch := omega) only [fI26, fld_append]
theorem fI36_s3 : fD w ++ fA w ++ fB w ++ fF w ++ fLow w = fI36 w := by
  simp (disch := omega) only [fD, fA, fB, fF, fLow, fI36, fld_append]
theorem fF_slot : fld w 18 3 ++ fld w 16 2 = fF w := fld_append rfl
theorem fF_table : fld w 20 1 ++ fld w 16 4 = fF w := fld_append rfl
theorem fF_level : fld w 20 1 ++ fld w 18 2 ++ fld w 16 2 = fF w := by simp (disch := omega) only [fF, fld_append]
theorem fF_atom : fld w 20 1 ++ fld w 19 1 ++ fld w 16 3 = fF w := by simp (disch := omega) only [fF, fld_append]
theorem fF_atomf : fld w 17 4 ++ fld w 16 1 = fF w := fld_append rfl
theorem fF_disc : fld w 19 2 ++ fld w 18 1 ++ fld w 16 2 = fF w := by simp (disch := omega) only [fF, fld_append]
theorem fSM_load : fld w 24 2 ++ fld w 23 1 ++ fld w 21 2 = fSM w := by simp (disch := omega) only [fSM, fld_append]
theorem fSM_store : fld w 24 2 ++ fld w 21 3 = fSM w := fld_append rfl
theorem fLow_selector : fld w 8 8 ++ fld w 0 8 = fLow w := fld_append rfl
theorem fLow_bfx : fld w 10 6 ++ fld w 4 6 ++ fld w 3 1 ++ fld w 0 3 = fLow w := by simp (disch := omega) only [fLow, fld_append]
theorem fLow_bfi : fld w 10 6 ++ fld w 4 6 ++ fld w 0 4 = fLow w := by simp (disch := omega) only [fLow, fld_append]
theorem fLow_atom : fld w 14 2 ++ fld w 11 3 ++ fld w 10 1 ++ fld w 0 10 = fLow w := by
  simp (disch := omega) only [fLow, fld_append]
theorem fLow_fence : fld w 14 2 ++ fld w 11 3 ++ fld w 0 11 = fLow w := by simp (disch := omega) only [fLow, fld_append]
theorem fVC_format : fld w 12 3 ++ fld w 8 4 = fVC w := fld_append rfl
theorem fFN_part : fld w 3 1 ++ fld w 0 3 = fFN w := fld_append rfl
theorem fFN_bit : fld w 1 3 ++ fld w 0 1 = fFN w := fld_append rfl
theorem fVB_table : fld w 17 5 ++ fld w 15 2 = fVB w := fld_append rfl
theorem fSRC_feed : fld w 30 1 ++ fld w 28 2 = fSRC w := fld_append rfl
theorem fNB_tdecl : fld w 9 3 ++ fld w 8 1 ++ fld w 4 4 ++ fld w 0 4 = fNB w := by simp (disch := omega) only [fNB, fld_append]
theorem fNB_wake : fld w 4 8 ++ fld w 0 4 = fNB w := fld_append rfl
theorem fXFN_pref : fld w 14 4 ++ fld w 13 1 = fXFN w := fld_append rfl

end Splits

theorem offset_high (w : Word) : BitVec.extractLsb' 7 7 (fld w 8 14) = fVB w := by
  rw [fld_offset, extract_of_high le_rfl]
  exact BitVec.extractLsb'_eq_self

theorem offset_low (w : Word) : BitVec.extractLsb' 0 7 (fld w 8 14) = fVC w := by
  rw [fld_offset, extract_of_low le_rfl, BitVec.extractLsb'_eq_self]

/-- Scope and offset of an ordered access are its whole I field (R113). -/
theorem scope_offset (i : BitVec 21) : BitVec.extractLsb' 18 3 i ++ BitVec.extractLsb' 0 18 i = i :=
  BitVec.extractLsb'_append_extractLsb'

theorem ld_of_ldOrdOf {c : BitVec 2} {i : BitVec 21} {o : MemOrd} (read : ldOrdOf c i = some o) : o.ldCode = c ∧ o.imm = i := by
  unfold ldOrdOf at read
  split at read
  next plain =>
    obtain rfl := Option.some.inj read
    exact ⟨(eq_of_beq plain).symm, rfl⟩
  next =>
    split at read
    next acquire =>
      obtain ⟨s, scope, rfl⟩ := Option.map_eq_some_iff.1 read
      exact ⟨(eq_of_beq acquire).symm, by rw [MemOrd.imm, Scope.code_of_ofCode scope, scope_offset]⟩
    next => cases read

theorem st_of_stOrdOf {c : BitVec 2} {i : BitVec 21} {o : MemOrd} (read : stOrdOf c i = some o) : o.stCode = c ∧ o.imm = i := by
  unfold stOrdOf at read
  split at read
  next plain =>
    obtain rfl := Option.some.inj read
    exact ⟨(eq_of_beq plain).symm, rfl⟩
  next =>
    split at read
    next release =>
      obtain ⟨s, scope, rfl⟩ := Option.map_eq_some_iff.1 read
      exact ⟨(eq_of_beq release).symm, by rw [MemOrd.imm, Scope.code_of_ofCode scope, scope_offset]⟩
    next => cases read

/-! ### Shapes shared by several words -/

section Shapes

variable {x : StreamId} {h : Hdr} {w : Word} {n : Nat}

section Scalar

variable (hdr : Hdr.ofWord w = some h) (op : (fOpc w).toNat = n)
include hdr op

theorem reads_decZ {i : Instr} (is : encode i = some (encSB h (BitVec.ofNat 8 n) 0)) (mine : i.stream x = true) :
    Reads x w (decZ w i) :=
  .req fun zero => .some (is.trans (wordSB hdr op (eq_of_beq zero).symm)) mine

theorem reads_decD {mk : Dest → Instr} (is : ∀ d, encode (mk d) = some (encS3 h (BitVec.ofNat 8 n) d.code 0 0 0 0))
    (mine : ∀ d, (mk d).stream x = true) : Reads x w (decD w mk) :=
  .req fun zero => .map fun d hd =>
    ⟨(is _).trans (wordS3 hdr op (by simp_all [Dest.code_of_ofCode hd])), mine _⟩

theorem reads_decDA {mk : Dest → Src → Instr} (is : ∀ d a, encode (mk d a) = some (encDA h (BitVec.ofNat 8 n) d a))
    (mine : ∀ d a, (mk d a).stream x = true) : Reads x w (decDA w mk) :=
  .req fun zero => .map fun d hd =>
    ⟨(is ..).trans (wordS3 hdr op (by simp_all [Dest.code_of_ofCode hd])), mine ..⟩

theorem reads_decDAB {mk : Dest → Src → Src → Instr}
    (is : ∀ d a b, encode (mk d a b) = some (encDAB h (BitVec.ofNat 8 n) d a b)) (mine : ∀ d a b, (mk d a b).stream x = true) :
    Reads x w (decDAB w mk) :=
  .req fun zero => .map fun d hd =>
    ⟨(is ..).trans (wordS3 hdr op (by simp_all [Dest.code_of_ofCode hd])), mine ..⟩

theorem reads_decDABs {mk : Dest → Src → Src → Bool → Instr}
    (is : ∀ d a b s, encode (mk d a b s) = some (encDABs h (BitVec.ofNat 8 n) d a b s))
    (mine : ∀ d a b s, (mk d a b s).stream x = true) : Reads x w (decDABs w mk) :=
  .req fun zero => .map fun d hd => by
    refine ⟨(is ..).trans (wordS3 hdr op ?_), mine ..⟩
    simp only [Bool.and_eq_true, Bool.or_eq_true, beq_iff_eq] at zero
    obtain ⟨sign | sign, low⟩ := zero <;> simp [sign, low, Dest.code_of_ofCode hd, bBit]

theorem reads_decDABF {mk : Dest → Src → Src → Src → Instr}
    (is : ∀ d a b n', encode (mk d a b n') = some (encS3 h (BitVec.ofNat 8 n) d.code a.code b.code n'.code 0))
    (mine : ∀ d a b n', (mk d a b n').stream x = true) : Reads x w (decDABF w mk) :=
  .req fun zero => .map fun d hd =>
    ⟨(is ..).trans (wordS3 hdr op (by simp_all [Dest.code_of_ofCode hd])), mine ..⟩

theorem reads_decCopy {mk : Dest → BitVec 3 → Src → Src → Src → Instr}
    (is : ∀ d sh km ks kn, encode (mk d sh km ks kn) = some (encX h (BitVec.ofNat 8 n) sh km.code ks.code kn.code 0 d.code))
    (mine : ∀ d sh km ks kn, (mk d sh km ks kn).stream x = true) : Reads x w (decCopy w mk) :=
  .req fun zero => .map fun d hd =>
    ⟨(is ..).trans (wordX hdr op (by simp_all [Dest.code_of_ofCode hd])), mine ..⟩

end Scalar

section Vector

variable {h : VHdr} (hdr : VHdr.ofWord w = some h) (op : (fOpc w).toNat = n)
include hdr op

theorem reads_decV1 {mk : BitVec 7 → BitVec 7 → ElemTy → Instr}
    (is : ∀ vd va t, encode (mk vd va t) = some (encV h (BitVec.ofNat 8 n) vd va 0 0 t.code 0))
    (mine : ∀ vd va t, (mk vd va t).stream x = true) : Reads x w (decV1 w mk) :=
  .req fun zero => .map fun t ht =>
    ⟨(is ..).trans (wordV hdr op (by simp_all [ElemTy.code_of_ofCode ht])), mine ..⟩

theorem reads_decV2 {mk : BitVec 7 → BitVec 7 → BitVec 7 → ElemTy → Instr}
    (is : ∀ vd va vb t, encode (mk vd va vb t) = some (encV h (BitVec.ofNat 8 n) vd va vb 0 t.code 0))
    (mine : ∀ vd va vb t, (mk vd va vb t).stream x = true) : Reads x w (decV2 w mk) :=
  .req fun zero => .map fun t ht =>
    ⟨(is ..).trans (wordV hdr op (by simp_all [ElemTy.code_of_ofCode ht])), mine ..⟩

theorem reads_decV3 {mk : BitVec 7 → BitVec 7 → BitVec 7 → BitVec 7 → ElemTy → Instr}
    (is : ∀ vd va vb vc t, encode (mk vd va vb vc t) = some (encV h (BitVec.ofNat 8 n) vd va vb vc t.code 0))
    (mine : ∀ vd va vb vc t, (mk vd va vb vc t).stream x = true) : Reads x w (decV3 w mk) :=
  .req fun zero => .map fun t ht =>
    ⟨(is ..).trans (wordV hdr op (by simp_all [ElemTy.code_of_ofCode ht])), mine ..⟩

end Vector

end Shapes

/-! ### Map by map -/

theorem reads_decodeCommon {x : StreamId} {h : Hdr} {w : Word} (hdr : Hdr.ofWord w = some h) : Reads x w (decodeCommon h w) := by
  unfold decodeCommon
  split
  next op => exact reads_decZ hdr op rfl rfl
  next op => exact .map fun d hd => ⟨wordSL hdr op (Dest.code_of_ofCode hd), rfl⟩
  next op => exact .req fun zero => .map fun d hd => ⟨wordSI hdr op (by simp_all [← fI26_movk, Dest.code_of_ofCode hd]), rfl⟩
  next op => exact reads_decDA (mk := .mov h) hdr op (fun _ _ => rfl) fun _ _ => rfl
  next op => exact reads_decDAB (mk := .add h) hdr op (fun _ _ _ => rfl) fun _ _ _ => rfl
  next op => exact reads_decDAB (mk := .sub h) hdr op (fun _ _ _ => rfl) fun _ _ _ => rfl
  next op => exact .map fun d hd => ⟨wordSI hdr op (by simp [Dest.code_of_ofCode hd]), rfl⟩
  next op => exact reads_decDAB (mk := .and h) hdr op (fun _ _ _ => rfl) fun _ _ _ => rfl
  next op => exact reads_decDAB (mk := .or h) hdr op (fun _ _ _ => rfl) fun _ _ _ => rfl
  next op => exact reads_decDAB (mk := .xor h) hdr op (fun _ _ _ => rfl) fun _ _ _ => rfl
  next op => exact reads_decDAB (mk := .andn h) hdr op (fun _ _ _ => rfl) fun _ _ _ => rfl
  next op => exact reads_decDAB (mk := .shl h) hdr op (fun _ _ _ => rfl) fun _ _ _ => rfl
  next op => exact reads_decDAB (mk := .shr h) hdr op (fun _ _ _ => rfl) fun _ _ _ => rfl
  next op => exact reads_decDAB (mk := .sar h) hdr op (fun _ _ _ => rfl) fun _ _ _ => rfl
  next op => exact reads_decDABs (mk := .min h) hdr op (fun _ _ _ _ => rfl) fun _ _ _ _ => rfl
  next op => exact reads_decDABs (mk := .max h) hdr op (fun _ _ _ _ => rfl) fun _ _ _ _ => rfl
  next op => -- CMP
    refine .req fun zero => ?_
    split
    next pd cc hp hc => exact .some (wordS3 hdr op (by simp_all [p5_of_predOf hp, Cond.code_of_ofCode hc])) rfl
    next => exact .none
  next op => -- CMPI
    split
    next pd cc hp hc => exact .some (wordSM hdr op (by simp [p5_of_predOf hp, Cond.code_of_ofCode hc])) rfl
    next => exact .none
  next op => -- SEL
    refine .req fun zero => ?_
    split
    next d pc hd hp => exact .some (wordS3 hdr op (by simp_all [Dest.code_of_ofCode hd, p5_of_predOf hp])) rfl
    next => exact .none
  next op => -- PSET
    refine .req fun zero => ?_
    split
    next pd pa pb hd ha hb =>
      exact .some (wordS3 hdr op (by simp_all [← fF_table, p5_of_predOf hd, p5_of_predOf ha, p5_of_predOf hb])) rfl
    next => exact .none
  next op => exact .some (i := .br h _) (wordSB hdr op rfl) rfl
  next op => exact .req fun zero => .some (i := .jmp h _) (wordS3 hdr op (by simp_all)) rfl
  next op => exact .some (i := .call h _) (wordSB hdr op rfl) rfl
  next op => -- RET
    refine .ite (fun zero => .ite (fun plain => .req fun none => ?_) fun _ => .ite (fun reg => ?_) fun _ => .none) fun _ => .none
    · exact .some (i := .ret h) (wordSB hdr op (by simp_all [← fI36_s3])) rfl
    · exact .some (i := .retReg h _) (wordS3 hdr op (by simp_all)) rfl
  next op => exact .map (mk := fun kc => .loop h kc _) fun kc hk => ⟨wordSL hdr op (append_of_keptOf hk), rfl⟩
  next op => -- LDS
    exact .req fun zero => .map fun d hd => ⟨wordSM hdr op (by simp_all [← fSM_load, Dest.code_of_ofCode hd]), rfl⟩
  next op => exact .req fun zero => .some (i := .sts h _ _ _ _) (wordSM hdr op (by simp_all [← fSM_store])) rfl
  next op => exact .req fun zero => .some (i := .qpush h _ _) (wordS3 hdr op (by simp_all [← fF_slot])) rfl
  next op => -- QPOP
    exact .req fun zero => .map fun d hd => ⟨wordS3 hdr op (by simp_all [← fF_slot, Dest.code_of_ofCode hd]), rfl⟩
  next op => -- QLVL
    exact .req fun zero => .map fun d hd => ⟨wordS3 hdr op (by simp_all [← fF_level, Dest.code_of_ofCode hd]), rfl⟩
  next op => -- STAMP
    refine .ite (fun zero => .ite (fun plain => .req fun none => .map fun d hd => ?_) fun _ =>
      .ite (fun set => .map fun d hd => ?_) fun _ => .none) fun _ => .none
    · exact ⟨wordS3 hdr op (by simp_all [Dest.code_of_ofCode hd]), rfl⟩
    · exact ⟨wordS3 hdr op (by simp_all [Dest.code_of_ofCode hd]), rfl⟩
  next op => exact reads_decZ (i := .join h) hdr op rfl rfl
  next op => -- CSRR
    exact .req fun zero => .map fun d hd => ⟨wordSI hdr op (by simp_all [← fI26_csr, Dest.code_of_ofCode hd]), rfl⟩
  next op => -- CSRW
    exact .req fun zero => .map fun d hd => ⟨wordSI hdr op (by simp_all [← fI26_csr, Dest.code_of_ofCode hd]), rfl⟩
  next op => exact .req fun zero => .some (i := .trap h _) (wordS3 hdr op (by simp_all)) rfl
  next op => -- IDQ
    exact .req fun zero => .map fun d hd => ⟨wordS3 hdr op (by simp_all [← fLow_selector, Dest.code_of_ofCode hd]), rfl⟩
  next => exact .none


theorem slot_of_slotOf {w : Word} {s : BitVec 2} (read : slotOf w = some s) : 0#3 ++ s = fF w := by
  unfold slotOf req at read
  split at read
  next zero =>
    obtain rfl := Option.some.inj read
    rw [← fF_slot, eq_of_beq zero]
    rfl
  next => cases read

theorem three_of_not {n : Nat} (not0 : n ≠ 0) (not1 : n ≠ 1) (not2 : n ≠ 2) (lt : n < 4) : n = 3 := by omega

theorem atomf_format (b : BitVec 1) : bBit ((if b = 1#1 then AtomFmt.bf16 else .f32) == .bf16) = b := by revert b; decide

theorem reads_decodeCOnly {h : Hdr} {w : Word} (hdr : Hdr.ofWord w = some h) : Reads .c w (decodeCOnly h w) := by
  unfold decodeCOnly
  split
  next op => exact reads_decDAB (mk := .mul h) hdr op (fun _ _ _ => rfl) fun _ _ _ => rfl
  next op => -- MULH
    refine .req fun zero => ?_
    split
    next d m hd hm => exact .some (wordS3 hdr op (by simp_all [Dest.code_of_ofCode hd, MulhMode.code_of_ofCode hm])) rfl
    next => exact .none
  next op => exact reads_decDABs (mk := .div h) hdr op (fun _ _ _ _ => rfl) fun _ _ _ _ => rfl
  next op => exact reads_decDABs (mk := .rem h) hdr op (fun _ _ _ _ => rfl) fun _ _ _ _ => rfl
  next op => exact reads_decDA (mk := .clz h) hdr op (fun _ _ => rfl) fun _ _ => rfl
  next op => exact reads_decDA (mk := .ctz h) hdr op (fun _ _ => rfl) fun _ _ => rfl
  next op => exact reads_decDA (mk := .popc h) hdr op (fun _ _ => rfl) fun _ _ => rfl
  next op => -- BFX
    exact .req fun zero => .map fun d hd => ⟨wordS3 hdr op (by simp_all [← fLow_bfx, Dest.code_of_ofCode hd]), rfl⟩
  next op => -- BFI
    exact .req fun zero => .map fun d hd => ⟨wordS3 hdr op (by simp_all [← fLow_bfi, Dest.code_of_ofCode hd]), rfl⟩
  next op => exact reads_decDABF (mk := .fshl h) hdr op (fun _ _ _ _ => rfl) fun _ _ _ _ => rfl
  next op => exact reads_decDABF (mk := .fshr h) hdr op (fun _ _ _ _ => rfl) fun _ _ _ _ => rfl
  next op => -- LD
    split
    next d o hd ho =>
      obtain ⟨code, imm⟩ := ld_of_ldOrdOf ho
      exact .some (wordSM hdr op (by simp [← fSM_load, Dest.code_of_ofCode hd, code, imm])) rfl
    next => exact .none
  next op => -- ST
    refine .req fun zero => .map fun o ho => ?_
    obtain ⟨code, imm⟩ := st_of_stOrdOf ho
    exact ⟨wordSM hdr op (by simp_all [← fSM_load]), rfl⟩
  next op => -- ATOM
    refine .req fun zero => ?_
    split
    next d o s hd ho hs =>
      exact .some (wordS3 hdr op (by
        simp_all [← fF_atom, ← fLow_atom, Dest.code_of_ofCode hd, AtomOp.code_of_ofCode ho, Scope.code_of_ofCode hs])) rfl
    next => exact .none
  next op => -- ACAS
    refine .req fun zero => ?_
    split
    next d s hd hs =>
      exact .some (wordS3 hdr op (by simp_all [← fLow_atom, Dest.code_of_ofCode hd, Scope.code_of_ofCode hs])) rfl
    next => exact .none
  next op => -- ATOMF
    refine .req fun zero => ?_
    split
    next d s hd hs =>
      exact .some (wordS3 hdr op (by
        simp_all [← fF_atomf, ← fLow_fence, atomf_format, Dest.code_of_ofCode hd, Scope.code_of_ofCode hs])) rfl
    next => exact .none
  next op => -- FENCE
    refine .req fun zero => ?_
    split
    next o s ho hs =>
      exact .some (wordS3 hdr op (by simp_all [← fLow_fence, FenceOrd.code_of_ofCode ho, Scope.code_of_ofCode hs])) rfl
    next => exact .none
  next op => exact reads_decD (mk := .dbar h) hdr op (fun _ => rfl) fun _ => rfl
  next op => exact reads_decDAB (mk := .launch h) hdr op (fun _ _ _ => rfl) fun _ _ _ => rfl
  next op => exact reads_decDABF (mk := .wqpush h) hdr op (fun _ _ _ _ => rfl) fun _ _ _ _ => rfl
  next op => -- WQPOP
    refine .req fun zero => ?_
    split
    next d kd hd hk => exact .some (wordS3 hdr op (by simp_all [Dest.code_of_ofCode hd, KeyDest.code_of_ofCode hk])) rfl
    next => exact .none
  next op => exact reads_decDA (mk := .ploop h) hdr op (fun _ _ => rfl) fun _ _ => rfl
  next op => exact reads_decZ (i := .pnext h) hdr op rfl rfl
  next op => exact reads_decZ (i := .pgend h) hdr op rfl rfl
  next op => exact reads_decZ (i := .pexit h) hdr op rfl rfl
  next op => -- PACC
    exact .req fun zero => .map fun kc hk => ⟨wordS3 hdr op (by simp_all [append_of_keptOf hk]), rfl⟩
  next op => -- PSTAT
    exact .req fun zero => .map fun d hd => ⟨wordS3 hdr op (by simp_all [← fLow_selector, Dest.code_of_ofCode hd]), rfl⟩
  next op => -- APOPEN
    exact .req fun zero => .map fun s hs => ⟨wordS3 hdr op (by simp_all [slot_of_slotOf hs]), rfl⟩
  next op => -- APND
    refine .req fun zero => ?_
    split
    next d s hd hs => exact .some (wordS3 hdr op (by simp_all [Dest.code_of_ofCode hd, slot_of_slotOf hs])) rfl
    next => exact .none
  next op => -- APCOMMIT
    refine .req fun zero => ?_
    split
    next d s hd hs => exact .some (wordS3 hdr op (by simp_all [Dest.code_of_ofCode hd, slot_of_slotOf hs])) rfl
    next => exact .none
  next op => -- APTRUNC
    refine .req fun zero => ?_
    split
    next d s hd hs => exact .some (wordS3 hdr op (by simp_all [Dest.code_of_ofCode hd, slot_of_slotOf hs])) rfl
    next => exact .none
  next op => -- APFORK
    refine .req fun zero => ?_
    split
    next d s hd hs => exact .some (wordS3 hdr op (by simp_all [Dest.code_of_ofCode hd, slot_of_slotOf hs])) rfl
    next => exact .none
  next op => -- APSTAT
    refine .req fun zero => ?_
    split
    next d s hd hs =>
      exact .some (wordS3 hdr op (by simp_all [← fLow_selector, Dest.code_of_ofCode hd, slot_of_slotOf hs])) rfl
    next => exact .none
  next op => -- DISC
    refine .req fun zero => ?_
    split
    next fn =>
      have code : fld w 16 2 = 0#2 := BitVec.eq_of_toNat_eq fn
      exact .req fun zeroD => .some (i := .discMark h _ _ _) (wordS3 hdr op (by simp_all [← fF_disc])) rfl
    next fn =>
      have code : fld w 16 2 = 1#2 := BitVec.eq_of_toNat_eq fn
      exact .req fun zeroD => .some (i := .discKeep h _ _ _) (wordS3 hdr op (by simp_all [← fF_disc])) rfl
    next fn =>
      have code : fld w 16 2 = 2#2 := BitVec.eq_of_toNat_eq fn
      exact .req fun zeroA => .map (mk := fun d => .discLost h d _) fun d hd =>
        ⟨wordS3 hdr op (by simp_all [← fF_disc, Dest.code_of_ofCode hd]), rfl⟩
    next not0 not1 not2 =>
      have code : fld w 16 2 = 3#2 := BitVec.eq_of_toNat_eq (three_of_not not0 not1 not2 (fld w 16 2).isLt)
      exact .req fun zeroD => .some (i := .discAck h) (wordS3 hdr op (by simp_all [← fF_disc])) rfl
  next op => exact reads_decDA (mk := .ckpt h) hdr op (fun _ _ => rfl) fun _ _ => rfl
  next op => -- TRET
    refine .req fun zero => ?_
    split
    next fn =>
      have code : fld w 16 2 = 0#2 := BitVec.eq_of_toNat_eq fn
      exact .some (i := .tretRetry h) (wordS3 hdr op (by simp_all [← fF_slot])) rfl
    next fn =>
      have code : fld w 16 2 = 1#2 := BitVec.eq_of_toNat_eq fn
      exact .some (i := .tretNext h) (wordS3 hdr op (by simp_all [← fF_slot])) rfl
    next fn =>
      have code : fld w 16 2 = 2#2 := BitVec.eq_of_toNat_eq fn
      exact .some (i := .tretAbort h) (wordS3 hdr op (by simp_all [← fF_slot])) rfl
    next => exact .none
  next op => exact reads_decD (mk := .yield h) hdr op (fun _ => rfl) fun _ => rfl
  next => exact .none


theorem reads_decodeV {h : VHdr} {w : Word} (hdr : VHdr.ofWord w = some h) : Reads .v w (decodeV h w) := by
  unfold decodeV
  split
  next op => exact reads_decV2 (mk := .vadd h) hdr op (fun _ _ _ _ => rfl) fun _ _ _ _ => rfl
  next op => exact reads_decV2 (mk := .vsub h) hdr op (fun _ _ _ _ => rfl) fun _ _ _ _ => rfl
  next op => exact reads_decV2 (mk := .vmul h) hdr op (fun _ _ _ _ => rfl) fun _ _ _ _ => rfl
  next op => exact reads_decV3 (mk := .vfma h) hdr op (fun _ _ _ _ _ => rfl) fun _ _ _ _ _ => rfl
  next op => exact reads_decV3 (mk := .vfms h) hdr op (fun _ _ _ _ _ => rfl) fun _ _ _ _ _ => rfl
  next op => exact reads_decV3 (mk := .vfnma h) hdr op (fun _ _ _ _ _ => rfl) fun _ _ _ _ _ => rfl
  next op => exact reads_decV2 (mk := .vdiv h) hdr op (fun _ _ _ _ => rfl) fun _ _ _ _ => rfl
  next op => exact reads_decV1 (mk := .vsqrt h) hdr op (fun _ _ _ => rfl) fun _ _ _ => rfl
  next op => exact reads_decV2 (mk := .vmin h) hdr op (fun _ _ _ _ => rfl) fun _ _ _ _ => rfl
  next op => exact reads_decV2 (mk := .vmax h) hdr op (fun _ _ _ _ => rfl) fun _ _ _ _ => rfl
  next op => exact reads_decV2 (mk := .vminn h) hdr op (fun _ _ _ _ => rfl) fun _ _ _ _ => rfl
  next op => exact reads_decV2 (mk := .vmaxn h) hdr op (fun _ _ _ _ => rfl) fun _ _ _ _ => rfl
  next op => -- VCMP
    refine .req fun zero => ?_
    split
    next md t cc hm ht hc =>
      exact .some (wordV hdr op (by simp_all [vm_of_vmask hm, ElemTy.code_of_ofCode ht, VCond.code_of_ofCode hc])) rfl
    next => exact .none
  next op => exact reads_decV1 (mk := .vclass h) hdr op (fun _ _ _ => rfl) fun _ _ _ => rfl
  next op => exact reads_decV1 (mk := .vrcpe h) hdr op (fun _ _ _ => rfl) fun _ _ _ => rfl
  next op => exact reads_decV1 (mk := .vrsqe h) hdr op (fun _ _ _ => rfl) fun _ _ _ => rfl
  next op => exact reads_decV2 (mk := .vrcps h) hdr op (fun _ _ _ _ => rfl) fun _ _ _ _ => rfl
  next op => exact reads_decV2 (mk := .vrsqs h) hdr op (fun _ _ _ _ => rfl) fun _ _ _ _ => rfl
  next op => exact reads_decV1 (mk := .vexp2 h) hdr op (fun _ _ _ => rfl) fun _ _ _ => rfl
  next op => exact reads_decV1 (mk := .vlog2 h) hdr op (fun _ _ _ => rfl) fun _ _ _ => rfl
  next op => exact reads_decV1 (mk := .vsin h) hdr op (fun _ _ _ => rfl) fun _ _ _ => rfl
  next op => exact reads_decV1 (mk := .vcos h) hdr op (fun _ _ _ => rfl) fun _ _ _ => rfl
  next op => -- VCVT
    refine .req fun zero => ?_
    split
    next d s hd hs =>
      exact .some (wordV hdr op (by
        simp_all [← fVC_format, ← fFN_part, ElemTy.code_of_ofCode hd, ElemTy.code_of_ofCode hs])) rfl
    next => exact .none
  next op => -- VQBLK
    refine .req fun zero => ?_
    split
    next d s hd hs =>
      refine .ite (fun own => .req fun zeroB => ?_) fun given => ?_
      · exact .some (wordV hdr op (by
          simp_all [← fVC_format, ← fFN_part, ElemTy.code_of_ofCode hd, ElemTy.code_of_ofCode hs])) rfl
      · have bit : fld w 3 1 = 1#1 := (BitVec.eq_zero_or_eq_one _).resolve_left (by simpa using given)
        exact .some (wordV hdr op (by
          simp_all [← fVC_format, ← fFN_part, ElemTy.code_of_ofCode hd, ElemTy.code_of_ofCode hs])) rfl
    next => exact .none
  next op => -- VDQBLK
    refine .req fun zero => ?_
    split
    next d s hd hs =>
      exact .some (wordV hdr op (by
        simp_all [← fVC_format, ← fFN_part, ElemTy.code_of_ofCode hd, ElemTy.code_of_ofCode hs])) rfl
    next => exact .none
  next op => exact reads_decV2 (mk := .viadd h) hdr op (fun _ _ _ _ => rfl) fun _ _ _ _ => rfl
  next op => exact reads_decV2 (mk := .visub h) hdr op (fun _ _ _ _ => rfl) fun _ _ _ _ => rfl
  next op => exact reads_decV2 (mk := .vimul h) hdr op (fun _ _ _ _ => rfl) fun _ _ _ _ => rfl
  next op => exact reads_decV2 (mk := .vimulh h) hdr op (fun _ _ _ _ => rfl) fun _ _ _ _ => rfl
  next op => exact reads_decV3 (mk := .vimad h) hdr op (fun _ _ _ _ _ => rfl) fun _ _ _ _ _ => rfl
  next op => exact reads_decV2 (mk := .vand h) hdr op (fun _ _ _ _ => rfl) fun _ _ _ _ => rfl
  next op => exact reads_decV2 (mk := .vor h) hdr op (fun _ _ _ _ => rfl) fun _ _ _ _ => rfl
  next op => exact reads_decV2 (mk := .vxor h) hdr op (fun _ _ _ _ => rfl) fun _ _ _ _ => rfl
  next op => exact reads_decV2 (mk := .vandn h) hdr op (fun _ _ _ _ => rfl) fun _ _ _ _ => rfl
  next op => exact reads_decV2 (mk := .vshl h) hdr op (fun _ _ _ _ => rfl) fun _ _ _ _ => rfl
  next op => exact reads_decV2 (mk := .vshr h) hdr op (fun _ _ _ _ => rfl) fun _ _ _ _ => rfl
  next op => exact reads_decV2 (mk := .vsar h) hdr op (fun _ _ _ _ => rfl) fun _ _ _ _ => rfl
  next op => exact reads_decV2 (mk := .vrot h) hdr op (fun _ _ _ _ => rfl) fun _ _ _ _ => rfl
  next op => exact reads_decV3 (mk := .vfshl h) hdr op (fun _ _ _ _ _ => rfl) fun _ _ _ _ _ => rfl
  next op => exact reads_decV3 (mk := .vfshr h) hdr op (fun _ _ _ _ _ => rfl) fun _ _ _ _ _ => rfl
  next op => exact reads_decV1 (mk := .vclz h) hdr op (fun _ _ _ => rfl) fun _ _ _ => rfl
  next op => exact reads_decV1 (mk := .vpopc h) hdr op (fun _ _ _ => rfl) fun _ _ _ => rfl
  next op => -- VLD
    refine .req fun zero => ?_
    split
    next ka t hk ht =>
      exact .some (wordV hdr op (by simp_all [← fFN_bit, offset_high, offset_low, vk_of_vsrc hk, ElemTy.code_of_ofCode ht])) rfl
    next => exact .none
  next op => -- VST
    refine .req fun zero => ?_
    split
    next ka t hk ht =>
      exact .some (wordV hdr op (by simp_all [← fFN_bit, offset_high, offset_low, vk_of_vsrc hk, ElemTy.code_of_ofCode ht])) rfl
    next => exact .none
  next op => -- VLDS
    refine .req fun zero => ?_
    split
    next ka kb t hk hk' ht =>
      exact .some (wordV hdr op (by simp_all [vk_of_vsrc hk, vk_of_vsrc hk', ElemTy.code_of_ofCode ht])) rfl
    next => exact .none
  next op => -- VGATS
    refine .req fun zero => ?_
    split
    next ka t hk ht => exact .some (wordV hdr op (by simp_all [vk_of_vsrc hk, ElemTy.code_of_ofCode ht])) rfl
    next => exact .none
  next op => -- VSCATS
    refine .req fun zero => ?_
    split
    next ka t hk ht => exact .some (wordV hdr op (by simp_all [vk_of_vsrc hk, ElemTy.code_of_ofCode ht])) rfl
    next => exact .none
  next op => exact reads_decV2 (mk := .vperm h) hdr op (fun _ _ _ _ => rfl) fun _ _ _ _ => rfl
  next op => exact reads_decV3 (mk := .vshuf h) hdr op (fun _ _ _ _ _ => rfl) fun _ _ _ _ _ => rfl
  next op => -- VBCAST
    refine .req fun zero => ?_
    split
    next ka t hk ht => exact .some (wordV hdr op (by simp_all [vk_of_vsrc hk, ElemTy.code_of_ofCode ht])) rfl
    next => exact .none
  next op => -- VSLIDE
    split
    next kc t hk ht =>
      refine .ite (fun down => ?_) fun _ => .ite (fun up => ?_) fun _ => .none
      · exact .some (wordV hdr op (by simp_all [vk_of_vsrc hk, ElemTy.code_of_ofCode ht])) rfl
      · exact .some (wordV hdr op (by simp_all [vk_of_vsrc hk, ElemTy.code_of_ofCode ht])) rfl
    next => exact .none
  next op => -- VSEL
    refine .req fun zero => ?_
    split
    next mc t hm ht => exact .some (wordV hdr op (by simp_all [vm_of_vmask hm, ElemTy.code_of_ofCode ht])) rfl
    next => exact .none
  next op => -- VEXT
    refine .req fun zero => ?_
    split
    next kb t hk ht => exact .some (wordV hdr op (by simp_all [vk_of_vsrc hk, ElemTy.code_of_ofCode ht])) rfl
    next => exact .none
  next op => -- VINS
    refine .req fun zero => ?_
    split
    next ka kb t hk hk' ht =>
      exact .some (wordV hdr op (by simp_all [vk_of_vsrc hk, vk_of_vsrc hk', ElemTy.code_of_ofCode ht])) rfl
    next => exact .none
  next op => exact reads_decV1 (mk := .vredsum h) hdr op (fun _ _ _ => rfl) fun _ _ _ => rfl
  next op => exact reads_decV1 (mk := .vredmax h) hdr op (fun _ _ _ => rfl) fun _ _ _ => rfl
  next op => exact reads_decV1 (mk := .vredmin h) hdr op (fun _ _ _ => rfl) fun _ _ _ => rfl
  next op => -- VREDARG
    exact .req fun zero => .map fun t ht => ⟨wordV hdr op (by simp_all [← fFN_bit, ElemTy.code_of_ofCode ht]), rfl⟩
  next op => -- VSCAN
    exact .req fun zero => .map fun t ht => ⟨wordV hdr op (by simp_all [← fFN_bit, ElemTy.code_of_ofCode ht]), rfl⟩
  next op => -- VIOTA
    exact .req fun zero => .map fun t ht => ⟨wordV hdr op (by simp_all [← fFN_bit, ElemTy.code_of_ofCode ht]), rfl⟩
  next op => -- VMPOP
    refine .req fun zero => ?_
    split
    next ma t hm ht => exact .some (wordV hdr op (by simp_all [vm_of_vmask hm, ElemTy.code_of_ofCode ht])) rfl
    next => exact .none
  next op => -- VMLOG
    refine .req fun zero => ?_
    split
    next md ma mb hd ha hb => exact .some (wordV hdr op (by simp_all [vm_of_vmask hd, vm_of_vmask ha, vm_of_vmask hb])) rfl
    next => exact .none
  next op => -- VTAB
    refine .req fun zero => .map fun kg hk => ⟨wordV hdr op ?_, rfl⟩
    simp only [Bool.and_eq_true, Bool.or_eq_true, beq_iff_eq] at zero
    obtain ⟨⟨⟨zeroD, zeroB⟩, zeroF⟩, signed | unsigned⟩ := zero <;>
    simp_all [← fVB_table, vk_of_vsrc hk, bBit]
  next op => exact .req fun zero => .some (i := .vsnap h _ _) (wordV hdr op (by simp_all)) rfl
  next op => -- VPREFEQ
    exact .req fun zero => .map fun t ht => ⟨wordV hdr op (by simp_all [ElemTy.code_of_ofCode ht]), rfl⟩
  next op => -- VSHORT
    refine .req fun zero => ?_
    split
    next kb t hk ht => exact .some (wordV hdr op (by simp_all [vk_of_vsrc hk, ElemTy.code_of_ofCode ht])) rfl
    next => exact .none
  next op => -- VMASS
    refine .req fun zero => ?_
    split
    next md kb kc hm hb hc => exact .some (wordV hdr op (by simp_all [vm_of_vmask hm, vk_of_vsrc hb, vk_of_vsrc hc])) rfl
    next => exact .none
  next op => -- VNOISE
    refine .req fun zero => ?_
    split
    next ka kb kc ha hb hc => exact .some (wordV hdr op (by simp_all [vk_of_vsrc ha, vk_of_vsrc hb, vk_of_vsrc hc])) rfl
    next => exact .none
  next op => -- VBTEST
    refine .req fun zero => ?_
    split
    next md t hm ht => exact .some (wordV hdr op (by simp_all [vm_of_vmask hm, ElemTy.code_of_ofCode ht])) rfl
    next => exact .none
  next op => exact reads_decV2 (mk := .vbset h) hdr op (fun _ _ _ _ => rfl) fun _ _ _ _ => rfl
  next op => -- VMOD
    refine .req fun zero => .map fun r hr => ⟨congrArg some ?_, rfl⟩
    simp only [Bool.and_eq_true, beq_iff_eq] at zero
    obtain ⟨⟨mask, more⟩, low⟩ := zero
    obtain ⟨hw, hg, hm, ho⟩ := VHdr.ofWord_eq_some hdr
    have opc : 0xF0#8 = fld w 40 8 := (opcode_eq op).symm
    have zeros : 0#3 = fld w 37 3 := mask.symm.trans hm
    have one : 1#1 = fld w 36 1 := by rw [← ho, more]; rfl
    have rest : 0#21 = fld w 0 21 := low.symm
    rw [hw, hg, opc, zeros, one, Clamp.code_ofCode, rndCode_of_rndOf hr, rest]
    simp (disch := omega) only [fld_append]
    exact fld_all w
  next => exact .none

theorem reads_decodeM {h : Hdr} {w : Word} (hdr : Hdr.ofWord w = some h) : Reads .m w (decodeM h w) := by
  unfold decodeM
  refine .ite (fun _ => .none) fun nonzero => ?_
  have zero6 : fMZ w = 0#6 := by simpa using nonzero
  split
  next op => -- TDECL
    refine .req fun zero => .bind fun t ht => .ite (fun none => ?_) fun _ => .ite (fun f32 => ?_) fun _ => .none
    · exact .some (i := .tdecl h _ false _) (wordM hdr op zero6 (by simp_all [← fNB_tdecl, append_of_idx2 ht])) rfl
    · exact .some (i := .tdecl h _ true _) (wordM hdr op zero6 (by simp_all [← fNB_tdecl, append_of_idx2 ht])) rfl
  next op => exact .req fun zero => .some (i := .cbload h _ _ _) (wordM hdr op zero6 (by simp_all)) rfl
  next op => exact .req fun zero => .some (i := .tlset h _ _) (wordM hdr op zero6 (by simp_all)) rfl
  next op => -- LMM
    refine .bind fun t ht => .ite (fun records => ?_) fun _ => .ite (fun feed => .req fun zero => ?_) fun _ => .none
    · exact .some (i := .lmm h _ _ _ _ _) (wordM hdr op zero6 (by simp_all [append_of_idx2 ht])) rfl
    · exact .some (i := .lmmFeed h _ _ _ _ _) (wordM hdr op zero6 (by simp_all [← fSRC_feed, append_of_idx2 ht])) rfl
  next op => exact .req fun zero => .map fun f hf => ⟨wordM hdr op zero6 (by simp_all [append_of_idx2 hf]), rfl⟩
  next op => exact .req fun zero => .map fun f hf => ⟨wordM hdr op zero6 (by simp_all [append_of_idx2 hf]), rfl⟩
  next op => exact .req fun zero => .map fun f hf => ⟨wordM hdr op zero6 (by simp_all [append_of_idx2 hf]), rfl⟩
  next op => exact .req fun zero => .map fun f hf => ⟨wordM hdr op zero6 (by simp_all [append_of_idx2 hf]), rfl⟩
  next op => exact .req fun zero => .map fun f hf => ⟨wordM hdr op zero6 (by simp_all [append_of_idx2 hf]), rfl⟩
  next op => exact .req fun zero => .some (i := .lwake h _) (wordM hdr op zero6 (by simp_all [← fNB_wake])) rfl
  next op => exact .req fun zero => .some (i := .lstat h _) (wordM hdr op zero6 (by simp_all)) rfl
  next op => exact .req fun zero => .some (i := .tload h _ _ _) (wordM hdr op zero6 (by simp_all)) rfl
  next op => exact .req fun zero => .some (i := .tsave h _ _ _) (wordM hdr op zero6 (by simp_all)) rfl
  next => exact .none

theorem reads_decodeX {x : StreamId} {h : Hdr} {w : Word} (copies : (x == .l || x == .s) = true) (hdr : Hdr.ofWord w = some h) :
    Reads x w (decodeX h w) := by
  unfold decodeX
  split
  next op => exact .req fun zero => .some (i := .shape h _ _) (wordX hdr op (by simp_all)) copies
  next op => exact reads_decCopy (mk := .cpy h) hdr op (fun _ _ _ _ _ => rfl) fun _ _ _ _ _ => copies
  next op => -- CPYO
    refine .ite (fun plain => ?_) fun _ => .req fun append => .map fun d hd => ?_
    · exact reads_decCopy (mk := .cpyo h) hdr op (fun _ _ _ _ _ => rfl) fun _ _ _ _ _ => copies
    · exact ⟨wordX hdr op (by simp_all [Dest.code_of_ofCode hd]), copies⟩
  next op => exact reads_decCopy (mk := .cpyc h) hdr op (fun _ _ _ _ _ => rfl) fun _ _ _ _ _ => copies
  next op => -- PREF
    exact .req fun zero => .map fun d hd => ⟨wordX hdr op (by simp_all [← fXFN_pref, Dest.code_of_ofCode hd]), copies⟩
  next op => -- CWAIT
    refine .req fun zero => .ite (fun one => ?_) fun _ => .req fun all => ?_
    · exact .some (i := .cwait h _) (wordX hdr op (by simp_all)) copies
    · exact .some (i := .cwaitAll h) (wordX hdr op (by simp_all)) copies
  next op => -- CFLUSH
    refine .req fun zero => ?_
    split
    next d o hd ho => exact .some (wordX hdr op (by simp_all [Dest.code_of_ofCode hd, FlushOp.code_of_ofCode ho])) copies
    next => exact .none
  next op => exact .req fun zero => .map fun d hd => ⟨wordX hdr op (by simp_all [Dest.code_of_ofCode hd]), copies⟩
  next op => exact reads_decCopy (mk := .gath h) hdr op (fun _ _ _ _ _ => rfl) fun _ _ _ _ _ => copies
  next op => exact reads_decCopy (mk := .gathp h) hdr op (fun _ _ _ _ _ => rfl) fun _ _ _ _ _ => copies
  next op => exact reads_decCopy (mk := .scat h) hdr op (fun _ _ _ _ _ => rfl) fun _ _ _ _ _ => copies
  next => exact .none

end Sys2Proof
end

section
/-! SUPPORT. Decoding and encoding are each other's inverse on the words that decode (R53 to R78). -/

namespace Sys2Proof

theorem reads_decodeRaw (x : StreamId) (w : Word) : Reads x w (decodeRaw x w) := by
  unfold decodeRaw
  refine .ite (fun _ => .bind fun h hdr => reads_decodeCommon hdr) fun _ => .ite (fun _ => .ite ?cOnly fun _ => .none) fun _ => ?own
  case cOnly =>
    rintro rfl
    exact .bind fun h hdr => reads_decodeCOnly hdr
  case own =>
    cases x with
    | c => exact .none
    | l | s => exact .bind fun h hdr => reads_decodeX rfl hdr
    | v => exact .bind fun h hdr => reads_decodeV hdr
    | m => exact .bind fun h hdr => reads_decodeM hdr

theorem decode_eq_some {x : StreamId} {w : Word} {i : Instr} :
    decode x w = some i ↔ decodeRaw x w = some i ∧ i.legalIn (x == .v) = true :=
  Option.filter_eq_some_iff

/-- Settles O1: each word's fields are read off its bits. -/
theorem wordsReadAsEncoded : Obligations.WordsReadAsEncoded := by
  unfold Obligations.WordsReadAsEncoded
  decide

/-- Settles O2: a stream that executes an instruction reads its word by the map that holds it, field by field. -/
theorem decodeOfEncode : Obligations.DecodeOfEncode := by
  unfold Obligations.DecodeOfEncode
  intro x i w mine legal word
  exact decode_eq_some.2 ⟨decodeRaw_of_encode mine word, legal⟩

/-- Settles O3: each row of each map reads no word but the one its instruction is encoded as. -/
theorem encodeOfDecode : Obligations.EncodeOfDecode := by
  unfold Obligations.EncodeOfDecode
  intro x w i reads
  obtain ⟨raw, legal⟩ := decode_eq_some.1 reads
  obtain ⟨word, mine⟩ := reads_decodeRaw x w i raw
  exact ⟨word, mine, legal⟩

end Sys2Proof
end

section
/-! SUPPORT. What an offer to a stream comes to where its ring holds one word at its PC, and a trap taken where no word is rolled
back. -/

namespace Sys2Proof.Machine

/-! ### A bundle of one word -/

theorem bundleAt_word {t : StreamSt} {x : StreamId} {a : Word} {w : Word} (held : t.held a = some w)
    (last : x = .v → moreBit w = false) : bundleAt t x 4 a = .inl [w] := by
  have ends : ¬(x = .v ∧ moreBit w = true) := fun ⟨v, more⟩ => Bool.false_ne_true ((last v).symm.trans more)
  simp only [bundleAt, held, if_neg ends]

theorem bundleIllegal_word_none {x : StreamId} {w : Word} {i : Instr} (reads : decode x w = some i)
    (legal : x = .v → bundleIllegal .v [w] = none) : bundleIllegal x [w] = none := by
  by_cases v : x = .v
  · subst v
    exact legal rfl
  · simp [bundleIllegal, v, reads]

theorem bundleIllegal_word_some {x : StreamId} {w : Word} (other : x ≠ .v) (reads : decode x w = none) :
    bundleIllegal x [w] = some 0 := by
  simp [bundleIllegal, other, reads]

theorem runWords_one (i : Instr) (s : State) : runWords [i] s = exec i s := by
  unfold runWords
  rcases exec i s with t | r | r
  · simp [runWords]
  · rfl
  · rfl

/-! ### An offer where the ring holds one word -/

section Offer

variable {s : State} {n : Nat} {x : StreamId} {j : Job} {w : Word}

/-- What an offer comes to where the stream may issue and its ring holds the last word of its bundle at its PC. -/
theorem tryIssue_word (job : s.jobs[n]? = some j) (may : mayIssue s j x none = true) (skip : (j.stream x).skip = false)
    (held : (j.stream x).held (j.stream x).pc = some w) (last : x = .v → moreBit w = false) :
    s.tryIssue n x none =
      let c := Cursor.start n x none j 1
      match bundleIllegal x [w] with
      | some 0 => .idle (s.raiseAt c ⟨causeIllegal, (j.stream x).pc, 0, 0⟩)
      | some (k + 1) => .run { s with cursor := some (c.illegalAt (k + 1)) } (([w].take (k + 1)).filterMap (decode x))
      | none =>
        if s.interlocked j x [w] && !(j.stream x).inside then
          if j.timed && j.targetCome s.tick x w then .run { s with cursor := some c.missed } ([w].filterMap (decode x))
          else .idle s
        else
          .run { s with cursor := some { c with
              done := if x = .v then bundleDone j (preciseOf j.vs.fpctl) s.tick (bundlePairs x [w]) else 0 } }
            ([w].filterMap (decode x)) := by
  have regs : j.regs x none = j.stream x := rfl
  have len : [w].length = 1 := rfl
  have head : [w].headD 0 = w := rfl
  unfold State.tryIssue
  rcases legal : bundleIllegal x [w] with _ | _ | k <;>
    simp only [job, may, regs, bundleAt_word held last, skip, legal, len, head, guessEnds_stream, Bool.not_true, Bool.false_eq_true,
      if_false]

end Offer

/-- Settles O4: an offer to a stream that may issue its word runs it. -/
theorem stepRunsDecodedInstruction : Obligations.StepRunsDecodedInstruction := by
  unfold Obligations.StepRunsDecodedInstruction
  intro s n x rest j w i agenda job may skip held last legal free reads u done
  have words : [w].filterMap (decode x) = [i] := by simp [reads]
  have pairs : bundlePairs x [w] = [(w, i)] := by simp [bundlePairs, reads]
  have offered : u.tryIssue n x none = .run { u with cursor := some { Cursor.start n x none j 1 with done := done } } [i] := by
    rw [tryIssue_word (s := u) job may skip held last, bundleIllegal_word_none reads legal]
    simp only [words, pairs]
    exact if_neg (Bool.eq_false_iff.1 free)
  rw [step_of_agenda agenda, ← runWords_one]
  exact issueTurn_run offered

/-! ### A trap taken where no word is rolled back (R226) -/

/-- A trap of a stream that is at no word of its own, with THANDLER set and no handler running, is taken. -/
theorem takeTrap_taken {s : State} {n : Nat} {x : StreamId} {j : Job} (len : Nat) {r : TrapRec} (job : s.jobs[n]? = some j)
    (idle : j.handler = none) (set : (j.stream x).thandler ≠ 0) (cause : r.cause ≠ causeMemUe) :
    s.takeTrap n x none r = { trapTaken s (Cursor.start n x none j len) r with cursor := s.cursor } := by
  obtain ⟨lt, at_n⟩ := List.getElem?_eq_some_iff.1 job
  unfold State.takeTrap trapTaken
  simp only [cause, if_false, State.setJob, State.modRegs, State.modJob, job]
  cases x <;>
    simp [lt, Cursor.start, Cursor.regs, Job.setRegs, Job.regs, Job.setStream, Job.stream, idle, StreamSt.setTrap] <;>
    simp [Job.stream] at set <;> simp [set]

/-- Settles O6: a word that no map of the stream holds is no bundle to run; its trap is raised where it stands. -/
theorem stepIllegalWordTraps : Obligations.StepIllegalWordTraps := by
  unfold Obligations.StepIllegalWordTraps
  intro s n x rest j w agenda job other may skip held reads set idle u
  have offered : u.tryIssue n x none =
      .idle (u.raiseAt (Cursor.start n x none j 1) ⟨causeIllegal, (j.stream x).pc, 0, 0⟩) := by
    rw [tryIssue_word (s := u) job may skip held fun v => absurd v other, bundleIllegal_word_some other reads]
  have taken := takeTrap_taken (s := u) 1 (r := ⟨causeIllegal, (j.stream x).pc, 0, 0⟩) job idle set
    (show causeIllegal ≠ causeMemUe by decide)
  rw [step_of_agenda agenda]
  refine (issueTurn_idle offered).trans ?_
  rw [State.raiseAt]
  exact congrArg (fun t : State => Host.Outcome.next (precedence n x u ((t.settle n).tryRetire n))) taken

end Sys2Proof.Machine
end

section
/-! SUPPORT. What a WAIT byte lets through and takes, and what a word pushes as it retires. -/

namespace Sys2Proof.Machine

/-! ### WAIT (R55 to R57) -/

section Waits

variable (j : Job) (now : Nat) (x : StreamId)

theorem all_hasToken (ys : List StreamId) :
    (ys.all fun y => j.hasToken now y x) = true ↔ ∀ y ∈ ys, j.hasToken now y x = true := List.all_eq_true

theorem applyWait_tokens (m : BitVec 4) :
    applyWait (.tokens m) j now x =
      if ∀ y ∈ maskOthers x m, j.hasToken now y x = true then .ready (j.popTokens x (maskOthers x m)) false else .stall := by
  simp only [applyWait, all_hasToken]

theorem applyWait_drain (m : BitVec 4) :
    applyWait (.drain m) j now x =
      if (j.stream x).retireQ = [] ∧ ∀ y ∈ maskOthers x m, j.hasToken now y x = true then
        .ready (j.popTokens x (maskOthers x m)) false
      else .stall := by
  simp only [applyWait, Bool.and_eq_true, all_hasToken, List.isEmpty_iff]

theorem applyWait_timed (d : BitVec 6) :
    applyWait (.timed d) j now x =
      let target := (j.stream x).stamp.toNat + 4 * d.toNat
      if now < target then .stall
      else if j.timed = true ∧ target < now then .miss
      else .ready (j.setStream x { j.stream x with stamp := BitVec.ofNat 64 target }) j.timed := by
  simp only [applyWait, waitTimed, Bool.and_eq_true, decide_eq_true_eq, List.all_nil, if_true]
  rfl

/-- At the target or past it, a token that is not there is missed in a timed job, and waited for in any other. -/
theorem applyWait_timedToken (i : BitVec 2) (e : BitVec 4) :
    applyWait (.timedToken i e) j now x =
      let near := (j.stream x).stamp.toNat + 4 * e.toNat
      let y := otherOf x i
      if now < near then .stall
      else if j.timed = true ∧ (near < now ∨ j.hasToken now y x = false) then .miss
      else if j.hasToken now y x = true then
        .ready ((j.popToken y x).setStream x { j.stream x with stamp := BitVec.ofNat 64 near }) j.timed
      else .stall := by
  simp only [applyWait, waitTimed, Bool.and_eq_true, decide_eq_true_eq, List.all_cons, List.all_nil, Bool.and_true]
  rcases timed : j.timed <;> rcases token : j.hasToken now (otherOf x i) x <;> simp [Job.popTokens]

end Waits

/-! ### SIG (R58, R145) -/

theorem StreamId.num_lt (x : StreamId) : x.num < 5 := by cases x <;> decide

theorem StreamId.num_inj {x y : StreamId} (h : x.num = y.num) : x = y := by
  have back (z : StreamId) : StreamId.ofNum z.num = some z := by cases z <;> rfl
  exact Option.some.inj ((back x).symm.trans ((congrArg _ h).trans (back y)))

/-- Each pair of streams has a place of its own. -/
theorem pairIdx_eq_iff {x y z u : StreamId} : (pairIdx x y : Nat) = pairIdx z u ↔ x = z ∧ y = u := by
  have hy := StreamId.num_lt y
  have hu := StreamId.num_lt u
  constructor
  · intro same
    change 5 * x.num + y.num = 5 * z.num + u.num at same
    exact ⟨StreamId.num_inj (by omega), StreamId.num_inj (by omega)⟩
  · rintro ⟨rfl, rfl⟩
    rfl

theorem maskOthers_nodup (x : StreamId) (m : BitVec 4) : (maskOthers x m).Nodup := by
  cases x <;> revert m <;> decide

/-- What is added to the FIFO or queue of one pair stands there alone. -/
theorem get_set_append {α : Type} (v : Vector (List α) 25) (x y z u : StreamId) (l : List α) :
    (v.set (pairIdx x y) (v.get (pairIdx x y) ++ l) (pairIdx x y).isLt).get (pairIdx z u) =
      v.get (pairIdx z u) ++ (if z = x ∧ u = y then l else []) := by
  by_cases same : z = x ∧ u = y
  · obtain ⟨rfl, rfl⟩ := same
    simp [Vector.get_eq_getElem]
  · have other : (pairIdx x y : Nat) ≠ pairIdx z u := fun at' => same (by simpa [eq_comm] using pairIdx_eq_iff.1 at')
    simp [Vector.get_eq_getElem, other, same]

theorem pushToken_tokens (t : Nat) (x y z u : StreamId) (j : Job) :
    (j.pushToken t x y).tokens.get (pairIdx z u) = j.tokens.get (pairIdx z u) ++ (if z = x ∧ u = y then [t] else []) :=
  get_set_append ..

theorem pushQueue_queues (t : Nat) (x y z u : StreamId) (w : Word) (j : Job) :
    (j.pushQueue t x y w).queues.get (pairIdx z u) =
      j.queues.get (pairIdx z u) ++ (if z = x ∧ u = y then [(t, w)] else []) :=
  get_set_append ..

theorem pushTokens_queues (t : Nat) (x : StreamId) (ys : List StreamId) (j : Job) :
    (ys.foldl (Job.pushToken t x) j).queues = j.queues := by
  induction ys generalizing j with
  | nil => rfl
  | cons y ys ih => exact ih (j.pushToken t x y)

/-- One token goes to each of some distinct streams. -/
theorem pushTokens_tokens (t : Nat) (x z u : StreamId) {ys : List StreamId} (nodup : ys.Nodup) (j : Job) :
    (ys.foldl (Job.pushToken t x) j).tokens.get (pairIdx z u) =
      j.tokens.get (pairIdx z u) ++ (if z = x ∧ u ∈ ys then [t] else []) := by
  induction ys generalizing j with
  | nil => simp
  | cons y ys ih =>
    obtain ⟨fresh, nodup⟩ := List.nodup_cons.1 nodup
    rw [List.foldl_cons, ih nodup, pushToken_tokens, List.append_assoc]
    congr 1
    by_cases from' : z = x
    · by_cases first : u = y
      · subst first
        simp [from', fresh]
      · simp [from', first]
    · simp [from']

@[simp] theorem Job.setStream_tokens (j : Job) (x : StreamId) (t : StreamSt) : (j.setStream x t).tokens = j.tokens := by
  cases x <;> rfl

@[simp] theorem Job.setStream_queues (j : Job) (x : StreamId) (t : StreamSt) : (j.setStream x t).queues = j.queues := by
  cases x <;> rfl

section Retire

variable (now : Nat) (x : StreamId) (j : Job) (tokens : BitVec 4) (reply : BitVec 3) (w : Word) (z u : StreamId)

theorem retirePush_tokens : (j.retirePush now x tokens reply w).tokens.get (pairIdx z u) =
    j.tokens.get (pairIdx z u) ++ (if z = x ∧ u ∈ maskOthers x tokens then [now] else []) := by
  have pushed := pushTokens_tokens now x z u (maskOthers_nodup x tokens) j
  unfold Job.retirePush
  split
  · exact pushed
  · exact pushed

theorem retirePush_queues : (j.retirePush now x tokens reply w).queues.get (pairIdx z u) =
    j.queues.get (pairIdx z u) ++
      (if z = x ∧ reply ≠ 0 ∧ u = otherOf x (BitVec.ofNat 2 (reply.toNat - 1)) then [(now, w)] else []) := by
  unfold Job.retirePush
  split
  next none => simp [pushTokens_queues, none]
  next some =>
    have some : reply ≠ 0#3 := some
    simp [pushQueue_queues, pushTokens_queues, some]

end Retire

/-- A word with something to push retires at once where nothing older is held, its results are complete and there is room. -/
theorem retireWord_pushes {now : Nat} {x : StreamId} {j : Job} {e : RetEntry} (plain : e.cmd = none)
    (first : (j.stream x).retireQ = []) (complete : e.ready ≤ now) (room : j.retireRoom now x e.tokens e.reply = true) :
    retireWord now x j e =
      (j.setStream x { j.stream x with
        retired := if e.copy then (j.stream x).retired + 1 else (j.stream x).retired }).retirePush now x e.tokens e.reply e.value := by
  unfold retireWord
  simp [plain, first, complete, room]

/-- Otherwise it stands last in the stream's order. -/
theorem retireWord_held {now : Nat} {x : StreamId} {j : Job} {e : RetEntry} (pushes : e.tokens ≠ 0 ∨ e.reply ≠ 0)
    (held : (j.stream x).retireQ ≠ [] ∨ now < e.ready ∨ j.retireRoom now x e.tokens e.reply = false) :
    retireWord now x j e = j.setStream x { j.stream x with retireQ := (j.stream x).retireQ ++ [e] } := by
  have not_now : ((j.stream x).retireQ.isEmpty && e.cmd.isNone && decide (e.ready ≤ now) &&
      j.retireRoom now x e.tokens e.reply) = false := by
    rcases held with older | early | full
    · simp [older]
    · simp [Nat.not_le.2 early]
    · simp [full]
  have not_silent : ¬(e.cmd.isNone && decide (e.ready ≤ now) && e.tokens = 0 && e.reply = 0 && (j.stream x).retireQ.isEmpty) = true := by
    intro silent
    simp only [Bool.and_eq_true, decide_eq_true_eq] at silent
    obtain ⟨⟨⟨-, noTokens⟩, noReply⟩, -⟩ := silent
    exact pushes.elim (· noTokens) (· noReply)
  unfold retireWord
  simp only [not_now, Bool.false_eq_true, if_false, if_neg not_silent]

/-- Settles O22: each form of WAIT by its own equation. -/
theorem waitForms : Obligations.WaitForms := by
  unfold Obligations.WaitForms
  intro j now x m e d i
  exact ⟨applyWait_tokens j now x m, applyWait_drain j now x m, applyWait_timed j now x d, applyWait_timedToken j now x i e⟩

/-- Settles O23: a retire pushes to each stream it selects, and a held one joins the stream's order. -/
theorem sigPushesAtRetire : Obligations.SigPushesAtRetire := by
  unfold Obligations.SigPushesAtRetire
  intro now x j e plain copy pushes
  refine ⟨fun first complete room y z => ?_, retireWord_held pushes⟩
  rw [retireWord_pushes plain first complete room]
  exact ⟨by rw [retirePush_tokens, Job.setStream_tokens], by rw [retirePush_queues, Job.setStream_queues]⟩

end Sys2Proof.Machine
end

section
/-! SUPPORT. What a word whose guard is false comes to: each shape of scalar word, and the command words of L and S. -/

namespace Sys2Proof.Machine

section GuardOff

variable {s s1 : State} {h : Hdr} {c : Cursor} {j : Job} {uses : List Src} {first : Option Src}
  {op : Cursor → Job → State → WRes}

/-- A word with a destination whose guard is false pushes its first operand there, where that is the history. -/
theorem scalarWord_off_dest {d : Dest} (enters : Enters s h.wait h.sig c j s1) (off : c.regs.guardTrue h.guard = false)
    (free : destPending (j.regs c.stream c.slot) (offUses h first (some d)) (offDest (some d)) = false) :
    scalarWord h uses first (some d) op s =
      .next (issued s1 c h.sig (if d = .push then j.put c .push (guardOffValue c.regs first) else j)
        (guardOffValue c.regs first) none) := by
  rw [scalarWord_off enters off free]
  simp only [Option.some.injEq, Option.isSome_some, if_true]

/-- A word without a scalar value whose guard is false leaves its bundle's value (R59). -/
theorem scalarWord_off_plain (enters : Enters s h.wait h.sig c j s1) (off : c.regs.guardTrue h.guard = false)
    (free : destPending (j.regs c.stream c.slot) (offUses h first none) (offDest none) = false) :
    scalarWord h uses first none op s = .next (issued s1 c h.sig j c.value none) :=
  scalarWord_off enters off free

/-- A word that yields a value and writes it nowhere, its guard false. -/
theorem runWord_valueBody_off (enters : Enters s h.wait h.sig c j s1) (off : c.regs.guardTrue h.guard = false)
    (free : destPending (j.regs c.stream c.slot) (offUses h first none) (offDest none) = false) :
    runWord h.wait h.sig true (scalarBody h true uses first none op) s =
      .next (issued s1 c h.sig j (guardOffValue c.regs first) none) := by
  refine runWord_ok enters ?_ enters.cursor enters.job
  simp only [scalarBody, off, free, Bool.false_eq_true, if_false, if_true, reduceCtorEq]

/-- A command word whose guard is false retires as a command that counts (R185). -/
theorem cmdWord_off {d : Dest} {first : Src} {start : Cursor → Job → State → CmdRes} {strict : Job → Cursor → Bool}
    (enters : Enters s h.wait h.sig c j s1) (off : c.regs.guardTrue h.guard = false)
    (free : destPending (j.stream c.stream) (offUses h (some first) (some d)) (offDest (some d)) = false) :
    cmdWord h d uses first start strict s =
      .next { s1 with
        jobs := s1.jobs.set c.job (retireWord s1.tick c.stream
          (j.setStream c.stream
            { (if d = .push then (j.stream c.stream).push (c.regs.src first) else j.stream c.stream) with
              pc := c.pc + 8, notBefore := s1.tick + 1 })
          ⟨c.pc, none, .discard, c.regs.src first, h.sig.reply, h.sig.tokens, false, true, 0⟩)
        cursor := none } := by
  unfold cmdWord
  rw [runWord_enters true _ enters]
  simp only [off, free, State.absorb, State.close, State.setJob, enters.clean, enters.going, Option.isSome_none, Bool.or_self,
    Bool.false_eq_true, if_false, if_true]

end GuardOff

/-- Settles O15: each shape of word comes down to one of the four above. -/
theorem falseGuardDoesNothing : Obligations.FalseGuardDoesNothing := by
  unfold Obligations.FalseGuardDoesNothing
  intro s h d a b n pd kc i31 i36 i21 sz cc csr sel x code tl nb lsel cb sh f32 disc l1 m4 op cs ord aop rord sc c j s1 enters guard
    off plain free va
  have dest {uses first op} {e : Dest} (f : free first (some e)) :
      scalarWord h uses first (some e) op s = .next (off e (guardOffValue c.regs first)) :=
    scalarWord_off_dest enters guard f
  have quiet {uses first op} (f : free first none) : scalarWord h uses first none op s = .next plain :=
    scalarWord_off_plain enters guard f
  have value {uses first op} (f : free first none) :
      runWord h.wait h.sig true (scalarBody h true uses first none op) s = .next (off .discard (guardOffValue c.regs first)) :=
    runWord_valueBody_off enters guard f
  refine ⟨fun f => ?_, fun f => ?_, fun f => ?_, fun f => ?_, fun f => ?_, fun f => ?_, fun f => ?_, fun f => ?_, fun f => ?_,
    fun slot f => ?_⟩
  · exact ⟨dest f, dest f, dest f, dest f, dest f, dest f, dest f, dest f, dest f⟩
  · exact ⟨dest f, dest f, dest f, dest f, dest f⟩
  · exact ⟨value f, quiet f, quiet f, quiet f, quiet f⟩
  · exact ⟨quiet f, quiet f, quiet f, quiet f, quiet f, quiet f⟩
  · exact ⟨value f, value f, value f, value f, value f, value f, quiet f, quiet f, quiet f⟩
  · exact ⟨value f, quiet f, quiet f, quiet f⟩
  · exact dest f
  · exact ⟨quiet f, quiet f⟩
  · exact quiet f
  · intro u k t
    have regs : j.stream c.stream = j.regs c.stream c.slot := by rw [slot]; rfl
    have cmd (uses start strict) : cmdWord h d uses a start strict s = .next t :=
      cmdWord_off enters guard ((congrArg (destPending · _ _) regs).trans f)
    clear_value t
    refine ⟨cmd .., cmd .., ?append, ?conv, cmd .., cmd .., cmd .., cmd .., cmd ..⟩
    case append =>
      show execCpyoAppend h d sh a b n s = .next t
      unfold execCpyoAppend
      exact cmd ..
    case conv =>
      show execCpyc h d sh a b n s = .next t
      unfold execCpyc
      exact cmd ..

end Sys2Proof.Machine
end

section
/-! SUPPORT. The checks of scratchpad accesses and of LD and ST at their boundaries, and a trap that uncorrectable data raises. -/

namespace Sys2Proof.Machine

/-! ### The bits of an address (R113, R260) -/

theorem pathOf_eq (va : Word) : pathOf va = va.toNat / 2 ^ 56 % 16 := by
  simp [pathOf, BitVec.extractLsb'_toNat, Nat.shiftRight_eq_div_pow]

theorem topBits_eq_zero_iff (va : Word) : va.extractLsb' 60 4 = 0 ↔ va.toNat < 2 ^ 60 := by
  have lt := va.isLt
  rw [← BitVec.toNat_inj, BitVec.extractLsb'_toNat, Nat.shiftRight_eq_div_pow]
  simp only [BitVec.ofNat_eq_ofNat, BitVec.toNat_ofNat]
  omega

/-- An address is on path `p` with bits [63:60] clear exactly where its top byte is `p`. -/
theorem onPath_iff {va : Word} {p : Nat} (small : p < 16) :
    (pathOf va = p ∧ va.extractLsb' 60 4 = 0) ↔ va.toNat / 2 ^ 56 = p := by
  rw [pathOf_eq, topBits_eq_zero_iff]
  omega

/-- The addresses that a load or store may not name are those from 7·2^56 on. -/
theorem badPointer_eq (va : Word) : badPointer va = decide (7 * 2 ^ 56 ≤ va.toNat) := by
  have lt := va.isLt
  rw [Bool.eq_iff_iff]
  simp only [badPointer, Bool.or_eq_true, bne_iff_ne, ne_eq, topBits_eq_zero_iff, decide_eq_true_eq, pathOf_eq]
  omega

/-! ### Scratchpad accesses of a stream's word (R111, R247) -/

theorem length_leBytes (n v : Nat) : (leBytes n v).length = n := by
  induction n generalizing v with
  | zero => rfl
  | succ n ih => rw [leBytes, List.length_cons, ih]

theorem spLoad_outside {j : Job} {slot : Option Nat} {a n : Nat} (out : j.spanOk a n = false) :
    j.spLoad slot a n = .fault causeBound := by
  simp [Job.spLoad, out]

theorem spLoad_uncorrectable {j : Job} {a n : Nat} (inside : j.spanOk a n = true) (bad : unitsTouch j.spBad a n = true) :
    j.spLoad none a n = .fault causeMemUe := by
  simp [Job.spLoad, inside, bad]

theorem spStore_outside {j : Job} {slot : Option Nat} {a : Nat} {b : List Byte} (out : j.spanOk a b.length = false) :
    j.spStore slot a b = .fault causeBound := by
  simp [Job.spStore, out]

/-! ### A trap of uncorrectable data (R226, R415) -/

theorem reportUe_accessed (s : State) (n core : Nat) : Accessed s (s.reportUe n core) := by
  have counted (r : ErrRec) : Accessed s ({ s with free := s.free + 1, ueAt := none }.logError r) :=
    .trans (t := { s with free := s.free + 1, ueAt := none }) ⟨rfl, rfl, rfl, rfl, rfl, id⟩ (logError_accessed ..)
  unfold State.reportUe
  split
  · exact .refl s
  · exact .ite (counted _) ((counted _).trans (modCore_accessed ..))

/-- A stream's trap of uncorrectable data is reported as consumed, and then taken, with THANDLER set and no handler running. -/
theorem takeTrap_reported {s : State} {c : Cursor} {r : TrapRec} (job : s.jobs[c.job]? = some c.pre) (handler : HandlerReady c)
    (cause : r.cause = causeMemUe) :
    s.takeTrap c.job c.stream none r = { trapTaken (s.reportUe c.job c.pre.core) c r with cursor := s.cursor } := by
  obtain ⟨slot, idle, set⟩ := handler
  have acc := reportUe_accessed s c.job c.pre.core
  obtain ⟨lt, at_n⟩ := List.getElem?_eq_some_iff.1 job
  have there : (s.reportUe c.job c.pre.core).jobs[c.job]? = some c.pre := acc.jobs ▸ job
  have lt' : c.job < (s.reportUe c.job c.pre.core).jobs.length := acc.jobs ▸ lt
  unfold State.takeTrap trapTaken
  simp only [job, cause, if_true, Job.coreOf]
  generalize s.reportUe c.job c.pre.core = u at *
  simp only [State.setJob, State.modRegs, State.modJob, there, slot, Cursor.regs]
  cases hx : c.stream <;>
    simp [lt', Job.setRegs, Job.regs, Job.setStream, Job.stream, idle, StreamSt.setTrap, acc.cursor, acc.tick] <;>
    simp [hx, Job.stream] at set <;> simp [set]

/-- A word whose access fails: its bundle is as before it but for what the access has left, and the trap is raised. -/
theorem runWord_fail {s s1 u : State} {w : Wait} {g : Sig} {c : Cursor} {j : Job} {body : Cursor → Job → State → WRes} {e : BitVec 8}
    (h : Enters s w g c j s1) (res : body c j s1 = .fail u e) :
    runWord w g true body s = .next ((u.rollback c).raiseAt c ⟨e, c.pc, 0, BitVec.ofNat 64 c.index <<< 8⟩) := by
  rw [runWord_enters true body h, res]
  simp [State.absorb, State.close, Cursor.met, Cursor.verdict, h.clean, h.going, worseTrap, State.rollback, State.setJob, State.raiseAt]

/-- A scalar word stopped by uncorrectable data of its own core's stores. -/
theorem scalarWord_trapReported {s s1 : State} {h : Hdr} {uses : List Src} {first : Option Src} {d : Option Dest} {c : Cursor}
    {j : Job} {op : Cursor → Job → State → WRes} {at' : Option (Nat × Nat)} (run : Runs s h uses d c j s1) (handler : HandlerReady c)
    (res : op c j s1 = s1.raiseOwn at' causeMemUe) :
    scalarWord h uses first d op s =
      .next (trapTaken (({ s1 with ueAt := at' } : State).rollback c |>.reportUe c.job c.pre.core) c
        ⟨causeMemUe, c.pc, 0, BitVec.ofNat 64 c.index <<< 8⟩) := by
  obtain ⟨enters, guard, free⟩ := run
  obtain ⟨lt, _⟩ := List.getElem?_eq_some_iff.1 enters.job
  have failed : scalarBody h d.isSome uses first d op c j s1 = .fail { s1 with ueAt := at' } causeMemUe := by
    simp [scalarBody, guard, free, res, State.raiseOwn]
  have stands : (({ s1 with ueAt := at' } : State).rollback c).jobs[c.job]? = some c.pre := by simp [State.rollback, lt]
  unfold scalarWord
  rw [runWord_fail enters failed, State.raiseAt, handler.1]
  exact congrArg Host.Outcome.next (takeTrap_reported stands handler rfl)

/-- A scalar word that raises a plain trap. -/
theorem scalarWord_raised {s s1 : State} {h : Hdr} {uses : List Src} {first : Option Src} {d : Option Dest} {c : Cursor}
    {j : Job} {op : Cursor → Job → State → WRes} {cause : BitVec 8} (run : Runs s h uses d c j s1) (handler : HandlerReady c)
    (other : cause ≠ causeMemUe) (res : op c j s1 = .raise cause) :
    scalarWord h uses first d op s = .next (trapTaken s1 c ⟨cause, c.pc, 0, BitVec.ofNat 64 c.index <<< 8⟩) :=
  (scalarWord_trapTaken run handler res other).trans (by simp)

/-! ### LDS and STS that trap (R111) -/

section Trap

variable {s s1 : State} {h : Hdr} {d : Dest} {x a : Src} {size : BitVec 2} {sgn : Bool} {off : BitVec 21} {ord : MemOrd} {c : Cursor}
  {j : Job}

theorem execLds_outside (run : Runs s h [a] (some d) c j s1) (handler : HandlerReady c)
    (out : j.spanOk (smAddr (c.regs.src a) off).toNat (sizeBytes size) = false) :
    execLds h d a size sgn off s = .next (trapTaken s1 c ⟨causeBound, c.pc, 0, BitVec.ofNat 64 c.index <<< 8⟩) := by
  refine scalarWord_raised run handler (by decide) ?_
  simp only [spLoad_outside out]
  rfl

theorem execSts_outside (run : Runs s h [x, a] none c j s1) (handler : HandlerReady c)
    (out : j.spanOk (smAddr (c.regs.src a) off).toNat (sizeBytes size) = false) :
    execSts h x a size off s = .next (trapTaken s1 c ⟨causeBound, c.pc, 0, BitVec.ofNat 64 c.index <<< 8⟩) := by
  refine scalarWord_raised run handler (by decide) ?_
  rw [← length_leBytes (sizeBytes size) (c.regs.src x).toNat] at out
  simp only [spStore_outside out]

theorem execLds_uncorrectable (run : Runs s h [a] (some d) c j s1) (handler : HandlerReady c)
    (inside : j.spanOk (smAddr (c.regs.src a) off).toNat (sizeBytes size) = true)
    (bad : unitsTouch j.spBad (smAddr (c.regs.src a) off).toNat (sizeBytes size) = true) :
    execLds h d a size sgn off s =
      .next (trapTaken (({ s1 with ueAt := j.spUe none (smAddr (c.regs.src a) off).toNat (sizeBytes size) } : State).rollback c
        |>.reportUe c.job c.pre.core) c ⟨causeMemUe, c.pc, 0, BitVec.ofNat 64 c.index <<< 8⟩) := by
  refine scalarWord_trapReported run handler ?_
  simp only [handler.1, spLoad_uncorrectable inside bad]

/-! ### LD and ST that trap (R113) -/

/-- An address of LD that is MISALIGNED: of an ordered access off its size, or on path 0x6 and not 8 aligned bytes. -/
def LdMisaligned (ordered : Bool) (va n : Nat) : Prop :=
  (ordered = true ∧ va % n ≠ 0) ∨ (va / 2 ^ 56 = 6 ∧ (n ≠ 8 ∨ va % 8 ≠ 0))

/-- LD's test of MISALIGNED as the model words it. -/
theorem ldMisaligned_iff (ordered : Bool) (va : Word) (n : Nat) :
    ((ordered = true ∧ va.toNat % n ≠ 0) ∨ (pathOf va = 6 ∧ va.extractLsb' 60 4 = 0 ∧ (n ≠ 8 ∨ va.toNat % 8 ≠ 0))) ↔
      LdMisaligned ordered va.toNat n := by
  rw [LdMisaligned, ← onPath_iff (va := va) (p := 6) (by decide), and_assoc]

variable {va : Word} (is : c.regs.src a + ordOffset ord = va)

include is

theorem execLd_misaligned (run : Runs s h [a] (some d) c j s1) (handler : HandlerReady c)
    (bad : LdMisaligned (ordIs ord) va.toNat (sizeBytes size)) :
    execLd h d a size sgn ord s = .next (trapTaken s1 c ⟨causeMisaligned, c.pc, 0, BitVec.ofNat 64 c.index <<< 8⟩) := by
  refine scalarWord_raised run handler (by decide) ?_
  simp only [is, if_pos ((ldMisaligned_iff ..).2 bad)]

theorem execLd_beyondPaths (run : Runs s h [a] (some d) c j s1) (handler : HandlerReady c)
    (fits : ¬LdMisaligned (ordIs ord) va.toNat (sizeBytes size)) (beyond : 7 * 2 ^ 56 ≤ va.toNat) :
    execLd h d a size sgn ord s = .next (trapTaken s1 c ⟨causeProtection, c.pc, 0, BitVec.ofNat 64 c.index <<< 8⟩) := by
  refine scalarWord_raised run handler (by decide) ?_
  simp only [is, if_neg (mt (ldMisaligned_iff ..).1 fits), badPointer_eq, decide_eq_true beyond, if_true]

theorem execLd_unanswered (run : Runs s h [a] (some d) c j s1) (handler : HandlerReady c)
    (fits : ¬LdMisaligned (ordIs ord) va.toNat (sizeBytes size)) (path : va.toNat / 2 ^ 56 = 6)
    (none' : s1.controlRead j none (va.toNat % 2 ^ 56) = none) :
    execLd h d a size sgn ord s = .next (trapTaken s1 c ⟨causeProtection, c.pc, 0, BitVec.ofNat 64 c.index <<< 8⟩) := by
  have within : decide (7 * 2 ^ 56 ≤ va.toNat) = false := decide_eq_false (by omega)
  have six : pathOf va = 6 := ((onPath_iff (by decide)).2 path).1
  refine scalarWord_raised run handler (by decide) ?_
  simp only [is, if_neg (mt (ldMisaligned_iff ..).1 fits)]
  simp only [badPointer_eq, within, Bool.false_eq_true, if_false, six, if_true, handler.1, none']

theorem execSt_misaligned (run : Runs s h [x, a] none c j s1) (handler : HandlerReady c)
    (bad : ordIs ord = true ∧ va.toNat % sizeBytes size ≠ 0) :
    execSt h x a size ord s = .next (trapTaken s1 c ⟨causeMisaligned, c.pc, 0, BitVec.ofNat 64 c.index <<< 8⟩) := by
  refine scalarWord_raised run handler (by decide) ?_
  simp only [is, if_pos bad]

theorem execSt_beyondMemory (run : Runs s h [x, a] none c j s1) (handler : HandlerReady c)
    (fits : ¬(ordIs ord = true ∧ va.toNat % sizeBytes size ≠ 0)) (beyond : 6 * 2 ^ 56 ≤ va.toNat) :
    execSt h x a size ord s = .next (trapTaken s1 c ⟨causeProtection, c.pc, 0, BitVec.ofNat 64 c.index <<< 8⟩) := by
  have forbidden : badPointer va = true ∨ pathOf va = 6 := by
    rw [badPointer_eq, decide_eq_true_eq, pathOf_eq]
    omega
  refine scalarWord_raised run handler (by decide) ?_
  simp only [is, if_neg fits, if_pos forbidden]

theorem execSt_readOnly (run : Runs s h [x, a] none c j s1) (handler : HandlerReady c)
    (fits : ¬(ordIs ord = true ∧ va.toNat % sizeBytes size ≠ 0)) (path : va.toNat / 2 ^ 56 = 1)
    (found : s1.storeReadOnly c (c.who j) va (sizeBytes size) = .raise causeProtection) :
    execSt h x a size ord s = .next (trapTaken s1 c ⟨causeProtection, c.pc, 0, BitVec.ofNat 64 c.index <<< 8⟩) := by
  have one : pathOf va = 1 := ((onPath_iff (by decide)).2 path).1
  have allowed : ¬(badPointer va = true ∨ pathOf va = 6) := by
    rw [badPointer_eq, decide_eq_true_eq, one]
    omega
  refine scalarWord_raised run handler (by decide) ?_
  simp only [is, if_neg fits, if_neg allowed, if_pos one, found]

end Trap

/-- A store to the read-only path, where no part of it fails to translate (R80). -/
theorem storeReadOnly_translated {s : State} {c : Cursor} {w : Who} {va : Word} {n : Nat}
    (found : (∃ t l, s.partsOf w va n .read = .ok t l) ∨ ∃ t e, s.partsOf w va n .read = .fault t e) :
    s.storeReadOnly c w va n = .raise causeProtection := by
  unfold State.storeReadOnly
  rcases found with ⟨t, l, parts⟩ | ⟨t, e, parts⟩ <;> rw [parts]

/-- Settles O17: the scratchpad words and LD and ST, check by check in the order of R80. -/
theorem loadStoreTraps : Obligations.LoadStoreTraps := by
  unfold Obligations.LoadStoreTraps
  refine ⟨?scratch, ?consumed, ?addresses⟩
  case scratch =>
    intro s h d x a size sgn off c j s1 at' handler out
    exact ⟨fun run => execLds_outside run handler out, fun run => execSts_outside run handler out⟩
  case consumed =>
    intro s h d a size sgn off c j s1 at' handler inside bad run
    exact execLds_uncorrectable run handler inside bad
  case addresses =>
    intro s h d x a size sgn ord c j s1 va n aligned out handler
    have is : c.regs.src a + ordOffset ord = va := by cases ord <;> rfl
    refine ⟨fun bad => ?_, fun path run => ⟨fun odd => ?_, fun eight fits free => ?_⟩, fun fits => ⟨fun beyond run => ?_,
      fun beyond run => ?_, fun path found run => ?_⟩⟩
    · have off : ordIs ord = true ∧ va.toNat % n ≠ 0 := Classical.not_imp.1 bad
      exact ⟨fun run => execLd_misaligned is run handler (.inl off), fun run => execSt_misaligned is run handler off⟩
    · exact execLd_misaligned is run handler (.inr ⟨path, odd⟩)
    · refine execLd_unanswered is run handler ?_ path free
      rintro (⟨-, off⟩ | ⟨-, off | off⟩)
      · exact off ((congrArg (va.toNat % ·) eight).trans fits)
      · exact off eight
      · exact off fits
    · refine execLd_beyondPaths is run handler ?_ beyond
      rintro (⟨ordered, off⟩ | ⟨path, -⟩)
      · exact off (fits ordered)
      · omega
    · exact execSt_beyondMemory is run handler (fun off => off.2 (fits off.1)) beyond
    · exact execSt_readOnly is run handler (fun off => off.2 (fits off.1)) path (storeReadOnly_translated found)

end Sys2Proof.Machine
end

section
/-! SUPPORT. Common prefixes, bitmaps and masks of the sampling words as functions of the lane. -/

namespace Sys2Proof.Machine

/-! ### Prefixes and bitmaps (R153, R157) -/

theorem prefixCount_eq (act eq : Nat → Bool) (n i : Nat) :
    prefixCount act eq n i = ((List.range' i n).takeWhile fun k => act k && eq k).length := by
  induction n generalizing i with
  | zero => rfl
  | succ n ih =>
    rw [prefixCount, ih, List.range'_succ, List.takeWhile_cons]
    split
    · rw [List.length_cons, Nat.add_comm]
    · rfl

/-- Bits set one by one are those of the old value and those named. -/
theorem getLsbD_setBits (f : Nat → Nat) (l : List Nat) (r : BitVec 2048) {k : Nat} (lt : k < 2048) :
    (l.foldl (fun r i => r ||| (1#2048 <<< f i)) r).getLsbD k = (r.getLsbD k || l.any fun i => f i == k) := by
  induction l generalizing r with
  | nil => simp
  | cons i t ih =>
    have one : (1#2048 <<< f i).getLsbD k = (f i == k) := by
      rw [← BitVec.twoPow_eq, BitVec.getLsbD_twoPow, Bool.eq_iff_iff]
      simp only [Bool.and_eq_true, decide_eq_true_eq, beq_iff_eq]
      omega
    rw [List.foldl_cons, ih, BitVec.getLsbD_or, one, List.any_cons, Bool.or_assoc]

/-- The bitmap that VBSET leaves. -/
theorem setBits_active (c : Cursor) (h : VHdr) (vb : BitVec 7) (ty : ElemTy) (r : VReg) :
    (activeUnits c h ty.bytes).foldl (fun r i => r ||| (1#2048 <<< bitIndex c vb ty i)) r =
      BitVec.ofFnLE fun k : Fin 2048 => r.getLsbD k.val ||
        (List.range ty.lanes).any fun i => laneActive c h i && srcLane c vb ty i % 2048 == k.val := by
  refine BitVec.eq_of_getLsbD_eq fun k hk => ?_
  rw [getLsbD_setBits _ _ _ hk, BitVec.getLsbD_ofFnLE, dif_pos hk, activeUnits, List.any_filter]
  rfl

/-- A mask that keeps every bit but those of active lanes. -/
theorem maskSet_eq (old : Mask) (act : Nat → Bool) (lanes : Nat) (f : Nat → Bool) :
    maskSet old act lanes f =
      BitVec.ofFnLE fun k : Fin 256 => if k.val < lanes ∧ act k.val = true then f k.val else old.getLsbD k.val := by
  rw [maskSet, maskPut_eq]
  refine congrArg BitVec.ofFnLE (funext fun k => ?_)
  rw [if_pos k.isLt]
  by_cases lane : k.val < lanes <;> by_cases on : act k.val = true <;> simp [lane, on]

/-! ### V words whose effect is on the job alone -/

section Words

variable {s s1 : State} {h : VHdr} {srcs : Cursor → List Touch} {dsts : List (BitVec 7)} {c : Cursor} {j : Job}

/-- A V word that is ready, passes its own checks and changes only its job. -/
theorem vecWord_checked {more : Cursor → Job → State → List (BitVec 8)} {op : Cursor → Job → State → WRes} {j2 : Job} {v : Word}
    (enters : Enters s h.wait h.sig c j s1) (ready : VecReady s1 j (srcs c) dsts) (passes : more c j s1 = [])
    (res : op c j s1 = .ok { s1 with jobs := s1.jobs.set c.job j2 } v none) :
    vecWord h srcs dsts more op s = .next (wordDone s1 c h j2 v 0) := by
  refine vecWord_ok enters ready passes res ?_
  have calm : c.raised ||| 0 = c.raised := BitVec.or_zero
  rw [calm, ← enters.cursor]

/-- A word that pushes a result to the history and changes nothing else. -/
theorem pushResult_eq {s : State} (job : s.jobs[c.job]? = some j) (n : Word) :
    pushResult c s n = .ok { s with jobs := s.jobs.set c.job (j.put c .push n) } n none :=
  congrArg (WRes.ok · n none) (State.modRegs_eq job _)

/-- A word that collects one result's exceptions and changes only its job. -/
theorem vecWord_oneResult {op : Cursor → Job → State → WRes} {v : Word} {fl : BitVec 5} {f : Job → Job}
    (enters : Enters s h.wait h.sig c j s1) (ready : VecReady s1 j (srcs c) dsts) (quiet : NoPrecise c 1 fun _ => fl)
    (res : op c j s1 = raiseLanes c s1 [(0, fl)] v f) :
    vecWord h srcs dsts (fun _ _ _ => []) op s = .next (wordDone s1 c h (f j) v fl) := by
  have one : joinFlags [(0, fl)] = fl := BitVec.zero_or
  have collected := raiseLanes_ok (v := v) (f := f) enters.cursor enters.job fun precise p (mem : p ∈ [(0, fl)]) => by
    obtain rfl := List.mem_singleton.1 mem
    exact quiet precise 0 Nat.one_pos
  rw [one] at collected
  exact vecWord_ok enters ready rfl (res.trans collected) rfl

end Words

/-- A layout that is set and has the group, with every entry in range, passes VTAB's checks (R150). -/
theorem tabCauses_none {c : Cursor} {j : Job} {va : BitVec 7} {tl : BitVec 2} {ka : Src} {uns : Bool} (set : (j.layout tl).set = true)
    (has : (c.regs.src ka).toNat < layS (j.layout tl).word)
    (fit : (tabEntries (j.bookOf (j.layout tl).word) (j.layout tl).word uns (c.pre.vreg va)).all (entryFits (j.layout tl).word) = true) :
    tabCauses c j va tl ka uns = [] := by
  simp only [tabCauses, set, fit, Bool.not_true, Bool.false_eq_true, if_false, if_neg (Nat.not_le.2 has), if_true]

/-- A VMOD leaves its modifiers for the next word. -/
theorem execVmod_done {s s1 : State} {w : Wait} {g : Sig} {c : Cursor} {j : Job} (enters : Enters s w g c j s1) (neg abs : BitVec 3)
    (cl : Clamp) (sc : BitVec 4) (rnd : Option RMode) :
    execVmod w g neg abs cl sc rnd s = .next { s1 with
      cursor := some { c with vmod := some ⟨neg, abs, cl, sc, rnd⟩, next := none, index := c.index + 1 } } := by
  unfold execVmod
  rw [runWord_enters false _ enters]
  simp [State.absorb, State.advance, enters.cursor, enters.clean, enters.going]

/-- Settles O41: each word's effect is one change of its job, or a lane function. -/
theorem vectorTablesAndSampling : Obligations.VectorTablesAndSampling := by
  unfold Obligations.VectorTablesAndSampling
  intro s h vd va vb md tl ka kb kc uns ty w g neg abs cl sc rnd c j s1 act x on
  refine ⟨fun enters => execVmod_done enters .., fun enters => ⟨?tab, ?snap, ?prefeq, ?short, ?mass, ?btest, ?bset⟩, ?noise⟩
  case tab =>
    intro lay book grp entries ready set has fit
    change execVtab h va tl ka uns s = _
    exact vecWord_checked enters ready (tabCauses_none set has fit)
      (congrArg (WRes.ok · c.value none) (State.modJob_eq enters.job _))
  case snap =>
    intro ready n
    change execVsnap h vd va s = _
    refine vecWord_quiet enters ready ?_
    obtain ⟨lt, _⟩ := List.getElem?_eq_some_iff.1 enters.job
    rw [State.modJob_eq enters.job]
    refine (pushResult_eq (j := j.vecPut (allOf vd) (c.pre.vreg va)) (by simp [lt]) _).trans ?_
    simp only [List.set_set]
    rfl
  case prefeq =>
    intro ready n
    change execVprefeq h va vb ty s = _
    refine vecWord_quiet enters ready ((pushResult_eq enters.job _).trans ?_)
    rw [prefixCount_eq, ← List.range_eq_range']
    rfl
  case short =>
    intro v2 old best ready
    change execVshort h vd va kb ty s = _
    exact vecWord_quiet enters ready (congrArg (WRes.ok · c.value none) (State.modJob_eq enters.job _))
  case mass =>
    intro t sum low ready quiet
    change execVmass h md va kb kc s = _
    exact vecWord_oneResult (f := fun k =>
      if low then k.setMask md (k.mask md ||| (1#256 <<< ((c.regs.src kc).toNat % 256))) else k) enters ready quiet rfl
  case btest =>
    intro ready
    change execVbtest h md va vb ty s = _
    refine vecWord_quiet enters ready ?_
    rw [State.modJob_eq enters.job, maskSet_eq]
    rfl
  case bset =>
    intro ready
    change execVbset h vd va vb ty s = _
    refine vecWord_quiet enters ready ?_
    rw [State.modJob_eq enters.job, setBits_active]
    rfl
  case noise =>
    change LaneYields s h vd _ .f32 (execVnoise h vd ka kb kc s) _
    have top (y : Word) : (y.extractLsb' 40 24).toNat = y.toNat / 2 ^ 40 := by
      have lt := y.isLt
      rw [BitVec.extractLsb'_toNat, Nat.shiftRight_eq_div_pow]
      omega
    simp only [← top]
    exact laneWord_yields s h vd [] .f32 _

end Sys2Proof.Machine
end

section
/-! SUPPORT. What a canonical byte store reads after a byte is written, bytes are dropped, or a span is copied; and a frame copy. -/

namespace Sys2Proof.Machine

/-! ### Reading a canonical byte store -/

/-- A canonical list that starts with a byte: the byte is not zero, and the rest lies above it. -/
theorem cellsFrom_cons {lo : Option Nat} {b : Nat} {y : Byte} {t : List Host.Cell} (w : cellsFrom lo ((b, y) :: t) = true) :
    y ≠ 0 ∧ cellsFrom (some b) t = true ∧ ∀ l, lo = some l → l < b := by
  cases lo with
  | none =>
    simp only [cellsFrom, Bool.and_eq_true, decide_eq_true_eq] at w
    exact ⟨w.1, w.2, nofun⟩
  | some l =>
    simp only [cellsFrom, Bool.and_eq_true, decide_eq_true_eq] at w
    refine ⟨w.1.2, w.2, fun l' is => ?_⟩
    obtain rfl := Option.some.inj is
    exact w.1.1

/-- Below a list's bound there is nothing. -/
theorem cellGet_below {lo a : Nat} {m : List Host.Cell} (w : cellsFrom (some lo) m = true) (below : a ≤ lo) : cellGet m a = 0 := by
  cases m with
  | nil => rfl
  | cons p t =>
    obtain ⟨b, y⟩ := p
    have above := (cellsFrom_cons w).2.2 lo rfl
    rw [cellGet, if_neg (by omega), if_neg (by omega)]

theorem cellGet_cons {b : Nat} {y : Byte} {m : List Host.Cell} (above : cellsFrom (some b) m = true) (k : Nat) :
    cellGet ((b, y) :: m) k = if k = b then y else cellGet m k := by
  rw [cellGet]
  rcases Nat.lt_trichotomy k b with lt | rfl | gt
  · rw [if_neg lt.ne', if_neg (Nat.not_lt.2 lt.le), if_neg lt.ne, cellGet_below above lt.le]
  · rw [if_pos rfl, if_pos rfl]
  · rw [if_neg gt.ne, if_pos gt, if_neg gt.ne']

/-- A byte put before what lies above it, listed only if it is not zero. -/
theorem cellGet_cons_nonzero {a : Nat} {x : Byte} {m : List Host.Cell} (above : cellsFrom (some a) m = true) (k : Nat) :
    cellGet (if x = 0 then m else (a, x) :: m) k = if k = a then x else cellGet m k := by
  by_cases zero : x = 0
  · rw [if_pos zero, zero]
    by_cases same : k = a
    · rw [if_pos same, same, cellGet_below above le_rfl]
    · rw [if_neg same]
  · rw [if_neg zero, cellGet_cons above]

/-- A byte written is read back, and every other address reads as before. -/
theorem cellGet_cellPut {m : List Host.Cell} {lo : Option Nat} (w : cellsFrom lo m = true) (a : Nat) (x : Byte) (k : Nat) :
    cellGet (cellPut m a x) k = if k = a then x else cellGet m k := by
  induction m generalizing lo with
  | nil => exact cellGet_cons_nonzero rfl k
  | cons p t ih =>
    obtain ⟨b, y⟩ := p
    obtain ⟨y0, rest, -⟩ := cellsFrom_cons w
    rcases Nat.lt_trichotomy a b with lt | rfl | gt
    · have above : cellsFrom (some a) ((b, y) :: t) = true := by
        simp only [cellsFrom, Bool.and_eq_true, decide_eq_true_eq]
        exact ⟨⟨lt, y0⟩, rest⟩
      rw [cellPut, if_pos lt]
      exact cellGet_cons_nonzero above k
    · rw [cellPut, if_neg (Nat.lt_irrefl a), if_pos rfl, cellGet_cons rest]
      refine (cellGet_cons_nonzero rest k).trans ?_
      by_cases same : k = a
      · rw [if_pos same, if_pos same]
      · rw [if_neg same, if_neg same, if_neg same]
    · have above : cellsFrom (some b) (cellPut t a x) = true := cellsFrom_put rest fun l is => by
        obtain rfl := Option.some.inj is
        exact gt
      rw [cellPut, if_neg (Nat.not_lt.2 gt.le), if_neg gt.ne', cellGet_cons above, cellGet_cons rest, ih rest]
      by_cases same : k = b
      · rw [if_pos same, if_pos same, if_neg (by omega)]
      · rw [if_neg same, if_neg same]

/-- Bytes written from `a` up leave every address outside them as it was. -/
theorem cellGet_cellPutN_outside {m : List Host.Cell} (w : Memory.wf m) {a k : Nat} {b : List Byte}
    (outside : k < a ∨ a + b.length ≤ k) : cellGet (cellPutN m a b) k = cellGet m k := by
  induction b generalizing m a with
  | nil => rfl
  | cons x t ih =>
    rw [List.length_cons] at outside
    rw [cellPutN, ih (cellPut_wf a x w) (by omega), cellGet_cellPut w, if_neg (by omega)]

/-- A store of the bytes of some addresses reads as before there, and zero elsewhere. -/
theorem cellGet_filter {m : List Host.Cell} {lo : Option Nat} (w : cellsFrom lo m = true) (p : Nat → Bool) (k : Nat) :
    cellGet (m.filter fun c => p c.1) k = if p k then cellGet m k else 0 := by
  induction m generalizing lo with
  | nil => exact (ite_self _).symm
  | cons q t ih =>
    obtain ⟨b, y⟩ := q
    obtain ⟨-, rest, -⟩ := cellsFrom_cons w
    rw [cellGet_cons rest]
    rcases keeps : p b
    · rw [List.filter_cons_of_neg (by simp [keeps]), ih rest]
      by_cases same : k = b
      · subst same
        simp [keeps]
      · rw [if_neg same]
    · rw [List.filter_cons_of_pos (by simp [keeps]), cellGet_cons (cellsFrom_filter _ rest), ih rest]
      by_cases same : k = b
      · subst same
        simp [keeps]
      · rw [if_neg same, if_neg same]

/-- Bytes moved one by one from `src` up to `dst` up stand there where they are not zero. -/
theorem cellGet_moved {l m : List Host.Cell} {lo : Option Nat} (w : Memory.wf m) (lw : cellsFrom lo l = true) (src dst k : Nat)
    (from' : ∀ c ∈ l, src ≤ c.1) :
    cellGet (l.foldl (fun t c => cellPut t (c.1 - src + dst) c.2) m) k =
      if dst ≤ k ∧ cellGet l (k - dst + src) ≠ 0 then cellGet l (k - dst + src) else cellGet m k := by
  induction l generalizing m lo with
  | nil => simp [cellGet]
  | cons q t ih =>
    obtain ⟨b, y⟩ := q
    obtain ⟨y0, rest, -⟩ := cellsFrom_cons lw
    have low : src ≤ b := from' (b, y) (by simp)
    rw [List.foldl_cons, ih (cellPut_wf _ _ w) rest fun c mem => from' c (by simp [mem]), cellGet_cons rest, cellGet_cellPut w]
    by_cases here : k = b - src + dst
    · have at_b : k - dst + src = b := by omega
      have none : cellGet t b = 0 := cellGet_below rest le_rfl
      have after : dst ≤ k := by omega
      rw [at_b, none, if_pos here]
      have listed : ¬y = 0#8 := y0
      simp [after, listed]
    · rw [if_neg here]
      by_cases after : dst ≤ k
      · have other : k - dst + src ≠ b := by omega
        rw [if_neg other]
      · simp [after]

/-- A span copied within a byte store: the new place reads as the old one did, and every other address as before. -/
theorem cellGet_cellsCopy {m : List Host.Cell} (w : Memory.wf m) (src dst n k : Nat) :
    cellGet (cellsCopy m src dst n) k = if dst ≤ k ∧ k < dst + n then cellGet m (k - dst + src) else cellGet m k := by
  unfold cellsCopy
  have span := cellGet_filter w (fun a => decide (src ≤ a) && decide (a < src + n)) (k - dst + src)
  have kept := cellGet_filter w (fun a => decide (a < dst) || decide (dst + n ≤ a)) k
  rw [cellGet_moved (filter_wf _ w) (filter_wf _ w) src dst k fun c mem => by
    simp only [List.mem_filter, Bool.and_eq_true, decide_eq_true_eq] at mem
    exact mem.2.1]
  rw [span, kept]
  by_cases within : dst ≤ k ∧ k < dst + n
  · have source : (decide (src ≤ k - dst + src) && decide (k - dst + src < src + n)) = true := by
      simp only [Bool.and_eq_true, decide_eq_true_eq]; omega
    have cleared : (decide (k < dst) || decide (dst + n ≤ k)) = false := by
      simp only [Bool.or_eq_false_iff, decide_eq_false_iff_not]; omega
    simp only [source, cleared, if_true, Bool.false_eq_true, if_false, within, and_self, true_and]
    exact ite_eq_left_iff.2 fun zero => (not_not.1 zero).symm
  · have stays : (decide (k < dst) || decide (dst + n ≤ k)) = true := by
      simp only [Bool.or_eq_true, decide_eq_true_eq]; omega
    rw [if_neg within, stays, if_pos rfl]
    by_cases after : dst ≤ k
    · have beyond : (decide (src ≤ k - dst + src) && decide (k - dst + src < src + n)) = false := by
        simp only [Bool.and_eq_false_iff, decide_eq_false_iff_not]; omega
      rw [beyond]
      simp
    · simp [after]

/-! ### Device memory -/

/-- What memory reads at one address. -/
theorem readPhys_one (s : State) (a : Nat) : s.readPhys a 1 = [cellGet s.mem a] := by
  have skip (m : List Host.Cell) : cellGet (m.dropWhile fun c => decide (c.1 < a)) a = cellGet m a := by
    induction m with
    | nil => rfl
    | cons p t ih =>
      by_cases lt : p.1 < a
      · rw [List.dropWhile_cons_of_pos (by simpa using lt), ih, cellGet, if_neg lt.ne, if_pos lt]
      · rw [List.dropWhile_cons_of_neg (by simpa using lt)]
  rw [State.readPhys, cellGetN, skip, cellGetN]

/-- Memory canonical, and as it was outside `n` bytes at `a`. -/
def WroteWithin (a n : Nat) (s t : State) : Prop :=
  Memory.wf t.mem ∧ ∀ k, k < a ∨ a + n ≤ k → cellGet t.mem k = cellGet s.mem k

theorem WroteWithin.refl {s : State} (inv : s.Inv) (a n : Nat) : WroteWithin a n s s := ⟨inv, fun _ _ => rfl⟩

theorem WroteWithin.writePhys {a n : Nat} {s t : State} (h : WroteWithin a n s t) {p : Nat} {b : List Byte} (low : a ≤ p)
    (high : p + b.length ≤ a + n) : WroteWithin a n s (t.writePhys p b) :=
  ⟨cellPutN_wf p b h.1, fun k out => (cellGet_cellPutN_outside h.1 (by omega)).trans (h.2 k out)⟩

/-- Folding writes within a span stays within it. -/
theorem WroteWithin.foldl {α : Type} {a n : Nat} {s t : State} {l : List α} {f : State → α → State} (h : WroteWithin a n s t)
    (step : ∀ u, ∀ x ∈ l, WroteWithin a n s u → WroteWithin a n s (f u x)) : WroteWithin a n s (l.foldl f t) := by
  induction l generalizing t with
  | nil => exact h
  | cons x r ih => exact ih (step t x (by simp) h) fun u y mem => step u y (by simp [mem])

theorem length_lineBytes_one (d : BitVec 512) (i : Nat) : (lineBytes d i 1).length = 1 := by
  simp [lineBytes]

/-- A line written back writes only its own bytes. -/
theorem WroteWithin.writeBackLine {a n : Nat} {s t : State} (h : WroteWithin a n s t) {l : L1Line} (low : a ≤ 64 * l.line)
    (high : 64 * l.line + 64 ≤ a + n) : WroteWithin a n s (t.writeBackLine l) := by
  unfold State.writeBackLine
  split
  · exact h
  · split
    · exact h
    · refine (h.foldl (f := fun t i => if l.dirty.getLsbD i then t.writePhys (64 * l.line + i) (lineBytes l.data i 1) else t)
        (l := List.range 64) fun u i mem within => ?_ : WroteWithin a n s _)
      have lt := List.mem_range.1 mem
      split
      · exact within.writePhys (by omega) (by rw [length_lineBytes_one]; omega)
      · exact within

/-- Letting go of whole frames writes only within them. -/
theorem forgetSpan_within {s : State} (inv : s.Inv) (f n : Nat) :
    WroteWithin (f * 2 ^ 16) (n * 2 ^ 16) s (s.forgetSpan (f * 2 ^ 16) (n * 2 ^ 16)) := by
  have written := (WroteWithin.refl inv (f * 2 ^ 16) (n * 2 ^ 16)).foldl (f := State.writeBackLine)
    (l := s.cores.toList.flatMap fun k => k.l1.filter fun l =>
      decide (64 * l.line < f * 2 ^ 16 + n * 2 ^ 16) && decide (f * 2 ^ 16 < 64 * l.line + 64)) fun u l mem within => by
    simp only [List.mem_flatMap, List.mem_filter, Bool.and_eq_true, decide_eq_true_eq] at mem
    obtain ⟨-, -, -, below, above⟩ := mem
    exact within.writeBackLine (by omega) (by omega)
  exact written

/-- A frame copied: the new one reads as the old one, and no other address changes (R424). -/
theorem copyFrames_reads {s : State} (inv : s.Inv) {src dst : Nat} (apart : src ≠ dst) :
    (∀ i, i < 2 ^ 16 → cellGet (s.copyFrames (src * 2 ^ 16) (dst * 2 ^ 16) (2 ^ 16)).mem (dst * 2 ^ 16 + i) =
      cellGet s.mem (src * 2 ^ 16 + i)) ∧
    ∀ k, k < dst * 2 ^ 16 ∨ (dst + 1) * 2 ^ 16 ≤ k →
      cellGet (s.copyFrames (src * 2 ^ 16) (dst * 2 ^ 16) (2 ^ 16)).mem k = cellGet s.mem k := by
  have within := forgetSpan_within inv dst 1
  rw [Nat.one_mul] at within
  obtain ⟨wf, same⟩ := within
  have copied (k : Nat) : cellGet (s.copyFrames (src * 2 ^ 16) (dst * 2 ^ 16) (2 ^ 16)).mem k = _ :=
    cellGet_cellsCopy wf (src * 2 ^ 16) (dst * 2 ^ 16) (2 ^ 16) k
  refine ⟨fun i lt => ?_, fun k out => ?_⟩
  · rw [copied, if_pos (by omega), same _ (by omega)]
    congr 1
    omega
  · rw [copied, if_neg (by omega), same k (by omega)]

end Sys2Proof.Machine
end

section
/-! SUPPORT. What the abort of a job's team leaves of the job, memory and the fault queue; and the steps of the streams and of
translation. -/

namespace Sys2Proof.Machine

/-! ### What an abort leaves (R231, R353) -/

/-- `t` is `s` but for its cores. -/
structure CoresOnly (s t : State) : Prop where
  jobs  : t.jobs = s.jobs
  parts : t.parts = s.parts
  mem   : t.mem = s.mem

theorem modCore_coresOnly (s : State) (c : Nat) (f : Core → Core) : CoresOnly s (s.modCore c f) := by
  unfold State.modCore
  split <;> exact ⟨rfl, rfl, rfl⟩

theorem CoresOnly.trans {s t u : State} (h : CoresOnly s t) (k : CoresOnly t u) : CoresOnly s u :=
  ⟨k.jobs.trans h.jobs, k.parts.trans h.parts, k.mem.trans h.mem⟩

theorem modCores_coresOnly (l : List Nat) (f : Core → Core) (s : State) : CoresOnly s (l.foldl (fun t h => t.modCore h f) s) := by
  induction l generalizing s with
  | nil => exact ⟨rfl, rfl, rfl⟩
  | cons c t ih => exact (modCore_coresOnly s c f).trans (ih _)

theorem freeCore_coresOnly (s : State) (n : Nat) (j : Job) : CoresOnly s (s.freeCore n j) :=
  (modCore_coresOnly s j.core _).trans (modCores_coresOnly j.helpers _ _)

/-- A job aborted by a trap of its own. -/
def abortedBy (x : StreamId) (r : TrapRec) (j : Job) : Job := { abortOne j with fault := some (x, r) }

/-- A member that has ended already stands as it is. -/
theorem abortMember_ended {s : State} {n i : Nat} {x : StreamId} {r : TrapRec} {k : Job} (job : s.jobs[i]? = some k)
    (ended : k.phase = .retired ∨ k.phase = .aborted) : State.abortMember n x r s i = s := by
  simp only [State.abortMember, job, if_pos ended]

/-- What stopping a member of the team leaves of memory, the partitions and the other jobs. -/
theorem abortMember_keeps (n : Nat) (x : StreamId) (r : TrapRec) (s : State) (i : Nat) :
    (State.abortMember n x r s i).mem = s.mem ∧ (State.abortMember n x r s i).parts = s.parts ∧
      ∀ m, m ≠ i → (State.abortMember n x r s i).jobs[m]? = s.jobs[m]? := by
  unfold State.abortMember
  rcases job : s.jobs[i]? with _ | k
  · exact ⟨rfl, rfl, fun _ _ => rfl⟩
  · dsimp only
    split
    · exact ⟨rfl, rfl, fun _ _ => rfl⟩
    · have freed (rest : BitVec 4) := (freeCore_coresOnly s i k).trans (modCore_coresOnly _ k.core (restIdle rest))
      refine ⟨(freed _).mem, (freed _).parts, fun m other => ?_⟩
      rw [State.setJob_jobs, List.getElem?_set_ne other.symm, (freed _).jobs]

/-- The job whose trap it is stops with its record. -/
theorem abortMember_self {s : State} {n : Nat} {x : StreamId} {r : TrapRec} {j : Job} (job : s.jobs[n]? = some j)
    (runs : ¬(j.phase = .retired ∨ j.phase = .aborted)) :
    (State.abortMember n x r s n).jobs[n]? = some (abortedBy x r j) := by
  obtain ⟨lt, -⟩ := List.getElem?_eq_some_iff.1 job
  have freed (rest : BitVec 4) := (freeCore_coresOnly s n j).trans (modCore_coresOnly _ j.core (restIdle rest))
  simp only [State.abortMember, job, if_neg runs, if_true, State.setJob_jobs, (freed _).jobs]
  exact List.getElem?_set_self lt

/-- Stopping the members of a team leaves memory and the partitions. -/
theorem abortMembers_keep (n : Nat) (x : StreamId) (r : TrapRec) (l : List Nat) (s : State) :
    (l.foldl (State.abortMember n x r) s).mem = s.mem ∧ (l.foldl (State.abortMember n x r) s).parts = s.parts := by
  induction l generalizing s with
  | nil => exact ⟨rfl, rfl⟩
  | cons i t ih =>
    obtain ⟨mem, parts, -⟩ := abortMember_keeps n x r s i
    exact ⟨(ih _).1.trans mem, (ih _).2.trans parts⟩

theorem abortMembers_aborted {n : Nat} {x : StreamId} {r : TrapRec} {j : Job} (l : List Nat) {s : State}
    (job : s.jobs[n]? = some (abortedBy x r j)) : (l.foldl (State.abortMember n x r) s).jobs[n]? = some (abortedBy x r j) := by
  induction l generalizing s with
  | nil => exact job
  | cons i t ih =>
    by_cases same : n = i
    · subst same
      rw [List.foldl_cons, abortMember_ended job (.inr rfl)]
      exact ih job
    · exact ih (((abortMember_keeps n x r s i).2.2 n same).trans job)

theorem abortMembers_self {n : Nat} {x : StreamId} {r : TrapRec} {j : Job} {l : List Nat} (mem : n ∈ l) {s : State}
    (job : s.jobs[n]? = some j) (runs : ¬(j.phase = .retired ∨ j.phase = .aborted)) :
    (l.foldl (State.abortMember n x r) s).jobs[n]? = some (abortedBy x r j) := by
  induction l generalizing s with
  | nil => cases mem
  | cons i t ih =>
    by_cases same : n = i
    · subst same
      exact abortMembers_aborted t (abortMember_self job runs)
    · exact ih ((List.mem_cons.1 mem).resolve_left same) (((abortMember_keeps n x r s i).2.2 n same).trans job)

theorem mem_teamJobs (s : State) (n : Nat) (j : Job) : n ∈ s.teamJobs n j := by
  unfold State.teamJobs
  split
  · split
    · exact List.contains_iff_mem.1 ‹_›
    · exact List.mem_singleton.2 rfl
  · exact List.mem_singleton.2 rfl

theorem modPart_jobs (s : State) (p : Nat) (f : Part → Part) : (s.modPart p f).jobs = s.jobs := by
  unfold State.modPart
  split <;> rfl

theorem modPart_mem (s : State) (p : Nat) (f : Part → Part) : (s.modPart p f).mem = s.mem := by
  unfold State.modPart
  split <;> rfl

/-- A job aborted by its own trap keeps its record, and the abort writes no memory. -/
theorem abortAt_self {s : State} {n core : Nat} {x : StreamId} {r : TrapRec} {j : Job} (job : s.jobs[n]? = some j)
    (runs : ¬(j.phase = .retired ∨ j.phase = .aborted)) :
    (s.abortAt n core x r).jobs[n]? = some (abortedBy x r j) ∧ (s.abortAt n core x r).mem = s.mem := by
  simp only [State.abortAt, job, State.modLaunch, modPart_jobs, modPart_mem]
  exact ⟨abortMembers_self (mem_teamJobs s n j) job runs, (abortMembers_keep n x r _ s).1⟩

/-! ### FAULTHEAD of a partition (R376) -/

/-- Partition `part` is there, with FAULTHEAD at `head`. -/
def HeadAt (part : Nat) (head : Word) (s : State) : Prop := ∃ q, s.parts[part]? = some q ∧ q.faulthead = head

section Head

variable {part : Nat} {head : Word} {s t : State}

theorem HeadAt.of_parts (h : HeadAt part head s) (same : t.parts = s.parts) : HeadAt part head t := by
  rwa [HeadAt, same]

/-- Changing a partition's other fields. -/
theorem HeadAt.modPart (h : HeadAt part head s) (p : Nat) {f : Part → Part} (keeps : ∀ q, (f q).faulthead = q.faulthead) :
    HeadAt part head (s.modPart p f) := by
  obtain ⟨q, found, is⟩ := h
  unfold State.modPart
  rcases there : s.parts[p]? with _ | q'
  · exact ⟨q, found, is⟩
  · by_cases same : p = part
    · subst same
      obtain rfl := Option.some.inj (there.symm.trans found)
      obtain ⟨lt, -⟩ := List.getElem?_eq_some_iff.1 there
      exact ⟨f q', List.getElem?_set_self lt, (keeps q').trans is⟩
    · exact ⟨q, (List.getElem?_set_ne same).trans found, is⟩

theorem HeadAt.abortAt (h : HeadAt part head s) (n core : Nat) (x : StreamId) (r : TrapRec) :
    HeadAt part head (s.abortAt n core x r) := by
  unfold State.abortAt
  split
  · exact h
  · exact (h.of_parts (abortMembers_keep n x r _ s).2).modPart _ fun _ => rfl

theorem HeadAt.abortCore (h : HeadAt part head s) (p core : Nat) : HeadAt part head (s.abortCore p core) := by
  unfold State.abortCore
  dsimp only
  split
  · exact h
  · split
    · exact h
    · refine HeadAt.abortAt (h.of_parts ?_) ..
      unfold State.modJob
      split <;> rfl

theorem HeadAt.queueFault (h : HeadAt part head s) (n : Nat) : HeadAt part head (s.queueFault n) := by
  unfold State.queueFault
  split
  · exact h
  · split
    · dsimp only
      split
      · exact h
      · split
        · refine HeadAt.of_parts ?_ (sendMsix_accessed ..).parts
          exact HeadAt.modPart (HeadAt.of_parts h (by rw [State.setJob_parts, State.writePhys_parts])) _ fun _ => rfl
        · exact HeadAt.modPart (HeadAt.of_parts h (by rw [State.setJob_parts, State.writePhys_parts])) _ fun _ => rfl
    · exact h

theorem HeadAt.foldl {α : Type} {l : List α} {f : State → α → State} (h : HeadAt part head s)
    (step : ∀ u x, HeadAt part head u → HeadAt part head (f u x)) : HeadAt part head (l.foldl f s) := by
  induction l generalizing s with
  | nil => exact h
  | cons x r ih => exact ih (step s x h)

end Head

theorem copyFrames_parts (s : State) (src dst n : Nat) : (s.copyFrames src dst n).parts = s.parts :=
  (Accessed.foldl _ _ (fun _ _ => writeBackLine_accessed ..) s).parts

theorem copyPage_parts (s : State) (part : Nat) (ctx : BitVec 16) (va level frame : Nat) :
    (s.copyPage part ctx va level frame).parts = s.parts := by
  simp only [State.copyPage, State.tlbDrop, State.writePhys_parts, copyFrames_parts]

theorem refuse_parts (s : State) (a : Agent) (addr : Nat) : (s.refuse a addr).parts = s.parts := (logError_accessed ..).parts

/-- Serving a record changes tables and frames, and no partition. -/
theorem serviceRecord_parts (s : State) (part rec' frame : Nat) : (s.serviceRecord part rec' frame).parts = s.parts := by
  unfold State.serviceRecord
  dsimp only
  split
  · exact refuse_parts ..
  · split
    · rfl
    · split
      · split
        · unfold State.crumbMay
          split
          · exact copyPage_parts ..
          · exact refuse_parts ..
        · rfl
      · split <;> rfl

end Sys2Proof.Machine
end

section
/-! SUPPORT. The steps of fetch, of missed targets, deadlock and budgets, of walks, and of the service of translation failures. -/

namespace Sys2Proof.Machine

/-! ### Streams (R57, R237, R244, R249, R374) -/

/-- A deadlock is one of a job that runs no handler. -/
theorem deadlocked_idle {j : Job} {now : Nat} (stuck : j.deadlocked now = true) : j.handler = none := by
  simp only [Job.deadlocked, Bool.and_eq_true] at stuck
  obtain ⟨⟨⟨⟨-, idle⟩, -⟩, -⟩, -⟩ := stuck
  exact Option.isNone_iff_eq_none.1 idle

section Streams

variable {s : State} {n : Nat} {x : StreamId} {j : Job} (job : s.jobs[n]? = some j)

include job

theorem execRingFetch_fills {a w : Word} {s1 : State} (live : j.phase = .running ∨ j.phase = .loading)
    (fetches : (j.stream x).atJoin = false) (alone : x = .c → j.loop = none)
    (lacks : firstMissing (j.stream x) (j.stream x).ringAhead (j.stream x).pc = some a)
    (read : s.fetchAt (whoOf n j x none a) a = .ok s1 w) :
    execRingFetch n x s = .next (s1.modRegs n x none fun t => t.ringPut a w) := by
  have leader : j.helperSlots x = [] := by
    cases x
    case c => simp only [Job.helperSlots, alone rfl]
    all_goals rfl
  have phase : (j.phase == .loading || j.phase == .running) = true := by
    rcases live with is | is <;> rw [is] <;> rfl
  have regs : j.regs x none = j.stream x := rfl
  simp only [execRingFetch, job, leader, List.foldl_cons, List.foldl_nil, State.ringFill, regs, phase, fetches, lacks, read, Bool.not_true,
    Bool.or_self, Bool.false_eq_true, if_false]

theorem execTimedTargetMiss_missed {ws : List Word} {wt : Wait} (timed : j.timed = true) (runs : j.phase = .running)
    (idle : j.handler = none) (active : j.susp = none) (stays : j.draining = false) (before : (j.stream x).atJoin = false)
    (skip : (j.stream x).skip = false) (outside : (j.stream x).inside = false) (alone : x = .c → j.loop = none)
    (started : j.jstart ≤ s.tick) (held : bundleAt (j.stream x) x 4 (j.stream x).pc = .inl ws) (legal : bundleIllegal x ws = none)
    (plain : ∀ w ∈ ws, judgedAtIssue w = false) (wait : Wait.ofByte (fld (ws.headD 0) 56 8) = some wt)
    (missed : applyWait wt j s.tick x = .miss) :
    execTimedTargetMiss n x s = .next (s.takeTrap n x none ⟨causeScheduleMiss, (j.stream x).pc, 0, 0⟩) := by
  have noLoop : (x == .c && j.loop.isSome) = false := by
    rcases c : x == StreamId.c
    · rfl
    · rw [alone (eq_of_beq c)]
      rfl
  have phase : (j.phase != .running) = false := by rw [runs]; rfl
  have since : decide (s.tick < j.jstart) = false := decide_eq_false (Nat.not_lt.2 started)
  have unjudged : ws.any judgedAtIssue = false := List.any_eq_false.2 fun w mem => by simp [plain w mem]
  simp only [execTimedTargetMiss, job, timed, phase, idle, active, stays, before, skip, outside, noLoop, since, held, legal, unjudged, wait,
    missed, Bool.not_true, Option.isSome_none, Bool.or_self, Bool.false_eq_true, if_false]

theorem execQueueDeadlock_deadlocked (stuck : j.deadlocked s.tick = true) :
    execQueueDeadlock n s = .next (s.takeTrap n .c none ⟨causeDeadlock, j.waitPc s.tick, 0, 0⟩) := by
  simp only [execQueueDeadlock, job, if_pos stuck]

theorem execBudgetExpiry_expired (timed : j.timed = true) (live : j.phase = .running ∨ j.phase = .loading)
    (past : j.jstart + j.budget ≤ s.tick) (alone : j.loop = none) :
    ∃ t k, execBudgetExpiry n s = .next t ∧ t.jobs[n]? = some k ∧ k.phase = .aborted ∧
      k.fault = some (.c, ⟨causeScheduleMiss, j.c.pc, 0, 2⟩) ∧ k.c.tcause = 0x09 ∧ k.c.tpc = j.c.pc ∧ k.c.tinfo = 2 ∧ t.mem = s.mem := by
  let r : TrapRec := ⟨causeScheduleMiss, j.c.pc, 0, 2⟩
  let k := j.setRegs .c none (j.c.setTrap r)
  obtain ⟨lt, -⟩ := List.getElem?_eq_some_iff.1 job
  have runs : ¬(k.phase = .retired ∨ k.phase = .aborted) := by
    show ¬(j.phase = .retired ∨ j.phase = .aborted)
    rcases live with is | is <;> rw [is] <;> decide
  have recorded : s.modRegs n .c none (fun t => t.setTrap r) = { s with jobs := s.jobs.set n k } := State.modJob_eq job _
  have there : (s.modRegs n .c none fun t => t.setTrap r).jobs[n]? = some k := by
    rw [recorded]
    exact List.getElem?_set_self lt
  have due : (j.timed && (j.phase == .running || j.phase == .loading) && decide (j.jstart + j.budget ≤ s.tick)) = true := by
    rw [timed, decide_eq_true past]
    rcases live with is | is <;> rw [is] <;> rfl
  have expired : execBudgetExpiry n s = .next ((s.modRegs n .c none fun t => t.setTrap r).abortJob n .c r) := by
    simp only [execBudgetExpiry, job, if_pos due, alone]
    rfl
  obtain ⟨aborted, mem⟩ := abortAt_self (core := k.core) (x := .c) (r := r) there runs
  refine ⟨_, abortedBy .c r k, expired, ?_, rfl, rfl, rfl, rfl, rfl, ?_⟩
  · simpa only [State.abortJob, there] using aborted
  · simp only [State.abortJob, there]
    rw [mem, recorded]

theorem execTableWalk_walked {va : Word} {kind : AccessKind} {s1 : State} {p : Phys} (runs : j.phase = .running)
    (path : va.toNat / 2 ^ 56 ≤ 2) (walked : s.translate (whoOf n j .c none 0) va (if kind = .write then .read else kind) = .ok s1 p) :
    execTableWalk n va kind s = .next s1 := by
  have phase : (j.phase != .running) = false := by rw [runs]; rfl
  simp only [execTableWalk, job, phase, decide_eq_true path, walked, Bool.not_true, Bool.or_self, Bool.false_eq_true, if_false]

end Streams

/-! ### The service of translation failures (R369, R376, R377, R424) -/

/-- Of a list that names one number alone, the number chosen is that one. -/
theorem find_or_head_eq {l : List Nat} {n : Nat} (mem : n ∈ l) (only : ∀ m ∈ l, m = n) (f : Nat → Bool) :
    (l.find? f).or l.head? = some n := by
  have head : l.head? = some n := by
    cases l with
    | nil => cases mem
    | cons m t => exact congrArg some (only m (by simp))
  rcases found : l.find? f with _ | m
  · exact head
  · exact congrArg some (only m (List.mem_of_find?_eq_some found))

/-- Where one job alone is suspended at a core number, that one is aborted. -/
theorem abortCore_named {s : State} {part core n : Nat} {j : Job} {f : Susp} (job : s.jobs[n]? = some j)
    (named : j.suspAt part core = some f) (alone : ∀ (m : Nat) (k : Job), m ≠ n → s.jobs[m]? = some k → k.suspAt part core = none) :
    s.abortCore part core = (s.modJob n fun j => { j with susp := none }).abortJob n f.stream ⟨causeTranslation, f.tpc, 0, 0⟩ := by
  obtain ⟨lt, -⟩ := List.getElem?_eq_some_iff.1 job
  have susp : j.susp = some f := by
    unfold Job.suspAt at named
    split at named
    · exact (Option.filter_eq_some_iff.1 named).1
    · cases named
  unfold State.abortCore
  dsimp only
  rw [find_or_head_eq (n := n)]
  · simp only [job, Option.bind_some, susp]
  · exact List.mem_filter.2 ⟨List.mem_range.2 lt, by simp only [job, named, Option.isSome_some]⟩
  · intro m mem
    by_contra other
    obtain ⟨-, is⟩ := List.mem_filter.1 mem
    rcases there : s.jobs[m]? with _ | k
    · simp [there] at is
    · simp [there, alone m k other there] at is

section Service

variable {s : State} {a : Agent} {part : Nat} {p : Part} (at_part : s.parts[part]? = some p)

include at_part

theorem execResume_ends (core : Nat) (hears : s.hears a = true) (may : p.services part a = true) :
    execResume a part core s = .next { s with jobs := s.jobs.map (Job.endSusp part core) } := by
  simp only [execResume, if_pos hears, at_part, if_pos may, State.resumeCore]

theorem execAbort_aborts {core n : Nat} {j : Job} {f : Susp} (hears : s.hears a = true) (may : p.services part a = true)
    (job : s.jobs[n]? = some j) (named : j.suspAt part core = some f) (runs : j.phase = .running)
    (alone : ∀ (m : Nat) (k : Job), m ≠ n → s.jobs[m]? = some k → k.suspAt part core = none) :
    ∃ t k, execAbort a part core s = .next t ∧ t.mem = s.mem ∧ t.jobs[n]? = some k ∧ k.phase = .aborted ∧ k.susp = none ∧
      k.fault = some (f.stream, ⟨causeTranslation, f.tpc, 0, 0⟩) := by
  let r : TrapRec := ⟨causeTranslation, f.tpc, 0, 0⟩
  let k : Job := { j with susp := none }
  obtain ⟨lt, -⟩ := List.getElem?_eq_some_iff.1 job
  have ended : s.modJob n (fun j => { j with susp := none }) = { s with jobs := s.jobs.set n k } := State.modJob_eq job _
  have there : (s.modJob n fun j => { j with susp := none }).jobs[n]? = some k := by
    rw [ended]
    exact List.getElem?_set_self lt
  have still : ¬(k.phase = .retired ∨ k.phase = .aborted) := by
    show ¬(j.phase = .retired ∨ j.phase = .aborted)
    rw [runs]
    decide
  obtain ⟨aborted, mem⟩ := abortAt_self (core := k.core) (x := f.stream) (r := r) there still
  have step : execAbort a part core s = .next (s.abortCore part core) := by
    simp only [execAbort, if_pos hears, at_part, if_pos may]
  rw [step, abortCore_named job named alone]
  refine ⟨_, abortedBy f.stream r k, rfl, ?_, ?_, rfl, rfl, rfl⟩
  · simp only [State.abortJob, there]
    rw [mem, ended]
  · simpa only [State.abortJob, there] using aborted

theorem execInvalidate_begins (ctx : BitVec 16) (va len : Word) (hears : s.hears a = true) (may : p.writable part a = true) :
    execInvalidate a part ctx va len s = .next { s with
      parts := s.parts.set part { p with invctx := ctx.setWidth 64, invva := va, invlen := len, invdone := false } } := by
  simp only [execInvalidate, if_pos hears, at_part, if_pos may, State.modPart]

/-- An invalidation's end drops what INVCTX, INVVA and INVLEN name, and INVDONE reads 1. -/
theorem execInvalidationDone_drops (open' : p.invdone = false) (landed : s.inFlight part (p.invctx.setWidth 16) = false) :
    execInvalidationDone part s = .next
      { s.tlbDrop part (p.invctx.setWidth 16) (p.invva.toNat % 2 ^ 56) p.invlen.toNat with
        parts := s.parts.set part { p with invdone := true } } := by
  have parts (ctx : BitVec 16) (va len : Nat) : (s.tlbDrop part ctx va len).parts = s.parts := rfl
  simp only [execInvalidationDone, at_part, open', landed, Bool.or_self, Bool.false_eq_true, if_false, State.modPart, parts]

theorem execFrameCopy_copies {src dst : Nat} (apart : src ≠ dst) (srcOwn : s.ownerOf (src * 2 ^ 16) = some part)
    (dstOwn : s.ownerOf (dst * 2 ^ 16) = some part) (up : s.crumbDown part = false)
    (asked : ∃ r ∈ s.faultRecords p, s.copiesFrame part r src = true) (free : p.holdsFrame dst 1 = false)
    (srcFree : s.hostHolds (src * 2 ^ 16) (2 ^ 16) = false) (dstFree : s.hostHolds (dst * 2 ^ 16) (2 ^ 16) = false) :
    execFrameCopy src dst s = .next (s.copyFrames (src * 2 ^ 16) (dst * 2 ^ 16) (2 ^ 16)) := by
  have due : ((s.faultRecords p).any fun r => s.copiesFrame part r src) = true := List.any_eq_true.2 asked
  simp only [execFrameCopy, srcOwn, Option.bind_some, at_part, up, apart, decide_false, due, free, dstOwn, srcFree, dstFree, Bool.not_true,
    Bool.or_self, Bool.false_eq_true, if_false, ne_eq, not_true_eq_false]

theorem execContextCreate_writes {ctx : BitVec 16} {root : Nat} {key : BitVec 4} (new : s.ctxValid part ctx = false)
    (up : s.crumbDown part = false) (room : areaBytes * 8 * p.stops.length ≤ s.partMem part)
    (own : s.ownerOf (p.ctxbase.toNat + 16 * ctx.toNat) = some part) :
    execContextCreate part ctx root key s =
      .next ((s.writePhys (p.ctxbase.toNat + 16 * ctx.toNat)
        (leBytes 16 (1 + key.toNat * 2 ^ 12 + root % 2 ^ 36 * 2 ^ 16))).modPart part fun q =>
          { q with contexts := ctx :: q.contexts.filter (fun c => c ≠ ctx), images := q.images.filter fun i => i.1 ≠ ctx }) := by
  simp only [execContextCreate, at_part, new, up, decide_eq_false (Nat.not_lt.2 room), own, Bool.or_self, Bool.false_eq_true, if_false,
    ne_eq, not_true_eq_false]

/-- A record that the Crumb takes, or cannot read, moves FAULTHEAD on. -/
theorem execFaultService_advances (resume : Bool) (frame : Nat) (mine : p.fsvc = false) (up : s.crumbDown part = false)
    (waiting : p.faulthead ≠ p.faulttail)
    (own : s.ownerOf (p.faultq.toNat + 32 * (p.faulthead.toNat % Config.faultQueueSize)) = some part)
    (served : s.unreadable (p.faultq.toNat + 32 * (p.faulthead.toNat % Config.faultQueueSize)) 32 = true ∨
      (s.hostHolds (p.faultq.toNat + 32 * (p.faulthead.toNat % Config.faultQueueSize)) 32 = false ∧
        s.serviceWaits part (leNat (s.readPhys (p.faultq.toNat + 32 * (p.faulthead.toNat % Config.faultQueueSize)) 32)) frame = false)) :
    ∃ t q, execFaultService part resume frame s = .next t ∧ t.parts[part]? = some q ∧ q.faulthead = p.faulthead + 1 := by
  have pending : (p.fsvc || s.crumbDown part || p.faulthead == p.faulttail) = false := by simp [mine, up, waiting]
  have moved : HeadAt part (p.faulthead + 1) (s.modPart part fun q => { q with faulthead := q.faulthead + 1 }) := by
    obtain ⟨lt, -⟩ := List.getElem?_eq_some_iff.1 at_part
    refine ⟨{ p with faulthead := p.faulthead + 1 }, ?_, rfl⟩
    simp only [State.modPart, at_part]
    exact List.getElem?_set_self lt
  suffices reached : ∃ t, execFaultService part resume frame s = .next t ∧ HeadAt part (p.faulthead + 1) t by
    obtain ⟨t, is, q, found, head⟩ := reached
    exact ⟨t, q, is, found, head⟩
  refine ⟨_, rfl, ?_⟩
  simp only [at_part, pending, own, Bool.false_eq_true, if_false, ne_eq, not_true_eq_false]
  by_cases bad : s.unreadable (p.faultq.toNat + 32 * (p.faulthead.toNat % Config.faultQueueSize)) 32 = true
  · rw [if_pos bad]
    exact moved.of_parts (logError_accessed ..).parts
  · obtain ⟨held, waits⟩ := served.resolve_left bad
    rw [if_neg bad, held, waits, if_neg (by decide)]
    refine HeadAt.foldl ?_ fun u n head => head.queueFault n
    split
    · exact moved.of_parts (serviceRecord_parts ..)
    · exact moved.abortCore ..

end Service

/-- No core keeps a translation of a context dropped as a whole. -/
theorem tlbDrop_whole {s : State} {part : Nat} {ctx : BitVec 16} {va : Nat} (c : Fin 96) :
    ∀ e ∈ ((s.tlbDrop part ctx va 0).cores.get c).tlb, e.part ≠ part ∨ e.ctx ≠ ctx := by
  intro e mem
  have core : (s.tlbDrop part ctx va 0).cores.get c = _ := Vector.getElem_map _ c.isLt
  rw [core] at mem
  have kept := (List.mem_filter.1 mem).2
  by_contra both
  rw [not_or, not_not, not_not] at both
  simp [both.1, both.2] at kept

/-- Settles O52: each step is an equation of its own under the stated conditions. -/
theorem streamAndTranslationSteps : Obligations.StreamAndTranslationSteps := by
  unfold Obligations.StreamAndTranslationSteps
  refine ⟨?streams, ?services⟩
  case streams =>
    intro s n x j job caught
    have taken (y : StreamId) (r : TrapRec) (other : r.cause ≠ causeMemUe) (idle : j.handler = none)
        (set : (j.stream y).thandler ≠ 0) : s.takeTrap n y none r = caught y r := takeTrap_taken 1 job idle set other
    refine ⟨?fetch, ?missed, ?deadlock, ?budget, ?walk⟩
    case fetch =>
      intro a s1 w live fetches alone lacks read
      exact execRingFetch_fills job live fetches alone lacks read
    case missed =>
      intro ws wt timed runs idle active stays before skip outside alone started held legal plain wait missed set
      obtain ⟨_, rfl, missed⟩ := missed
      refine (execTimedTargetMiss_missed job timed runs idle active stays before skip outside alone started held legal plain wait
        missed).trans ?_
      rw [taken x _ (show causeScheduleMiss ≠ causeMemUe by decide) idle set]
    case deadlock =>
      intro stuck set
      refine (execQueueDeadlock_deadlocked job stuck).trans ?_
      rw [taken .c _ (show causeDeadlock ≠ causeMemUe by decide) (deadlocked_idle stuck) set]
    case budget =>
      intro timed live past alone
      exact execBudgetExpiry_expired job timed live past alone
    case walk =>
      intro va kind s1 p runs path walked
      exact execTableWalk_walked job runs path walked
  case services =>
    intro s a part p at_part
    refine ⟨?resume, ?abort, ?service, ?begins, ?done, ?copy, ?create⟩
    case resume =>
      intro core hears may
      refine ⟨_, execResume_ends at_part core hears may, rfl, List.length_map _, fun n j job => ?_⟩
      rw [List.getElem?_map, job]
      rfl
    case abort =>
      intro core n j f hears may job named runs alone
      exact execAbort_aborts at_part hears may job named runs alone
    case service =>
      intro resume frame mine up waiting recAt own served
      exact execFaultService_advances at_part resume frame mine up waiting own served
    case begins => exact fun ctx va len hears may => execInvalidate_begins at_part ctx va len hears may
    case done =>
      intro open' landed
      refine ⟨_, execInvalidationDone_drops at_part open' landed, rfl, rfl, rfl, fun whole c => ?_⟩
      rw [whole]
      exact tlbDrop_whole c
    case copy =>
      intro src dst inv apart srcOwn dstOwn up asked free srcFree dstFree
      obtain ⟨moved, others⟩ := copyFrames_reads inv apart
      refine ⟨_, execFrameCopy_copies at_part apart srcOwn dstOwn up asked free srcFree dstFree, fun i lt => ?_, fun k out => ?_⟩
      · rw [readPhys_one, readPhys_one, moved i lt]
      · rw [readPhys_one, readPhys_one, others k out]
    case create =>
      intro ctx root key new up room own
      exact execContextCreate_writes at_part new up room own

end Sys2Proof.Machine
end

section
/-! SUPPORT. Words of C and of the common map whose value is a function of the registers: that value in the words of the rules. -/

namespace Sys2Proof.Machine

/-! ### A value in other words -/

/-- A word yields what its value is equal to. -/
theorem Yields.congr {s : State} {h : Hdr} {uses : List Src} {d : Dest} {o : Host.Outcome State Fault Refusal} {f g : StreamSt → Word}
    (y : Yields s h uses d o f) (is : ∀ t, f t = g t) : Yields s h uses d o g :=
  funext is ▸ y

/-- A computing word yields any function that agrees with the one the model runs. -/
theorem pureWord_yields_as {s : State} {h : Hdr} {uses : List Src} {first : Option Src} {d : Dest} {f g : StreamSt → Word}
    (is : ∀ t, f t = g t) : Yields s h uses d (pureWord h uses first d f s) g :=
  (pureWord_yields s h uses first d f).congr is

/-! ### Fields of a word (R98, R104) -/

/-- A word with the bits from `lo` to `lo + n` replaced by the low bits of another. -/
theorem insertBits_eq (a b : Word) (lo n : Nat) :
    (a &&& ~~~(BitVec.ofNat 64 ((2 ^ n - 1) * 2 ^ lo))) ||| ((b <<< lo) &&& BitVec.ofNat 64 ((2 ^ n - 1) * 2 ^ lo)) =
      BitVec.ofFnLE fun k : Fin 64 => if lo ≤ k.val ∧ k.val < lo + n then b.getLsbD (k.val - lo) else a.getLsbD k.val := by
  refine BitVec.eq_of_getLsbD_eq fun k lt => ?_
  have mask : (BitVec.ofNat 64 ((2 ^ n - 1) * 2 ^ lo)).getLsbD k = (decide (lo ≤ k) && decide (k < lo + n)) := by
    rw [BitVec.getLsbD_ofNat, Nat.testBit_mul_two_pow, Nat.testBit_two_pow_sub_one]
    simp only [lt, decide_true, Bool.true_and]
    by_cases low : lo ≤ k
    · simp only [low, decide_true, Bool.true_and, decide_eq_decide]
      omega
    · simp [low]
  simp only [BitVec.getLsbD_or, BitVec.getLsbD_and, BitVec.getLsbD_not, BitVec.getLsbD_shiftLeft, mask, BitVec.getLsbD_ofFnLE, lt,
    decide_true, Bool.true_and, dif_pos]
  by_cases low : lo ≤ k
  · by_cases high : k < lo + n
    · simp [low, high]
    · simp [low, high]
  · simp [low]

/-- MOVK replaces 16 bits (R98). -/
theorem movkVal_eq (a : Word) (hw : BitVec 2) (imm : BitVec 16) :
    movkVal a hw imm = BitVec.ofFnLE fun k : Fin 64 =>
      if 16 * hw.toNat ≤ k.val ∧ k.val < 16 * hw.toNat + 16 then imm.getLsbD (k.val - 16 * hw.toNat) else a.getLsbD k.val := by
  refine BitVec.eq_of_getLsbD_eq fun k lt => ?_
  have ones (i : Nat) : (0xFFFF : Word).getLsbD i = decide (i < 16) := by
    change (BitVec.ofNat 64 (2 ^ 16 - 1)).getLsbD i = _
    rw [BitVec.getLsbD_ofNat, Nat.testBit_two_pow_sub_one, ← Bool.decide_and, decide_eq_decide]
    omega
  simp only [movkVal, BitVec.getLsbD_or, BitVec.getLsbD_and, BitVec.getLsbD_not, BitVec.getLsbD_shiftLeft, BitVec.getLsbD_ofFnLE,
    BitVec.getLsbD_setWidth, ones, lt, decide_true, Bool.true_and, dif_pos]
  by_cases low : k < 16 * hw.toNat
  · simp [low, Nat.not_le.2 low]
  · have from' : 16 * hw.toNat ≤ k := Nat.not_lt.1 low
    by_cases high : k < 16 * hw.toNat + 16
    · have within : k - 16 * hw.toNat < 16 := by omega
      simp [low, from', high, within, Nat.lt_of_lt_of_le within (by decide : 16 ≤ 64)]
    · have beyond : ¬k - 16 * hw.toNat < 16 := by omega
      simp [low, high, beyond, BitVec.getLsbD_of_ge imm _ (Nat.not_lt.1 beyond)]

/-- Settles O9: NOP and the computing words of the common map. -/
theorem arithmeticAndLogicResults : Obligations.ArithmeticAndLogicResults := by
  unfold Obligations.ArithmeticAndLogicResults
  simp only [exec]
  refine ⟨fun s h c j s1 run => ?nop, fun s h d a b i31 i26 hw i16 =>
    ⟨?movi, ?movk, ?mov, ?add, ?sub, ?addi, ?and, ?or, ?xor, ?andn⟩⟩
  case nop => exact scalarWord_ok run rfl run.1.cursor run.1.job
  case movk => exact pureWord_yields_as fun t => movkVal_eq (t.src a) hw i16
  case movi | mov | add | sub | addi | and | or | xor | andn => exact pureWord_yields _ _ _ _ _ _

/-! ### Shifts (R49, R105) -/

theorem shlVal_eq (a b : Word) : shlVal a b = if b.toNat % 256 < 64 then a <<< (b.toNat % 256) else 0 := by
  by_cases short : b.toNat % 256 < 64
  · rw [if_pos short, shlVal]
  · rw [if_neg short, shlVal, BitVec.shiftLeft_eq_zero (Nat.not_lt.1 short)]
    rfl

theorem shrVal_eq (a b : Word) : shrVal a b = if b.toNat % 256 < 64 then a >>> (b.toNat % 256) else 0 := by
  by_cases short : b.toNat % 256 < 64
  · rw [if_pos short, shrVal]
  · rw [if_neg short, shrVal, BitVec.ushiftRight_eq_zero (Nat.not_lt.1 short)]
    rfl

/-- From the width up, an arithmetic shift gives copies of the sign. -/
theorem sarVal_eq (a b : Word) :
    sarVal a b = if b.toNat % 256 < 64 then a.sshiftRight (b.toNat % 256) else if a.msb then BitVec.allOnes 64 else 0 := by
  by_cases short : b.toNat % 256 < 64
  · rw [if_pos short, sarVal]
  · rw [if_neg short, sarVal]
    refine BitVec.eq_of_getLsbD_eq fun k lt => ?_
    rw [BitVec.getLsbD_sshiftRight, if_neg (by omega)]
    rw [decide_eq_false (Nat.not_le.2 lt), Bool.not_false, Bool.true_and]
    cases a.msb
    · rw [if_neg Bool.false_ne_true]
      exact BitVec.getLsbD_zero.symm
    · rw [if_pos rfl, BitVec.getLsbD_allOnes, decide_eq_true lt]

/-- Two words side by side, as a number. -/
theorem toNat_append_word (a b : Word) : (a ++ b).toNat = a.toNat * 2 ^ 64 + b.toNat := by
  rw [BitVec.toNat_append, ← Nat.shiftLeft_add_eq_or_of_lt b.isLt, Nat.shiftLeft_eq]

theorem fshlVal_eq (a b n : Word) :
    fshlVal a b n = if n.toNat % 256 < 128 then ((a ++ b) <<< (n.toNat % 256)).extractLsb' 64 64 else 0 := by
  have all : fshlVal a b n = ((a ++ b) <<< (n.toNat % 256)).extractLsb' 64 64 := by
    refine BitVec.eq_of_toNat_eq ?_
    rw [fshlVal, BitVec.toNat_ofNat, BitVec.extractLsb'_toNat, BitVec.toNat_shiftLeft, toNat_append_word, Nat.shiftRight_eq_div_pow,
      Nat.shiftLeft_eq]
  by_cases short : n.toNat % 256 < 128
  · rw [if_pos short, all]
  · rw [if_neg short, all, BitVec.shiftLeft_eq_zero (Nat.not_lt.1 short)]
    decide

theorem fshrVal_eq (a b n : Word) :
    fshrVal a b n = if n.toNat % 256 < 128 then ((a ++ b) >>> (n.toNat % 256)).extractLsb' 0 64 else 0 := by
  have all : fshrVal a b n = ((a ++ b) >>> (n.toNat % 256)).extractLsb' 0 64 := by
    refine BitVec.eq_of_toNat_eq ?_
    rw [fshrVal, BitVec.toNat_ofNat, BitVec.extractLsb'_toNat, BitVec.toNat_ushiftRight, toNat_append_word, Nat.shiftRight_zero,
      Nat.shiftRight_eq_div_pow]
  by_cases short : n.toNat % 256 < 128
  · rw [if_pos short, all]
  · rw [if_neg short, all, BitVec.ushiftRight_eq_zero (Nat.not_lt.1 short)]
    decide

/-- Settles O10: each shift's value for every amount, the funnel shifts' fields, and their push with a false guard. -/
theorem shiftResults : Obligations.ShiftResults := by
  unfold Obligations.ShiftResults
  intro s h d a b n
  simp only [exec]
  refine ⟨?shl, ?shr, ?sar, ?fshl, ?fshr, ?codeL, ?codeR, fun c j s1 enters off free => ?off⟩
  case shl => exact pureWord_yields_as fun t => shlVal_eq ..
  case shr => exact pureWord_yields_as fun t => shrVal_eq ..
  case sar => exact pureWord_yields_as fun t => sarVal_eq ..
  case fshl => exact pureWord_yields_as fun t => fshlVal_eq ..
  case fshr => exact pureWord_yields_as fun t => fshrVal_eq ..
  case codeL | codeR =>
    rintro w ⟨⟩
    obtain ⟨-, opc, -, -, -, f, low, -, -⟩ := encS3_fields h _ d.code a.code b.code n.code 0
    exact ⟨opc, f, low⟩
  case off =>
    have uses : offUses h (some a) (some .push) = [a] := by simp [offUses]
    have free' : destPending (j.regs c.stream c.slot) (offUses h (some a) (some .push)) (offDest (some .push)) = false := by
      rw [uses]
      exact free
    exact ⟨scalarWord_off_dest enters off free', scalarWord_off_dest enters off free'⟩

/-! ### Minimum, maximum, selection (R97, R99) -/

theorem minWord_unsigned (a b : Word) : minMaxWord false false a b = BitVec.ofNat 64 (min a.toNat b.toNat) := by
  rw [min_comm, min_def_lt, apply_ite (BitVec.ofNat 64), BitVec.ofNat_toNat, BitVec.ofNat_toNat, BitVec.setWidth_eq, BitVec.setWidth_eq]
  simp only [minMaxWord, Bool.false_eq_true, if_false, BitVec.ult_eq_decide, decide_eq_true_eq]

theorem maxWord_unsigned (a b : Word) : minMaxWord true false a b = BitVec.ofNat 64 (max a.toNat b.toNat) := by
  rw [max_comm, max_def_lt, apply_ite (BitVec.ofNat 64), BitVec.ofNat_toNat, BitVec.ofNat_toNat, BitVec.setWidth_eq, BitVec.setWidth_eq]
  simp only [minMaxWord, Bool.false_eq_true, if_false, if_true, BitVec.ult_eq_decide, decide_eq_true_eq]

theorem minWord_signed (a b : Word) : minMaxWord false true a b = BitVec.ofInt 64 (min a.toInt b.toInt) := by
  rw [min_comm, min_def_lt, apply_ite (BitVec.ofInt 64), BitVec.ofInt_toInt, BitVec.ofInt_toInt]
  simp only [minMaxWord, Bool.false_eq_true, if_false, if_true, BitVec.slt_eq_decide, decide_eq_true_eq]

theorem maxWord_signed (a b : Word) : minMaxWord true true a b = BitVec.ofInt 64 (max a.toInt b.toInt) := by
  rw [max_comm, max_def_lt, apply_ite (BitVec.ofInt 64), BitVec.ofInt_toInt, BitVec.ofInt_toInt]
  simp only [minMaxWord, if_true, BitVec.slt_eq_decide, decide_eq_true_eq]

/-- A predicate read: p7 is true (R63). -/
theorem pred_eq_true_iff (t : StreamSt) (i : BitVec 3) : t.pred i = true ↔ i = 7 ∨ t.p.getLsbD i.toNat = true := by
  by_cases seven : i = 7 <;> simp [StreamSt.pred, seven]

/-- Settles O11: each word's value is the lesser, the greater or the selected operand. -/
theorem minMaxSelectResults : Obligations.MinMaxSelectResults := by
  unfold Obligations.MinMaxSelectResults
  intro s h d a b pc
  simp only [exec]
  refine ⟨?minU, ?minS, ?maxU, ?maxS, ?sel⟩
  case minU => exact pureWord_yields_as fun t => minWord_unsigned ..
  case minS => exact pureWord_yields_as fun t => minWord_signed ..
  case maxU => exact pureWord_yields_as fun t => maxWord_unsigned ..
  case maxS => exact pureWord_yields_as fun t => maxWord_signed ..
  case sel => exact pureWord_yields_as fun t => if_congr (pred_eq_true_iff t pc) rfl rfl

end Sys2Proof.Machine
end

section
/-! SUPPORT. Products, quotients, counts and bit fields of C, in the words of R48 and R101 to R104. -/

namespace Sys2Proof.Machine

/-! ### Products and quotients (R48, R101, R102) -/

/-- The upper half of an integer taken modulo 2^128. -/
theorem extractHigh_ofInt (z : Int) : (BitVec.ofInt 128 z).extractLsb' 64 64 = BitVec.ofInt 64 (z / 2 ^ 64) := by
  refine BitVec.eq_of_toNat_eq ?_
  rw [BitVec.extractLsb'_toNat, BitVec.toNat_ofInt, BitVec.toNat_ofInt, Nat.shiftRight_eq_div_pow]
  push_cast
  omega

/-- The high half of a product of integers, from words that hold them in 128 bits. -/
theorem highHalf_mul {x y : BitVec 128} {a b : Int} (hx : x = BitVec.ofInt 128 a) (hy : y = BitVec.ofInt 128 b) :
    BitVec.ofInt 64 (a * b / 2 ^ 64) = (x * y).extractLsb' 64 64 := by
  rw [hx, hy, ← BitVec.ofInt_mul, extractHigh_ofInt]

theorem setWidth_eq_ofInt (a : Word) : a.setWidth 128 = BitVec.ofInt 128 a.toNat := by
  rw [BitVec.ofInt_natCast, BitVec.ofNat_toNat]

theorem mulhVal_uu (a b : Word) : mulhVal .uu a b = (a.setWidth 128 * b.setWidth 128).extractLsb' 64 64 :=
  Eq.trans (by rw [mulhVal, ← BitVec.ofInt_natCast]; push_cast; rfl) (highHalf_mul (setWidth_eq_ofInt a) (setWidth_eq_ofInt b))

theorem mulhVal_ss (a b : Word) : mulhVal .ss a b = (a.signExtend 128 * b.signExtend 128).extractLsb' 64 64 :=
  highHalf_mul rfl rfl

theorem mulhVal_su (a b : Word) : mulhVal .su a b = (a.signExtend 128 * b.setWidth 128).extractLsb' 64 64 :=
  highHalf_mul rfl (setWidth_eq_ofInt b)

theorem divVal_unsigned (a b : Word) : divVal false a b = if b = 0 then BitVec.allOnes 64 else a.udiv b := by
  rw [divVal, if_neg Bool.false_ne_true, BitVec.udiv_eq]
  congr 1
  exact BitVec.eq_of_toNat_eq (by simp [Nat.mod_eq_of_lt (Nat.lt_of_le_of_lt (Nat.div_le_self ..) a.isLt)])

theorem divVal_signed (a b : Word) : divVal true a b = if b = 0 then BitVec.allOnes 64 else a.sdiv b := by
  rw [divVal, if_pos rfl]
  congr 1
  exact BitVec.eq_of_toInt_eq (by rw [BitVec.toInt_ofInt, BitVec.toInt_sdiv])

theorem remVal_unsigned (a b : Word) : remVal false a b = if b = 0 then a else a.umod b := by
  rw [remVal, if_neg Bool.false_ne_true, BitVec.umod_eq]
  congr 1
  exact BitVec.eq_of_toNat_eq (by simp [Nat.mod_eq_of_lt (Nat.lt_of_le_of_lt (Nat.mod_le ..) a.isLt)])

theorem remVal_signed (a b : Word) : remVal true a b = if b = 0 then a else a.srem b := by
  rw [remVal, if_pos rfl, ← BitVec.toInt_srem, BitVec.ofInt_toInt]

/-! ### Counts (R103) -/

/-- `takeWhile` yields the same under two tests that agree on the members of the list. -/
theorem takeWhile_agree {α : Type} {p q : α → Bool} {l : List α} (same : ∀ x ∈ l, p x = q x) : l.takeWhile p = l.takeWhile q := by
  induction l with
  | nil => rfl
  | cons x t ih =>
    rw [List.takeWhile_cons, List.takeWhile_cons, same x (by simp), ih fun y mem => same y (by simp [mem])]

theorem trailZeros_eq (a i n : Nat) : trailZeros a i n = ((List.range n).takeWhile fun k => !a.testBit (i + k)).length := by
  induction n generalizing i with
  | zero => rfl
  | succ n ih =>
    have shift : ((fun k => !a.testBit (i + k)) ∘ Nat.succ) = fun k => !a.testBit (i + 1 + k) := by
      funext k; simp only [Function.comp_apply]; congr 2; omega
    rw [trailZeros, ih, List.range_succ_eq_map, List.takeWhile_cons, List.takeWhile_map, shift]
    rcases low : a.testBit i
    · simp [Nat.add_comm]
    · simp

theorem clz_eq (a : Word) : leadZeros a.toNat 64 = ((List.range 64).takeWhile fun k => !a.getMsbD k).length := by
  rw [leadZeros_eq, takeWhile_agree fun k mem => ?_]
  have lt := List.mem_range.1 mem
  rw [BitVec.getMsbD, decide_eq_true lt, Bool.true_and, BitVec.getLsbD]

theorem ctz_eq (a : Word) : trailZeros a.toNat 0 64 = ((List.range 64).takeWhile fun k => !a.getLsbD k).length := by
  rw [trailZeros_eq]
  simp only [Nat.zero_add]
  rfl

/-! ### Bit fields (R104) -/

/-- A number of `n` bits, sign-extended. -/
theorem sext64_eq {x n : Nat} (pos : 0 < n) (le : n ≤ 64) (lt : x < 2 ^ n) :
    sext64 x n = if 2 ^ (n - 1) ≤ x then BitVec.ofInt 64 ((x : Int) - 2 ^ n) else BitVec.ofNat 64 x := by
  obtain ⟨m, rfl⟩ : ∃ m, n = m + 1 := ⟨n - 1, by omega⟩
  have top : x / 2 ^ m % 2 = 1 ↔ 2 ^ m ≤ x := by
    have half : x / 2 ^ m < 2 := Nat.div_lt_of_lt_mul (Nat.pow_succ 2 m ▸ lt)
    have set : 0 < x / 2 ^ m ↔ 2 ^ m ≤ x := Nat.div_pos_iff.trans (and_iff_right (Nat.two_pow_pos m))
    rw [← set]
    generalize x / 2 ^ m = q at *
    omega
  have small : 2 ^ (m + 1) ≤ 2 ^ 64 := Nat.pow_le_pow_right (by decide) le
  rw [sext64, Nat.add_sub_cancel, Nat.mod_eq_of_lt lt]
  simp only [top, pos, and_true]
  refine if_congr Iff.rfl ?_ rfl
  refine BitVec.eq_of_toNat_eq ?_
  rw [BitVec.toNat_ofNat, BitVec.toNat_ofInt]
  push_cast
  have cast : ((2 ^ (m + 1) : Nat) : Int) = 2 ^ (m + 1) := by push_cast; rfl
  rw [← cast]
  generalize 2 ^ (m + 1) = p at *
  omega

theorem signExtend_eq_sext64 {n : Nat} (pos : 0 < n) (le : n ≤ 64) (x : BitVec n) : x.signExtend 64 = sext64 x.toNat n := by
  have double : 2 * 2 ^ (n - 1) = 2 ^ n := by rw [← Nat.pow_succ', Nat.succ_eq_add_one, Nat.sub_add_cancel pos]
  rw [sext64_eq pos le x.isLt, BitVec.signExtend, BitVec.toInt_eq_toNat_cond]
  by_cases high : 2 ^ (n - 1) ≤ x.toNat
  · rw [if_pos high, if_neg (by omega)]
    push_cast
    rfl
  · rw [if_neg high, if_pos (by omega), BitVec.ofInt_natCast]

theorem bfxVal_unsigned (a : Word) (pos len : BitVec 6) :
    bfxVal a pos len false = (a.extractLsb' pos.toNat (len.toNat + 1)).setWidth 64 := by
  refine BitVec.eq_of_toNat_eq ?_
  simp only [bfxVal, Bool.false_eq_true, if_false, BitVec.toNat_ofNat, BitVec.toNat_setWidth, BitVec.extractLsb'_toNat,
    Nat.shiftRight_eq_div_pow]

theorem bfxVal_signed (a : Word) (pos len : BitVec 6) :
    bfxVal a pos len true = (a.extractLsb' pos.toNat (len.toNat + 1)).signExtend 64 := by
  have le : len.toNat + 1 ≤ 64 := len.isLt
  rw [signExtend_eq_sext64 (Nat.succ_pos _) le, BitVec.extractLsb'_toNat, Nat.shiftRight_eq_div_pow]
  rfl

/-! ### Words of C by their encoding (R54, R103, R104) -/

/-- The fields B, F and [15:0] side by side. -/
theorem fI26_parts (w : Word) : fB w ++ fF w ++ fLow w = fI26 w := by
  simp (disch := omega) only [fB, fF, fLow, fI26, fld_append]

/-- A word of one register source: its opcode, and nothing in B, F and [15:0]. -/
theorem encDA_fields (h : Hdr) (opc : BitVec 8) (d : Dest) (a : Src) : fOpc (encDA h opc d a) = opc ∧ fI26 (encDA h opc d a) = 0 := by
  obtain ⟨-, op, -, -, b, f, low, -, -⟩ := encS3_fields h opc d.code a.code 0 0 0
  refine ⟨op, ?_⟩
  rw [encDA, ← fI26_parts, b, f, low]
  rfl

/-- A C-only word that is legal in no place decodes in no stream: the other maps do not hold its opcode. -/
theorem decode_cOnly_illegal {i : Instr} {w : Word} {h : Hdr} {opc : BitVec 8} {d a b f : BitVec 5} {low : BitVec 16}
    (word : encode i = some w) (is : encode i = some (encS3 h opc d a b f low)) (mine : i.stream .c = true)
    (opcode : 0x40 ≤ opc.toNat ∧ opc.toNat < 0x80) (bad : ∀ v, i.legalIn v = false) (x : StreamId) : decode x w = none := by
  by_cases c : x = .c
  · subst c
    rw [decode, decodeRaw_of_encode mine word]
    simp [Option.filter, bad]
  · have op : fOpc w = opc := by
      rw [Option.some.inj (word.symm.trans is)]
      exact fOpc_encS3
    have unread : decodeRaw x w = none := by
      unfold decodeRaw
      rw [op, if_neg (Nat.not_lt.2 opcode.1), if_pos opcode.2, if_neg c]
    rw [decode, unread]
    rfl

/-- Settles O12: each word's value, the counts' fields, and the words whose field reaches past bit 63. -/
theorem productsQuotientsAndFields : Obligations.ProductsQuotientsAndFields := by
  unfold Obligations.ProductsQuotientsAndFields
  refine ⟨fun s h d a b pos len => ?_, fun x h d a b pos len sx w past word => ?_⟩
  · simp only [exec]
    refine ⟨?mul, ?uu, ?ss, ?su, ?divU, ?divS, ?remU, ?remS, ?clz, ?ctz, ?popc, fun fits => ⟨?bfxU, ?bfxS, ?bfi⟩, ?codeZ, ?codeT, ?codeP⟩
    case mul => exact pureWord_yields _ _ _ _ _ _
    case uu => exact pureWord_yields_as fun t => mulhVal_uu ..
    case ss => exact pureWord_yields_as fun t => mulhVal_ss ..
    case su => exact pureWord_yields_as fun t => mulhVal_su ..
    case divU => exact pureWord_yields_as fun t => divVal_unsigned ..
    case divS => exact pureWord_yields_as fun t => divVal_signed ..
    case remU => exact pureWord_yields_as fun t => remVal_unsigned ..
    case remS => exact pureWord_yields_as fun t => remVal_signed ..
    case clz => exact pureWord_yields_as fun t => congrArg _ (clz_eq _)
    case ctz => exact pureWord_yields_as fun t => congrArg _ (ctz_eq _)
    case popc => exact pureWord_yields_as fun t => congrArg _ (popBits_eq ..)
    case bfxU => exact pureWord_yields_as fun t => bfxVal_unsigned ..
    case bfxS => exact pureWord_yields_as fun t => bfxVal_signed ..
    case bfi => exact pureWord_yields_as fun t => insertBits_eq ..
    case codeZ | codeT | codeP =>
      rintro w ⟨⟩
      exact encDA_fields ..
  · have bad : decide (pos.toNat + (len.toNat + 1) ≤ 64) = false := decide_eq_false (Nat.not_le.2 past)
    rcases word with word | word
    · exact decode_cOnly_illegal word rfl rfl (by decide) (fun v => by simp [Instr.legalIn, bad]) x
    · exact decode_cOnly_illegal word rfl rfl (by decide) (fun v => by simp [Instr.legalIn, bad]) x

end Sys2Proof.Machine
end

section
/-! SUPPORT. Words that change a stream's registers beside the destination: predicates, and the branches with their stack and counter. -/

namespace Sys2Proof.Machine

/-! ### Words that change their stream's registers -/

/-- A word without a destination that changes only the registers it runs on, and that yields `v` or keeps its bundle's value. -/
theorem runWord_modRegs {s s1 : State} {h : Hdr} {yields : Bool} {uses : List Src} {first : Option Src} {c : Cursor} {j : Job}
    {op : Cursor → Job → State → WRes} {f : StreamSt → StreamSt} {v : Word} {nx : Option Word} (run : Runs s h uses none c j s1)
    (res : op c j s1 = .ok (s1.modRegs c.job c.stream c.slot f) v nx) :
    runWord h.wait h.sig true (scalarBody h yields uses first none op) s = .next (issued s1 c h.sig (j.modRegs c f) v nx) := by
  obtain ⟨enters, guard, free⟩ := run
  obtain ⟨lt, _⟩ := List.getElem?_eq_some_iff.1 enters.job
  rw [State.modRegs_eq enters.job] at res
  rw [runWord_ok enters (s2 := { s1 with jobs := s1.jobs.set c.job (j.modRegs c f) }) (v := v) (nx := nx)
    (by simp [scalarBody, guard, free, res]) enters.cursor (j2 := j.modRegs c f) (by simp [lt])]
  simp [issued, List.set_set]

/-- A word without a destination that changes nothing itself. -/
theorem scalarWord_same {s s1 : State} {h : Hdr} {uses : List Src} {first : Option Src} {c : Cursor} {j : Job}
    {op : Cursor → Job → State → WRes} {v : Word} {nx : Option Word} (run : Runs s h uses none c j s1)
    (res : op c j s1 = .ok s1 v nx) : scalarWord h uses first none op s = .next (issued s1 c h.sig j v nx) :=
  scalarWord_ok (d := none) run res run.1.cursor run.1.job

/-! ### Predicates (R63, R94, R96) -/

/-- A predicate written: p7 ignores the write, and no other changes. -/
theorem setPred_eq (r : StreamSt) (pd : BitVec 3) (b : Bool) :
    r.setPred pd b = { r with
      p := if pd = 7 then r.p else BitVec.ofFnLE fun k : Fin 7 => if k.val = pd.toNat then b else r.p.getLsbD k.val } := by
  by_cases seven : pd = 7
  · simp [StreamSt.setPred, seven]
  · have bits (q : BitVec 7) (is : ∀ k < 7, q.getLsbD k = if k = pd.toNat then b else r.p.getLsbD k) :
        q = BitVec.ofFnLE fun k : Fin 7 => if k.val = pd.toNat then b else r.p.getLsbD k.val :=
      BitVec.eq_of_getLsbD_eq fun k lt => by rw [is k lt, BitVec.getLsbD_ofFnLE, dif_pos lt]
    have one (k : Nat) (lt : k < 7) : (1#7 <<< pd.toNat).getLsbD k = decide (k = pd.toNat) := by
      simp only [BitVec.getLsbD_shiftLeft, BitVec.getLsbD_one]
      rw [Bool.eq_iff_iff]
      simp
      omega
    rw [StreamSt.setPred, if_neg seven, if_neg seven]
    cases b
    · rw [if_neg Bool.false_ne_true]
      refine congrArg (fun q => { r with p := q }) (bits _ fun k lt => ?_)
      rw [BitVec.getLsbD_and, BitVec.getLsbD_not, one k lt]
      by_cases here : k = pd.toNat <;> simp [here, lt]
    · rw [if_pos rfl]
      refine congrArg (fun q => { r with p := q }) (bits _ fun k lt => ?_)
      rw [BitVec.getLsbD_or, one k lt]
      by_cases here : k = pd.toNat <;> simp [here]

/-- What each condition of CMP and CMPI tests (R94). -/
theorem condTest_eq (cc : Cond) (x y : Word) :
    condTest cc x y =
      match cc with
      | .eq => decide (x = y) | .ne => decide (x ≠ y)
      | .lt => decide (x.toInt < y.toInt) | .ge => decide (y.toInt ≤ x.toInt)
      | .gt => decide (y.toInt < x.toInt) | .le => decide (x.toInt ≤ y.toInt)
      | .ltu => decide (x.toNat < y.toNat) | .geu => decide (y.toNat ≤ x.toNat)
      | .gtu => decide (y.toNat < x.toNat) | .leu => decide (x.toNat ≤ y.toNat)
      | .tst => decide (x &&& y ≠ 0) | .ntst => decide (x &&& y = 0) := by
  cases cc
  case eq | ntst => exact beq_eq_decide ..
  case ne | tst => exact Bool.eq_iff_iff.2 (bne_iff_ne.trans decide_eq_true_iff.symm)
  case lt | gt => exact BitVec.slt_eq_decide
  case ltu | gtu => exact BitVec.ult_eq_decide
  case ge | le =>
    simp only [condTest, BitVec.slt_eq_decide, ← decide_not, not_lt]
  case geu | leu =>
    simp only [condTest, BitVec.ult_eq_decide, ← decide_not, not_lt]

/-- A word that writes a predicate has issued with it written. -/
theorem predWord_writes {s s1 : State} {h : Hdr} {uses : List Src} {first : Option Src} {pd : BitVec 3} {f : StreamSt → Bool}
    {c : Cursor} {j : Job} {b : Bool} (run : Runs s h uses none c j s1) (is : f c.regs = b) :
    predWord h uses first pd f s = .next (issued s1 c h.sig
      (j.modRegs c fun r => { r with
        p := if pd = 7 then r.p else BitVec.ofFnLE fun k : Fin 7 => if k.val = pd.toNat then b else r.p.getLsbD k.val })
      (if b then 1 else 0) none) := by
  rw [predWord, runWord_modRegs run rfl, is]
  simp only [setPred_eq]
  rfl

theorem pred_toNat (t : StreamSt) (i : BitVec 3) : (t.pred i).toNat = if i = 7 ∨ t.p.getLsbD i.toNat = true then 1 else 0 := by
  rw [Bool.toNat, Bool.cond_eq_ite]
  exact if_congr (pred_eq_true_iff t i) rfl rfl

/-- Settles O13: each word writes what its condition, or its table, gives. -/
theorem predicateWords : Obligations.PredicateWords := by
  unfold Obligations.PredicateWords
  intro s h pd pa pb a b imm cc tt c j s1 t post holds pred
  simp only [exec]
  refine ⟨fun run => predWord_writes run (condTest_eq ..), fun run => predWord_writes run (condTest_eq ..),
    fun run => predWord_writes run ?_⟩
  rw [pred_toNat, pred_toNat]

/-! ### Branches (R106 to R110) -/

theorem badTarget_iff (a : Word) : badTarget a = true ↔ a.toNat % 8 ≠ 0 := by
  rw [badTarget, bne_iff_ne, ne_eq, ← BitVec.toNat_inj, BitVec.extractLsb'_toNat]
  rfl

section Branch

variable {s s1 : State} {h : Hdr} {a : Src} {i36 : BitVec 36} {c : Cursor} {j : Job}

theorem execJmp_aligned (run : Runs s h [a] none c j s1) (fits : (c.regs.src a).toNat % 8 = 0) :
    execJmp h a s = .next (issued s1 c h.sig j c.value (some (c.regs.src a))) :=
  scalarWord_same run (if_neg fun bad => (badTarget_iff _).1 bad fits)

theorem execJmp_misaligned (run : Runs s h [a] none c j s1) (handler : HandlerReady c) (off : (c.regs.src a).toNat % 8 ≠ 0) :
    execJmp h a s = .next (trapTaken s1 c ⟨causeMisaligned, c.pc, 0, (0 : Word) ||| (BitVec.ofNat 64 c.index <<< 8)⟩) :=
  scalarWord_trapTaken run handler (if_pos ((badTarget_iff _).2 off)) (by decide)

theorem execCall_room (run : Runs s h [] none c j s1) (room : c.regs.rstack.length < 32) :
    execCall h i36 s = .next (issued s1 c h.sig (j.modRegs c fun r => { r with rstack := (c.wordPc + 8) :: c.regs.rstack }) c.value
      (some (branchTo c (i36.signExtend 64)))) :=
  runWord_modRegs run (if_neg (Nat.not_le.2 room))

theorem execCall_full (run : Runs s h [] none c j s1) (handler : HandlerReady c) (full : 32 ≤ c.regs.rstack.length) :
    execCall h i36 s = .next (trapTaken s1 c ⟨causeStackLimit, c.pc, 0, (0 : Word) ||| (BitVec.ofNat 64 c.index <<< 8)⟩) :=
  scalarWord_trapTaken run handler (if_pos full) (by decide)

theorem execRet_pops {top : Word} {rest : List Word} (run : Runs s h [] none c j s1) (stack : c.regs.rstack = top :: rest) :
    execRet h s = .next (issued s1 c h.sig (j.modRegs c fun r => { r with rstack := rest }) c.value (some top)) :=
  runWord_modRegs run (by simp only [stack])

theorem execRet_empty (run : Runs s h [] none c j s1) (handler : HandlerReady c) (empty : c.regs.rstack = []) :
    execRet h s = .next (trapTaken s1 c ⟨causeStackLimit, c.pc, 0, (1 : Word) ||| (BitVec.ofNat 64 c.index <<< 8)⟩) :=
  scalarWord_trapTaken run handler (by simp only [empty]) (by decide)

theorem execRetReg_pops {top : Word} {rest : List Word} (run : Runs s h [a] none c j s1) (stack : c.regs.rstack = top :: rest)
    (fits : (c.regs.src a).toNat % 8 = 0) :
    execRetReg h a s =
      .next (issued s1 c h.sig (j.modRegs c fun r => { r with rstack := rest }) c.value (some (c.regs.src a))) :=
  runWord_modRegs run (by simp only [stack, if_neg fun bad => (badTarget_iff _).1 bad fits])

theorem execRetReg_empty (run : Runs s h [a] none c j s1) (handler : HandlerReady c) (empty : c.regs.rstack = []) :
    execRetReg h a s = .next (trapTaken s1 c ⟨causeStackLimit, c.pc, 0, (1 : Word) ||| (BitVec.ofNat 64 c.index <<< 8)⟩) :=
  scalarWord_trapTaken run handler (by simp only [empty]) (by decide)

theorem execRetReg_misaligned (run : Runs s h [a] none c j s1) (handler : HandlerReady c) (stack : c.regs.rstack ≠ [])
    (off : (c.regs.src a).toNat % 8 ≠ 0) :
    execRetReg h a s = .next (trapTaken s1 c ⟨causeMisaligned, c.pc, 0, (0 : Word) ||| (BitVec.ofNat 64 c.index <<< 8)⟩) := by
  obtain ⟨top, rest, is⟩ := List.exists_cons_of_ne_nil stack
  exact scalarWord_trapTaken run handler (by simp only [is, if_pos ((badTarget_iff _).2 off), WRes.raise]) (by decide)

/-- LOOP at a counter that is not zero counts down, and branches unless that was the last turn. -/
theorem execLoop_counts {kc : BitVec 4} {i31 : BitVec 31} (run : Runs s h [.k kc] none c j s1) (more : c.regs.src (.k kc) ≠ 0) :
    execLoop h kc i31 s = .next (issued s1 c h.sig (j.put c (.k kc) (c.regs.src (.k kc) - 1)) c.value
      (if c.regs.src (.k kc) = 1 then none else some (branchTo c (i31.signExtend 64)))) := by
  have last : c.regs.src (.k kc) - 1 = 0 ↔ c.regs.src (.k kc) = 1 := BitVec.sub_eq_iff_eq_add.trans (by simp)
  refine runWord_modRegs (f := fun r => r.setK kc (c.regs.src (.k kc) - 1)) run ?_
  simp only [if_neg more, last]

end Branch

/-- Settles O14: the branches that go somewhere, and those that trap. -/
theorem branchWords : Obligations.BranchWords := by
  unfold Obligations.BranchWords
  simp only [exec]
  refine ⟨fun s h a kc i36 i31 c j s1 => ?goes, fun s h a i36 c j s1 handler => ?traps⟩
  case goes =>
    refine ⟨fun run => scalarWord_same run rfl, execJmp_aligned, execCall_room, fun top rest => execRet_pops,
      fun top rest => execRetReg_pops, fun run => ?loop⟩
    case loop =>
      by_cases zero : c.regs.src (.k kc) = 0
      · rw [if_pos zero]
        exact scalarWord_same run (if_pos zero)
      · rw [if_neg zero]
        exact execLoop_counts run zero
  case traps =>
    exact ⟨fun run => execJmp_misaligned run handler, fun run => execCall_full run handler, fun run => execRet_empty run handler,
      fun run => execRetReg_empty run handler, fun run => execRetReg_misaligned run handler⟩

end Sys2Proof.Machine
end

section
/-! SUPPORT. Canonical byte stores as functions of the address; the bytes of a word; and LDS and STS inside the windows. -/

namespace Sys2Proof.Machine

/-! ### A canonical byte store as a function -/

/-- Bytes written are read back, and every other address reads as before. -/
theorem cellGet_cellPutN {m : List Host.Cell} (w : Memory.wf m) (a : Nat) (b : List Byte) (k : Nat) :
    cellGet (cellPutN m a b) k = if a ≤ k ∧ k < a + b.length then b.getD (k - a) 0 else cellGet m k := by
  induction b generalizing m a with
  | nil => exact (if_neg (by simp)).symm
  | cons x t ih =>
    rw [cellPutN, ih (cellPut_wf a x w), cellGet_cellPut w, List.length_cons]
    rcases Nat.lt_trichotomy k a with below | rfl | above
    · rw [if_neg (by omega), if_neg below.ne, if_neg (by omega)]
    · rw [if_neg (by omega), if_pos rfl, if_pos (by omega), Nat.sub_self]
      rfl
    · obtain ⟨i, rfl⟩ : ∃ i, k = a + 1 + i := ⟨k - (a + 1), by omega⟩
      rw [if_neg above.ne', show a + 1 + i - a = i + 1 by omega, Nat.add_sub_cancel_left, List.getD_cons_succ]
      exact if_congr (by omega) rfl rfl

/-- A canonical list's first address is the lowest that reads a byte other than zero, so it is found in any list that reads alike. -/
theorem head_le_of_reads_alike {lo lo' : Option Nat} {a b : Nat} {x y : Byte} {t u : List Host.Cell}
    (w : cellsFrom lo ((a, x) :: t) = true) (v : cellsFrom lo' ((b, y) :: u) = true)
    (alike : cellGet ((a, x) :: t) a = cellGet ((b, y) :: u) a) : b ≤ a := by
  obtain ⟨x0, above, -⟩ := cellsFrom_cons w
  obtain ⟨-, above', -⟩ := cellsFrom_cons v
  by_contra less
  rw [cellGet_cons above, if_pos rfl, cellGet_cons above', if_neg (by omega), cellGet_below above' (by omega)] at alike
  exact x0 alike

/-- Canonical lists that read alike at every address are equal. -/
theorem cells_ext {m k : List Host.Cell} {lo lo' : Option Nat} (w : cellsFrom lo m = true) (v : cellsFrom lo' k = true)
    (alike : ∀ x, cellGet m x = cellGet k x) : m = k := by
  induction m generalizing k lo lo' with
  | nil =>
    cases k with
    | nil => rfl
    | cons q u =>
      obtain ⟨b, y⟩ := q
      obtain ⟨y0, above, -⟩ := cellsFrom_cons v
      have zero := alike b
      rw [cellGet_cons above, if_pos rfl] at zero
      exact absurd zero.symm y0
  | cons p t ih =>
    obtain ⟨a, x⟩ := p
    obtain ⟨x0, above, -⟩ := cellsFrom_cons w
    cases k with
    | nil =>
      have zero := alike a
      rw [cellGet_cons above, if_pos rfl] at zero
      exact absurd zero x0
    | cons q u =>
      obtain ⟨b, y⟩ := q
      obtain ⟨-, above', -⟩ := cellsFrom_cons v
      obtain rfl : a = b := Nat.le_antisymm (head_le_of_reads_alike v w (alike b).symm) (head_le_of_reads_alike w v (alike a))
      have byte := alike a
      rw [cellGet_cons above, cellGet_cons above', if_pos rfl, if_pos rfl] at byte
      obtain rfl := byte
      refine congrArg _ (ih above above' fun k => ?_)
      by_cases here : k = a
      · rw [here, cellGet_below above le_rfl, cellGet_below above' le_rfl]
      · have other := alike k
        rwa [cellGet_cons above, cellGet_cons above', if_neg here, if_neg here] at other

/-- Settles O18: what is written reads back, and a canonical store is the function it reads as. -/
theorem storedBytesReadBack : Obligations.StoredBytesReadBack := by
  unfold Obligations.StoredBytesReadBack
  exact ⟨fun m a b w => ⟨cellPutN_wf a b w, cellGet_cellPutN w a b⟩, fun m k w v alike => cells_ext w v alike⟩

/-! ### The bytes of a word (R5, R111) -/

theorem cellGetN_eq (m : List Host.Cell) (a n : Nat) : cellGetN m a n = (List.range n).map fun i => cellGet m (a + i) := by
  induction n generalizing a with
  | zero => rfl
  | succ n ih =>
    rw [cellGetN, ih, List.range_succ_eq_map, List.map_cons, List.map_map]
    refine congrArg₂ _ rfl (List.map_congr_left fun i _ => ?_)
    exact congrArg (cellGet m) (by simp only [Nat.succ_eq_add_one]; omega)

theorem leBytes_eq_map (n v : Nat) : leBytes n v = (List.range n).map fun i => BitVec.ofNat 8 (v / 2 ^ (8 * i)) := by
  induction n generalizing v with
  | zero => rfl
  | succ n ih =>
    rw [leBytes, ih, List.range_succ_eq_map, List.map_cons, List.map_map]
    refine congrArg₂ _ (by simp) (List.map_congr_left fun i _ => ?_)
    simp only [Function.comp_apply, Nat.succ_eq_add_one, Nat.mul_add, Nat.mul_one, Nat.add_comm _ 8, Nat.pow_add, ← Nat.div_div_eq_div_mul]

/-- The low bytes of a word, least significant first. -/
theorem leBytes_word (n : Nat) (x : Word) : leBytes n x.toNat = (List.range n).map fun i => x.extractLsb' (8 * i) 8 := by
  rw [leBytes_eq_map]
  refine List.map_congr_left fun i _ => BitVec.eq_of_toNat_eq ?_
  rw [BitVec.toNat_ofNat, BitVec.extractLsb'_toNat, Nat.shiftRight_eq_div_pow]

theorem leNat_lt (b : List Byte) : leNat b < 2 ^ (8 * b.length) := by
  induction b with
  | nil => exact Nat.one_pos
  | cons x t ih =>
    have byte := x.isLt
    rw [leNat, List.length_cons, Nat.mul_add, Nat.pow_add]
    omega

/-- What a load of `n` bytes yields (R111, R113). -/
theorem extendLoad_eq {b : List Byte} {n : Nat} (sgn : Bool) (len : b.length = n) (pos : 0 < n) (le : n ≤ 8) :
    extendLoad sgn b =
      if sgn = true ∧ 2 ^ (8 * n - 1) ≤ leNat b then BitVec.ofInt 64 ((leNat b : Int) - 2 ^ (8 * n)) else BitVec.ofNat 64 (leNat b) := by
  have lt := leNat_lt b
  rw [extendLoad, len] at *
  cases sgn
  · simp
  · rw [if_pos rfl, sext64_eq (by omega) (by omega) lt]
    simp

theorem sizeBytes_pos (size : BitVec 2) : 0 < sizeBytes size := Nat.two_pow_pos _

theorem sizeBytes_le (size : BitVec 2) : sizeBytes size ≤ 8 :=
  Nat.pow_le_pow_right (by decide) (Nat.lt_succ_iff.1 size.isLt : size.toNat ≤ 3)

/-! ### LDS and STS inside the windows (R111, R248) -/

theorem spLoad_inside {j : Job} {a n : Nat} (inside : j.spanOk a n = true) (sound : unitsTouch j.spBad a n = false) :
    j.spLoad none a n = .ok ((List.range n).map fun i => cellGet j.sp (a + i)) := by
  simp [Job.spLoad, inside, sound, cellGetN_eq]

theorem spStore_inside {j : Job} {a : Nat} {b : List Byte} (inside : j.spanOk a b.length = true) :
    j.spStore none a b = .ok (j.spPut a b) := by
  simp [Job.spStore, inside]

/-- A word without a destination that leaves its job as `j2` and nothing else. -/
theorem scalarWord_setJob {s s1 : State} {h : Hdr} {uses : List Src} {first : Option Src} {c : Cursor} {j j2 : Job}
    {op : Cursor → Job → State → WRes} {v : Word} {nx : Option Word} (run : Runs s h uses none c j s1)
    (res : op c j s1 = .ok (s1.setJob c.job j2) v nx) :
    scalarWord h uses first none op s = .next (issued s1 c h.sig j2 v nx) := by
  obtain ⟨lt, _⟩ := List.getElem?_eq_some_iff.1 run.1.job
  rw [scalarWord_ok (d := none) (j2 := j2) run res run.1.cursor (by simp [lt])]
  simp [issued, State.setJob, List.set_set]

/-- Settles O16: the load's bytes and the store's job. -/
theorem scratchpadLoadAndStore : Obligations.ScratchpadLoadAndStore := by
  unfold Obligations.ScratchpadLoadAndStore
  intro s h d x a size sgn off c j s1 at' n slot inside
  refine ⟨fun run sound => ?load, fun run => ?store⟩
  case load =>
    intro raw v
    change execLds h d a size sgn off s = _
    refine scalarWord_ok (d := some d) run ?_ run.1.cursor run.1.job
    have bytes : j.spLoad c.slot (smAddr (c.regs.src a) off).toNat (sizeBytes size) = _ := slot ▸ spLoad_inside inside sound
    rw [bytes]
    exact congrArg (WRes.ok s1 · none) (extendLoad_eq sgn (by simp) (sizeBytes_pos size) (sizeBytes_le size))
  case store =>
    change execSts h x a size off s = _
    have length : (leBytes n (c.regs.src x).toNat).length = n := length_leBytes ..
    have put : j.spStore c.slot (smAddr (c.regs.src a) off).toNat (leBytes (sizeBytes size) (c.regs.src x).toNat) =
        .ok (j.spPut at' (leBytes n (c.regs.src x).toNat)) := by
      rw [slot]
      exact spStore_inside (length.symm ▸ inside)
    refine (scalarWord_setJob (v := c.value) (nx := none) run (by simp only [put]; rfl)).trans ?_
    rw [Job.spPut, length, leBytes_word]
    rfl

end Sys2Proof.Machine
end

section
/-! SUPPORT. LD and ST of a stream where their access comes to its result; and a store inside one line of device memory. -/

namespace Sys2Proof.Machine

/-! ### The agent of a stream's word -/

theorem Cursor.who_core {c : Cursor} (j : Job) (slot : c.slot = none) : (c.who j).core = j.core := by
  simp [Cursor.who, whoOf, slot, Job.coreOf]

theorem Cursor.who_slot {c : Cursor} (j : Job) (slot : c.slot = none) : (c.who j).slot = none := slot

theorem Cursor.who_job (c : Cursor) (j : Job) : (c.who j).job = c.job := rfl

theorem Job.speculative_stream (j : Job) : j.speculative none = false := rfl

theorem seeOwn_stream {w : Who} (slot : w.slot = none) (s : State) (j : Job) (va : Word) (b : List Byte) : seeOwn s w j va b = b := by
  simp [seeOwn, slot, Job.iter?]

/-- Whether an ordering at team scope or wider stands in a word. -/
def ordWide (ord : MemOrd) : Bool := ordIs ord && scopeWide (ordScope ord)

theorem ordWide_eq (ord : MemOrd) : ordWide ord = match ord with | .rlx _ => false | .ordered sc _ => scopeWide sc := by
  cases ord <;> rfl

theorem ordHeld_of_wide {s : State} {core : Nat} {ord : MemOrd} (free : ordWide ord = true → s.l1Held core = false) :
    (ordIs ord && s.ordHeld core (ordScope ord)) = false := by
  rw [State.ordHeld, ← Bool.and_assoc, ← ordWide]
  cases wide : ordWide ord
  · rfl
  · rw [free wide]
    rfl

/-- The acquire part of a load. -/
theorem acquires_eq (s : State) (core : Nat) (ord : MemOrd) :
    (if ordIs ord then s.acquireAt core (ordScope ord) else s) = if ordWide ord then s.l1Acquire core else s := by
  unfold State.acquireAt ordWide
  cases ordIs ord <;> simp

theorem acquires_accessed (s : State) (core : Nat) (ord : MemOrd) :
    Accessed s (if ordIs ord then s.acquireAt core (ordScope ord) else s) :=
  .ite (acquireAt_accessed ..) (.refl s)

theorem readVia_ok_accessed {s t : State} {w : Who} {va : Word} {n : Nat} {acq : Bool} {b : List Byte}
    (read : s.readVia w va n acq = .ok t b) : Accessed s t := by
  have acc := readVia_accessed s w va n acq
  rwa [read] at acc

section Access

variable {s s1 s2 : State} {h : Hdr} {d : Dest} {x a : Src} {size : BitVec 2} {sgn : Bool} {ord : MemOrd} {c : Cursor} {j : Job}
  {va : Word} (is : c.regs.src a + ordOffset ord = va) (slot : c.slot = none)
  (free : ordWide ord = true → s1.l1Held j.core = false)

include is slot free

/-! ### LD (R113, R262, R265) -/

/-- LD on paths 0x0 to 0x5 whose access reads `b`. -/
theorem execLd_reads {b : List Byte} (run : Runs s h [a] (some d) c j s1) (fits : ordIs ord = true → va.toNat % sizeBytes size = 0)
    (low : va.toNat < 6 * 2 ^ 56)
    (read : s1.readVia (c.who j) va (sizeBytes size) (ordWide ord || (ordIs ord && decide (va.toNat / 2 ^ 56 = 1))) = .ok s2 b) :
    execLd h d a size sgn ord s =
      .next (issued (if ordWide ord then s2.l1Acquire j.core else s2) c h.sig (j.put c d (extendLoad sgn b)) (extendLoad sgn b) none) := by
  have path : pathOf va = va.toNat / 2 ^ 56 := by rw [pathOf_eq]; omega
  have aligned : ¬LdMisaligned (ordIs ord) va.toNat (sizeBytes size) := by
    rintro (⟨ordered, off⟩ | ⟨six, -⟩)
    · exact off (fits ordered)
    · omega
  have within : badPointer va = false := by rw [badPointer_eq]; exact decide_eq_false (by omega)
  have memory : ¬pathOf va = 6 := by omega
  have home : (ordIs ord && (scopeWide (ordScope ord) || pathOf va == 1)) = (ordWide ord || (ordIs ord && decide (va.toNat / 2 ^ 56 = 1))) := by
    rw [path, ordWide, Bool.and_or_distrib_left]
    rfl
  have after := (readVia_ok_accessed read).trans (acquires_accessed s2 j.core ord)
  rw [← acquires_eq]
  refine scalarWord_ok (d := some d) run ?_ (after.cursor.trans run.1.cursor) (after.jobs ▸ run.1.job)
  simp only [is, if_neg (mt (ldMisaligned_iff ..).1 aligned), within, if_neg memory, Bool.false_eq_true, if_false, Cursor.who_core j slot, ordHeld_of_wide free, slot,
    Job.speculative_stream, Bool.false_and, home, read, ofAccess, seeOwn_stream (Cursor.who_slot j slot)]

/-- LD on path 0x6 yields the register read. -/
theorem execLd_control {v : Word} (run : Runs s h [a] (some d) c j s1) (path : va.toNat / 2 ^ 56 = 6) (eight : sizeBytes size = 8)
    (fits : va.toNat % 8 = 0) (answers : s1.controlRead j none (va.toNat % 2 ^ 56) = some v) :
    execLd h d a size sgn ord s =
      .next (issued (if ordWide ord then s1.l1Acquire j.core else s1) c h.sig (j.put c d v) v none) := by
  have six : pathOf va = 6 := ((onPath_iff (by decide)).2 path).1
  have aligned : ¬LdMisaligned (ordIs ord) va.toNat (sizeBytes size) := by
    rw [eight]
    rintro (⟨-, off⟩ | ⟨-, off | off⟩)
    · exact off fits
    · exact off rfl
    · exact off fits
  have within : badPointer va = false := by rw [badPointer_eq]; exact decide_eq_false (by omega)
  have after := acquires_accessed s1 j.core ord
  rw [← acquires_eq]
  refine scalarWord_ok (d := some d) run ?_ (after.cursor.trans run.1.cursor) (after.jobs ▸ run.1.job)
  simp only [is, if_neg (mt (ldMisaligned_iff ..).1 aligned)]
  simp only [within, six, Bool.false_eq_true, if_false, if_true, Cursor.who_core j slot, slot, answers,
    ordHeld_of_wide free]

end Access

/-- Settles O19: a load by what its access reads, and the load of a register. -/
theorem loadYieldsBytesRead : Obligations.LoadYieldsBytesRead := by
  unfold Obligations.LoadYieldsBytesRead
  intro s h d a size sgn ord c j s1 s2 b va n acq wide run slot fits free
  have is : c.regs.src a + ordOffset ord = va := by cases ord <;> rfl
  have wide_eq : ordWide ord = wide := ordWide_eq ord
  have acq_eq : ordIs ord = acq := by cases ord <;> rfl
  clear_value va wide acq
  subst wide_eq acq_eq
  refine ⟨fun low read len => ?memory, fun v path eight aligned answers => ?control⟩
  case memory =>
    intro raw v
    have value : extendLoad sgn b = v := extendLoad_eq sgn len (sizeBytes_pos size) (sizeBytes_le size)
    exact value ▸ execLd_reads is slot free run fits low read
  case control =>
    exact execLd_control is slot free run path eight aligned answers

end Sys2Proof.Machine
end

section
/-! SUPPORT. ST of a stream by what its access writes; the job's own scratchpad by path 0x3; and an access inside one line of a page of
device memory. -/

namespace Sys2Proof.Machine

/-! ### What a store's access keeps -/

theorem scratchWrite_ok_cursor {s t : State} {w : Who} {va : Word} {b : List Byte} (wrote : s.scratchWrite w va b = .ok t ()) :
    t.cursor = s.cursor := by
  unfold State.scratchWrite at wrote
  repeat' split at wrote
  all_goals cases wrote
  all_goals rfl

theorem writeVia_ok_cursor {s t : State} {w : Who} {va : Word} {b : List Byte} {home : Bool} (wrote : s.writeVia w va b home = .ok t ()) :
    t.cursor = s.cursor := by
  unfold State.writeVia at wrote
  split at wrote
  · exact scratchWrite_ok_cursor wrote
  · have acc := memWrite_accessed s w va b home
    rw [wrote] at acc
    exact acc.cursor

/-! ### ST (R113, R262) -/

/-- The state a store's access starts from: after the release its ordering asks for. -/
def State.released (s : State) (core : Nat) (ord : MemOrd) : State := if ordWide ord then s.l1Release core else s

theorem State.released_accessed (s : State) (core : Nat) (ord : MemOrd) : Accessed s (s.released core ord) :=
  .ite (l1Release_accessed ..) (.refl s)

/-- ST on paths 0x0 to 0x5 but 0x1 does what its access does. -/
theorem execSt_writes {s s1 s2 : State} {h : Hdr} {x a : Src} {size : BitVec 2} {ord : MemOrd} {c : Cursor} {j k : Job} {va : Word}
    (is : c.regs.src a + ordOffset ord = va) (slot : c.slot = none) (free : ordWide ord = true → s1.l1Held j.core = false)
    (run : Runs s h [x, a] none c j s1) (fits : ordIs ord = true → va.toNat % sizeBytes size = 0) (low : va.toNat < 6 * 2 ^ 56)
    (path : va.toNat / 2 ^ 56 ≠ 1)
    (wrote : (s1.released j.core ord).writeVia (c.who j) va (leBytes (sizeBytes size) (c.regs.src x).toNat) (ordWide ord) = .ok s2 ())
    (job : s2.jobs[c.job]? = some k) :
    execSt h x a size ord s = .next (issued s2 c h.sig k c.value none) := by
  have aligned : ¬(ordIs ord = true ∧ va.toNat % sizeBytes size ≠ 0) := fun off => off.2 (fits off.1)
  have allowed : ¬(badPointer va = true ∨ pathOf va = 6) := by
    rw [badPointer_eq, decide_eq_true_eq, pathOf_eq]
    omega
  have writable : ¬pathOf va = 1 := by rw [pathOf_eq]; omega
  refine scalarWord_ok (d := none) run ?_
    ((writeVia_ok_cursor wrote).trans ((s1.released_accessed j.core ord).cursor.trans run.1.cursor)) job
  simp only [is, if_neg aligned, if_neg allowed, if_neg writable, slot, Job.speculative_stream, Bool.false_eq_true, if_false,
    Cursor.who_core j slot, ordHeld_of_wide free]
  change ofAccess true c (c.who j) s1 ((s1.released j.core ord).writeVia (c.who j) va _ (ordWide ord)) _ = _
  rw [wrote]
  rfl

/-! ### Path 0x3 (R261) -/

theorem isScratchPath_at {va : Word} {k : Nat} (path : va.toNat / 2 ^ 56 = k) :
    isScratchPath va = (decide (3 ≤ k) && decide (k ≤ 5)) := by
  rw [isScratchPath, path]

/-- A store to the job's own scratchpad, inside its windows. -/
theorem scratchWrite_own {s : State} {w : Who} {va : Word} {b : List Byte} {j : Job} (job : s.jobs[w.job]? = some j)
    (slot : w.slot = none) (path : va.toNat / 2 ^ 56 = 3) (small : va.toNat % 2 ^ 56 < 2 ^ 22)
    (inside : j.spanOk (va.toNat % 2 ^ 56) b.length = true) :
    s.scratchWrite w va b = .ok (s.setJob w.job (j.spPut (va.toNat % 2 ^ 56) b)) () := by
  have target : scratchTarget w.core va = some (w.core, va.toNat % 2 ^ 56) := by
    simp only [scratchTarget, path, Nat.reduceMod, if_pos small, Nat.mod_eq_of_lt small]
  simp only [State.scratchWrite, target, true_or, if_true, job, slot, spStore_inside inside]

/-! ### Inside one line (R115, R186) -/

theorem linesOf_one {va n : Nat} (pos : 0 < n) (inside : va % 64 + n ≤ 64) : linesOf va n = [(va, n)] := by
  have one : min n (64 - va % 64) = n := by omega
  rw [linesOf, cutLines, if_neg (by omega), one]
  dsimp only
  rw [Nat.sub_self]
  cases f : n / 64 + 1 <;> rfl

theorem onPath_self (va : Word) : onPath va (va.toNat % 2 ^ 56) = va := by
  refine BitVec.eq_of_toNat_eq ?_
  have lt := va.isLt
  rw [onPath, BitVec.toNat_ofNat]
  omega

theorem modCore_mem (s : State) (c : Nat) (f : Core → Core) : (s.modCore c f).mem = s.mem := by
  unfold State.modCore
  split <;> rfl

theorem modCore_memBad (s : State) (c : Nat) (f : Core → Core) : (s.modCore c f).memBad = s.memBad := by
  unfold State.modCore
  split <;> rfl

/-- What a page's part must be for a store to reach it at once. -/
def Reachable (s : State) (p : Phys) : Prop :=
  pteHost p.leaf = false ∧ s.noHome p.pa = false ∧ s.flash.retired.contains (p.pa / 2 ^ 16) = false

theorem partFault_none {s : State} {p : Phys} (reach : Reachable s p) : s.partFault true p = none := by
  obtain ⟨device, home, sound⟩ := reach
  simp only [State.partFault, device, home, sound, Bool.false_eq_true, if_false, Bool.and_false]

/-- A store inside one line of a page that can be reached writes that part. -/
theorem memWrite_inLine {s s2 : State} {w : Who} {va : Word} {b : List Byte} {home : Bool} {p : Phys} (new : w.parts = [])
    (pos : 0 < b.length) (inside : va.toNat % 64 + b.length ≤ 64) (walk : s.translate w va .write = .ok s2 p)
    (reach : Reachable s2 p) :
    s.memWrite w va b home = ((s2.writePart w (va.toNat / 2 ^ 56) home p b).bind fun t _ => .ok t ()).latch s2 [(p, b.length)] := by
  have line : linesOf (va.toNat % 2 ^ 56) b.length = [(va.toNat % 2 ^ 56, b.length)] := linesOf_one pos (by omega)
  have parts : s.partsOf w va b.length .write = .ok s2 [(p, b.length)] := by
    simp only [State.partsOf, new, List.isEmpty_nil, if_true, line, State.translateAll, onPath_self, walk, MRes.bind]
  have reached : s.reachAll w va b.length true = .ok s2 [(p, b.length)] := by
    simp [State.reachAll, parts, MRes.bind, partFault_none reach]
  rw [State.memWrite, reached]
  simp only [MRes.bind, State.writeAll, List.take_length]

/-- An L1 without the line is fit for any mapping of it. -/
theorem l1Fit_absent {s : State} {w : Who} {p : Phys} (none' : s.l1Find w.core p.pa = none) : s.l1Fit w false p = s := by
  simp [State.l1Fit, State.l1Drop, none']

/-- Past the L1, where it holds no copy, the bytes go home. -/
theorem writePart_past {s : State} {w : Who} {p : Phys} {b : List Byte} (reach : Reachable s p) (path : Nat) (far : path ≠ 0)
    (none' : s.l1Find w.core p.pa = none) (alone : s.hostHolds p.pa b.length = false) :
    s.writePart w path false p b = .ok (s.writePhys p.pa b) () := by
  have home : s.homeWrite p.pa b = .ok (s.writePhys p.pa b) () := by
    simp only [State.homeWrite, alone, Bool.false_eq_true, if_false]
  simp [State.writePart, reach.1, partFault_none reach, l1Fit_absent none', none', far, home]

/-- A held line of an L1-cacheable page of its kind takes the bytes on path 0x0. -/
theorem writePart_held {s : State} {w : Who} {p : Phys} {b : List Byte} {l : L1Line} (reach : Reachable s p)
    (held : s.l1Find w.core p.pa = some l) (cached : cacheable p.leaf = true) (kind : l.uo = true → pteOrd p.leaf = 2)
    (alone : s.hostHolds p.pa b.length = false) :
    s.writePart w 0 false p b =
      .ok { s.l1Write w.core p.pa b true with memBad := clearBad (s.l1Write w.core p.pa b true).memBad p.pa b.length } () := by
  have own : (l.uo && pteOrd p.leaf != 2) = false := by
    cases uo : l.uo
    · rfl
    · simp [kind uo]
  have fit : s.l1Fit w false p = s := by
    have keep : (pteL1c p.leaf && pteOrd p.leaf != 1) = true := cached
    simp only [State.l1Fit, held, own, keep, Bool.not_true, Bool.or_false, Bool.false_eq_true, if_false]
  have fill : s.l1Fill w p.pa p.leaf = s := by simp [State.l1Fill, held]
  simp [State.writePart, reach.1, partFault_none reach, fit, cached, alone, fill]

section Line

variable {s s2 : State} {w : Who} {va : Word} {b : List Byte} {p : Phys} (new : w.parts = []) (pos : 0 < b.length)
  (inside : va.toNat % 64 + b.length ≤ 64) (walk : s.translate w va .write = .ok s2 p) (reach : Reachable s2 p)
  (alone : s2.hostHolds p.pa b.length = false)

include new pos inside walk reach alone

/-- A store inside one line on path 0x2, of which the L1 holds no copy. -/
theorem writeVia_past (path : va.toNat / 2 ^ 56 = 2) (absent : s2.l1Find w.core p.pa = none) :
    s.writeVia w va b false = .ok (s2.writePhys p.pa b) () := by
  have memory : isScratchPath va = false := isScratchPath_at path
  rw [State.writeVia, memory, if_neg Bool.false_ne_true, memWrite_inLine new pos inside walk reach, path,
    writePart_past reach 2 (by decide) absent alone]
  rfl

/-- A store inside one line on path 0x0, which the L1 holds. -/
theorem writeVia_held {l : L1Line} (path : va.toNat / 2 ^ 56 = 0) (held : s2.l1Find w.core p.pa = some l)
    (cached : cacheable p.leaf = true) (kind : l.uo = true → pteOrd p.leaf = 2) :
    s.writeVia w va b false = .ok { s2.l1Write w.core p.pa b true with memBad := clearBad s2.memBad p.pa b.length } () := by
  have memory : isScratchPath va = false := isScratchPath_at path
  have bad : (s2.l1Write w.core p.pa b true).memBad = s2.memBad := modCore_memBad ..
  rw [State.writeVia, memory, if_neg Bool.false_ne_true, memWrite_inLine new pos inside walk reach, path,
    writePart_held reach held cached kind alone, bad]
  rfl

end Line

/-- Settles O20: a store by its access, in the job's own scratchpad, and inside a line past the L1 or in it. -/
theorem storesGoWhereTheirPathSays : Obligations.StoresGoWhereTheirPathSays := by
  unfold Obligations.StoresGoWhereTheirPathSays
  intro s h x a size ord c j s1 va n wide rel data run slot fits free
  have is : c.regs.src a + ordOffset ord = va := by cases ord <;> rfl
  have wide_eq : ordWide ord = wide := ordWide_eq ord
  have data_eq : leBytes n (c.regs.src x).toNat = data := leBytes_word ..
  have length : data.length = n := by rw [← data_eq]; exact length_leBytes ..
  have rel_eq : s1.released j.core ord = rel := by rw [State.released, wide_eq]
  have core : (c.who j).core = j.core := Cursor.who_core j slot
  have stores {s2 : State} {k : Job} (low : va.toNat < 6 * 2 ^ 56) (path : va.toNat / 2 ^ 56 ≠ 1)
      (wrote : rel.writeVia (c.who j) va data wide = .ok s2 ()) (job : s2.jobs[c.job]? = some k) :
      exec (.st h x a size ord) s = .next (issued s2 c h.sig k c.value none) := by
    rw [← rel_eq, ← data_eq, ← wide_eq] at wrote
    exact execSt_writes is slot (wide_eq ▸ free) run fits low path wrote job
  refine ⟨fun s2 k => stores, fun path small inside => ?own, fun s2 p loose new inside walk device home sound alone => ?line⟩
  case own =>
    have scratch : isScratchPath va = true := isScratchPath_at path
    have job : rel.jobs[c.job]? = some j := rel_eq ▸ (s1.released_accessed j.core ord).jobs ▸ run.1.job
    obtain ⟨lt, _⟩ := List.getElem?_eq_some_iff.1 job
    have wrote : rel.writeVia (c.who j) va data wide = .ok (rel.setJob c.job (j.spPut (va.toNat % 2 ^ 56) data)) () := by
      rw [State.writeVia, if_pos scratch]
      exact scratchWrite_own job slot path small (length.symm ▸ inside)
    rw [stores (by omega) (by omega) wrote (k := j.spPut (va.toNat % 2 ^ 56) data) (by simp [lt])]
    simp only [issued, State.setJob, List.set_set, Job.spPut, length]
    rfl
  case line =>
    have plain : wide = false := by rw [← wide_eq, ordWide, loose]; rfl
    have start : rel = s1 := if_neg (by rw [plain]; exact Bool.false_ne_true)
    have fresh : (c.who j).parts = [] := by
      have idle : (j.regs c.stream c.slot).out = none := by rw [slot]; exact new
      simp [Cursor.who, idle]
    have acc := translate_accessed s1 (c.who j) va .write
    rw [walk] at acc
    have job : s2.jobs[c.job]? = some j := acc.jobs ▸ run.1.job
    have pos : 0 < data.length := length ▸ sizeBytes_pos size
    rw [← length] at inside alone
    rw [start, plain] at stores
    rw [← core, ← length]
    refine ⟨fun path absent => ⟨?past, fun canonical => cellGet_cellPutN canonical p.pa data⟩, fun l path held cached kind => ?near⟩
    case past =>
      exact stores (by omega) (by omega) (writeVia_past fresh pos inside walk ⟨device, home, sound⟩ alone path absent) job
    case near =>
      have wrote := writeVia_held fresh pos inside walk ⟨device, home, sound⟩ alone path held cached kind
      exact ⟨stores (by omega) (by omega) wrote ((modCore_accessed s2 _ _).jobs ▸ job), modCore_mem ..⟩

end Sys2Proof.Machine
end

section

/-! SUPPORT. Canonical memory through results. A word, an access and a step answer with a state inside a `WRes`, an
`MRes`, a `Host.Outcome` or an `Option`; each has one predicate here that says every state it carries has canonical memory
(log 4), and the rules that take such a result apart. -/

namespace Sys2Proof.Machine

variable {s t : State} {α β : Type}

/-- Every state a word's own computation answers with has canonical memory. -/
def WRes.Wf : WRes → Prop
  | .ok s _ _ | .fail s _ | .stop s => Memory.wf s.mem
  | .trap .. | .stall => True

/-- Every state an access answers with has canonical memory. -/
def MRes.Wf : MRes α → Prop
  | .ok s _ | .fault s _ | .susp s .. | .hold s .. => Memory.wf s.mem

/-- The next state, where there is one, has canonical memory. -/
def NextWf : Host.Outcome State Fault Refusal → Prop
  | .next s => Memory.wf s.mem
  | .fault _ | .refused _ => True

/-- The state, where there is one, has canonical memory. -/
def OptWf : Option State → Prop
  | some s => Memory.wf s.mem
  | none => True

/-- Every state an access of the Launch Unit answers with has canonical memory. -/
def LuRes.Wf : LuRes α → Prop
  | .ok s _ | .wait s => Memory.wf s.mem
  | .fail .. => True

/-- What a command word comes to carries states of canonical memory only. -/
def CmdRes.Wf : CmdRes → Prop
  | .go s _ => Memory.wf s.mem
  | .res r => r.Wf

/-- What a turn to issue comes to carries states of canonical memory only. -/
def IssueRes.Wf : IssueRes → Prop
  | .idle s | .run s _ => Memory.wf s.mem

/-- The word's result, where there is one, carries states of canonical memory only. -/
def ResWf : Option WRes → Prop
  | some r => r.Wf
  | none => True

/-- The state of the pair, where there is one, has canonical memory. -/
def PairWf : Option (State × α) → Prop
  | some p => Memory.wf p.1.mem
  | none => True

/-! ### Taking a result apart -/

theorem MRes.Ok.wf {r : MRes α} (h : r.Ok s) (w : Memory.wf s.mem) : r.Wf := by
  cases r <;> exact h.mem w

theorem MRes.Wf.ok {r : MRes α} {x : α} (h : r.Wf) (e : r = .ok t x) : Memory.wf t.mem := by subst e; exact h

theorem MRes.Wf.fault {r : MRes α} {x : BitVec 8} (h : r.Wf) (e : r = .fault t x) : Memory.wf t.mem := by subst e; exact h

theorem MRes.Wf.susp {r : MRes α} {va : Word} {k : FaultKind} {l : Nat} (h : r.Wf) (e : r = .susp t va k l) :
    Memory.wf t.mem := by subst e; exact h

theorem MRes.Wf.hold {r : MRes α} {q : Option CxlReq} {l : List (Phys × Nat)} (h : r.Wf) (e : r = .hold t q l) :
    Memory.wf t.mem := by subst e; exact h

theorem WRes.Wf.ok {r : WRes} {v : Word} {n : Option Word} (h : r.Wf) (e : r = .ok t v n) : Memory.wf t.mem := by
  subst e; exact h

theorem WRes.Wf.fail {r : WRes} {x : BitVec 8} (h : r.Wf) (e : r = .fail t x) : Memory.wf t.mem := by subst e; exact h

theorem WRes.Wf.stop {r : WRes} (h : r.Wf) (e : r = .stop t) : Memory.wf t.mem := by subst e; exact h

theorem NextWf.next {r : Host.Outcome State Fault Refusal} (h : NextWf r) (e : r = .next t) : Memory.wf t.mem := by
  subst e; exact h

theorem OptWf.some {r : Option State} (h : OptWf r) (e : r = some t) : Memory.wf t.mem := by subst e; exact h

theorem LuRes.Wf.ok {r : LuRes α} {x : α} (h : r.Wf) (e : r = .ok t x) : Memory.wf t.mem := by subst e; exact h

theorem LuRes.Wf.wait {r : LuRes α} (h : r.Wf) (e : r = .wait t) : Memory.wf t.mem := by subst e; exact h

theorem CmdRes.Wf.go {r : CmdRes} {c : Cmd} (h : r.Wf) (e : r = .go t c) : Memory.wf t.mem := by subst e; exact h

theorem CmdRes.Wf.res {r : CmdRes} {q : WRes} (h : r.Wf) (e : r = .res q) : q.Wf := by subst e; exact h

theorem IssueRes.Wf.idle {r : IssueRes} (h : r.Wf) (e : r = .idle t) : Memory.wf t.mem := by subst e; exact h

theorem IssueRes.Wf.run {r : IssueRes} {l : List Instr} (h : r.Wf) (e : r = .run t l) : Memory.wf t.mem := by
  subst e; exact h

theorem ResWf.some {o : Option WRes} {q : WRes} (h : ResWf o) (e : o = some q) : q.Wf := by subst e; exact h

theorem PairWf.some {o : Option (State × α)} {x : α} (h : PairWf o) (e : o = some (t, x)) : Memory.wf t.mem := by
  subst e; exact h

theorem fst_wf {p : State × α} {x : α} (h : Memory.wf p.1.mem) (e : p = (t, x)) : Memory.wf t.mem := by subst e; exact h

/-! ### Combinators -/

theorem raise_wf {e : BitVec 8} : (WRes.raise e).Wf := trivial

theorem bind_wf {r : MRes α} {f : State → α → MRes β} (h : r.Wf) (k : ∀ t x, Memory.wf t.mem → (f t x).Wf) :
    (r.bind f).Wf := by
  cases r with
  | ok t x => exact k t x h
  | fault | susp | hold => exact h

theorem latch_wf {r : MRes α} {l : List (Phys × Nat)} (w : Memory.wf s.mem) (h : r.Wf) : (r.latch s l).Wf := by
  cases r with
  | hold => exact w
  | _ => exact h

theorem foldState_wf {l : List α} {f : State → α → State} (w : Memory.wf s.mem)
    (k : ∀ t a, Memory.wf t.mem → Memory.wf (f t a).mem) : Memory.wf (l.foldl f s).mem := by
  induction l generalizing s with
  | nil => exact w
  | cons a l ih => exact ih (k s a w)

theorem ite_wf {c : Prop} [Decidable c] (h : Memory.wf s.mem) (k : Memory.wf t.mem) :
    Memory.wf (if c then s else t).mem := by
  split
  · exact h
  · exact k

theorem ite_wresWf {c : Prop} [Decidable c] {r q : WRes} (h : r.Wf) (k : q.Wf) : (if c then r else q).Wf := by
  split
  · exact h
  · exact k

theorem ite_mresWf {c : Prop} [Decidable c] {r q : MRes α} (h : r.Wf) (k : q.Wf) : (if c then r else q).Wf := by
  split
  · exact h
  · exact k

theorem ite_nextWf {c : Prop} [Decidable c] {r q : Host.Outcome State Fault Refusal} (h : NextWf r) (k : NextWf q) :
    NextWf (if c then r else q) := by
  split
  · exact h
  · exact k

theorem ite_optWf {c : Prop} [Decidable c] {r q : Option State} (h : OptWf r) (k : OptWf q) :
    OptWf (if c then r else q) := by
  split
  · exact h
  · exact k

theorem ite_fstWf {c : Prop} [Decidable c] {p q : State × α} (h : Memory.wf p.1.mem) (k : Memory.wf q.1.mem) :
    Memory.wf (if c then p else q).1.mem := by
  split
  · exact h
  · exact k

theorem getD_wf {o : Option State} (h : OptWf o) (w : Memory.wf s.mem) : Memory.wf (o.getD s).mem := by
  cases o with
  | none => exact w
  | some t => exact h

end Sys2Proof.Machine
end

section

/-! SUPPORT. A word keeps memory canonical: entering it, absorbing its result, its trap, its retirement, and the
shells that every word of a stream runs in. Device memory is written in few places (`State.writePhys` and the
operations on whole frames); each lemma here says that one function of the model leaves it canonical, in the order of
the definitions. -/

namespace Sys2Proof.Machine

theorem absorb_wf {s : State} {c r} (w : Memory.wf s.mem) (w1 : r.Wf) : Memory.wf (s.absorb c r).mem := by
  unfold State.absorb
  split
  · exact ite_wf w w1
  · exact w
  · exact ite_wf w w1
  · exact w
  · exact ite_wf w w1

theorem setJob_wf {s : State} {n j} (w : Memory.wf s.mem) : Memory.wf (s.setJob n j).mem :=
  w

theorem enter_wf {s : State} {c who} (w : Memory.wf s.mem) : Memory.wf (s.enter c who).mem := by
  unfold State.enter
  refine ite_wf w ?_
  split
  · exact w
  · refine ite_wf w (ite_wf w ?_)
    split <;> exact w

theorem rollback_wf {s : State} {c} (w : Memory.wf s.mem) : Memory.wf (s.rollback c).mem :=
  w

theorem modJob_wf {s : State} {n f} (w : Memory.wf s.mem) : Memory.wf (s.modJob n f).mem := by
  unfold State.modJob
  split <;> exact w

theorem modRegs_wf {s : State} {n x slot f} (w : Memory.wf s.mem) : Memory.wf (s.modRegs n x slot f).mem :=
  modJob_wf w

theorem freeCore_wf {s : State} {n j} (w : Memory.wf s.mem) : Memory.wf (s.freeCore n j).mem :=
  foldState_wf ((modCore_accessed ..).mem w) fun _ _ w1 => (modCore_accessed ..).mem w1

theorem abortMember_wf {s : State} {n x r i} (w : Memory.wf s.mem) : Memory.wf (s.abortMember n x r i).mem := by
  unfold State.abortMember
  split
  · exact w
  · exact ite_wf w (setJob_wf ((modCore_accessed ..).mem (freeCore_wf w)))

theorem modPart_wf {s : State} {p f} (w : Memory.wf s.mem) : Memory.wf (s.modPart p f).mem := by
  unfold State.modPart
  split <;> exact w

theorem modLaunch_wf {s : State} {p q f} (w : Memory.wf s.mem) : Memory.wf (s.modLaunch p q f).mem :=
  modPart_wf w

theorem abortAt_wf {s : State} {n core x r} (w : Memory.wf s.mem) : Memory.wf (s.abortAt n core x r).mem := by
  unfold State.abortAt
  split
  · exact w
  · exact modLaunch_wf (foldState_wf w fun _ _ w1 => abortMember_wf w1)

theorem takeTrap_wf {s : State} {n x slot r} (w : Memory.wf s.mem) : Memory.wf (s.takeTrap n x slot r).mem := by
  unfold State.takeTrap
  extract_lets _ s0 s1
  have w1 : Memory.wf s0.mem := ite_wf ((reportUe_accessed ..).mem w) w
  have w2 : Memory.wf s1.mem := modRegs_wf w1
  split
  · exact w2
  · exact ite_wf (abortAt_wf w2) (setJob_wf w2)

theorem raiseAt_wf {s : State} {c r} (w : Memory.wf s.mem) : Memory.wf (s.raiseAt c r).mem := by
  unfold State.raiseAt
  split
  · exact takeTrap_wf w
  · split
    · exact w
    · split
      · exact w
      · split
        · exact takeTrap_wf w
        · exact modJob_wf w
        · exact modJob_wf w

theorem finishWord_wf {s : State} {c sig} (w : Memory.wf s.mem) : Memory.wf (s.finishWord c sig).mem := by
  unfold State.finishWord
  dsimp only
  split
  · exact modRegs_wf w
  · exact modJob_wf (modRegs_wf w)

theorem close_wf {s : State} {sig} (w : Memory.wf s.mem) : Memory.wf (s.close sig).mem := by
  unfold State.close
  split
  · exact w
  · refine ite_wf (rollback_wf w) ?_
    split
    · exact raiseAt_wf (rollback_wf w)
    · exact finishWord_wf w

theorem advance_wf {s : State} (w : Memory.wf s.mem) : Memory.wf s.advance.mem := by
  unfold State.advance
  split <;> exact w

theorem runWord_wf {s : State} {wait sig last body} (w : Memory.wf s.mem)
    (k : ∀ c j t, Memory.wf t.mem → (body c j t).Wf) : NextWf (runWord wait sig last body s) := by
  unfold runWord
  split
  · exact trivial
  · split
    · exact trivial
    · extract_lets s1 s2
      have w1 : Memory.wf s1.mem := ite_wf (absorb_wf w raise_wf) (enter_wf w)
      have w2 : Memory.wf s2.mem := by
        dsimp only [s2]
        split
        · exact w1
        · refine ite_wf w1 ?_
          split
          · exact w1
          · exact absorb_wf w1 (k _ _ _ w1)
      exact ite_wf (close_wf w2) (advance_wf w2)

theorem scalarBody_wf {s : State} {h yields uses first d op c j} (w : Memory.wf s.mem)
    (k : ∀ c j t, Memory.wf t.mem → (op c j t).Wf) : (scalarBody h yields uses first d op c j s).Wf := by
  unfold scalarBody
  refine ite_wresWf (ite_wresWf trivial ?_) <| ite_wresWf trivial <| ite_wf (modRegs_wf w) w
  split
  next e =>
    have w1 := (k _ _ _ w).ok e
    change Memory.wf _
    split
    · exact modRegs_wf w1
    · exact w1
  · exact k _ _ _ w

theorem scalarWord_wf {s : State} {h uses first d op} (w : Memory.wf s.mem)
    (k : ∀ c j t, Memory.wf t.mem → (op c j t).Wf) : NextWf (scalarWord h uses first d op s) :=
  runWord_wf w fun _ _ _ w1 => scalarBody_wf w1 fun _ _ _ w2 => k _ _ _ w2

theorem pureWord_wf {s : State} {h uses first d f} (w : Memory.wf s.mem) : NextWf (pureWord h uses first d f s) :=
  scalarWord_wf w fun _ _ _ w1 => w1

theorem predWord_wf {s : State} {h uses first pd f} (w : Memory.wf s.mem) : NextWf (predWord h uses first pd f s) :=
  runWord_wf w fun _ _ _ w1 => scalarBody_wf w1 fun _ _ _ w2 => modRegs_wf w2

theorem execRet_wf {s : State} {h} (w : Memory.wf s.mem) : NextWf (execRet h s) := by
  unfold execRet
  refine scalarWord_wf w fun c j t w1 => ?_
  split
  · exact trivial
  · exact modRegs_wf w1

theorem execRetReg_wf {s : State} {h a} (w : Memory.wf s.mem) : NextWf (execRetReg h a s) := by
  unfold execRetReg
  refine scalarWord_wf w fun c j t w1 => ?_
  split
  · exact trivial
  · exact ite_wresWf raise_wf (modRegs_wf w1)

theorem raiseOwn_wf {s : State} {at0 e} (w : Memory.wf s.mem) : (s.raiseOwn at0 e).Wf :=
  ite_wresWf w raise_wf

theorem execLds_wf {s : State} {h d a size sgn off} (w : Memory.wf s.mem) : NextWf (execLds h d a size sgn off s) := by
  unfold execLds
  refine scalarWord_wf w fun c j t w1 => ?_
  split
  · exact w1
  · exact raiseOwn_wf w1
  · exact trivial

theorem execSts_wf {s : State} {h src a size off} (w : Memory.wf s.mem) : NextWf (execSts h src a size off s) := by
  unfold execSts
  refine scalarWord_wf w fun c j t w1 => ?_
  split
  · exact setJob_wf w1
  · exact raise_wf
  · exact trivial

theorem execQpop_wf {s : State} {h d x} (w : Memory.wf s.mem) : NextWf (execQpop h d x s) := by
  unfold execQpop
  refine scalarWord_wf w fun c j t w1 => ite_wresWf raise_wf ?_
  split
  · exact trivial
  · exact modJob_wf w1

theorem deliver_wf {fpctl fpflg} : ResWf (deliver fpctl fpflg) := by
  unfold deliver
  dsimp only
  split <;> exact trivial

theorem deliveryPoint_wf {c j} : ResWf (deliveryPoint c j) := by
  unfold deliveryPoint
  dsimp only
  split
  · exact trivial
  · exact deliver_wf

theorem teamSwapped_wf {s : State} {j} (w : Memory.wf s.mem) : Memory.wf (s.teamSwapped j).mem :=
  modLaunch_wf w

theorem teamProgress_wf {s : State} {j} (w : Memory.wf s.mem) : Memory.wf (s.teamProgress j).mem :=
  modLaunch_wf w

theorem retireJob_wf {s : State} {n} (w : Memory.wf s.mem) : Memory.wf (s.retireJob n).mem := by
  unfold State.retireJob
  split
  · exact w
  · exact teamSwapped_wf (teamProgress_wf (setJob_wf (freeCore_wf ((l1Release_accessed ..).mem w))))

theorem tryRetire_wf {s : State} {n} (w : Memory.wf s.mem) : Memory.wf (s.tryRetire n).mem := by
  unfold State.tryRetire
  split
  · exact w
  · exact ite_wf (retireJob_wf w) w

theorem execJoin_wf {s : State} {h} (w : Memory.wf s.mem) : NextWf (execJoin h s) := by
  unfold execJoin
  refine scalarWord_wf w fun c j t w1 => ite_wresWf raise_wf ?_
  split
  next e => exact deliveryPoint_wf.some e
  · exact tryRetire_wf (modRegs_wf w1)

theorem execCsrr_wf {s : State} {h d csr sel} (w : Memory.wf s.mem) : NextWf (execCsrr h d csr sel s) := by
  unfold execCsrr
  refine scalarWord_wf w fun c j t w1 => ?_
  split
  · exact raise_wf
  · split
    · exact raise_wf
    · exact w1

theorem noteLgate_wf {s : State} {j csr} (w : Memory.wf s.mem) : Memory.wf (noteLgate j csr s).mem :=
  ite_wf ((modCore_accessed ..).mem w) w

theorem execCsrw_wf {s : State} {h d csr sel a} (w : Memory.wf s.mem) : NextWf (execCsrw h d csr sel a s) := by
  unfold execCsrw
  refine scalarWord_wf w fun c j t w1 => ite_wresWf raise_wf ?_
  split
  · exact raise_wf
  · split
    · exact raise_wf
    · split
      · exact raise_wf
      · exact ite_wresWf (noteLgate_wf (modRegs_wf w1)) raise_wf

theorem execIdq_wf {s : State} {h d sel} (w : Memory.wf s.mem) : NextWf (execIdq h d sel s) := by
  unfold execIdq
  refine scalarWord_wf w fun c j t w1 => ?_
  split
  · exact w1
  · exact raise_wf

theorem keepWalks_wf {s t : State} {who} (w : Memory.wf s.mem) : Memory.wf (s.keepWalks who t).mem := by
  unfold State.keepWalks
  refine ite_wf w ((modCore_accessed ..).mem (foldState_wf w fun t1 a w2 => ?_))
  split
  · exact (writePhys_accessed ..).mem w2
  · exact w2

theorem queueFault_wf {s : State} {n} (w : Memory.wf s.mem) : Memory.wf (s.queueFault n).mem := by
  unfold State.queueFault
  split
  · exact w
  · split
    · exact ite_wf w (ite_wf ((sendMsix_accessed ..).mem (modPart_wf (setJob_wf ((writePhys_accessed ..).mem w))))
          (modPart_wf (setJob_wf ((writePhys_accessed ..).mem w))))
    · exact w

theorem suspendJob_wf {s : State} {n f} (w : Memory.wf s.mem) : Memory.wf (s.suspendJob n f).mem :=
  queueFault_wf (modJob_wf w)

end Sys2Proof.Machine
end

section

/-! SUPPORT. Words that access memory keep it canonical: an access suspends its word, faults or answers with a state
that the laws of the accesses (`Accessed`) speak of; atomics, fences, LAUNCH, the Pond and the proof words. -/

namespace Sys2Proof.Machine

theorem ofAccess_wf {α : Type} {s : State} {keep c who} {r : MRes α} {f} (w : Memory.wf s.mem) (h : r.Wf)
    (k : ∀ t x, Memory.wf t.mem → (f t x).Wf) : (ofAccess keep c who s r f).Wf := by
  have kept (t : State) (wt : Memory.wf t.mem) : Memory.wf (if keep then t else s.keepWalks who t).mem :=
    ite_wf wt (keepWalks_wf w)
  unfold ofAccess
  cases r with
  | ok t x => exact k t x h
  | fault t e => exact kept t h
  | susp t va kind l =>
    refine ite_wresWf (kept t h) ?_
    split
    · exact raise_wf
    · exact ite_wresWf (kept t h) (suspendJob_wf (rollback_wf (kept t h)))
  | hold t q l => exact modRegs_wf (rollback_wf (kept t h))

theorem waits_wf {s : State} {c who} (w : Memory.wf s.mem) : (waits c who s).Wf :=
  ofAccess_wf w w fun _ _ w1 => w1

theorem execLd_wf {s : State} {h d a size sgn ord} (w : Memory.wf s.mem) : NextWf (execLd h d a size sgn ord s) := by
  unfold execLd
  refine scalarWord_wf w fun c j t w1 => ite_wresWf raise_wf <| ite_wresWf raise_wf <| ite_wresWf ?_ <|
      ite_wresWf (waits_wf w1) <| ite_wresWf trivial (ofAccess_wf w1 ((readVia_accessed ..).wf w1) fun _ _ w2 =>
      ite_wf ((acquireAt_accessed ..).mem w2) w2)
  split
  · exact ite_wresWf (waits_wf w1) <| ite_wf ((acquireAt_accessed ..).mem w1) w1
  · exact raise_wf

theorem storeReadOnly_wf {s : State} {c who va n} (w : Memory.wf s.mem) : (s.storeReadOnly c who va n).Wf := by
  unfold State.storeReadOnly
  split
  next e => exact ofAccess_wf w (((partsOf_accessed ..).wf w).susp e) fun _ _ _ => raise_wf
  next e => exact ofAccess_wf w (((partsOf_accessed ..).wf w).hold e) fun _ _ _ => raise_wf
  · exact raise_wf

theorem scratchWrite_wf {s : State} {who va b} (w : Memory.wf s.mem) : (s.scratchWrite who va b).Wf := by
  unfold State.scratchWrite
  split
  · exact w
  · split
    · split
      · exact w
      · split <;> exact w
    · split
      · exact w
      · split
        · exact w
        · split <;> exact w

theorem writeVia_wf {s : State} {who va b direct} (w : Memory.wf s.mem) : (s.writeVia who va b direct).Wf :=
  ite_mresWf (scratchWrite_wf w) ((memWrite_accessed ..).wf w)

theorem execSt_wf {s : State} {h src a size ord} (w : Memory.wf s.mem) : NextWf (execSt h src a size ord s) := by
  unfold execSt
  refine scalarWord_wf w fun c j t w1 => ite_wresWf raise_wf <| ite_wresWf raise_wf <|
      ite_wresWf (storeReadOnly_wf w1) <| ite_wresWf (ite_wresWf ?_ <|
      ite_wresWf trivial (ofAccess_wf w1 ((reachAll_accessed ..).wf w1) fun t1 x w2 => ?_)) <|
      ite_wresWf (waits_wf w1) (ofAccess_wf w1 (writeVia_wf (ite_wf ((l1Release_accessed ..).mem w1) w1))
      fun _ _ w2 => w2)
  · split
    · exact raise_wf
    · refine ite_wresWf ?_ <| ite_wresWf ?_ raise_wf
      · split
        · exact setJob_wf w1
        · exact raise_wf
        · exact trivial
      · split
        · exact setJob_wf w1
        · exact trivial
  · split
    · exact setJob_wf w1
    · exact trivial

theorem rmw_wf {s : State} {who va n f} (w : Memory.wf s.mem) : (s.rmw who va n f).Wf := by
  unfold State.rmw
  refine bind_wf ((rmwFind_accessed ..).wf w) fun t x w1 => ?_
  split
  · refine bind_wf ((scratchRead_accessed ..).wf w1) fun t1 x w2 => ?_
    dsimp only
    split
    · exact w2
    · exact bind_wf (scratchWrite_wf w2) fun _ _ w3 => w3
  · split
    · refine latch_wf w1 (bind_wf ((hostAccess_accessed ..).wf ((hostFit_accessed ..).mem w1)) fun t1 x w2 => ?_)
      dsimp only
      split
      · exact w2
      · exact bind_wf ((hostWrite_accessed ..).wf w2) fun _ _ w3 => w3
    · split
      · exact w1
      · extract_lets s2
        have w2 : Memory.wf s2.mem := (l1Drop_accessed ..).mem w1
        refine latch_wf w1 (bind_wf ((homeRead_accessed ..).wf w2) fun t1 x w3 => ?_)
        dsimp only
        split
        · exact w3
        · exact bind_wf ((homeWrite_accessed ..).wf w3) fun _ _ w4 => w4

theorem rmwWord_wf {s : State} {h uses d a ord sc n sgn float f} (w : Memory.wf s.mem) :
    NextWf (rmwWord h uses d a ord sc n sgn float f s) := by
  unfold rmwWord
  refine scalarWord_wf w fun c j t w1 => ite_wresWf raise_wf ?_
  split
  · exact raise_wf
  · exact ite_wresWf trivial <| ite_wresWf (waits_wf w1) (ofAccess_wf w1 (rmw_wf (ite_wf
        ((releaseAt_accessed ..).mem w1) w1)) fun _ _ w2 => ite_wf (modRegs_wf (ite_wf
        ((acquireAt_accessed ..).mem w2) w2)) <| ite_wf ((acquireAt_accessed ..).mem w2) w2)

theorem execAtomf_wf {s : State} {h d a b ft ord sc} (w : Memory.wf s.mem) :
    NextWf (execAtomf h d a b ft ord sc s) := by
  unfold execAtomf
  exact rmwWord_wf w

theorem execFence_wf {s : State} {h ord sc} (w : Memory.wf s.mem) : NextWf (execFence h ord sc s) := by
  unfold execFence
  refine scalarWord_wf w fun c j t w1 => ite_wresWf trivial ?_
  split
  next e => exact deliveryPoint_wf.some e
  · extract_lets _ s1
    have w2 : Memory.wf s1.mem := ite_wf ((releaseAt_accessed ..).mem w1) w1
    exact ite_wresWf (waits_wf w1) <| ite_wf ((acquireAt_accessed ..).mem w2) w2

theorem execDbar_wf {s : State} {h d} (w : Memory.wf s.mem) : NextWf (execDbar h d s) := by
  unfold execDbar
  refine runWord_wf w fun c j t w1 => scalarBody_wf w1 fun c1 j1 t1 w2 => ite_wresWf raise_wf ?_
  split
  next e => exact deliveryPoint_wf.some e
  · extract_lets _ s1
    have w3 : Memory.wf s1.mem := ite_wf w2 (modJob_wf ((l1Release_accessed ..).mem w2))
    exact ite_wresWf (waits_wf w2) <| ite_wresWf (modJob_wf ((l1Acquire_accessed ..).mem w3)) w3

theorem inletClaim_wf {s : State} {base} (w : Memory.wf s.mem) : Memory.wf (s.inletClaim base).mem :=
  (writePhys_accessed ..).mem w

theorem inletPut_wf {s : State} {base n rec} (w : Memory.wf s.mem) : Memory.wf (s.inletPut base n rec).mem :=
  (writePhys_accessed ..).mem w

theorem execLaunch_wf {s : State} {h d a b} (w : Memory.wf s.mem) : NextWf (execLaunch h d a b s) := by
  unfold execLaunch
  refine scalarWord_wf w fun c j t w1 => ite_wresWf raise_wf <| ite_wresWf raise_wf <| ite_wresWf raise_wf <|
      ite_wresWf raise_wf <| ite_wresWf trivial (ofAccess_wf w1 ((memRead_accessed ..).wf w1) fun t1 x w2 =>
      ite_wresWf ((meetsUe_accessed ..).mem w1) <| ite_wresWf (waits_wf w1) <|
      ite_wresWf (ite_wresWf trivial (modRegs_wf (inletClaim_wf w1))) ?_)
  extract_lets _ s3 u
  have w3 : Memory.wf s3.mem := modRegs_wf (modPart_wf (inletPut_wf ((l1Release_accessed ..).mem (ite_wf w2
      (inletClaim_wf w2)))))
  have w4 : Memory.wf u.mem := modJob_wf w3
  split
  · exact w4
  · exact modJob_wf w3

theorem execWqpush_wf {s : State} {h d q k p} (w : Memory.wf s.mem) : NextWf (execWqpush h d q k p s) := by
  unfold execWqpush
  refine scalarWord_wf w fun c j t w1 => ?_
  dsimp only
  split
  · refine ite_wresWf trivial ?_
    split
    · exact w1
    · exact ite_wresWf w1 <| ite_wresWf (waits_wf w1) (modPart_wf ((l1Release_accessed ..).mem w1))
  · exact raise_wf

theorem pondPop_wf {s : State} {j core i} (w : Memory.wf s.mem) : Memory.wf (s.pondPop j core i).1.mem := by
  unfold State.pondPop
  split
  · exact w
  · refine ite_fstWf w ?_
    dsimp only
    split
    · exact w
    · exact (l1Acquire_accessed ..).mem (modPart_wf w)

theorem execWqpop_wf {s : State} {h d kd q} (w : Memory.wf s.mem) : NextWf (execWqpop h d kd q s) := by
  unfold execWqpop
  refine runWord_wf w fun c j t w1 => ite_wresWf (scalarBody_wf w1 fun _ _ _ w2 => w2) (ite_wresWf trivial ?_)
  split
  · exact ite_wresWf trivial <| ite_wresWf (waits_wf w1) (modRegs_wf (pondPop_wf w1))
  · exact raise_wf

theorem flushGroup_wf {s : State} {j} (w : Memory.wf s.mem) : Memory.wf (s.flushGroup j).mem :=
  (l1FlushAll_accessed ..).mem w

theorem execPloop_wf {s : State} {h d a} (w : Memory.wf s.mem) : NextWf (execPloop h d a s) := by
  unfold execPloop
  refine scalarWord_wf w fun c j t w1 => ite_wresWf raise_wf <| ite_wresWf trivial <| ite_wresWf (waits_wf w1) <|
      ite_wresWf raise_wf <| ite_wresWf raise_wf ?_
  split
  · exact raiseOwn_wf w1
  · exact trivial
  · exact ite_wresWf raise_wf <| ite_wresWf raise_wf (modJob_wf (flushGroup_wf w1))

theorem endIteration_wf {s : State} {exit c j} (w : Memory.wf s.mem) : (endIteration exit c j s).Wf := by
  unfold endIteration
  split
  · split
    · exact raise_wf
    · dsimp only
      split
      · exact ite_wresWf raise_wf <| ite_wresWf trivial (modJob_wf w)
      · exact raise_wf
  · exact raise_wf

theorem freshPriv_wf {s : State} {n slot} (w : Memory.wf s.mem) : Memory.wf (s.freshPriv n slot).mem :=
  modJob_wf w

theorem execPgend_wf {s : State} {h} (w : Memory.wf s.mem) : NextWf (execPgend h s) := by
  unfold execPgend
  refine scalarWord_wf w fun c j t w1 => ?_
  split
  · split
    · exact raise_wf
    · split
      · exact ite_wresWf (modJob_wf (freshPriv_wf w1)) raise_wf
      · exact raise_wf
  · exact raise_wf

theorem execPstat_wf {s : State} {h d sel} (w : Memory.wf s.mem) : NextWf (execPstat h d sel s) := by
  unfold execPstat
  refine scalarWord_wf w fun c j t w1 => ?_
  split
  · exact w1
  · exact raise_wf

end Sys2Proof.Machine
end

section

/-! SUPPORT. The append streams (R292 ff.) keep memory canonical: a descriptor, a pool and its pages are read and
written through accesses, and the words APOPEN to APSTAT run on them. -/

namespace Sys2Proof.Machine

theorem ofMem_wf {α : Type} {s : State} {c who} {r : MRes α} {f} (w : Memory.wf s.mem) (h : r.Wf)
    (k : ∀ t x, Memory.wf t.mem → (f t x).Wf) : (ofMem c who s r f).Wf :=
  ofAccess_wf w h k

theorem apRead_wf {s : State} {who va n} (w : Memory.wf s.mem) : (s.apRead who va n).Wf :=
  ite_mresWf w (bind_wf ((reachAll_accessed ..).wf w) fun _ _ w1 => (readAll_accessed ..).wf w1)

theorem apNum_wf {s : State} {who va n} (w : Memory.wf s.mem) : (s.apNum who va n).Wf :=
  bind_wf (apRead_wf w) fun _ _ w1 => w1

theorem apDesc_wf {s : State} {who va} (w : Memory.wf s.mem) : (s.apDesc who va).Wf :=
  bind_wf (apNum_wf w) fun _ _ w1 => w1

theorem apPool_wf {s : State} {who va} (w : Memory.wf s.mem) : (s.apPool who va).Wf :=
  bind_wf (apNum_wf w) fun _ _ w1 => w1

theorem execApopen_wf {s : State} {h slot a} (w : Memory.wf s.mem) : NextWf (execApopen h slot a s) :=
  scalarWord_wf w fun _ _ _ w1 => ite_wresWf raise_wf <| ite_wresWf trivial (ofMem_wf w1 (apDesc_wf w1)
      fun _ _ w2 => ite_wresWf raise_wf (ofMem_wf w1 (apPool_wf w2) fun _ _ w3 => ite_wresWf raise_wf (modJob_wf w3)))

theorem onSlot_wf {s : State} {slot waits op c j} (w : Memory.wf s.mem)
    (k : ∀ c j x x1 t, Memory.wf t.mem → (op c j x x1 t).Wf) : (onSlot slot waits op c j s).Wf := by
  unfold onSlot
  refine ite_wresWf trivial ?_
  split
  · exact raise_wf
  · exact k _ _ _ _ _ w

theorem appendWord_wf {s : State} {h uses first d slot waits op} (w : Memory.wf s.mem)
    (k : ∀ c j x x1 t, Memory.wf t.mem → (op c j x x1 t).Wf) : NextWf (appendWord h uses first d slot waits op s) :=
  scalarWord_wf w fun _ _ _ w1 => onSlot_wf w1 fun _ _ _ _ _ w2 => k _ _ _ _ _ w2

theorem apWrite_wf {s : State} {who va b} (w : Memory.wf s.mem) : (s.apWrite who va b).Wf :=
  ite_mresWf w (bind_wf ((reachAll_accessed ..).wf w) fun _ _ w1 => (writeAll_accessed ..).wf w1)

theorem apPut_wf {s : State} {who va n v} (w : Memory.wf s.mem) : (s.apPut who va n v).Wf :=
  apWrite_wf w

theorem apTake_wf {s : State} {who pool} (w : Memory.wf s.mem) : (s.apTake who pool).Wf :=
  bind_wf (apPool_wf w) fun _ _ w1 => ite_mresWf w1 (bind_wf (apNum_wf w1) fun _ _ w2 => bind_wf (apPut_wf w2)
      fun _ _ w3 => bind_wf (apPut_wf w3) fun _ _ w4 => bind_wf (apPut_wf w4) fun _ _ w5 => w5)

theorem apGrow_wf {s : State} {who desc need fuel held} (w : Memory.wf s.mem) :
    (State.apGrow who desc need fuel held s).Wf := by
  induction fuel generalizing s held with
  | zero => exact w
  | succ f ih =>
    unfold State.apGrow
    refine bind_wf (apDesc_wf w) fun t x w1 => ite_mresWf w1 (bind_wf ?_ fun t1 x1 w2 => ?_)
    · split
      · exact w1
      · exact bind_wf (apTake_wf w1) fun _ _ w2 => w2
    · split
      · exact w2
      · exact ite_mresWf w2 (bind_wf (apPut_wf w2) fun _ _ w3 => bind_wf (apWrite_wf w3) fun _ _ w4 => ih w4)

theorem apPageNo_wf {s : State} {who plist i} (w : Memory.wf s.mem) : (s.apPageNo who plist i).Wf :=
  apNum_wf w

theorem apStore_wf {s : State} {who plist base fuel o b} (w : Memory.wf s.mem) :
    (State.apStore who plist base fuel o b s).Wf := by
  induction fuel generalizing s o b with
  | zero => exact w
  | succ f ih =>
    unfold State.apStore
    exact ite_mresWf w (bind_wf (apPageNo_wf w) fun _ _ w1 => bind_wf (apWrite_wf w1) fun _ _ w2 => ih w2)

theorem apAppend_wf {s : State} {who desc b held} (w : Memory.wf s.mem) : (s.apAppend who desc b held).Wf := by
  unfold State.apAppend
  refine bind_wf (apDesc_wf w) fun t x w1 => bind_wf (apGrow_wf w1) fun t1 x1 w2 => ?_
  split
  · exact w2
  · exact bind_wf (apDesc_wf w2) fun _ _ w3 => bind_wf (apPool_wf w3) fun _ _ w4 => bind_wf (apStore_wf w4)
        fun _ _ w5 => bind_wf (apWrite_wf w5) fun _ _ w6 => w6

theorem appendTrap_wf {arg} : (appendTrap arg).Wf :=
  trivial

theorem apndSpec_wf {s : State} {c j who desc slot b} (w : Memory.wf s.mem) : (apndSpec c j who desc slot b s).Wf := by
  unfold apndSpec
  refine ofMem_wf w (apAppend_wf w) fun t x w1 => ?_
  split
  · exact trivial
  · exact appendTrap_wf
  · refine ite_wresWf ?_ (ofMem_wf w (apDesc_wf w) fun t1 x w2 => ofMem_wf w (apTake_wf w2) fun t2 x1 w3 => ?_)
    · dsimp only
      split
      · exact setJob_wf w
      · exact trivial
    · split
      · exact trivial
      · dsimp only
        split
        · exact setJob_wf w3
        · exact trivial

theorem apDrop_wf {s : State} {who pool k} (w : Memory.wf s.mem) : (s.apDrop who pool k).Wf := by
  unfold State.apDrop
  refine bind_wf (apPool_wf w) fun t x w1 => bind_wf (apNum_wf w1) fun t1 x1 w2 => bind_wf (apPut_wf w2)
      fun t2 x2 w3 => ?_
  split
  · exact w3
  · exact bind_wf (apPut_wf w3) fun _ _ w4 => bind_wf (apPut_wf w4) fun _ _ w5 => apPut_wf w5

theorem returnPages_wf {s : State} {who l} (w : Memory.wf s.mem) : (State.returnPages who l s).Wf := by
  induction l generalizing s with
  | nil => exact w
  | cons q l ih => exact bind_wf (apDrop_wf w) fun _ _ w1 => ih w1

theorem reclaim_wf {s : State} {who} (w : Memory.wf s.mem) : (s.reclaim who).Wf := by
  unfold State.reclaim
  split
  · exact w
  · exact bind_wf (returnPages_wf w) fun _ _ w1 => modJob_wf w1

theorem takingPages_wf {α : Type} {s : State} {who} {f : State → MRes (α ⊕ Nat)} (w : Memory.wf s.mem)
    (k : ∀ t, Memory.wf t.mem → (f t).Wf) : (s.takingPages who f).Wf := by
  have h := k s w
  unfold State.takingPages
  split
  next e =>
    have w1 := h.ok e
    split
    next e1 => exact ite_mresWf w1 (k _ ((reclaim_wf w).ok e1))
    · exact w1
    next e1 => exact (reclaim_wf w).susp e1
    next e1 => exact (reclaim_wf w).hold e1
  · exact h

theorem execApnd_wf {s : State} {h d slot a b} (w : Memory.wf s.mem) : NextWf (execApnd h d slot a b s) := by
  unfold execApnd
  refine appendWord_wf w fun c j x x1 t w1 => ite_wresWf raise_wf <|
      ite_wresWf ?_ (ofMem_wf w1 (takingPages_wf w1 fun _ w2 => apAppend_wf w2) fun t1 x2 w2 => ?_)
  · split
    · exact apndSpec_wf w1
    · exact raiseOwn_wf w1
  · split
    · exact appendTrap_wf
    · exact ite_wresWf (raiseOwn_wf w1) w2

theorem scalarWordB_wf {s : State} {h b d op} (w : Memory.wf s.mem) (k : ∀ c j t, Memory.wf t.mem → (op c j t).Wf) :
    NextWf (scalarWordB h b d op s) := by
  unfold scalarWordB
  refine runWord_wf w fun c j t w1 => ite_wresWf trivial ?_
  split
  next e => exact (scalarBody_wf w1 fun _ _ _ w2 => k _ _ _ w2).ok e
  · exact scalarBody_wf w1 fun _ _ _ w2 => k _ _ _ w2

theorem execApcommit_wf {s : State} {h d slot b} (w : Memory.wf s.mem) : NextWf (execApcommit h d slot b s) :=
  scalarWordB_wf w fun _ _ _ w1 => onSlot_wf w1 fun _ _ _ _ _ w2 => ite_wresWf (waits_wf w2) (ofMem_wf w2 (apDesc_wf
      ((l1Release_accessed ..).mem w2)) fun _ _ w3 => ite_wresWf raise_wf (ofMem_wf w2 (apWrite_wf w3)
      fun _ _ w4 => w4))

theorem apDropFrom_wf {s : State} {who plist pool fuel i} (w : Memory.wf s.mem) :
    (State.apDropFrom who plist pool fuel i s).Wf := by
  induction fuel generalizing s i with
  | zero => exact w
  | succ f ih => exact bind_wf (apPageNo_wf w) fun _ _ w1 => bind_wf (apDrop_wf w1) fun _ _ w2 => ih w2

theorem execAptrunc_wf {s : State} {h d slot} (w : Memory.wf s.mem) : NextWf (execAptrunc h d slot s) :=
  appendWord_wf w fun _ _ _ _ _ w1 => ofMem_wf w1 (apDesc_wf w1) fun _ _ w2 => ofMem_wf w1 (apDropFrom_wf w2)
      fun _ _ w3 => ofMem_wf w1 (apWrite_wf w3) fun _ _ w4 => w4

theorem apShare_wf {s : State} {who plist child rcnt fuel i} (w : Memory.wf s.mem) :
    (State.apShare who plist child rcnt fuel i s).Wf := by
  induction fuel generalizing s i with
  | zero => exact w
  | succ f ih =>
    exact bind_wf (apPageNo_wf w) fun _ _ w1 => bind_wf (apNum_wf w1) fun _ _ w2 => bind_wf (apPut_wf w2) fun _ _ w3 =>
      bind_wf (apPut_wf w3) fun _ _ w4 => ih w4

theorem apCopy_wf {s : State} {who src dst fuel n} (w : Memory.wf s.mem) : (State.apCopy who src dst fuel n s).Wf := by
  induction fuel generalizing s src dst n with
  | zero => exact w
  | succ f ih =>
    exact bind_wf (ite_mresWf w (apRead_wf w)) fun _ _ w1 => bind_wf (apWrite_wf w1) fun _ _ w2 => ih w2

theorem apFork_wf {s : State} {who desc child} (w : Memory.wf s.mem) : (s.apFork who desc child).Wf := by
  unfold State.apFork
  refine bind_wf (apDesc_wf w) fun t x w1 => bind_wf (apDesc_wf w1) fun t1 x1 w2 => bind_wf (apPool_wf w2)
      fun t2 x2 w3 => ite_mresWf w3 (bind_wf (apShare_wf w3) fun t3 x3 w4 => ite_mresWf (bind_wf (apWrite_wf w4)
      fun _ _ w5 => w5) (bind_wf (apTake_wf w4) fun t4 x4 w5 => ?_))
  split
  · exact w5
  · exact bind_wf (apPageNo_wf w5) fun _ _ w6 => bind_wf (apCopy_wf w6) fun _ _ w7 => bind_wf (apPut_wf w7)
        fun _ _ w8 => bind_wf (apWrite_wf w8) fun _ _ w9 => w9

theorem execApfork_wf {s : State} {h d slot a} (w : Memory.wf s.mem) : NextWf (execApfork h d slot a s) := by
  unfold execApfork
  refine appendWord_wf w fun c j x x1 t w1 => ite_wresWf raise_wf (ofMem_wf w1 (takingPages_wf w1 fun _ w2 =>
      apFork_wf w2) fun t1 x2 w2 => ?_)
  split
  · exact appendTrap_wf
  · exact w2

theorem execApstat_wf {s : State} {h d slot sel} (w : Memory.wf s.mem) : NextWf (execApstat h d slot sel s) :=
  appendWord_wf w fun _ _ _ _ _ w1 => ite_wresWf raise_wf (ofMem_wf w1 (apDesc_wf w1) fun _ _ w2 =>
      ite_wresWf w2 <| ite_wresWf w2 (ofMem_wf w1 (apPool_wf w2) fun _ _ w3 => w3))

end Sys2Proof.Machine
end

section

/-! SUPPORT. Words of V, of the matrix engine and of the copy engines keep memory canonical: a lane word changes its
job alone, and a command joins the queue. -/

namespace Sys2Proof.Machine

theorem discWord_wf {s : State} {h a b ts f} (w : Memory.wf s.mem) : NextWf (discWord h a b ts f s) :=
  scalarWord_wf w fun _ _ _ w1 => ite_wresWf trivial <| ite_wresWf raise_wf <| ite_wresWf raise_wf <|
      ite_wresWf w1 (modJob_wf w1)

theorem tlbDrop_wf {s : State} {part ctx va len} (w : Memory.wf s.mem) : Memory.wf (s.tlbDrop part ctx va len).mem :=
  w

theorem checkpoint_wf {s : State} {part ctx step} (w : Memory.wf s.mem) :
    Memory.wf (s.checkpoint part ctx step).mem := by
  unfold State.checkpoint
  extract_lets s0 leaves s1 s2 s3
  have w0 : Memory.wf s0.mem := foldState_wf w fun _ _ w =>
    (modCore_accessed ..).mem (foldState_wf w fun _ _ w => (writeBackLine_accessed ..).mem w)
  have w1 : Memory.wf s1.mem := foldState_wf w0 fun _ _ w => (writePhys_accessed ..).mem w
  have w2 : Memory.wf s2.mem := tlbDrop_wf w1
  refine modPart_wf ?_
  dsimp only [s3]
  split
  · exact (writePhys_accessed ..).mem w2
  · exact w2

theorem trapReturn_wf {s : State} {n next abort} (w : Memory.wf s.mem) : Memory.wf (s.trapReturn n next abort).mem := by
  unfold State.trapReturn
  split
  · exact w
  · split
    · exact w
    · exact ite_wf (abortAt_wf w) (setJob_wf w)

theorem tretWord_wf {s : State} {h next abort} (w : Memory.wf s.mem) : NextWf (tretWord h next abort s) :=
  scalarWord_wf w fun _ _ _ w1 => ite_wresWf raise_wf <| ite_wresWf trivial (trapReturn_wf w1)

theorem execYield_wf {s : State} {h d} (w : Memory.wf s.mem) : NextWf (execYield h d s) := by
  unfold execYield
  refine scalarWord_wf w fun c j t w1 => ite_wresWf trivial ?_
  split
  · exact modJob_wf w1
  · exact w1

theorem dropVmod_wf {c a} (w : a.Wf) : (WRes.dropVmod c a).Wf := by
  unfold WRes.dropVmod
  split <;> exact w

theorem vecWordAt_wf {s : State} {reads h srcs dsts more op} (w : Memory.wf s.mem)
    (k : ∀ c j t, Memory.wf t.mem → (op c j t).Wf) : NextWf (vecWordAt reads h srcs dsts more op s) := by
  unfold vecWordAt
  refine runWord_wf w fun c j t w1 => ?_
  split
  · exact raiseOwn_wf w1
  · exact dropVmod_wf (k _ _ _ w1)

theorem vecWord_wf {s : State} {h srcs dsts more op} (w : Memory.wf s.mem)
    (k : ∀ c j t, Memory.wf t.mem → (op c j t).Wf) : NextWf (vecWord h srcs dsts more op s) :=
  vecWordAt_wf w fun _ _ _ w1 => k _ _ _ w1

theorem raiseLanes_wf {s : State} {c l value f} (w : Memory.wf s.mem) : (raiseLanes c s l value f).Wf := by
  unfold raiseLanes
  dsimp only
  split
  · exact trivial
  · exact modJob_wf w

theorem laneWord_wf {s : State} {h vd srcs ty f} (w : Memory.wf s.mem) : NextWf (laneWord h vd srcs ty f s) :=
  vecWord_wf w fun _ _ _ w1 => raiseLanes_wf w1

theorem float2_wf {s : State} {h vd va vb ty op} (w : Memory.wf s.mem) : NextWf (float2 h vd va vb ty op s) :=
  laneWord_wf w

theorem float3_wf {s : State} {h vd va vb vc ty op} (w : Memory.wf s.mem) : NextWf (float3 h vd va vb vc ty op s) :=
  laneWord_wf w

theorem float1_wf {s : State} {h vd va ty op} (w : Memory.wf s.mem) : NextWf (float1 h vd va ty op s) :=
  laneWord_wf w

theorem minMaxWordV_wf {s : State} {h vd va vb ty max num} (w : Memory.wf s.mem) :
    NextWf (minMaxWordV h vd va vb ty max num s) :=
  ite_nextWf (laneWord_wf w) (float2_wf w)

theorem transWord_wf {s : State} {h vd va ty op} (w : Memory.wf s.mem) : NextWf (transWord h vd va ty op s) :=
  laneWord_wf w

theorem qblkWord_wf {s : State} {h vd va vs ty src b} (w : Memory.wf s.mem) : NextWf (qblkWord h vd va vs ty src b s) :=
  vecWord_wf w fun _ _ _ w1 => raiseLanes_wf w1

theorem intWord_wf {s : State} {h vd srcs ty f} (w : Memory.wf s.mem) : NextWf (intWord h vd srcs ty f s) :=
  laneWord_wf w

theorem bits2_wf {s : State} {h vd va vb ty f} (w : Memory.wf s.mem) : NextWf (bits2 h vd va vb ty f s) :=
  laneWord_wf w

theorem funnelWord_wf {s : State} {h vd va vb vc ty f} (w : Memory.wf s.mem) :
    NextWf (funnelWord h vd va vb vc ty f s) :=
  laneWord_wf w

theorem loadWord_wf {s : State} {h vd srcs who addr} (w : Memory.wf s.mem) : NextWf (loadWord h vd srcs who addr s) :=
  vecWordAt_wf w fun _ _ _ w1 => modJob_wf w1

theorem storeWord_wf {s : State} {h vs srcs who addr} (w : Memory.wf s.mem) : NextWf (storeWord h vs srcs who addr s) :=
  vecWord_wf w fun _ _ _ w1 => modJob_wf w1

theorem moveWord_wf {s : State} {h vd srcs ty f} (w : Memory.wf s.mem) : NextWf (moveWord h vd srcs ty f s) :=
  vecWord_wf w fun _ _ _ w1 => modJob_wf w1

theorem pushResult_wf {s : State} {c x} (w : Memory.wf s.mem) : (pushResult c s x).Wf :=
  modRegs_wf w

theorem redWord_wf {s : State} {h vd va ty least} (w : Memory.wf s.mem) : NextWf (redWord h vd va ty least s) :=
  vecWord_wf w fun _ _ _ w1 => raiseLanes_wf w1

theorem orStall_wf {c} {r : WRes} : (r.orStall c).Wf := by
  unfold WRes.orStall
  split
  · exact ite_wresWf trivial trivial
  · exact trivial

theorem unlessBusy_wf {busy c r} (w : r.Wf) : (unlessBusy busy c r).Wf :=
  ite_wresWf orStall_wf w

theorem execCbload_wf {s : State} {h cb kc ka} (w : Memory.wf s.mem) : NextWf (execCbload h cb kc ka s) := by
  unfold execCbload
  refine scalarWord_wf w fun c j t w1 => unlessBusy_wf ?_
  split
  · exact raiseOwn_wf w1
  · exact modJob_wf w1

theorem execTlset_wf {s : State} {h tl kc} (w : Memory.wf s.mem) : NextWf (execTlset h tl kc s) := by
  unfold execTlset
  refine scalarWord_wf w fun c j t w1 => unlessBusy_wf ?_
  split
  · exact raise_wf
  · exact modJob_wf w1

theorem lmeWord_wf {s : State} {h uses first check op} (w : Memory.wf s.mem) :
    NextWf (lmeWord h uses first check op s) := by
  unfold lmeWord
  refine runWord_wf w fun c j t w1 => scalarBody_wf w1 fun c1 j1 t1 w2 => unlessBusy_wf ?_
  split
  · exact raise_wf
  · exact w2

theorem execCfeed_wf {s : State} {h cf ka} (w : Memory.wf s.mem) : NextWf (execCfeed h cf ka s) := by
  unfold execCfeed
  refine scalarWord_wf w fun c j t w1 => unlessBusy_wf (ite_wresWf raise_wf ?_)
  split
  · exact raiseOwn_wf w1
  · exact trivial
  · exact ite_wresWf raise_wf <| ite_wresWf raise_wf (modJob_wf w1)

theorem execLstat_wf {s : State} {h sel} (w : Memory.wf s.mem) : NextWf (execLstat h sel s) := by
  unfold execLstat
  refine scalarWord_wf w fun c j t w1 => ?_
  split
  · exact raise_wf
  · exact ite_wf (modJob_wf w1) w1

theorem execShape_wf {s : State} {h sh ks} (w : Memory.wf s.mem) : NextWf (execShape h sh ks s) := by
  unfold execShape
  refine scalarWord_wf w fun c j t w1 => ite_wresWf raise_wf ?_
  split
  · exact raiseOwn_wf w1
  · exact trivial
  · exact ite_wresWf raise_wf (modJob_wf w1)

theorem cmdWord_wf {s : State} {h d uses first start strict} (w : Memory.wf s.mem)
    (k : ∀ c j t, Memory.wf t.mem → (start c j t).Wf) : NextWf (cmdWord h d uses first start strict s) := by
  unfold cmdWord
  refine runWord_wf w fun c j t w1 => ite_wresWf (ite_wresWf trivial ?_) <| ite_wresWf trivial w1
  dsimp only
  split
  next e => exact ite_wresWf orStall_wf ((k _ _ _ w1).res e)
  next e => exact ite_wresWf trivial (modJob_wf ((k _ _ _ w1).go e))

theorem copyStart_wf {s : State} {out sh km ks kn c j} (w : Memory.wf s.mem) :
    (copyStart out sh km ks kn c j s).Wf := by
  unfold copyStart
  dsimp only
  split
  · exact trivial
  · exact w

theorem walkStart_wf {s : State} {op sh km kn c j} (w : Memory.wf s.mem) : (walkStart op sh km kn c j s).Wf := by
  unfold walkStart
  dsimp only
  split
  · exact trivial
  · exact w

theorem sluiceStart_wf {s : State} {op sh km ks kn c j} (w : Memory.wf s.mem) :
    (sluiceStart op sh km ks kn c j s).Wf := by
  unfold sluiceStart
  dsimp only
  split
  · exact raiseOwn_wf w
  · exact w

theorem apReserve_wf {s : State} {who desc n} (w : Memory.wf s.mem) : (s.apReserve who desc n).Wf := by
  unfold State.apReserve
  refine bind_wf (apDesc_wf w) fun t x w1 => bind_wf (apGrow_wf w1) fun t1 x1 w2 => ?_
  split
  · exact w2
  · exact bind_wf (apDesc_wf w2) fun _ _ w3 => bind_wf (apWrite_wf w3) fun _ _ w4 => w4

theorem execCpyoAppend_wf {s : State} {h d sh km ks kn} (w : Memory.wf s.mem) :
    NextWf (execCpyoAppend h d sh km ks kn s) := by
  unfold execCpyoAppend
  refine cmdWord_wf w fun c j t w1 => ?_
  dsimp only
  split
  · exact trivial
  · split
    · exact trivial
    · split
      · exact trivial
      · split
        next e => exact (takingPages_wf w1 fun _ w2 => apReserve_wf w2).ok e
        · refine ofMem_wf w1 (takingPages_wf w1 fun _ w2 => apReserve_wf w2) fun t1 x w2 => ?_
          split
          · exact appendTrap_wf
          · exact w2

theorem execCpyc_wf {s : State} {h d sh km ks kc} (w : Memory.wf s.mem) : NextWf (execCpyc h d sh km ks kc s) := by
  unfold execCpyc
  refine cmdWord_wf w fun c j t w1 => ?_
  dsimp only
  split
  · exact raiseOwn_wf w1
  · exact w1

theorem execCstat_wf {s : State} {h d sel} (w : Memory.wf s.mem) : NextWf (execCstat h d sel s) := by
  unfold execCstat
  refine scalarWord_wf w fun c j t w1 => ?_
  split
  · exact w1
  · exact w1
  · exact w1
  · exact modJob_wf w1
  · exact raise_wf

end Sys2Proof.Machine
end

section

/-! SUPPORT. Commands under way and the events of the engines keep memory canonical: runs of bytes, rows gathered and
scattered, feeds, table walks, resumption and abort, and the copies of whole frames. -/

namespace Sys2Proof.Machine

theorem phaseFour_wf {s : State} {fail bad} : Memory.wf (s.phaseFour fail bad).mem :=
  reset_wf

theorem fetchAt_wf {s : State} {who a} (w : Memory.wf s.mem) : (s.fetchAt who a).Wf :=
  ite_mresWf w <| ite_mresWf w (bind_wf ((translate_accessed ..).wf w) fun _ _ w1 => bind_wf (ite_mresWf
      ((hostAccess_accessed ..).wf w1) <| ite_mresWf w1 ((homeRead_accessed ..).wf w1)) fun _ _ w2 => w2)

theorem ringFill_wf {s : State} {n x slot} (w : Memory.wf s.mem) : Memory.wf (s.ringFill n x slot).mem := by
  unfold State.ringFill
  split
  · exact w
  · refine ite_wf w ?_
    split
    · exact w
    · split
      next e => exact modRegs_wf ((fetchAt_wf w).ok e)
      · exact w
      · exact w

theorem execTimedTargetMiss_wf {s : State} {n x} (w : Memory.wf s.mem) : NextWf (execTimedTargetMiss n x s) := by
  unfold execTimedTargetMiss
  change Memory.wf _
  split
  · exact w
  · refine ite_wf w ?_
    split
    · exact w
    · refine ite_wf w ?_
      split
      · exact w
      · split
        · exact takeTrap_wf w
        · exact w

theorem execQueueDeadlock_wf {s : State} {n} (w : Memory.wf s.mem) : NextWf (execQueueDeadlock n s) := by
  unfold execQueueDeadlock
  change Memory.wf _
  split
  · exact w
  · exact ite_wf (takeTrap_wf w) w

theorem abortJob_wf {s : State} {n x r} (w : Memory.wf s.mem) : Memory.wf (s.abortJob n x r).mem :=
  abortAt_wf w

theorem execBudgetExpiry_wf {s : State} {n} (w : Memory.wf s.mem) : NextWf (execBudgetExpiry n s) := by
  unfold execBudgetExpiry
  change Memory.wf _
  split
  · exact w
  · exact ite_wf (abortJob_wf (modRegs_wf w)) w

theorem prefHost_wf {s : State} {who l1 p} (w : Memory.wf s.mem) : OptWf (s.prefHost who l1 p) := by
  unfold State.prefHost
  refine ite_optWf trivial ?_
  split
  next e => exact ((hostRead_accessed ..).wf w).ok e
  · exact trivial

theorem walkLine_wf {s : State} {who c va} (w : Memory.wf s.mem) : OptWf (s.walkLine who c va) := by
  unfold State.walkLine
  split
  next e =>
    have w1 := ((translate_accessed ..).wf w).ok e
    split
    · exact prefHost_wf w1
    · exact (hostFit_accessed ..).mem w1
    · change Memory.wf _
      split
      · exact (modCore_accessed ..).mem ((writeBackLine_accessed ..).mem w1)
      · exact w1
    · exact w1
    · refine ite_optWf trivial ?_
      split
      · exact ite_wf ((l1Fill_accessed ..).mem (ite_wf w1 w1)) <| ite_wf w1 w1
      · exact (l1Clean_accessed ..).mem w1
      · exact (l1Drop_accessed ..).mem w1
      · exact (l1Drop_accessed ..).mem w1
      · exact w1
  · exact trivial

theorem walkAll_wf {s : State} {who c} (w : Memory.wf s.mem) : Memory.wf (s.walkAll who c).1.mem := by
  unfold State.walkAll
  refine List.foldlRecOn (motive := fun a : State × Nat => Memory.wf a.1.mem) _ _ w fun a wa va _ => ?_
  split
  next e => exact (walkLine_wf wa).some e
  · exact wa

theorem asyncTrap_wf {s : State} {n x r} (w : Memory.wf s.mem) : Memory.wf (s.asyncTrap n x r).mem := by
  unfold State.asyncTrap
  split
  · exact w
  · exact ite_wf (setJob_wf w) (takeTrap_wf w)

theorem retireOne_wf {s : State} {n x} (w : Memory.wf s.mem) : OptWf (s.retireOne n x) := by
  unfold State.retireOne
  split
  · exact trivial
  · refine ite_optWf trivial ?_
    split
    · exact trivial
    · exact ite_optWf (ite_optWf (asyncTrap_wf (setJob_wf w)) (setJob_wf w)) trivial

theorem retireAll_wf {s : State} {n x fuel} (w : Memory.wf s.mem) : Memory.wf (State.retireAll n x fuel s).mem := by
  induction fuel generalizing s with
  | zero => exact w
  | succ f ih =>
    unfold State.retireAll
    split
    · exact w
    next e => exact ih ((retireOne_wf w).some e)

theorem settle_wf {s : State} {n} (w : Memory.wf s.mem) : Memory.wf (s.settle n).mem := by
  unfold State.settle
  split
  · exact w
  · exact modJob_wf (foldState_wf w fun _ _ w1 => retireAll_wf w1)

theorem execCommandComplete_wf {s : State} {n id} (w : Memory.wf s.mem) : NextWf (execCommandComplete n id s) := by
  unfold execCommandComplete
  change Memory.wf _
  split
  · exact w
  · split
    · exact w
    · exact ite_wf w <| ite_wf w (settle_wf (modJob_wf (ite_fstWf (walkAll_wf w) w)))

theorem asRefusal_wf {α : Type} {va} {r : MRes α} (h : r.Wf) : (asRefusal va r).Wf := by
  cases r <;> exact h

theorem cmdWrite_wf {s : State} {who va b} (w : Memory.wf s.mem) : (s.cmdWrite who va b).Wf :=
  asRefusal_wf (writeVia_wf w)

theorem ownWrite_wf {s : State} {n a b} (w : Memory.wf s.mem) : Memory.wf (s.ownWrite n a b).mem :=
  modJob_wf w

theorem putRun_wf {s : State} {who c a b} (w : Memory.wf s.mem) : (s.putRun who c a b).Wf := by
  unfold State.putRun
  split
  · exact cmdWrite_wf w
  · exact bind_wf (apDesc_wf w) fun _ _ w1 => bind_wf (apPool_wf w1) fun _ _ w2 => apStore_wf w2
  · exact ownWrite_wf w

theorem putRuns_wf {s : State} {who c l} (w : Memory.wf s.mem) : (State.putRuns who c l s).Wf := by
  induction l generalizing s with
  | nil => exact w
  | cons q l ih => exact bind_wf (putRun_wf w) fun _ _ w1 => ih w1

theorem setCmd_wf {s : State} {n c} (w : Memory.wf s.mem) : Memory.wf (s.setCmd n c).mem :=
  modJob_wf w

theorem flushCmd_wf {s : State} {who c} (w : Memory.wf s.mem) : Memory.wf (s.flushCmd who c).mem := by
  unfold State.flushCmd
  split
  next e => exact setCmd_wf ((putRuns_wf w).ok e)
  · exact w

theorem ownRead_wf {s : State} {n a k} (w : Memory.wf s.mem) : (s.ownRead n a k).Wf := by
  unfold State.ownRead
  split
  · exact w
  · split <;> exact w

theorem scatRead_wf {s : State} {who c} (w : Memory.wf s.mem) : (s.scatRead who c).Wf :=
  bind_wf (ownRead_wf w) fun _ _ w1 => bind_wf (ownRead_wf w1) fun _ _ w2 => w2

theorem cmdOrder_wf {s : State} {who r first last} (w : Memory.wf s.mem) :
    Memory.wf (s.cmdOrder who r first last).mem :=
  ite_wf ((releaseAt_accessed ..).mem (ite_wf ((acquireAt_accessed ..).mem w) w)) (ite_wf
      ((acquireAt_accessed ..).mem w) w)

theorem scatRow_wf {s : State} {who c va row} (w : Memory.wf s.mem) : (s.scatRow who c va row).Wf := by
  unfold State.scatRow
  refine bind_wf ((reachAll_accessed ..).wf w) fun t x w1 => ?_
  split
  · exact bind_wf ((writeAll_accessed ..).wf w1) fun _ _ w2 => w2
  · exact bind_wf ((agentAll_accessed ..).wf w1) fun _ _ w2 => bind_wf ((writeAll_accessed ..).wf w2) fun _ _ w3 => w3

theorem scatRows_wf {s : State} {who l c} (w : Memory.wf s.mem) : (State.scatRows who l c s).Wf := by
  induction l generalizing s c with
  | nil => exact w
  | cons i l ih =>
    unfold State.scatRows
    refine ite_mresWf (ih w) ?_
    extract_lets
    split
    next e => exact ih ((scatRow_wf w).ok e)
    next e =>
      have w1 := (scatRow_wf w).fault e
      exact ite_mresWf w1 (ih w1)
    next e => exact ih ((scatRow_wf w).susp e)
    next e => exact (scatRow_wf w).hold e

theorem readIndices_wf {s : State} {n c l} (w : Memory.wf s.mem) : (State.readIndices n c l s).Wf := by
  induction l generalizing s with
  | nil => exact w
  | cons i l ih => exact bind_wf (ownRead_wf w) fun _ _ w1 => bind_wf (ih w1) fun _ _ w2 => w2

theorem fetchRow_wf {s : State} {who c idx acq} (w : Memory.wf s.mem) : (s.fetchRow who c idx acq).Wf := by
  unfold State.fetchRow
  refine ite_mresWf w ?_
  split
  next e => exact ((agentRead_accessed ..).wf w).ok e
  next e =>
    have w1 := ((agentRead_accessed ..).wf w).fault e
    exact ite_mresWf w1 w1
  next e => exact ((agentRead_accessed ..).wf w).susp e
  next e => exact ((agentRead_accessed ..).wf w).hold e

theorem fetchElem_wf {s : State} {who c i idx} (w : Memory.wf s.mem) : (s.fetchElem who c i idx).Wf := by
  unfold State.fetchElem
  split
  · exact ite_mresWf (bind_wf (ownRead_wf w) fun _ _ w1 => w1) w
  · exact bind_wf (fetchRow_wf w) fun _ _ w1 => w1

theorem fetchElems_wf {s : State} {who l c} (w : Memory.wf s.mem) : (State.fetchElems who l c s).Wf := by
  induction l generalizing s c with
  | nil => exact w
  | cons q l ih => exact bind_wf (fetchElem_wf w) fun _ _ w1 => bind_wf (ih w1) fun _ _ w2 => w2

theorem poolBags_wf {s : State} {who l c} (w : Memory.wf s.mem) : (State.poolBags who l c s).Wf := by
  induction l generalizing s c with
  | nil => exact w
  | cons q l ih => exact bind_wf (fetchElems_wf w) fun _ _ w1 => ih (ownWrite_wf w1)

theorem gathRows_wf {s : State} {who l c} (w : Memory.wf s.mem) : (State.gathRows who l c s).Wf := by
  induction l generalizing s c with
  | nil => exact w
  | cons q l ih => exact bind_wf (fetchElem_wf w) fun _ _ w1 => ih (ownWrite_wf w1)

theorem runBatch_wf {s : State} {who c} (w : Memory.wf s.mem) : (s.runBatch who c).Wf := by
  unfold State.runBatch
  dsimp only
  split
  · exact ite_mresWf (scatRead_wf (cmdOrder_wf w)) (bind_wf (scatRows_wf (cmdOrder_wf w)) fun _ _ w1 => ite_mresWf
        (bind_wf (scatRows_wf (cmdOrder_wf (cmdOrder_wf w))) fun _ _ w2 => w2) w1)
  · exact bind_wf (readIndices_wf (cmdOrder_wf w)) fun _ _ w1 => bind_wf (poolBags_wf w1) fun _ _ w2 => w2
  · exact bind_wf (readIndices_wf (cmdOrder_wf w)) fun _ _ w1 => bind_wf (gathRows_wf w1) fun _ _ w2 => w2

theorem cmdRead_wf {s : State} {who r va n acq} (w : Memory.wf s.mem) : (s.cmdRead who r va n acq).Wf :=
  asRefusal_wf ((agentRead_accessed ..).wf w)

theorem elemBytes_wf {s : State} {who c e} (w : Memory.wf s.mem) : (s.elemBytes who c e).Wf := by
  unfold State.elemBytes
  dsimp only
  split
  · exact w
  · refine ite_mresWf w (bind_wf ?_ fun _ _ w1 => w1)
    split
    · exact cmdRead_wf w
    · exact cmdRead_wf w
    · exact ownRead_wf w

theorem elemsBytes_wf {s : State} {who c l} (w : Memory.wf s.mem) : (State.elemsBytes who c l s).Wf := by
  induction l generalizing s with
  | nil => exact w
  | cons e l ih => exact bind_wf (elemBytes_wf w) fun _ _ w1 => bind_wf (ih w1) fun _ _ w2 => w2

theorem foreBytes_wf {s : State} {who c l} (w : Memory.wf s.mem) : (State.foreBytes who c l s).Wf := by
  induction l generalizing s with
  | nil => exact w
  | cons a l ih =>
    refine bind_wf ?_ fun _ _ w1 => bind_wf (ih w1) fun _ _ w2 => w2
    split
    · exact cmdRead_wf w
    · exact cmdRead_wf w
    · exact ownRead_wf w

theorem runsReach_wf {s : State} {who c l} (w : Memory.wf s.mem) : (State.runsReach who c l s).Wf := by
  induction l generalizing s with
  | nil => exact w
  | cons q l ih =>
    exact bind_wf (ite_mresWf (bind_wf ((reachAll_accessed ..).wf w) fun _ _ w1 => w1)
      (bind_wf (putRun_wf w) fun _ _ _ => w)) fun _ _ w1 => ih w1

theorem runSegment_wf {s : State} {who c} (w : Memory.wf s.mem) : (s.runSegment who c).Wf :=
  bind_wf (elemsBytes_wf (cmdOrder_wf w)) fun _ _ w1 => bind_wf (foreBytes_wf w1) fun _ _ w2 => bind_wf
      (putRuns_wf w2) fun _ _ w3 => bind_wf (runsReach_wf w3) fun _ _ w4 => w4

theorem runUnit_wf {s : State} {n j c} (w : Memory.wf s.mem) : (s.runUnit n j c).Wf :=
  ite_mresWf (runBatch_wf w) (runSegment_wf w)

theorem execCommandAsyncFault_wf {s : State} {n id} (w : Memory.wf s.mem) : NextWf (execCommandAsyncFault n id s) := by
  unfold execCommandAsyncFault
  change Memory.wf _
  split
  · exact w
  · split
    · exact w
    · refine ite_wf w ?_
      dsimp only
      split
      · exact asyncTrap_wf (modJob_wf (flushCmd_wf (keepWalks_wf w)))
      · exact ite_wf (asyncTrap_wf (modJob_wf (flushCmd_wf (keepWalks_wf w)))) w
      · exact w

theorem stepCmd_wf {s : State} {n id} (w : Memory.wf s.mem) : Memory.wf (s.stepCmd n id).mem := by
  unfold State.stepCmd
  split
  · exact w
  · split
    · exact w
    · refine ite_wf w ?_
      dsimp only
      split
      next e => exact setCmd_wf ((runUnit_wf w).ok e)
      · exact w
      · exact ite_wf w (suspendJob_wf (keepWalks_wf w))
      · exact keepWalks_wf w

theorem execSluiceBatch_wf {s : State} {n id} (w : Memory.wf s.mem) : NextWf (execSluiceBatch n id s) := by
  unfold execSluiceBatch
  change Memory.wf _
  split
  · exact ite_wf (stepCmd_wf w) w
  · exact w

theorem execLmeCommandStart_wf {s : State} {n} (w : Memory.wf s.mem) : NextWf (execLmeCommandStart n s) := by
  unfold execLmeCommandStart
  change Memory.wf _
  split
  · exact w
  · split
    · exact w
    · exact ite_wf w (ite_wf (setJob_wf w) ((modCore_accessed ..).mem w))

theorem execLmmKStepDone_wf {s : State} {n} (w : Memory.wf s.mem) : NextWf (execLmmKStepDone n s) := by
  unfold execLmmKStepDone
  change Memory.wf _
  split
  · exact w
  · refine ite_wf w ?_
    split
    · exact ite_wf ((modCore_accessed ..).mem w) (setJob_wf w)
    · refine ite_wf ?_ w
      split
      · exact w
      · dsimp only
        split
        · exact suspendJob_wf (keepWalks_wf (setJob_wf w))
        · exact setJob_wf w
    · exact w

theorem execLmeCommandComplete_wf {s : State} {n} (w : Memory.wf s.mem) : NextWf (execLmeCommandComplete n s) := by
  unfold execLmeCommandComplete
  change Memory.wf _
  split
  · exact w
  · split
    · exact w
    · exact ite_wf w (settle_wf ((modCore_accessed ..).mem (setJob_wf w)))

theorem execLmeAsyncFault_wf {s : State} {n} (w : Memory.wf s.mem) : NextWf (execLmeAsyncFault n s) := by
  unfold execLmeAsyncFault
  change Memory.wf _
  split
  · exact w
  · split
    · exact w
    · dsimp only
      split
      · exact w
      · exact asyncTrap_wf ((modCore_accessed ..).mem (setJob_wf w))

theorem gateSub_wf {s : State} {now core sub} (w : Memory.wf s.mem) : Memory.wf (s.gateSub now core sub).mem :=
  (modCore_accessed ..).mem w

theorem execSubarrayWakeDone_wf {s : State} {core sub} (w : Memory.wf s.mem) :
    NextWf (execSubarrayWakeDone core sub s) :=
  (modCore_accessed ..).mem w

theorem execFeedFetch_wf {s : State} {n cf} (w : Memory.wf s.mem) : NextWf (execFeedFetch n cf s) := by
  unfold execFeedFetch
  change Memory.wf _
  split
  · exact w
  · split
    · exact w
    · extract_lets a put who
      refine ite_wf w ?_
      split
      next e => exact modJob_wf (((agentRead_accessed ..).wf w).ok e)
      · exact modJob_wf (keepWalks_wf w)
      · exact modJob_wf (keepWalks_wf w)
      · extract_lets t
        exact (keepWalks_wf w : Memory.wf t.mem)

theorem execTableWalk_wf {s : State} {n va kind} (w : Memory.wf s.mem) : NextWf (execTableWalk n va kind s) := by
  unfold execTableWalk
  change Memory.wf _
  split
  · exact w
  · refine ite_wf w ?_
    split
    next e => exact ((translate_accessed ..).wf w).ok e
    · exact w

theorem resumeCore_wf {s : State} {part core} (w : Memory.wf s.mem) : Memory.wf (s.resumeCore part core).mem :=
  w

theorem refuse_wf {s : State} {a addr} (w : Memory.wf s.mem) : Memory.wf (s.refuse a addr).mem :=
  (logError_accessed ..).mem w

theorem execResume_wf {s : State} {a part core} (w : Memory.wf s.mem) : NextWf (execResume a part core s) := by
  unfold execResume
  change Memory.wf _
  split
  · exact w
  · exact ite_wf (resumeCore_wf w) (refuse_wf w)

theorem abortCore_wf {s : State} {part core} (w : Memory.wf s.mem) : Memory.wf (s.abortCore part core).mem := by
  unfold State.abortCore
  dsimp only
  split
  · exact w
  · split
    · exact w
    · exact abortJob_wf (modJob_wf w)

theorem execAbort_wf {s : State} {a part core} (w : Memory.wf s.mem) : NextWf (execAbort a part core s) := by
  unfold execAbort
  change Memory.wf _
  split
  · exact w
  · exact ite_wf (abortCore_wf w) (refuse_wf w)

theorem execInvalidate_wf {s : State} {a part ctx va len} (w : Memory.wf s.mem) :
    NextWf (execInvalidate a part ctx va len s) := by
  unfold execInvalidate
  change Memory.wf _
  split
  · exact w
  · exact ite_wf (modPart_wf w) (refuse_wf w)

theorem execInvalidationDone_wf {s : State} {part} (w : Memory.wf s.mem) : NextWf (execInvalidationDone part s) := by
  unfold execInvalidationDone
  change Memory.wf _
  split
  · exact w
  · exact ite_wf w (modPart_wf (tlbDrop_wf w))

theorem forgetSpan_wf {s : State} {a n} (w : Memory.wf s.mem) : Memory.wf (s.forgetSpan a n).mem := by
  unfold State.forgetSpan
  dsimp only
  exact foldState_wf w fun _ _ w => (writeBackLine_accessed ..).mem w

theorem copyFrames_wf {s : State} {src dst n} (w : Memory.wf s.mem) : Memory.wf (s.copyFrames src dst n).mem :=
  cellsCopy_wf src dst n (forgetSpan_wf w)

theorem execFrameCopy_wf {s : State} {src dst} (w : Memory.wf s.mem) : NextWf (execFrameCopy src dst s) := by
  unfold execFrameCopy
  change Memory.wf _
  split
  · exact ite_wf w (ite_wf (refuse_wf w) (ite_wf w (copyFrames_wf w)))
  · exact w

end Sys2Proof.Machine
end

section

/-! SUPPORT. Launches, teams and jobs keep memory canonical: consumption, placement, start, swap, completion, and the
iterations of a proof loop. -/

namespace Sys2Proof.Machine

theorem logUnwritten_wf {s : State} {seq ctx detail cause} (w : Memory.wf s.mem) :
    Memory.wf (s.logUnwritten seq ctx detail cause).mem :=
  (logError_accessed ..).mem w

theorem luRes_wf {α : Type} {s : State} {r : MRes α} (w : Memory.wf s.mem) (h : r.Wf) : (luRes s r).Wf := by
  cases r with
  | ok t x => exact h
  | fault t e => exact trivial
  | susp t va kind l => exact trivial
  | hold t q l => exact w

theorem writeSeq_wf {s : State} {part l} (w : Memory.wf s.mem) : Memory.wf (s.writeSeq part l).mem := by
  unfold State.writeSeq
  split
  next e => exact modLaunch_wf ((luRes_wf w ((memWrite_accessed ..).wf w)).ok e)
  · exact modLaunch_wf (logUnwritten_wf w)
  next e => exact modLaunch_wf ((luRes_wf w ((memWrite_accessed ..).wf w)).wait e)

theorem execInletConsume_wf {s : State} {part i} (w : Memory.wf s.mem) : NextWf (execInletConsume part i s) := by
  have written (a b : Nat) (x y : List Byte) : Memory.wf ((s.writePhys a x).writePhys b y).mem :=
    (writePhys_accessed ..).mem ((writePhys_accessed ..).mem w)
  unfold execInletConsume
  change Memory.wf _
  split
  · exact w
  · refine ite_wf w ?_
    dsimp only
    split
    · exact ite_wf (modPart_wf (written ..)) (writeSeq_wf (modPart_wf (written ..)))
    · exact settle_wf (modJob_wf (ite_wf (modPart_wf (written ..)) (writeSeq_wf (modPart_wf (written ..)))))

theorem decideSwap_wf {s : State} {jobs} (w : Memory.wf s.mem) : Memory.wf (s.decideSwap jobs).mem :=
  foldState_wf w fun _ _ w1 => modJob_wf w1

theorem clearCores_wf {s : State} {cores} (w : Memory.wf s.mem) : Memory.wf (s.clearCores cores).mem := by
  unfold State.clearCores
  refine foldState_wf w fun t a w1 => ?_
  split
  · exact w1
  · split
    · exact w1
    · exact decideSwap_wf w1

theorem execLaunchReady_wf {s : State} {part seq} (w : Memory.wf s.mem) : NextWf (execLaunchReady part seq s) := by
  unfold execLaunchReady
  change Memory.wf _
  split
  · refine ite_wf w (ite_wf (writeSeq_wf w) (ite_wf (modLaunch_wf w) (ite_wf w (ite_wf (modLaunch_wf w) ?_))))
    split
    · exact modLaunch_wf w
    · exact clearCores_wf (modLaunch_wf w)
  · exact w

theorem luForget_wf {s : State} (w : Memory.wf s.mem) : Memory.wf s.luForget.mem :=
  w

theorem readArgs_wf {s : State} {part l} (w : Memory.wf s.mem) : (s.readArgs part l).Wf := by
  unfold State.readArgs
  dsimp only
  split
  · exact trivial
  · split
    · exact w
    · split
      next e => exact (luRes_wf w ((memRead_accessed ..).wf w)).ok e
      · exact trivial
      next e => exact (luRes_wf w ((memRead_accessed ..).wf w)).wait e

theorem startLaunch_wf {s : State} {part l go} (w : Memory.wf s.mem)
    (k : ∀ t x, Memory.wf t.mem → Memory.wf (go t x).mem) : Memory.wf (s.startLaunch part l go).mem := by
  unfold State.startLaunch
  refine ite_wf (k _ _ w) ?_
  split
  next e => exact k _ _ ((readArgs_wf w).ok e)
  · exact modLaunch_wf (luForget_wf (ite_wf ((logError_accessed ..).mem w) w))
  next e => exact (readArgs_wf w).wait e

theorem fillRing_wf {s : State} {who fuel a l} (w : Memory.wf s.mem) :
    Memory.wf (State.fillRing who fuel a l s).1.mem := by
  induction fuel generalizing s a l with
  | zero => exact w
  | succ f ih =>
    unfold State.fillRing
    split
    next e => exact ih ((fetchAt_wf w).ok e)
    · exact w

theorem loadRings_wf {s : State} {n} (w : Memory.wf s.mem) : Memory.wf (s.loadRings n).mem := by
  unfold State.loadRings
  refine foldState_wf w fun t a w1 => ?_
  split
  · exact w1
  · exact ite_wf w1 (modRegs_wf (fillRing_wf w1))

theorem usePreload_wf {s : State} {j} (w : Memory.wf s.mem) : Memory.wf (s.usePreload j).mem :=
  w

theorem l1Refresh_wf {s : State} {core} (w : Memory.wf s.mem) : Memory.wf (s.l1Refresh core).mem :=
  (modCore_accessed ..).mem w

theorem seatJob_wf {s : State} {n j} (w : Memory.wf s.mem) : Memory.wf (s.seatJob n j).mem :=
  foldState_wf ((modCore_accessed ..).mem (ite_wf (foldState_wf w fun _ _ w1 => l1Refresh_wf w1)
      ((l1FlushAll_accessed ..).mem w))) fun _ _ w1 => (modCore_accessed ..).mem w1

theorem stateOf_wf {s : State} {r} (w : Memory.wf s.mem) (w1 : NextWf r) : Memory.wf (stateOf s r).mem := by
  unfold stateOf
  split
  · exact w1
  · exact w

theorem begins_wf {s : State} {n} (w : Memory.wf s.mem) : Memory.wf (s.begins n).mem := by
  unfold State.begins
  split
  · exact w
  · exact (modCore_accessed ..).mem w

theorem execJobStart_wf {s : State} {n} (w : Memory.wf s.mem) : NextWf (execJobStart n s) := by
  unfold execJobStart
  change Memory.wf _
  split
  · exact w
  · exact ite_wf w (ite_wf (modLaunch_wf (begins_wf w)) (ite_wf w (modLaunch_wf (foldState_wf w fun _ _ w1 =>
        begins_wf (modJob_wf w1)))))

theorem placeTeam_wf {s : State} {p part l t cores jstart} (w : Memory.wf s.mem) :
    Memory.wf (s.placeTeam p part l t cores jstart).mem :=
  foldState_wf (modLaunch_wf (foldState_wf (foldState_wf w fun _ _ w1 => usePreload_wf (seatJob_wf w1))
      fun _ _ w1 => loadRings_wf w1)) fun _ _ w1 => stateOf_wf w1 (execJobStart_wf w1)

theorem execTeamDispatch_wf {s : State} {part seq cores jstart} (w : Memory.wf s.mem) :
    NextWf (execTeamDispatch part seq cores jstart s) := by
  unfold execTeamDispatch
  change Memory.wf _
  split
  · split
    · exact w
    · exact ite_wf w (startLaunch_wf w fun _ _ w1 => placeTeam_wf w1)
  · exact w

theorem drainLaunch_wf {s : State} {part seq} (w : Memory.wf s.mem) : Memory.wf (s.drainLaunch part seq).mem := by
  unfold State.drainLaunch
  dsimp only
  exact foldState_wf w fun _ _ w => (modCore_accessed ..).mem ((l1Settle_accessed ..).mem w)

theorem postRecord_wf {s : State} {part l} (w : Memory.wf s.mem) : (s.postRecord part l).Wf := by
  unfold State.postRecord
  dsimp only
  split
  · exact trivial
  next e => exact (luRes_wf w ((memRead_accessed ..).wf w)).wait e
  next e =>
    have w1 := (luRes_wf w ((memRead_accessed ..).wf w)).ok e
    split
    · exact trivial
    · split
      · exact w1
      · split
        · exact trivial
        next e1 => exact (luRes_wf w ((memWrite_accessed ..).wf w1)).wait e1
        next e1 =>
          have w2 := (luRes_wf w ((memWrite_accessed ..).wf w1)).ok e1
          split
          · exact trivial
          next e2 => exact (luRes_wf w ((memWrite_accessed ..).wf w2)).wait e2
          next e2 => exact (luRes_wf w ((memWrite_accessed ..).wf w2)).ok e2

theorem execCompletionRecordWrite_wf {s : State} {part seq} (w : Memory.wf s.mem) :
    NextWf (execCompletionRecordWrite part seq s) := by
  unfold execCompletionRecordWrite
  change Memory.wf _
  split
  · refine ite_wf w (ite_wf (writeSeq_wf w) (ite_wf (modLaunch_wf ((logError_accessed ..).mem (drainLaunch_wf w))) ?_))
    split
    · exact modLaunch_wf (logUnwritten_wf (luForget_wf (drainLaunch_wf w)))
    next e => exact (postRecord_wf (drainLaunch_wf w)).wait e
    next e => exact modLaunch_wf ((postRecord_wf (drainLaunch_wf w)).ok e)
    next e =>
      have w1 := (postRecord_wf (drainLaunch_wf w)).ok e
      exact modLaunch_wf (ite_wf ((sendMsix_accessed ..).mem w1) w1)
  · exact w

theorem execQuantumExpiry_wf {s : State} {part seq team} (w : Memory.wf s.mem) :
    NextWf (execQuantumExpiry part seq team s) := by
  unfold execQuantumExpiry
  change Memory.wf _
  split
  · split
    · exact w
    · exact ite_wf (decideSwap_wf w) w
  · exact w

theorem execSwapWindowExpiry_wf {s : State} {n} (w : Memory.wf s.mem) : NextWf (execSwapWindowExpiry n s) := by
  unfold execSwapWindowExpiry
  change Memory.wf _
  split
  · exact w
  · split
    · exact ite_wf (setJob_wf w) w
    · exact w

theorem flushCmds_wf {s : State} {n} (w : Memory.wf s.mem) : Memory.wf (s.flushCmds n).mem := by
  unfold State.flushCmds
  split
  · exact w
  · exact foldState_wf w fun _ _ w1 => ite_wf w1 (flushCmd_wf w1)

theorem dropRuns_wf {s : State} {n slot l} (w : Memory.wf s.mem) : Memory.wf (s.dropRuns n slot l).mem := by
  unfold State.dropRuns
  split
  · exact w
  · split
    next e => exact (returnPages_wf w).ok e
    · exact setJob_wf w

theorem squashSlot_wf {s : State} {n i slot} (w : Memory.wf s.mem) : Memory.wf (s.squashSlot n i slot).mem := by
  unfold State.squashSlot
  split
  · exact w
  · exact modJob_wf (dropRuns_wf w)

theorem squashFrom_wf {s : State} {n i who} (w : Memory.wf s.mem) : Memory.wf (s.squashFrom n i who).mem :=
  foldState_wf w fun _ _ w1 => squashSlot_wf w1

theorem quiesceLoop_wf {s : State} {n} (w : Memory.wf s.mem) : Memory.wf (s.quiesceLoop n).mem := by
  unfold State.quiesceLoop
  split
  · exact w
  · split
    · exact w
    · exact squashFrom_wf w

theorem execSwapOutSave_wf {s : State} {n} (w : Memory.wf s.mem) : NextWf (execSwapOutSave n s) := by
  unfold execSwapOutSave
  change Memory.wf _
  split
  · exact w
  · refine ite_wf w ?_
    dsimp only
    split
    · exact w
    · refine ite_wf (flushCmds_wf w) ?_
      split
      · exact w
      · exact teamSwapped_wf (freeCore_wf ((l1FlushAll_accessed ..).mem (quiesceLoop_wf (flushCmds_wf w))))

theorem dropReplicas_wf {s : State} {part seq cores} (w : Memory.wf s.mem) :
    Memory.wf (s.dropReplicas part seq cores).mem :=
  w

theorem takePending_wf {s : State} {n} (w : Memory.wf s.mem) : Memory.wf (s.takePending n).mem := by
  unfold State.takePending
  split
  · exact w
  · refine foldState_wf w fun t a w1 => ?_
    split
    · exact ite_wf (takeTrap_wf w1) w1
    · exact w1

theorem execTeamRestore_wf {s : State} {part seq team cores} (w : Memory.wf s.mem) :
    NextWf (execTeamRestore part seq team cores s) := by
  unfold execTeamRestore
  change Memory.wf _
  split
  · split
    · exact w
    · refine ite_wf w (foldState_wf (modLaunch_wf (foldState_wf (foldState_wf w fun t a w1 => ?_) fun _ _ w1 =>
          loadRings_wf w1)) fun _ _ w1 => takePending_wf w1)
      dsimp only
      split
      · exact w1
      · exact begins_wf (seatJob_wf w1)
  · exact w

theorem freeze_wf {s : State} {c} (w : Memory.wf s.mem) : Memory.wf (s.freeze c).mem := by
  unfold State.freeze
  split
  · exact w
  · exact modJob_wf (quiesceLoop_wf (flushCmds_wf w))

theorem execUrgentPlace_wf {s : State} {part seq cores jstart} (w : Memory.wf s.mem) :
    NextWf (execUrgentPlace part seq cores jstart s) := by
  unfold execUrgentPlace
  change Memory.wf _
  split
  · split
    · exact w
    · exact ite_wf w (startLaunch_wf w fun _ _ w1 => placeTeam_wf (foldState_wf w1 fun _ _ w2 => freeze_wf w2))
  · exact w

theorem execVictimResume_wf {s : State} {core} (w : Memory.wf s.mem) : NextWf (execVictimResume core s) := by
  unfold execVictimResume
  change Memory.wf _
  split
  · exact w
  · split
    · exact w
    · exact ite_wf w (takePending_wf (begins_wf (setJob_wf w)))

theorem fillRings_wf {s : State} {who r l} (w : Memory.wf s.mem) : Memory.wf (State.fillRings who r l s).1.mem := by
  induction l generalizing s with
  | nil => exact w
  | cons x l ih =>
    refine ih ?_
    split
    · exact w
    · exact fillRing_wf w

theorem execBankPreload_wf {s : State} {part seq core lin} (w : Memory.wf s.mem) :
    NextWf (execBankPreload part seq core lin s) := by
  unfold execBankPreload
  change Memory.wf _
  split
  · split
    · exact w
    · split
      · exact w
      · exact ite_wf w ((modCore_accessed ..).mem (fillRings_wf w))
  · exact w

theorem execL1FusionChange_wf {s : State} {stop fuse} (w : Memory.wf s.mem) : NextWf (execL1FusionChange stop fuse s) :=
  ite_wf w (foldState_wf w fun _ _ w1 => (modCore_accessed ..).mem ((l1Flush_accessed ..).mem w1))

theorem flushSlot_wf {s : State} {n slot} (w : Memory.wf s.mem) : Memory.wf (s.flushSlot n slot).mem := by
  unfold State.flushSlot
  split
  · exact w
  · exact (l1FlushAll_accessed ..).mem w

theorem execProofIterationStart_wf {s : State} {n slot} (w : Memory.wf s.mem) :
    NextWf (execProofIterationStart n slot s) := by
  unfold execProofIterationStart
  change Memory.wf _
  split
  · exact w
  · split
    · exact w
    · split
      · exact ite_wf w (ite_wf (ite_wf w (modJob_wf (freshPriv_wf (flushSlot_wf w)))) (ite_wf (modJob_wf
            (freshPriv_wf w)) (modJob_wf (freshPriv_wf w))))
      · exact w

theorem loopAccess_wf {α : Type} {s : State} {n slot} {r : MRes α} {f} (w : Memory.wf s.mem) (h : r.Wf)
    (k : ∀ t x, Memory.wf t.mem → Memory.wf (f t x).mem) : Memory.wf (s.loopAccess n slot r f).mem := by
  unfold State.loopAccess
  split
  · exact w
  · cases r with
    | ok t x => exact k t x h
    | fault t e => exact takeTrap_wf (keepWalks_wf w)
    | susp t va kind l => exact ite_wf (takeTrap_wf (keepWalks_wf w)) (suspendJob_wf (keepWalks_wf w))
    | hold t q l => exact keepWalks_wf w

theorem performStore_wf {s : State} {n slot st} (w : Memory.wf s.mem) : (s.performStore n slot st).Wf := by
  unfold State.performStore
  split
  · exact w
  · dsimp only
    split
    · exact setJob_wf w
    · exact ite_mresWf w (writeVia_wf (ite_wf ((l1Release_accessed ..).mem w) w))
    · exact w

theorem performStores_wf {s : State} {n slot l} (w : Memory.wf s.mem) : (State.performStores n slot l s).Wf := by
  induction l generalizing s with
  | nil => exact w
  | cons st l ih => exact bind_wf (performStore_wf w) fun _ _ w1 => ih w1

theorem placeRuns_wf {s : State} {who app l held} (w : Memory.wf s.mem) : (State.placeRuns who app l held s).Wf := by
  induction l generalizing s held with
  | nil => exact w
  | cons st l ih =>
    cases st with
    | append a b pool pages =>
      unfold State.placeRuns
      split
      · exact ih w
      · refine bind_wf (apDesc_wf w) fun t x w1 => bind_wf (apAppend_wf w1) fun t1 x1 w2 => ?_
        split
        · exact w
        · exact ih w2
    | scratch off d => exact ih w
    | mem va d rel lines => exact ih w

theorem placeAll_wf {s : State} {n slot l} (w : Memory.wf s.mem) : (s.placeAll n slot l).Wf := by
  unfold State.placeAll
  split
  · exact w
  · refine bind_wf (placeRuns_wf w) fun t x w1 => ?_
    split
    · exact w
    · exact bind_wf (returnPages_wf w1) fun _ _ w2 => w2

theorem releaseIter_wf {s : State} {n slot l} (w : Memory.wf s.mem) : (s.releaseIter n slot l).Wf :=
  bind_wf (performStores_wf w) fun _ _ w1 => bind_wf (placeAll_wf w1) fun _ _ w2 => ite_wf w2 w

theorem rerunIter_wf {s : State} {n i who} (w : Memory.wf s.mem) : Memory.wf (s.rerunIter n i who).mem :=
  modJob_wf (freshPriv_wf (flushSlot_wf (squashFrom_wf w)))

theorem proveNext_wf {s : State} {n} (w : Memory.wf s.mem) : Memory.wf (s.proveNext n).mem := by
  unfold State.proveNext
  split
  · exact w
  · split
    · exact w
    · dsimp only
      split
      · exact w
      · refine ite_wf w ?_
        split
        · exact ite_wf w <| ite_wf w <| ite_wf
            (loopAccess_wf w (releaseIter_wf w) fun _ _ w1 => ite_wf (modJob_wf w1) (rerunIter_wf w))
            (rerunIter_wf w)
        · exact ite_wf w <| ite_wf
            (ite_wf
              (loopAccess_wf w (releaseIter_wf w) fun _ _ w1 =>
                ite_wf (modJob_wf (flushSlot_wf w1)) (rerunIter_wf w))
              (rerunIter_wf w))
            (ite_wf w (modJob_wf (freshPriv_wf (flushSlot_wf w))))
        · exact w

theorem commitIter_wf {s : State} {n slot it} (w : Memory.wf s.mem) : Memory.wf (s.commitIter n slot it).mem := by
  unfold State.commitIter
  split
  · exact w
  · split
    · exact ite_wf (squashFrom_wf (modJob_wf (flushSlot_wf w))) (proveNext_wf (modJob_wf (flushSlot_wf w)))
    · exact w

theorem execProofCommit_wf {s : State} {n} (w : Memory.wf s.mem) : NextWf (execProofCommit n s) := by
  unfold execProofCommit
  change Memory.wf _
  split
  · exact w
  · split
    · exact w
    · refine ite_wf w ?_
      split
      · exact proveNext_wf w
      · exact ite_wf w (loopAccess_wf w (releaseIter_wf w) fun _ _ w1 => ite_wf (commitIter_wf w1) w)

theorem execProofLoopEnd_wf {s : State} {n} (w : Memory.wf s.mem) : NextWf (execProofLoopEnd n s) := by
  unfold execProofLoopEnd
  change Memory.wf _
  split
  · exact w
  · split
    · exact w
    · exact ite_wf w (setJob_wf (foldState_wf (flushGroup_wf w) fun _ _ w1 => (modCore_accessed ..).mem w1))

end Sys2Proof.Machine
end

section

/-! SUPPORT. The host, partitions and firmware keep memory canonical: the ports, the registers, reset, which drops the
bytes of a partition, an image taken in or given out, repair and heat. -/

namespace Sys2Proof.Machine

theorem reply_wf {s : State} {r} (w : Memory.wf s.mem) : Memory.wf (s.reply r).mem :=
  w

theorem track_wf {s : State} {port line excl} (w : Memory.wf s.mem) : Memory.wf (s.track port line excl).mem :=
  w

theorem portRead_wf {s : State} {port addr n cached} (w : Memory.wf s.mem) :
    Memory.wf (s.portRead port addr n cached).mem := by
  unfold State.portRead
  refine ite_wf w (ite_wf (refuse_wf w) ?_)
  split
  · exact refuse_wf w
  · exact ite_wf (refuse_wf w) (ite_wf w (ite_wf w (ite_wf w w)))

theorem portWrite_wf {s : State} {port addr data} (w : Memory.wf s.mem) :
    Memory.wf (s.portWrite port addr data).mem := by
  unfold State.portWrite
  refine ite_wf w (ite_wf (reply_wf (refuse_wf w)) ?_)
  split
  · exact refuse_wf w
  · exact ite_wf (refuse_wf w) (ite_wf w (reply_wf ((writePhys_accessed ..).mem w)))

theorem execPeerRequest_wf {s : State} {port addr n data} (w : Memory.wf s.mem) :
    NextWf (execPeerRequest port addr n data s) := by
  unfold execPeerRequest
  change Memory.wf _
  split
  · exact portRead_wf w
  · exact portWrite_wf w

theorem execSemaphoreRead_wf {s : State} {a n} (w : Memory.wf s.mem) : NextWf (execSemaphoreRead a n s) :=
  ite_wf w (reply_wf w)

theorem execSemaphoreWrite_wf {s : State} {a n v} (w : Memory.wf s.mem) : NextWf (execSemaphoreWrite a n v s) :=
  ite_wf w w

theorem expireLease_wf {s : State} {n} (w : Memory.wf s.mem) : Memory.wf (s.expireLease n).mem := by
  unfold State.expireLease
  dsimp only
  split
  · exact w
  · refine ite_wf w ?_
    split
    · exact (sendMsix_accessed ..).mem w
    · exact w

theorem execPartcfgWrite_wf {s : State} {a part v} (w : Memory.wf s.mem) : NextWf (execPartcfgWrite a part v s) := by
  unfold execPartcfgWrite
  change Memory.wf _
  split
  · exact w
  · exact ite_wf (modPart_wf w) (refuse_wf w)

theorem clearInlet_wf {s : State} {base} (w : Memory.wf s.mem) : Memory.wf (s.clearInlet base).mem :=
  ite_wf w (ite_wf ((logError_accessed ..).mem w) (ite_wf w ((writePhys_accessed ..).mem (foldState_wf w
      fun _ _ w1 => (writePhys_accessed ..).mem w1))))

theorem resetInlet_wf {s : State} {part i} (w : Memory.wf s.mem) : Memory.wf (s.resetInlet part i).mem := by
  unfold State.resetInlet
  split
  · exact w
  · exact ite_wf w (modPart_wf (clearInlet_wf w))

theorem resetInlets_wf {s : State} {part} (w : Memory.wf s.mem) : Memory.wf (s.resetInlets part).mem :=
  foldState_wf w fun _ _ w1 => resetInlet_wf w1

theorem execInletReset_wf {s : State} {a part mask} (w : Memory.wf s.mem) : NextWf (execInletReset a part mask s) := by
  unfold execInletReset
  change Memory.wf _
  split
  · exact w
  · exact ite_wf (resetInlets_wf (modPart_wf w)) (refuse_wf w)

theorem execPqcfgClear_wf {s : State} {a part n v} (w : Memory.wf s.mem) : NextWf (execPqcfgClear a part n v s) := by
  unfold execPqcfgClear
  change Memory.wf _
  split
  · exact w
  · exact ite_wf (modPart_wf w) (refuse_wf w)

theorem writeModule_wf {s : State} {a off v} (w : Memory.wf s.mem) : Memory.wf (s.writeModule a off v).mem := by
  unfold State.writeModule
  refine ite_wf (stateOf_wf w (execSemaphoreWrite_wf w)) ?_
  split
  · exact ite_wf w (refuse_wf w)
  · refine ite_wf w <| ite_wf (ite_wf w (refuse_wf w)) <| ite_wf (ite_wf w (refuse_wf w)) <|
        ite_wf (ite_wf w (refuse_wf w)) ?_
    split
    · split
      · exact refuse_wf w
      · exact ite_wf w w
    · exact refuse_wf w

theorem stopJobs_wf {s : State} {part} (w : Memory.wf s.mem) : Memory.wf (s.stopJobs part).mem := by
  unfold State.stopJobs
  refine foldState_wf w fun t a w1 => ?_
  split
  · exact w1
  · exact ite_wf w1 (setJob_wf (ite_wf w1 (freeCore_wf w1)))

theorem beginReset_wf {s : State} {part} (w : Memory.wf s.mem) : Memory.wf (s.beginReset part).mem := by
  unfold State.beginReset
  split
  · exact w
  · exact (logError_accessed ..).mem (modPart_wf (foldState_wf (foldState_wf (stopJobs_wf w) fun _ _ w1 =>
        (modCore_accessed ..).mem w1) fun _ _ w1 => (modStop_accessed ..).mem w1))

theorem execPartitionReset_wf {s : State} {a part} (w : Memory.wf s.mem) : NextWf (execPartitionReset a part s) := by
  unfold execPartitionReset
  change Memory.wf _
  split
  · exact w
  · exact ite_wf (refuse_wf w) (ite_wf w (beginReset_wf w))

theorem partStep_wf {s : State} {a n p off v} (w : Memory.wf s.mem) : OptWf (partStep a n p off v s) := by
  unfold partStep
  split
  · exact stateOf_wf w (execPartcfgWrite_wf w)
  · exact stateOf_wf w (execInletReset_wf w)
  · exact stateOf_wf w (execResume_wf w)
  · exact stateOf_wf w (execAbort_wf w)
  · exact stateOf_wf w (execInvalidate_wf w)
  · exact ite_wf (stateOf_wf w (execPartitionReset_wf w)) (ite_wf w (refuse_wf w))
  · exact trivial

theorem writeReg_wf {s : State} {a off v} (w : Memory.wf s.mem) : Memory.wf (s.writeReg a off v).mem := by
  unfold State.writeReg
  refine ite_wf (reply_wf (refuse_wf w)) (ite_wf ?_ (ite_wf (writeModule_wf w) ?_))
  · split <;> exact w
  · split
    · exact refuse_wf w
    · split
      · exact w
      · split
        next e => exact (partStep_wf w).some e
        · refine ite_wf (refuse_wf w) ?_
          split
          · exact refuse_wf w
          · exact foldState_wf (modPart_wf w) fun _ _ w1 => queueFault_wf w1

theorem nextEpoch_wf {s : State} (w : Memory.wf s.mem) : Memory.wf s.nextEpoch.1.mem :=
  w

theorem zeroPart_wf {s : State} {part} (w : Memory.wf s.mem) : Memory.wf (s.zeroPart part).mem :=
  filter_wf _ w

theorem execPartitionResetDone_wf {s : State} {part} (w : Memory.wf s.mem) :
    NextWf (execPartitionResetDone part s) := by
  unfold execPartitionResetDone
  change Memory.wf _
  split
  · exact w
  · exact ite_wf w (modPart_wf (ite_fstWf w (nextEpoch_wf (zeroPart_wf w))))

theorem startFw_wf {s : State} {a f n} (w : Memory.wf s.mem) : Memory.wf (s.startFw a f n).mem :=
  ite_wf w w

theorem adopt_wf {s : State} {f} (w : Memory.wf s.mem) : Memory.wf (s.adopt f).mem := by
  unfold State.adopt
  extract_lets _ _ _ _ _ s1
  have w1 : Memory.wf s1.mem := w
  split
  · exact w
  · split <;> exact w
  · exact w

theorem removePart_wf {s : State} {n} (w : Memory.wf s.mem) : Memory.wf (s.removePart n).mem :=
  modPart_wf (beginReset_wf w)

theorem relayout_wf {s : State} {l} (w : Memory.wf s.mem) : Memory.wf (s.relayout l).mem := by
  unfold State.relayout
  refine foldState_wf w fun t a w1 => ?_
  dsimp only
  split
  · exact ite_wf w1 (removePart_wf w1)
  · exact w1

theorem exportImage_wf {s : State} {f} (w : Memory.wf s.mem) : Memory.wf (s.exportImage f).1.mem := by
  unfold State.exportImage
  split
  · exact w
  · exact ite_fstWf w <| ite_fstWf w (foldState_wf ((writePhys_accessed ..).mem w) fun _ _ w1 => copyFrames_wf w1)

theorem clearTable_wf {s : State} {t} (w : Memory.wf s.mem) : Memory.wf (s.clearTable t).mem :=
  filter_wf _ (forgetSpan_wf w)

theorem installLeaf_wf {s : State} {va target leaf fuel level frame free} (w : Memory.wf s.mem) :
    PairWf (installLeaf va target leaf fuel level frame free s) := by
  induction fuel generalizing s level frame free with
  | zero => exact trivial
  | succ f ih =>
    unfold installLeaf
    dsimp only
    split
    · split
      · exact trivial
      · exact (writePhys_accessed ..).mem w
    · split
      · split
        · exact trivial
        · exact ih w
      · split
        · exact trivial
        · exact ih ((writePhys_accessed ..).mem (clearTable_wf w))

theorem installPages_wf {s : State} {key root tables l done} (w : Memory.wf s.mem) :
    PairWf (State.installPages key root tables l done s) := by
  induction l generalizing s tables done with
  | nil => exact w
  | cons q l ih =>
    unfold State.installPages
    dsimp only
    split
    · exact trivial
    next e => exact ih ((installLeaf_wf (copyFrames_wf w)).some e)

theorem importImage_wf {s : State} {f} (w : Memory.wf s.mem) : Memory.wf (s.importImage f).1.mem := by
  unfold State.importImage
  split
  · extract_lets
    refine ite_fstWf w (ite_fstWf w (ite_fstWf w ?_))
    split
    · exact w
    · extract_lets
      refine ite_fstWf w (ite_fstWf w ?_)
      split
      · exact w
      next e => exact modPart_wf ((writePhys_accessed ..).mem ((installPages_wf (clearTable_wf w)).some e))
  · exact w

theorem runFw_wf {s : State} {f ok} (w : Memory.wf s.mem) : Memory.wf (s.runFw f ok).1.mem := by
  unfold State.runFw
  refine ite_fstWf w ?_
  split
  · exact ite_fstWf (adopt_wf w) w
  · split
    · exact w
    · exact ite_fstWf w ((writePhys_accessed ..).mem w)
  · exact ite_fstWf w <| ite_fstWf (relayout_wf w) w
  · exact (writePhys_accessed ..).mem w
  · exact exportImage_wf w
  · exact importImage_wf w

theorem execFwCommandComplete_wf {s : State} {ok} (w : Memory.wf s.mem) : NextWf (execFwCommandComplete ok s) := by
  unfold execFwCommandComplete
  change Memory.wf _
  split
  · exact w
  · exact ite_wf w (runFw_wf w)

theorem forgetFrame_wf {s : State} {frame} (w : Memory.wf s.mem) : Memory.wf (s.forgetFrame frame).mem :=
  w

theorem setRecord_wf {s : State} {r} (w : Memory.wf s.mem) : Memory.wf (s.setRecord r).mem :=
  w

theorem execFrameRetire_wf {s : State} {frame} (w : Memory.wf s.mem) : NextWf (execFrameRetire frame s) := by
  unfold execFrameRetire
  refine ite_wf w ?_
  split
  · exact w
  · split
    · exact ite_wf ((logError_accessed ..).mem w) ((logError_accessed ..).mem w)
    · exact w

theorem dropUnfit_wf {s : State} {part} (w : Memory.wf s.mem) : Memory.wf (s.dropUnfit part).mem := by
  unfold State.dropUnfit
  split
  · exact w
  · exact modPart_wf w

theorem execSpareCoreSubstitute_wf {s : State} {core} (w : Memory.wf s.mem) :
    NextWf (execSpareCoreSubstitute core s) := by
  unfold execSpareCoreSubstitute
  refine ite_wf w ?_
  split
  · refine ite_wf ((logError_accessed ..).mem ((modCore_accessed ..).mem ((l1Flush_accessed ..).mem w))) ?_
    dsimp only
    split
    · exact (logError_accessed ..).mem ((modCore_accessed ..).mem ((l1Flush_accessed ..).mem w))
    · exact dropUnfit_wf ((logError_accessed ..).mem ((modCore_accessed ..).mem ((l1Flush_accessed ..).mem w)))
  · exact w

theorem countCorrected_wf {s : State} {unit place} (w : Memory.wf s.mem) :
    Memory.wf (s.countCorrected unit place).mem :=
  ite_wf ((logError_accessed ..).mem w) w

theorem execRingLinkRetrain_wf {s : State} {link ok} (w : Memory.wf s.mem) : NextWf (execRingLinkRetrain link ok s) :=
  ite_wf w (ite_wf ((logError_accessed ..).mem w) (foldState_wf ((logError_accessed ..).mem w) fun _ _ w1 =>
      beginReset_wf w1))

theorem setHeat_wf {s : State} {h} (w : Memory.wf s.mem) : Memory.wf (s.setHeat h).mem :=
  w

theorem execThermalWarningEnter_wf {s : State} (w : Memory.wf s.mem) : NextWf (execThermalWarningEnter s) :=
  ite_wf (setHeat_wf w) w

theorem execThermalWarningExit_wf {s : State} (w : Memory.wf s.mem) : NextWf (execThermalWarningExit s) :=
  ite_wf (setHeat_wf w) w

theorem execThermalEmergencyEnter_wf {s : State} (w : Memory.wf s.mem) : NextWf (execThermalEmergencyEnter s) :=
  ite_wf w ((logError_accessed ..).mem w)

theorem openTimed_wf {s : State} (w : Memory.wf s.mem) : Memory.wf s.openTimed.mem :=
  foldState_wf w fun _ _ w1 => ite_wf ((modCore_accessed ..).mem w1) w1

theorem execThermalEmergencyExit_wf {s : State} (w : Memory.wf s.mem) : NextWf (execThermalEmergencyExit s) :=
  ite_wf (openTimed_wf (setHeat_wf w)) w

theorem dark_wf {s : State} : Memory.wf s.dark.mem :=
  reset_wf

theorem execThermalTrip_wf {s : State} (w : Memory.wf s.mem) : NextWf (execThermalTrip s) :=
  ite_wf dark_wf w

theorem execTelemetryRefresh_wf {s : State} {part partPower temp modPower} (w : Memory.wf s.mem) :
    NextWf (execTelemetryRefresh part partPower temp modPower s) := by
  unfold execTelemetryRefresh
  change Memory.wf _
  split
  · exact w
  · exact ite_wf (modPart_wf w) w

theorem logDropped_wf {s : State} {r} (w : Memory.wf s.mem) : Memory.wf (s.logDropped r).mem :=
  (logError_accessed ..).mem w

theorem releaseMsix_wf {s : State} (w : Memory.wf s.mem) : Memory.wf s.releaseMsix.mem :=
  w

theorem execCxlLinkReset_wf {s : State} {port} (w : Memory.wf s.mem) : NextWf (execCxlLinkReset port s) :=
  ite_wf (foldState_wf w fun _ _ w1 => logDropped_wf w1) (releaseMsix_wf ((logError_accessed ..).mem w))

end Sys2Proof.Machine
end

section

/-! SUPPORT. The clock and every instruction and event keep memory canonical. -/

namespace Sys2Proof.Machine

theorem startDue_wf {s : State} (w : Memory.wf s.mem) : Memory.wf s.startDue.mem :=
  foldState_wf w fun _ _ w1 => stateOf_wf w1 (execJobStart_wf w1)

theorem subTick_wf {s : State} {core i} (w : Memory.wf s.mem) : Memory.wf (s.subTick core i).mem :=
  gateSub_wf ((modCore_accessed ..).mem (stateOf_wf w (execSubarrayWakeDone_wf w)))

theorem payPages_wf {s : State} {n} (w : Memory.wf s.mem) : Memory.wf (s.payPages n).mem := by
  unfold State.payPages
  split
  · exact w
  · exact ite_wf w (loopAccess_wf w (returnPages_wf w) fun _ _ w1 => modJob_wf w1)

theorem swapDue_wf {s : State} {n} (w : Memory.wf s.mem) : Memory.wf (s.swapDue n).mem := by
  unfold State.swapDue
  split
  · exact w
  · refine ite_wf w ?_
    extract_lets s1 s2 s3
    have w1 : Memory.wf s1.mem := stateOf_wf w (execLmeCommandComplete_wf w)
    have w2 : Memory.wf s2.mem := stateOf_wf w1 (execLmeAsyncFault_wf w1)
    have w3 : Memory.wf s3.mem := foldState_wf w2 fun _ _ h => ite_wf (stateOf_wf h (execCommandComplete_wf h)) h
    exact stateOf_wf w3 (execSwapOutSave_wf w3)

theorem jobTick_wf {s : State} {n} (w : Memory.wf s.mem) : Memory.wf (s.jobTick n).mem := by
  unfold State.jobTick
  extract_lets s0 s1 s2
  have w1 : Memory.wf s0.mem := tryRetire_wf (queueFault_wf (settle_wf (payPages_wf w)))
  have w2 : Memory.wf s1.mem := stateOf_wf w1 (execBudgetExpiry_wf w1)
  have w3 : Memory.wf s2.mem := stateOf_wf w2 (execSwapWindowExpiry_wf w2)
  exact swapDue_wf (stateOf_wf w3 (execQueueDeadlock_wf w3))

theorem quantumDue_wf {s : State} {part fuel} (w : Memory.wf s.mem) : Memory.wf (State.quantumDue part fuel s).mem := by
  induction fuel generalizing s with
  | zero => exact w
  | succ f ih =>
    unfold State.quantumDue
    split
    · exact w
    · split
      · exact w
      · exact ih (stateOf_wf w (execQuantumExpiry_wf w))

theorem dispatchNext_wf {s : State} {part p l jstart} (w : Memory.wf s.mem) :
    Memory.wf (s.dispatchNext part p l jstart).mem := by
  unfold State.dispatchNext
  split
  · exact w
  · exact stateOf_wf w (execTeamDispatch_wf w)

theorem dispatchDue_wf {s : State} {part seq fuel} (w : Memory.wf s.mem) :
    Memory.wf (State.dispatchDue part seq fuel s).mem := by
  induction fuel generalizing s with
  | zero => exact w
  | succ f ih =>
    unfold State.dispatchDue
    split
    · exact ite_wf (ih (dispatchNext_wf w)) w
    · exact w

theorem timedDue_wf {s : State} (w : Memory.wf s.mem) : Memory.wf s.timedDue.mem := by
  unfold State.timedDue
  refine foldState_wf w fun t a w1 => ?_
  split
  · exact w1
  · exact foldState_wf w1 fun _ _ w2 => dispatchDue_wf w2

theorem resumeDue_wf {s : State} (w : Memory.wf s.mem) : Memory.wf s.resumeDue.mem :=
  foldState_wf w fun _ _ w1 => stateOf_wf w1 (execVictimResume_wf w1)

theorem heatDue_wf {s : State} (w : Memory.wf s.mem) : Memory.wf s.heatDue.mem :=
  have w1 := stateOf_wf w (execThermalWarningEnter_wf w)
  have w2 := stateOf_wf w1 (execThermalEmergencyEnter_wf w1)
  have w3 := stateOf_wf w2 (execThermalEmergencyExit_wf w2)
  stateOf_wf w3 (execThermalWarningExit_wf w3)

theorem bestDue_wf {s : State} {part fuel} (w : Memory.wf s.mem) : Memory.wf (State.bestDue part fuel s).mem := by
  induction fuel generalizing s with
  | zero => exact w
  | succ f ih =>
    unfold State.bestDue
    split
    · exact w
    · split
      · exact w
      · split
        · exact w
        · extract_lets s1
          have w1 : Memory.wf s1.mem := ite_wf (stateOf_wf w (execTeamRestore_wf w)) (dispatchNext_wf w)
          exact ite_wf w1 (ih w1)

theorem fallDue_wf {s : State} (w : Memory.wf s.mem) : Memory.wf s.fallDue.mem := by
  unfold State.fallDue
  extract_lets s1 s2 s3 s4
  have w1 : Memory.wf s1.mem := foldState_wf w fun _ _ w1 => foldState_wf w1 fun _ _ w2 => subTick_wf w2
  have w2 : Memory.wf s2.mem := foldState_wf w1 fun _ _ w2 => jobTick_wf w2
  have w3 : Memory.wf s3.mem := foldState_wf w2 fun _ _ w3 => quantumDue_wf (resetInlets_wf w3)
  have w4 : Memory.wf s4.mem := timedDue_wf (resumeDue_wf (foldState_wf (heatDue_wf w3) fun _ _ w4 =>
      expireLease_wf w4))
  exact foldState_wf w4 fun _ _ w5 => bestDue_wf w5

theorem execTickAdvance_wf {s : State} (w : Memory.wf s.mem) : NextWf (execTickAdvance s) := by
  unfold execTickAdvance
  refine ite_nextWf (execThermalTrip_wf w) (ite_wf (startDue_wf ?_) w)
  dsimp only
  exact fallDue_wf w

theorem execCxlCompletion_wf {s : State} {port addr data} (w : Memory.wf s.mem) :
    NextWf (execCxlCompletion port addr data s) := by
  unfold execCxlCompletion
  change Memory.wf _
  dsimp only
  split
  · exact w
  · exact ite_wf w w

theorem l1Recall_wf {s : State} {port line} (w : Memory.wf s.mem) : Memory.wf (s.l1Recall port line).mem :=
  foldState_wf w fun _ _ w1 => (writeBackLine_accessed ..).mem w1

theorem execHostCoherenceSnoop_wf {s : State} {port line} (w : Memory.wf s.mem) :
    NextWf (execHostCoherenceSnoop port line s) := by
  unfold execHostCoherenceSnoop
  change Memory.wf _
  dsimp only
  split
  · exact w
  · exact reply_wf (l1Recall_wf w)

theorem crumbMay_wf {s t : State} {part pa n} (w : Memory.wf s.mem) (w1 : Memory.wf t.mem) :
    Memory.wf (s.crumbMay part pa n t).mem :=
  ite_wf w1 (refuse_wf w)

theorem copyPage_wf {s : State} {part ctx va level frame} (w : Memory.wf s.mem) :
    Memory.wf (s.copyPage part ctx va level frame).mem :=
  tlbDrop_wf ((writePhys_accessed ..).mem (copyFrames_wf w))

theorem serviceRecord_wf {s : State} {part rec frame} (w : Memory.wf s.mem) :
    Memory.wf (s.serviceRecord part rec frame).mem := by
  unfold State.serviceRecord
  dsimp only
  split
  · exact refuse_wf w
  · exact ite_wf w (ite_wf (ite_wf (crumbMay_wf w (copyPage_wf w)) w) (ite_wf w ((writePhys_accessed ..).mem w)))

theorem execFaultService_wf {s : State} {part resume frame} (w : Memory.wf s.mem) :
    NextWf (execFaultService part resume frame s) := by
  unfold execFaultService
  change Memory.wf _
  split
  · exact w
  · extract_lets _ _ _ _ s1 _ s2
    have w1 : Memory.wf s1.mem := modPart_wf w
    have w2 : Memory.wf s2.mem := ite_wf (resumeCore_wf (serviceRecord_wf w1)) (abortCore_wf w1)
    exact ite_wf w (ite_wf (refuse_wf w) (ite_wf ((logError_accessed ..).mem w1) (ite_wf w (foldState_wf w2
        fun _ _ w3 => queueFault_wf w3))))

theorem execContextCreate_wf {s : State} {part ctx root key} (w : Memory.wf s.mem) :
    NextWf (execContextCreate part ctx root key s) := by
  unfold execContextCreate
  change Memory.wf _
  split
  · exact w
  · exact ite_wf w (ite_wf (refuse_wf w) (modPart_wf ((writePhys_accessed ..).mem w)))

theorem exec_wf {s : State} {i} (w : Memory.wf s.mem) : NextWf (exec i s) := by
  cases i with dsimp only [exec]
  | nop | br | qlvl => exact scalarWord_wf w fun _ _ _ w1 => w1
  | movi | movk | mov | add | sub | addi | and | or | xor | andn | shl | shr | sar | min | max | sel | mul | mulh |
      div | rem | clz | ctz | popc | bfx | bfi | fshl | fshr => exact pureWord_wf w
  | cmp | cmpi | pset => exact predWord_wf w
  | jmp => exact scalarWord_wf w fun _ _ _ w1 => ite_wresWf raise_wf w1
  | call => exact scalarWord_wf w fun _ _ _ w1 => ite_wresWf raise_wf (modRegs_wf w1)
  | ret => exact execRet_wf w
  | retReg => exact execRetReg_wf w
  | loop => exact scalarWord_wf w fun _ _ _ w1 => ite_wresWf w1 (modRegs_wf w1)
  | lds => exact execLds_wf w
  | sts => exact execSts_wf w
  | qpush => exact runWord_wf w fun _ _ _ w1 => scalarBody_wf w1 fun _ _ _ w2 => ite_wresWf raise_wf w2
  | qpop => exact execQpop_wf w
  | stamp | stampSet => exact scalarWord_wf w fun _ _ _ w1 => modRegs_wf w1
  | join => exact execJoin_wf w
  | csrr => exact execCsrr_wf w
  | csrw => exact execCsrw_wf w
  | trap => exact scalarWord_wf w fun _ _ _ _ => ite_wresWf trivial trivial
  | idq => exact execIdq_wf w
  | ld => exact execLd_wf w
  | st => exact execSt_wf w
  | atom | acas => exact rmwWord_wf w
  | atomf => exact execAtomf_wf w
  | fence => exact execFence_wf w
  | dbar => exact execDbar_wf w
  | launch => exact execLaunch_wf w
  | wqpush => exact execWqpush_wf w
  | wqpop => exact execWqpop_wf w
  | ploop => exact execPloop_wf w
  | pnext | pexit => exact scalarWord_wf w fun _ _ _ w1 => endIteration_wf w1
  | pgend => exact execPgend_wf w
  | pacc => exact scalarWord_wf w fun _ _ _ w1 => ite_wresWf raise_wf (modJob_wf w1)
  | pstat => exact execPstat_wf w
  | apopen => exact execApopen_wf w
  | apnd => exact execApnd_wf w
  | apcommit => exact execApcommit_wf w
  | aptrunc => exact execAptrunc_wf w
  | apfork => exact execApfork_wf w
  | apstat => exact execApstat_wf w
  | discMark | discKeep => exact discWord_wf w
  | discLost => exact scalarWordB_wf w fun _ _ _ w1 => ite_wresWf trivial <| ite_wresWf raise_wf w1
  | discAck | cunfeed => exact scalarWord_wf w fun _ _ _ w1 => ite_wresWf trivial (modJob_wf w1)
  | ckpt => exact scalarWord_wf w fun _ _ _ w1 => ite_wresWf trivial (checkpoint_wf w1)
  | tretRetry | tretNext | tretAbort => exact tretWord_wf w
  | yield => exact execYield_wf w
  | vadd | vsub | vmul | vdiv | vrcps | vrsqs => exact float2_wf w
  | vfma | vfms | vfnma => exact float3_wf w
  | vsqrt => exact float1_wf w
  | vmin | vmax | vminn | vmaxn => exact minMaxWordV_wf w
  | vcmp | vcvt | vdqblk | vredsum | vredarg | vscan | vmass => exact vecWord_wf w fun _ _ _ w1 => raiseLanes_wf w1
  | vclass | vrcpe | vrsqe | vimulh | vclz | vpopc | vnoise => exact laneWord_wf w
  | vexp2 | vlog2 | vsin | vcos => exact transWord_wf w
  | vqblk | vqblkGiven => exact qblkWord_wf w
  | viadd | visub | vimul | vimad => exact intWord_wf w
  | vand | vor | vxor | vandn | vshl | vshr | vsar | vrot => exact bits2_wf w
  | vfshl | vfshr => exact funnelWord_wf w
  | vld | vlds | vgats => exact loadWord_wf w
  | vst | vscats => exact storeWord_wf w
  | vperm | vshuf | vbcast | vslideDn | vslideUp | vsel | viota => exact moveWord_wf w
  | vext | vmpop | vprefeq => exact vecWord_wf w fun _ _ _ w1 => pushResult_wf w1
  | vins => exact vecWord_wf w fun _ _ _ w1 => ite_wresWf w1 (modJob_wf w1)
  | vredmax | vredmin => exact redWord_wf w
  | vmlog | vtab | vshort | vbtest | vbset => exact vecWord_wf w fun _ _ _ w1 => modJob_wf w1
  | vsnap => exact vecWord_wf w fun _ _ _ w1 => pushResult_wf (modJob_wf w1)
  | vmod => exact runWord_wf w fun _ _ _ w1 => w1
  | tdecl => exact scalarWord_wf w fun _ _ _ w1 => ite_wresWf raise_wf <| ite_wresWf trivial (modJob_wf w1)
  | cbload => exact execCbload_wf w
  | tlset => exact execTlset_wf w
  | lmm | lmmFeed | lspill | lfill | lzero | tload | tsave => exact lmeWord_wf w
  | cfeed => exact execCfeed_wf w
  | lwake => exact scalarWord_wf w fun _ _ _ w1 => ite_wresWf w1 ((modCore_accessed ..).mem w1)
  | lstat => exact execLstat_wf w
  | shape => exact execShape_wf w
  | cpy | cpyo => exact cmdWord_wf w fun _ _ _ w1 => copyStart_wf w1
  | cpyoAppend => exact execCpyoAppend_wf w
  | cpyc => exact execCpyc_wf w
  | pref | cflush => exact cmdWord_wf w fun _ _ _ w1 => walkStart_wf w1
  | cwait => exact scalarWord_wf w fun _ _ _ w1 => ite_wresWf trivial w1
  | cwaitAll => exact scalarWord_wf w fun _ _ _ w1 => ite_wresWf w1 trivial
  | cstat => exact execCstat_wf w
  | gath | gathp | scat => exact cmdWord_wf w fun _ _ _ w1 => sluiceStart_wf w1
  | powerOn => exact ite_wf w (ite_wf phaseFour_wf reset_wf)
  | ringFetch => exact foldState_wf w fun _ _ w1 => ringFill_wf w1
  | timedTargetMiss => exact execTimedTargetMiss_wf w
  | queueDeadlock => exact execQueueDeadlock_wf w
  | budgetExpiry => exact execBudgetExpiry_wf w
  | commandComplete => exact execCommandComplete_wf w
  | commandAsyncFault => exact execCommandAsyncFault_wf w
  | sluiceBatch => exact execSluiceBatch_wf w
  | lmeCommandStart => exact execLmeCommandStart_wf w
  | lmmKStepDone => exact execLmmKStepDone_wf w
  | lmeCommandComplete => exact execLmeCommandComplete_wf w
  | lmeAsyncFault => exact execLmeAsyncFault_wf w
  | subarrayGate => exact gateSub_wf w
  | subarrayWakeDone => exact execSubarrayWakeDone_wf w
  | feedFetch => exact execFeedFetch_wf w
  | tableWalk => exact execTableWalk_wf w
  | resume => exact execResume_wf w
  | abort => exact execAbort_wf w
  | invalidate => exact execInvalidate_wf w
  | invalidationDone => exact execInvalidationDone_wf w
  | frameCopy => exact execFrameCopy_wf w
  | inletConsume => exact execInletConsume_wf w
  | launchReady => exact execLaunchReady_wf w
  | teamDispatch => exact execTeamDispatch_wf w
  | jobStart => exact execJobStart_wf w
  | completionRecordWrite => exact execCompletionRecordWrite_wf w
  | quantumExpiry => exact execQuantumExpiry_wf w
  | swapWindowExpiry => exact execSwapWindowExpiry_wf w
  | swapOutSave => exact execSwapOutSave_wf w
  | teamRestore => exact execTeamRestore_wf w
  | urgentPlace => exact execUrgentPlace_wf w
  | victimResume => exact execVictimResume_wf w
  | bankPreload => exact execBankPreload_wf w
  | l1FusionChange => exact execL1FusionChange_wf w
  | proofIterationStart => exact execProofIterationStart_wf w
  | proofCommit => exact execProofCommit_wf w
  | proofLoopEnd => exact execProofLoopEnd_wf w
  | hostMemRead => exact portRead_wf w
  | hostMemWrite => exact portWrite_wf w
  | backInvalidateSnoop => exact w
  | peerRequest => exact execPeerRequest_wf w
  | semaphoreRead => exact execSemaphoreRead_wf w
  | semaphoreWrite => exact execSemaphoreWrite_wf w
  | leaseExpiry => exact expireLease_wf w
  | partcfgWrite => exact execPartcfgWrite_wf w
  | inletReset => exact execInletReset_wf w
  | pqcfgClear => exact execPqcfgClear_wf w
  | registerWrite => exact ite_wf (writeReg_wf w) w
  | partitionReset => exact execPartitionReset_wf w
  | partitionResetDone => exact execPartitionResetDone_wf w
  | fwUpdateImage | fwAttest | fwChangeLayout | fwReadRecord | fwExport | fwImport => exact startFw_wf w
  | fwCommandComplete => exact execFwCommandComplete_wf w
  | patrolScrub => exact ite_wf ((logError_accessed ..).mem w) w
  | frameRetire => exact execFrameRetire_wf w
  | spareCoreSubstitute => exact execSpareCoreSubstitute_wf w
  | flitCrcRetry => exact ite_wf w (countCorrected_wf w)
  | ringLinkRetrain => exact execRingLinkRetrain_wf w
  | thermalWarningEnter => exact execThermalWarningEnter_wf w
  | thermalWarningExit => exact execThermalWarningExit_wf w
  | thermalEmergencyEnter => exact execThermalEmergencyEnter_wf w
  | thermalEmergencyExit => exact execThermalEmergencyExit_wf w
  | thermalTrip => exact execThermalTrip_wf w
  | issueGateUpdate => exact ite_wf w (openTimed_wf (foldState_wf w fun _ _ w1 => ite_wf ((modCore_accessed ..).mem
      w1) w1))
  | telemetryRefresh => exact execTelemetryRefresh_wf w
  | cxlLinkReset => exact execCxlLinkReset_wf w
  | tickAdvance => exact execTickAdvance_wf w
  | powerRemoved => exact dark_wf
  | cxlCompletion => exact execCxlCompletion_wf w
  | hostCoherenceSnoop => exact execHostCoherenceSnoop_wf w
  | faultService => exact execFaultService_wf w
  | contextCreate => exact execContextCreate_wf w

end Sys2Proof.Machine
end

section

/-! SUPPORT. Every turn keeps memory canonical: issue, with the precedence of traps, an event between units of
another, the upsets, evictions and claims; and so does a step. -/

namespace Sys2Proof.Machine

theorem mixOwn_wf {s t : State} {units} (w : Memory.wf s.mem) : Memory.wf (s.mixOwn units t).mem :=
  w

theorem ownOf_wf {s t : State} (w : Memory.wf s.mem) : Memory.wf (s.ownOf t).mem :=
  w

theorem mixCells_wf {unit units old new} (w : Memory.wf old) : Memory.wf (mixCells unit units old new) :=
  foldl_wf _ _ (fun _ c h => cellPut_wf c.1 c.2 h) (filter_wf _ w)

theorem mixAll_wf {s t : State} {units} (w : Memory.wf s.mem) : Memory.wf (s.mixAll units t).mem := by
  unfold State.mixAll
  dsimp only
  exact mixCells_wf w

theorem fetchNeeded_wf {s : State} {n j x slot a} (w : Memory.wf s.mem) :
    Memory.wf (s.fetchNeeded n j x slot a).mem := by
  unfold State.fetchNeeded
  dsimp only
  split
  next e => exact modRegs_wf ((fetchAt_wf w).ok e)
  next e => exact raiseAt_wf ((fetchAt_wf w).fault e)
  · exact ite_wf (raiseAt_wf w) (suspendJob_wf w)
  · exact w

theorem runWords_wf {s : State} {l} (w : Memory.wf s.mem) : NextWf (runWords l s) := by
  induction l generalizing s with
  | nil => exact w
  | cons i l ih =>
    unfold runWords
    split
    next e =>
      have w1 := (exec_wf w).next e
      exact ite_nextWf (ih w1) w1
    · exact trivial
    · exact trivial

theorem afterIssue_wf {s : State} {n slot ws} (w : Memory.wf s.mem) : Memory.wf (s.afterIssue n slot ws).mem := by
  unfold State.afterIssue
  refine tryRetire_wf (settle_wf ?_)
  dsimp only
  split
  · exact modJob_wf w
  · exact ite_wf w (modJob_wf w)

theorem tryIssue_wf {s : State} {n x slot} (w : Memory.wf s.mem) : (s.tryIssue n x slot).Wf := by
  unfold State.tryIssue
  split
  · exact w
  · split
    · exact w
    · dsimp only
      split
      · exact fetchNeeded_wf w
      · split
        · exact modRegs_wf w
        · split
          · exact raiseAt_wf w
          · exact w
          · split
            · exact raiseAt_wf w
            · split
              · split <;> exact w
              · exact w

theorem offer_wf {s : State} {n x slot} (w : Memory.wf s.mem) : NextWf (offer n x slot s) := by
  unfold offer
  split
  next e => exact tryRetire_wf (settle_wf ((tryIssue_wf w).idle e))
  next e =>
    have w1 := (tryIssue_wf w).run e
    split
    next e1 => exact afterIssue_wf (close_wf ((runWords_wf w1).next e1))
    · exact trivial
    · exact trivial

theorem firstTrap_wf {s : State} {n l} (w : Memory.wf s.mem) : OptWf (firstTrap n s l) := by
  induction l with
  | nil => exact trivial
  | cons q l ih =>
    unfold firstTrap
    split
    next e => exact ite_optWf ((offer_wf w).next e) ih
    · exact ih

theorem precedence_wf {s t : State} {n x} (w : Memory.wf s.mem) (w1 : Memory.wf t.mem) :
    Memory.wf (precedence n x s t).mem :=
  ite_wf (getD_wf (firstTrap_wf w) w1) w1

theorem issueTurn_wf {s : State} {n x slot} (w : Memory.wf s.mem) : NextWf (issueTurn n x slot s) := by
  unfold issueTurn
  split
  next e => exact precedence_wf w ((offer_wf w).next e)
  · exact trivial
  · exact trivial

theorem eventTurn_wf {s : State} {i} (w : Memory.wf s.mem) : NextWf (eventTurn i s) := by
  unfold eventTurn
  split
  next e =>
    have w1 := (exec_wf w).next e
    change Memory.wf _
    split
    · exact precedence_wf w w1
    · exact w1
  · exact trivial
  · exact trivial

theorem copySegment_wf {s : State} {n id} (w : Memory.wf s.mem) : Memory.wf (s.copySegment n id).mem := by
  unfold State.copySegment
  split
  · exact ite_wf w (stepCmd_wf w)
  · exact w

theorem upsetMem_wf {s : State} {line} (w : Memory.wf s.mem) : Memory.wf (s.upsetMem line).mem :=
  w

theorem upsetScratch_wf {s : State} {n unit} (w : Memory.wf s.mem) : Memory.wf (s.upsetScratch n unit).mem :=
  modJob_wf w

theorem upsetPrivate_wf {s : State} {n slot unit} (w : Memory.wf s.mem) : Memory.wf (s.upsetPrivate n slot unit).mem :=
  modJob_wf w

theorem upsetTable_wf {s : State} {n unit} (w : Memory.wf s.mem) : Memory.wf (s.upsetTable n unit).mem :=
  modJob_wf w

theorem upsetTile_wf {s : State} {n row unit} (w : Memory.wf s.mem) : Memory.wf (s.upsetTile n row unit).mem :=
  modJob_wf w

theorem upsetRing_wf {s : State} {n x slot a} (w : Memory.wf s.mem) : Memory.wf (s.upsetRing n x slot a).mem :=
  modRegs_wf w

theorem upsetRegs_wf {s : State} {n x slot} (w : Memory.wf s.mem) : Memory.wf (s.upsetRegs n x slot).mem := by
  unfold State.upsetRegs
  split
  · exact w
  · exact ite_wf w (abortAt_wf ((modCore_accessed ..).mem ((logError_accessed ..).mem w)))

theorem evictTlb_wf {s : State} {stop} (w : Memory.wf s.mem) : Memory.wf (s.evictTlb stop).mem :=
  foldState_wf ((modStop_accessed ..).mem w) fun _ _ w1 => (modCore_accessed ..).mem w1

theorem evictLine_wf {s : State} {core line} (w : Memory.wf s.mem) : Memory.wf (s.evictLine core line).mem := by
  unfold State.evictLine
  split
  · exact w
  · exact (modCore_accessed ..).mem ((writeBackLine_accessed ..).mem w)

theorem evictReplica_wf {s : State} {stop line} (w : Memory.wf s.mem) : Memory.wf (s.evictReplica stop line).mem :=
  w

theorem claimLine_wf {s : State} {port addr} (w : Memory.wf s.mem) : Memory.wf (s.claimLine port addr).mem := by
  unfold State.claimLine
  refine ite_wf w ?_
  split
  · exact reply_wf (refuse_wf w)
  · exact ite_wf (reply_wf (refuse_wf w)) (ite_wf w (ite_wf (reply_wf w) (track_wf (reply_wf w))))

theorem registerRead_wf {s : State} {a off} (w : Memory.wf s.mem) : Memory.wf (s.registerRead a off).mem := by
  unfold State.registerRead
  refine ite_wf w (ite_wf (stateOf_wf w (execSemaphoreRead_wf w)) ?_)
  split
  · exact reply_wf w
  · exact reply_wf (refuse_wf w)

theorem maskVector_wf {s : State} {port vec on} (w : Memory.wf s.mem) : Memory.wf (s.maskVector port vec on).mem :=
  ite_wf w (releaseMsix_wf w)

theorem unsupportedRequest_wf {s : State} {port addr} (w : Memory.wf s.mem) :
    Memory.wf (s.unsupportedRequest port addr).mem :=
  ite_wf (reply_wf (refuse_wf w)) w

theorem scanFail_wf {s : State} {core} (w : Memory.wf s.mem) : Memory.wf (s.scanFail core).mem := by
  unfold State.scanFail
  refine ite_wf (stateOf_wf w (execSpareCoreSubstitute_wf ((modCore_accessed ..).mem w))) ?_
  split
  · exact ite_wf ((logError_accessed ..).mem w) (stateOf_wf w (execSpareCoreSubstitute_wf
        ((modCore_accessed ..).mem w)))
  · exact w

theorem createParts_wf {s : State} {l} (w : Memory.wf s.mem) : Memory.wf (State.createParts l s).mem := by
  induction l generalizing s with
  | nil => exact w
  | cons q l ih => exact ih w

theorem phaseSeven_wf {s : State} {replaced} (w : Memory.wf s.mem) : Memory.wf (s.phaseSeven replaced).mem := by
  unfold State.phaseSeven
  extract_lets _ s1 _ s2
  have w1 : Memory.wf s1.mem := createParts_wf w
  have w2 : Memory.wf s2.mem := ite_wf ((logError_accessed ..).mem w1) w1
  exact ite_wf ((logError_accessed ..).mem w2) w2

theorem nextPhase_wf {s : State} (w : Memory.wf s.mem) : Memory.wf s.nextPhase.mem := by
  unfold State.nextPhase
  split
  · exact w
  · exact ite_wf (ite_wf w w) (ite_wf (foldState_wf w fun _ _ w1 => scanFail_wf w1) (phaseSeven_wf w))

theorem sense_wf {s : State} {stop temp} (w : Memory.wf s.mem) : Memory.wf (s.sense stop temp).mem := by
  unfold State.sense
  split
  · exact heatDue_wf w
  · exact w

theorem damageRecord_wf {s : State} (w : Memory.wf s.mem) : Memory.wf s.damageRecord.mem :=
  w

theorem runTurn_wf {s : State} {t} (w : Memory.wf s.mem) : NextWf (runTurn t s) := by
  induction t generalizing s with
  | both u v ihu ihv =>
    unfold runTurn
    split
    next e => exact ihv ((ihu w).next e)
    · exact ihu w
  | amid u units v ihu ihv =>
    unfold runTurn
    split
    · refine ite_nextWf w (ite_nextWf ?_ (ite_nextWf ?_ w))
      · split
        next e1 =>
          have wm := (ihv w).next e1
          split
          next e2 => exact ite_wf (ownOf_wf ((ihu (mixOwn_wf wm)).next e2)) w
          · exact ihu (mixOwn_wf wm)
        · exact ihv w
      · split
        next e1 =>
          have wm := (ihv (mixAll_wf w)).next e1
          split
          next e2 => exact ite_wf (mixAll_wf ((ihu wm).next e2)) w
          · exact ihu wm
        · exact ihv (mixAll_wf w)
    · exact ihu w
  | issue n x slot => exact issueTurn_wf w
  | event i => exact ite_nextWf (eventTurn_wf w) w
  | segment n id => exact copySegment_wf w
  | upsetMem line => exact upsetMem_wf w
  | upsetScratch n unit => exact upsetScratch_wf w
  | upsetPrivate n slot unit => exact upsetPrivate_wf w
  | upsetTable n unit => exact upsetTable_wf w
  | upsetTile n row unit => exact upsetTile_wf w
  | upsetRing n x slot a => exact upsetRing_wf w
  | upsetRegs n x slot => exact upsetRegs_wf w
  | corrected unit place => exact countCorrected_wf w
  | evictTlb stop => exact evictTlb_wf w
  | evictLine core line => exact evictLine_wf w
  | evictReplica stop line => exact evictReplica_wf w
  | claim port addr => exact claimLine_wf w
  | readReg a off => exact registerRead_wf w
  | mask port vec on => exact maskVector_wf w
  | unsupported port addr => exact unsupportedRequest_wf w
  | boot => exact nextPhase_wf w
  | sensor stop temp => exact sense_wf w
  | damage => exact damageRecord_wf w

theorem stepTurn_wf {s : State} (w : Memory.wf s.mem) : NextWf (stepTurn s) := by
  unfold stepTurn
  split
  · exact exec_wf w
  · exact runTurn_wf w

theorem step_wf {s : State} (w : Memory.wf s.mem) : NextWf (step s) :=
  stepTurn_wf w

/-- Settles O8: no function that a step is made of leaves the form, which `step_wf` gathers. -/
theorem stepKeepsMemoryCanonical : Obligations.StepKeepsMemoryCanonical := by
  unfold Obligations.StepKeepsMemoryCanonical
  exact fun _ _ w e => (step_wf w).next e

end Sys2Proof.Machine
end

section
/-! SUPPORT. When a command of the lookup matrix engine waits, what its checks come to, and the queue it joins; and O48. -/

namespace Sys2Proof.Machine

/-! ### Waiting at issue (R118, R160) -/

section Waits

variable {j : Job} {now : Nat} {o : LmeOp}

/-- A command on a tile does not wait behind fewer than two, once what was written to the tile has landed. -/
theorem lmeWaits_tile {t : Nat} (few : j.lme.length < 2) (tile : o.tile = some t)
    (landed : ∀ r < 32, j.board.v.getD (32 * t + r) 0 ≤ now) : j.lmeWaits now o = false := by
  have clear : j.board.pendingTile now t = false := by
    refine List.any_eq_false.2 fun r hr => ?_
    simpa using landed r (List.mem_range.1 hr)
  simp [Job.lmeWaits, tile, clear, few]

/-- A command on no tile does not wait behind fewer than two. -/
theorem lmeWaits_noTile (few : j.lme.length < 2) (tile : o.tile = none) : j.lmeWaits now o = false := by
  simp [Job.lmeWaits, tile, few]

end Waits

/-! ### Checks that find no cause (R162, R169, R177, R178) -/

section Checks

variable {s : State} {j : Job} {t tl : BitVec 2} {ctl : Word}

theorem lmmCauses_nil {nb : Nat} {misaligned : Bool} {srcBad : Option Nat → Bool} (control : lmCtlBad ctl = false)
    (present : s.noTile j t = false) (sums : (j.tiles.get t.toFin).f32 = true)
    (scales : j.spanOk (lmAsc ctl) (32 * nb) = true) (set : (j.layout tl).set = true)
    (table : lmSlot0 ctl + nb * lmGpb ctl (j.layout tl).word ≤ layS (j.layout tl).word)
    (slots : slotsOk (j.layout tl) (lmSlot0 ctl) (nb * lmGpb ctl (j.layout tl).word) (some (lmAsgn ctl)) = true)
    (aligned : misaligned = false) (records : srcBad (some (nb * lmLen ctl (j.layout tl).word)) = false) :
    lmmCauses s j t tl ctl nb misaligned srcBad = [] := by
  simp [lmmCauses, causeIf, control, present, sums, scales, set, Nat.not_lt.2 table, slots, aligned, records]

theorem tileCauses_nil {a : Option Nat} (present : s.noTile j t = false) (sums : (j.tiles.get t.toFin).f32 = true)
    (span : ∀ x ∈ a, x % 64 = 0 ∧ j.spanOk x 8192 = true) : tileCauses s j t a = [] := by
  cases a with
  | none => simp [tileCauses, causeIf, present, sums]
  | some x =>
    obtain ⟨aligned, inside⟩ := span x rfl
    simp [tileCauses, causeIf, present, sums, aligned, inside]

theorem tableCauses_nil {a : Nat} {save : Bool} (reserved : ctl &&& 0xFFFF_FFFE_E000_E000 = 0) (counted : tcCount ctl ≠ 0)
    (aligned : a % 64 = 0) (set : (j.layout tl).set = true)
    (table : tcFirst ctl + tcCount ctl ≤ layS (j.layout tl).word)
    (span : j.spanOk a (tcCount ctl * laySlotBytes (j.bookOf (j.layout tl).word).k (j.layout tl).word) = true)
    (saves : save = true → tcSgn ctl = false ∧ slotsOk (j.layout tl) (tcFirst ctl) (tcCount ctl) none = true) :
    tableCauses j tl ctl a save = [] := by
  cases save with
  | false => simpa [tableCauses, causeIf, counted, aligned, set, Nat.not_lt.2 table, span] using reserved
  | true =>
    obtain ⟨unsigned, slots⟩ := saves rfl
    simpa [tableCauses, causeIf, counted, aligned, set, Nat.not_lt.2 table, span, unsigned, slots] using reserved

/-- TSAVE's reserved bits are TLOAD's and the bit of signedness (R178). -/
theorem saveReserved (reserved : ctl &&& 0xFFFF_FFFF_E000_E000 = 0) :
    ctl &&& 0xFFFF_FFFE_E000_E000 = 0 ∧ tcSgn ctl = false := by
  have part (m : Word) (sub : 0xFFFF_FFFF_E000_E000 &&& m = m) : ctl &&& m = 0 := by
    rw [← sub, ← BitVec.and_assoc, reserved]
    exact BitVec.zero_and
  refine ⟨part _ (by decide), ?_⟩
  have bit := congrArg (·.getLsbD 32) (part 0x1_0000_0000 (by decide))
  simpa [tcSgn] using bit

end Checks

/-! ### Joining the queue (R160, R175) -/

/-- The job with a command's bytes of its feed issued (R175). -/
def Job.feedTaken (j : Job) : LmeOp → Job
  | .lmm _ tl (.feed f) ctl nb _ =>
    j.setFeed f ((j.feed f).map fun q => { q with issued := q.issued + nb.toNat * lmLen ctl (j.layout tl).word })
  | _ => j

/-- An engine's command that does not wait and whose checks find no cause joins the queue, and its retire stands in the stream's
order. -/
theorem lmeWord_joins {s s1 : State} {h : Hdr} {uses : List Src} {first : Option Src}
    {check : Cursor → Job → State → List (BitVec 8)} {op : Cursor → Job → LmeOp} {c : Cursor} {j : Job}
    (run : Runs s h uses none c j s1) (goes : j.lmeWaits s1.tick (op c j) = false) (sound : check c j s1 = []) :
    lmeWord h uses first check op s =
      .next (inFlight s1 c h.sig
        { j.feedTaken (op c j) with
          nextCmd := j.nextCmd + 1, lme := j.lme ++ [⟨j.nextCmd, c.pc, op c j, 0, false, false, 0⟩] }
        .discard j.nextCmd false false) := by
  obtain ⟨enters, guard, free⟩ := run
  unfold lmeWord
  refine runWord_stop (s2 := { inFlight s1 c h.sig _ .discard j.nextCmd false false with cursor := none }) enters ?_
  simp only [scalarBody, guard, free, unlessBusy, goes, sound, firstCause, Bool.false_eq_true, if_false, if_true]
  -- each stream's registers, the feeds and the queue are fields of their own
  unfold inFlight queueCmd
  rcases c.stream <;> rcases op c j with ⟨_, _, _ | _, _, _, _⟩ | _ | _ | _ | _ | _ <;> rfl

/-- Settles O48: no command waits, none has a cause to trap, and each joins as its operands say. -/
theorem matrixCommandWords : Obligations.MatrixCommandWords := by
  unfold Obligations.MatrixCommandWords
  intro s h t tl cf kc ka nb c j s1 ctl va lay len joins tileOk spanOk lmmOk tableOk _ few
  refine ⟨fun run => ⟨?lmm, ?tload, ?tsave⟩, ?feed, ?tile, ?zero⟩
  case lmm =>
    rintro ⟨control, ⟨present, sums, landed⟩, scales, set, table, slots⟩ aligned span
    exact lmeWord_joins run (lmeWaits_tile few rfl landed)
      (lmmCauses_nil control present sums scales set table slots (by simpa using aligned) (by simpa using span))
  case tload =>
    rintro ⟨counted, aligned, set, table, span⟩ reserved
    exact lmeWord_joins run (lmeWaits_noTile few rfl) (tableCauses_nil reserved counted aligned set table span (by simp))
  case tsave =>
    rintro ⟨counted, aligned, set, table, span⟩ reserved slots
    obtain ⟨reserved, unsigned⟩ := saveReserved reserved
    exact lmeWord_joins run (lmeWaits_noTile few rfl)
      (tableCauses_nil reserved counted aligned set table span fun _ => ⟨unsigned, slots⟩)
  case feed =>
    rintro f run ⟨control, ⟨present, sums, landed⟩, scales, set, table, slots⟩ bound left
    refine (lmeWord_joins run (lmeWaits_tile few rfl landed)
      (lmmCauses_nil control present sums scales set table slots rfl ?records)).trans ?taken
    case records => simpa [bound] using left
    case taken => simp only [Job.feedTaken, bound, Option.map_some, Option.getD_some]; rfl
  case tile =>
    rintro run ⟨present, sums, landed⟩ ⟨aligned, span⟩
    have sound : tileCauses s1 j t (some va.toNat) = [] := tileCauses_nil present sums (by simpa using ⟨aligned, span⟩)
    exact ⟨lmeWord_joins run (lmeWaits_tile few rfl landed) sound, lmeWord_joins run (lmeWaits_tile few rfl landed) sound⟩
  case zero =>
    rintro run ⟨present, sums, landed⟩
    exact lmeWord_joins run (lmeWaits_tile few rfl landed) (tileCauses_nil present sums (by simp))

end Sys2Proof.Machine
end

section
/-! SUPPORT. Words that write results at places of their own in a register: the exceptions they collect, the element that falls in a
lane, and a block's scale; and O37. -/

namespace Sys2Proof.Machine

/-! ### Results at places of their own -/

section Placed

variable {n : Nat} {act : Nat → Bool}

/-- Exceptions joined, wherever the results they come with are placed. -/
theorem joinFlags_placed (place : Nat → Nat) (e : Nat → BitVec 5) :
    joinFlags ((List.range n).filterMap fun i => if act i then some (place i, e i) else none) =
      raisedBy n fun i => if act i then e i else 0 := by
  have joined (l : List Nat) (a : BitVec 5) :
      (l.filterMap fun i => if act i then some (place i, e i) else none).foldl (fun a p => a ||| p.2) a =
        l.foldl (fun a i => a ||| if act i then e i else 0) a := by
    induction l generalizing a with
    | nil => rfl
    | cons i t ih => rcases on : act i <;> simp [on, ih]
  exact joined _ 0

/-- A word that places the results of its active elements, none of whose exceptions is precise, is done. -/
theorem placed_done {s s1 : State} {h : VHdr} {srcs : Cursor → List Touch} {op : Cursor → Job → State → WRes} {c : Cursor}
    {j : Job} {vd : BitVec 7} {w : Nat} {wrote : Nat → Bool} {val : Nat → Nat} {v : Word} {e : Nat → BitVec 5}
    (place : Nat → Nat) (enters : Enters s h.wait h.sig c j s1) (ready : VecReady s1 j (srcs c) [vd])
    (quiet : NoPrecise c n fun i => if act i then e i else 0)
    (is : op c j s1 = raiseLanes c s1 ((List.range n).filterMap fun i => if act i then some (place i, e i) else none) v fun k =>
      k.vecPut (vd, fun b => wrote (b / w)) (mapLanes (k.vreg vd) (8 * w) fun i => if wrote i then some (val i) else none)) :
    VecDone s1 c h j (vecWord h srcs [vd] (fun _ _ _ => []) op s) vd w wrote val v
      (raisedBy n fun i => if act i then e i else 0) := by
  rw [← joinFlags_placed place e]
  refine vecDone_of (vecWord_ok enters ready rfl (is.trans (raiseLanes_ok enters.cursor enters.job fun precise p mem => ?_)) rfl)
    fun i hi => lane_mapLanes_if _ _ _ _ _ hi
  obtain ⟨i, lt, placed⟩ := List.mem_filterMap.1 mem
  have calm := quiet precise i (List.mem_range.1 lt)
  split at placed
  · next on =>
    obtain rfl := Option.some.inj placed
    simpa only [on, if_true] using calm
  · cases placed

/-- A word that computes its active lanes, none of whose exceptions is precise, is done. -/
theorem activeLanes_done {s s1 : State} {h : VHdr} {srcs : Cursor → List Touch} {op : Cursor → Job → State → WRes} {c : Cursor}
    {j : Job} {vd : BitVec 7} {ty : ElemTy} {v : Word} {y : Nat → Nat × BitVec 5} (enters : Enters s h.wait h.sig c j s1)
    (ready : VecReady s1 j (srcs c) [vd]) (quiet : NoPrecise c ty.lanes fun i => if act i then (y i).2 else 0)
    (is : op c j s1 =
      let res := (List.range ty.lanes).map fun i => if act i then some (y i) else none
      raiseLanes c s1 (laneFlags res) v fun k =>
        k.vecPut (vd, activeBytes act ty.bytes) (putLanes (k.vreg vd) ty.bits (res.map fun r => r.map Prod.fst))) :
    VecDone s1 c h j (vecWord h srcs [vd] (fun _ _ _ => []) op s) vd ty.bytes act (fun i => (y i).1) v
      (raisedBy ty.lanes fun i => if act i then (y i).2 else 0) := by
  have lanes : ty.lanes = 2048 / ty.bits := (lanes_bits _).symm
  have put : (fun r => r.map Prod.fst) ∘ (fun i => if act i then some (y i) else none) =
      fun i => if act i then some (y i).1 else none := by
    funext i
    exact apply_ite ..
  refine vecDone_of (vecWord_ok enters ready rfl (is.trans (raiseLanes_active rfl enters.cursor enters.job quiet)) ?_) fun i hi =>
    lane_mapLanes_if (j.vreg vd) ty.bytes act (fun i => (y i).1) i hi
  rw [List.map_map, put, lanes, putLanes_eq]
  rfl

/-- The element in lane `l`, of `n` from lane `base` on: there is one where `l` is in their span and it is active. -/
theorem find_placed {α : Type} (base l : Nat) (y : Nat → α) :
    ((List.range n).filterMap fun i => if act i then some (base + i, y i) else none).find? (fun r => r.1 == l) =
      if decide (base ≤ l) && decide (l - base < n) && act (l - base) then some (l, y (l - base)) else none := by
  induction n with
  | zero => simp
  | succ n ih =>
    rw [List.range_succ, List.filterMap_append, List.find?_append, ih]
    by_cases last : base + n = l
    · subst last
      rcases on : act n <;> simp [on]
    · have span : (decide (base ≤ l) && decide (l - base < n + 1)) = (decide (base ≤ l) && decide (l - base < n)) := by
        rw [← Bool.decide_and, ← Bool.decide_and]
        exact decide_eq_decide.2 (by omega)
      rw [span]
      rcases on : act n <;> simp [on, last]

end Placed

/-! ### Lanes and blocks (R132, R133) -/

/-- A register's lanes by number. -/
theorem lanesOf_eq (r : VReg) (ty : ElemTy) : lanesOf r ty.bits = (List.range ty.lanes).map (lane r ty.bits) :=
  congrArg (fun n => (List.range n).map _) (lanes_bits _)

/-- A block of a list of lanes. -/
theorem take_drop_range {α : Type} (f : Nat → α) (n a b : Nat) :
    (((List.range n).map f).drop a).take b = (List.range (min b (n - a))).map fun i => f (a + i) :=
  List.ext_getElem (by simp) fun i _ _ => by simp

theorem zip_range_map {α : Type} (f : Nat → α) (n : Nat) :
    List.zip (List.range n) ((List.range n).map f) = (List.range n).map fun i => (i, f i) := by
  rw [List.zip, List.zipWith_map_right, List.zipWith_self]

/-- Two lists by number, one after the other. -/
theorem range_append_getElem? {α : Type} (f g : Nat → α) (n m i : Nat) :
    ((List.range n).map f ++ (List.range m).map g)[i]? =
      if decide (i < n + m) then some (if i < n then f i else g (i - n)) else none := by
  rw [List.getElem?_append, List.length_map, List.length_range]
  by_cases low : i < n
  · simp [low, Nat.lt_add_right m low]
  · by_cases high : i < n + m
    · simp [low, high, show i - n < m by omega]
    · simp [low, high, show ¬i - n < m by omega]

/-- Each lane's block is one of those the register has, one at least. -/
theorem block_lt {ty : ElemTy} {i : Nat} (k : Nat) (lt : i < ty.lanes) : i / 2 ^ k < max 1 (ty.lanes / 2 ^ k) := by
  obtain ⟨m, pow⟩ : ∃ m, ty.lanes = 2 ^ m := ⟨8 - Nat.log2 ty.bytes, by cases ty <;> decide⟩
  rw [pow] at lt ⊢
  rcases Nat.le_total k m with whole | part
  · refine lt_max_of_lt_right ?_
    rw [Nat.pow_div whole Nat.two_pos]
    exact Nat.div_lt_of_lt_mul (by rwa [← Nat.pow_add, Nat.add_sub_cancel' whole])
  · refine lt_max_of_lt_left ?_
    rw [Nat.div_eq_of_lt (lt.trans_le (Nat.pow_le_pow_right Nat.two_pos part))]
    exact Nat.one_pos

/-- Every lane quantised under its block's scale. -/
theorem quantised_eq (mode : RMode) (sgn own : Bool) (ty : ElemTy) (k : Nat) (sc : Nat → Nat) (x : Nat → FVal) :
    (List.zip (List.range ty.lanes) ((List.range ty.lanes).map x)).map (fun p =>
      quantLane mode sgn own (((List.range (max 1 (ty.lanes / 2 ^ k))).map sc).getD (p.1 / 2 ^ k) 0) p.2) =
      (List.range ty.lanes).map fun i => quantLane mode sgn own (sc (i / 2 ^ k)) (x i) := by
  rw [zip_range_map, List.map_map]
  refine List.map_congr_left fun i hi => ?_
  have lt := block_lt k (List.mem_range.1 hi)
  simp only [Function.comp_apply, List.getD_eq_getElem?_getD, List.getElem?_map, List.getElem?_range lt, Option.map_some,
    Option.getD_some]

/-- Changing what a word writes where it writes nothing. -/
theorem VecDone.congr {s1 : State} {c : Cursor} {h : VHdr} {j : Job} {o : Host.Outcome State Fault Refusal} {vd : BitVec 7}
    {w : Nat} {wrote : Nat → Bool} {val val' : Nat → Nat} {v : Word} {fl : BitVec 5}
    (done : VecDone s1 c h j o vd w wrote val v fl) (same : ∀ i, wrote i = true → val i = val' i) :
    VecDone s1 c h j o vd w wrote val' v fl := by
  obtain ⟨x, is, lanes⟩ := done
  refine ⟨x, is, fun i hi => (lanes i hi).trans ?_⟩
  split
  · next on => rw [same i on]
  · rfl

/-- A word that writes its quantised lanes from byte 0 on, and what follows them, is done. -/
theorem quantised_done {s s1 : State} {h : VHdr} {srcs : Cursor → List Touch} {op : Cursor → Job → State → WRes} {c : Cursor}
    {j : Job} {vd : BitVec 7} {v : Word} {n m : Nat} {res : List (Nat × BitVec 5)} {tail : List Nat} (q : Nat → Nat × BitVec 5)
    (g : Nat → Nat) (enters : Enters s h.wait h.sig c j s1) (ready : VecReady s1 j (srcs c) [vd])
    (quiet : NoPrecise c n fun i => (q i).2) (lanes : res = (List.range n).map q) (after : tail = (List.range m).map g)
    (is : op c j s1 = raiseLanes c s1 ((List.zip (List.range n) res).map fun p => (p.1, p.2.2)) v fun k =>
      k.vecPut (vd, fun x => decide (x < n + tail.length)) (mapLanes (k.vreg vd) 8 fun i => (res.map Prod.fst ++ tail)[i]?)) :
    VecDone s1 c h j (vecWord h srcs [vd] (fun _ _ _ => []) op s) vd 1 (fun i => decide (i < n + m))
      (fun i => if i < n then (q i).1 else g (i - n)) v (raisedBy n fun i => (q i).2) := by
  refine placed_done (act := fun _ => true) (e := fun i => (q i).2) id enters ready quiet (is.trans ?_)
  have flags : ((List.zip (List.range n) res).map fun p => (p.1, p.2.2)) =
      (List.range n).filterMap fun i => some (i, (q i).2) := by
    rw [lanes, zip_range_map, List.map_map, List.filterMap_eq_map']
    rfl
  have bytes (i : Nat) : (res.map Prod.fst ++ tail)[i]? =
      if decide (i < n + m) then some (if i < n then (q i).1 else g (i - n)) else none := by
    rw [lanes, after, List.map_map]
    exact range_append_getElem? ..
  have length : tail.length = m := by rw [after, List.length_map, List.length_range]
  simp only [flags, bytes, length, Nat.div_one]
  rfl

/-- A byte of VDQBLK's source is an integer by its signedness, or an f8 (R134). -/
theorem dqSource_eq (fpctl : Word) (src : ElemTy) (x : Nat) :
    dqSource fpctl src x =
      if src.isInt then valOfInt (if src.isSigned = true ∧ 128 ≤ x then (x : Int) - 256 else x)
      else decodeF8 (f8Of fpctl) x := by
  simp only [dqSource, intOf_eq, Nat.reduceSub, Nat.reducePow, Int.reducePow]

/-! ### Elements of a conversion (R130) -/

/-- The bytes of a conversion's elements in the register of narrower lanes, or of wider. -/
theorem element_ite (narrow : Prop) [Decidable narrow] (k n l : Nat) (act : Nat → Bool) :
    (if narrow then decide (k ≤ l) && (decide (l - k < n) && act (l - k)) else decide (l < n) && act l) =
      (decide ((if narrow then k else 0) ≤ l) && decide (l - (if narrow then k else 0) < n) &&
        act (l - if narrow then k else 0)) := by
  split
  · exact (Bool.and_assoc ..).symm
  · simp

/-- The lane of a conversion's element in the register of narrower lanes, or of wider. -/
theorem place_ite (narrow : Prop) [Decidable narrow] (k i : Nat) :
    (if narrow then k + i else i) = (if narrow then k else 0) + i := by
  split
  · rfl
  · exact (Nat.zero_add i).symm

/-- Settles O37: an element falls in one lane, a lane in one block, and what each word writes goes where it places it. -/
theorem vectorConversions : Obligations.VectorConversions := by
  unfold Obligations.VectorConversions
  intro s h vd va vs ty src part b c j s1 enters act
  refine ⟨?convert, ?quantise, ?dequantise⟩
  case convert =>
    intro n up el y e _ _ ready quiet
    show VecDone s1 c h j (execVcvt h vd va ty src part s) vd ty.bytes _ _ c.value _
    unfold execVcvt
    simp only [element_ite, place_ite]
    refine placed_done (n := n) (act := act) (e := fun i => (y i).2) (fun i => up ty src + i) enters ready quiet ?_
    have flags : (((List.range n).filterMap fun i => if act i then some (up ty src + i, y i) else none).map fun r => (r.1, r.2.2)) =
        (List.range n).filterMap fun i => if act i then some (up ty src + i, (y i).2) else none := by
      rw [List.map_filterMap]
      simp only [apply_ite (Option.map _), Option.map_some, Option.map_none]
    have lanes (l : Nat) : ((((List.range n).filterMap fun i => if act i then some (up ty src + i, y i) else none).find?
        fun r => r.1 == l).map fun r => r.2.1) = if el (up ty src) l then some (y (l - up ty src)).1 else none := by
      rw [find_placed]
      exact apply_ite ..
    exact congrArg₂ (fun fl put => raiseLanes c s1 fl c.value fun k =>
      k.vecPut (vd, fun b => el (up ty src) (b / ty.bytes)) (mapLanes (k.vreg vd) ty.bits put)) flags (funext lanes)
  case quantise =>
    intro ls bl nb m x own given q _ _
    have values : (lanesOf (c.pre.vreg va) src.bits).map (decodeFloat (fmtOf src)) = (List.range ls).map x := by
      rw [lanesOf_eq, List.map_map]
      rfl
    refine ⟨fun _ ready quiet => ?computed, fun ready quiet => ?given⟩
    case computed =>
      show VecDone s1 c h j (qblkWord h vd va none ty src b s) vd 1 _ _ c.value _
      refine quantised_done (q true own) own enters ready quiet ?lanes ?scales rfl
      case scales => simp only [values, take_drop_range]; rfl
      case lanes =>
        simp only [values, take_drop_range]
        exact quantised_eq m ty.isSigned true src (b.toNat + 3) own x
    case given =>
      show VecDone s1 c h j (qblkWord h vd va (some vs) ty src b s) vd 1 _ _ c.value _
      refine (quantised_done (m := 0) (q false given) given enters ready quiet ?lanes rfl rfl).congr fun i low => ?low
      case low => exact if_pos (of_decide_eq_true low)
      case lanes =>
        simp only [values]
        exact quantised_eq m ty.isSigned false src (b.toNat + 3) given x
  case dequantise =>
    intro ld bl blk y e ready quiet
    show VecDone s1 c h j (execVdqblk h vd va vs ty src b s) vd ty.bytes act (fun i => (y i).1) c.value (raisedBy ld e)
    unfold execVdqblk
    refine activeLanes_done (act := act) (y := y) enters ready quiet ?_
    simp only [dqSource_eq, Bool.or_eq_true, decide_eq_true_eq]
    rfl

end Sys2Proof.Machine
end

section
/-! SUPPORT. Words that move lanes, as functions of the lane; a lane put or read alone; and O38. -/

namespace Sys2Proof.Machine

/-! ### Lane movement (R143) -/

/-- A word that moves lanes yields any values that agree with its own in the bits of the lanes there are. -/
theorem moveWord_congr {s : State} {h : VHdr} {vd : BitVec 7} {ty : ElemTy} {srcs : List (BitVec 7)}
    {f g : Cursor → Nat → Nat}
    (same : ∀ c, ∀ i < ty.lanes, f c i % 2 ^ ty.bits = g c i % 2 ^ ty.bits) :
    LaneYields s h vd (fun _ => srcs.map allOf) ty (moveWord h vd srcs ty f s) fun c i => (g c i, 0) := by
  intro c j s1 e enters ready quiet
  obtain ⟨x, done, lanes⟩ := moveWord_yields s h vd srcs ty f c j s1 enters ready quiet
  exact ⟨x, done, fun i hi => (lanes i hi).trans (if_congr Iff.rfl (same c i hi) rfl)⟩

/-- Lane `i` of VSLIDE.up by `k` is lane `i + n - k` of the `n` lanes of `b` with those of `a` after them. -/
theorem slideUp_eq {n k i : Nat} (low : i < n) (a b : Nat → Nat) :
    (if k ≤ i then a (i - k) else if k ≤ i + n then b (n + i - k) else 0) =
      if k ≤ i + n then
        (if i + n - k < n then b (i + n - k) else if i + n - k < 2 * n then a (i + n - k - n) else 0)
      else 0 := by
  by_cases high : k ≤ i
  · rw [if_pos high, if_pos (by omega), if_neg (by omega), if_pos (by omega), show i + n - k - n = i - k by omega]
  · rw [if_neg high, Nat.add_comm n i]
    exact if_ctx_congr Iff.rfl (fun _ => (if_pos (by omega)).symm) fun _ => rfl

/-- Mask 7 names every lane (R116). -/
theorem mask_seven_getLsbD (j : Job) {i : Nat} (lt : i < 256) : (j.mask 7).getLsbD i = true :=
  (BitVec.getLsbD_allOnes ..).trans (decide_eq_true lt)

theorem elemLanes_le (ty : ElemTy) : ty.lanes ≤ 256 := Nat.div_le_self ..

theorem elemBits_le (ty : ElemTy) : ty.bits ≤ 64 := by cases ty <;> decide

/-! ### A single lane (R144) -/

section Single

variable {s s1 : State} {h : VHdr} {c : Cursor} {j : Job} {ty : ElemTy} {ka kb : Src}

/-- VINS into a lane that is there writes it alone. -/
theorem execVins_lane {vd : BitVec 7} (enters : Enters s h.wait h.sig c j s1) (ready : VecReady s1 j [] [vd])
    (there : (c.regs.src kb).toNat < ty.lanes) :
    VecDone s1 c h j (execVins h vd ka kb ty s) vd ty.bytes (fun i => decide (i = (c.regs.src kb).toNat))
      (fun _ => (c.regs.src ka).toNat) c.value 0 := by
  refine vecDone_of (x := mapLanes (j.vreg vd) (8 * ty.bytes) fun i =>
    if decide (i = (c.regs.src kb).toNat) then some ((c.regs.src ka).toNat % 2 ^ ty.bits) else none)
    (vecWord_quiet (srcs := fun _ => []) enters ready ?effect) fun i hi => ?lanes
  case effect =>
    simp only [if_neg (Nat.not_le.2 there), decide_eq_true_eq]
    exact congrArg (WRes.ok · c.value none) (State.modJob_eq enters.job _)
  case lanes =>
    rw [lane_mapLanes_if _ _ (fun i => decide (i = (c.regs.src kb).toNat)) _ i hi]
    exact if_congr Iff.rfl (Nat.mod_mod _ _) rfl

/-- VINS into a lane past the last writes nothing. -/
theorem execVins_past {vd : BitVec 7} (enters : Enters s h.wait h.sig c j s1) (ready : VecReady s1 j [] [vd])
    (past : ty.lanes ≤ (c.regs.src kb).toNat) : execVins h vd ka kb ty s = .next (wordDone s1 c h j c.value 0) := by
  refine vecWord_quiet (srcs := fun _ => []) enters ready ?_
  rw [if_pos past]
  exact congrArg (WRes.ok · c.value none) (State.withJobs_self s1 enters.job).symm

/-- VEXT pushes a lane's value by its signedness, zero for a lane past the last. -/
theorem execVext_pushes {va : BitVec 7} (enters : Enters s h.wait h.sig c j s1)
    (ready : VecReady s1 j [(va, fun b => b / ty.bytes == (c.regs.src kb).toNat)] []) :
    let k := (c.regs.src kb).toNat
    let y := if k < ty.lanes then srcLane c va ty k else 0
    let v : Word :=
      if ty.isSigned = true ∧ 2 ^ (ty.bits - 1) ≤ y then BitVec.ofInt 64 ((y : Int) - 2 ^ ty.bits) else BitVec.ofNat 64 y
    execVext h va kb ty s = .next (wordDone s1 c h (j.put c .push v) v 0) := by
  intro k y v
  have fits : y < 2 ^ ty.bits := by
    simp only [y]
    split
    · exact srcLane_lt ..
    · exact Nat.two_pow_pos _
  have extended : (if ty.isSigned then sext64 y ty.bits else BitVec.ofNat 64 y) = v := by
    rw [sext64_eq (elemBits_pos ty) (elemBits_le ty) fits]
    simp only [v]
    rcases ty.isSigned <;> simp
  refine vecWord_quiet (srcs := fun c => [(va, fun b => b / ty.bytes == (c.regs.src kb).toNat)]) enters ready ?_
  rw [← extended]
  exact pushResult_eq enters.job _

end Single

/-- Settles O38: each moving word's lane function agrees with the stated one, and a single lane is put or pushed. -/
theorem vectorMoves : Obligations.VectorMoves := by
  unfold Obligations.VectorMoves
  intro s h vd va vb vc ka kb mc idx ty n all x cat
  refine ⟨?perm, ?shuf, ?bcast, ?slideDn, ?slideUp, ?sel, ?iota, ?ins, ?ext⟩
  case perm => exact moveWord_congr fun c i _ => rfl
  case shuf =>
    refine moveWord_congr fun c i low => congrArg (· % 2 ^ ty.bits) ?_
    have both : x vc c i % (2 * n) < 2 * n := Nat.mod_lt _ (by omega)
    exact if_congr Iff.rfl rfl (if_pos both).symm
  case bcast => exact moveWord_congr fun c i _ => Nat.mod_mod _ _
  case slideDn => exact moveWord_congr fun c i _ => rfl
  case slideUp =>
    exact moveWord_congr fun c i low => congrArg (· % 2 ^ ty.bits) (slideUp_eq low (x va c) (x vb c))
  case sel =>
    refine moveWord_congr fun c i low => congrArg (· % 2 ^ ty.bits) ?_
    have every (seven : mc = 7) : (c.pre.mask mc).getLsbD i = true :=
      seven ▸ mask_seven_getLsbD c.pre (low.trans_le (elemLanes_le ty))
    exact if_congr (or_iff_right_of_imp every).symm rfl rfl
  case iota => exact moveWord_congr fun c i _ => Nat.mod_mod _ _
  case ins =>
    intro c j s1 enters ready k
    exact ⟨execVins_lane enters ready, execVins_past enters ready⟩
  case ext =>
    intro c j s1 enters ready
    exact execVext_pushes enters ready

end Sys2Proof.Machine
end

section
/-! SUPPORT. Words that load or store active lanes at addresses of their own; and O39. -/

namespace Sys2Proof.Machine

/-! ### Lanes in the scratchpad (R140) -/

theorem loadLane_eq (j : Job) (a n : Nat) : loadLane j a n = leNat ((List.range n).map fun k => cellGet j.sp (a + k)) :=
  congrArg leNat (cellGetN_eq ..)

theorem storeLanes_map (j : Job) (l : List Nat) (a x : Nat → Nat) (w : Nat) :
    storeLanes j (l.map fun i => (a i, leBytes w (x i))) =
      l.foldl (fun k i => k.spPut (a i) ((List.range w).map fun n => BitVec.ofNat 8 (x i / 2 ^ (8 * n)))) j := by
  simp only [storeLanes, List.foldl_map, leBytes_eq_map]

section Access

variable {s s1 : State} {h : VHdr} {srcs : Cursor → List Touch} {c : Cursor} {j : Job} {w : Nat} {addr : Cursor → Nat → Nat}

/-- What a V word has read plays no part where it finds no cause. -/
theorem vecWordAt_eq_vecWord {reads : Cursor → Job → Option (Nat × Nat)} {dsts : List (BitVec 7)}
    {more : Cursor → Job → State → List (BitVec 8)} {op : Cursor → Job → State → WRes} (enters : Enters s h.wait h.sig c j s1)
    (ready : VecReady s1 j (srcs c) dsts) (passes : more c j s1 = []) :
    vecWordAt reads h srcs dsts more op s = vecWord h srcs dsts more op s := by
  unfold vecWord vecWordAt
  rw [runWord_enters _ _ enters, runWord_enters _ _ enters]
  simp only [vecCauses_ready ready, passes, List.append_nil, firstCause]

/-- A word that loads its active lanes from inside the windows takes the bytes at their addresses. -/
theorem loadWord_done {vd : BitVec 7} (enters : Enters s h.wait h.sig c j s1) (ready : VecReady s1 j (srcs c) [vd])
    (fits : spanCauses j true ((activeUnits c h w).map fun i => (addr c i, w)) = []) :
    VecDone s1 c h j (loadWord h vd srcs w addr s) vd w (laneActive c h)
      (fun i => leNat ((List.range w).map fun k => cellGet j.sp (addr c i + k))) c.value 0 := by
  refine vecDone_of (x := mapLanes (j.vreg vd) (8 * w) fun i =>
    if laneActive c h i then some (loadLane j (addr c i) w) else none) ?effect fun i hi => ?lanes
  case effect =>
    exact (vecWordAt_eq_vecWord enters ready fits).trans
      (vecWord_checked enters ready fits (congrArg (WRes.ok · c.value none) (State.modJob_eq enters.job _)))
  case lanes =>
    rw [lane_mapLanes_if _ _ _ _ _ hi, loadLane_eq]

/-- A word that stores its active lanes inside the windows puts their bytes at their addresses, one after the other. -/
theorem storeWord_done {vs : BitVec 7} (enters : Enters s h.wait h.sig c j s1)
    (ready : VecReady s1 j ((vs, activeBytes (laneActive c h) w) :: srcs c) [])
    (fits : spanCauses j false ((activeUnits c h w).map fun i => (addr c i, w)) = []) :
    storeWord h vs srcs w addr s = .next (wordDone s1 c h
      ((activeUnits c h w).foldl (fun k i =>
        k.spPut (addr c i) ((List.range w).map fun n => BitVec.ofNat 8 (lane (c.pre.vreg vs) (8 * w) i / 2 ^ (8 * n)))) j)
      c.value 0) := by
  rw [← storeLanes_map]
  exact vecWord_checked (srcs := fun c => (vs, activeBytes (laneActive c h) w) :: srcs c) enters ready fits
    (congrArg (WRes.ok · c.value none) (State.modJob_eq enters.job _))

end Access

/-- Settles O39: each word is a load or a store of its active units, at the addresses of R141 and R142. -/
theorem vectorLoadsAndStores : Obligations.VectorLoadsAndStores := by
  unfold Obligations.VectorLoadsAndStores
  intro s h vd vb ka kb off ty bm c j s1 enters act a on seq stride idx u fits loaded stored
  refine ⟨fun ready inside => ?vld, fun ready inside => ?vlds, fun ready inside => ?vgats, fun ready inside => ?vst,
    fun ready inside => ?vscats⟩
  case vld | vlds | vgats => exact loadWord_done enters ready inside
  case vst | vscats => exact storeWord_done enters ready inside

end Sys2Proof.Machine
end

section
/-! SUPPORT. What the synchronous words of M find sound, and what each writes; and O47. -/

namespace Sys2Proof.Machine

/-- A word without a destination that changes its job by `f` and nothing else. -/
theorem scalarWord_modJob {s s1 : State} {h : Hdr} {uses : List Src} {first : Option Src} {c : Cursor} {j : Job}
    {op : Cursor → Job → State → WRes} {f : Job → Job} {v : Word} {nx : Option Word} (run : Runs s h uses none c j s1)
    (res : op c j s1 = .ok (s1.modJob c.job f) v nx) :
    scalarWord h uses first none op s = .next (issued s1 c h.sig (f j) v nx) :=
  scalarWord_setJob run (res.trans (by rw [State.modJob_eq run.1.job]; rfl))

/-! ### Codebooks (R164) -/

/-- The entries kept of what a codebook's 16 bytes hold. -/
theorem keepEntries_ofNat {k : Nat} (le : k ≤ 16) (x : Nat) :
    keepEntries k (BitVec.ofNat 128 x) = BitVec.ofNat 128 (x % 2 ^ (8 * k)) := by
  rw [keepEntries, BitVec.toNat_ofNat, Nat.mod_mod_of_dvd _ (Nat.pow_dvd_pow 2 (by omega))]

theorem asym_eq_false {b : Codebook} : asym b = false ↔ ∀ i < b.k, b.entry (b.k - 1 - i) = -(b.entry i) := by
  simp [asym]

section Words

variable {s s1 : State} {h : Hdr} {kc ka : Src} {c : Cursor} {j : Job}

/-- A sound codebook is loaded, and the layouts that name it are undefined (R164). -/
theorem execCbload_loads {cb : BitVec 3} {ctl : Word} {at' k : Nat} {b : Codebook} (control : c.regs.src kc = ctl)
    (place : (c.regs.src ka).toNat = at') (size : (ctl.extractLsb' 0 5).toNat = k)
    (book : ⟨true, k, ctl.getLsbD 8, BitVec.ofNat 128 (leNat (cellGetN j.sp at' 16) % 2 ^ (8 * k))⟩ = b)
    (run : Runs s h [kc, ka] none c j s1) (free : ∀ x ∈ j.layoutsOf cb, j.layoutBusy x = false)
    (reserved : ctl &&& 0xFFFF_FFFF_FFFF_FEE0 = 0) (low : 2 ≤ k) (high : k ≤ 16) (inside : j.spanOk at' 16 = true)
    (sound : unitsTouch j.spBad at' 16 = false) (symmetric : ctl.getLsbD 8 = true → asym b = false) :
    execCbload h cb kc ka s = .next (issued s1 c h.sig
      ((j.layoutsOf cb).foldl (fun q x => q.setLayout x { q.layout x with set := false, slots := [] })
        { j with books := j.books.set cb.toNat b cb.isLt }) c.value none) := by
  have idle : (j.layoutsOf cb).any j.layoutBusy = false := List.any_eq_false.2 fun x mem => by simp [free x mem]
  have claim : (ctl.getLsbD 8 && asym b) = false := by
    rcases on : ctl.getLsbD 8
    · rfl
    · exact symmetric on
  unfold execCbload
  refine scalarWord_modJob (f := fun q => (j.layoutsOf cb).foldl
    (fun q x => q.setLayout x { q.layout x with set := false, slots := [] })
    { q with books := q.books.set cb.toNat b cb.isLt }) run ?_
  simp only [control, place, size, keepEntries_ofNat high, book, idle, unlessBusy, inside, sound, reserved,
    Nat.not_lt.2 low, Nat.not_lt.2 high, bne_self_eq_false, decide_false, Bool.or_self, Bool.not_true, Bool.false_eq_true, if_false]
  simp only [claim, causeIf, firstCause, List.append_nil, Bool.false_eq_true, if_false]

/-- A sound control word becomes a layout's, with no slot of it valid (R165, R166). -/
theorem execTlset_sets {tl : BitVec 2} (run : Runs s h [kc] none c j s1) (free : j.layoutBusy tl = false)
    (sound : tlsetCauses j (c.regs.src kc) = []) :
    execTlset h tl kc s = .next (issued s1 c h.sig (j.setLayout tl ⟨true, c.regs.src kc, []⟩) c.value none) := by
  unfold execTlset
  refine scalarWord_modJob (f := fun k => k.setLayout tl ⟨true, c.regs.src kc, []⟩) run ?_
  simp only [free, unlessBusy, sound, firstCause, Bool.false_eq_true, if_false]

/-- A feed begins at the first byte of a sound descriptor (R174). -/
theorem execCfeed_opens {cf : BitVec 2} {at' : Nat} {d : BitVec 512} (place : (c.regs.src ka).toNat = at')
    (descriptor : BitVec.ofNat 512 (leNat (cellGetN j.sp at' 64)) = d) (slot : c.slot = none)
    (run : Runs s h [ka] none c j s1) (free : j.feedBusy cf = false) (aligned : at' % 64 = 0) (inside : j.spanOk at' 64 = true)
    (sound : unitsTouch j.spBad at' 64 = false) (formed : fdBad d = false) (path : pathOf (fdBase d) ≤ 1) :
    execCfeed h cf ka s = .next (issued s1 c h.sig (j.setFeed cf (some ⟨d, 0, 0, []⟩)) c.value none) := by
  have bytes : j.spLoad c.slot at' 64 = .ok (cellGetN j.sp at' 64) := by
    rw [slot, spLoad_inside inside sound, cellGetN_eq]
  unfold execCfeed
  refine scalarWord_modJob (f := fun k => k.setFeed cf (some ⟨d, 0, 0, []⟩)) run ?_
  simp only [place, free, unlessBusy, aligned, bytes, descriptor, formed, Nat.not_lt.2 path, ne_eq, not_true_eq_false,
    Bool.false_eq_true, if_false]

/-- LWAKE wakes the gated sub-arrays of its mask, but in a timed job, whose sub-arrays are awake (R179). -/
theorem execLwake_wakes {mask : BitVec 4} (run : Runs s h [] none c j s1) :
    execLwake h mask s = .next
      (issued (if j.timed then s1 else s1.modCore j.core (wakeSubs s1.tick mask)) c h.sig j c.value none) := by
  unfold execLwake
  rcases timed : j.timed
  · have woken := modCore_accessed s1 j.core (wakeSubs s1.tick mask)
    refine scalarWord_ok (d := none) run (by simp only [timed, Bool.false_eq_true, if_false]) (woken.cursor.trans run.1.cursor) ?_
    exact woken.jobs ▸ run.1.job
  · exact scalarWord_same run (by simp only [timed, if_true])

/-- LSTAT pushes its status; the count of reserved codes, once read, is zero (R180). -/
theorem execLstat_pushes {sel : BitVec 12} {v : Nat} (run : Runs s h [] (some .push) c j s1)
    (status : lstatValue s1 j sel.toNat = some v) :
    execLstat h sel s = .next (issued s1 c h.sig
      ((if sel = 1 then { j with rsvd := 0 } else j).put c .push (BitVec.ofNat 64 v)) (BitVec.ofNat 64 v) none) := by
  obtain ⟨lt, _⟩ := List.getElem?_eq_some_iff.1 run.1.job
  unfold execLstat
  by_cases one : sel = 1
  · rw [if_pos one]
    refine (scalarWord_ok (d := some .push) (j2 := { j with rsvd := 0 }) (s2 := s1.setJob c.job { j with rsvd := 0 })
      (v := BitVec.ofNat 64 v) (nx := none) run ?_ run.1.cursor (by simp [lt])).trans ?_
    · simp only [status, if_pos one, State.modJob_eq run.1.job, State.setJob]
    · simp [issued, State.setJob, List.set_set]
  · rw [if_neg one]
    exact scalarWord_ok (d := some .push) run (by simp only [status, one, if_false]) run.1.cursor run.1.job

/-- TDECL sets the type and the discard flag of a tile that is there and that no command owns (R162). -/
theorem execTdecl_declares {t : BitVec 2} {f32 disc : Bool} (run : Runs s h [] none c j s1) (present : s1.noTile j t = false)
    (free : j.tileOwned t.toNat = false) :
    execTdecl h t f32 disc s =
      .next (issued s1 c h.sig { j with tiles := j.tiles.set t.toNat ⟨f32, disc⟩ t.isLt } c.value none) := by
  unfold execTdecl
  refine scalarWord_modJob (f := fun k => { k with tiles := k.tiles.set t.toNat ⟨f32, disc⟩ t.isLt }) run ?_
  simp only [present, free, Bool.false_eq_true, if_false]

/-- A feed that no command uses is let go (R176). -/
theorem execCunfeed_closes {cf : BitVec 2} (run : Runs s h [] none c j s1) (free : j.feedBusy cf = false) :
    execCunfeed h cf s = .next (issued s1 c h.sig (j.setFeed cf none) c.value none) := by
  unfold execCunfeed
  refine scalarWord_modJob (f := fun k => k.setFeed cf none) run ?_
  simp only [free, Bool.false_eq_true, if_false]

end Words

/-! ### Statuses (R180) -/

theorem lstatValue_feed (s : State) (j : Job) (i : Fin 4) :
    lstatValue s j (BitVec.ofNat 12 (0x010 + i.val)).toNat =
      some (match j.feeds.get i with | some f => f.issued | none => 2 ^ 64 - 1) := by
  fin_cases i <;> rfl

theorem lstatValue_book (s : State) (j : Job) (i : Fin 8) :
    lstatValue s j (BitVec.ofNat 12 (0x030 + i.val)).toNat =
      some (let b := j.books.get i; if b.loaded then b.k + (if b.sym then 256 else 0) + 512 else 0) := by
  fin_cases i <;> rfl

/-- The path of a feed's first address, in its descriptor (R174). -/
theorem pathOf_fdBase (d : BitVec 512) : pathOf (fdBase d) = (d.extractLsb' 56 4).toNat :=
  congrArg BitVec.toNat (BitVec.eq_of_getLsbD_eq fun i lt => by simp [fdBase])

/-- Settles O47: nothing a word is about is in use, no check finds a cause, and each word makes one change of its job. -/
theorem matrixSetupWords : Obligations.MatrixSetupWords := by
  unfold Obligations.MatrixSetupWords
  intro s h t tl cf cb f32 disc mask kc ka c j s1 ctl at' done slot
  refine ⟨execTdecl_declares, ?cbload, execTlset_sets, ?cfeed, execCunfeed_closes, execLwake_wakes, ?lstat⟩
  case cbload =>
    intro k e b run free reserved low high inside sound symmetric
    exact execCbload_loads rfl rfl rfl rfl run free reserved low high inside sound fun on => asym_eq_false.2 (symmetric on)
  case cfeed =>
    intro d run free aligned inside sound formed path
    exact execCfeed_opens rfl rfl slot run free aligned inside sound formed ((pathOf_fdBase d).trans_le path)
  case lstat =>
    intro run pushes
    have plain (sel : BitVec 12) (v : Nat) (other : sel ≠ 1) (status : lstatValue s1 j sel.toNat = some v) : pushes sel j v := by
      have pushed := execLstat_pushes run status
      rwa [if_neg other] at pushed
    have reserved : pushes 0x001 { j with rsvd := 0 } j.rsvd.toNat := by
      have pushed := execLstat_pushes (sel := 0x001) (v := j.rsvd.toNat) run rfl
      rwa [if_pos rfl] at pushed
    exact ⟨reserved, plain, fun i => plain _ _ (by fin_cases i <;> decide) (lstatValue_feed s1 j i),
      fun i => plain _ _ (by fin_cases i <;> decide) (lstatValue_book s1 j i)⟩

end Sys2Proof.Machine
end

section
/-! SUPPORT. The head of the LME's queue: what its steps leave of the job, and what each step of the engine, its sub-arrays and its
feeds comes to; and O49. -/

namespace Sys2Proof.Machine

/-! ### What a command's effect leaves of the job (R170, R177, R178) -/

/-- A K step changes tile rows only. -/
theorem KStep.run_job (p : KStep) (t : Nat) (j : Job) : (p.run t j).1 = { j with v := (p.run t j).1.v } := by
  unfold KStep.run
  refine List.foldlRecOn (motive := fun a : Job × Nat × BitVec 5 => a.1 = { j with v := a.1.v }) _ _ rfl fun a ih row _ => ?_
  dsimp only
  rw [ih]

/-- A tile replaced is a change of its rows. -/
theorem Job.putTile_job (j : Job) (t : Nat) (f : Nat → VReg) : ∃ v bad, j.putTile t f = { j with v := v, tileBad := bad } :=
  ⟨_, _, rfl⟩

/-- A whole command leaves the queue and M's registers as they are. -/
theorem Job.runWhole_keeps (j : Job) (x : LmeCmd) : (j.runWhole x).1.lme = j.lme ∧ (j.runWhole x).1.m = j.m := by
  have tile (t : Nat) (f : Nat → VReg) : (j.putTile t f).lme = j.lme ∧ (j.putTile t f).m = j.m := by
    obtain ⟨v, bad, put⟩ := j.putTile_job t f
    rw [put]
    exact ⟨rfl, rfl⟩
  unfold Job.runWhole
  cases x.op with
  | lmm | tload => exact ⟨rfl, rfl⟩
  | spill | tsave => exact ⟨Job.spPut_lme .., Job.spPut_m ..⟩
  | fill | zero => exact tile ..

/-! ### The head of the queue (R160, R181, R359) -/

theorem Job.lmeHead_cons {j : Job} {x : LmeCmd} {rest : List LmeCmd} (queue : j.lme = x :: rest) : j.lmeHead = some x := by
  rw [Job.lmeHead, queue]
  rfl

/-- A K step that consumes uncorrectable data is one of an LMM. -/
theorem Job.nextStep_ue {j : Job} {x : LmeCmd} {rest : List LmeCmd} {u : Nat × Nat} (queue : j.lme = x :: rest)
    (meets : j.nextStep = .ue u) : ∃ t tl src ctl nb start, x.op = .lmm t tl src ctl nb start := by
  unfold Job.nextStep at meets
  rw [Job.lmeHead_cons queue] at meets
  rcases op : x.op with ⟨t, tl, src, ctl, nb, start⟩ | _ | _ | _ | _ | _
  case lmm => exact ⟨t, tl, src, ctl, nb, start, rfl⟩
  all_goals simp [op] at meets

/-- A job whose engines move is in no drain. -/
theorem Job.drains_of_enginesMove {j : Job} (moves : j.enginesMove = true) : j.drains = false := by
  simp only [Job.enginesMove, Bool.and_eq_true, Bool.not_eq_true'] at moves
  obtain ⟨⟨-, free⟩, stays⟩ := moves
  simp [Job.drains, free, stays]

section Engine

variable {s : State} {n : Nat} {j : Job} {x : LmeCmd} {rest : List LmeCmd} (job : s.jobs[n]? = some j) (queue : j.lme = x :: rest)

include job queue

/-- The head starts once its sub-arrays are awake; until then they are woken (R160, R179). -/
theorem execLmeCommandStart_head (moves : j.enginesMove = true) (new : x.started = false) (going : x.stopped = false) :
    execLmeCommandStart n s = .next (
      if (s.core j.core).awake x.op.subs then { s with jobs := s.jobs.set n { j with lme := { x with started := true } :: rest } }
      else s.modCore j.core (wakeSubs s.tick x.op.subs)) := by
  simp only [execLmeCommandStart, job, Job.lmeHead_cons queue, Job.setLmeHead, queue, List.tail_cons, moves, new, going,
    Bool.not_true, Bool.or_self, Bool.false_eq_true, if_false, State.setJob]

/-- A K step that has its data changes its rows, counts its reserved codes, and takes its bytes from its feed (R170, R175). -/
theorem execLmmKStepDone_ready {p : KStep} {t : Nat} (moves : j.enginesMove = true) (gate : s.gateOpen j.core = true)
    (ready : j.nextStep = .ready p t) (k : Job)
    (stepped : k = { (p.run t j).1 with
      lme := { x with steps := x.steps + 1, flags := x.flags ||| (p.run t j).2.2 } :: rest
      rsvd := j.rsvd + BitVec.ofNat 64 (p.run t j).2.1 }) :
    execLmmKStepDone n s = .next (
      if (s.core j.core).awake x.op.subs then { s with
        jobs := s.jobs.set n (match x.op.feed with
          | none => k
          | some f => k.setFeed f ((j.feed f).map fun q =>
              { q with consumed := q.consumed + p.bytes.length, buf := q.buf.drop p.bytes.length })) }
      else s.modCore j.core (wakeSubs s.tick x.op.subs)) := by
  unfold execLmmKStepDone
  simp only [job, moves, gate, Job.lmeHead_cons queue, ready, Bool.not_true, Bool.or_self, Bool.false_eq_true, if_false]
  rcases awake : (s.core j.core).awake x.op.subs
  · rfl
  · have same := p.run_job t j
    rcases run : p.run t j with ⟨j1, rs, fl⟩
    rw [run] at same stepped
    rw [stepped]
    simp only at same
    rw [same]
    simp only [Job.setLmeHead, queue, List.tail_cons, Bool.not_true, Bool.false_eq_true, if_false, if_true, State.setJob, Job.feed]
    rcases x.op.feed <;> rfl

/-- A command whose work is over has its effect, adds its flags, rests its sub-arrays, and lets its retire follow (R160, R258). -/
theorem execLmeCommandComplete_over (ended : j.lmeOver x = true) :
    execLmeCommandComplete n s = .next
      ((({ s with
          jobs := s.jobs.set n
            { (j.runWhole x).1 with
              lme := rest, m := (setEntryValue j.m x.id (BitVec.ofNat 64 (j.runWhole x).2)).orFlags x.flags } } : State).modCore
        j.core (restIdle x.op.subs)).settle n) := by
  have kept := j.runWhole_keeps x
  unfold execLmeCommandComplete
  rcases run : j.runWhole x with ⟨j1, count⟩
  rw [run] at kept
  obtain ⟨lme, m⟩ : j1.lme = j.lme ∧ j1.m = j.m := kept
  simp only [job, Job.lmeHead_cons queue, ended, run, lme, m, queue, List.tail_cons, Bool.not_true, Bool.false_eq_true, if_false, State.setJob]

/-- A command that consumes uncorrectable data stops where it is, its sub-arrays rest, and MEM_UE is raised (R181). -/
theorem execLmeAsyncFault_ue {u : Nat × Nat} (started : x.started = true) (going : x.stopped = false)
    (meets : (j.enginesMove = true ∧ j.nextStep = .ue u) ∨ ((j.enginesMove || j.drains) = true ∧ j.wholeUe x.op = some u)) :
    execLmeAsyncFault n s = .next
      (({ (({ s with jobs := s.jobs.set n { j with lme := { x with stopped := true } :: rest } } : State).modCore
          j.core (restIdle x.op.subs)) with ueAt := some u } : State).asyncTrap n .m ⟨causeMemUe, x.pc, 0, asyncInfo x.steps⟩) := by
  unfold execLmeAsyncFault
  rcases meets with ⟨moves, meets⟩ | ⟨moves, meets⟩
  · obtain ⟨t, tl, src, ctl, nb, start, op⟩ := Job.nextStep_ue queue meets
    simp only [job, Job.lmeHead_cons queue, started, going, op, moves, meets, Job.setLmeHead, queue, List.tail_cons, Bool.not_true, Bool.or_self,
      Bool.false_eq_true, if_false, State.setJob]
  · rcases op : x.op with _ | _ | _ | _ | _ | _
    case lmm => simp [op, Job.wholeUe] at meets
    all_goals
      rw [op] at meets
      simp only [job, Job.lmeHead_cons queue, started, going, op, moves, meets, Job.setLmeHead, queue, List.tail_cons, Bool.not_true, Bool.or_self,
        Bool.false_eq_true, if_false, if_true, Option.map_some, State.setJob]

end Engine

/-! ### Traps outside any word (R359) -/

section Traps

variable {s : State} {n : Nat} {j : Job} {x : StreamId} {r : TrapRec} (job : s.jobs[n]? = some j)

include job

theorem asyncTrap_taken (moves : j.drains = false) : s.asyncTrap n x r = s.takeTrap n x none r := by
  simp only [State.asyncTrap, job, moves, Bool.false_eq_true, if_false]

theorem asyncTrap_recorded (drains : j.drains = true) :
    s.asyncTrap n x r = s.modJob n fun k => { k with pendTrap := k.pendTrap ++ [(x, r)] } := by
  simp only [State.asyncTrap, State.modJob, job, drains, if_true]

end Traps

/-! ### Sub-arrays (R179, R258) -/

/-- Two changes of a core that agree on it as it is. -/
theorem State.modCore_congr {s : State} {c : Nat} {f g : Core → Core} (same : f (s.core c) = g (s.core c)) :
    s.modCore c f = s.modCore c g := by
  unfold State.modCore
  split
  case isTrue lt =>
    rw [State.core, dif_pos lt] at same
    rw [same]
  case isFalse => rfl

theorem execSubarrayGate_due {s : State} {core : Nat} {sub : BitVec 2}
    (due : s.gateDue s.tick core sub.toNat ((s.core core).subs.get sub.toFin) = true) :
    execSubarrayGate core sub s = .next (s.modCore core fun k =>
      { k with subs := k.subs.set sub.toNat { (s.core core).subs.get sub.toFin with awake := false } sub.isLt }) :=
  congrArg Host.Outcome.next (State.modCore_congr (by simp only [due, if_true]))

theorem execSubarrayWakeDone_due {s : State} {core t : Nat} {sub : BitVec 2}
    (wakes : ((s.core core).subs.get sub.toFin).wakeAt = some t) (due : t ≤ s.tick) :
    execSubarrayWakeDone core sub s =
      .next (s.modCore core fun k => { k with subs := k.subs.set sub.toNat ⟨true, none, 0⟩ sub.isLt }) :=
  congrArg Host.Outcome.next (State.modCore_congr (by simp only [wakes, due, if_true]))

/-! ### Feeds (R175) -/

/-- The next unit of a feed's stream joins its buffer. -/
theorem execFeedFetch_reads {s t : State} {n : Nat} {j : Job} {cf : BitVec 2} {q : Feed} {b : List Byte}
    (job : s.jobs[n]? = some j) (opened : j.feed cf = some q) (moves : j.enginesMove = true) (free : j.feedHeld = false)
    (left : q.consumed + q.buf.length < fdLen q.desc) (room : q.buf.length + 8 ≤ 32768)
    (read : s.agentRead (whoOf n j .m none 0) (fdAddr q.desc (q.consumed + q.buf.length)) 8 false false = .ok t b) :
    execFeedFetch n cf s = .next { t with
      jobs := s.jobs.set n (j.setFeed cf (some { q with buf := q.buf ++ b.map fun y => (y, 0) })) } := by
  have accessed : (MRes.ok t b).Ok s := read ▸ agentRead_accessed ..
  have jobs : t.jobs = s.jobs := accessed.jobs
  simp only [execFeedFetch, job, opened, moves, free, Nat.not_le.2 left, codeBuffer, Nat.not_lt.2 room, decide_false, Bool.not_true,
    Bool.or_self, Bool.false_eq_true, if_false, read, State.modJob_eq (jobs ▸ job), jobs]

/-- Settles O49: each step of the engine by what it makes of the head of the queue, and of a sub-array and a feed as they are. -/
theorem matrixEngineSteps : Obligations.MatrixEngineSteps := by
  unfold Obligations.MatrixEngineSteps
  intro s n j x rest core sub cf
  refine ⟨fun job queue going => ?engine, fun _ => ⟨execSubarrayGate_due, fun _ => execSubarrayWakeDone_due⟩,
    fun q t b job opened moves free left room read => execFeedFetch_reads job opened moves free left room read⟩
  intro awake stopped ue
  obtain ⟨lt, _⟩ := List.getElem?_eq_some_iff.1 job
  have stands (u : Nat × Nat) : ({ stopped with ueAt := some u } : State).jobs[n]? =
      some { j with lme := { x with stopped := true } :: rest } := by
    have jobs : ({ stopped with ueAt := some u } : State).jobs = _ := (modCore_accessed ..).jobs
    rw [jobs, List.getElem?_set_self lt]
  refine ⟨fun moves new => execLmeCommandStart_head job queue moves new going,
    fun p t moves gate ready => execLmmKStepDone_ready job queue moves gate ready _ rfl, execLmeCommandComplete_over job queue,
    fun u started moves meets => ?taken, fun u started drains meets => ?recorded⟩
  case taken =>
    refine (execLmeAsyncFault_ue job queue started going
      (meets.imp (⟨moves, ·⟩) (⟨by rw [moves]; rfl, ·⟩))).trans (congrArg Host.Outcome.next ?_)
    exact asyncTrap_taken (stands u) (Job.drains_of_enginesMove moves)
  case recorded =>
    refine (execLmeAsyncFault_ue job queue started going
      (.inr ⟨by rw [drains, Bool.or_true], meets⟩)).trans (congrArg Host.Outcome.next ?_)
    exact asyncTrap_recorded (stands u) drains

end Sys2Proof.Machine
end

section
/-! SUPPORT. Fields packed side by side into a number, read back by their bits; and the fields of a completion record. -/

namespace Sys2Proof.Machine

/-! ### Fields side by side (R5) -/

/-- Fields, each a width and a value, side by side from bit 0 up. -/
def packFields : List (Nat × Nat) → Nat
  | [] => 0
  | (w, x) :: t => x + packFields t * 2 ^ w

/-- Above its first field stand the others. -/
theorem packFields_div {w x : Nat} (fits : x < 2 ^ w) (t : List (Nat × Nat)) : packFields ((w, x) :: t) / 2 ^ w = packFields t := by
  rw [packFields, Nat.add_mul_div_right _ _ (Nat.two_pow_pos w), Nat.div_eq_of_lt fits, Nat.zero_add]

theorem packFields_shift {before : List (Nat × Nat)} (fits : ∀ p ∈ before, p.2 < 2 ^ p.1) (t : List (Nat × Nat)) :
    packFields (before ++ t) / 2 ^ (before.map Prod.fst).sum = packFields t := by
  induction before with
  | nil => simp
  | cons p u ih =>
    rw [List.forall_mem_cons] at fits
    rw [List.map_cons, List.sum_cons, Nat.pow_add, ← Nat.div_div_eq_div_mul, List.cons_append, packFields_div fits.1, ih fits.2]

/-- A field reads back at the bits where those before it end. -/
theorem packFields_field {before : List (Nat × Nat)} {w x : Nat} (fits : ∀ p ∈ before ++ [(w, x)], p.2 < 2 ^ p.1)
    (t : List (Nat × Nat)) : packFields (before ++ (w, x) :: t) / 2 ^ (before.map Prod.fst).sum % 2 ^ w = x := by
  have lower : ∀ p ∈ before, p.2 < 2 ^ p.1 := fun p mem => fits p (List.mem_append_left _ mem)
  rw [packFields_shift lower, packFields, Nat.add_mul_mod_self_right]
  exact Nat.mod_eq_of_lt (fits (w, x) (by simp))

/-- Bytes read back as what of the number they hold. -/
theorem leNat_leBytes (n v : Nat) : leNat (leBytes n v) = v % 2 ^ (8 * n) := by
  induction n generalizing v with
  | zero => simp [leBytes, leNat, Nat.mod_one]
  | succ n ih =>
    rw [leBytes, leNat, ih, BitVec.toNat_ofNat, Nat.mul_succ, Nat.add_comm (8 * n), Nat.pow_add, Nat.mod_mul]

/-- Bits below a limit are those of the number cut there. -/
theorem bitsOf_mod {x hi lo m : Nat} (low : hi < m) : bitsOf (x % 2 ^ m) hi lo = bitsOf x hi lo := by
  refine Nat.eq_of_testBit_eq fun i => ?_
  simp only [bitsOf, Nat.testBit_mod_two_pow, Nat.testBit_div_two_pow]
  by_cases inside : i < hi + 1 - lo
  · simp [inside, show i + lo < m by omega]
  · simp [inside]

/-! ### The completion record (R343) -/

/-- The fields of a completion record, in order. -/
def completionFields (l : Launch) (now : Nat) : List (Nat × Nat) :=
  [(64, l.seq.toNat), (8, l.status.toNat),
    (8, (if l.voided then 1 else 0) + (if 0 < l.reruns then 2 else 0) +
      if l.late && lrClass l.record == 1 && decide (lrDeadline l.record < now) then 4 else 0),
    (8, l.cause.toNat), (8, l.stream.toNat), (32, l.job.toNat), (64, l.tpc.toNat), (64, l.tinfo.toNat),
    (64, (lrUsertag l.record).toNat), (64, l.start % 2 ^ 64), (64, l.finish % 2 ^ 64),
    (32, min (2 ^ 32 - 1) (l.teams.map (·.done)).sum), (8, min 255 l.reruns)]

theorem completionBytes_eq (l : Launch) (now : Nat) : completionBytes l now = leBytes 64 (packFields (completionFields l now)) := by
  simp only [completionBytes, completionFields, packFields, Nat.add_mul, Nat.mul_assoc, ← Nat.pow_add, Nat.reduceAdd, Nat.add_assoc,
    Nat.zero_mul, Nat.add_zero]

theorem completionFields_fit (l : Launch) (now : Nat) : ∀ p ∈ completionFields l now, p.2 < 2 ^ p.1 := by
  have flags : (if l.voided then 1 else 0) + (if 0 < l.reruns then 2 else 0) +
      (if l.late && lrClass l.record == 1 && decide (lrDeadline l.record < now) then 4 else 0) < 2 ^ 8 := by
    split_ifs <;> decide
  have stream : l.stream.toNat < 2 ^ 8 := l.stream.isLt.trans (by decide)
  simp only [completionFields, List.forall_mem_cons, List.not_mem_nil, false_imp_iff, implies_true, and_true]
  exact ⟨l.seq.isLt, l.status.isLt, flags, l.cause.isLt, stream, l.job.isLt, l.tpc.isLt, l.tinfo.isLt, (lrUsertag l.record).isLt,
    Nat.mod_lt _ (by decide), Nat.mod_lt _ (by decide), by omega, by omega⟩

/-- The widths of those fields. -/
def completionWidths : List Nat := [64, 8, 8, 8, 8, 32, 64, 64, 64, 64, 64, 32, 8]

theorem completionFields_widths (l : Launch) (now : Nat) : (completionFields l now).map Prod.fst = completionWidths := rfl

/-- Each field of a record reads back at its bits. -/
theorem completionBytes_field {l : Launch} {now hi lo w x : Nat} (k : Nat) (field : (completionFields l now)[k]? = some (w, x))
    (start : (completionWidths.take k).sum = lo) (upto : hi + 1 - lo = w) (inside : hi < 512) :
    bitsOf (leNat (completionBytes l now)) hi lo = x := by
  obtain ⟨lt, at_k⟩ := List.getElem?_eq_some_iff.1 field
  have cut : completionFields l now = (completionFields l now).take k ++ (w, x) :: (completionFields l now).drop (k + 1) := by
    rw [← at_k, ← List.drop_eq_getElem_cons lt, List.take_append_drop]
  have read := packFields_field (before := (completionFields l now).take k) (w := w) (x := x) (fun p mem => ?_)
    ((completionFields l now).drop (k + 1))
  · rw [completionBytes_eq, leNat_leBytes, bitsOf_mod inside, bitsOf, upto]
    rwa [← cut, List.map_take, completionFields_widths, start] at read
  · refine completionFields_fit l now p ?_
    rw [cut, List.append_cons]
    exact List.mem_append_left _ mem

end Sys2Proof.Machine
end

section
/-! SUPPORT. What a team's placement leaves of the jobs it adds: the seats, the rings and the starts. -/

namespace Sys2Proof.Machine

/-! ### Seats and rings: accesses, and the words a ring holds (R230, R249, R361) -/

theorem fetchAt_accessed (s : State) (w : Who) (a : Word) : (s.fetchAt w a).Ok s := by
  unfold State.fetchAt
  split
  · exact .refl s
  · split
    · exact .refl s
    · refine (translate_accessed ..).bind fun s1 p _ => MRes.Ok.bind ?_ fun s2 b _ => .refl s2
      split
      · exact hostAccess_accessed ..
      · split
        · exact .refl s1
        · exact homeRead_accessed ..

theorem fillRing_accessed (w : Who) (fuel : Nat) (a : Word) (l : List (Word × Word)) (s : State) :
    Accessed s (State.fillRing w fuel a l s).1 := by
  induction fuel generalizing s a l with
  | zero => exact .refl s
  | succ f ih =>
    unfold State.fillRing
    split
    case h_1 s1 x read =>
      have accessed : Accessed s s1 := by
        have ok := fetchAt_accessed s w a
        rwa [read] at ok
      exact accessed.trans (ih ..)
    case h_2 => exact .refl s

theorem seatJob_accessed (s : State) (n : Nat) (j : Job) : Accessed s (s.seatJob n j) :=
  ((Accessed.ite (.foldl _ _ (fun _ _ => modCore_accessed ..) s) (l1FlushAll_accessed ..)).trans (modCore_accessed ..)).trans
    (.foldl _ _ (fun _ _ => modCore_accessed ..) _)

theorem usePreload_accessed (s : State) (j : Job) : Accessed s (s.usePreload j) := ⟨rfl, rfl, rfl, rfl, rfl, id⟩

@[simp] theorem State.modJob_length (s : State) (n : Nat) (f : Job → Job) : (s.modJob n f).jobs.length = s.jobs.length := by
  unfold State.modJob
  split
  · simp
  · rfl

@[simp] theorem State.modPart_jobs (s : State) (p : Nat) (f : Part → Part) : (s.modPart p f).jobs = s.jobs := by
  unfold State.modPart
  split <;> rfl

@[simp] theorem State.begins_jobs (s : State) (n : Nat) : (s.begins n).jobs = s.jobs := by
  unfold State.begins
  split
  · rfl
  · exact (modCore_accessed ..).jobs

/-- Filling rings keeps what neither an access nor a change of a job changes. -/
theorem loadRings_keeps {β : Type} (field : State → β) (accesses : ∀ {t u}, Accessed t u → field u = field t)
    (changes : ∀ t n f, field (State.modJob t n f) = field t) (s : State) (n : Nat) : field (s.loadRings n) = field s :=
  State.foldl_keeps field _ (fun t x => by
    dsimp only
    split
    · rfl
    · split
      · rfl
      · exact (changes ..).trans (accesses (fillRing_accessed ..))) _ s

theorem loadRings_tick (s : State) (n : Nat) : (s.loadRings n).tick = s.tick :=
  loadRings_keeps State.tick Accessed.tick State.modJob_tick s n

theorem loadRings_length (s : State) (n : Nat) : (s.loadRings n).jobs.length = s.jobs.length :=
  loadRings_keeps (fun t => t.jobs.length) (fun h => congrArg List.length h.jobs) State.modJob_length s n

theorem execJobStart_length (n : Nat) (s : State) : (stateOf s (execJobStart n s)).jobs.length = s.jobs.length := by
  unfold execJobStart State.modLaunch
  simp only [stateOf]
  split
  · rfl
  · split
    · rfl
    · split
      · simp
      · split
        · rfl
        · rw [State.modPart_jobs]
          exact State.foldl_keeps (fun t => t.jobs.length) _ (fun t i => by simp) _ s

/-! ### The jobs from a number on -/

/-- Each job from number `first` on meets `q` at its place. -/
def State.JobsFrom (first : Nat) (q : Nat → Job → Prop) (s : State) : Prop := ∀ i k, s.jobs[first + i]? = some k → q i k

section Jobs

variable {first : Nat} {q : Nat → Job → Prop} {s t : State}

theorem State.JobsFrom.congr (h : s.JobsFrom first q) (jobs : t.jobs = s.jobs) : t.JobsFrom first q :=
  fun i k at_i => h i k (jobs ▸ at_i)

theorem State.JobsFrom.modJob (h : s.JobsFrom first q) {n : Nat} {f : Job → Job} (keeps : ∀ i k, q i k → q i (f k)) :
    (s.modJob n f).JobsFrom first q := by
  unfold State.modJob
  split
  case h_1 j job =>
    intro i k at_i
    rw [State.setJob_jobs, List.getElem?_set] at at_i
    split at at_i
    case isTrue here =>
      split at at_i
      · obtain rfl := Option.some.inj at_i
        exact keeps i j (h i j (here ▸ job))
      · cases at_i
    case isFalse => exact h i k at_i
  case h_2 => exact h

theorem State.JobsFrom.foldl {α : Type} {f : State → α → State} {l : List α} (h : s.JobsFrom first q)
    (step : ∀ t, t.JobsFrom first q → ∀ a ∈ l, (f t a).JobsFrom first q) : (l.foldl f s).JobsFrom first q :=
  List.foldlRecOn (motive := State.JobsFrom first q) l f h step

/-- Filling the rings changes nothing that is blind to rings. -/
theorem State.JobsFrom.loadRings (h : s.JobsFrom first q) (n : Nat)
    (blind : ∀ i k x r, q i k → q i (k.setStream x { k.stream x with ring := r })) : (s.loadRings n).JobsFrom first q := by
  refine h.foldl fun t at_t x _ => ?_
  dsimp only
  split
  · exact at_t
  · split
    · exact at_t
    · exact (at_t.congr (fillRing_accessed ..).jobs).modJob fun i k => blind i k x _

/-! ### A job starts (R230, R360) -/

/-- A stream of an urgent job that starts in cycle `now`. -/
def StreamSt.begunAt (now : Nat) (t : StreamSt) : StreamSt := { t with stamp := BitVec.ofNat 64 now, notBefore := now }

/-- An urgent job that starts once its team's victims have drained: that cycle is its JSTART. -/
def Job.begunAt (now : Nat) (k : Job) : Job :=
  { k with
    phase := .running, jstart := now, c := k.c.begunAt now, l := k.l.begunAt now, vs := k.vs.begunAt now, m := k.m.begunAt now
    s := k.s.begunAt now }

/-- A start changes jobs only by letting them run, with this cycle as JSTART where they are urgent. -/
theorem State.JobsFrom.start (h : s.JobsFrom first q) (n : Nat) (runs : ∀ i k, q i k → q i { k with phase := .running })
    (begun : ∀ i k, q i k → q i (k.begunAt s.tick)) : (stateOf s (execJobStart n s)).JobsFrom first q := by
  unfold execJobStart State.modLaunch
  simp only [stateOf]
  split
  case h_1 => exact h
  case h_2 j job =>
    split
    · exact h
    · split
      · have set : s.setJob n { j with phase := .running } = s.modJob n fun k => { k with phase := .running } := by
          rw [State.modJob_eq job]; rfl
        rw [set]
        exact (h.modJob (n := n) runs).congr ((State.modPart_jobs ..).trans (State.begins_jobs ..))
      · split
        · exact h
        · refine State.JobsFrom.congr ?_ (State.modPart_jobs ..)
          refine h.foldl fun t at_t i _ => (at_t.modJob fun i k at_k => ?_).congr (State.begins_jobs ..)
          split
          · exact begun i k at_k
          · exact at_k

end Jobs

/-- Before its JSTART a job does not start. -/
theorem execJobStart_early {s : State} {n : Nat} {j : Job} (job : s.jobs[n]? = some j) (early : s.tick < j.jstart) :
    execJobStart n s = .next s := by
  simp only [execJobStart, job, early, decide_true, Bool.or_true, if_true]

/-- At its JSTART a loading job that is not urgent runs. -/
theorem execJobStart_runs {s : State} {n : Nat} {j : Job} (job : s.jobs[n]? = some j) (phase : j.phase = .loading)
    (due : j.jstart ≤ s.tick) (normal : j.urgent = false) :
    (stateOf s (execJobStart n s)).jobs = s.jobs.set n { j with phase := .running } := by
  simp [execJobStart, job, phase, Nat.not_lt.2 due, normal, stateOf, State.modLaunch]

/-! ### The team that is placed (R230, R339, R350) -/

/-- A piece is what it cuts out of the list. -/
theorem pieces_getElem? {k f i : Nat} {l g : List Nat} (piece : (pieces k f l)[i]? = some g) : g = (l.drop (k * i)).take k := by
  induction f generalizing l i with
  | zero => simp [pieces] at piece
  | succ f ih =>
    unfold pieces at piece
    split at piece
    · simp at piece
    · cases i with
      | zero => simpa using piece.symm
      | succ i =>
        rw [List.getElem?_cons_succ] at piece
        rw [ih piece, List.drop_drop, Nat.mul_succ, Nat.add_comm]

/-- A piece begins where those before it end. -/
theorem pieces_headD {k f i : Nat} {l g : List Nat} (piece : (pieces k f l)[i]? = some g) (pos : 0 < k) :
    g.headD 0 = l.getD (k * i) 0 := by
  rw [pieces_getElem? piece, List.headD_eq_head?_getD, List.head?_take, if_neg (by omega), List.head?_drop, List.getD_eq_getElem?_getD]

/-- The jobs a team's placement makes. -/
def State.newTeam (s : State) (p : Part) (part : Nat) (l : Launch) (t : Nat) (cores : List Nat) (jstart : Nat) : List Job :=
  let r := l.record
  let coreSet := l.coreSet.getD
    (if lrClass r = 1 then lrRcores r / (1 + lrProof r) else groupsIn p.stops (1 + lrProof r) (s.partCores p))
  let g := pieces (1 + lrProof r) 96 cores
  ((List.range g.length).zip g).map fun q => s.newJob p part l coreSet t q.1 jstart q.2 (decide (t ∈ l.queue))

section Placement

variable {s : State} {p : Part} {part : Nat} {l : Launch} {t : Nat} {cores : List Nat} {jstart : Nat}

theorem newTeam_length (fits : placementOk (fun _ => true) (lrProof l.record) (lrTeam l.record) cores = true) :
    (s.newTeam p part l t cores jstart).length = lrTeam l.record := by
  simp only [placementOk, Bool.and_eq_true, decide_eq_true_eq] at fits
  obtain ⟨⟨⟨⟨⟨count, -⟩, -⟩, -⟩, -⟩, -⟩ := fits
  simp [State.newTeam, count]

/-- Each job made is one of the team, at its piece of the cores. -/
theorem newTeam_getElem? {i : Nat} {k : Job} (made : (s.newTeam p part l t cores jstart)[i]? = some k) :
    ∃ coreSet g rerun, k = s.newJob p part l coreSet t i jstart g rerun ∧ g.headD 0 = cores.getD ((1 + lrProof l.record) * i) 0 := by
  simp only [State.newTeam, List.getElem?_map, Option.map_eq_some_iff, List.getElem?_zip_eq_some] at made
  obtain ⟨⟨m, g⟩, ⟨at_m : _ = some m, at_g : _ = some g⟩, rfl⟩ := made
  obtain ⟨_, rfl : _ = m⟩ := List.getElem?_eq_some_iff.1 at_m
  exact ⟨_, g, _, by rw [List.getElem_range], pieces_headD at_g (by omega)⟩

variable (s p part l t cores jstart) in
/-- A placement adds the team's jobs, fills their rings, and starts those that are due. -/
theorem placeTeam_stages : ∃ (u : State) (f : Launch → Launch), u.tick = s.tick ∧ u.jobs = s.jobs ++ s.newTeam p part l t cores jstart ∧
    s.placeTeam p part l t cores jstart =
      ((List.range (s.newTeam p part l t cores jstart).length).map (s.jobs.length + ·)).foldl
        (fun v n => stateOf v (execJobStart n v))
        ((((List.range (s.newTeam p part l t cores jstart).length).map (s.jobs.length + ·)).foldl State.loadRings u).modLaunch
          part l.seq f) := by
  have seated (l : List (Nat × Job)) (v : State) : Accessed v (l.foldl (fun u q => (u.seatJob q.1 q.2).usePreload q.2) v) :=
    .foldl _ _ (fun _ _ => (seatJob_accessed ..).trans (usePreload_accessed ..)) v
  refine ⟨_, _, ?_, ?_, rfl⟩
  · exact (seated ..).tick
  · exact (seated ..).jobs

end Placement

/-! ### What of a job its rings and its start do not change -/

/-- A stream but for its ring and for when it may issue. -/
def StreamSt.unstarted (t : StreamSt) : StreamSt := { t with notBefore := 0, ring := [] }

/-- A job but for its rings and for whether it runs yet. -/
def Job.unstarted (j : Job) : Job :=
  { j with
    phase := .loading, c := j.c.unstarted, l := j.l.unstarted, vs := j.vs.unstarted, m := j.m.unstarted, s := j.s.unstarted }

theorem Job.unstarted_stream (j : Job) (x : StreamId) : j.unstarted.stream x = (j.stream x).unstarted := by
  cases x <;> rfl

theorem Job.unstarted_setRing (j : Job) (x : StreamId) (r : List (Word × Word)) :
    (j.setStream x { j.stream x with ring := r }).unstarted = j.unstarted := by
  cases x <;> rfl

theorem Job.setStream_phase (j : Job) (x : StreamId) (t : StreamSt) : (j.setStream x t).phase = j.phase := by
  cases x <;> rfl

theorem StreamSt.unstarted_begunAt {t : StreamSt} {now : Nat} (stamp : t.stamp = BitVec.ofNat 64 now) :
    (t.begunAt now).unstarted = t.unstarted := by
  rw [StreamSt.begunAt, ← stamp]
  rfl

/-- A job that begins at its JSTART is as it was, and runs. -/
theorem Job.unstarted_begunAt {j : Job} {now : Nat} (jstart : j.jstart = now) (stamp : ∀ x, (j.stream x).stamp = BitVec.ofNat 64 now) :
    (j.begunAt now).unstarted = j.unstarted := by
  have c := StreamSt.unstarted_begunAt (t := j.c) (stamp .c)
  have l := StreamSt.unstarted_begunAt (t := j.l) (stamp .l)
  have vs := StreamSt.unstarted_begunAt (t := j.vs) (stamp .v)
  have m := StreamSt.unstarted_begunAt (t := j.m) (stamp .m)
  have s := StreamSt.unstarted_begunAt (t := j.s) (stamp .s)
  simp only [Job.unstarted, Job.begunAt, c, l, vs, m, s, jstart]

/-- The job of a team at place `i`, but for its rings and its start, in one of some phases. -/
def Fresh (team : List Job) (phases : Phase → Prop) (i : Nat) (k : Job) : Prop :=
  ∃ k0, team[i]? = some k0 ∧ k.unstarted = k0.unstarted ∧ phases k.phase

section Starts

variable {first now : Nat} {team : List Job} {phases : Phase → Prop} {s : State}

theorem Fresh.mono {i : Nat} {k : Job} {more : Phase → Prop} (h : Fresh team phases i k) (le : ∀ {ph}, phases ph → more ph) :
    Fresh team more i k := by
  obtain ⟨k0, made, same, phase⟩ := h
  exact ⟨k0, made, same, le phase⟩

theorem Fresh.setRing {i : Nat} {k : Job} (h : Fresh team phases i k) (x : StreamId) (r : List (Word × Word)) :
    Fresh team phases i (k.setStream x { k.stream x with ring := r }) := by
  obtain ⟨k0, made, same, phase⟩ := h
  exact ⟨k0, made, (k.unstarted_setRing x r).trans same, (k.setStream_phase x _).symm ▸ phase⟩

theorem Fresh.runs {i : Nat} {k : Job} (h : Fresh team phases i k) (running : phases .running) :
    Fresh team phases i { k with phase := .running } := by
  obtain ⟨k0, made, same, -⟩ := h
  exact ⟨k0, made, same, running⟩

variable (starts : ∀ k ∈ team, k.jstart = now ∧ ∀ x, (k.stream x).stamp = BitVec.ofNat 64 now) (running : phases .running)

include starts

theorem Fresh.jstart {i : Nat} {k : Job} (h : Fresh team phases i k) : k.jstart = now := by
  obtain ⟨k0, made, same, -⟩ := h
  exact (congrArg Job.jstart same).trans (starts k0 (List.mem_of_getElem? made)).1

theorem Fresh.stamp {i : Nat} {k : Job} (h : Fresh team phases i k) (x : StreamId) : (k.stream x).stamp = BitVec.ofNat 64 now := by
  obtain ⟨k0, made, same, -⟩ := h
  have streams := congrArg (StreamSt.stamp ∘ (Job.stream · x)) same
  simp only [Function.comp, Job.unstarted_stream] at streams
  exact streams.trans ((starts k0 (List.mem_of_getElem? made)).2 x)

include running

theorem Fresh.begun {i : Nat} {k : Job} (h : Fresh team phases i k) : Fresh team phases i (k.begunAt now) := by
  have unstarted := Job.unstarted_begunAt (h.jstart starts) (h.stamp starts)
  obtain ⟨k0, made, same, -⟩ := h
  exact ⟨k0, made, unstarted.trans same, running⟩

/-- Starts at the team's JSTART leave it a team of such jobs. -/
theorem fresh_starts (h : s.JobsFrom first (Fresh team phases)) (tick : s.tick = now) (ids : List Nat) :
    (ids.foldl (fun v n => stateOf v (execJobStart n v)) s).tick = now ∧
      (ids.foldl (fun v n => stateOf v (execJobStart n v)) s).JobsFrom first (Fresh team phases) := by
  refine List.foldlRecOn (motive := fun v : State => v.tick = now ∧ v.JobsFrom first (Fresh team phases)) ids _ ⟨tick, h⟩
    fun v ⟨at_now, fresh⟩ n _ => ⟨(execJobStart_tick n v).trans at_now, ?_⟩
  exact fresh.start n (fun i k at_k => at_k.runs running) fun i k at_k => at_now ▸ at_k.begun starts running

omit running in
/-- At the JSTART of a team that is not urgent each of its jobs starts. -/
theorem starts_running (h : s.JobsFrom first (Fresh team fun ph => ph = .loading ∨ ph = .running)) (tick : s.tick = now)
    (normal : ∀ k ∈ team, k.urgent = false) {ids : List Nat} {i : Nat} (mem : first + i ∈ ids) {k : Job}
    (job : (ids.foldl (fun v n => stateOf v (execJobStart n v)) s).jobs[first + i]? = some k) : k.phase = .running := by
  obtain ⟨before, after, rfl⟩ := List.append_of_mem mem
  rw [List.foldl_append, List.foldl_cons] at job
  obtain ⟨at_now, fresh⟩ := fresh_starts starts (.inr rfl) h tick before
  generalize before.foldl (fun v n => stateOf v (execJobStart n v)) s = v at job at_now fresh
  have runs : (stateOf v (execJobStart (first + i) v)).JobsFrom first fun m k => m = i → k.phase = .running := by
    rcases at_i : v.jobs[first + i]? with _ | j
    · intro m k at_k here
      have gone := execJobStart_length (first + i) v
      rw [List.getElem?_eq_none_iff] at at_i
      rw [here, List.getElem?_eq_none (by omega)] at at_k
      cases at_k
    · obtain ⟨k0, made, same, phase⟩ := fresh i j at_i
      obtain ⟨lt, _⟩ := List.getElem?_eq_some_iff.1 at_i
      rcases phase with loading | running
      · have urgent : j.urgent = false := (congrArg Job.urgent same).trans (normal k0 (List.mem_of_getElem? made))
        have due : j.jstart ≤ v.tick := (at_now.trans ((fresh i j at_i).jstart starts).symm).ge
        have started := execJobStart_runs at_i loading due urgent
        intro m k at_k here
        rw [here, started, List.getElem?_set_self lt] at at_k
        exact Option.some.inj at_k ▸ rfl
      · refine State.JobsFrom.start (q := fun m k => m = i → k.phase = .running) ?_ _ (fun _ _ _ _ => rfl) fun _ _ _ _ => rfl
        intro m k at_k here
        rw [here] at at_k
        exact Option.some.inj (at_i.symm.trans at_k) ▸ running
  refine (State.JobsFrom.foldl (l := after) runs fun w at_w n _ => ?_) i k job rfl
  exact at_w.start n (fun _ _ _ _ => rfl) fun _ _ _ _ => rfl

end Starts

end Sys2Proof.Machine
end

section
/-! SUPPORT. The registers of a job as its first word finds them, in the team that a placement adds; and O54. -/

namespace Sys2Proof.Machine

/-! ### The registers at the first word (R229, R230) -/

section Registers

variable {r : BitVec 2048} {args : Vector Word 8} {linear jstart : Nat} {x : StreamId} {t : StreamSt}

theorem firstRegs_args (m : Fin 8) : (firstRegs r args linear jstart .c).k.get ⟨m.val, by omega⟩ = args.get m := by
  refine (Vector.getElem_ofFn (i := m.val) (by omega)).trans ?_
  dsimp only
  rw [if_neg (by omega), if_neg (by omega), dif_pos m.isLt, if_pos rfl]
  rfl

theorem firstWord_args (is : t.unstarted = (firstRegs r args linear jstart .c).unstarted) (m : Fin 8) :
    t.k.get ⟨m.val, by omega⟩ = args.get m :=
  (congrArg (·.k.get ⟨m.val, by omega⟩) is).trans (firstRegs_args (jstart := jstart) m)

variable (is : t.unstarted = (firstRegs r args linear jstart x).unstarted)

include is

theorem firstWord_linear : t.k.get 11 = BitVec.ofNat 64 linear :=
  (congrArg (·.k.get 11) is).trans (Vector.getElem_ofFn (i := 11) (by decide))

theorem firstWord_stamp : t.stamp = BitVec.ofNat 64 jstart := congrArg StreamSt.stamp is

theorem firstWord_absent (absent : lrEntry r x.num = 0xFFFF_FFFF) : t.atJoin = true :=
  (congrArg StreamSt.atJoin is).trans (decide_eq_true absent)

theorem firstWord_entered (entry : lrEntry r x.num ≠ 0xFFFF_FFFF) :
    t.atJoin = false ∧ t.pc = lrCode r + BitVec.ofNat 64 (lrEntry r x.num) :=
  ⟨(congrArg StreamSt.atJoin is).trans (decide_eq_false entry), (congrArg StreamSt.pc is).trans (if_neg entry)⟩

end Registers

/-! ### A team placed (R230, R339) -/

section Placed

variable {s : State} {p : Part} {part : Nat} {l : Launch} {t : Nat} {cores : List Nat} {jstart : Nat}

theorem newJob_stream {coreSet i : Nat} {g : List Nat} {rerun : Bool} (x : StreamId) :
    ((s.newJob p part l coreSet t i jstart g rerun).stream x).unstarted =
      (firstRegs l.record l.args (lrTeam l.record * t + i) jstart x).unstarted := by
  cases x <;> rfl

theorem newTeam_starts : ∀ k ∈ s.newTeam p part l t cores jstart,
    k.jstart = jstart ∧ ∀ x, (k.stream x).stamp = BitVec.ofNat 64 jstart := by
  intro k mem
  obtain ⟨i, made⟩ := List.getElem?_of_mem mem
  obtain ⟨coreSet, g, rerun, rfl, -⟩ := newTeam_getElem? made
  exact ⟨rfl, fun x => firstWord_stamp (newJob_stream x)⟩

theorem newTeam_urgent : ∀ k ∈ s.newTeam p part l t cores jstart, k.urgent = (lrClass l.record == 2) := by
  intro k mem
  obtain ⟨i, made⟩ := List.getElem?_of_mem mem
  obtain ⟨coreSet, g, rerun, rfl, -⟩ := newTeam_getElem? made
  rfl

variable (s p part l t cores jstart) in
/-- A placement comes to the starts of the jobs it has added and whose rings it has filled. -/
theorem placeTeam_loaded : ∃ v : State, v.tick = s.tick ∧
    v.jobs.length = s.jobs.length + (s.newTeam p part l t cores jstart).length ∧
    v.JobsFrom s.jobs.length (Fresh (s.newTeam p part l t cores jstart) (· = .loading)) ∧
    s.placeTeam p part l t cores jstart =
      ((List.range (s.newTeam p part l t cores jstart).length).map (s.jobs.length + ·)).foldl
        (fun v n => stateOf v (execJobStart n v)) v := by
  obtain ⟨u, f, tick, jobs, stages⟩ := placeTeam_stages s p part l t cores jstart
  have added : u.JobsFrom s.jobs.length (Fresh (s.newTeam p part l t cores jstart) (· = .loading)) := by
    intro i k at_i
    rw [jobs, List.getElem?_append_right (by omega), Nat.add_sub_cancel_left] at at_i
    obtain ⟨coreSet, g, rerun, is, -⟩ := newTeam_getElem? at_i
    exact ⟨k, at_i, rfl, is ▸ rfl⟩
  refine ⟨_, ?_, ?_, ?_, stages⟩
  · exact (State.modPart_tick ..).trans ((State.foldl_keeps State.tick _ loadRings_tick ..).trans tick)
  · rw [State.modLaunch, State.modPart_jobs, ← List.length_append, ← jobs]
    exact State.foldl_keeps (fun v => v.jobs.length) _ loadRings_length ..
  · exact (added.foldl fun v at_v n _ => at_v.loadRings n fun i k x r h => h.setRing x r).congr (State.modPart_jobs ..)

/-- A team placed before its JSTART waits for it. -/
theorem placeTeam_early (early : s.tick < jstart) :
    (s.placeTeam p part l t cores jstart).JobsFrom s.jobs.length (Fresh (s.newTeam p part l t cores jstart) (· = .loading)) := by
  obtain ⟨v, tick, length, fresh, placed⟩ := placeTeam_loaded s p part l t cores jstart
  have waits : s.placeTeam p part l t cores jstart = v := by
    refine placed.trans (List.foldlRecOn (motive := (· = v)) _ _ rfl fun w is n mem => ?_)
    obtain ⟨i, lt, rfl⟩ := List.mem_map.1 mem
    have job : v.jobs[s.jobs.length + i]? = some _ := List.getElem?_eq_getElem (by rw [length]; have := List.mem_range.1 lt; omega)
    rw [is, execJobStart_early job (by rw [(fresh i _ job).jstart newTeam_starts, tick]; exact early)]
    rfl
  exact waits ▸ fresh

/-- A team placed at its JSTART may start at once. -/
theorem placeTeam_due (due : s.tick = jstart) :
    (s.placeTeam p part l t cores jstart).JobsFrom s.jobs.length
      (Fresh (s.newTeam p part l t cores jstart) fun ph => ph = .loading ∨ ph = .running) := by
  obtain ⟨v, tick, -, fresh, placed⟩ := placeTeam_loaded s p part l t cores jstart
  rw [placed]
  exact (fresh_starts newTeam_starts (.inr rfl) (fun i k at_i => (fresh i k at_i).mono .inl) (tick.trans due) _).2

/-- A team that is not urgent, placed at its JSTART, runs. -/
theorem placeTeam_runs (due : s.tick = jstart) (normal : lrClass l.record ≠ 2) {i : Nat}
    (lt : i < (s.newTeam p part l t cores jstart).length) {k : Job}
    (job : (s.placeTeam p part l t cores jstart).jobs[s.jobs.length + i]? = some k) : k.phase = .running := by
  obtain ⟨v, tick, -, fresh, placed⟩ := placeTeam_loaded s p part l t cores jstart
  rw [placed] at job
  exact starts_running newTeam_starts (fun i k at_i => (fresh i k at_i).mono .inl) (tick.trans due)
    (fun k mem => (newTeam_urgent k mem).trans (beq_false_of_ne normal)) (List.mem_map_of_mem (List.mem_range.2 lt)) job

theorem placeTeam_tick : (s.placeTeam p part l t cores jstart).tick = s.tick := by
  obtain ⟨v, tick, -, -, placed⟩ := placeTeam_loaded s p part l t cores jstart
  rw [placed]
  exact (State.foldl_keeps State.tick _ (fun v n => execJobStart_tick n v) ..).trans tick

theorem placeTeam_length : (s.placeTeam p part l t cores jstart).jobs.length =
    s.jobs.length + (s.newTeam p part l t cores jstart).length := by
  obtain ⟨v, -, length, -, placed⟩ := placeTeam_loaded s p part l t cores jstart
  rw [placed]
  exact (State.foldl_keeps (fun v => v.jobs.length) _ (fun v n => execJobStart_length n v) ..).trans length

/-- A placed team's job `i` is the new job of that place, loading before its JSTART and running at it. -/
theorem placeTeam_job (fits : placementOk (fun _ => true) (lrProof l.record) (lrTeam l.record) cores = true) {i : Nat}
    (lt : i < lrTeam l.record) (ahead : s.tick ≤ jstart) :
    ∃ k coreSet g rerun, (s.placeTeam p part l t cores jstart).jobs[s.jobs.length + i]? = some k ∧
      k.unstarted = (s.newJob p part l coreSet t i jstart g rerun).unstarted ∧
      g.headD 0 = cores.getD ((1 + lrProof l.record) * i) 0 ∧ (s.tick < jstart → k.phase = .loading) ∧
      (s.tick = jstart → lrClass l.record ≠ 2 → k.phase = .running) := by
  have size := newTeam_length (s := s) (p := p) (part := part) (t := t) (jstart := jstart) fits
  have job := List.getElem?_eq_getElem (l := (s.placeTeam p part l t cores jstart).jobs) (i := s.jobs.length + i)
    (by rw [placeTeam_length, size]; omega)
  generalize (s.placeTeam p part l t cores jstart).jobs[s.jobs.length + i]'_ = k at job
  rcases Nat.lt_or_eq_of_le ahead with early | due
  · obtain ⟨k0, made, same, phase⟩ := placeTeam_early early i k job
    obtain ⟨coreSet, g, rerun, rfl, first⟩ := newTeam_getElem? made
    exact ⟨k, coreSet, g, rerun, job, same, first, fun _ => phase, fun due => absurd due early.ne⟩
  · obtain ⟨k0, made, same, -⟩ := placeTeam_due due i k job
    obtain ⟨coreSet, g, rerun, rfl, first⟩ := newTeam_getElem? made
    exact ⟨k, coreSet, g, rerun, job, same, first, fun early => absurd due early.ne,
      fun _ normal => placeTeam_runs due normal (size ▸ lt) job⟩

end Placed

/-- Settles O54: a placed job is the new one of its place but for its rings and its start, and a record is its fields side by side. -/
theorem firstWordValuesAndRecord : Obligations.FirstWordValuesAndRecord := by
  unfold Obligations.FirstWordValuesAndRecord
  refine ⟨?reset, ?placed, ?record⟩
  case reset =>
    refine ⟨fun x => ?stream, rfl, fun i => ?acc, fun i => ?four, fun i => ?books, fun i => ?tokens⟩
    case stream => cases x <;> exact ⟨rfl, rfl, rfl, rfl, rfl, rfl, rfl, rfl, rfl, rfl⟩
    case acc => exact Vector.getElem_replicate i.isLt
    case four =>
      exact ⟨congrArg Layout.set (Vector.getElem_replicate i.isLt), Vector.getElem_replicate i.isLt, Vector.getElem_replicate i.isLt⟩
    case books => exact congrArg Codebook.loaded (Vector.getElem_replicate i.isLt)
    case tokens => exact ⟨Vector.getElem_replicate i.isLt, Vector.getElem_replicate i.isLt⟩
  case placed =>
    intro s p part l t cores jstart i fits lt ahead u linear
    refine ⟨placeTeam_wf, placeTeam_tick, placeTeam_length.trans (congrArg _ (newTeam_length fits)), ?_⟩
    obtain ⟨k, coreSet, g, rerun, job, same, first, waits, runs⟩ := placeTeam_job (p := p) (part := part) (t := t) fits lt ahead
    have mem := congrArg Job.mem same
    have stream (x : StreamId) : (k.stream x).unstarted = (firstRegs l.record l.args linear jstart x).unstarted := by
      rw [← k.unstarted_stream, same, Job.unstarted_stream]
      exact newJob_stream x
    refine ⟨k, job, waits, runs, congrArg Job.jstart same, congrArg Member.index mem, congrArg Member.linear mem,
      congrArg Member.team mem, congrArg Member.seq mem, (congrArg Job.core same).trans first, firstWord_args (stream .c),
      fun x => ?_⟩
    exact ⟨firstWord_linear (stream x), firstWord_stamp (stream x), firstWord_absent (stream x), firstWord_entered (stream x)⟩
  case record =>
    intro l now start finish w
    have start' : (completionFields l now)[9]? = some (64, l.start) := congrArg (fun x => some (64, x)) (Nat.mod_eq_of_lt start)
    have finish' : (completionFields l now)[10]? = some (64, l.finish) := congrArg (fun x => some (64, x)) (Nat.mod_eq_of_lt finish)
    exact ⟨length_leBytes .., completionBytes_field 0 rfl (by decide) rfl (by decide),
      completionBytes_field 1 rfl (by decide) rfl (by decide),
      completionBytes_field 3 rfl (by decide) rfl (by decide), completionBytes_field 5 rfl (by decide) rfl (by decide),
      completionBytes_field 6 rfl (by decide) rfl (by decide), completionBytes_field 7 rfl (by decide) rfl (by decide),
      completionBytes_field 8 rfl (by decide) rfl (by decide), completionBytes_field 9 start' (by decide) rfl (by decide),
      completionBytes_field 10 finish' (by decide) rfl (by decide)⟩

end Sys2Proof.Machine
end

section
/-! SUPPORT. What a return from a handler leaves of its job, and when a TRET waits; and O29. -/

namespace Sys2Proof.Machine

/-! ### A return from a handler (R227) -/

section Handler

variable {s : State} {n : Nat} {j : Job} {hd : Handler} (job : s.jobs[n]? = some j) (handling : j.handler = some hd)

include job handling

/-- After a synchronous trap the streams go on where `returned` says. -/
theorem trapReturn_returns (sync : (j.regs hd.stream hd.slot).tinfo.getLsbD 15 = false) (next : Bool) :
    s.trapReturn n next false = s.setJob n (returned s.tick j hd next) := by
  simp only [State.trapReturn, job, handling, sync, Bool.false_eq_true, or_self, if_false]
  by_cases own : hd.stream = .c
  · simp only [returned, own, if_true]
    rfl
  · simp only [returned, own, if_false]
    rfl

/-- TRET.abort, and every return from an asynchronous trap, aborts the job with the trap's record and writes no memory (R231). -/
theorem trapReturn_aborts {next abort : Bool} (runs : j.phase = .running)
    (aborts : abort = true ∨ (j.regs hd.stream hd.slot).tinfo.getLsbD 15 = true) :
    (s.trapReturn n next abort).jobs[n]? = some (abortedBy hd.stream
        ⟨(j.regs hd.stream hd.slot).tcause.setWidth 8, (j.regs hd.stream hd.slot).tpc, (j.regs hd.stream hd.slot).tlane,
          (j.regs hd.stream hd.slot).tinfo⟩ j) ∧
      (s.trapReturn n next abort).mem = s.mem := by
  simp only [State.trapReturn, job, handling, if_pos aborts]
  exact abortAt_self job (by simp [runs])

end Handler

/-! ### TRET (R227) -/

section Tret

variable {s s1 : State} {h : Hdr} {c : Cursor} {j : Job} {hd : Handler} {next abort : Bool} (run : Runs s h [] none c j s1)

include run

/-- Once what its C has issued before is complete, a TRET in a handler returns. -/
theorem tretWord_returns (handling : j.handler = some hd)
    (complete : ((j.regs c.stream c.slot).retireQ.any fun e => !j.entryDone s1.tick e) = false) :
    tretWord h next abort s = .next { s1.trapReturn c.job next abort with cursor := none } := by
  refine scalarWord_stop run (s2 := { s1.trapReturn c.job next abort with cursor := none }) ?_
  simp only [handling, Option.isNone_some, complete, Bool.false_eq_true, if_false]

/-- Until then it waits. -/
theorem tretWord_waits (handling : j.handler = some hd) (early : c.late = false)
    (older : ((j.regs c.stream c.slot).retireQ.any fun e => !j.entryDone s1.tick e) = true) :
    tretWord h next abort s = .next (s1.rollback c) := by
  obtain ⟨enters, guard, free⟩ := run
  refine runWord_stall enters ?_ early
  simp only [scalarBody, guard, free, handling, Option.isNone_some, older, Bool.false_eq_true, if_false, if_true]

/-- Outside a handler it is ILLEGAL. -/
theorem tretWord_illegal (idle : j.handler = none) (ready : HandlerReady c) :
    tretWord h next abort s = .next (trapTaken s1 c ⟨causeIllegal, c.pc, 0, BitVec.ofNat 64 c.index <<< 8⟩) := by
  refine scalarWord_raised run ready (by decide) ?_
  simp only [idle, Option.isNone_none, if_true]

end Tret

/-- Settles O29: a TRET returns, aborts or waits by its handler's record and by what is older, and outside a handler traps. -/
theorem trapReturn : Obligations.TrapReturn := by
  unfold Obligations.TrapReturn
  intro s h c j s1 run inC
  refine ⟨fun hd handling slot => ?handler, fun idle ready =>
    ⟨tretWord_illegal run idle ready, tretWord_illegal run idle ready, tretWord_illegal run idle ready⟩⟩
  intro x t older aborts
  have same : older = (j.regs c.stream c.slot).retireQ.any fun e => !j.entryDone s1.tick e := by rw [inC]
  refine ⟨fun complete => ?complete, fun waits early => ?waits⟩
  case waits =>
    have older := same.symm.trans waits
    exact ⟨tretWord_waits run handling early older, tretWord_waits run handling early older, tretWord_waits run handling early older⟩
  case complete =>
    have complete := same.symm.trans complete
    have ends (next abort : Bool) (runs : j.phase = .running) (record : abort = true ∨ t.tinfo.getLsbD 15 = true) :
        aborts (tretWord h next abort s) := by
      obtain ⟨stopped, mem⟩ := trapReturn_aborts (next := next) run.1.job handling runs record
      exact ⟨_, _, tretWord_returns run handling complete, stopped, rfl, rfl, mem⟩
    have goesOn (sync : t.tinfo.getLsbD 15 = false) (next : Bool) :
        tretWord h next false s = .next { s1 with jobs := s1.jobs.set c.job (returned s1.tick j hd next), cursor := none } := by
      rw [tretWord_returns run handling complete, trapReturn_returns run.1.job handling sync]
      rfl
    exact ⟨fun sync => ⟨goesOn sync false, goesOn sync true⟩, fun runs => ⟨ends false true runs (.inl rfl), fun async =>
      ⟨ends false false runs (.inr async), ends true false runs (.inr async)⟩⟩⟩

end Sys2Proof.Machine
end

section
/-! SUPPORT. What a descriptor's reservation leaves of the state; the checks of the command words of L and S that find no cause, and
the command that joins those in flight; and O50. -/

namespace Sys2Proof.Machine

/-! ### A reservation at a region's tail (R300 to R302) -/

theorem apRead_accessed (s : State) (w : Who) (va : Word) (n : Nat) : (s.apRead w va n).Ok s := by
  unfold State.apRead
  split
  · exact Accessed.refl s
  · exact (reachAll_accessed ..).bind fun t _ _ => readAll_accessed ..

theorem apWrite_accessed (s : State) (w : Who) (va : Word) (b : List Byte) : (s.apWrite w va b).Ok s := by
  unfold State.apWrite
  split
  · exact Accessed.refl s
  · exact (reachAll_accessed ..).bind fun t _ _ => writeAll_accessed ..

theorem apNum_accessed (s : State) (w : Who) (va : Word) (n : Nat) : (s.apNum w va n).Ok s :=
  (apRead_accessed ..).bind fun t _ _ => .refl t

theorem apPut_accessed (s : State) (w : Who) (va : Word) (n v : Nat) : (s.apPut w va n v).Ok s := apWrite_accessed ..

theorem apDesc_accessed (s : State) (w : Who) (va : Word) : (s.apDesc w va).Ok s :=
  (apNum_accessed ..).bind fun t _ _ => .refl t

theorem apTake_accessed (s : State) (w : Who) (pool : Word) : (s.apTake w pool).Ok s := by
  refine ((apNum_accessed ..).bind fun t _ _ => .refl t : (s.apPool w pool).Ok s).bind fun t p _ => ?_
  dsimp only
  split
  · exact Accessed.refl t
  · exact (apNum_accessed ..).bind fun _ _ _ => (apPut_accessed ..).bind fun _ _ _ => (apPut_accessed ..).bind fun _ _ _ =>
      (apPut_accessed ..).bind fun u _ _ => .refl u

theorem apGrow_accessed (w : Who) (desc : Word) (need fuel : Nat) (held : List Nat) (s : State) :
    (State.apGrow w desc need fuel held s).Ok s := by
  induction fuel generalizing held s with
  | zero => exact Accessed.refl s
  | succ fuel ih =>
    unfold State.apGrow
    refine (apDesc_accessed ..).bind fun t d _ => ?_
    split
    · exact Accessed.refl t
    · refine MRes.Ok.bind ?page fun u g _ => ?_
      case page =>
        split
        · exact Accessed.refl t
        · exact (apTake_accessed ..).bind fun u _ _ => .refl u
      split
      · exact Accessed.refl u
      · split
        · exact Accessed.refl u
        · exact (apPut_accessed ..).bind fun _ _ _ => (apWrite_accessed ..).bind fun v _ _ => ih _ v

/-- A reservation reads and writes memory alone, whose jobs it leaves. -/
theorem apReserve_accessed (s : State) (w : Who) (desc : Word) (n : Nat) : (s.apReserve w desc n).Ok s := by
  unfold State.apReserve
  refine (apDesc_accessed ..).bind fun t d _ => (apGrow_accessed ..).bind fun u g _ => ?_
  split
  · exact Accessed.refl u
  · exact (apDesc_accessed ..).bind fun _ _ _ => (apWrite_accessed ..).bind fun v _ _ => .refl v

/-- A step that finds its pages takes them at once. -/
theorem takingPages_found {α : Type} {s t : State} {w : Who} {f : State → MRes (α ⊕ Nat)} {x : α} (found : f s = .ok t (.inl x)) :
    s.takingPages w f = .ok t (.inl x) := by
  rw [State.takingPages, found]

/-! ### Checks that find no cause (R186, R189, R193 to R203) -/

/-- An ordered copy whose tested addresses are aligned has no cause (R189). -/
theorem orderCauses_nil {r : BitVec 512} {first last : Option Nat} (acq : shAcq r = true → ∀ a ∈ first, a % shEsz r = 0)
    (rel : shRel r = true → ∀ a ∈ last, a % shEsz r = 0) : orderCauses r first last = [] := by
  refine if_neg fun bad => ?_
  simp only [Bool.or_eq_true, Bool.and_eq_true] at bad
  rcases bad with ⟨on, off⟩ | ⟨on, off⟩
  · cases first with
    | none => exact Bool.false_ne_true off
    | some a => simp [acq on a rfl] at off
  · cases last with
    | none => exact Bool.false_ne_true off
    | some a => simp [rel on a rfl] at off

/-- Where a pixel's first byte is read, from a base: nowhere for padding and past the batch (R196). -/
def Pixel.readAt (base : Word) : Pixel → Option Nat
  | .image x => some (displace base x).toNat
  | .past | .pad => none

section Starts

variable {s : State} {sh : BitVec 3} {km ks kn : Src} {c : Cursor} {j : Job} {r : BitVec 512} {a x k : Word} {n : Nat}
  (shape : j.shapeReg c.stream sh = r) (address : c.regs.src km = a) (outer : c.regs.src kn = k) (count : k.toNat = n)

include shape address outer count

/-- A sound walk starts, its lines left to its end (R197, R198). -/
theorem walkStart_go (op : CopyOp) (paths : pathCauses ⟨false, some causeIllegal⟩ r a = []) (acq : shAcq r = false)
    (rel : shRel r = false) (fits : n ≤ shExt r 3) :
    walkStart op sh km kn c j s = .go s { Cmd.fresh c j.nextCmd op r a 0 k with spent := true } := by
  unfold walkStart
  simp only [shape, address, outer, count, paths, acq, rel, Nat.not_lt.2 fits, Bool.or_self, Bool.false_eq_true, if_false,
    List.append_nil, firstCause]

variable (operand : c.regs.src ks = x)

include operand

/-- A sound copy starts. -/
theorem copyStart_go {out : Bool} (paths : pathCauses ⟨out, none⟩ r a = []) (fits : n ≤ shExt r 3)
    (inside : j.spanOk x.toNat (copySpan r n) = true)
    (own : ownSpanBad j r a (dispRange r n).1 ((dispRange r n).2 + shEsz r) n = false)
    (ordered : n = 0 ∨
      (shAcq r = true → (if out then x.toNat else (effBase r a).toNat) % shEsz r = 0) ∧
      (shRel r = true → (if out then (displace (effBase r a) (elemAt r (copyElems r n - 1)).1).toNat
        else x.toNat + (elemAt r (copyElems r n - 1)).2) % shEsz r = 0)) :
    copyStart out sh km ks kn c j s = .go s
      { Cmd.fresh c j.nextCmd (if out then .cpyo else .cpy) r a x k with spent := n == 0, count := n } := by
  have order (at' : Nat) (final : Nat)
      (aligned : n = 0 ∨ (shAcq r = true → at' % shEsz r = 0) ∧ (shRel r = true → final % shEsz r = 0)) :
      orderCauses r (if n = 0 then none else some at') (if n = 0 then none else some final) = [] := by
    rcases aligned with none | ⟨acq, rel⟩
    · exact orderCauses_nil (by simp [none]) (by simp [none])
    · exact orderCauses_nil (fun on a mem => by split at mem <;> simp_all) (fun on a mem => by split at mem <;> simp_all)
  unfold copyStart
  simp only [shape, address, operand, outer, count, paths, Nat.not_lt.2 fits, inside, own, Bool.not_true, Bool.or_self,
    Bool.false_eq_true, if_false, List.nil_append, List.append_nil]
  cases out with
  | false =>
    simp only [Bool.false_eq_true, if_false] at ordered ⊢
    rw [order _ _ ordered]
    rfl
  | true =>
    simp only [if_true] at ordered ⊢
    rw [order _ _ ordered]
    rfl

/-- A sound Sluice command starts; `pool` is whether it pools bags. -/
theorem sluiceStart_go {op : CopyOp} {pool : Bool} {outRows : Nat} (kind : (op == .gathp) = pool)
    (rowCount : (if pool then shNbag r else n) = outRows)
    (rowSize : shRowsz r ≠ 0) (pools : pool = true → shPool r ≠ 0) (reserved : x &&& 0xFFC0_0000_FFC0_0000 = 0)
    (paths : pathCauses ⟨op == .scat, some causeProtection⟩ r a = [])
    (aligned : a.toNat % 8 = 0 ∧ shStride r 0 % 8 = 0 ∧ (x.extractLsb' 0 22).toNat % 8 = 0 ∧ (x.extractLsb' 32 22).toNat % slWidth r = 0)
    (few : n < 2 ^ 24) (indices : j.spanOk (x.extractLsb' 32 22).toNat (n * slWidth r) = true)
    (rows : j.spanOk (x.extractLsb' 0 22).toNat (outRows * shRowsz r) = true)
    (vector : j.spanOk (shFvec r) (8 * shFvcap r) = true)
    (bags : pool = true → j.spanOk (shBags r) (4 * (shNbag r + 1)) = true ∧ bagsBad (bagOffsets j r) n = false ∧
      unitsTouch j.spBad (shBags r) (4 * (shNbag r + 1)) = false) :
    sluiceStart op sh km ks kn c j s = .go s
      { Cmd.fresh c j.nextCmd op r a x k with list := if pool then bagOffsets j r else [], spent := outRows == 0 } := by
  obtain ⟨base, stride, rowsAt, vectorAt⟩ := aligned
  unfold sluiceStart
  simp only [shape, address, operand, outer, count, kind, rowCount, paths, base, stride, rowsAt, vectorAt, indices, rows, vector,
    reserved, Nat.not_le.2 few]
  cases pool with
  | false => simp [causeIf, firstCause, rowSize]
  | true =>
    obtain ⟨span, rising, sound⟩ := bags rfl
    simp [causeIf, firstCause, rowSize, pools rfl, span, rising, sound]

end Starts

/-! ### Joining the commands in flight (R185) -/

section Joins

variable {s s1 s2 : State} {h : Hdr} {d : Dest} {uses : List Src} {c : Cursor} {j : Job}

/-- A command word whose issue finds nothing amiss, and that finds a place, joins the commands in flight, and its retire stands in
the stream's order. -/
theorem cmdWord_joins {first : Src} {start : Cursor → Job → State → CmdRes} {strict : Job → Cursor → Bool} {x : Cmd}
    (slot : c.slot = none) (core : s1.coreInflight j.core < 128) (room : j.cmds.length < 128) (run : Runs s h uses (some d) c j s1)
    (acc : Accessed s1 s2) (id : x.id = j.nextCmd) (go : start c j s1 = .go s2 x) :
    cmdWord h d uses first start strict s = .next (inFlight s2 c h.sig
      { j with nextCmd := j.nextCmd + 1, cmds := j.cmds ++ [x] } d j.nextCmd (strict j c) true) := by
  obtain ⟨enters, guard, free⟩ := run
  have place : (decide (Config.inflight ≤ s1.coreInflight j.core) || decide (Config.inflight ≤ j.cmds.length)) = false := by
    simp [Config.inflight, core, room, Nat.not_le.2]
  have job : s2.jobs[c.job]? = some j := acc.jobs ▸ enters.job
  have regs : j.stream c.stream = j.regs c.stream c.slot := by rw [slot]; rfl
  unfold cmdWord
  refine runWord_stop (s2 := { inFlight s2 c h.sig _ d j.nextCmd (strict j c) true with cursor := none }) enters ?_
  simp only [guard, regs, free, go, place, State.modJob_eq job, id, Bool.false_eq_true, if_false, if_true]
  -- each stream's registers and the commands are fields of their own
  unfold inFlight queueCmd
  rw [acc.tick]
  rcases c.stream <;> rfl

/-- CPYO's append form reserves its bytes at its slot's tail, and joins (R194). -/
theorem execCpyoAppend_joins {sh : BitVec 3} {km ks kn : Src} {r : BitVec 512} {desc : Word} {n off : Nat} (slot : c.slot = none)
    (core : s1.coreInflight j.core < 128) (room : j.cmds.length < 128) (run : Runs s h [km, ks, kn] (some d) c j s1)
    (shape : j.shapeReg c.stream sh = r) (count : (c.regs.src kn).toNat = n) (named : (c.regs.src km).toNat < 4)
    (bound : j.append.get ((c.regs.src km).extractLsb' 0 2).toFin = some desc) (fits : n ≤ shExt r 3)
    (inside : j.spanOk (c.regs.src ks).toNat (copySpan r n) = true)
    (reserved : s1.apReserve (c.who j) desc (copyElems r n * shEsz r) = .ok s2 (.inl off)) :
    execCpyoAppend h d sh km ks kn s = .next (inFlight s2 c h.sig
      { j with
        nextCmd := j.nextCmd + 1
        cmds := j.cmds ++ [{ Cmd.fresh c j.nextCmd .cpyoAppend r (c.regs.src km) (c.regs.src ks) (c.regs.src kn) with
          spent := n == 0, count := copyElems r n * shEsz r, off := off, desc := [desc] }] }
      d j.nextCmd false true) := by
  have acc : (MRes.ok s2 (Sum.inl off : Nat ⊕ Nat)).Ok s1 := reserved ▸ apReserve_accessed ..
  have number : (c.regs.src km).extractLsb' 2 62 = 0 := by
    apply BitVec.eq_of_toNat_eq
    simp only [BitVec.extractLsb'_toNat, Nat.shiftRight_eq_div_pow, Nat.div_eq_of_lt named]
    rfl
  unfold execCpyoAppend
  refine cmdWord_joins slot core room run acc rfl ?_
  simp only [shape, count, bound, number, Nat.not_lt.2 fits, inside, ne_eq, not_true_eq_false, Bool.not_true, Bool.false_eq_true,
    or_self, if_false, takingPages_found (f := fun t => t.apReserve _ _ _) reserved]

/-- CPYC, its descriptor sound, joins with it (R195, R196). -/
theorem execCpyc_joins {sh : BitVec 3} {km ks kn : Src} {r : BitVec 512} {a : Word} {sp n head len : Nat} {desc : List Word}
    (slot : c.slot = none)
    (core : s1.coreInflight j.core < 128) (room : j.cmds.length < 128) (run : Runs s h [km, ks, kn] (some d) c j s1)
    (shape : j.shapeReg c.stream sh = r) (address : c.regs.src km = a) (place : (c.regs.src ks).toNat = sp)
    (at' : (c.regs.src kn).toNat = n)
    (header : leNat (cellGetN j.sp n 64) = head) (length : 64 + 8 * cvNops head = len)
    (words : ((List.range (len / 8)).map fun i => (BitVec.ofNat 64 (leNat (cellGetN j.sp (n + 8 * i) 8)) : Word)) = desc)
    (paths : pathCauses ⟨false, none⟩ r a = []) (aligned : n % 64 = 0) (first : j.spanOk n 64 = true) (all : j.spanOk n len = true)
    (sound : unitsTouch j.spBad n len = false) (legal : cvHeadBad head = false) (ops : (cvOps desc).any cvOpBad = false)
    (order : orderCauses r ((cvPixel desc (shEsz r) 0).readAt (effBase r a)) (some sp) = [])
    (groups : 0 ≤ (cvRange desc 5).1 ∧ (cvRange desc 5).2 < cvNg head)
    (inside : j.spanOk sp (cvPixels desc * cvCg head * shEsz r) = true)
    (batch : shStrict r = true → 0 ≤ (cvRange desc 0).1 ∧ (cvRange desc 0).2 < cvN head)
    (own : ∀ q, cvSpan desc (shEsz r) = some q → ownSpanBad j r a q.1 q.2 1 = false) :
    execCpyc h d sh km ks kn s = .next (inFlight s1 c h.sig
      { j with
        nextCmd := j.nextCmd + 1
        cmds := j.cmds ++ [{ Cmd.fresh c j.nextCmd .cpyc r a (c.regs.src ks) (c.regs.src kn) with
          desc := desc, count := cvPixels desc }] }
      d j.nextCmd false true) := by
  unfold execCpyc
  refine cmdWord_joins slot core room run (.refl s1) rfl ?_
  have low : decide ((cvRange desc 5).1 < 0) = false := by simpa using groups.1
  have high : decide ((cvNg head : Int) ≤ (cvRange desc 5).2) = false := by simpa using groups.2
  have strict : (shStrict r && (decide ((cvRange desc 0).1 < 0) || decide ((cvN head : Int) ≤ (cvRange desc 0).2))) = false := by
    rcases on : shStrict r
    · rfl
    · simpa using batch on
  -- what the checks read of the descriptor by cases: the pixel that comes first, and the span of the memory side
  rcases pixel : cvPixel desc (shEsz r) 0 with _ | _ | v
  all_goals
    rw [pixel] at order
    simp only [Pixel.readAt] at order
    rcases span : cvSpan desc (shEsz r) with _ | q
    all_goals
      simp only [shape, address, place, at', header, length, words, paths, aligned, first, all, sound, legal, ops, pixel, order, low,
        high, inside, strict, span, own]
      rfl

end Joins

/-- Settles O50: each command's checks find no cause, and it joins those in flight. -/
theorem copyCommandWords : Obligations.CopyCommandWords := by
  unfold Obligations.CopyCommandWords
  intro s h d sh km ks kn l1 op c j s1 r a x sp n new joins base last range ordered copyOk slot core room
  refine ⟨fun run => ⟨?cpy, ?cpyo, ?append, ?conv, ?sluice⟩, fun run paths acq rel fits => ?walks⟩
  case cpy =>
    rintro ⟨paths, fits, inside, own⟩ order
    exact cmdWord_joins slot core room run (.refl s1) rfl (copyStart_go rfl rfl rfl rfl rfl paths fits inside own (by simpa using order))
  case cpyo =>
    rintro ⟨paths, fits, inside, own⟩ order
    exact cmdWord_joins slot core room run (.refl s1) rfl (copyStart_go rfl rfl rfl rfl rfl paths fits inside own (by simpa using order))
  case append =>
    intro desc off s2 named bound fits inside reserved
    exact execCpyoAppend_joins slot core room run rfl rfl named bound fits inside reserved
  case conv =>
    intro head len desc g im paths aligned first all sound legal ops order low high inside batch own
    refine execCpyc_joins slot core room run rfl rfl rfl rfl rfl rfl rfl paths aligned first all sound legal ops ?_ ⟨low, high⟩
      inside batch own
    rcases pixel : cvPixel desc (shEsz r) 0 with _ | _ | v <;> rw [pixel] at order <;> exact order
  case sluice =>
    intro rows vec common
    refine ⟨?gath, ?scat, ?gathp⟩
    case gath =>
      rintro ⟨size, reserved, paths, base, stride, rowsAt, vectorAt, few, indices, out, vector⟩
      exact cmdWord_joins slot core room run (.refl s1) rfl (sluiceStart_go rfl rfl rfl rfl rfl (pool := false) rfl rfl size nofun reserved
        paths ⟨base, stride, rowsAt, vectorAt⟩ few indices out vector nofun)
    case scat =>
      rintro ⟨size, reserved, paths, base, stride, rowsAt, vectorAt, few, indices, out, vector⟩
      exact cmdWord_joins slot core room run (.refl s1) rfl (sluiceStart_go rfl rfl rfl rfl rfl (pool := false) rfl rfl size nofun reserved
        paths ⟨base, stride, rowsAt, vectorAt⟩ few indices out vector nofun)
    case gathp =>
      rintro bags ⟨size, reserved, paths, base, stride, rowsAt, vectorAt, few, indices, out, vector⟩ pools span rising sound
      exact cmdWord_joins slot core room run (.refl s1) rfl (sluiceStart_go rfl rfl rfl rfl rfl (pool := true) rfl rfl size (fun _ => pools)
        reserved paths ⟨base, stride, rowsAt, vectorAt⟩ few indices out vector fun _ => ⟨span, rising, sound⟩)
  case walks =>
    intro walk
    exact ⟨cmdWord_joins slot core room run (.refl s1) rfl (walkStart_go rfl rfl rfl rfl (.pref l1) paths acq rel fits),
      cmdWord_joins slot core room run (.refl s1) rfl (walkStart_go rfl rfl rfl rfl (.cflush op) paths acq rel fits)⟩

end Sys2Proof.Machine
end

section
/-! SUPPORT. SHAPE, CWAIT and CSTAT; what a walk of lines leaves of the state; and how a command goes on, completes or stops: O51. -/

namespace Sys2Proof.Machine

/-! ### SHAPE, CWAIT, CSTAT (R183, R192, R199) -/

section Words

variable {s s1 : State} {h : Hdr} {c : Cursor} {j : Job}

/-- A sound record becomes a shape register of its stream (R182, R183). -/
theorem execShape_loads {sh : BitVec 3} {ks : Src} {at' : Nat} {r : BitVec 512} (slot : c.slot = none) (run : Runs s h [ks] none c j s1)
    (place : (c.regs.src ks).toNat = at') (record : BitVec.ofNat 512 (leNat (cellGetN j.sp at' 64)) = r) (aligned : at' % 64 = 0)
    (inside : j.spanOk at' 64 = true) (sound : unitsTouch j.spBad at' 64 = false) (formed : shapeBad r = false) :
    execShape h sh ks s = .next (issued s1 c h.sig (j.setShape c.stream sh r) c.value none) := by
  have bytes : j.spLoad c.slot at' 64 = .ok (cellGetN j.sp at' 64) := by
    rw [slot, spLoad_inside inside sound, cellGetN_eq]
  unfold execShape
  refine scalarWord_modJob (f := fun k => k.setShape c.stream sh r) run ?_
  simp only [place, aligned, bytes, record, formed, ne_eq, not_true_eq_false, Bool.false_eq_true, if_false]

/-- CWAIT passes once no more commands of its stream than it allows are in flight (R192). -/
theorem execCwait_passes {ks : Src} (run : Runs s h [ks] none c j s1) (few : j.streamCmds c.stream ≤ (c.regs.src ks).toNat) :
    execCwait h ks s = .next (issued s1 c h.sig j c.value none) :=
  scalarWord_same run (by simp only [Nat.not_lt.2 few, if_false])

theorem execCwaitAll_passes (run : Runs s h [] none c j s1) (none' : j.streamCmds c.stream = 0) :
    execCwaitAll h s = .next (issued s1 c h.sig j c.value none) :=
  scalarWord_same run (by simp only [none', if_true])

/-- CSTAT of a count of commands: those of its stream, the core's, and those its stream has retired (R199). -/
theorem execCstat_reads {d : Dest} {sel : BitVec 5} {v : Word} (run : Runs s h [] (some d) c j s1)
    (count : (sel = 0 ∧ v = BitVec.ofNat 64 (j.streamCmds c.stream)) ∨ (sel = 1 ∧ v = BitVec.ofNat 64 (s1.coreInflight j.core)) ∨
      (sel = 2 ∧ v = (j.stream c.stream).retired)) :
    execCstat h d sel s = .next (issued s1 c h.sig (j.put c d v) v none) := by
  refine scalarWord_ok (d := some d) run (s2 := s1) ?_ run.1.cursor run.1.job
  rcases count with ⟨rfl, rfl⟩ | ⟨rfl, rfl⟩ | ⟨rfl, rfl⟩ <;> rfl

/-- CSTAT of the count of faults that found no room clears it (R199). -/
theorem execCstat_overflow {d : Dest} (run : Runs s h [] (some d) c j s1) :
    execCstat h d 3 s = .next (issued s1 c h.sig (({ j with overflow := 0 } : Job).put c d j.overflow) j.overflow none) := by
  obtain ⟨lt, _⟩ := List.getElem?_eq_some_iff.1 run.1.job
  refine (scalarWord_ok (d := some d) (j2 := { j with overflow := 0 }) (s2 := s1.setJob c.job { j with overflow := 0 }) (v := j.overflow)
    (nx := none) run ?_ run.1.cursor (by simp [lt])).trans ?_
  · exact congrArg (WRes.ok · j.overflow none) (State.modJob_eq run.1.job _)
  · simp [issued, State.setJob, List.set_set]

end Words

/-! ### A walk of lines (R197, R198) -/

theorem prefHost_accessed {s t : State} {w : Who} {l1 : Bool} {p : Phys} (comes : s.prefHost w l1 p = some t) : Accessed s t := by
  have read := hostRead_accessed s w false l1 p 1
  unfold State.prefHost at comes
  split at comes
  · cases comes
  · split at comes
    next found =>
      cases comes
      rw [found] at read
      exact read
    · cases comes

/-- A line of a walk changes the L1, the replicas, and memory by what goes home. -/
theorem walkLine_accessed {s t : State} {w : Who} {x : Cmd} {va : Word} (acts : s.walkLine w x va = some t) : Accessed s t := by
  have translated := translate_accessed s w va .read
  unfold State.walkLine at acts
  split at acts
  case h_2 => cases acts
  next s1 p found =>
    rw [found] at translated
    refine Accessed.trans translated ?_
    -- a page of host memory first, by the command, and then a page of device memory
    split at acts
    · exact prefHost_accessed acts
    · cases acts
      exact hostFit_accessed ..
    · cases acts
      split
      · exact (writeBackLine_accessed ..).trans (modCore_accessed ..)
      · exact .refl _
    · cases acts
      exact .refl _
    · split at acts
      · cases acts
      · split at acts <;> cases acts
        · have replicated {l : List Replica} : Accessed s1 { s1 with replicas := l } := ⟨rfl, rfl, rfl, rfl, rfl, id⟩
          exact .ite ((Accessed.ite replicated (.refl _)).trans (l1Fill_accessed ..)) (.ite replicated (.refl _))
        · exact l1Clean_accessed ..
        · exact l1Drop_accessed ..
        · exact (l1Drop_accessed ..).trans ⟨rfl, rfl, rfl, rfl, rfl, id⟩
        · exact .refl _

theorem walkAll_accessed (s : State) (w : Who) (x : Cmd) : Accessed s (s.walkAll w x).1 := by
  unfold State.walkAll
  refine List.foldlRecOn (motive := fun a : State × Nat => Accessed s a.1) _ _ (.refl s) fun a reached va _ => ?_
  split
  next t acts => exact reached.trans (walkLine_accessed acts)
  · exact reached

/-! ### How a command goes on, stops and completes (R185, R188, R191) -/

/-- The state once command `x` of job `n` has stopped on a cause that its next unit met at `t`: what walks have left stands, what its
last unit has left is written, and the cause is raised. -/
def State.stopCmd (s : State) (n : Nat) (j : Job) (x : Cmd) (t : State) (cause : BitVec 8) : State :=
  ((({ s.keepWalks (x.who n j) t with ueAt := t.ueAt } : State).flushCmd (x.who n j) x).modJob n fun k =>
    (k.putFaults x).setCmd { x with stopped := true, held := [], fore := [] }).asyncTrap n x.stream
      ⟨cause, x.pc, 0, asyncInfo x.prog⟩

/-- A command whose work is done may complete where its engine moves, a walk in a drain too (R359). -/
theorem completes_allowed {j : Job} {x : Cmd} (spent : x.spent = true) (undone : x.done = false) (going : x.stopped = false)
    (may : j.enginesMove = true ∨ (j.drains = true ∧ x.op.isWalk = true)) :
    (!x.spent || x.done || x.stopped || !(j.enginesMove || (j.drains && x.op.isWalk))) = false := by
  rcases may with moves | ⟨drains, walk⟩
  · simp [spent, undone, going, moves]
  · simp [spent, undone, going, drains, walk]

section Commands

variable {s : State} {n id : Nat} {j : Job} {x : Cmd} (job : s.jobs[n]? = some j) (named : j.cmd? id = some x)

include job named

section Works

variable (moves : j.enginesMove = true) (works : x.works = true) (free : j.cmdHeld x = false)

include moves works free

/-- A unit of work that nothing stops is the whole step. -/
theorem stepCmd_goesOn {t : State} {y : Cmd} (unit : s.runUnit n j x = .ok t y) : s.stepCmd n id = t.setCmd n y := by
  simp only [State.stepCmd, job, named, moves, works, free, unit, Bool.not_true, Bool.or_self, Bool.false_eq_true, if_false]

theorem execSluiceBatch_goesOn {t : State} {y : Cmd} (unit : s.runUnit n j x = .ok t y) (sluice : x.op.isSluice = true) :
    execSluiceBatch n id s = .next (t.setCmd n y) := by
  simp only [execSluiceBatch, job, Option.bind_some, named, sluice, if_true, stepCmd_goesOn job named moves works free unit]

theorem copySegment_goesOn {t : State} {y : Cmd} (unit : s.runUnit n j x = .ok t y) (copy : x.op.isSluice = false) :
    s.copySegment n id = t.setCmd n y := by
  simp only [State.copySegment, job, Option.bind_some, named, copy, Bool.false_eq_true, if_false,
    stepCmd_goesOn job named moves works free unit]

/-- A command whose next unit faults stops. -/
theorem execCommandAsyncFault_fault {t : State} {cause : BitVec 8} (unit : s.runUnit n j x = .fault t cause) :
    execCommandAsyncFault n id s = .next (s.stopCmd n j x t cause) := by
  simp only [execCommandAsyncFault, job, named, moves, works, free, unit, Bool.not_true, Bool.or_self, Bool.false_eq_true, if_false]
  rfl

/-- A translation failure stops a command of a job of a timed launch (R375). -/
theorem execCommandAsyncFault_timed {t : State} {va : Word} {k : FaultKind} {l : Nat} (unit : s.runUnit n j x = .susp t va k l)
    (timed : j.timed = true) : execCommandAsyncFault n id s = .next (s.stopCmd n j x t causeTranslation) := by
  simp only [execCommandAsyncFault, job, named, moves, works, free, unit, timed, Bool.not_true, Bool.or_self, Bool.false_eq_true,
    if_false, if_true]
  rfl

end Works

section Completes

variable (spent : x.spent = true) (undone : x.done = false) (going : x.stopped = false)
  (may : j.enginesMove = true ∨ (j.drains = true ∧ x.op.isWalk = true))

include spent undone going may

/-- A PREF that lacks lines of host memory asks for them first (R391). -/
theorem execCommandComplete_asks (lacks : s.prefAsks (x.who n j) x ≠ []) :
    execCommandComplete n id s =
      .next { s with cxl := s.cxl ++ ((s.prefAsks (x.who n j) x).filterMap fun q => q).dedup } := by
  have some : (s.prefAsks (x.who n j) x).isEmpty = false := by simpa using lacks
  simp only [execCommandComplete, job, named, completes_allowed spent undone going may, some, Bool.not_false,
    Bool.false_eq_true, if_false, if_true]

/-- A command completes with its walk, its fault vector, its count and its exceptions, and its retire may follow. -/
theorem execCommandComplete_ends {w : State × Nat} (lacks : s.prefAsks (x.who n j) x = [])
    (walked : (if x.op.isWalk then s.walkAll (x.who n j) x else (s, x.count)) = w) :
    execCommandComplete n id s = .next (({ w.1 with
      jobs := s.jobs.set n
        (let k := (j.putFaults x).setCmd { x with done := true, count := w.2 }
         k.setStream x.stream ((setEntryValue (k.stream x.stream) id (BitVec.ofNat 64 w.2)).orFlags x.flags)) } : State).settle n) := by
  have acc : Accessed s w.1 := by
    rw [← walked]
    split
    · exact walkAll_accessed ..
    · exact .refl s
  simp only [execCommandComplete, job, named, completes_allowed spent undone going may, lacks, List.isEmpty_nil, walked,
    Bool.not_true, Bool.false_eq_true, if_false, State.modJob_eq (acc.jobs ▸ job), acc.jobs]

end Completes

end Commands

/-- Settles O51: SHAPE, CWAIT and CSTAT by their words, and a command's steps by what its next unit comes to. -/
theorem copyControlAndSteps : Obligations.CopyControlAndSteps := by
  unfold Obligations.CopyControlAndSteps
  refine ⟨?words, ?steps⟩
  case words =>
    intro s h d sh ks c j s1 at' r mine out slot
    refine ⟨fun run aligned inside sound formed => execShape_loads slot run rfl rfl aligned inside sound formed, execCwait_passes,
      execCwaitAll_passes, fun run => ⟨?stream, ?core, ?retired, execCstat_overflow run⟩⟩
    case stream => exact execCstat_reads (sel := 0) run (.inl ⟨rfl, rfl⟩)
    case core => exact execCstat_reads (sel := 1) run (.inr (.inl ⟨rfl, rfl⟩))
    case retired => exact execCstat_reads (sel := 2) run (.inr (.inr ⟨rfl, rfl⟩))
  case steps =>
    intro s n id j x job named
    refine ⟨fun moves works free => ?unit, fun spent undone going may => ?complete⟩
    case unit =>
      intro w stops
      exact ⟨fun t y unit => ⟨execSluiceBatch_goesOn job named moves works free unit, copySegment_goesOn job named moves works free unit⟩,
        fun t cause unit => execCommandAsyncFault_fault job named moves works free unit,
        fun t v k l unit timed => execCommandAsyncFault_timed job named moves works free unit timed⟩
    case complete =>
      intro asks w
      split
      next none => exact execCommandComplete_ends job named spent undone going may none rfl
      next some => exact execCommandComplete_asks job named spent undone going may some

end Sys2Proof.Machine
end

section
/-! SUPPORT. How an iteration of a proofing loop starts, is compared and commits, and how the loop ends: O45. -/

namespace Sys2Proof.Machine

/-! ### The slots of a loop, and what a step needs of the L1s (R290, R390) -/

theorem Job.slot?_of_loop {j : Job} {lp : Loop} (loop : j.loop = some lp) (slot : Nat) : j.slot? slot = lp.slots[slot]? := by
  simp only [Job.slot?, loop, Option.bind_some]

theorem Job.coreOf_slot {j : Job} {lp : Loop} {slot : Nat} {sl : Slot} (loop : j.loop = some lp) (found : lp.slots[slot]? = some sl) :
    j.coreOf (some slot) = sl.core := by
  simp only [Job.coreOf, Job.slot?_of_loop loop, found, Option.map_some, Option.getD_some]

/-- Only the L1 of the slot's own core is emptied. -/
theorem State.flushSlot_eq {s : State} {n slot : Nat} {j : Job} {lp : Loop} {sl : Slot} (job : s.jobs[n]? = some j)
    (loop : j.loop = some lp) (found : lp.slots[slot]? = some sl) : s.flushSlot n slot = s.l1FlushAll [sl.core] := by
  simp only [State.flushSlot, job, Job.coreOf_slot loop found]

/-! ### What a step makes of an iteration with no stores left to release (R294, R299, R303) -/

/-- With no store and no run to release, a release changes nothing and succeeds. -/
theorem State.releaseIter_nil (s : State) (n slot : Nat) : s.releaseIter n slot [] = .ok s true := by
  have placed : s.placeAll n slot [] = .ok s true := by
    unfold State.placeAll
    split <;> rfl
  simp only [State.releaseIter, State.performStores, MRes.bind, placed, if_true]

/-- An access that was made goes on. -/
theorem State.loopAccess_ok {α : Type} {s t : State} {n slot : Nat} {j : Job} (job : s.jobs[n]? = some j) (x : α)
    (f : State → α → State) : s.loopAccess n slot (.ok t x) f = f t x := by
  simp only [State.loopAccess, job]

/-- The compare of R294 and R295: register by register, under PACC's masks where ACC is set. -/
theorem carriesAccepted_iff (r : BitVec 512) (pacc out inn : Vector Word 16) :
    carriesAccepted r pacc out inn = true ↔ ∀ i ∈ carriedOf r,
      if prAcc r then (out.get i ^^^ inn.get i) &&& pacc.get i = 0 else out.get i = inn.get i := by
  unfold carriesAccepted
  rw [List.all_eq_true]
  refine forall₂_congr fun i _ => ?_
  split <;> exact beq_iff_eq

/-! ### A slot takes an iteration (R292 to R294) -/

/-- An iteration that TRIP allows is not refused as past it. -/
theorem notPast_trip {r : BitVec 512} {i : Nat} (within : prTrip r ≠ 0 → i < prTrip r) :
    (prTrip r != 0 && decide (prTrip r ≤ i)) = false := by
  rcases eq_or_ne (prTrip r) 0 with unbounded | bounded
  · simp [unbounded]
  · simpa using fun _ => within bounded

section Starts

variable {s : State} {n slot i : Nat} {j : Job} {lp : Loop} {sl : Slot}
  (job : s.jobs[n]? = some j) (loop : j.loop = some lp) (moves : j.moves = true) (going : lp.ended = false)
  (found : lp.slots[slot]? = some sl) (takes : lp.nextFor slot = some i) (within : prTrip lp.record ≠ 0 → i < prTrip lp.record)

include job loop moves going found takes within

/-- The oldest uncommitted iteration starts confirmed, on the true carries (R294). -/
theorem execProofIterationStart_oldest (oldest : i = lp.committed) (free : s.l1Held sl.core = false) :
    execProofIterationStart n slot s = .next (((s.l1FlushAll [sl.core]).freshPriv n slot).modJob n fun k =>
      { k.confirmFresh lp slot i (s.tick + 6) with proofOk := k.proofOk + 1 }) := by
  simp only [execProofIterationStart, job, loop, takes, found, moves, going, notPast_trip within, free, Bool.not_true, Bool.or_self,
    Bool.false_eq_true, if_false, if_pos oldest, State.flushSlot_eq job loop found]

/-- A younger one runs the guess routine first (R293). -/
theorem execProofIterationStart_guesses (younger : i ≠ lp.committed) (guess : prHasGuess lp.record = true) :
    execProofIterationStart n slot s = .next ((s.freshPriv n slot).modJob n fun k =>
      k.startOn slot (Iter.fresh i .guessing lp.carries) (guessRegs k lp (k.regs .c (some slot)) i (s.tick + 6))) := by
  simp only [execProofIterationStart, job, loop, takes, found, moves, going, notPast_trip within, Bool.not_true, Bool.or_self,
    Bool.false_eq_true, if_false, if_neg younger, if_pos guess]

/-- With no guess routine a younger one waits for the true carries (R293). -/
theorem execProofIterationStart_waits (younger : i ≠ lp.committed) (unguessed : prHasGuess lp.record ≠ true) :
    execProofIterationStart n slot s = .next ((s.freshPriv n slot).modJob n fun k =>
      k.setSlot slot { ((k.slot? slot).getD sl) with running := some (Iter.fresh i .waiting lp.carries), held := false }) := by
  simp only [execProofIterationStart, job, loop, takes, found, moves, going, notPast_trip within, Bool.not_true, Bool.or_self,
    Bool.false_eq_true, if_false, if_neg younger, if_neg unguessed]

end Starts

/-! ### The oldest iteration, once it has finished (R294, R295) -/

/-- The loop once its oldest iteration `it` has committed from slot `sl`, its compare due from the cycle after `now` on. -/
def Loop.afterCommit (lp : Loop) (sl : Slot) (it : Iter) (ended : Bool) (now : Nat) : Loop :=
  { lp with
    slots := lp.slots.set (lp.committed % lp.slots.length) { sl with finished := none }
    flags := lp.flags ||| it.flags, committed := lp.committed + 1, carries := withCarries lp.record lp.carries it.cout, ended := ended
    commitAt := now + 1 }

/-- The state as that commit leaves it. -/
def State.afterCommit (s : State) (n : Nat) (j : Job) (lp : Loop) (sl : Slot) (it : Iter) (ended : Bool) : State :=
  { s.l1FlushAll [sl.core] with jobs := s.jobs.set n { j with loop := some (lp.afterCommit sl it ended s.tick) } }

/-- An iteration is the loop's last: it left by PEXIT, or TRIP is reached (R294). -/
def Loop.isLast (lp : Loop) (it : Iter) : Prop :=
  it.exit = true ∨ (prTrip lp.record ≠ 0 ∧ prTrip lp.record ≤ lp.committed + 1)

theorem Loop.isLast_iff (lp : Loop) (it : Iter) :
    (it.exit || (prTrip lp.record != 0 && decide (prTrip lp.record ≤ lp.committed + 1))) = true ↔ lp.isLast it := by
  simp [Loop.isLast]

section Oldest

variable {s : State} {n : Nat} {j : Job} {lp : Loop} {sl : Slot} {it : Iter}
  (job : s.jobs[n]? = some j) (loop : j.loop = some lp) (found : lp.slots[lp.committed % lp.slots.length]? = some sl)

include job loop found

/-- The slot is free, the loop counts the iteration, and by what `ended` says what is younger is squashed or the next compared. -/
theorem State.commitIter_eq {ended : Bool}
    (stop : (it.exit || (prTrip lp.record != 0 && decide (prTrip lp.record ≤ lp.committed + 1))) = ended) :
    s.commitIter n (lp.committed % lp.slots.length) it =
      if ended then (s.afterCommit n j lp sl it ended).squashFrom n (lp.committed + 1) lp.slots.length
      else (s.afterCommit n j lp sl it ended).proveNext n := by
  have kept : (s.l1FlushAll [sl.core]).jobs = s.jobs := (l1FlushAll_accessed ..).jobs
  have job' : (s.l1FlushAll [sl.core]).jobs[n]? = some j := kept ▸ job
  simp only [State.commitIter, job, loop, Job.slot?_of_loop loop, found, stop, State.flushSlot_eq job loop found,
    State.modJob_eq job', kept, Job.setSlot, Option.map_some]
  rfl

theorem State.commitIter_last (last : lp.isLast it) :
    s.commitIter n (lp.committed % lp.slots.length) it =
      (s.afterCommit n j lp sl it true).squashFrom n (lp.committed + 1) lp.slots.length :=
  State.commitIter_eq job loop found ((lp.isLast_iff it).2 last)

theorem State.commitIter_notLast (more : ¬lp.isLast it) :
    s.commitIter n (lp.committed % lp.slots.length) it = (s.afterCommit n j lp sl it false).proveNext n :=
  State.commitIter_eq job loop found (Bool.eq_false_iff.2 (mt (lp.isLast_iff it).1 more))

variable (done : sl.finished = some it)

include done

section Steps

variable (moves : j.moves = true) (going : lp.ended = false)

include moves going

/-- A finished iteration that is not confirmed yet is compared. -/
theorem execProofCommit_compares (unconfirmed : it.st ≠ .confirmed) : execProofCommit n s = .next (s.proveNext n) := by
  have other : (it.st == IterState.confirmed) = false := beq_eq_false_iff_ne.2 unconfirmed
  simp only [execProofCommit, job, loop, moves, going, Job.slot?_of_loop loop, found, Option.bind_some, done, Option.filter_some,
    other, Bool.and_false, Bool.not_true, Bool.or_self, Bool.false_eq_true, if_false]

/-- A finished and confirmed iteration with nothing left to release commits. -/
theorem execProofCommit_commits (oldest : it.n = lp.committed) (free : s.l1Held sl.core = false) (confirmed : it.st = .confirmed)
    (empty : it.stores = []) (due : lp.commitAt ≤ s.tick) :
    execProofCommit n s = .next (s.commitIter n (lp.committed % lp.slots.length) it) := by
  simp only [execProofCommit, job, loop, moves, going, Job.slot?_of_loop loop, found, Option.bind_some, done, Option.filter_some,
    oldest, confirmed, decide_true, beq_self_eq_true, Bool.and_self, if_true, Bool.not_true, Bool.or_self, Bool.false_eq_true,
    if_false, Job.coreOf_slot loop found, free, Nat.not_lt.2 due, decide_false, empty, State.releaseIter_nil,
    State.loopAccess_ok job]

end Steps

variable (oldest : it.n = lp.committed) (free : s.l1Held sl.core = false)

include oldest free

/-- Accepted carries confirm an iteration that finished on a guess. -/
theorem State.proveNext_confirms (unconfirmed : it.st ≠ .confirmed)
    (accepted : carriesAccepted lp.record j.pacc lp.carries it.cin = true) (empty : it.stores = []) :
    s.proveNext n = { s with
      jobs := s.jobs.set n { j with
        proofOk := j.proofOk + 1
        loop := some { lp with
          slots := lp.slots.set (lp.committed % lp.slots.length) { sl with finished := some { it with st := .confirmed, stores := [] } }
          commitAt := max lp.commitAt (s.tick + 1) } } } := by
  simp only [State.proveNext, job, loop, found, free, done, oldest, unconfirmed, accepted, ne_eq, not_true_eq_false, Bool.false_eq_true,
    if_false, if_true, empty, State.releaseIter_nil, State.loopAccess_ok job, State.modJob_eq job,
    Job.slot?_of_loop loop, Option.getD_some, Job.setSlot, Option.map_some]

/-- Other carries squash it with every younger one, and it runs again. -/
theorem State.proveNext_reruns (unconfirmed : it.st ≠ .confirmed)
    (refused : ¬carriesAccepted lp.record j.pacc lp.carries it.cin = true) :
    s.proveNext n = s.rerunIter n lp.committed lp.slots.length := by
  simp only [State.proveNext, job, loop, found, free, done, oldest, unconfirmed, refused, ne_eq, not_true_eq_false,
    Bool.false_eq_true, if_false]

end Oldest

/-! ### The end of a loop (R252, R292, R295) -/

/-- C at the end of a loop: as at PLOOP, with the committed carries and flags, PLOOP's count written, and past PLOOP no earlier than
128 cycles on. -/
def Job.cAfterLoop (j : Job) (lp : Loop) (now : Nat) : StreamSt :=
  ({ j.c.leave with
    pc := lp.base.pc + 8, k := withCarries lp.record lp.base.k lp.carries, p := lp.base.p, h := lp.base.h
    rstack := lp.base.rstack, stamp := lp.base.stamp, fpflg := lp.flags, out := none, claim := none, skip := false
    notBefore := now + 128 }).write lp.dest (BitVec.ofNat 64 lp.committed)

/-- The job, PLOOP not yet retired: nothing carved, and the carved bytes zero. -/
def Job.afterLoop (j : Job) (lp : Loop) (now : Nat) : Job :=
  { j with
    sp := j.uncarve j.sp, spBad := unitsAfter j.spBad (j.topWindow.2 - carveBytes) carveBytes, loop := none, c := j.cAfterLoop lp now }

theorem execProofLoopEnd_ends {s : State} {n : Nat} {j : Job} {lp : Loop} (job : s.jobs[n]? = some j) (loop : j.loop = some lp)
    (moves : j.moves = true) (ended : lp.ended = true) (free : s.l1HeldAny (j.core :: j.helpers) = false) :
    execProofLoopEnd n s = .next {
      j.helpers.foldl (fun t h => t.modCore h fun k => { k with left := j.uncarve k.left }) (s.l1FlushAll (j.core :: j.helpers)) with
      jobs := s.jobs.set n (retireWord s.tick .c (j.afterLoop lp s.tick)
        ⟨lp.base.pc, none, .discard, BitVec.ofNat 64 lp.committed, lp.sig.reply, lp.sig.tokens, false, false, 0⟩) } := by
  have kept : (j.helpers.foldl (fun t h => t.modCore h fun k => { k with left := j.uncarve k.left })
      (s.l1FlushAll (j.core :: j.helpers))).jobs = s.jobs :=
    ((l1FlushAll_accessed ..).trans (.foldl _ _ (fun _ _ => modCore_accessed ..) _)).jobs
  simp only [execProofLoopEnd, job, loop, ended, moves, free, Bool.not_true, Bool.or_self, Bool.false_eq_true, if_false,
    State.flushGroup, State.setJob, kept]
  rfl

/-- Settles O45: an iteration starts, is compared and commits, and the loop ends, each by the step's equation in its case. -/
theorem proofLoopSteps : Obligations.ProofLoopSteps := by
  unfold Obligations.ProofLoopSteps
  intro s n j lp sl it job loop moves w head
  refine ⟨?start, ?oldest, fun ended free => execProofLoopEnd_ends job loop moves ended free⟩
  case start =>
    intro slot i going found takes within free at'
    split
    next oldest => exact execProofIterationStart_oldest job loop moves going found takes within oldest (free oldest)
    next younger =>
      split
      next guess => exact execProofIterationStart_guesses job loop moves going found takes within younger guess
      next waits => exact execProofIterationStart_waits job loop moves going found takes within younger waits
  case oldest =>
    intro going found done oldest free
    refine ⟨fun confirmed empty due => ?commits, fun unconfirmed => ?compares⟩
    case commits =>
      have step := execProofCommit_commits job loop found done moves going oldest free confirmed empty due
      exact ⟨fun last => step.trans (congrArg _ (State.commitIter_last job loop found last)),
        fun more => step.trans (congrArg _ (State.commitIter_notLast job loop found more))⟩
    case compares =>
      have step := execProofCommit_compares job loop found done moves going unconfirmed
      have accepts := carriesAccepted_iff lp.record j.pacc lp.carries it.cin
      exact ⟨fun accepted empty => step.trans (congrArg _
          (State.proveNext_confirms job loop found done oldest free unconfirmed (accepts.2 accepted) empty)),
        fun refused => step.trans (congrArg _
          (State.proveNext_reruns job loop found done oldest free unconfirmed (mt accepts.1 refused)))⟩

end Sys2Proof.Machine
end

section
/-! SUPPORT. What accesses of a port come to, what a snoop finds in the L1s, and what a link leaves of its requests as it goes down:
O56. -/

namespace Sys2Proof.Machine

/-! ### Accesses of a port (R388 to R390) -/

section Accesses

variable {s : State} {port : Bool} {addr n pa : Nat} {data : List Byte} (up : s.linkIsUp port = true)

section Reached

variable (at' : s.hostToDevice port addr = some pa) (reach : s.portReaches port pa = true)
include up at' reach

theorem State.portRead_served (cached : Bool) (line : oneLine addr n = true) (free : s.portHolds (!port) (lineOf pa) true = false)
    (sound : s.memPoisoned pa n = false) : s.portRead port addr n cached =
      if cached then (s.reply (.data (s.readPhys pa n))).track port (lineOf pa) (s.portHolds port (lineOf pa) true)
      else s.reply (.data (s.readPhys pa n)) := by
  simp [State.portRead, up, line, at', reach, free, sound]

theorem State.portRead_poisoned (cached : Bool) (line : oneLine addr n = true) (free : s.portHolds (!port) (lineOf pa) true = false)
    (bad : s.memPoisoned pa n = true) : s.portRead port addr n cached = s.reply .poison := by
  simp [State.portRead, up, line, at', reach, free, bad]

theorem State.portRead_waits (cached : Bool) (line : oneLine addr n = true) (held : s.portHolds (!port) (lineOf pa) true = true) :
    s.portRead port addr n cached = s := by
  simp [State.portRead, up, line, at', reach, held]

theorem State.portWrite_served (line : oneLine addr data.length = true) (free : s.portHolds (!port) (lineOf pa) true = false) :
    s.portWrite port addr data = (s.writePhys pa data).reply .done := by
  simp [State.portWrite, up, line, at', reach, free]

theorem State.portWrite_waits (line : oneLine addr data.length = true) (held : s.portHolds (!port) (lineOf pa) true = true) :
    s.portWrite port addr data = s := by
  simp [State.portWrite, up, line, at', reach, held]

end Reached

section Unreached

variable (barred : ∀ pa, s.hostToDevice port addr = some pa → s.portReaches port pa = false)
include up barred

theorem State.portRead_refused (cached : Bool) (line : oneLine addr n = true) :
    s.portRead port addr n cached = (s.refuse (portAgent port) addr).reply .error := by
  cases at' : s.hostToDevice port addr with
  | none => simp [State.portRead, up, line, at']
  | some pa => simp [State.portRead, up, line, at', barred pa at']

theorem State.portWrite_refused (line : oneLine addr data.length = true) :
    s.portWrite port addr data = s.refuse (portAgent port) addr := by
  cases at' : s.hostToDevice port addr with
  | none => simp [State.portWrite, up, line, at']
  | some pa => simp [State.portWrite, up, line, at', barred pa at']

end Unreached

end Accesses

/-! ### Answers and snoops (R286, R391) -/

/-- The oldest request is the one answered where its address and its length are the answer's. -/
theorem execCxlCompletion_oldest {s : State} {r : CxlReq} {rest : List CxlReq} {data : List Byte} (oldest : s.cxl = r :: rest)
    (going : r.done = false) (reads : r.data = none) (length : data.length = r.bytes) :
    execCxlCompletion r.port r.addr (some data) s =
      .next { s with cxl := if r.posted then rest else rest ++ [{ r with done := true, answer := some data }] } := by
  cases posted : r.posted <;> simp [execCxlCompletion, oldest, going, reads, length, posted]

theorem execHostCoherenceSnoop_found {s : State} {port : Bool} {line : Nat} {l : HostLine}
    (found : (s.l1Recall port line).hostLines.find? (fun q => q.port == port && q.line == line) = some l) :
    execHostCoherenceSnoop port line s = .next { s.l1Recall port line with
      hostLines := (s.l1Recall port line).hostLines.filter fun q => q != l
      replies := (s.l1Recall port line).replies ++ [.data (lineBytes l.data 0 64)] } := by
  simp only [execHostCoherenceSnoop, found, State.reply]

/-- A recall changes nothing where no L1 has the line. -/
theorem State.l1Recall_of_absent {s : State} {port : Bool} {line : Nat}
    (absent : ∀ c : Fin 96, ∀ q ∈ (s.cores.get c).l1, q.line ≠ hostLineNo port line) : s.l1Recall port line = s := by
  have without : ∀ k ∈ s.cores, ∀ q ∈ k.l1, q.line ≠ hostLineNo port line := by
    intro k mem
    obtain ⟨c, lt, rfl⟩ := Vector.mem_iff_getElem.1 mem
    exact absent ⟨c, lt⟩
  have nothing : (s.cores.toList.flatMap fun k => k.l1.filter fun l => l.line == hostLineNo port line) = [] := by
    simpa using without
  have kept : (s.cores.map fun k => { k with l1 := k.l1.filter fun l => l.line ≠ hostLineNo port line }) = s.cores := by
    refine (Vector.map_congr_left fun k mem => ?_).trans (Vector.map_id s.cores)
    rw [List.filter_eq_self.2 fun q known => decide_eq_true (without k mem q known)]
    rfl
  simp only [State.l1Recall, nothing, List.foldl_nil, kept]

/-! ### A link that goes down (R391, R415) -/

@[simp] theorem State.logError_linkUp (s : State) (r : ErrRec) : (s.logError r).linkUp = s.linkUp := by
  unfold State.logError; split <;> simp
@[simp] theorem State.logError_linkIsUp (s : State) (r : ErrRec) (port : Bool) : (s.logError r).linkIsUp port = s.linkIsUp port := by
  simp [State.linkIsUp]
@[simp] theorem State.logError_errHead (s : State) (r : ErrRec) : (s.logError r).errHead = s.errHead := by
  unfold State.logError; split <;> simp

theorem State.logError_errTail {s : State} (r : ErrRec) (room : s.errTail.toNat - s.errHead.toNat ≠ Config.errLogSize) :
    (s.logError r).errTail = s.errTail + 1 := by
  simp [State.logError, room]

/-- Where the log has room for a record of each write, it holds one of each. -/
theorem State.foldl_logDropped_errTail (l : List CxlReq) {s : State} (small : s.errTail.toNat + l.length < 2 ^ 64)
    (ordered : s.errHead.toNat ≤ s.errTail.toNat) (room : s.errTail.toNat + l.length ≤ s.errHead.toNat + Config.errLogSize) :
    (l.foldl State.logDropped s).errTail = s.errTail + BitVec.ofNat 64 l.length := by
  induction l generalizing s with
  | nil => simp
  | cons r rest ih =>
    rw [List.length_cons] at small room
    have tail : (s.logDropped r).errTail = s.errTail + 1 := State.logError_errTail _ (by omega)
    have head : (s.logDropped r).errHead = s.errHead := State.logError_errHead ..
    have next : (s.errTail + 1).toNat = s.errTail.toNat + 1 := BitVec.toNat_add_of_lt (by simp; omega)
    rw [List.foldl_cons, ih (by rw [tail]; omega) (by rw [tail, head]; omega) (by rw [tail, head]; omega), tail, List.length_cons]
    simp only [BitVec.ofNat_add]
    ac_rfl

/-- The writes on their way over a port that have not been answered. -/
def State.pendingWrites (s : State) (port : Bool) : List CxlReq := s.cxl.filter fun r => r.port == port && !r.done && r.data.isSome

/-- The links with a port's down. -/
def State.withLinkDown (s : State) (port : Bool) : State :=
  { s with linkUp := if port then (s.linkUp.1, false) else (false, s.linkUp.2) }

section Down

variable {s : State} {port : Bool}

theorem State.linkIsUp_withLinkDown : (s.withLinkDown port).linkIsUp port = false := by cases port <;> rfl

theorem State.linkIsUp_not_withLinkDown : (s.withLinkDown port).linkIsUp (!port) = s.linkIsUp (!port) := by cases port <;> rfl

theorem execCxlLinkReset_goesDown (up : s.linkIsUp port = true) : execCxlLinkReset port s =
    .next { (s.pendingWrites port).foldl State.logDropped (s.withLinkDown port) with
      cxl := s.cxl.filterMap ((s.withLinkDown port).cutRequest port) } := by
  simp only [execCxlLinkReset, up, if_true, Bool.not_true]
  rfl

theorem execCxlLinkReset_trains (down : s.linkIsUp port = false) : execCxlLinkReset port s =
    .next ((({ s with linkUp := if port then (s.linkUp.1, true) else (true, s.linkUp.2) } : State).logError { ErrRec.blank with
      kind := 6, unit := agentUnit (portAgent port) }).releaseMsix) := by
  simp only [execCxlLinkReset, down, Bool.not_false, Bool.false_eq_true, if_false]

theorem State.cutRequest_elsewhere {r : CxlReq} (other : r.port ≠ port) : s.cutRequest port r = some r := if_pos (.inl other)

/-- What stays of a request of the port was answered before, or has ended with no answer. -/
theorem State.cutRequest_ends {q r : CxlReq} (left : s.cutRequest port q = some r) (own : r.port = port) :
    r.done = true ∧ (r = q ∨ r.answer = none) := by
  unfold State.cutRequest at left
  split at left
  next untouched =>
    cases left
    exact ⟨untouched.resolve_left (· own), .inl rfl⟩
  next =>
    split at left
    next => cases left
    next => cases left; exact ⟨rfl, .inr rfl⟩

/-- Logging the writes that are lost changes neither the links nor the jobs. -/
theorem State.foldl_logDropped_linkIsUp (l : List CxlReq) (s : State) (port : Bool) :
    (l.foldl State.logDropped s).linkIsUp port = s.linkIsUp port :=
  State.foldl_keeps (State.linkIsUp · port) _ (fun _ _ => State.logError_linkIsUp ..) l s

theorem State.foldl_logDropped_jobs (l : List CxlReq) (s : State) : (l.foldl State.logDropped s).jobs = s.jobs :=
  State.foldl_keeps State.jobs _ (fun _ _ => State.logError_jobs ..) l s

end Down

/-- Settles O56: an access is served, waits or is refused by what its address reaches, an answer and a snoop take what they find, and a
link that goes down cuts its requests one by one. -/
theorem hostPortSteps : Obligations.HostPortSteps := by
  unfold Obligations.HostPortSteps
  intro s port addr n data
  refine ⟨fun up => ⟨fun pa at' reach => ⟨fun free => ⟨?served, ?poisoned, ?written⟩, fun held => ⟨?readWaits, ?writeWaits⟩⟩,
      fun barred => ⟨?readRefused, ?writeRefused⟩⟩,
    fun _ => rfl, ?answer, fun _ _ => execHostCoherenceSnoop_found, ?absent, execCxlLinkReset_trains, ?down⟩
  case served =>
    exact fun line sound => ⟨congrArg _ (State.portRead_served up at' reach true line free sound),
      congrArg _ (State.portRead_served up at' reach false line free sound)⟩
  case poisoned => exact fun line bad => congrArg _ (State.portRead_poisoned up at' reach true line free bad)
  case written =>
    intro line
    have step := State.portWrite_served up at' reach line free
    exact ⟨congrArg _ step, congrArg _ step⟩
  case readWaits => exact fun line => congrArg _ (State.portRead_waits up at' reach true line held)
  case writeWaits => exact fun line => congrArg _ (State.portWrite_waits up at' reach line held)
  case readRefused => exact fun line => congrArg _ (State.portRead_refused up barred true line)
  case writeRefused => exact fun line => congrArg _ (State.portWrite_refused up barred line)
  case answer =>
    rintro r rest oldest rfl rfl going reads length
    exact execCxlCompletion_oldest oldest going reads length
  case absent =>
    intro line l absent found
    have same := State.l1Recall_of_absent absent
    have step := execHostCoherenceSnoop_found (s := s) (port := port) (line := line) (l := l) (by rw [same]; exact found)
    rwa [same] at step
  case down =>
    intro up
    refine ⟨_, execCxlLinkReset_goesDown up, ?own, ?other, State.foldl_logDropped_jobs .., ?ended, ?others, ?nothingLost, ?logged⟩
    case own => exact (State.foldl_logDropped_linkIsUp ..).trans State.linkIsUp_withLinkDown
    case other => exact (State.foldl_logDropped_linkIsUp ..).trans State.linkIsUp_not_withLinkDown
    case ended =>
      intro r mem own
      obtain ⟨q, from', left⟩ := List.mem_filterMap.1 mem
      obtain ⟨done, same | unanswered⟩ := State.cutRequest_ends left own
      · exact ⟨done, .inl (same ▸ from')⟩
      · exact ⟨done, .inr unanswered⟩
    case others => exact fun r mem other => List.mem_filterMap.2 ⟨r, mem, State.cutRequest_elsewhere other⟩
    case nothingLost =>
      intro none
      have empty : s.pendingWrites port = [] := List.length_eq_zero_iff.1 none
      exact congrArg (State.mem <| ·.foldl State.logDropped (s.withLinkDown port)) empty
    case logged => exact State.foldl_logDropped_errTail (s := s.withLinkDown port) (s.pendingWrites port)

end Sys2Proof.Machine
end

section
/-! SUPPORT. Memory at reset; and O7. -/

namespace Sys2Proof.Machine

/-- Settles O7: memory lists no byte at reset. -/
theorem resetMemoryCanonical : Obligations.ResetMemoryCanonical := reset_wf

end Sys2Proof.Machine
end

section
/-! SUPPORT. What a partition's reset makes of its jobs and of the partition, and what a state keeps through it. -/

namespace Sys2Proof.Machine

/-! ### Plain updates -/

@[simp] theorem State.logError_cores (s : State) (r : ErrRec) : (s.logError r).cores = s.cores := by
  unfold State.logError; split <;> simp
@[simp] theorem State.logError_nextSpare (s : State) (r : ErrRec) : (s.logError r).nextSpare = s.nextSpare := by
  unfold State.logError; split <;> simp
@[simp] theorem State.logError_corrected (s : State) (r : ErrRec) : (s.logError r).corrected = s.corrected := by
  unfold State.logError; split <;> simp
@[simp] theorem State.logError_retries (s : State) (r : ErrRec) : (s.logError r).retries = s.retries := by
  unfold State.logError; split <;> simp
@[simp] theorem State.logError_ringDown (s : State) (r : ErrRec) : (s.logError r).ringDown = s.ringDown := by
  unfold State.logError; split <;> simp
@[simp] theorem State.logError_core (s : State) (r : ErrRec) (c : Nat) : (s.logError r).core c = s.core c := by
  simp [State.core]
@[simp] theorem State.modCore_parts (s : State) (c : Nat) (f : Core → Core) : (s.modCore c f).parts = s.parts :=
  (modCore_accessed s c f).parts
@[simp] theorem State.modCore_flash (s : State) (c : Nat) (f : Core → Core) : (s.modCore c f).flash = s.flash := by
  unfold State.modCore; split <;> rfl
@[simp] theorem State.modCore_ringDown (s : State) (c : Nat) (f : Core → Core) : (s.modCore c f).ringDown = s.ringDown := by
  unfold State.modCore; split <;> rfl
@[simp] theorem State.modStop_tick (s : State) (n : Nat) (f : StopTlb → StopTlb) : (s.modStop n f).tick = s.tick :=
  (modStop_accessed s n f).tick
@[simp] theorem State.modStop_parts (s : State) (n : Nat) (f : StopTlb → StopTlb) : (s.modStop n f).parts = s.parts :=
  (modStop_accessed s n f).parts
@[simp] theorem State.modStop_ringDown (s : State) (n : Nat) (f : StopTlb → StopTlb) : (s.modStop n f).ringDown = s.ringDown := by
  unfold State.modStop; split <;> rfl
@[simp] theorem State.modPart_ringDown (s : State) (p : Nat) (f : Part → Part) : (s.modPart p f).ringDown = s.ringDown := by
  unfold State.modPart; split <;> rfl

/-- A core changed reads as changed. -/
theorem State.core_modCore_self {s : State} {c : Nat} (lt : c < 96) (f : Core → Core) : (s.modCore c f).core c = f (s.core c) := by
  simp [State.modCore, State.core, lt]

theorem State.modPart_eq {s : State} {part : Nat} {p : Part} (at_part : s.parts[part]? = some p) (f : Part → Part) :
    s.modPart part f = { s with parts := s.parts.set part (f p) } := by
  simp only [State.modPart, at_part]

/-- A partition changed is there as changed. -/
theorem State.modPart_at {s : State} {part : Nat} {p : Part} (at_part : s.parts[part]? = some p) (f : Part → Part) :
    (s.modPart part f).parts[part]? = some (f p) := by
  obtain ⟨lt, -⟩ := List.getElem?_eq_some_iff.1 at_part
  rw [State.modPart_eq at_part]
  exact List.getElem?_set_self lt

/-! ### The jobs of a partition that resets (R421) -/

/-- A job after the reset of a partition: one of its jobs that has not ended is aborted. -/
def Job.stopped (part : Nat) (j : Job) : Job :=
  if j.mem.part ≠ part ∨ j.phase = .retired ∨ j.phase = .aborted then j else abortOne j

theorem Job.stopped_ended {part : Nat} {j : Job} (own : (j.stopped part).mem.part = part) :
    (j.stopped part).phase = .aborted ∨ (j.stopped part).phase = .retired := by
  unfold Job.stopped at own ⊢
  split at own
  case isTrue stays =>
    rw [if_pos stays]
    rcases stays with other | ended | ended
    · exact absurd own other
    · exact .inr ended
    · exact .inl ended
  case isFalse runs =>
    rw [if_neg runs]
    exact .inl rfl

/-- Where the `n`-th step changes job `n` alone, all of them change every job below their number. -/
theorem State.foldl_range_jobs {f : State → Nat → State} {g : Job → Job}
    (step : ∀ t n m, (f t n).jobs[m]? = if m = n then t.jobs[m]?.map g else t.jobs[m]?) (s : State) (k m : Nat) :
    ((List.range k).foldl f s).jobs[m]? = if m < k then s.jobs[m]?.map g else s.jobs[m]? := by
  induction k with
  | zero => rfl
  | succ k ih =>
    rw [List.range_succ, List.foldl_append, List.foldl_cons, List.foldl_nil, step, ih]
    rcases Nat.lt_trichotomy m k with below | rfl | above
    · rw [if_neg below.ne, if_pos below, if_pos (by omega)]
    · rw [if_pos rfl, if_neg (Nat.lt_irrefl m), if_pos (Nat.lt_succ_self m)]
    · rw [if_neg above.ne', if_neg (by omega), if_neg (by omega)]

theorem State.stopJobs_jobs (s : State) (part m : Nat) : (s.stopJobs part).jobs[m]? = s.jobs[m]?.map (Job.stopped part) := by
  refine (State.foldl_range_jobs (g := Job.stopped part) (fun t n m => ?_) s s.jobs.length m).trans ?_
  · rcases job : t.jobs[n]? with _ | j
    · by_cases same : m = n
      · rw [if_pos same, same, job]
        rfl
      · rw [if_neg same]
    · obtain ⟨lt, -⟩ := List.getElem?_eq_some_iff.1 job
      dsimp only
      by_cases stays : j.mem.part ≠ part ∨ j.phase = .retired ∨ j.phase = .aborted
      · rw [if_pos stays]
        split
        next same => rw [same, job, Option.map_some, Job.stopped, if_pos stays]
        next => rfl
      · have freed : (if j.phase = .swapped then t else t.freeCore n j).jobs = t.jobs := by
          split
          · rfl
          · exact (freeCore_coresOnly t n j).jobs
        rw [if_neg stays, State.setJob_jobs, freed]
        split
        next same => rw [same, List.getElem?_set_self lt, job, Option.map_some, Job.stopped, if_neg stays]
        next other => exact List.getElem?_set_ne (Ne.symm other)
  · split
    · rfl
    next past => rw [List.getElem?_eq_none (by omega), Option.map_none]

/-- What stopping the jobs of a partition does not touch. -/
theorem State.stopJobs_keeps {β : Type} (field : State → β) (job : ∀ t n j, field (State.setJob t n j) = field t)
    (core : ∀ t c f, field (State.modCore t c f) = field t) (s : State) (part : Nat) : field (s.stopJobs part) = field s := by
  refine State.foldl_keeps field _ (fun t n => ?_) _ s
  split
  · rfl
  next j _ =>
    split
    · rfl
    · rw [job]
      split
      · rfl
      · exact (State.foldl_keeps field _ (fun _ _ => core ..) _ _).trans (core ..)

/-! ### The start of a reset (R343, R416, R421) -/

/-- A partition as its reset begins. -/
def Part.cut (now : Nat) (p : Part) : Part :=
  { p with
    resetting := true, posted := [], pond := Vector.replicate 16 [], faulthead := p.faulttail, contexts := [], images := []
    nextInlet := Vector.replicate 4 none, launches := []
    outstanding := p.outstanding ++ (p.launches.filter fun (l : Launch) => l.phase != .complete).map (Launch.cutOff now) }

/-- A launch that has not completed is outstanding once its partition's reset has begun. -/
theorem Part.cut_outstanding {p : Part} {l : Launch} (now : Nat) (mem : l ∈ p.launches) (open' : l.phase ≠ .complete) :
    l.cutOff now ∈ (p.cut now).outstanding :=
  List.mem_append_right _ (List.mem_map_of_mem (List.mem_filter.2 ⟨mem, by simpa using open'⟩))

/-- A state whose partition's jobs have stopped and whose copies are let go. -/
def State.quieted (s : State) (part : Nat) (p : Part) : State :=
  let s1 := s.stopJobs part
  let s2 := (s1.partCores p).foldl (fun t c => t.modCore c Core.wiped) s1
  let s3 := p.stops.foldl (fun t n => t.modStop n fun _ => ⟨[], [], []⟩) s2
  { s3 with replicas := s3.replicas.filter fun r => r.part ≠ part, hostLines := s3.hostLines.filter fun l => l.part ≠ part }

section Reset

variable {s : State} {part : Nat} {p : Part}

theorem State.beginReset_eq (at_part : s.parts[part]? = some p) : s.beginReset part =
    ((s.quieted part p).modPart part (Part.cut s.tick)).logError { ErrRec.blank with kind := 0xB, stop := p.low, unit := 0xC } := by
  simp only [State.beginReset, at_part]
  rfl

/-- What the start of a reset keeps before the partition itself changes. -/
theorem State.quieted_keeps {β : Type} (field : State → β) (stopped : field (s.stopJobs part) = field s)
    (core : ∀ t c f, field (State.modCore t c f) = field t) (stop : ∀ t n f, field (State.modStop t n f) = field t)
    (copies : ∀ t r h, field { t with replicas := r, hostLines := h } = field t) : field (s.quieted part p) = field s :=
  (copies ..).trans <| (State.foldl_keeps field _ (fun _ _ => stop ..) _ _).trans <|
    (State.foldl_keeps field _ (fun _ _ => core ..) _ _).trans stopped

theorem State.quieted_parts : (s.quieted part p).parts = s.parts :=
  State.quieted_keeps State.parts (State.stopJobs_keeps _ (fun _ _ _ => rfl) State.modCore_parts s part) State.modCore_parts
    State.modStop_parts fun _ _ _ => rfl

/-- A reset begins by changing the partition alone among the partitions. -/
theorem State.beginReset_parts (at_part : s.parts[part]? = some p) :
    (s.beginReset part).parts = s.parts.set part (p.cut s.tick) := by
  rw [State.beginReset_eq at_part, State.logError_parts, State.modPart_eq (by rwa [State.quieted_parts]), State.quieted_parts]

theorem State.beginReset_jobs (at_part : s.parts[part]? = some p) (m : Nat) :
    (s.beginReset part).jobs[m]? = s.jobs[m]?.map (Job.stopped part) := by
  have kept : (s.quieted part p).jobs = (s.stopJobs part).jobs :=
    (State.foldl_keeps State.jobs _ (fun _ _ => (modStop_accessed ..).jobs) _ _).trans
      (State.foldl_keeps State.jobs _ (fun _ _ => (modCore_accessed ..).jobs) _ _)
  rw [State.beginReset_eq at_part, State.logError_jobs, State.modPart_jobs, kept, State.stopJobs_jobs]

end Reset

/-- What the start of a reset does not touch. -/
theorem State.beginReset_keeps {β : Type} (field : State → β) (job : ∀ t n j, field (State.setJob t n j) = field t)
    (core : ∀ t c f, field (State.modCore t c f) = field t) (stop : ∀ t n f, field (State.modStop t n f) = field t)
    (copies : ∀ t r h, field { t with replicas := r, hostLines := h } = field t)
    (partition : ∀ t n f, field (State.modPart t n f) = field t) (log : ∀ t r, field (State.logError t r) = field t)
    (s : State) (part : Nat) : field (s.beginReset part) = field s := by
  rcases at_part : s.parts[part]? with _ | p
  · simp only [State.beginReset, at_part]
  · rw [State.beginReset_eq at_part, log, partition]
    exact State.quieted_keeps field (State.stopJobs_keeps field job core s part) core stop copies

@[simp] theorem State.beginReset_tick (s : State) (part : Nat) : (s.beginReset part).tick = s.tick :=
  State.beginReset_keeps State.tick State.setJob_tick State.modCore_tick State.modStop_tick (fun _ _ _ => rfl) State.modPart_tick
    State.logError_tick s part

@[simp] theorem State.beginReset_ringDown (s : State) (part : Nat) : (s.beginReset part).ringDown = s.ringDown :=
  State.beginReset_keeps State.ringDown State.setJob_ringDown State.modCore_ringDown State.modStop_ringDown (fun _ _ _ => rfl)
    State.modPart_ringDown State.logError_ringDown s part

/-- A partition after the start of a reset resets, or is another and as before. -/
theorem State.beginReset_part {s : State} {part n : Nat} {q : Part} (after : (s.beginReset part).parts[n]? = some q) :
    q.resetting = true ∨ (n ≠ part ∧ s.parts[n]? = some q) := by
  rcases at_part : s.parts[part]? with _ | p
  · simp only [State.beginReset, at_part] at after
    exact .inr ⟨fun same => (by rw [same, at_part] at after; cases after), after⟩
  · rw [State.beginReset_parts at_part, List.getElem?_set] at after
    split at after
    next =>
      split at after
      · cases after
        exact .inl rfl
      · cases after
    next other => exact .inr ⟨Ne.symm other, after⟩

theorem State.foldl_beginReset_part (l : List Nat) {s : State} {n : Nat} {q : Part}
    (after : (l.foldl State.beginReset s).parts[n]? = some q) : q.resetting = true ∨ (n ∉ l ∧ s.parts[n]? = some q) := by
  induction l generalizing s with
  | nil => exact .inr ⟨List.not_mem_nil, after⟩
  | cons part rest ih =>
    rcases ih after with resets | ⟨out, before⟩
    · exact .inl resets
    · rcases State.beginReset_part before with resets | ⟨other, before⟩
      · exact .inl resets
      · exact .inr ⟨by simp [other, out], before⟩

end Sys2Proof.Machine
end

section
/-! SUPPORT. The steps of a partition's reset, of frames and cores taken out of service, and of links; and O58. -/

namespace Sys2Proof.Machine

/-! ### The reset of a partition (R421) -/

section Reset

variable {s : State} {a : Agent} {part : Nat} {p : Part}

theorem execPartitionReset_refused (hears : s.hears a = true) (at_part : s.parts[part]? = some p) (barred : p.writable part a = false) :
    execPartitionReset a part s = .next (s.refuse a (p.block + 0x148)) := by
  simp [execPartitionReset, hears, at_part, barred]

theorem execPartitionReset_begins (hears : s.hears a = true) (at_part : s.parts[part]? = some p) (may : p.writable part a = true)
    (serves : p.resetting = false) (stops : p.stops ≠ []) : execPartitionReset a part s = .next (s.beginReset part) := by
  simp [execPartitionReset, hears, at_part, may, serves, stops]

/-- A partition as its reset ends (R335, R343). -/
def Part.renewed (epoch : BitVec 16) (p : Part) : Part :=
  { p with
    resetting := false, epoch := epoch, count := 0, consumeAt := 0, outstanding := []
    launches := p.outstanding.map fun l => { l with phase := .draining, cores := [], admitted := none } }

theorem execPartitionResetDone_ends (at_part : s.parts[part]? = some p) (resets : p.resetting = true) (ring : s.ringDown = false)
    (stops : p.stops ≠ []) : execPartitionResetDone part s =
      .next ((s.zeroPart part).nextEpoch.1.modPart part (Part.renewed (s.flash.epoch + 1))) := by
  simp only [execPartitionResetDone, at_part, resets, ring, State.zeroing, List.isEmpty_eq_false_iff.2 stops, Bool.not_true,
    Bool.or_self, Bool.false_and, Bool.false_eq_true, if_false]
  rfl

end Reset

/-- An address that a store lists nothing for reads zero. -/
theorem cellGet_unlisted {m : List Host.Cell} {a : Nat} (unlisted : ∀ c ∈ m, c.1 ≠ a) : cellGet m a = 0 := by
  induction m with
  | nil => rfl
  | cons c t ih =>
    obtain ⟨other, rest⟩ := List.forall_mem_cons.1 unlisted
    rw [cellGet, if_neg other, ih rest, ite_self]

theorem State.zeroPart_reads {s : State} {part x : Nat} (own : s.ownerOf x = some part) : cellGet (s.zeroPart part).mem x = 0 := by
  refine cellGet_unlisted fun c kept at' => ?_
  have out := (List.mem_filter.1 kept).2
  simp [at', own] at out

/-! ### The scrub and frames (R418, R419) -/

theorem execPatrolScrub_found {s : State} {line : Nat} (bad : ∃ b ∈ s.memBad, b.1 = line) :
    execPatrolScrub line s = .next ({ s with free := s.free + 1 }.logError { ErrRec.blank with
      kind := 3, unit := 8, addr := 64 * line, stop := (s.homeOf (64 * line)).getD 0xFF
      syn := (Config.freeWord s.free).toNat }) := by
  have any : (s.memBad.any fun p => p.1 == line) = true := by simpa using bad
  simp only [execPatrolScrub, any, if_true]

section Frame

variable {s : State} {frame : Nat} {pkg : Fin 12} (home : s.frameStop frame = some pkg.val) (fails : s.frameFails frame = true)
  (crumb : s.retireHeld frame = false) (used : s.flash.retired.contains frame = false)

include home fails crumb used

theorem execFrameRetire_remaps (fresh : (s.flash.remap.any fun z => z.1 == frame) = false)
    (spare : s.nextSpare.get pkg < Config.spareFrames) :
    ∃ t, execFrameRetire frame s = .next t ∧ t.flash.retired = s.flash.retired ∧
      t.flash.remap =
        (frame, (pkg.val + 1) * Config.packageFrames - Config.spareFrames + s.nextSpare.get pkg) :: s.flash.remap ∧
      t.nextSpare.get pkg = s.nextSpare.get pkg + 1 ∧ t.jobs = s.jobs := by
  have others : (s.flash.remap.filter fun q => q.1 ≠ frame) = s.flash.remap :=
    List.filter_eq_self.2 fun q mem => by simpa using List.any_eq_false.1 fresh q mem
  rw [Vector.get_eq_getElem] at spare ⊢
  simp only [execFrameRetire, fails, crumb, used, home, pkg.isLt, spare, Bool.not_true, Bool.or_self, Bool.false_eq_true, if_false,
    dif_pos, if_true, others]
  refine ⟨_, rfl, ?_, ?_, ?_, State.logError_jobs ..⟩
  · rw [State.logError_flash]; rfl
  · rw [State.logError_flash]; rfl
  · rw [State.logError_nextSpare, Vector.get_eq_getElem]
    exact Vector.getElem_set_self ..

theorem execFrameRetire_retires (none' : Config.spareFrames ≤ s.nextSpare.get pkg) :
    ∃ t, execFrameRetire frame s = .next t ∧ t.flash.retired = frame :: s.flash.retired ∧ t.flash.remap = s.flash.remap ∧
      t.jobs = s.jobs := by
  rw [Vector.get_eq_getElem] at none'
  simp only [execFrameRetire, fails, crumb, used, home, pkg.isLt, Nat.not_lt.2 none', Bool.not_true, Bool.or_self, Bool.false_eq_true,
    if_false, dif_pos]
  refine ⟨_, rfl, ?_, ?_, State.logError_jobs ..⟩
  · rw [State.logError_flash]; rfl
  · rw [State.logError_flash]; rfl

end Frame

/-! ### Cores (R10, R420) -/

theorem State.writeBackLine_flash (s : State) (l : L1Line) : (s.writeBackLine l).flash = s.flash := by
  unfold State.writeBackLine
  split
  · rfl
  · split
    · rfl
    · exact State.foldl_keeps State.flash _ (fun t i => by split <;> rfl) _ s

theorem State.l1Flush_flash (s : State) (core : Nat) : (s.l1Flush core).flash = s.flash :=
  (State.modCore_flash ..).trans (State.foldl_keeps State.flash _ State.writeBackLine_flash _ s)

theorem State.dropUnfit_core (s : State) (part c : Nat) : (s.dropUnfit part).core c = s.core c := by
  unfold State.dropUnfit
  split
  · rfl
  · unfold State.modPart
    split <;> rfl

section Spare

variable {s : State} {core : Nat} (lt : core < 96) (fails : (s.core core).failing = true) (on : (s.core core).disabled = false)
  (empty : (s.core core).empty = true)

include lt fails on empty

/-- The stop's spare takes the number of a failing core. -/
theorem execSpareCoreSubstitute_spare (stop : stopOf core < 12) (free : s.flash.spares[stopOf core] = 0xF)
    (sound : s.badSpares.contains (stopOf core) = false) :
    ∃ t, execSpareCoreSubstitute core s = .next t ∧ t.flash.spares[stopOf core] = BitVec.ofNat 4 (core % 8) ∧
      (t.core core).failing = false ∧ (t.core core).l1 = [] ∧ (t.core core).tlb = [] := by
  simp only [execSpareCoreSubstitute, fails, on, empty, free, sound, stop, Bool.not_true, Bool.or_self, Bool.false_eq_true, if_false,
    dif_pos, and_self, if_true]
  refine ⟨_, rfl, ?_, ?_⟩
  · simp only [State.logError_flash, State.modCore_flash]
    exact Vector.getElem_set_self ..
  · rw [State.logError_core, State.core_modCore_self lt]
    exact ⟨rfl, rfl, rfl⟩

/-- Without a spare a failing core is disabled. -/
theorem execSpareCoreSubstitute_disables (stop : stopOf core < 12)
    (none' : ¬(s.flash.spares[stopOf core] = 0xF ∧ s.badSpares.contains (stopOf core) = false)) :
    ∃ t, execSpareCoreSubstitute core s = .next t ∧ (t.core core).disabled = true := by
  simp only [execSpareCoreSubstitute, fails, on, empty, none', stop, Bool.not_true, Bool.or_self, Bool.false_eq_true, if_false, dif_pos]
  refine ⟨_, rfl, ?_⟩
  split
  · rw [State.logError_core, State.core_modCore_self lt]
  · rw [State.dropUnfit_core, State.logError_core, State.core_modCore_self lt]

end Spare

/-! ### Links (R412, R422) -/

/-- A corrected error of a unit other than device memory is listed at its place, and changes no job and no link. -/
theorem State.countCorrected_elsewhere (s : State) {unit : Nat} (other : unit ≠ 8) (place : Nat) :
    (s.countCorrected unit place).corrected = (unit, place, s.tick) :: s.corrected ∧ (s.countCorrected unit place).jobs = s.jobs ∧
      (s.countCorrected unit place).retries = s.retries := by
  simp only [State.countCorrected, if_neg other]
  split
  · exact ⟨State.logError_corrected .., State.logError_jobs .., State.logError_retries ..⟩
  · exact ⟨rfl, rfl, rfl⟩

section Link

variable {s : State} {link : Nat}

theorem State.retriesOf_first {run : Nat × Nat} {rest : List (Nat × Nat × Nat)} (first : s.retries = (link, run) :: rest) :
    s.retriesOf link = run := by
  simp [State.retriesOf, first]

theorem execFlitCrcRetry_counts (below : (s.retriesOf link).1 < 8) :
    ∃ t, execFlitCrcRetry link s = .next t ∧ t.corrected = (9, link % 12, s.tick) :: s.corrected ∧ t.jobs = s.jobs ∧
      t.retriesOf link = (if s.tick ≤ (s.retriesOf link).2 + 40 then (s.retriesOf link).1 + 1 else 1, s.tick) := by
  simp only [execFlitCrcRetry, retryLimit, Nat.not_le.2 below, if_false]
  refine ⟨_, rfl, ?_⟩
  obtain ⟨corrected, jobs, retries⟩ := State.countCorrected_elsewhere (unit := 9) { s with
    retries := (link, if s.tick ≤ (s.retriesOf link).2 + 40 then (s.retriesOf link).1 + 1 else 1, s.tick) ::
      s.retries.filter fun z => z.1 ≠ link } (by decide) (link % 12)
  exact ⟨corrected, jobs, State.retriesOf_first retries⟩

theorem execFlitCrcRetry_full (full : 8 ≤ (s.retriesOf link).1) : execFlitCrcRetry link s = .next s := by
  simp only [execFlitCrcRetry, retryLimit, full, if_true]

theorem execRingLinkRetrain_early (below : (s.retriesOf link).1 < 8) (ok : Bool) : execRingLinkRetrain link ok s = .next s := by
  simp only [execRingLinkRetrain, retryLimit, below, if_true]

theorem execRingLinkRetrain_trains (full : 8 ≤ (s.retriesOf link).1) : execRingLinkRetrain link true s =
    .next (({ s with retries := s.retries.filter fun z => z.1 ≠ link } : State).logError
      { ErrRec.blank with kind := 6, unit := 9, stop := link % 12 }) := by
  simp only [execRingLinkRetrain, retryLimit, Nat.not_lt.2 full, if_false, if_true]

/-- A link that fails at its retraining takes the ring down, and every partition that is there resets. -/
theorem execRingLinkRetrain_fails (full : 8 ≤ (s.retriesOf link).1) :
    ∃ t, execRingLinkRetrain link false s = .next t ∧ t.ringDown = true ∧ ∀ p ∈ t.parts, p.resetting = true ∨ p.stops = [] := by
  simp only [execRingLinkRetrain, retryLimit, Nat.not_lt.2 full, if_false, Bool.false_eq_true]
  refine ⟨_, rfl, ?_, fun p mem => ?_⟩
  · exact (State.foldl_keeps State.ringDown _ State.beginReset_ringDown ..).trans (State.logError_ringDown ..)
  · obtain ⟨n, at_n⟩ := List.mem_iff_getElem?.1 mem
    rcases State.foldl_beginReset_part _ at_n with resets | ⟨out, before⟩
    · exact .inl resets
    · obtain ⟨lt, -⟩ := List.getElem?_eq_some_iff.1 before
      rw [List.mem_filter, before] at out
      by_contra neither
      obtain ⟨serves, there⟩ := not_or.1 neither
      exact out ⟨List.mem_range.2 lt, by simpa using And.intro serves there⟩

end Link

/-- Settles O58: a reset begins and ends, and a line, a frame, a core and a link are repaired, each by its step's equation in its case. -/
theorem repairSteps : Obligations.RepairSteps := by
  unfold Obligations.RepairSteps
  intro s
  refine ⟨fun a part p hears at_part => ⟨execPartitionReset_refused hears at_part, ?begins⟩, ?ends,
    fun _ => execPatrolScrub_found,
    fun frame pkg home fails crumb used =>
      ⟨execFrameRetire_remaps home fails crumb used, execFrameRetire_retires home fails crumb used⟩,
    ?core, fun link => ⟨fun below => ⟨execFlitCrcRetry_counts below, execRingLinkRetrain_early below⟩,
      fun full => ⟨execFlitCrcRetry_full full, execRingLinkRetrain_trains full, execRingLinkRetrain_fails full⟩⟩⟩
  case begins =>
    intro may serves stops
    obtain ⟨lt, -⟩ := List.getElem?_eq_some_iff.1 at_part
    refine ⟨s.beginReset part, p.cut s.tick, execPartitionReset_begins hears at_part may serves stops, ?_, rfl, rfl, rfl, rfl,
      fun l mem going reset => ?_, fun l mem going new => ?_, fun i => ?_, fun n k at_n own => ?_⟩
    · rw [State.beginReset_parts at_part]
      exact List.getElem?_set_self lt
    · have out := Part.cut_outstanding s.tick mem going
      rwa [Launch.cutOff, if_pos reset] at out
    · have out := Part.cut_outstanding s.tick mem going
      rwa [Launch.cutOff, if_neg new] at out
    · exact Vector.getElem_replicate ..
    · rw [State.beginReset_jobs at_part] at at_n
      obtain ⟨j, -, rfl⟩ := Option.map_eq_some_iff.1 at_n
      exact Job.stopped_ended own
  case ends =>
    intro part p at_part resets ring stops
    have zeroed : (s.zeroPart part).nextEpoch.1.parts[part]? = some p := at_part
    refine ⟨_, p.renewed (s.flash.epoch + 1), execPartitionResetDone_ends at_part resets ring stops, State.modPart_at zeroed _,
      rfl, rfl, ?_, rfl, fun x own => ?_, fun l mem => ?_, List.length_map ..⟩
    · rw [State.modPart_eq zeroed]
      rfl
    · rw [readPhys_one, modPart_mem]
      exact congrArg (fun y => [y]) (State.zeroPart_reads own)
    · obtain ⟨l', -, rfl⟩ := List.mem_map.1 mem
      rfl
  case core =>
    intro core lt fails on empty
    have stop : stopOf core < 12 := by
      unfold stopOf
      omega
    have same : core / 8 % 12 = stopOf core := Nat.mod_eq_of_lt stop
    simp only [Vector.get_eq_getElem, same]
    by_cases spare : s.flash.spares[stopOf core] = 0xF ∧ s.badSpares.contains (stopOf core) = false
    · obtain ⟨free, sound⟩ := spare
      obtain ⟨t, step, taken⟩ := execSpareCoreSubstitute_spare lt fails on empty stop free sound
      refine ⟨t, step, fun _ _ => taken, fun without => ?_⟩
      rcases without with inUse | bad
      · exact absurd free inUse
      · exact absurd (sound.symm.trans bad) Bool.false_ne_true
    · obtain ⟨t, step, disabled⟩ := execSpareCoreSubstitute_disables lt fails on empty stop spare
      exact ⟨t, step, fun free sound => absurd ⟨free, sound⟩ spare, fun _ => disabled⟩

end Sys2Proof.Machine
end

section
/-! SUPPORT. The steps of semaphores, of a partition's registers and of the control space's other registers; and O57. -/

namespace Sys2Proof.Machine

/-! ### Semaphores (R395) -/

/-- EXPIRED stands above HOLDER. -/
theorem Sem.word_toNat (q : Sem) : q.word.toNat = q.holder.toNat + 256 * q.expired.toNat := by
  have low := q.holder.isLt
  have high := q.expired.isLt
  rw [Sem.word, BitVec.toNat_setWidth, BitVec.toNat_append, ← Nat.shiftLeft_add_eq_or_of_lt low, Nat.shiftLeft_eq]
  omega

/-- A semaphore replaced. -/
def State.putSem (s : State) (n : BitVec 4) (z : Sem) : State := { s with sems := s.sems.set n.toNat z n.isLt }

section Semaphore

variable {s : State} {a : Agent} {n : BitVec 4}

theorem State.putSem_self : s.putSem n (s.sems.get n.toFin) = s := by
  rw [State.putSem, Vector.get_eq_getElem]
  exact congrArg (fun v => ({ s with sems := v } : State)) (Vector.set_getElem_self ..)

/-- A read answers with the semaphore as the read has left it. -/
theorem execSemaphoreRead_leaves (hears : s.hears a = true) {z : Sem}
    (left : (s.sems.get n.toFin).acquire a s.tick (s.leases.get n.toFin) = z) :
    execSemaphoreRead a n s = .next ((s.putSem n z).reply (.data (leBytes 8 (z.holder.toNat + 256 * z.expired.toNat)))) := by
  subst left
  simp only [execSemaphoreRead, hears, Bool.not_true, Bool.false_eq_true, if_false, Sem.word_toNat]
  rfl

theorem execSemaphoreRead_other (hears : s.hears a = true) (taken : (s.sems.get n.toFin).holder ≠ 0)
    (other : (s.sems.get n.toFin).holder ≠ agentNum a) : execSemaphoreRead a n s = .next (s.reply (.data
      (leBytes 8 ((s.sems.get n.toFin).holder.toNat + 256 * (s.sems.get n.toFin).expired.toNat)))) := by
  rw [execSemaphoreRead_leaves hears (if_neg (not_or.2 ⟨taken, other⟩)), State.putSem_self]

theorem execSemaphoreWrite_leaves (hears : s.hears a = true) {v : Word} {z : Sem}
    (left : (s.sems.get n.toFin).release a v = z) : execSemaphoreWrite a n v s = .next (s.putSem n z) := by
  subst left
  simp only [execSemaphoreWrite, hears, if_true]
  rfl

/-- A write of another value, or by another than the holder, changes nothing. -/
theorem execSemaphoreWrite_ignored (hears : s.hears a = true) {v : Word}
    (idle : v ≠ 0 ∨ (s.sems.get n.toFin).holder ≠ agentNum a) : execSemaphoreWrite a n v s = .next s := by
  rw [execSemaphoreWrite_leaves hears (if_neg (not_and_or.2 idle)), State.putSem_self]

theorem execLeaseExpiry_due {due : Nat} (lease : (s.sems.get n.toFin).due = some due) (past : due ≤ s.tick) :
    execLeaseExpiry n s = .next (match holderPort (s.sems.get n.toFin).holder with
      | some port => (s.putSem n ⟨(s.sems.get n.toFin).expired + 1, 0, none⟩).sendMsix port (s.irqsrc.extractLsb' 0 11)
      | none => s.putSem n ⟨(s.sems.get n.toFin).expired + 1, 0, none⟩) := by
  simp only [execLeaseExpiry, State.expireLease, lease, Nat.not_lt.2 past, if_false]
  rfl

end Semaphore

/-! ### Reading back what is written -/

/-- Dropping the cells below an address changes no byte from there up. -/
theorem cellGet_dropWhile (m : List Host.Cell) {a k : Nat} (le : a ≤ k) :
    cellGet (m.dropWhile fun c => decide (c.1 < a)) k = cellGet m k := by
  induction m with
  | nil => rfl
  | cons c t ih =>
    by_cases lt : c.1 < a
    · rw [List.dropWhile_cons_of_pos (by simpa using lt), ih, cellGet, if_neg (by omega), if_pos (by omega)]
    · rw [List.dropWhile_cons_of_neg (by simpa using lt)]

theorem readPhys_eq_map (s : State) (a n : Nat) : s.readPhys a n = (List.range n).map fun i => cellGet s.mem (a + i) := by
  rw [State.readPhys, cellGetN_eq]
  exact List.map_congr_left fun i _ => cellGet_dropWhile s.mem (Nat.le_add_right a i)

theorem readPhys_writePhys_same {s : State} (w : Memory.wf s.mem) (a : Nat) (b : List Byte) :
    (s.writePhys a b).readPhys a b.length = b := by
  rw [readPhys_eq_map, State.writePhys_mem]
  refine List.ext_getElem (by simp) fun i _ lt => ?_
  rw [List.getElem_map, List.getElem_range, cellGet_cellPutN w, if_pos (by omega), Nat.add_sub_cancel_left,
    List.getD_eq_getElem _ _ lt]

/-! ### A partition's own registers (R355, R393, R394) -/

section Partition

variable {s : State} {a : Agent} {part : Nat} {p : Part}

theorem execPartcfgWrite_held (hears : s.hears a = true) (at_part : s.parts[part]? = some p) (v : Word)
    (held : s.holdsSem 0 a = true) (own : agentReaches a part = true) : execPartcfgWrite a part v s = .next { s with
      parts := s.parts.set part { p with partcfg := (p.partcfg &&& 0x10) ||| (v &&& 0xF) } } := by
  simp [execPartcfgWrite, hears, at_part, held, own, State.modPart_eq at_part]

theorem execPartcfgWrite_refused (hears : s.hears a = true) (at_part : s.parts[part]? = some p) (v : Word)
    (barred : s.holdsSem 0 a = false ∨ agentReaches a part = false) : execPartcfgWrite a part v s = .next (s.refuse a p.block) := by
  rcases barred with barred | barred <;> simp [execPartcfgWrite, hears, at_part, barred]

/-- CLR empties the queue and is not held. -/
theorem execPqcfgClear_clears (hears : s.hears a = true) (at_part : s.parts[part]? = some p) (may : p.writable part a = true)
    (i : BitVec 4) (v : Word) : execPqcfgClear a part i v s = .next { s with
      parts := s.parts.set part { p with
        pqcfg := p.pqcfg.set i.toFin ((v ||| 0x100) &&& 0xBF), pond := p.pond.set i.toFin [] } } := by
  simp [execPqcfgClear, hears, at_part, may, State.modPart_eq at_part, Part.setPq]

theorem execPqcfgClear_refused (hears : s.hears a = true) (at_part : s.parts[part]? = some p) (barred : p.writable part a = false)
    (i : BitVec 4) (v : Word) : execPqcfgClear a part i v s = .next (s.refuse a (p.block + 0x80 + 8 * i.toNat)) := by
  simp [execPqcfgClear, hears, at_part, barred]

theorem execInletReset_refused (hears : s.hears a = true) (at_part : s.parts[part]? = some p) (barred : p.writable part a = false)
    (mask : BitVec 4) : execInletReset a part mask s = .next (s.refuse a (p.block + 0x60)) := by
  simp [execInletReset, hears, at_part, barred]

theorem execInletReset_resets (hears : s.hears a = true) (at_part : s.parts[part]? = some p) (may : p.writable part a = true)
    (mask : BitVec 4) : execInletReset a part mask s =
      .next ({ s with parts := s.parts.set part { p with inletRst := p.inletRst ||| mask } }.resetInlets part) := by
  simp [execInletReset, hears, at_part, may, State.modPart_eq at_part]

end Partition

/-! ### An Inlet's reset (R390, R393) -/

theorem clearInlet_accessed (s : State) (base : Nat) : Accessed s (s.clearInlet base) :=
  .ite (.refl s) <| .ite (logError_accessed ..) <| .ite (.refl s) <|
    (Accessed.foldl _ _ (fun _ _ => writePhys_accessed ..) s).trans (writePhys_accessed ..)

/-- HEAD of an Inlet whose header can be read becomes its TAIL. -/
theorem State.clearInlet_head {s : State} {base : Nat} (inv : s.Inv) (there : base ≠ 0) (size : ringSizeOk (s.inletSize base) = true)
    (sound : s.unreadable base 32 = false) : (s.clearInlet base).readPhys (base + 8) 8 = leBytes 8 (s.inletTail base) := by
  simp only [State.clearInlet, there, size, sound, Bool.false_eq_true, Bool.true_eq_false, if_false]
  have wf := (Accessed.foldl (List.range (min (s.inletSize base) (s.inletTail base - s.inletHead base)))
    (fun t k => t.writePhys (inletSlot base (s.inletSize base) (s.inletHead base + k)) (leBytes 8 0))
    (fun _ _ => writePhys_accessed ..) s).mem inv
  have back := readPhys_writePhys_same wf (base + 8) (leBytes 8 (s.inletTail base))
  rwa [length_leBytes] at back

/-- A partition whose Inlet has been reset. -/
def Part.inletCleared (i : Fin 4) (p : Part) : Part :=
  { p with
    posted := p.posted.filter fun z => z.inlet.toFin != i, inletRst := p.inletRst &&& ~~~(1#4 <<< i.val)
    inlets := p.inlets.set i ((p.nextInlet.get i).getD (p.inlets.get i)), nextInlet := p.nextInlet.set i none }

section Inlet

variable {s : State} {part : Nat} {p : Part} {i : Fin 4}

theorem State.resetInlet_unmarked (at_part : s.parts[part]? = some p) (unmarked : p.inletRst.getLsbD i.val = false) :
    State.resetInlet part s i = s := by
  simp only [State.resetInlet, at_part, unmarked, Bool.not_false, Bool.true_or, if_true]

theorem State.resetInlet_marked (at_part : s.parts[part]? = some p) (marked : p.inletRst.getLsbD i.val = true)
    (free : s.inletHeld (p.inlets.get i).toNat = false) :
    State.resetInlet part s i = (s.clearInlet (p.inlets.get i).toNat).modPart part (Part.inletCleared i) := by
  simp only [State.resetInlet, at_part, marked, free, Bool.not_true, Bool.or_self, Bool.false_eq_true, if_false]
  rfl

theorem State.foldl_resetInlet_unmarked (l : List (Fin 4)) (at_part : s.parts[part]? = some p) (unmarked : p.inletRst = 0) :
    l.foldl (State.resetInlet part) s = s := by
  induction l with
  | nil => rfl
  | cons i rest ih => rw [List.foldl_cons, State.resetInlet_unmarked at_part (by simp [unmarked]), ih]

/-- Where one Inlet is marked, its reset is all there is to do. -/
theorem State.foldl_resetInlet_one {l : List (Fin 4)} (mem : i ∈ l) (at_part : s.parts[part]? = some p)
    (only : p.inletRst = BitVec.twoPow 4 i.val) (free : s.inletHeld (p.inlets.get i).toNat = false) :
    l.foldl (State.resetInlet part) s = (s.clearInlet (p.inlets.get i).toNat).modPart part (Part.inletCleared i) := by
  induction l with
  | nil => cases mem
  | cons j rest ih =>
    rw [List.foldl_cons]
    by_cases same : j = i
    · subst same
      have cleared : (s.clearInlet (p.inlets.get j).toNat).parts[part]? = some p := by rwa [(clearInlet_accessed ..).parts]
      have done : (p.inletCleared j).inletRst = 0 := by
        simp [Part.inletCleared, only, BitVec.twoPow]
      rw [State.resetInlet_marked at_part (by simp [only]) free,
        State.foldl_resetInlet_unmarked rest (State.modPart_at cleared _) done]
    · rw [State.resetInlet_unmarked at_part (by simp [only, Fin.val_inj, same])]
      exact ih ((List.mem_cons.1 mem).resolve_left (Ne.symm same))

/-- The reset of one Inlet: no job changes, a base written meanwhile takes effect, and HEAD becomes TAIL. -/
theorem State.resetInlets_one (inv : s.Inv) (at_part : s.parts[part]? = some p) (only : p.inletRst = BitVec.twoPow 4 i.val)
    (there : (p.inlets.get i).toNat ≠ 0) (size : ringSizeOk (s.inletSize (p.inlets.get i).toNat) = true)
    (sound : s.unreadable (p.inlets.get i).toNat 32 = false) (free : s.inletHeld (p.inlets.get i).toNat = false) :
    (s.resetInlets part).jobs = s.jobs ∧ (s.resetInlets part).parts[part]? = some (p.inletCleared i) ∧
      (s.resetInlets part).readPhys ((p.inlets.get i).toNat + 8) 8 = leBytes 8 (s.inletTail (p.inlets.get i).toNat) := by
  have accessed := clearInlet_accessed s (p.inlets.get i).toNat
  have cleared : (s.clearInlet (p.inlets.get i).toNat).parts[part]? = some p := by rwa [accessed.parts]
  rw [State.resetInlets, State.foldl_resetInlet_one (List.mem_finRange i) at_part only free]
  refine ⟨(State.modPart_jobs ..).trans accessed.jobs, State.modPart_at cleared _, ?_⟩
  rw [State.modPart_eq cleared]
  exact State.clearInlet_head inv there size sound

end Inlet

/-! ### Registers with no behaviour of their own (R392 to R394) -/

/-- A partition is there, and is `p` but for FAULTTAIL. -/
def PartButTail (part : Nat) (p : Part) (s : State) : Prop := ∃ tail, s.parts[part]? = some { p with faulttail := tail }

/-- Writing a fault record moves FAULTTAIL alone (R376). -/
theorem PartButTail.queueFault {part : Nat} {p : Part} {s : State} (h : PartButTail part p s) (n : Nat) :
    PartButTail part p (s.queueFault n) := by
  have moved {t : State} (kept : t.parts = s.parts) (m : Nat) :
      PartButTail part p (t.modPart m fun q => { q with faulttail := q.faulttail + 1 }) := by
    obtain ⟨tail, found⟩ := h
    rw [← kept] at found
    rcases at_m : t.parts[m]? with _ | q
    · simp only [State.modPart, at_m]
      exact ⟨tail, found⟩
    · by_cases same : m = part
      · subst same
        exact ⟨tail + 1, State.modPart_at found _⟩
      · rw [State.modPart_eq at_m]
        exact ⟨tail, (List.getElem?_set_ne same).trans found⟩
  unfold State.queueFault
  split
  · exact h
  · split
    · dsimp only
      split
      · exact h
      · split
        · unfold PartButTail
          rw [(sendMsix_accessed ..).parts]
          exact moved (by rw [State.setJob_parts, State.writePhys_parts]) _
        · exact moved (by rw [State.setJob_parts, State.writePhys_parts]) _
    · exact h

section Register

variable {s : State} {a : Agent} {part : Nat} {p : Part}

/-- Where the register at offset 8 of a partition's block stands in the control space. -/
theorem Part.block_ctxbase (p : Part) : (p.block + 8) % 8 = 0 ∧ p.block + 8 ≠ hdmOffset ∧ ¬ p.block + 8 < 0x10_0000 ∧
    (p.block + 8) / 0x10_0000 * 0x10_0000 = p.block ∧ (p.block + 8) % 0x10_0000 = 8 := by
  unfold Part.block hdmOffset
  omega

theorem State.writeReg_ctxbase (at_block : s.blockPart p.block = some part) (at_part : s.parts[part]? = some p) (v : Word) :
    s.writeReg a (p.block + 8) v =
      if p.writable part a then
        (List.range s.jobs.length).foldl State.queueFault
          { s with parts := s.parts.set part { p with ctxbase := v &&& ~~~0xFFFF#64 } }
      else s.refuse a (p.block + 8) := by
  obtain ⟨aligned, window, low, block, off⟩ := p.block_ctxbase
  have plain : partStep a part p 8 v s = none := rfl
  have written : p.write a (s.inletBusy p) 8 v = some { p with ctxbase := v &&& ~~~0xFFFF#64 } := if_pos rfl
  rw [State.writeReg, if_neg (not_not.2 aligned), if_neg window, if_neg low, block, at_block, off]
  simp only [at_part, plain, written, State.modPart_eq at_part]
  cases p.writable part a <;> rfl

theorem execRegisterWrite_ctxbase (hears : s.hears a = true) (at_block : s.blockPart p.block = some part)
    (at_part : s.parts[part]? = some p) (may : p.writable part a = true) (v : Word) :
    ∃ t q, execRegisterWrite a (p.block + 8) v s = .next t ∧ t.parts[part]? = some q ∧ q.ctxbase = v &&& ~~~0xFFFF#64 := by
  obtain ⟨lt, -⟩ := List.getElem?_eq_some_iff.1 at_part
  have tail : PartButTail part { p with ctxbase := v &&& ~~~0xFFFF#64 } ((List.range s.jobs.length).foldl State.queueFault
      { s with parts := s.parts.set part { p with ctxbase := v &&& ~~~0xFFFF#64 } }) :=
    List.foldlRecOn (motive := PartButTail part _) _ _ ⟨p.faulttail, List.getElem?_set_self lt⟩ fun _ h n _ => h.queueFault n
  obtain ⟨_, found⟩ := tail
  rw [execRegisterWrite, if_pos hears, State.writeReg_ctxbase at_block at_part, if_pos may]
  exact ⟨_, _, rfl, found, rfl⟩

theorem execRegisterWrite_ctxbase_refused (hears : s.hears a = true) (at_block : s.blockPart p.block = some part)
    (at_part : s.parts[part]? = some p) (barred : p.writable part a = false) (v : Word) :
    execRegisterWrite a (p.block + 8) v s = .next (s.refuse a (p.block + 8)) := by
  rw [execRegisterWrite, if_pos hears, State.writeReg_ctxbase at_block at_part, barred, if_neg Bool.false_ne_true]

/-- A write to the module block. -/
theorem execRegisterWrite_module (hears : s.hears a = true) {off : Nat} (aligned : off % 8 = 0) (low : off < 0x10_0000) (v : Word) :
    execRegisterWrite a off v s = .next (s.writeModule a off v) := by
  have window : off ≠ hdmOffset := by
    unfold hdmOffset
    omega
  rw [execRegisterWrite, if_pos hears, State.writeReg, if_neg (not_not.2 aligned), if_neg window, if_pos low]

end Register

/-- Settles O57: a semaphore as its read, write or lease leaves it, a partition's registers by who may write them, and the registers of
the module block. -/
theorem controlSpaceSteps : Obligations.ControlSpaceSteps := by
  unfold Obligations.ControlSpaceSteps
  intro s a hears
  refine ⟨fun n v => ?semaphore, fun part p v at_part => ⟨execPartcfgWrite_held hears at_part v, ?partcfg, fun may => ?writes,
    fun barred => ⟨execInletReset_refused hears at_part barred, fun i => execPqcfgClear_refused hears at_part barred i v,
      fun at_block => execRegisterWrite_ctxbase_refused hears at_block at_part barred v⟩⟩, ?irqsrc, ?bootstat, ?errHead⟩
  case semaphore =>
    exact ⟨fun mine => execSemaphoreRead_leaves hears (if_pos mine), execSemaphoreRead_other hears,
      fun mine => execSemaphoreWrite_leaves hears (if_pos ⟨rfl, mine⟩), execSemaphoreWrite_ignored hears,
      fun _ => execLeaseExpiry_due⟩
  case partcfg => exact execPartcfgWrite_refused hears at_part v
  case writes =>
    refine ⟨fun i inv there size clear sound free => ?_, fun i => execPqcfgClear_clears hears at_part may i v,
      fun at_block => execRegisterWrite_ctxbase hears at_block at_part may v⟩
    obtain ⟨lt, -⟩ := List.getElem?_eq_some_iff.1 at_part
    obtain ⟨jobs, found, head⟩ := State.resetInlets_one
      (s := { s with parts := s.parts.set part { p with inletRst := p.inletRst ||| BitVec.twoPow 4 i.val } }) (i := i) inv
      (List.getElem?_set_self lt) (by simp [clear]) there size sound free
    refine ⟨_, _, execInletReset_resets hears at_part may _, jobs, found, ?_, ?_, head⟩
    · simp [Part.inletCleared, Vector.get_eq_getElem]
    · simp [Part.inletCleared, Vector.get_eq_getElem]
  case irqsrc => exact fun v => execRegisterWrite_module hears (by decide) (by decide) v
  case bootstat => exact fun v => execRegisterWrite_module hears (by decide) (by decide) v
  case errHead =>
    intro v free
    rw [show exec (.registerWrite a 0x218 v) s = .next (s.writeModule a 0x218 v) from
      execRegisterWrite_module hears (by decide) (by decide) v]
    simp [State.writeModule, free]

end Sys2Proof.Machine
end

section
/-! SUPPORT. How the mailbox takes a command and what it leaves as the command ends; and O59. -/

namespace Sys2Proof.Machine

/-! ### A command starts (R390, R431) -/

section Start

variable {s : State} {a : Agent} (hears : s.hears a = true) (sem : s.holdsSem 1 a = true) (idle : s.fwbusy = none)

include hears sem idle

/-- The holder of SEM1 starts a command once no host holds a line of its buffer, which the agent must be free to use. -/
theorem exec_startFw {i : Instr} {f : FwBusy} {n buf : Nat} {cmd : BitVec 8} (step : exec i s = .next (s.startFw a f n))
    (who : f.who = a) (named : f.cmd = cmd) (at_buf : f.buf = buf) (sound : cmd ≠ 1 → f.fail = 0) :
    (s.hostHolds buf n = true → exec i s = .next s) ∧
    (s.hostHolds buf n = false →
      ∃ g : FwBusy, exec i s = .next { s with fwstat := BitVec.ofNat 64 (256 * cmd.toNat + 1), fwbusy := some g } ∧
        g.cmd = cmd ∧ g.who = a ∧ g.buf = buf ∧ (s.mayUse a buf n = false → g.fail = 7) ∧
        (cmd ≠ 1 → s.mayUse a buf n = true → g.fail = 0)) := by
  subst who named at_buf
  rw [step]
  refine ⟨fun held => ?_, fun free => ?_⟩
  · simp [State.startFw, held]
  · have started : s.startFw f.who f n = { s with
        fwstat := BitVec.ofNat 64 (256 * f.cmd.toNat + 1)
        fwbusy := some (if s.mayUse f.who f.buf n then f else { f with fail := fwDenied }) } := by
      simp [State.startFw, hears, sem, idle, free, Nat.mul_comm 256]
    refine ⟨_, congrArg _ started, ?_⟩
    cases s.mayUse f.who f.buf n
    · exact ⟨rfl, rfl, rfl, fun _ => rfl, nofun⟩
    · exact ⟨rfl, rfl, rfl, nofun, fun other _ => sound other⟩

end Start

/-! ### TICK as a command ends -/

theorem forgetSpan_tick (s : State) (a n : Nat) : (s.forgetSpan a n).tick = s.tick :=
  (Accessed.foldl _ _ (fun _ _ => writeBackLine_accessed ..) s).tick

theorem copyFrames_tick (s : State) (src dst n : Nat) : (s.copyFrames src dst n).tick = s.tick := forgetSpan_tick ..

theorem clearTable_tick (s : State) (t : Nat) : (s.clearTable t).tick = s.tick := forgetSpan_tick ..

theorem installLeaf_tick {va target : Nat} {leaf : Word} {fuel level frame : Nat} {free : List Nat} {s : State}
    {r : State × List Nat} (made : installLeaf va target leaf fuel level frame free s = some r) : r.1.tick = s.tick := by
  induction fuel generalizing s level frame free with
  | zero => cases made
  | succ fuel ih =>
    unfold installLeaf at made
    dsimp only at made
    split at made
    · split at made <;> cases made
      rfl
    · split at made
      · split at made
        · cases made
        · exact ih made
      · split at made
        · cases made
        · exact (ih made).trans ((State.writePhys_tick ..).trans (clearTable_tick ..))

theorem installPages_tick {key : BitVec 4} {root : Nat} {tables : List Nat} {l : List ((Nat × ImagePage) × Nat)}
    {done : List ImagePage} {s : State} {r : State × List ImagePage}
    (made : State.installPages key root tables l done s = some r) : r.1.tick = s.tick := by
  induction l generalizing s tables done with
  | nil => cases made; rfl
  | cons q rest ih =>
    unfold State.installPages at made
    dsimp only at made
    split at made
    · cases made
    next leaf => exact (ih made).trans ((installLeaf_tick leaf).trans (copyFrames_tick ..))

/-- An accepted image changes flash, with the counter of its kind, and what the Crust and a Crumb are measured as (R427, R432). -/
theorem adopt_eq (s : State) (f : FwBusy) : ∃ crust cert crumbs flash,
    s.adopt f = { s with crust := crust, cert := cert, crumbs := crumbs, flash := flash } ∧
      flash.svn = if h : f.kind - 1 < 3 then s.flash.svn.set (f.kind - 1) f.svn else s.flash.svn := by
  unfold State.adopt
  extract_lets m low slot fl s1
  split
  · exact ⟨_, _, _, _, rfl, rfl⟩
  · split <;> exact ⟨_, _, _, _, rfl, rfl⟩
  · exact ⟨_, _, _, _, rfl, rfl⟩

theorem adopt_keeps (s : State) (f : FwBusy) : (s.adopt f).tick = s.tick ∧ (s.adopt f).mem = s.mem := by
  obtain ⟨_, _, _, _, eq, -⟩ := adopt_eq s f
  rw [eq]
  exact ⟨rfl, rfl⟩

theorem relayout_tick (s : State) (l : List (List Nat × Bool)) : (s.relayout l).tick = s.tick := by
  refine State.foldl_keeps State.tick _ (fun t n => ?_) _ s
  split
  · split
    · rfl
    · exact (State.modPart_tick ..).trans (State.beginReset_tick ..)
  · rfl

theorem exportImage_tick (s : State) (f : FwBusy) : (s.exportImage f).1.tick = s.tick := by
  unfold State.exportImage
  split
  · rfl
  · dsimp only
    split
    · rfl
    · split
      · rfl
      · exact (State.foldl_keeps State.tick _ (fun _ _ => copyFrames_tick ..) _ _).trans (State.writePhys_tick ..)

theorem importImage_tick (s : State) (f : FwBusy) : (s.importImage f).1.tick = s.tick := by
  unfold State.importImage
  split
  · dsimp only
    split
    · rfl
    · split
      · rfl
      · split
        · rfl
        · split
          · rfl
          · split
            · rfl
            · split
              · rfl
              · split
                · rfl
                next made =>
                  rw [State.modPart_tick, State.writePhys_tick, installPages_tick made, clearTable_tick]
  · rfl

theorem runFw_tick (s : State) (f : FwBusy) (ok : Bool) : (s.runFw f ok).1.tick = s.tick := by
  unfold State.runFw
  split
  · rfl
  · split
    · split
      · exact (adopt_keeps s f).1
      · rfl
    · split
      · rfl
      · dsimp only
        split
        · rfl
        · exact State.writePhys_tick ..
    · dsimp only
      split
      · rfl
      · split
        · exact relayout_tick ..
        · rfl
    · exact State.writePhys_tick ..
    · exact exportImage_tick ..
    · exact importImage_tick ..

/-! ### What a command does as it ends (R427 to R432) -/

section End

variable {s : State} {f : FwBusy} {ok : Bool}

theorem execFwCommandComplete_waits (busy : s.fwbusy = some f) (held : s.fwWaits f = true) :
    execFwCommandComplete ok s = .next s := by
  simp only [execFwCommandComplete, busy, held, if_true]

theorem execFwCommandComplete_ends (busy : s.fwbusy = some f) (free : s.fwWaits f = false) : execFwCommandComplete ok s =
    .next { (s.runFw f ok).1 with
      fwbusy := none, fwstat := BitVec.ofNat 64 (f.cmd.toNat * 256 + (s.runFw f ok).2.toNat) } := by
  simp only [execFwCommandComplete, busy, free, Bool.false_eq_true, if_false]

theorem runFw_failed (failed : f.fail ≠ 0) : s.runFw f ok = (s, f.fail) := if_pos failed

section Passed

variable (passed : f.fail = 0)

include passed

theorem runFw_update (cmd : f.cmd = 1) : s.runFw f ok = if ok then (s.adopt f, fwDone) else (s, fwFailed) := by
  simp [State.runFw, passed, cmd]

theorem runFw_attest_seedless (cmd : f.cmd = 2) (none' : s.seed = none) : s.runFw f ok = (s, fwFailed) := by
  simp [State.runFw, passed, cmd, none']

theorem runFw_attest {seed : BitVec 256} (cmd : f.cmd = 2) (has : s.seed = some seed) (sound : s.memPoisoned f.buf 32 = false) :
    s.runFw f ok = (s.writePhys f.buf (s.report seed (s.readPhys f.buf 32) ++
      signBoth (attestBound seed s.crust) (s.report seed (s.readPhys f.buf 32))), fwDone) := by
  simp [State.runFw, passed, cmd, has, sound]

theorem runFw_record (cmd : f.cmd = 4) : s.runFw f ok = (s.writePhys f.buf (recordBytes s.flash.record), fwDone) := by
  simp [State.runFw, passed, cmd]

end Passed

/-- An accepted image's counter is that of its kind (R427). -/
theorem adopt_svn {k : Fin 3} (kind : f.kind = k.val + 1) : (s.adopt f).flash.svn.get k = f.svn := by
  obtain ⟨_, _, _, _, eq, svn⟩ := adopt_eq s f
  have at_k : f.kind - 1 = k.val := by omega
  rw [eq]
  simp [svn, at_k, Vector.get_eq_getElem]

end End

/-- Settles O59: each command starts alike, and each ends with what it does and its status. -/
theorem mailboxSteps : Obligations.MailboxSteps := by
  unfold Obligations.MailboxSteps
  refine ⟨fun s a stop frames hears sem idle => ?starts, fun s f ok busy => execFwCommandComplete_waits busy,
    fun s f ok busy free => ⟨_, (s.runFw f ok).2, execFwCommandComplete_ends busy free, rfl, rfl, runFw_tick s f ok, ?ends⟩⟩
  case starts =>
    exact ⟨exec_startFw hears sem idle rfl rfl rfl rfl (absurd rfl), exec_startFw hears sem idle rfl rfl rfl rfl fun _ => rfl,
      exec_startFw hears sem idle rfl rfl rfl rfl fun _ => rfl, exec_startFw hears sem idle rfl rfl rfl rfl fun _ => rfl,
      exec_startFw hears sem idle rfl rfl rfl rfl fun _ => rfl, exec_startFw hears sem idle rfl rfl rfl rfl fun _ => rfl⟩
  case ends =>
    refine ⟨fun failed => ?_, fun passed cmd no => ?_, fun passed cmd yes => ?_, fun passed cmd none' => ?_,
      fun seed passed cmd has sound => ?_, fun passed cmd => ?_⟩
    · rw [runFw_failed failed]
      exact ⟨rfl, rfl⟩
    · rw [runFw_update passed cmd, no]
      exact ⟨rfl, rfl⟩
    · rw [runFw_update passed cmd, yes]
      exact ⟨rfl, (adopt_keeps s f).2, fun _ => adopt_svn⟩
    · rw [runFw_attest_seedless passed cmd none']
      exact ⟨rfl, rfl⟩
    · have ended := runFw_attest (ok := ok) passed cmd has sound
      exact ⟨congrArg Prod.snd ended, congrArg (·.1.mem) ended⟩
    · rw [runFw_record passed cmd]
      exact ⟨rfl, rfl⟩

end Sys2Proof.Machine
end
